-- ==== Sys2Proof/Word.lean ====
section
/-! DEFINITION. The bytes and byte groups the console port and the flyer channels carry (R183). -/

namespace Sys2Proof

/-- One byte on the console port or on a flyer channel. -/
abbrev Byte := BitVec 8

/-- A two-byte field: a cue, a template offset or duration, a flag mask (R183). -/
abbrev Word16 := BitVec 16

/-- A three-byte field: a tick, the end of a window, a SET_CLOCK value, a SKIP distance (R183). -/
abbrev Word24 := BitVec 24

end Sys2Proof
end

