-- ==== Sys2Proof/Syntax.lean ====
section
/-! DEFINITION. The commands of the LQ8: one constructor of `Instr` for each row of the opcode table. -/

namespace Sys2Proof

/-- Flyer n, 1 to 8, and its channel n, held as the index n - 1 (00, Numbering). -/
abbrev Flyer := Fin 8
/-- A winch, 0 to 15, and its PERMIT line. -/
abbrev Winch := Fin 16
/-- A keep-out zone, 0 to 7. -/
abbrev Zone := Fin 8
/-- A claim slot, 0 to 31. -/
abbrev Slot := Fin 32

/-- The number of a flyer or channel as the manual and the wire give it (00, Numbering). -/
def flyerNumber (f : Flyer) : Nat := f.val + 1

/-- The two selects of the console port (R157). -/
inductive Select where
  | showSel
  | crewSel
  deriving DecidableEq, Repr

/-- The other select of the port. -/
def Select.other : Select → Select
  | .showSel => .crewSel
  | .crewSel => .showSel

/-- The six bytes of a box operand, in the order of R183. -/
structure BoxBytes where
  x0 : Byte
  x1 : Byte
  y0 : Byte
  y1 : Byte
  z0 : Byte
  z1 : Byte
  deriving DecidableEq, Repr

/-- A frame a flyer motion unit sends, with its payload bytes as carried (R79, R185). -/
inductive InFrame where
  | hello (id revision : Byte)
  | report (x y z flags : Byte)
  | ask (x y z : Byte)
  deriving DecidableEq, Repr

/-- The commands of the console port, by name (R186). -/
inductive Command where
  | status | readClaims | readZones | readFlyers | readTemplates | readHolds | readAlert | readSupply
  | book | amend | cancel
  | retire | forceRetire | holdClaim | resume | dismiss
  | zoneSet | zoneClear | setProtect
  | bind | unbind | clearBreach | reopen
  | hold | release
  | setClock | setSource | skip
  | loadTemplate | dropTemplate | lockTemplate | unlockTemplate | fire
  | setEnables | setAutoclear | clearFlags | clearAlert | clearSupply
  deriving DecidableEq, Repr

/-- The commands and events of the LQ8, one constructor for each row of the opcode table.
Console operands are carried as the wire carries them (R184, R186); a channel or flyer is an index (`Flyer`). -/
inductive Instr where
  /-- STATUS (R165). -/
  | status
  /-- READ_CLAIMS from a slot (R164). -/
  | readClaims (slot : Byte)
  /-- READ_ZONES from a zone (R164). -/
  | readZones (zone : Byte)
  /-- READ_FLYERS from a flyer (R76). -/
  | readFlyers (flyer : Byte)
  /-- READ_TEMPLATES from a set (R155). -/
  | readTemplates (set : Byte)
  /-- READ_HOLDS (R130). -/
  | readHolds
  /-- READ_ALERT (R171). -/
  | readAlert
  /-- READ_SUPPLY (R182). -/
  | readSupply
  /-- BOOK (R29): bit 0 of `presence` says that the end is present. -/
  | book (flyer : Byte) (box : BoxBytes) (start : Word24) (presence : Byte) (stop : Word24)
  /-- AMEND (R31): bit 0 of `presence` is the new end, bit 1 the new box. -/
  | amend (handle presence : Byte) (newEnd : Word24) (newBox : BoxBytes)
  /-- CANCEL (R33). -/
  | cancel (handle : Byte)
  /-- RETIRE (R18). -/
  | retire (handle : Byte)
  /-- FORCE_RETIRE (R19). -/
  | forceRetire (handle : Byte)
  /-- HOLD_CLAIM (R20). -/
  | holdClaim (handle : Byte)
  /-- RESUME (R21, R22). -/
  | resume (handle : Byte)
  /-- DISMISS (R10). -/
  | dismiss (handle : Byte)
  /-- ZONE_SET (R53). -/
  | zoneSet (zone : Byte) (box : BoxBytes) (fixed : Byte)
  /-- ZONE_CLEAR (R57). -/
  | zoneClear (zone : Byte)
  /-- SET_PROTECT (R60). -/
  | setProtect (mode : Byte)
  /-- BIND (R65). -/
  | bind (flyer winch : Byte)
  /-- UNBIND (R67). -/
  | unbind (winch : Byte)
  /-- CLEAR_BREACH (R116). -/
  | clearBreach (flyer : Byte)
  /-- REOPEN (R89). -/
  | reopen (channel : Byte)
  /-- HOLD (R121). -/
  | hold
  /-- RELEASE (R125). -/
  | release (source : Byte)
  /-- SET_CLOCK (R140). -/
  | setClock (value : Word24)
  /-- SET_SOURCE (R138). -/
  | setSource (source : Byte)
  /-- SKIP (R142). -/
  | skip (distance : Word24)
  /-- LOAD_TEMPLATE (R149). -/
  | loadTemplate (cue : Word16) (flyer : Byte) (box : BoxBytes) (offset duration : Word16)
  /-- DROP_TEMPLATE (R151). -/
  | dropTemplate (cue : Word16)
  /-- LOCK_TEMPLATE (R152). -/
  | lockTemplate (cue : Word16)
  /-- UNLOCK_TEMPLATE (R152). -/
  | unlockTemplate (cue : Word16)
  /-- FIRE (R153). -/
  | fire (cue : Word16)
  /-- SET_ENABLES (R168). -/
  | setEnables (mask : Word16)
  /-- SET_AUTOCLEAR (R168). -/
  | setAutoclear (setting : Byte)
  /-- CLEAR_FLAGS (R168). -/
  | clearFlags (mask : Word16)
  /-- CLEAR_ALERT (R172). -/
  | clearAlert
  /-- CLEAR_SUPPLY (R182). -/
  | clearSupply
  /-- UNKNOWN_COMMAND: a command byte that names no command (R160). -/
  | unknownCommand (byte : Byte)
  /-- SELECT_FALL (R157). -/
  | selectFall (sel : Select)
  /-- SELECT_RISE (R159), with the number of bytes of the record then streaming that have been shifted out in full. -/
  | selectRise (sel : Select) (shifted : Nat)
  /-- RECORD_TAKEN: the first byte of a streamed record is shifted out (R163). -/
  | recordTaken
  /-- FRAME_TAKEN: bytes heard back to back on RXD and the last of them, at which a frame is taken where it is the check byte that agrees (R80, R82, log 6). -/
  | frameTaken (ch : Flyer) (bytes : List Byte) (last : Byte)
  /-- FRAME_GAP (R80). -/
  | frameGap (ch : Flyer)
  /-- FRAMING_ERROR (R80). -/
  | framingError (ch : Flyer)
  /-- HELLO at the head of a channel's inbound list (R83). -/
  | hello (ch : Flyer)
  /-- REPORT at the head, at the service of its lookup (R84). -/
  | report (ch : Flyer)
  /-- ASK at the head, at the service of its lookup (R96). -/
  | ask (ch : Flyer)
  /-- CLOSED_CHANNEL_DISCARD (R82). -/
  | closedChannelDiscard (ch : Flyer)
  /-- FRAME_SENT (R90). -/
  | frameSent (ch : Flyer)
  /-- LATE_EXPIRY (R87). -/
  | lateExpiry (ch : Flyer)
  /-- LOST_EXPIRY (R88). -/
  | lostExpiry (ch : Flyer)
  /-- LEASE_EXPIRY (R101). -/
  | leaseExpiry (flyer : Flyer)
  /-- WALK_ACCESS (R36). -/
  | walkAccess
  /-- ZONE_PHASE_READ (R37). -/
  | zonePhaseRead
  /-- INTERNAL_PERIOD_COMPLETION (R136). -/
  | internalPeriodCompletion
  /-- EXT_TICK_PULSE (R137). -/
  | extTickPulse
  /-- PULSE_WATCH_EXPIRY (R137). -/
  | pulseWatchExpiry
  /-- ABANDONMENT (R139). -/
  | abandonment
  /-- STOP_ASSERTION (R122). -/
  | stopAssertion
  /-- RING_ASSERTION (R122). -/
  | ringAssertion
  /-- STOP_DEASSERTION (R122). -/
  | stopDeassertion
  /-- RING_DEASSERTION (R122). -/
  | ringDeassertion
  /-- RIG_LOCK_CHANGE to a level (R58). -/
  | rigLockChange (asserted : Bool)
  /-- BACKUP_ENTRY (R175). -/
  | backupEntry
  /-- RETURN_OF_MAIN (R177). -/
  | returnOfMain
  /-- RESET_ASSERTION (R179). -/
  | resetAssertion
  /-- RESET_DEASSERTION (R179). -/
  | resetDeassertion
  /-- COLD_START (R180). -/
  | coldStart
  /-- MAIN_FALLS_WITHOUT_BACKUP (R178). -/
  | mainFallsWithoutBackup
  /-- CELL_BECOMES_ABSENT (R178). -/
  | cellBecomesAbsent
  /-- BACKUP_PRESENCE_CHANGE to a presence (R174). -/
  | backupPresenceChange (present : Bool)
  /-- SYNC_BYTE: a byte of the sync value (R80). -/
  | syncByte (ch : Flyer)
  /-- UNKNOWN_KIND: a byte that is no kind the part receives (R80). -/
  | unknownKind (ch : Flyer) (kind : Byte)
  /-- COMMAND_BYTE: a command byte naming a command with operands (R158). -/
  | commandByte (byte : Byte)
  deriving DecidableEq, Repr

end Sys2Proof
end

