-- ==== Sys2Proof/Decode.lean ====
section
/-! DEFINITION. The bytes of the console port's commands (R186) and of the channel frames (R185), read and written, and the opcode table's words, of which it gives none. -/

namespace Sys2Proof

/-- The command that a word spells by the opcode table's bits.
The table gives no row any bits, so no word spells a command (log 21). -/
def decodeTableWord (_nbits _w : Nat) : Option Instr := none

/-! ## Fields of more than one byte (R183: most significant byte first) -/

/-- A two-byte field from its bytes in the order sent. -/
def word16 (hi lo : Byte) : Word16 := hi ++ lo

/-- A three-byte field from its bytes in the order sent. -/
def word24 (hi mid lo : Byte) : Word24 := hi ++ mid ++ lo

/-- The bytes of a two-byte field in the order sent. -/
def bytes16 (w : Word16) : List Byte := [w.extractLsb' 8 8, w.extractLsb' 0 8]

/-- The bytes of a three-byte field in the order sent. -/
def bytes24 (w : Word24) : List Byte := [w.extractLsb' 16 8, w.extractLsb' 8 8, w.extractLsb' 0 8]

/-- The bytes of a box in the order of R183. -/
def BoxBytes.bytes (b : BoxBytes) : List Byte := [b.x0, b.x1, b.y0, b.y1, b.z0, b.z1]

/-! ## The console port's commands (R186) -/

/-- The number of operand bytes of a command (R186). -/
def Command.operandBytes : Command → Nat
  | .status | .readHolds | .readAlert | .readSupply | .hold | .clearAlert | .clearSupply => 0
  | .readClaims | .readZones | .readFlyers | .readTemplates => 1
  | .book => 14
  | .amend => 11
  | .cancel | .retire | .forceRetire | .holdClaim | .resume | .dismiss => 1
  | .zoneSet => 8
  | .zoneClear | .setProtect | .unbind | .clearBreach | .reopen | .release | .setSource | .setAutoclear => 1
  | .bind => 2
  | .setClock | .skip => 3
  | .loadTemplate => 13
  | .dropTemplate | .lockTemplate | .unlockTemplate | .fire | .setEnables | .clearFlags => 2

/-- The command byte of each console command (R186). -/
def Command.code : Command → Byte
  | .status => 0x01 | .readClaims => 0x02 | .readZones => 0x03 | .readFlyers => 0x04
  | .readTemplates => 0x05 | .readHolds => 0x06 | .readAlert => 0x07 | .readSupply => 0x08
  | .book => 0x10 | .amend => 0x11 | .cancel => 0x12
  | .retire => 0x18 | .forceRetire => 0x19 | .holdClaim => 0x1A | .resume => 0x1B | .dismiss => 0x1C
  | .zoneSet => 0x20 | .zoneClear => 0x21 | .setProtect => 0x22
  | .bind => 0x28 | .unbind => 0x29 | .clearBreach => 0x2A | .reopen => 0x2B
  | .hold => 0x30 | .release => 0x31
  | .setClock => 0x38 | .setSource => 0x39 | .skip => 0x3A
  | .loadTemplate => 0x40 | .dropTemplate => 0x41 | .lockTemplate => 0x42 | .unlockTemplate => 0x43
  | .fire => 0x44
  | .setEnables => 0x48 | .setAutoclear => 0x49 | .clearFlags => 0x4A | .clearAlert => 0x4B
  | .clearSupply => 0x50

/-- Every command of the console port, in the order of R186. -/
def Command.all : List Command :=
  [.status, .readClaims, .readZones, .readFlyers, .readTemplates, .readHolds, .readAlert, .readSupply,
   .book, .amend, .cancel, .retire, .forceRetire, .holdClaim, .resume, .dismiss,
   .zoneSet, .zoneClear, .setProtect, .bind, .unbind, .clearBreach, .reopen, .hold, .release]
  ++ [.setClock, .setSource, .skip, .loadTemplate, .dropTemplate, .lockTemplate, .unlockTemplate, .fire,
   .setEnables, .setAutoclear, .clearFlags, .clearAlert, .clearSupply]

/-- The command a command byte names, or none (R160, R184). -/
def commandOfByte (b : Byte) : Option Command := Command.all.find? (fun c => c.code == b)

/-- The command taken, from its name and its operand bytes in the order sent (R186). -/
def commandOf : Command → List Byte → Option Instr
  | .status, [] => some .status
  | .readClaims, [a] => some (.readClaims a)
  | .readZones, [a] => some (.readZones a)
  | .readFlyers, [a] => some (.readFlyers a)
  | .readTemplates, [a] => some (.readTemplates a)
  | .readHolds, [] => some .readHolds
  | .readAlert, [] => some .readAlert
  | .readSupply, [] => some .readSupply
  | .book, [f, x0, x1, y0, y1, z0, z1, s2, s1, s0, p, e2, e1, e0] =>
    some (.book f ⟨x0, x1, y0, y1, z0, z1⟩ (word24 s2 s1 s0) p (word24 e2 e1 e0))
  | .amend, [h, p, e2, e1, e0, x0, x1, y0, y1, z0, z1] =>
    some (.amend h p (word24 e2 e1 e0) ⟨x0, x1, y0, y1, z0, z1⟩)
  | .cancel, [h] => some (.cancel h)
  | .retire, [h] => some (.retire h)
  | .forceRetire, [h] => some (.forceRetire h)
  | .holdClaim, [h] => some (.holdClaim h)
  | .resume, [h] => some (.resume h)
  | .dismiss, [h] => some (.dismiss h)
  | .zoneSet, [z, x0, x1, y0, y1, z0, z1, f] => some (.zoneSet z ⟨x0, x1, y0, y1, z0, z1⟩ f)
  | .zoneClear, [z] => some (.zoneClear z)
  | .setProtect, [m] => some (.setProtect m)
  | .bind, [f, w] => some (.bind f w)
  | .unbind, [w] => some (.unbind w)
  | .clearBreach, [f] => some (.clearBreach f)
  | .reopen, [c] => some (.reopen c)
  | .hold, [] => some .hold
  | .release, [r] => some (.release r)
  | .setClock, [v2, v1, v0] => some (.setClock (word24 v2 v1 v0))
  | .setSource, [r] => some (.setSource r)
  | .skip, [v2, v1, v0] => some (.skip (word24 v2 v1 v0))
  | .loadTemplate, [c1, c0, f, x0, x1, y0, y1, z0, z1, o1, o0, d1, d0] =>
    some (.loadTemplate (word16 c1 c0) f ⟨x0, x1, y0, y1, z0, z1⟩ (word16 o1 o0) (word16 d1 d0))
  | .dropTemplate, [c1, c0] => some (.dropTemplate (word16 c1 c0))
  | .lockTemplate, [c1, c0] => some (.lockTemplate (word16 c1 c0))
  | .unlockTemplate, [c1, c0] => some (.unlockTemplate (word16 c1 c0))
  | .fire, [c1, c0] => some (.fire (word16 c1 c0))
  | .setEnables, [m1, m0] => some (.setEnables (word16 m1 m0))
  | .setAutoclear, [a] => some (.setAutoclear a)
  | .clearFlags, [m1, m0] => some (.clearFlags (word16 m1 m0))
  | .clearAlert, [] => some .clearAlert
  | .clearSupply, [] => some .clearSupply
  | _, _ => none

/-- The command of a transaction's bytes, the command byte first (R158, R186).
A byte that names no command is answered UNKNOWN at once, whatever follows (R158, R160). -/
def decodeCommand : List Byte → Option Instr
  | [] => none
  | b :: ops =>
    match commandOfByte b with
    | some c => commandOf c ops
    | none => some (.unknownCommand b)

/-- The console command a row is, with its operand bytes in the order sent (R186); none for the rows that are no console command. -/
def Instr.command : Instr → Option (Command × List Byte)
  | .status => some (.status, [])
  | .readClaims a => some (.readClaims, [a])
  | .readZones a => some (.readZones, [a])
  | .readFlyers a => some (.readFlyers, [a])
  | .readTemplates a => some (.readTemplates, [a])
  | .readHolds => some (.readHolds, [])
  | .readAlert => some (.readAlert, [])
  | .readSupply => some (.readSupply, [])
  | .book f b s p e => some (.book, [f] ++ b.bytes ++ bytes24 s ++ [p] ++ bytes24 e)
  | .amend h p e b => some (.amend, [h, p] ++ bytes24 e ++ b.bytes)
  | .cancel h => some (.cancel, [h])
  | .retire h => some (.retire, [h])
  | .forceRetire h => some (.forceRetire, [h])
  | .holdClaim h => some (.holdClaim, [h])
  | .resume h => some (.resume, [h])
  | .dismiss h => some (.dismiss, [h])
  | .zoneSet z b f => some (.zoneSet, [z] ++ b.bytes ++ [f])
  | .zoneClear z => some (.zoneClear, [z])
  | .setProtect m => some (.setProtect, [m])
  | .bind f w => some (.bind, [f, w])
  | .unbind w => some (.unbind, [w])
  | .clearBreach f => some (.clearBreach, [f])
  | .reopen c => some (.reopen, [c])
  | .hold => some (.hold, [])
  | .release r => some (.release, [r])
  | .setClock v => some (.setClock, bytes24 v)
  | .setSource r => some (.setSource, [r])
  | .skip v => some (.skip, bytes24 v)
  | .loadTemplate c f b o d => some (.loadTemplate, bytes16 c ++ [f] ++ b.bytes ++ bytes16 o ++ bytes16 d)
  | .dropTemplate c => some (.dropTemplate, bytes16 c)
  | .lockTemplate c => some (.lockTemplate, bytes16 c)
  | .unlockTemplate c => some (.unlockTemplate, bytes16 c)
  | .fire c => some (.fire, bytes16 c)
  | .setEnables m => some (.setEnables, bytes16 m)
  | .setAutoclear a => some (.setAutoclear, [a])
  | .clearFlags m => some (.clearFlags, bytes16 m)
  | .clearAlert => some (.clearAlert, [])
  | .clearSupply => some (.clearSupply, [])
  | .unknownCommand _ | .selectFall _ | .selectRise _ _ | .recordTaken => none
  | .frameTaken _ _ _ | .frameGap _ | .framingError _ | .syncByte _ | .unknownKind _ _ | .commandByte _ => none
  | .hello _ | .report _ | .ask _ | .closedChannelDiscard _ | .frameSent _ => none
  | .lateExpiry _ | .lostExpiry _ | .leaseExpiry _ | .walkAccess | .zonePhaseRead => none
  | .internalPeriodCompletion | .extTickPulse | .pulseWatchExpiry | .abandonment => none
  | .stopAssertion | .ringAssertion | .stopDeassertion | .ringDeassertion | .rigLockChange _ => none
  | .backupEntry | .returnOfMain | .resetAssertion | .resetDeassertion | .coldStart => none
  | .mainFallsWithoutBackup | .cellBecomesAbsent | .backupPresenceChange _ => none

/-- The bytes a master shifts in to issue a console command (R158, R186). -/
def encodeCommand (i : Instr) : Option (List Byte) := i.command.map (fun p => p.1.code :: p.2)

/-! ## The channel frames (R78, R185) -/

/-- The sync byte of every frame (R185). -/
def syncByteValue : Byte := 0xA5

/-- One bit step of the CRC-8 with the generator x^8 + x^2 + x + 1 (R78). -/
def crcBit (c : Byte) : Byte := if c.msb then (c <<< 1) ^^^ 0x07 else c <<< 1

/-- One byte step of the CRC-8, the byte's most significant bit first (R78). -/
def crcByte (c b : Byte) : Byte :=
  crcBit (crcBit (crcBit (crcBit (crcBit (crcBit (crcBit (crcBit (c ^^^ b))))))))

/-- The check byte over a list of bytes, from the initial value 0 (R78). -/
def crc8 (bs : List Byte) : Byte := bs.foldl crcByte 0

/-- The kind byte and payload of a received frame (R79, R185). -/
def InFrame.body : InFrame → List Byte
  | .hello id revision => [0x01, id, revision]
  | .report x y z flags => [0x02, x, y, z, flags]
  | .ask x y z => [0x03, x, y, z]

/-- The check byte that agrees with a received frame (R78). -/
def InFrame.check (f : InFrame) : Byte := crc8 f.body

/-- Whether a kind byte is one the part receives: HELLO, REPORT or ASK (R79, R80). -/
def knownKind (k : Byte) : Bool := k == 0x01 || k == 0x02 || k == 0x03

/-- The received frame that a kind byte and a payload spell; none for a kind the part does not receive (R79, R185). -/
def decodeFrame : List Byte → Option InFrame
  | [0x01, id, revision] => some (.hello id revision)
  | [0x02, x, y, z, flags] => some (.report x y z flags)
  | [0x03, x, y, z] => some (.ask x y z)
  | _ => none

end Sys2Proof
end

