-- ==== Sys2Proof/Config.lean ====
section
/-! DEFINITION. The figures the manual fixes: the grid, the count's range, the real-time intervals, the sizes of the tables. -/

namespace Sys2Proof.Config

/-- The highest x of the dome grid (00, The Dome Grid). -/
def maxX : Nat := 39
/-- The highest y of the dome grid (00, The Dome Grid). -/
def maxY : Nat := 39
/-- The highest z of the dome grid, and the top of every region (00, R1). -/
def maxZ : Nat := 31

/-- The highest show tick (R132). -/
def maxTick : Nat := 16777215
/-- The longest SKIP (R142). -/
def maxSkip : Nat := 360000

/-- A grant's lease, 250 ms, in microseconds (R98, R101). -/
def leaseTime : Nat := 250000
/-- Report silence before LATE, 30 ms, in microseconds (R86). -/
def lateTime : Nat := 30000
/-- Report silence before LOST, 60 ms, in microseconds (R86). -/
def lostTime : Nat := 60000
/-- Pulse silence before the fallback to the internal source, 30 ms, in microseconds (R137). -/
def pulseTime : Nat := 30000
/-- The wait of a switch request, 50 ms, in microseconds (R139). -/
def requestTime : Nat := 50000
/-- One internal period, 10 ms, in microseconds (R136). -/
def periodTime : Nat := 10000
/-- The longest gap between bytes of one frame, 100 us, in microseconds (R80). -/
def gapTime : Nat := 100
/-- The time one byte occupies on a link, 10 us, in microseconds (R77). -/
def byteTime : Nat := 10

/-- The room of the admission queue (R27). -/
def queueRoom : Nat := 8
/-- The most winches bound to one flyer (R64). -/
def bindingRoom : Nat := 4
/-- The room of a channel's inbound list (R82). -/
def inboundRoom : Nat := 2
/-- The most channel-side accesses served in a row while a walk access waits (R24). -/
def walkPatience : Nat := 8
/-- Where a count of the alert, breach and supply records stays (R115, R171, R181). -/
def maxRecordCount : Nat := 255
/-- The lease field of WELCOME, in units of 10 ms (R81). -/
def welcomeLease : Nat := 25
/-- The number of bytes of a status record up to and with its flags field (R187). -/
def flagsFieldEnd : Nat := 27

end Sys2Proof.Config
end

