-- ==== Sys2Proof/Machine/State.lean ====
section
/-! DEFINITION. The state of the LQ8: every record, list, counter, setting and line the manual gives it, and its value after cold start. -/

namespace Sys2Proof.Machine

/-- Why the machine stops with a fault.
The manual gives the part no fault, so there is no constructor: no step can answer one (log 22). Safe. -/
inductive Fault where
  deriving DecidableEq, Repr

/-- Why a command has no meaning. -/
inductive Refusal where
  /-- Raised by `exec`'s arm of a row that has no meaning yet; no arm does. Safe: the model stops. -/
  | notModelled (mnemonic : String)
  deriving DecidableEq, Repr

/-! ## Cells, boxes and handles -/

/-- A cell (x, y, z), each coordinate as carried, 0 to 255 (R63, R79). -/
structure Cell where
  x : Nat
  y : Nat
  z : Nat
  deriving DecidableEq, Repr

/-- A box x0..x1, y0..y1, z0..z1 (R1). -/
structure Box where
  x0 : Nat
  x1 : Nat
  y0 : Nat
  y1 : Nat
  z0 : Nat
  z1 : Nat
  deriving DecidableEq, Repr

/-- A claim handle, slot × 8 + generation (R3). -/
structure Handle where
  slot : Slot
  gen : Fin 8
  deriving DecidableEq, Repr

/-- A half-open interval of ticks; an absent end is later than every tick (R1). -/
structure Interval where
  lo : Nat
  hi : Option Nat
  deriving DecidableEq, Repr

/-! ## The claim table (R2, R3) -/

/-- Why a claim is HELD (R2). -/
inductive HeldCause where
  | command
  | breach
  | restart
  | overlap
  deriving DecidableEq, Repr

/-- The state of a claim; the held cause and the ended mark are present in HELD and only in HELD (R2). -/
inductive ClaimState where
  | queued
  | checking
  | booked
  | active
  | held (cause : HeldCause) (ended : Bool)
  | overrun
  | refused
  deriving DecidableEq, Repr

/-- A pending amendment: a new end, a new box, or both (R2, R32). -/
structure Amendment where
  newEnd : Option Nat
  newBox : Option Box
  deriving DecidableEq, Repr

/-- The last verdict on a claim (R2). -/
inductive Verdict where
  | conflict (h : Handle)
  | zone (z : Zone)
  | stale
  deriving DecidableEq, Repr

/-- A claim record (R2); its handle is its slot's number and generation (R3). `stop` is the end of the window. -/
structure Claim where
  flyer : Flyer
  box : Box
  start : Nat
  stop : Option Nat
  state : ClaimState
  cue : Option Nat
  amend : Option Amendment
  verdict : Option Verdict
  deriving DecidableEq, Repr

/-- A claim slot: its generation, kept whether FREE or occupied, and its claim; no claim is FREE (R3). -/
structure SlotRec where
  gen : Fin 8
  claim : Option Claim
  deriving DecidableEq, Repr

/-- The lookup port's arbiter (R24). -/
structure Arbiter where
  lastServed : Flyer
  walkCount : Nat
  deriving DecidableEq, Repr

/-! ## Admission (R27, R34) -/

/-- An entry of the admission queue (R27). -/
inductive Entry where
  | book (h : Handle)
  | amend (h : Handle)
  | zone (z : Zone)
  deriving DecidableEq, Repr

/-- The candidate's time: a window, from the now of each comparison without end (R35), or no test of time (R38). -/
inductive Span where
  | window (i : Interval)
  | fromNow
  | always
  deriving DecidableEq, Repr

/-- What a walk compares with the tables: the candidate's flyer (none for a ZONE entry), region or box, and time (R34, R35, R38). -/
structure Candidate where
  flyer : Option Flyer
  box : Box
  span : Span
  deriving DecidableEq, Repr

/-- The walk position: the next slot or the next zone to read (R34). -/
inductive WalkPos where
  | claims (next : Slot)
  | zones (next : Zone)
  deriving DecidableEq, Repr

/-- A walk in flight: its subject, its candidate and its position (R34). -/
structure Walk where
  subject : Entry
  cand : Candidate
  pos : WalkPos
  deriving DecidableEq, Repr

/-- The Admission Unit: its queue, oldest first, and the walk of the head (R27). -/
structure Admission where
  queue : List Entry
  walk : Option Walk
  deriving DecidableEq, Repr

/-! ## The zone table (R51, R58) -/

/-- A box with its fixed attribute (R51). -/
structure FixedBox where
  box : Box
  fixed : Bool
  deriving DecidableEq, Repr

/-- A zone slot; each state carries the fields R51 gives it, and no others. -/
inductive ZoneSlot where
  | empty
  | pending (area : FixedBox)
  | set (area : FixedBox) (replacement : Option FixedBox) (verdict : Option Handle)
  | refused (area : FixedBox) (verdict : Handle)
  deriving DecidableEq, Repr

/-- The protect mode, and the effective protection derived from it (R58). -/
inductive Protect where
  | opened
  | soft
  | hard
  deriving DecidableEq, Repr

/-! ## Flyers and grants (R63, R95, R115) -/

/-- The kind of a breach (R111). -/
inductive BreachKind where
  | escape
  | drift
  | intrude
  deriving DecidableEq, Repr

/-- One breach as the record keeps it (R115). -/
structure BreachEvent where
  kind : BreachKind
  tick : Nat
  cell : Cell
  deriving DecidableEq, Repr

/-- A breach record (R115). -/
structure BreachRec where
  first : BreachEvent
  latest : BreachEvent
  count : Nat
  intrusion : Bool
  deriving DecidableEq, Repr

/-- A flyer record but for its bound winches, which `State.bindings` holds (R63, R64). -/
structure FlyerRec where
  position : Option Cell
  grounded : Bool
  breach : Option BreachRec
  deriving DecidableEq, Repr

/-- The kind of a grant (R95). -/
inductive GrantKind where
  | travel
  | descent
  deriving DecidableEq, Repr

/-- A live grant (R95); `lease` is the real time left, in microseconds (R101). -/
structure Grant where
  seq : Nat
  target : Cell
  segment : Box
  claim : Handle
  issued : GrantKind
  kind : GrantKind
  lease : Nat
  deriving DecidableEq, Repr

/-- The Grant Unit's part for one flyer: the sequence counter and at most one live grant (R95). -/
structure GrantRec where
  seq : Nat
  live : Option Grant
  deriving DecidableEq, Repr

/-! ## Flyer channels (R80 to R90) -/

/-- The channel states (R83 to R89). -/
inductive ChannelState where
  | closed
  | opened
  | live
  | late
  | lost
  deriving DecidableEq, Repr

/-- The receiver: hunting for a sync byte, or receiving a frame, with the kind and payload bytes taken since the sync byte and the microseconds since the end of the last byte of the frame (R80). -/
inductive Receiver where
  | hunting
  | receiving (body : List Byte) (since : Nat)
  deriving DecidableEq, Repr

/-- The reasons of DENY and REVOKE (R81, R96, R104, R185). -/
inductive Reason where
  | mismatch | badTarget | held | notLive | late | lost | breached | unbound | noClaim | descentOnly
  | expired | hold | breach | claimHeld | amended
  deriving DecidableEq, Repr

/-- A frame the part sends (R81). -/
inductive OutFrame where
  | welcome (id : Nat)
  | grant (seq : Nat) (target : Cell) (kind : GrantKind)
  | deny (reason : Reason)
  | revoke (seq : Nat) (reason : Reason)
  deriving DecidableEq, Repr

/-- A flyer channel. `timer` is the report timer: disarmed, or the microseconds since it was last started (R86).
`out` is the outgoing queue, oldest first; its first frame is the one being sent (R90, log 16). -/
structure Channel where
  state : ChannelState
  timer : Option Nat
  inbound : List InFrame
  out : List OutFrame
  rx : Receiver
  deriving DecidableEq, Repr

/-! ## Holds, clock, templates (R117, R132, R146) -/

/-- The sources of a hold (R117). -/
inductive HoldSource where
  | showHold | crewHold | ring | stop | breach | restart
  deriving DecidableEq, Repr

/-- An entry of the hold list (R117). -/
structure HoldEntry where
  source : HoldSource
  tick : Nat
  deriving DecidableEq, Repr

/-- The run states of the show clock (R133). -/
inductive RunState where
  | void
  | running
  | frozen
  | ended
  deriving DecidableEq, Repr

/-- The tick sources (R136, R137). -/
inductive TickSource where
  | internal
  | external
  deriving DecidableEq, Repr

/-- The show clock; the three timers are microseconds elapsed, absent when there is no request, no pulse watch, or a halted period. -/
structure Clock where
  count : Nat
  run : RunState
  source : TickSource
  request : Option Nat
  pulseWatch : Option Nat
  period : Option Nat
  deriving DecidableEq, Repr

/-- A valid template (R147). -/
structure Template where
  cue : Nat
  flyer : Flyer
  box : Box
  offset : Nat
  duration : Nat
  locked : Bool
  deriving DecidableEq, Repr

/-- A pair of ways, which the root of a tree points at (R148). -/
inductive WayPair where
  | low
  | high
  deriving DecidableEq, Repr

/-- A template set: four ways, an invalid way holding nothing, and the replacement tree (R147, R148).
`lowChoice` says whether the low choice points at way 1, `highChoice` whether the high choice points at way 3. -/
structure TemplateSet where
  ways : Vector (Option Template) 4
  root : WayPair
  lowChoice : Bool
  highChoice : Bool
  deriving DecidableEq, Repr

/-- The Template Store (R146, R150). -/
structure TemplateStore where
  sets : Vector TemplateSet 16
  lastEvicted : Option Nat
  deriving DecidableEq, Repr

/-! ## Attention, alert, supply (R165 to R181) -/

/-- A set of the eleven ATTN flags, numbered as the flag masks number them (R186). -/
abbrev FlagSet := BitVec 11

/-- What a status record of the SHOW select showed set, and what has been raised since it was taken (R169). -/
structure Shown where
  flags : FlagSet
  raised : FlagSet
  deriving DecidableEq, Repr

/-- The Attention Unit's flags (R166, R168, R169).
`current` is the last status record taken in the open STATUS transaction of the SHOW select, `whole` the one taken before it, whose flags field has been shifted out whole. -/
structure Attention where
  flags : FlagSet
  enables : FlagSet
  autoClear : Bool
  current : Option Shown
  whole : Option Shown
  deriving DecidableEq, Repr

/-- The causes of an alert, with the flyer where the cause names one (R171). -/
inductive AlertCause where
  | breach (f : Flyer)
  | intrude (f : Flyer)
  | stop
  | lost (f : Flyer)
  | restart
  deriving DecidableEq, Repr

/-- One alert as the record keeps it (R171). -/
structure AlertEvent where
  cause : AlertCause
  tick : Nat
  deriving DecidableEq, Repr

/-- The alert record (R171). -/
structure AlertRecord where
  count : Nat
  first : Option AlertEvent
  latest : Option AlertEvent
  deriving DecidableEq, Repr

/-- The supply states (R174). -/
inductive SupplyState where
  | main
  | backup
  | off
  deriving DecidableEq, Repr

/-- The Supply Monitor: the supply state, the presence of the cell, and the supply record (R174, R181). -/
structure Supply where
  state : SupplyState
  backupPresent : Bool
  firstEntry : Option Nat
  latestReturn : Option Nat
  count : Nat
  deriving DecidableEq, Repr

/-! ## The console port (R157 to R163) -/

/-- The response codes (R161). -/
inductive ResponseCode where
  | ok | queued | unknown | privilege | badOperand | noClaim | wrongState | tableFull | queueFull
  | airborne | grantLive | protected_ | notClear | clockVoid | noTemplate | setLocked | bindingFull
  deriving DecidableEq, Repr

/-- What a read streams, with the next slot, zone, flyer or set to be taken (R163). -/
inductive ReadKind where
  | status
  | claims (next : Slot)
  | zones (next : Zone)
  | flyers (next : Flyer)
  | templates (next : Fin 16)
  | holds
  | alert
  | supply
  deriving DecidableEq, Repr

/-- The transaction state of a select (R157).
RESPONSE keeps the response code and the data byte that may follow it; STREAM keeps what is read and the record last taken, none before the first. -/
inductive Transaction where
  | idle
  | command
  | operands (c : Command)
  | response (code : ResponseCode) (data : Option Byte)
  | stream (kind : ReadKind) (record : Option (List Byte))
  deriving DecidableEq, Repr

/-- The transaction state of each select (R157). -/
structure Console where
  showTx : Transaction
  crewTx : Transaction
  deriving DecidableEq, Repr

/-! ## Lines -/

/-- The levels of the input lines. `reset` and the selects are active low: each field says that its line is asserted (low). -/
structure Inputs where
  stop : Bool
  ring : Bool
  rigLock : Bool
  reset : Bool
  showLow : Bool
  crewLow : Bool
  deriving DecidableEq, Repr

/-- The level of an output; an unpowered part drives none (R178). -/
inductive Level where
  | low
  | high
  | unpowered
  deriving DecidableEq, Repr

/-- The discrete outputs (R73, R167, R172). -/
structure Lines where
  permit : Vector Level 16
  attn : Level
  alert : Level
  deriving DecidableEq, Repr

/-! ## The whole part -/

/-- The state of the LQ8. `pending` is the queue of commands waiting, first in first out (log 1). -/
structure State where
  pending : List Instr
  slots : Vector SlotRec 32
  arbiter : Arbiter
  admission : Admission
  zones : Vector ZoneSlot 8
  protect : Protect
  flyers : Vector FlyerRec 8
  bindings : Vector (Option Flyer) 16
  grants : Vector GrantRec 8
  channels : Vector Channel 8
  holds : List HoldEntry
  clock : Clock
  templates : TemplateStore
  attention : Attention
  alert : AlertRecord
  supply : Supply
  console : Console
  inputs : Inputs
  lines : Lines
  deriving DecidableEq, Repr

/-- A template set after cold start: every way invalid, root at {0, 1}, low choice at 0, high choice at 2 (R156). -/
def coldSet : TemplateSet :=
  { ways := Vector.replicate 4 none, root := .low, lowChoice := false, highChoice := false }

/-- A channel after cold start (R92). -/
def coldChannel : Channel :=
  { state := .closed, timer := none, inbound := [], out := [], rx := .hunting }

/-- A flyer record after cold start (R75). -/
def coldFlyer : FlyerRec := { position := none, grounded := true, breach := none }

/-- The alert record after one RESTART alert at tick 0 (R172). -/
def coldAlert : AlertRecord :=
  { count := 1, first := some { cause := .restart, tick := 0 }, latest := some { cause := .restart, tick := 0 } }

/-- The part right after cold start, on the restart path, before STOP and RING are sampled (R180), with given line levels, cell presence and command queue. -/
def coldState (inputs : Inputs) (backupPresent : Bool) (pending : List Instr) : State :=
  { pending := pending
    slots := Vector.replicate 32 { gen := 0, claim := none }
    arbiter := { lastServed := 7, walkCount := 0 }
    admission := { queue := [], walk := none }
    zones := Vector.replicate 8 .empty
    protect := .opened
    flyers := Vector.replicate 8 coldFlyer
    bindings := Vector.replicate 16 none
    grants := Vector.replicate 8 { seq := 0, live := none }
    channels := Vector.replicate 8 coldChannel
    holds := [{ source := .restart, tick := 0 }]
    clock := { count := 0, run := .void, source := .internal, request := none, pulseWatch := none, period := some 0 }
    templates := { sets := Vector.replicate 16 coldSet, lastEvicted := none }
    attention := { flags := 0, enables := BitVec.allOnes 11, autoClear := false, current := none, whole := none }
    alert := coldAlert
    supply := { state := .main, backupPresent := backupPresent, firstEntry := none, latestReturn := none, count := 0 }
    console := { showTx := .idle, crewTx := .idle }
    inputs := inputs
    lines := { permit := Vector.replicate 16 .low, attn := .low, alert := .high } }

/-- Every input line deasserted and both selects high (log 4). -/
def Inputs.quiet : Inputs :=
  { stop := false, ring := false, rigLock := false, reset := false, showLow := false, crewLow := false }

/-- The machine right after reset: a cold start with every input line deasserted and the cell present (R180, log 4). -/
def State.reset : State := coldState Inputs.quiet true []

end Sys2Proof.Machine
end

