-- ==== Sys2Proof/Machine/Geometry.lean ====
section
/-! DEFINITION. Cells, boxes, regions, windows, and what a claim's state means for the space it holds (R1, R4, R97). -/

namespace Sys2Proof.Machine

/-- A vector from its entries. -/
def tabulate {α : Type} {n : Nat} (f : Fin n → α) : Vector α n :=
  ⟨(List.ofFn f).toArray, by simp⟩

/-- Whether the inclusive ranges a0..a1 and b0..b1 overlap (R1). -/
def rangesOverlap (a0 a1 b0 b1 : Nat) : Bool := decide (a0 ≤ b1) && decide (b0 ≤ a1)

/-- Whether the range b0..b1 lies within the range a0..a1 (R1). -/
def rangeWithin (a0 a1 b0 b1 : Nat) : Bool := decide (a0 ≤ b0) && decide (b1 ≤ a1)

/-- A box is well formed when its ranges rise and lie in the grid (R1). -/
def Box.wf (b : Box) : Bool :=
  decide (b.x0 ≤ b.x1) && decide (b.x1 ≤ Config.maxX) &&
  decide (b.y0 ≤ b.y1) && decide (b.y1 ≤ Config.maxY) &&
  decide (b.z0 ≤ b.z1) && decide (b.z1 ≤ Config.maxZ)

/-- Two boxes overlap when they overlap on all three axes (R1). -/
def Box.overlaps (a b : Box) : Bool :=
  rangesOverlap a.x0 a.x1 b.x0 b.x1 && rangesOverlap a.y0 a.y1 b.y0 b.y1 && rangesOverlap a.z0 a.z1 b.z0 b.z1

/-- A box contains another when each range of the other lies within its own (R1). -/
def Box.contains (a b : Box) : Bool :=
  rangeWithin a.x0 a.x1 b.x0 b.x1 && rangeWithin a.y0 a.y1 b.y0 b.y1 && rangeWithin a.z0 a.z1 b.z0 b.z1

/-- Whether every coordinate of a cell lies in the grid (R1). -/
def Cell.inGrid (c : Cell) : Bool :=
  decide (c.x ≤ Config.maxX) && decide (c.y ≤ Config.maxY) && decide (c.z ≤ Config.maxZ)

/-- A box contains a cell when each coordinate lies in its range; a cell outside the grid lies in no box (R1). -/
def Box.containsCell (b : Box) (c : Cell) : Bool :=
  c.inGrid && rangeWithin b.x0 b.x1 c.x c.x && rangeWithin b.y0 b.y1 c.y c.y && rangeWithin b.z0 b.z1 c.z c.z

/-- The region of a box: the column from the box up to the grid (R1). -/
def Box.region (b : Box) : Box := { b with z1 := Config.maxZ }

/-- The smallest box containing two cells (R95). -/
def segmentBox (a b : Cell) : Box :=
  { x0 := min a.x b.x, x1 := max a.x b.x, y0 := min a.y b.y, y1 := max a.y b.y, z0 := min a.z b.z, z1 := max a.z b.z }

/-- A target is straight down from an origin when its x and y equal the origin's and its z is not greater (R97). -/
def straightDown (origin target : Cell) : Bool :=
  decide (target.x = origin.x) && decide (target.y = origin.y) && decide (target.z ≤ origin.z)

/-- Whether a tick is earlier than an end, an absent end being later than every tick (R1). -/
def beforeEnd (t : Nat) : Option Nat → Bool
  | none => true
  | some e => decide (t < e)

/-- Whether an end is present and not later than a tick (R11, R39). -/
def endedBy (stop : Option Nat) (now : Nat) : Bool := !beforeEnd now stop

/-- Two half-open intervals overlap when each starts before the other ends (R1). -/
def Interval.overlaps (a b : Interval) : Bool := beforeEnd a.lo b.hi && beforeEnd b.lo a.hi

/-- A claim holds its region in BOOKED, ACTIVE, HELD and OVERRUN (R4). -/
def ClaimState.occupying : ClaimState → Bool
  | .booked | .active | .held _ _ | .overrun => true
  | .queued | .checking | .refused => false

/-- OVERRUN claims, and HELD claims with the ended mark set, overstay (R4). -/
def ClaimState.overstaying : ClaimState → Bool
  | .overrun | .held _ true => true
  | _ => false

/-- A claim is in force in ACTIVE and OVERRUN; only there can a grant lie in it (R22, R25, R97). -/
def ClaimState.inForce : ClaimState → Bool
  | .active | .overrun => true
  | _ => false

/-- The states in which a claim counts in the judgement of a report: ACTIVE, HELD and OVERRUN (R109, R110). -/
def ClaimState.begun : ClaimState → Bool
  | .active | .held _ _ | .overrun => true
  | _ => false

/-- Whether two claim states agree but for the held cause (R45). -/
def ClaimState.sameButCause : ClaimState → ClaimState → Bool
  | .held _ a, .held _ b => decide (a = b)
  | a, b => decide (a = b)

/-- The region of a claim, from the box it holds now (R1). -/
def Claim.region (c : Claim) : Box := c.box.region

/-- The occupancy interval of an occupying claim at a tick (R4). -/
def Claim.occupancy (c : Claim) (now : Nat) : Interval :=
  if c.state.overstaying then { lo := now, hi := none } else { lo := c.start, hi := c.stop }

/-- Whether the candidate's time meets an interval at a tick; a ZONE candidate makes no test of time (R36, R38). -/
def Span.meets (p : Span) (now : Nat) (i : Interval) : Bool :=
  match p with
  | .window w => w.overlaps i
  | .fromNow => Interval.overlaps { lo := now, hi := none } i
  | .always => true

/-- The box of a SET zone, the only zone that excludes anything (R37, R52). -/
def ZoneSlot.inForce : ZoneSlot → Option Box
  | .set area _ _ => some area.box
  | .empty | .pending _ | .refused _ _ => none

/-- Whether a zone's box is present with its fixed attribute set (R51, R59). -/
def ZoneSlot.isFixed : ZoneSlot → Bool
  | .empty => false
  | .pending area | .set area _ _ | .refused area _ => area.fixed

end Sys2Proof.Machine
end

