-- ==== Sys2Proof/Machine/Flags.lean ====
section
/-! DEFINITION. The ATTN flags, the alert record, and the ATTN and ALERT lines that follow them (R166 to R172). -/

namespace Sys2Proof.Machine

/-- The eleven ATTN flags, in the order of their mask bits (R186). -/
inductive Flag where
  | admitDone | windowOpened | overrun | expired | overlapHeld | channelLate | holdsChanged
  | clockFallback | sourceAbandoned | templateEvicted | supplyReturned
  deriving DecidableEq, Repr

/-- The mask bit of a flag (R186). -/
def Flag.bit : Flag → FlagSet
  | .admitDone => 0x001 | .windowOpened => 0x002 | .overrun => 0x004 | .expired => 0x008
  | .overlapHeld => 0x010 | .channelLate => 0x020 | .holdsChanged => 0x040 | .clockFallback => 0x080
  | .sourceAbandoned => 0x100 | .templateEvicted => 0x200 | .supplyReturned => 0x400

/-- The part runs: it is on MAIN and not held in RESET (R176, R179). -/
def State.running (s : State) : Bool := decide (s.supply.state = .main) && !s.inputs.reset

/-- Now: the show tick count, taken as 0 while the clock is VOID (R4, R132). -/
def State.now (s : State) : Nat := if s.clock.run = .void then 0 else s.clock.count

/-- The level of an attention output that some condition asserts: held low in RESET and on BACKUP (R167, R172), none when unpowered (R178). -/
def outputLevel (s : State) (asserted : Bool) : Level :=
  if s.supply.state = .off then .unpowered else if s.running && asserted then .high else .low

/-- The level ATTN takes: asserted while a flag is both set and enabled (R167). -/
def attnLevel (s : State) : Level := outputLevel s (decide (s.attention.flags &&& s.attention.enables ≠ 0))

/-- The level ALERT takes: asserted while the alert count is above 0 (R172). -/
def alertLevel (s : State) : Level := outputLevel s (decide (0 < s.alert.count))

/-- ATTN and ALERT driven to the levels they take. -/
def driveLines (s : State) : State :=
  { s with lines := { s.lines with attn := attnLevel s, alert := alertLevel s } }

/-- A raise recorded with a status record shown before it (R166, R169). -/
def Shown.note (m : FlagSet) (x : Shown) : Shown := { x with raised := x.raised ||| m }

/-- Raising a flag: it is set, the raise is recorded for auto-clear, and ATTN follows (R166, R167). -/
def raiseFlag (f : Flag) (s : State) : State :=
  driveLines { s with attention :=
    { s.attention with
      flags := s.attention.flags ||| f.bit
      current := s.attention.current.map (Shown.note f.bit)
      whole := s.attention.whole.map (Shown.note f.bit) } }

/-- Clearing the flags of a set; ATTN follows (R166, R168). -/
def clearFlagSet (m : FlagSet) (s : State) : State :=
  driveLines { s with attention := { s.attention with flags := s.attention.flags &&& ~~~m } }

/-- Setting which flags are enabled; ATTN follows (R168). -/
def enableFlagSet (m : FlagSet) (s : State) : State :=
  driveLines { s with attention := { s.attention with enables := m } }

/-- A record's count one greater, staying at 255 once there (R115, R171, R181). -/
def bumpCount (n : Nat) : Nat := if n < Config.maxRecordCount then n + 1 else n

/-- Recording an alert at now: the first fields only when the record is empty, the latest fields and the count always; ALERT follows (R171, R172). -/
def recordAlert (cause : AlertCause) (s : State) : State :=
  let e : AlertEvent := { cause := cause, tick := s.now }
  driveLines { s with alert :=
    { count := bumpCount s.alert.count
      first := if s.alert.count = 0 then some e else s.alert.first
      latest := some e } }

/-- The alert record emptied; ALERT falls (R172). -/
def emptyAlert (s : State) : State :=
  driveLines { s with alert := { count := 0, first := none, latest := none } }

end Sys2Proof.Machine
end

