-- ==== Sys2Proof/Machine/Operands.lean ====
section
/-! DEFINITION. The operands of the console commands, judged as R184 and the owning rules judge them: none is the ill-formed operand that is answered BAD_OPERAND. -/

namespace Sys2Proof.Machine

/-- The index below n that a number names, if it is below n. -/
def indexOf (n : Nat) (v : Nat) : Option (Fin n) := if h : v < n then some ⟨v, h⟩ else none

/-- A flyer or channel number, 1 to 8 (R29, R65, R89). -/
def flyerOf (b : Byte) : Option Flyer := if b.toNat = 0 then none else indexOf 8 (b.toNat - 1)

/-- A winch number, 0 to 15 (R65). -/
def winchOf (b : Byte) : Option Winch := indexOf 16 b.toNat

/-- A zone number, 0 to 7 (R53). -/
def zoneOf (b : Byte) : Option Zone := indexOf 8 b.toNat

/-- A claim slot number, 0 to 31 (R163). -/
def slotOf (b : Byte) : Option Slot := indexOf 32 b.toNat

/-- A template set number, 0 to 15 (R155). -/
def setOf (b : Byte) : Option (Fin 16) := indexOf 16 b.toNat

/-- The slot and generation a handle byte joins: every byte is a handle (R3). -/
def handleOf (b : Byte) : Handle :=
  { slot := ⟨b.toNat / 8, by have := b.isLt; omega⟩, gen := ⟨b.toNat % 8, by omega⟩ }

/-- The byte of a handle, slot × 8 + generation (R3, R183). -/
def Handle.byte (h : Handle) : Byte := BitVec.ofNat 8 (h.slot.val * 8 + h.gen.val)

/-- The box of six operand bytes. -/
def boxOfBytes (b : BoxBytes) : Box :=
  { x0 := b.x0.toNat, x1 := b.x1.toNat, y0 := b.y0.toNat, y1 := b.y1.toNat, z0 := b.z0.toNat, z1 := b.z1.toNat }

/-- A box operand, which must be well formed (R1). -/
def boxOf (b : BoxBytes) : Option Box := if (boxOfBytes b).wf then some (boxOfBytes b) else none

/-- A cue number, 0 to 4095 (R149). -/
def cueOf (w : Word16) : Option Nat := if w.toNat ≤ 4095 then some w.toNat else none

/-- The fixed attribute, 0 clear or 1 set (R186). -/
def fixedOf (b : Byte) : Option Bool :=
  if b.toNat = 0 then some false else if b.toNat = 1 then some true else none

/-- A protect mode, 0 OPEN, 1 SOFT or 2 HARD (R186). -/
def protectOf (b : Byte) : Option Protect :=
  if b.toNat = 0 then some .opened else if b.toNat = 1 then some .soft else if b.toNat = 2 then some .hard else none

/-- A tick source, 0 INTERNAL or 1 EXTERNAL (R186). -/
def tickSourceOf (b : Byte) : Option TickSource :=
  if b.toNat = 0 then some .internal else if b.toNat = 1 then some .external else none

/-- An auto-clear setting, 0 OFF or 1 ON (R186). -/
def settingOf (b : Byte) : Option Bool :=
  if b.toNat = 0 then some false else if b.toNat = 1 then some true else none

/-- A hold source, by the RELEASE codes (R186). -/
def holdSourceOf (b : Byte) : Option HoldSource :=
  if b.toNat = 0 then some .showHold else if b.toNat = 1 then some .crewHold else if b.toNat = 2 then some .ring
  else if b.toNat = 3 then some .stop else if b.toNat = 4 then some .breach else if b.toNat = 5 then some .restart
  else none

/-- Bit n of a presence byte; the bits that name no field are ignored (R184). -/
def presenceBit (b : Byte) (n : Nat) : Bool := b.getLsbD n

/-- A field that a presence bit says is present (R186). -/
def fieldIf {α : Type} (present : Bool) (v : α) : Option α := if present then some v else none

/-- The flags a mask names; its bits that name no flag are ignored (R184, R186). -/
def flagsOf (m : Word16) : FlagSet := m.setWidth 11

/-- The cell three coordinate bytes carry, whether or not it lies in the grid (R79). -/
def cellOf (x y z : Byte) : Cell := { x := x.toNat, y := y.toNat, z := z.toNat }

/-- The grounded flag of a REPORT, bit 0 of its flags byte; the other bits are ignored (R184). -/
def groundedOf (flags : Byte) : Bool := flags.getLsbD 0

end Sys2Proof.Machine
end

