-- ==== Sys2Proof/Machine/Ops.lean ====
section
/-! DEFINITION. The operations the commands share: reading and writing the tables, freeing and moving claims, the walk's beginning and end, removing grants, pushing holds, and closing an event. -/

namespace Sys2Proof.Machine

/-! ## Writing one entry of a table -/

def State.setSlot (s : State) (i : Slot) (r : SlotRec) : State := { s with slots := s.slots.set i r }
def State.setZone (s : State) (z : Zone) (r : ZoneSlot) : State := { s with zones := s.zones.set z r }
def State.setFlyer (s : State) (f : Flyer) (r : FlyerRec) : State := { s with flyers := s.flyers.set f r }
def State.setBinding (s : State) (w : Winch) (b : Option Flyer) : State := { s with bindings := s.bindings.set w b }
def State.setGrant (s : State) (f : Flyer) (g : GrantRec) : State := { s with grants := s.grants.set f g }
def State.setChannel (s : State) (c : Flyer) (r : Channel) : State := { s with channels := s.channels.set c r }
def State.setAdmission (s : State) (a : Admission) : State := { s with admission := a }
def State.setArbiter (s : State) (a : Arbiter) : State := { s with arbiter := a }
def State.setClock (s : State) (c : Clock) : State := { s with clock := c }
def State.setPermit (s : State) (p : Vector Level 16) : State := { s with lines := { s.lines with permit := p } }

/-- A claim written into an occupied slot, the generation kept. -/
def State.setClaim (s : State) (i : Slot) (c : Claim) : State :=
  s.setSlot i { gen := s.slots[i].gen, claim := some c }

/-! ## Reading the tables -/

/-- Every claim slot, from slot 0 upward. -/
def allSlots : List Slot := List.finRange 32
/-- Every flyer or channel, in channel order. -/
def allFlyers : List Flyer := List.finRange 8
/-- Every winch, ascending. -/
def allWinches : List Winch := List.finRange 16
/-- Every zone, from zone 0 upward. -/
def allZones : List Zone := List.finRange 8

/-- The claim in a slot; none when it is FREE. -/
def State.claimAt (s : State) (i : Slot) : Option Claim := s.slots[i].claim

/-- The handle of the claim in a slot (R3). -/
def State.handleAt (s : State) (i : Slot) : Handle := { slot := i, gen := s.slots[i].gen }

/-- The claim a handle names: none when the slot is FREE or holds another generation (R3). -/
def State.resolve (s : State) (h : Handle) : Option Claim :=
  if s.slots[h.slot].gen = h.gen then s.claimAt h.slot else none

/-- Whether some slot holds a claim with a property. -/
def State.anyClaim (s : State) (p : Slot → Claim → Bool) : Bool :=
  allSlots.any (fun i => (s.claimAt i).any (p i))

/-- Whether a slot holds an overstaying claim (R4). -/
def State.overstayingAt (s : State) (i : Slot) : Bool := (s.claimAt i).any (fun c => c.state.overstaying)

/-- Whether a region overlaps the region of an overstaying claim of a flyer other than f (R12, R13, R21). -/
def State.overlapsOverstayer (s : State) (f : Flyer) (region : Box) : Bool :=
  s.anyClaim (fun _ d => d.state.overstaying && decide (d.flyer ≠ f) && d.region.overlaps region)

/-- The flyer's live grant (R95). -/
def State.grantOf (s : State) (f : Flyer) : Option Grant := s.grants[f].live

/-- Whether the live grant of the flyer of a claim names that claim. -/
def State.grantNames (s : State) (f : Flyer) (h : Handle) : Bool := (s.grantOf f).any (fun g => decide (g.claim = h))

/-- Whether a flyer is grounded (R63). -/
def State.groundedFlyer (s : State) (f : Flyer) : Bool := s.flyers[f].grounded

/-- Whether a flyer's breach record is present (R72). -/
def State.breached (s : State) (f : Flyer) : Bool := s.flyers[f].breach.isSome

/-- The winches bound to a flyer, ascending (R63, R64). -/
def State.boundWinches (s : State) (f : Flyer) : List Winch :=
  allWinches.filter (fun w => decide (s.bindings[w] = some f))

/-- A flyer grounded and without a live grant, whose claims may be freed (R11, R18, R22). -/
def State.settled (s : State) (f : Flyer) : Bool := s.groundedFlyer f && (s.grantOf f).isNone

/-- The effective protection (R58). -/
def State.effective (s : State) : Protect :=
  match s.protect with
  | .opened => .opened
  | .soft => .soft
  | .hard => if s.inputs.rigLock then .hard else .soft

/-! ## The walk's beginning (R34, R35, R38, R45) -/

/-- The candidate an AMEND walk is formed with (R35). -/
def amendCandidate (c : Claim) (a : Amendment) : Candidate :=
  { flyer := some c.flyer
    box := (a.newBox.getD c.box).region
    span :=
      match a.newEnd with
      | some e => .window { lo := c.start, hi := some e }
      | none => if c.state.overstaying then .fromNow else .window { lo := c.start, hi := c.stop } }

/-- The candidate of an entry, formed from its subject as it stands (R34, R35, R38). -/
def State.candidateOf (s : State) : Entry → Option Candidate
  | .book h =>
    (s.resolve h).map (fun c =>
      { flyer := some c.flyer, box := c.region, span := .window { lo := c.start, hi := c.stop } })
  | .amend h => (s.resolve h).bind (fun c => c.amend.map (amendCandidate c))
  | .zone z =>
    match s.zones[z] with
    | .pending area => some { flyer := none, box := area.box, span := .always }
    | .set _ (some r) _ => some { flyer := none, box := r.box, span := .always }
    | .set _ none _ | .empty | .refused _ _ => none

/-- A walk of an entry set to the claim phase at slot 0, with its candidate formed afresh (R34, R35, R38). -/
def formWalk (e : Entry) (s : State) : State :=
  s.setAdmission { s.admission with walk := (s.candidateOf e).map (fun c => { subject := e, cand := c, pos := .claims 0 }) }

/-- A BOOK entry's claim going CHECKING as its walk begins (R7, R34). -/
def checkSubject (e : Entry) (s : State) : State :=
  match e with
  | .book h =>
    match s.resolve h with
    | some c => s.setClaim h.slot { c with state := .checking }
    | none => s
  | .amend _ | .zone _ => s

/-- The walk of the head begins when the part runs, an entry is the head, and no walk is in flight (R28, R49). -/
def beginHead (s : State) : State :=
  if s.running && s.admission.walk.isNone then
    match s.admission.queue with
    | [] => s
    | e :: _ => checkSubject e (formWalk e s)
  else s

/-! ## Withdrawing an entry, freeing and moving a claim (R9, R45, R46) -/

/-- The walk in flight abandoned; an access it has waiting at the lookup port is withdrawn, which sets the walk count to 0 (R24, R46). -/
def abandonWalk (s : State) : State :=
  match s.admission.walk with
  | none => s
  | some w =>
    let s1 := s.setAdmission { s.admission with walk := none }
    match w.pos with
    | .claims _ => s1.setArbiter { s1.arbiter with walkCount := 0 }
    | .zones _ => s1

/-- An entry withdrawn from the queue, its walk abandoned if it is the head's (R28, R46). -/
def withdrawEntry (e : Entry) (s : State) : State :=
  let s1 := if s.admission.walk.any (fun w => decide (w.subject = e)) then abandonWalk s else s
  s1.setAdmission { s1.admission with queue := s1.admission.queue.filter (fun x => decide (x ≠ e)) }

/-- A claim freed: the slot keeps only its generation, and the entry of its pending amendment is withdrawn (R9).
The re-check that may follow belongs to the close of the event (`closeEvent`). -/
def freeSlot (i : Slot) (s : State) : State :=
  match s.claimAt i with
  | none => s
  | some c =>
    let s1 := s.setSlot i { gen := s.slots[i].gen, claim := none }
    if c.amend.isSome then withdrawEntry (.amend (s.handleAt i)) s1 else s1

/-- A claim freed with EXPIRED raised (R9). -/
def expireSlot (i : Slot) (s : State) : State := raiseFlag .expired (freeSlot i s)

/-- A claim moved to a state; an AMEND walk of it is begun again when its state or ended mark changes (R45). -/
def moveClaim (i : Slot) (st : ClaimState) (s : State) : State :=
  match s.claimAt i with
  | none => s
  | some c =>
    let s1 := s.setClaim i { c with state := st }
    if !c.state.sameButCause st && s.admission.walk.any (fun w => decide (w.subject = .amend (s.handleAt i)))
    then formWalk (.amend (s.handleAt i)) s1
    else s1

/-! ## Openings, the re-check, the close of an event (R12, R13) -/

/-- The opening test of a claim (R12). -/
def openClaim (i : Slot) (s : State) : State :=
  match s.claimAt i with
  | none => s
  | some c =>
    if s.breached c.flyer then moveClaim i (.held .breach false) s
    else if s.overlapsOverstayer c.flyer c.region then
      raiseFlag .overlapHeld (moveClaim i (.held .overlap false) s)
    else raiseFlag .windowOpened (moveClaim i .active s)

/-- A HELD OVERLAP claim released when no overstaying claim of another flyer overlaps its region (R13, R40). -/
def releaseOverlap (i : Slot) (s : State) : State :=
  match s.claimAt i with
  | none => s
  | some c =>
    match c.state with
    | .held .overlap ended =>
      if s.overlapsOverstayer c.flyer c.region then s
      else if s.breached c.flyer then moveClaim i (.held .breach ended) s
      else raiseFlag .windowOpened (moveClaim i .active s)
    | _ => s

/-- The overlap re-check, from slot 0 upward (R13). -/
def recheck (s : State) : State := allSlots.foldl (fun t i => releaseOverlap i t) s

/-- Whether a claim that overstayed in s has ceased to overstay in t: freed, or overstaying no longer (R13). -/
def ceasedOverstay (s t : State) : Bool :=
  allSlots.any (fun i => s.overstayingAt i && !(decide (t.slots[i].gen = s.slots[i].gen) && t.overstayingAt i))

/-- The close of an event that led from s to t: the re-check when a claim ceased to overstay, or when the event asks for it (R40), then the walk of the entry that has become the head (R13, R28). -/
def closeEvent (asked : Bool) (s t : State) : State :=
  beginHead (if asked || ceasedOverstay s t then recheck t else t)

/-! ## Removing grants (R15, R103) -/

/-- The grounded event of a flyer: each OVERRUN claim of it that its live grant does not name is freed, with EXPIRED (R15). -/
def groundedEvent (f : Flyer) (s : State) : State :=
  allSlots.foldl (fun t i =>
    match t.claimAt i with
    | some c =>
      if decide (c.flyer = f) && decide (c.state = .overrun) && !t.grantNames f (t.handleAt i) then expireSlot i t else t
    | none => t) s

/-- The PERMIT lines of the winches bound to a flyer driven to a level (R74). -/
def drivePermits (f : Flyer) (v : Level) (s : State) : State :=
  s.setPermit (tabulate (fun w => if s.bindings[w] = some f then v else s.lines.permit[w]))

/-- A frame queued on a channel (R90). -/
def queueFrame (ch : Flyer) (o : OutFrame) (s : State) : State :=
  s.setChannel ch { s.channels[ch] with out := s.channels[ch].out ++ [o] }

/-- A grant removed for a reason, in the four steps of R103; without a live grant nothing happens. -/
def removeGrant (f : Flyer) (r : Reason) (s : State) : State :=
  match s.grantOf f with
  | none => s
  | some g =>
    let s1 := s.setGrant f { s.grants[f] with live := none }
    let s2 := drivePermits f .low s1
    let s3 := queueFrame f (.revoke g.seq r) s2
    if s3.groundedFlyer f then groundedEvent f s3 else s3

/-- Every live grant removed with reason HOLD, in channel order (R104, R119). -/
def removeAllGrants (s : State) : State := allFlyers.foldl (fun t f => removeGrant f .hold t) s

/-! ## The hold list (R118, R119, R127) -/

/-- Whether a source has an entry in the hold list. -/
def State.holding (s : State) (src : HoldSource) : Bool := s.holds.any (fun h => decide (h.source = src))

/-- A RUNNING clock goes FROZEN; any other stays (R119, R135). -/
def freezeClock (s : State) : State :=
  if s.clock.run = .running then s.setClock { s.clock with run := .frozen } else s

/-- A FROZEN clock goes RUNNING; any other stays (R127, R135). -/
def thawClock (s : State) : State :=
  if s.clock.run = .frozen then s.setClock { s.clock with run := .running } else s

/-- A push of a source, with or without HOLDS_CHANGED (R118, R124); its first entry removes every grant and freezes the clock (R119). -/
def pushHold (src : HoldSource) (flag : Bool) (s : State) : State :=
  if s.holding src then s
  else
    let s1 := { s with holds := s.holds ++ [{ source := src, tick := s.now }] }
    let s2 := if flag then raiseFlag .holdsChanged s1 else s1
    if s.holds.isEmpty then freezeClock (removeAllGrants s2) else s2

/-! ## Windows ending and opening (R11, R12, R14, R141) -/

/-- The kind of the live grant that names a claim becomes DESCENT as the claim goes OVERRUN (R11, R105). -/
def descendGrant (f : Flyer) (h : Handle) (s : State) : State :=
  match s.grantOf f with
  | none => s
  | some g =>
    if g.claim = h then s.setGrant f { s.grants[f] with live := some { g with kind := .descent } } else s

/-- The ending of one claim whose end is not later than now (R11). -/
def endClaim (i : Slot) (s : State) : State :=
  match s.claimAt i with
  | none => s
  | some c =>
    if endedBy c.stop s.now then
      match c.state with
      | .active =>
        if s.settled c.flyer then expireSlot i s
        else descendGrant c.flyer (s.handleAt i) (raiseFlag .overrun (moveClaim i .overrun s))
      | .held .overlap _ => expireSlot i s
      | .held cause false => moveClaim i (.held cause true) s
      | _ => s
    else s

/-- The ending part of a tick, jump or load event (R11, R14, R141). -/
def endings (s : State) : State := allSlots.foldl (fun t i => endClaim i t) s

/-- The opening of one BOOKED claim whose start has come (R12). -/
def openBooked (i : Slot) (s : State) : State :=
  match s.claimAt i with
  | none => s
  | some c => if decide (c.state = .booked) && decide (c.start ≤ s.now) then openClaim i s else s

/-- The opening part of a tick event (R12). -/
def openings (s : State) : State := allSlots.foldl (fun t i => openBooked i t) s

/-- The part of a jump or load event for one BOOKED claim: freed when its whole window is past, opened when its start has come (R14, R141). -/
def jumpBooked (i : Slot) (s : State) : State :=
  match s.claimAt i with
  | none => s
  | some c =>
    if decide (c.state = .booked) && endedBy c.stop s.now then expireSlot i s else openBooked i s

/-- The BOOKED part of a jump or load event (R14, R141). -/
def jumpOpenings (s : State) : State := allSlots.foldl (fun t i => jumpBooked i t) s

/-- A tick event at the Claim Table for the count as it stands: endings, openings, close (R11 to R13). -/
def tickEvent (s : State) : State := closeEvent false s (openings (endings s))

/-- A jump or load event at the Claim Table for the count as it stands (R14, R141). -/
def jumpEvent (s : State) : State := closeEvent false s (jumpOpenings (endings s))

/-! ## The lookup port (R24, R82, R91) -/

/-- Whether a channel may handle the head of its inbound list: at most one frame waits behind the one being sent (R91). -/
def Channel.mayHandle (c : Channel) : Bool := decide (c.out.length ≤ 2)

/-- Whether a channel has a request waiting at the lookup port: a REPORT or ASK at the head, the channel not CLOSED, the outgoing queue allowing (R82, R91, log 12). -/
def Channel.waiting (c : Channel) : Bool :=
  match c.inbound with
  | .report _ _ _ _ :: _ | .ask _ _ _ :: _ => decide (c.state ≠ .closed) && c.mayHandle
  | .hello _ _ :: _ | [] => false

/-- Whether the walk has an access waiting at the lookup port: it is in the claim phase (R23, R36). -/
def State.walkWaiting (s : State) : Bool :=
  match s.admission.walk with
  | some { pos := .claims _, .. } => true
  | _ => false

/-- The channels in the order the round robin tries them: from the one after the last served (R24). -/
def channelsAfter (last : Flyer) : List Flyer := allFlyers.map (fun k => last + 1 + k)

/-- The channel-side request next in the round robin, if any waits (R24). -/
def State.nextChannel (s : State) : Option Flyer :=
  (channelsAfter s.arbiter.lastServed).find? (fun c => s.channels[c].waiting)

/-- Whether a waiting walk access is owed a turn (R24). -/
def State.walkOwed (s : State) : Bool := s.walkWaiting && decide (Config.walkPatience ≤ s.arbiter.walkCount)

/-- Whether the arbiter grants the port to a channel (R24). -/
def State.grantsChannel (s : State) (ch : Flyer) : Bool :=
  s.running && !s.walkOwed && decide (s.nextChannel = some ch)

/-- Whether the arbiter grants the port to the walk (R24). -/
def State.grantsWalk (s : State) : Bool :=
  s.running && s.walkWaiting && (s.walkOwed || s.nextChannel.isNone)

/-- A channel-side access served (R24). -/
def serveChannel (ch : Flyer) (s : State) : State :=
  s.setArbiter { lastServed := ch, walkCount := if s.walkWaiting then s.arbiter.walkCount + 1 else 0 }

/-- A walk access served (R24). -/
def serveWalk (s : State) : State := s.setArbiter { s.arbiter with walkCount := 0 }

end Sys2Proof.Machine
end

