-- ==== Sys2Proof/Machine/Records.lean ====
section
/-! DEFINITION. The byte layouts of the streamed records (R187) and of the frames the part sends (R185). -/

namespace Sys2Proof.Machine

/-! ## Fields -/

/-- A one-byte field. -/
def byteField (n : Nat) : List Byte := [BitVec.ofNat 8 n]

/-- A two-byte field, most significant byte first (R183). -/
def wordField (n : Nat) : List Byte := bytes16 (BitVec.ofNat 16 n)

/-- A tick, three bytes, most significant byte first (R183). -/
def tickField (n : Nat) : List Byte := bytes24 (BitVec.ofNat 24 n)

/-- A yes-or-no field: 1 for yes, 0 for no (R187). -/
def boolField (b : Bool) : List Byte := byteField (if b then 1 else 0)

/-- A presence byte from its bits, bit 0 first; the bits not defined are 0 (R183). -/
def presenceField (bits : List Bool) : List Byte := byteField (bits.foldr (fun b n => b.toNat + 2 * n) 0)

/-- A conditional field of n bytes: zero bytes in its place when it is absent (R183). -/
def fieldOr {α : Type} (n : Nat) (f : α → List Byte) : Option α → List Byte
  | some v => f v
  | none => List.replicate n 0

/-- A box, six bytes (R183). -/
def boxField (b : Box) : List Byte :=
  byteField b.x0 ++ byteField b.x1 ++ byteField b.y0 ++ byteField b.y1 ++ byteField b.z0 ++ byteField b.z1

/-- A cell, three bytes (R183). -/
def cellField (c : Cell) : List Byte := byteField c.x ++ byteField c.y ++ byteField c.z

/-- A flag mask, two bytes (R183, R186). -/
def flagsField (m : FlagSet) : List Byte := wordField m.toNat

/-- A flyer's or channel's number (00, Numbering). -/
def flyerField (f : Flyer) : List Byte := byteField (flyerNumber f)

/-! ## The codes of R187 -/

def claimStateCode : ClaimState → Nat
  | .queued => 1 | .checking => 2 | .booked => 3 | .active => 4 | .held _ _ => 5 | .overrun => 6 | .refused => 7

def heldCauseCode : HeldCause → Nat
  | .command => 0 | .breach => 1 | .restart => 2 | .overlap => 3

def verdictField : Verdict → List Byte
  | .conflict h => byteField 1 ++ [h.byte]
  | .zone z => byteField 2 ++ byteField z.val
  | .stale => byteField 3 ++ byteField 0

def breachKindCode : BreachKind → Nat
  | .escape => 1 | .drift => 2 | .intrude => 3

def holdSourceCode : HoldSource → Nat
  | .showHold => 0 | .crewHold => 1 | .ring => 2 | .stop => 3 | .breach => 4 | .restart => 5

def alertCauseField : AlertCause → List Byte
  | .breach _ => byteField 1 | .intrude _ => byteField 2 | .stop => byteField 3 | .lost _ => byteField 4 | .restart => byteField 5

/-- The flyer an alert's cause names (R171). -/
def AlertCause.flyer : AlertCause → Option Flyer
  | .breach f | .intrude f | .lost f => some f
  | .stop | .restart => none

/-- The status record can be taken in MAIN alone; the other states have no code and would be 0 (R182, R183, R187). -/
def supplyStateCode : SupplyState → Nat
  | .main => 1 | .backup => 0 | .off => 0

def runStateCode : RunState → Nat
  | .void => 0 | .running => 1 | .frozen => 2 | .ended => 3

def protectCode : Protect → Nat
  | .opened => 0 | .soft => 1 | .hard => 2

def channelStateCode : ChannelState → Nat
  | .closed => 0 | .opened => 1 | .live => 2 | .late => 3 | .lost => 4

/-! ## The records (R187) -/

/-- The held cause and ended mark of a state, present in HELD only (R2). -/
def heldFields : ClaimState → Option (HeldCause × Bool)
  | .held cause ended => some (cause, ended)
  | _ => none

/-- A pending amendment: its presence byte, its new end and its new box (R187). -/
def amendField (a : Amendment) : List Byte :=
  presenceField [a.newEnd.isSome, a.newBox.isSome] ++ fieldOr 3 tickField a.newEnd ++ fieldOr 6 boxField a.newBox

/-- The claim record of a slot, 32 bytes (R164, R187). -/
def claimRecord (s : State) (i : Slot) : List Byte :=
  match s.claimAt i with
  | none => [(s.handleAt i).byte] ++ List.replicate 31 0
  | some c =>
    [(s.handleAt i).byte] ++ byteField (claimStateCode c.state)
      ++ presenceField [c.stop.isSome, (heldFields c.state).isSome, c.cue.isSome, c.amend.isSome, c.verdict.isSome]
      ++ flyerField c.flyer ++ boxField c.box ++ tickField c.start ++ fieldOr 3 tickField c.stop
      ++ fieldOr 2 (fun p => byteField (heldCauseCode p.1) ++ boolField p.2) (heldFields c.state)
      ++ fieldOr 2 wordField c.cue ++ fieldOr 10 amendField c.amend ++ fieldOr 2 verdictField c.verdict

/-- A zone's box with its fixed attribute. -/
def fixedBoxField (a : FixedBox) : List Byte := boxField a.box ++ boolField a.fixed

/-- The parts of a zone slot: its state code, box, replacement and last verdict (R51, R187). -/
def zoneParts : ZoneSlot → Nat × Option FixedBox × Option FixedBox × Option Handle
  | .empty => (0, none, none, none)
  | .pending area => (1, some area, none, none)
  | .set area r v => (2, some area, r, v)
  | .refused area v => (3, some area, none, some v)

/-- The record of a zone, 18 bytes (R164, R187). -/
def zoneRecord (s : State) (z : Zone) : List Byte :=
  match zoneParts s.zones[z] with
  | (code, area, r, v) =>
    byteField z.val ++ byteField code ++ presenceField [area.isSome, r.isSome, v.isSome]
      ++ fieldOr 7 fixedBoxField area ++ fieldOr 7 fixedBoxField r ++ fieldOr 1 (fun h => [Handle.byte h]) v

/-- One breach of a breach record. -/
def breachEventField (e : BreachEvent) : List Byte :=
  byteField (breachKindCode e.kind) ++ tickField e.tick ++ cellField e.cell

/-- A breach record (R115, R187). -/
def breachField (b : BreachRec) : List Byte :=
  breachEventField b.first ++ breachEventField b.latest ++ byteField b.count ++ boolField b.intrusion

/-- The bound winches, ascending, in four places (R76, R187). -/
def winchesField (ws : List Winch) : List Byte :=
  (ws.flatMap (fun (w : Winch) => byteField w.val) ++ List.replicate 4 0).take 4

/-- The record of a flyer, 27 bytes (R76, R187). -/
def flyerRecord (s : State) (f : Flyer) : List Byte :=
  flyerField f ++ byteField (s.boundWinches f).length ++ winchesField (s.boundWinches f)
    ++ presenceField [s.flyers[f].position.isSome, s.flyers[f].breach.isSome] ++ boolField s.flyers[f].grounded
    ++ fieldOr 3 cellField s.flyers[f].position ++ fieldOr 16 breachField s.flyers[f].breach

/-- A template in its way, 14 bytes; an invalid way is 14 zero bytes (R187). -/
def wayField : Option Template → List Byte
  | none => List.replicate 14 0
  | some t =>
    presenceField [true, t.locked] ++ wordField t.cue ++ flyerField t.flyer ++ boxField t.box
      ++ wordField t.offset ++ wordField t.duration

/-- The record of a template set, 58 bytes (R155, R187). -/
def templateRecord (s : State) (k : Fin 16) : List Byte :=
  let set := s.templates.sets[k]
  byteField k.val ++ wayField set.ways[(0 : Fin 4)] ++ wayField set.ways[(1 : Fin 4)]
    ++ wayField set.ways[(2 : Fin 4)] ++ wayField set.ways[(3 : Fin 4)]
    ++ presenceField [decide (set.root = .high), set.lowChoice, set.highChoice]

/-- The hold list with its end marker (R130, R187). -/
def holdRecord (s : State) : List Byte :=
  s.holds.flatMap (fun h => byteField (holdSourceCode h.source) ++ tickField h.tick) ++ [0xFF]

/-- One alert: cause, tick and flyer, a flyer of 0 being absent (R183, R187). -/
def alertEventField (e : AlertEvent) : List Byte :=
  alertCauseField e.cause ++ tickField e.tick ++ fieldOr 1 flyerField e.cause.flyer

/-- The alert record, 11 bytes (R171, R187). -/
def alertRecordBytes (s : State) : List Byte :=
  byteField s.alert.count ++ fieldOr 5 alertEventField s.alert.first ++ fieldOr 5 alertEventField s.alert.latest

/-- The supply record, 8 bytes (R181, R187). -/
def supplyRecord (s : State) : List Byte :=
  presenceField [s.supply.firstEntry.isSome, s.supply.latestReturn.isSome]
    ++ fieldOr 3 tickField s.supply.firstEntry ++ fieldOr 3 tickField s.supply.latestReturn
    ++ byteField s.supply.count

/-- The status record, 31 bytes (R165, R187). -/
def statusRecord (s : State) : List Byte :=
  byteField (supplyStateCode s.supply.state) ++ boolField s.supply.backupPresent
    ++ boolField s.admission.walk.isSome ++ byteField s.admission.queue.length
    ++ boolField (!s.holds.isEmpty)
    ++ tickField s.clock.count ++ byteField (runStateCode s.clock.run)
    ++ boolField (decide (s.clock.source = .external)) ++ boolField s.clock.request.isSome
    ++ byteField (protectCode s.protect) ++ boolField s.inputs.rigLock ++ byteField (protectCode s.effective)
    ++ allFlyers.flatMap (fun c => byteField (channelStateCode s.channels[c].state))
    ++ boolField s.templates.lastEvicted.isSome ++ fieldOr 2 wordField s.templates.lastEvicted
    ++ flagsField s.attention.flags ++ flagsField s.attention.enables ++ boolField s.attention.autoClear
    ++ byteField s.alert.count

/-- The record a read streams next (R163). -/
def recordBytes (s : State) : ReadKind → List Byte
  | .status => statusRecord s
  | .claims i => claimRecord s i
  | .zones z => zoneRecord s z
  | .flyers f => flyerRecord s f
  | .templates k => templateRecord s k
  | .holds => holdRecord s
  | .alert => alertRecordBytes s
  | .supply => supplyRecord s

/-- What a read streams after a record: the next slot, zone, flyer or set, wrapping; the one record of a single-record read again (R163). -/
def ReadKind.after : ReadKind → ReadKind
  | .claims i => .claims (i + 1)
  | .zones z => .zones (z + 1)
  | .flyers f => .flyers (f + 1)
  | .templates k => .templates (k + 1)
  | .status => .status
  | .holds => .holds
  | .alert => .alert
  | .supply => .supply

/-! ## Outgoing frames (R81, R185) and response bytes (R186) -/

def reasonCode : Reason → Byte
  | .mismatch => 0x01 | .badTarget => 0x02 | .held => 0x03 | .notLive => 0x04 | .late => 0x05 | .lost => 0x06
  | .breached => 0x07 | .unbound => 0x08 | .noClaim => 0x09 | .descentOnly => 0x0A
  | .expired => 0x10 | .hold => 0x11 | .breach => 0x12 | .claimHeld => 0x13 | .amended => 0x14

def grantKindCode : GrantKind → Nat
  | .travel => 0 | .descent => 1

/-- The kind byte and payload of an outgoing frame (R185). -/
def OutFrame.body : OutFrame → List Byte
  | .welcome id => [0x81] ++ byteField id ++ byteField Config.welcomeLease
  | .grant seq target kind => [0x82] ++ byteField seq ++ cellField target ++ byteField (grantKindCode kind)
  | .deny reason => [0x83, reasonCode reason]
  | .revoke seq reason => [0x84] ++ byteField seq ++ [reasonCode reason]

/-- The bytes of an outgoing frame: sync, kind and payload, check (R78, R185). -/
def OutFrame.bytes (o : OutFrame) : List Byte := [syncByteValue] ++ o.body ++ [crc8 o.body]

def responseByte : ResponseCode → Byte
  | .ok => 0x00 | .queued => 0x01 | .unknown => 0x02 | .privilege => 0x03 | .badOperand => 0x04 | .noClaim => 0x05
  | .wrongState => 0x06 | .tableFull => 0x07 | .queueFull => 0x08 | .airborne => 0x09 | .grantLive => 0x0A
  | .protected_ => 0x0B | .notClear => 0x0C | .clockVoid => 0x0D | .noTemplate => 0x0E | .setLocked => 0x0F
  | .bindingFull => 0x10

end Sys2Proof.Machine
end

