-- ==== Sys2Proof/Machine/Console.lean ====
section
/-! DEFINITION. The console port: transactions, privilege, responses, the reads, and the events of its lines (R157 to R169). -/

namespace Sys2Proof.Machine

/-- The three outcomes of a step of this machine. -/
abbrev Result := Host.Outcome State Fault Refusal

/-! ## Transactions (R157, R158) -/

/-- The transaction state of a select. -/
def State.tx (s : State) : Select → Transaction
  | .showSel => s.console.showTx
  | .crewSel => s.console.crewTx

/-- The transaction state of a select written. -/
def State.setTx (s : State) (sel : Select) (t : Transaction) : State :=
  match sel with
  | .showSel => { s with console := { s.console with showTx := t } }
  | .crewSel => { s with console := { s.console with crewTx := t } }

/-- Whether a select's line is low. -/
def State.selectLow (s : State) : Select → Bool
  | .showSel => s.inputs.showLow
  | .crewSel => s.inputs.crewLow

/-- A select's line level followed. -/
def State.setSelectLow (s : State) (sel : Select) (low : Bool) : State :=
  match sel with
  | .showSel => { s with inputs := { s.inputs with showLow := low } }
  | .crewSel => { s with inputs := { s.inputs with crewLow := low } }

/-- The select whose transaction is in a state, SHOW first; the port serves one at a time (R157), and none while the part does not run (R173). -/
def State.selectIn (s : State) (t : Transaction) : Option Select :=
  if !s.running then none
  else if s.console.showTx = t then some .showSel
  else if s.console.crewTx = t then some .crewSel
  else none

/-- The transaction state in which a command is taken: at the command byte when it has no operands, else at its last operand byte (R158). -/
def awaitedBy (c : Command) : Transaction := if c.operandBytes = 0 then .command else .operands c

/-- The select whose open transaction takes a command now (R158). -/
def State.taking (s : State) (c : Command) : Option Select := s.selectIn (awaitedBy c)

/-- The response of a code alone. -/
def answer (r : ResponseCode) : Transaction := .response r none

/-- The commands the CREW select may issue; RELEASE is judged further by its operand (R160). -/
def crewMay : Command → Bool
  | .status | .readClaims | .readZones | .readFlyers | .readTemplates | .readHolds | .readAlert | .readSupply => true
  | .hold | .holdClaim | .release => true
  | _ => false

/-- A command taken at the select whose transaction awaits it: refused PRIVILEGE where the crew may not issue it, else delivered to its owner, whose answer becomes the transaction (R158, R160).
With no transaction awaiting it, the command is not taken and nothing changes (log 1). -/
def takeCommand (c : Command) (owner : Select → State → State × Transaction) (s : State) : Result :=
  match s.taking c with
  | none => .next s
  | some sel =>
    if sel = .crewSel && !crewMay c then .next (s.setTx sel (answer .privilege))
    else .next ((owner sel s).1.setTx sel (owner sel s).2)

/-! ## MISO (R157, R158, R183): the select it is driven for, and the bytes shifted on it -/

/-- The idle byte (R183). -/
def idleByte : Byte := 0xFF

/-- What a transaction answers in its present state, byte by byte: nothing while the command is shifted in; the response code, then the handle or zone number after QUEUED; OK before a read's first record, then the record last taken (R158, R163, R186). -/
def Transaction.answerBytes : Transaction → List Byte
  | .idle | .command | .operands _ => []
  | .response code data => responseByte code :: data.toList
  | .stream _ none => [responseByte .ok]
  | .stream _ (some record) => record

/-- The byte MISO shifts n bytes into the answer: the idle byte while there is none and after its last (R158).
In STREAM the byte after the last is the first of the next record, which RECORD_TAKEN takes (R163). -/
def Transaction.misoByte (t : Transaction) (n : Nat) : Byte := t.answerBytes.getD n idleByte

/-- The select MISO is driven for: the one whose transaction is open. With none, MISO is high-impedance, as it is in RESET, on BACKUP and unpowered (R157, R173). -/
def State.misoSelect (s : State) : Option Select :=
  if !s.running then none
  else if s.console.showTx ≠ .idle then some .showSel
  else if s.console.crewTx ≠ .idle then some .crewSel
  else none

/-- What MISO shifts n bytes into the answer; none is high-impedance (R157, R158). -/
def State.miso (s : State) (n : Nat) : Option Byte := s.misoSelect.map (fun sel => (s.tx sel).misoByte n)

/-! ## Reads (R163): the answer OK, then records -/

/-- A read from its start: OK and STREAM (R163). -/
def startStream (k : ReadKind) (s : State) : State × Transaction := (s, .stream k none)

/-- A read from a starting point, or BAD_OPERAND when it is out of range (R163). -/
def streamFrom {α : Type} (start : Option α) (k : α → ReadKind) (s : State) : State × Transaction :=
  match start with
  | none => (s, answer .badOperand)
  | some a => startStream (k a) s

/-- STATUS (R165). -/
def execStatus (s : State) : Result := takeCommand .status (fun _ t => startStream .status t) s
/-- READ_CLAIMS (R163, R164). -/
def execReadClaims (slot : Byte) (s : State) : Result :=
  takeCommand .readClaims (fun _ t => streamFrom (slotOf slot) .claims t) s
/-- READ_ZONES (R163, R164). -/
def execReadZones (zone : Byte) (s : State) : Result :=
  takeCommand .readZones (fun _ t => streamFrom (zoneOf zone) .zones t) s
/-- READ_FLYERS (R76). -/
def execReadFlyers (flyer : Byte) (s : State) : Result :=
  takeCommand .readFlyers (fun _ t => streamFrom (flyerOf flyer) .flyers t) s
/-- READ_TEMPLATES (R155). -/
def execReadTemplates (set : Byte) (s : State) : Result :=
  takeCommand .readTemplates (fun _ t => streamFrom (setOf set) .templates t) s
/-- READ_HOLDS (R130). -/
def execReadHolds (s : State) : Result := takeCommand .readHolds (fun _ t => startStream .holds t) s
/-- READ_ALERT (R171). -/
def execReadAlert (s : State) : Result := takeCommand .readAlert (fun _ t => startStream .alert t) s
/-- READ_SUPPLY (R182). -/
def execReadSupply (s : State) : Result := takeCommand .readSupply (fun _ t => startStream .supply t) s

/-! ## The attention commands (R168, R172) and CLEAR_SUPPLY (R182) -/

/-- SET_ENABLES (R168). -/
def execSetEnables (mask : Word16) (s : State) : Result :=
  takeCommand .setEnables (fun _ t => (enableFlagSet (flagsOf mask) t, answer .ok)) s

/-- SET_AUTOCLEAR's effect (R168). -/
def setAutoclear (setting : Byte) (s : State) : State × Transaction :=
  match settingOf setting with
  | none => (s, answer .badOperand)
  | some on => ({ s with attention := { s.attention with autoClear := on } }, answer .ok)

/-- SET_AUTOCLEAR (R168). -/
def execSetAutoclear (setting : Byte) (s : State) : Result := takeCommand .setAutoclear (fun _ => setAutoclear setting) s

/-- CLEAR_FLAGS (R168). -/
def execClearFlags (mask : Word16) (s : State) : Result :=
  takeCommand .clearFlags (fun _ t => (clearFlagSet (flagsOf mask) t, answer .ok)) s

/-- CLEAR_ALERT (R172). -/
def execClearAlert (s : State) : Result := takeCommand .clearAlert (fun _ t => (emptyAlert t, answer .ok)) s

/-- The supply record emptied (R182). -/
def emptySupply (s : State) : State :=
  { s with supply := { s.supply with firstEntry := none, latestReturn := none, count := 0 } }

/-- CLEAR_SUPPLY (R182). -/
def execClearSupply (s : State) : Result := takeCommand .clearSupply (fun _ t => (emptySupply t, answer .ok)) s

/-! ## The port's events -/

/-- UNKNOWN_COMMAND: a command byte that names no command is answered UNKNOWN, before any test of privilege (R158, R160). -/
def execUnknownCommand (byte : Byte) (s : State) : Result :=
  match s.selectIn .command with
  | some sel => if (commandOfByte byte).isNone then .next (s.setTx sel (answer .unknown)) else .next s
  | none => .next s

/-- COMMAND_BYTE: a byte naming a command with operands takes the transaction to OPERANDS (R158). -/
def execCommandByte (byte : Byte) (s : State) : Result :=
  match s.selectIn .command, commandOfByte byte with
  | some sel, some c => if 0 < c.operandBytes then .next (s.setTx sel (.operands c)) else .next s
  | _, _ => .next s

/-- SELECT_FALL: a transaction begins in COMMAND when the other select is high and the part runs; otherwise the fall is ignored (R157, R173). -/
def execSelectFall (sel : Select) (s : State) : Result :=
  if s.selectLow sel then .next s
  else if s.running && !s.selectLow sel.other then .next ((s.setSelectLow sel true).setTx sel .command)
  else .next (s.setSelectLow sel true)

/-- What the open STATUS transaction of the SHOW select has shown forgotten, as no transaction is open (R169, R173). -/
def forgetShown (s : State) : State :=
  { s with attention := { s.attention with current := none, whole := none } }

/-- The last status record of the transaction whose flags field was shifted out whole, given how many bytes of the record now streaming have been shifted out (R169, R187). -/
def State.lastShown (s : State) (shifted : Nat) : Option Shown :=
  if Config.flagsFieldEnd ≤ shifted then s.attention.current else s.attention.whole

/-- Auto-clear at the end of a SHOW STATUS: the flags shown set and not raised since are cleared (R169). -/
def autoClearFlags (shifted : Nat) (s : State) : State :=
  if s.attention.autoClear then
    match s.lastShown shifted with
    | some x => clearFlagSet (x.flags &&& ~~~x.raised) s
    | none => s
  else s

/-- Whether a transaction streams status records. -/
def Transaction.isStatus : Transaction → Bool
  | .stream .status _ => true
  | _ => false

/-- SELECT_RISE: the select's transaction ends; a SHOW STATUS auto-clears (R157, R159, R169). -/
def execSelectRise (sel : Select) (shifted : Nat) (s : State) : Result :=
  if !s.selectLow sel then .next s
  else
    let s1 := if sel = .showSel && (s.tx sel).isStatus then autoClearFlags shifted s else s
    let s2 := if sel = .showSel then forgetShown s1 else s1
    .next ((s2.setSelectLow sel false).setTx sel .idle)

/-- What the SHOW select is shown as a status record is taken: the flags as they stand, nothing raised since (R169). -/
def noteShown (s : State) : State :=
  { s with attention :=
    { s.attention with
      whole := s.attention.current
      current := some { flags := s.attention.flags, raised := 0 } } }

/-- The record of a stream taken, whole, at its first byte (R163). -/
def takeRecord (sel : Select) (k : ReadKind) (s : State) : State :=
  let s1 := if sel = .showSel && decide (k = .status) then noteShown s else s
  s1.setTx sel (.stream k.after (some (recordBytes s k)))

/-- RECORD_TAKEN: the open stream takes its next record; with no stream open nothing changes (R163). -/
def execRecordTaken (s : State) : Result :=
  if !s.running then .next s
  else
    match s.console.showTx with
    | .stream k _ => .next (takeRecord .showSel k s)
    | _ =>
      match s.console.crewTx with
      | .stream k _ => .next (takeRecord .crewSel k s)
      | _ => .next s

end Sys2Proof.Machine
end

