-- ==== Sys2Proof/Machine/Claims.lean ====
section
/-! DEFINITION. The claim commands: RETIRE, FORCE_RETIRE, HOLD_CLAIM, RESUME and DISMISS (R10, R18 to R22). -/

namespace Sys2Proof.Machine

/-- A command on a claim by its handle: NO_CLAIM when the handle does not resolve, before any other test (R3). -/
def onClaim (handle : Byte) (act : Slot → Claim → State → State × Transaction) (s : State) : State × Transaction :=
  match s.resolve (handleOf handle) with
  | none => (s, answer .noClaim)
  | some c => act (handleOf handle).slot c s

/-- A refusal: no effect, and a response code (R161). -/
def refuse (r : ResponseCode) (s : State) : State × Transaction := (s, answer r)

/-- A claim freed by a command, with response OK (R9). -/
def freed (i : Slot) (s : State) : State × Transaction := (closeEvent false s (freeSlot i s), answer .ok)

/-- DISMISS's effect on a claim (R10). -/
def dismissClaim (i : Slot) (c : Claim) (s : State) : State × Transaction :=
  match c.state with
  | .refused => freed i s
  | _ => refuse .wrongState s

/-- DISMISS (R10). -/
def execDismiss (handle : Byte) (s : State) : Result := takeCommand .dismiss (fun _ => onClaim handle dismissClaim) s

/-- RETIRE's effect on a claim (R18). -/
def retireClaim (i : Slot) (c : Claim) (s : State) : State × Transaction :=
  match c.state with
  | .booked => freed i s
  | .active | .held _ _ | .overrun =>
    if !s.groundedFlyer c.flyer then refuse .airborne s
    else if (s.grantOf c.flyer).isSome then refuse .grantLive s
    else freed i s
  | .queued | .checking | .refused => refuse .wrongState s

/-- RETIRE (R18). -/
def execRetire (handle : Byte) (s : State) : Result := takeCommand .retire (fun _ => onClaim handle retireClaim) s

/-- FORCE_RETIRE's effect on a claim (R19). -/
def forceRetireClaim (i : Slot) (c : Claim) (s : State) : State × Transaction :=
  match c.state with
  | .active | .held _ _ | .overrun =>
    match s.channels[c.flyer].state with
    | .lost | .closed => freed i s
    | .opened | .live | .late => refuse .notClear s
  | .booked | .queued | .checking | .refused => refuse .wrongState s

/-- FORCE_RETIRE (R19). -/
def execForceRetire (handle : Byte) (s : State) : Result :=
  takeCommand .forceRetire (fun _ => onClaim handle forceRetireClaim) s

/-- A claim put in HELD COMMAND, and the grant that names it removed with CLAIM_HELD (R20, log 24).
Of a grounded flyer the removal delivers its grounded event, which frees the flyer's OTHER OVERRUN claims, and their freeing brings the re-check (R15, R103, log 26). -/
def commandHold (i : Slot) (c : Claim) (ended : Bool) (s : State) : State × Transaction :=
  let s1 := moveClaim i (.held .command ended) s
  let s2 := if s.grantNames c.flyer (s.handleAt i) then removeGrant c.flyer .claimHeld s1 else s1
  (closeEvent false s s2, answer .ok)

/-- HOLD_CLAIM's effect on a claim (R20). -/
def holdClaim (i : Slot) (c : Claim) (s : State) : State × Transaction :=
  match c.state with
  | .active => commandHold i c false s
  | .overrun => commandHold i c true s
  | _ => refuse .wrongState s

/-- HOLD_CLAIM (R20). -/
def execHoldClaim (handle : Byte) (s : State) : Result := takeCommand .holdClaim (fun _ => onClaim handle holdClaim) s

/-- RESUME of a HELD claim whose ended mark is clear (R21). -/
def resumeClear (i : Slot) (c : Claim) (s : State) : State × Transaction :=
  if s.overlapsOverstayer c.flyer c.region then
    (closeEvent false s (raiseFlag .overlapHeld (moveClaim i (.held .overlap false) s)), answer .ok)
  else (closeEvent false s (moveClaim i .active s), answer .ok)

/-- Whether a region overlaps the region of an ACTIVE or OVERRUN claim of another flyer (R22). -/
def State.overlapsInForce (s : State) (f : Flyer) (region : Box) : Bool :=
  s.anyClaim (fun _ d => d.state.inForce && decide (d.flyer ≠ f) && d.region.overlaps region)

/-- RESUME of a HELD claim whose ended mark is set (R22). -/
def resumeEnded (i : Slot) (c : Claim) (s : State) : State × Transaction :=
  if s.settled c.flyer then freed i s
  else if s.overlapsInForce c.flyer c.region then refuse .notClear s
  else (closeEvent false s (moveClaim i .overrun s), answer .ok)

/-- RESUME's effect on a claim, the cause judged first (R21, R22). -/
def resumeClaim (i : Slot) (c : Claim) (s : State) : State × Transaction :=
  match c.state with
  | .held .overlap _ => refuse .wrongState s
  | .held cause ended =>
    if decide (cause = .breach) && s.breached c.flyer then refuse .notClear s
    else if ended then resumeEnded i c s
    else resumeClear i c s
  | _ => refuse .wrongState s

/-- RESUME (R21, R22). -/
def execResume (handle : Byte) (s : State) : Result := takeCommand .resume (fun _ => onClaim handle resumeClaim) s

end Sys2Proof.Machine
end

