-- ==== Sys2Proof/Machine/Admission.lean ====
section
/-! DEFINITION. Admission: BOOK, AMEND and CANCEL, the walk's two reads, and the completion of a walk (R27 to R49). -/

namespace Sys2Proof.Machine

/-! ## Joining the queue (R6, R28) -/

/-- Whether the admission queue has no room for an entry (R27). -/
def State.queueFull (s : State) : Bool := decide (Config.queueRoom ≤ s.admission.queue.length)

/-- An entry appended at the tail of the queue (R28). -/
def appendEntry (e : Entry) (s : State) : State :=
  s.setAdmission { s.admission with queue := s.admission.queue ++ [e] }

/-- The lowest-numbered FREE slot (R6). -/
def State.freeSlotOf (s : State) : Option Slot := allSlots.find? (fun i => (s.claimAt i).isNone)

/-- What a booking asks for (R6, R29, R30). -/
structure Booking where
  flyer : Flyer
  box : Box
  start : Nat
  stop : Option Nat
  cue : Option Nat
  deriving DecidableEq, Repr

/-- A QUEUED claim of a booking (R6). -/
def Booking.claim (b : Booking) : Claim :=
  { flyer := b.flyer, box := b.box, start := b.start, stop := b.stop, state := .queued, cue := b.cue, amend := none, verdict := none }

/-- A FREE slot taken for a booking: its generation advances and the claim is written (R3, R6). -/
def takeSlot (i : Slot) (b : Booking) (s : State) : State :=
  s.setSlot i { gen := s.slots[i].gen + 1, claim := some b.claim }

/-- An accepted booking: the slot taken and the BOOK entry appended in one event, answered QUEUED with the handle (R6, R28, R29). -/
def acceptBooking (i : Slot) (b : Booking) (s : State) : State × Transaction :=
  let s1 := takeSlot i b s
  (closeEvent false s (appendEntry (.book (s1.handleAt i)) s1), .response .queued (some (s1.handleAt i).byte))

/-- A booking whose operands are good: QUEUE_FULL, then TABLE_FULL, else accepted (R29, R30). -/
def bookClaim (b : Booking) (s : State) : State × Transaction :=
  if s.queueFull then refuse .queueFull s
  else
    match s.freeSlotOf with
    | none => refuse .tableFull s
    | some i => acceptBooking i b s

/-- Whether a window's end is present and not greater than its start (R29). -/
def emptyWindow (start : Nat) (stop : Option Nat) : Bool := endedBy stop start

/-- BOOK's tests and effect (R29). -/
def bookOperands (flyer : Byte) (box : BoxBytes) (start : Word24) (presence : Byte) (stop : Word24) (s : State) :
    State × Transaction :=
  let e := fieldIf (presenceBit presence 0) stop.toNat
  match flyerOf flyer, boxOf box with
  | some f, some b =>
    if emptyWindow start.toNat e then refuse .badOperand s
    else bookClaim { flyer := f, box := b, start := start.toNat, stop := e, cue := none } s
  | _, _ => refuse .badOperand s

/-- BOOK (R29). -/
def execBook (flyer : Byte) (box : BoxBytes) (start : Word24) (presence : Byte) (stop : Word24) (s : State) : Result :=
  takeCommand .book (fun _ => bookOperands flyer box start presence stop) s

/-! ## AMEND and CANCEL (R31 to R33) -/

/-- A pending amendment written and its entry appended, answered QUEUED with the handle (R32). -/
def acceptAmend (i : Slot) (c : Claim) (a : Amendment) (s : State) : State × Transaction :=
  (closeEvent false s (appendEntry (.amend (s.handleAt i)) (s.setClaim i { c with amend := some a })),
    .response .queued (some (s.handleAt i).byte))

/-- AMEND's tests 3 to 5 on the claim its handle names (R31). -/
def amendClaim (a : Amendment) (i : Slot) (c : Claim) (s : State) : State × Transaction :=
  if emptyWindow c.start a.newEnd then refuse .badOperand s
  else if !c.state.occupying || c.amend.isSome then refuse .wrongState s
  else if s.queueFull then refuse .queueFull s
  else acceptAmend i c a s

/-- AMEND's tests and effect (R31): test 1 is made before the handle is resolved. -/
def amendOperands (handle presence : Byte) (newEnd : Word24) (newBox : BoxBytes) (s : State) : State × Transaction :=
  let a : Amendment :=
    { newEnd := fieldIf (presenceBit presence 0) newEnd.toNat
      newBox := fieldIf (presenceBit presence 1) (boxOfBytes newBox) }
  if a.newEnd.isNone && a.newBox.isNone then refuse .badOperand s
  else if a.newBox.any (fun b => !b.wf) then refuse .badOperand s
  else onClaim handle (amendClaim a) s

/-- AMEND (R31). -/
def execAmend (handle presence : Byte) (newEnd : Word24) (newBox : BoxBytes) (s : State) : Result :=
  takeCommand .amend (fun _ => amendOperands handle presence newEnd newBox) s

/-- CANCEL's effect on a claim: a QUEUED or CHECKING claim is freed and its BOOK entry withdrawn (R7, R33). -/
def cancelClaim (i : Slot) (c : Claim) (s : State) : State × Transaction :=
  match c.state with
  | .queued | .checking =>
    (closeEvent false s (withdrawEntry (.book (s.handleAt i)) (freeSlot i s)), answer .ok)
  | _ => refuse .wrongState s

/-- CANCEL (R33). -/
def execCancel (handle : Byte) (s : State) : Result := takeCommand .cancel (fun _ => onClaim handle cancelClaim) s

/-! ## Completion of a walk (R8, R39 to R43) -/

/-- A refused booking: REFUSED, with its verdict (R8). -/
def refuseBooking (i : Slot) (c : Claim) (v : Verdict) (s : State) : State :=
  s.setClaim i { c with state := .refused, verdict := some v }

/-- A passed booking placed: refused STALE when its end is not later than now, BOOKED when its start is later than now, else by the opening test (R8, R39). -/
def placeBooking (i : Slot) (c : Claim) (s : State) : State :=
  if endedBy c.stop s.now then refuseBooking i c .stale s
  else if s.now < c.start then s.setClaim i { c with state := .booked }
  else openClaim i s

/-- A refused amendment: the pending amendment removed and the last verdict set; all else unchanged (R42). -/
def refuseAmendment (i : Slot) (c : Claim) (v : Verdict) (s : State) : State :=
  s.setClaim i { c with amend := none, verdict := some v }

/-- The end the candidate of an amendment has: the new end, or else the claim's own end unless the claim overstays (R39). -/
def amendedEnd (c : Claim) (a : Amendment) : Option Nat :=
  match a.newEnd with
  | some e => some e
  | none => if c.state.overstaying then none else c.stop

/-- A claim in the shape a passing amendment gives it, its state yet unchanged (R40). -/
def amendedClaim (c : Claim) (a : Amendment) : Claim :=
  { c with
    box := a.newBox.getD c.box
    stop := if a.newEnd.isSome then a.newEnd else c.stop
    amend := none
    verdict := none }

/-- A live grant's kind becomes its issued kind again as the claim it names returns to ACTIVE (R41, R105). -/
def restoreGrant (f : Flyer) (h : Handle) (s : State) : State :=
  match s.grantOf f with
  | none => s
  | some g =>
    if g.claim = h then s.setGrant f { s.grants[f] with live := some { g with kind := g.issued } } else s

/-- The state a passing amendment puts the claim of slot i in, from its state at completion (R40). -/
def amendedState (i : Slot) (c : Claim) (a : Amendment) (s : State) : State :=
  match c.state with
  | .overrun =>
    if a.newEnd.isSome then restoreGrant c.flyer (s.handleAt i) (moveClaim i .active s) else s
  | .held cause true => if a.newEnd.isSome then moveClaim i (.held cause false) s else s
  | .held .overlap false => releaseOverlap i s
  | _ => s

/-- The flyer's grant removed with AMENDED when it names the claim and its segment box does not lie in the new box (R41).
The removal of a grounded flyer's grant delivers the grounded event, which frees the flyer's OVERRUN claims with EXPIRED, the amended one too (R15, R103; DESIGN CHOICE beside R40, log 28). -/
def amendGrant (i : Slot) (c : Claim) (a : Amendment) (s : State) : State :=
  match a.newBox, s.grantOf c.flyer with
  | some b, some g =>
    if decide (g.claim = s.handleAt i) && !b.contains g.segment then removeGrant c.flyer .amended s else s
  | _, _ => s

/-- A passing amendment applied: the claim's new shape, then its state, then its flyer's grant (R40, R41, log 25).
Beyond ADMIT_DONE it raises WINDOW_OPENED of a released OVERLAP claim, the re-check's flags (R40), and EXPIRED of a claim that the grounded event of a removal frees (DESIGN CHOICE, log 28). -/
def passAmendment (i : Slot) (c : Claim) (a : Amendment) (s : State) : State :=
  amendGrant i c a (amendedState i c a (s.setClaim i (amendedClaim c a)))

/-- Whether the completion of an amendment closes with the re-check in any case: a new box on an overstaying claim (R13, R40). -/
def asksRecheck (c : Claim) (a : Amendment) : Bool := a.newBox.isSome && c.state.overstaying

/-- A zone slot settled by the verdict of its walk, none being a pass (R56). -/
def settleZone (v : Option Handle) : ZoneSlot → ZoneSlot
  | .pending area =>
    match v with
    | none => .set area none none
    | some h => .refused area h
  | .set area (some r) _ =>
    match v with
    | none => .set r none none
    | some h => .set area none (some h)
  | z => z

/-- The handle a verdict names, for a ZONE walk, which is refused by CONFLICT alone (R43). -/
def Verdict.handle? : Verdict → Option Handle
  | .conflict h => some h
  | .zone _ | .stale => none

/-- The verdict delivered to the subject of a completed walk, none being a walk that found no conflict; with it, whether the re-check is asked for (R39). -/
def deliverVerdict (e : Entry) (v : Option Verdict) (s : State) : State × Bool :=
  match e with
  | .book h =>
    match s.resolve h with
    | none => (s, false)
    | some c =>
      match v with
      | some r => (refuseBooking h.slot c r s, false)
      | none => (placeBooking h.slot c s, false)
  | .amend h =>
    match s.resolve h with
    | none => (s, false)
    | some c =>
      match v, c.amend with
      | some r, _ => (refuseAmendment h.slot c r s, false)
      | none, none => (s, false)
      | none, some a =>
        if endedBy (amendedEnd c a) s.now then (refuseAmendment h.slot c .stale s, false)
        else (passAmendment h.slot c a s, asksRecheck c a)
  | .zone z => (s.setZone z (settleZone (v.bind Verdict.handle?) s.zones[z]), false)

/-- The head's entry leaving the queue at the completion of its walk (R28, R39). -/
def leaveQueue (s : State) : State := s.setAdmission { queue := s.admission.queue.drop 1, walk := none }

/-- The completion of a walk, one event: the verdict, ADMIT_DONE, the re-check where it is due, and the next head's walk (R39). -/
def completeWalk (e : Entry) (v : Option Verdict) (s : State) : State :=
  let r := deliverVerdict e v (leaveQueue s)
  closeEvent r.2 s (raiseFlag .admitDone r.1)

/-! ## The walk's reads (R36 to R38) -/

/-- The slot whose claim is the subject of an entry; a ZONE entry has none (R36). -/
def Entry.slot? : Entry → Option Slot
  | .book h | .amend h => some h.slot
  | .zone _ => none

/-- Whether the claim of a slot conflicts with the candidate of a walk, as it stands at this access (R36, R38). -/
def State.slotConflicts (s : State) (w : Walk) (i : Slot) : Bool :=
  (s.claimAt i).any (fun d =>
    d.state.occupying && decide (w.subject.slot? ≠ some i) && decide (w.cand.flyer ≠ some d.flyer)
      && d.region.overlaps w.cand.box && w.cand.span.meets s.now (d.occupancy s.now))

/-- The walk position advanced. -/
def setWalkPos (w : Walk) (p : WalkPos) (s : State) : State :=
  s.setAdmission { s.admission with walk := some { w with pos := p } }

/-- Whether an entry is a ZONE entry, whose walk has no zone phase (R38). -/
def Entry.isZone : Entry → Bool
  | .zone _ => true
  | .book _ | .amend _ => false

/-- The read of slot i by a walk (R36, R38). -/
def readSlot (w : Walk) (i : Slot) (s : State) : State :=
  if s.slotConflicts w i then completeWalk w.subject (some (.conflict (s.handleAt i))) s
  else if i.val < 31 then setWalkPos w (.claims (i + 1)) s
  else if w.subject.isZone then completeWalk w.subject none s
  else setWalkPos w (.zones 0) s

/-- WALK_ACCESS: the arbiter serves the walk's access (R24, R36). -/
def execWalkAccess (s : State) : Result :=
  match s.admission.walk with
  | some w =>
    match w.pos with
    | .claims i => if s.grantsWalk then .next (readSlot w i (serveWalk s)) else .next s
    | .zones _ => .next s
  | none => .next s

/-- Whether a zone conflicts with the candidate of a walk: a SET zone whose present box its region overlaps, with no test of time (R37). -/
def State.zoneConflicts (s : State) (w : Walk) (z : Zone) : Bool :=
  s.zones[z].inForce.any (fun b => w.cand.box.overlaps b)

/-- The read of zone z by a walk (R37). -/
def readZone (w : Walk) (z : Zone) (s : State) : State :=
  if s.zoneConflicts w z then completeWalk w.subject (some (.zone z)) s
  else if z.val < 7 then setWalkPos w (.zones (z + 1)) s
  else completeWalk w.subject none s

/-- ZONE_PHASE_READ: the walk reads its next zone, straight from the Zone Table (R37). -/
def execZonePhaseRead (s : State) : Result :=
  match s.admission.walk with
  | some w =>
    match w.pos with
    | .zones z => if s.running then .next (readZone w z s) else .next s
    | .claims _ => .next s
  | none => .next s

end Sys2Proof.Machine
end

