-- ==== Sys2Proof/Machine/Zones.lean ====
section
/-! DEFINITION. The zone commands ZONE_SET, ZONE_CLEAR and SET_PROTECT, and the RIG LOCK line (R53 to R61). -/

namespace Sys2Proof.Machine

/-- Whether the effective protection refuses a command on a zone: HARD always, SOFT when the zone's fixed attribute is set (R59). -/
def State.protects (s : State) (z : Zone) : Bool :=
  match s.effective with
  | .hard => true
  | .soft => s.zones[z].isFixed
  | .opened => false

/-- Whether a zone has a ZONE entry waiting: PENDING, or SET with a pending replacement (R27, R53). -/
def ZoneSlot.awaiting : ZoneSlot → Bool
  | .pending _ => true
  | .set _ r _ => r.isSome
  | .empty | .refused _ _ => false

/-- A zone slot as an accepted ZONE_SET leaves it: PENDING, or SET with a pending replacement (R54, R55). -/
def requestZone (area : FixedBox) : ZoneSlot → ZoneSlot
  | .set old _ v => .set old (some area) v
  | .empty | .pending _ | .refused _ _ => .pending area

/-- An accepted ZONE_SET: the slot written and the ZONE entry appended, answered QUEUED with the zone number (R54, R55). -/
def acceptZone (z : Zone) (area : FixedBox) (s : State) : State × Transaction :=
  (closeEvent false s (appendEntry (.zone z) (s.setZone z (requestZone area s.zones[z]))),
    .response .queued (some (BitVec.ofNat 8 z.val)))

/-- ZONE_SET's tests and effect (R53). -/
def zoneSetOperands (zone : Byte) (box : BoxBytes) (fixed : Byte) (s : State) : State × Transaction :=
  match zoneOf zone, boxOf box, fixedOf fixed with
  | some z, some b, some f =>
    if s.protects z then refuse .protected_ s
    else if s.zones[z].awaiting then refuse .wrongState s
    else if s.queueFull then refuse .queueFull s
    else acceptZone z { box := b, fixed := f } s
  | _, _, _ => refuse .badOperand s

/-- ZONE_SET (R53). -/
def execZoneSet (zone : Byte) (box : BoxBytes) (fixed : Byte) (s : State) : Result :=
  takeCommand .zoneSet (fun _ => zoneSetOperands zone box fixed) s

/-- ZONE_CLEAR's tests and effect: the slot goes EMPTY and a ZONE entry of it is withdrawn (R57). -/
def zoneClearOperands (zone : Byte) (s : State) : State × Transaction :=
  match zoneOf zone with
  | none => refuse .badOperand s
  | some z =>
    if s.protects z then refuse .protected_ s
    else if s.zones[z] = .empty then refuse .wrongState s
    else (closeEvent false s (withdrawEntry (.zone z) (s.setZone z .empty)), answer .ok)

/-- ZONE_CLEAR (R57). -/
def execZoneClear (zone : Byte) (s : State) : Result := takeCommand .zoneClear (fun _ => zoneClearOperands zone) s

/-- SET_PROTECT's tests and effect (R60).
The operand is judged before the protection, where R60 gives no order (log 27). -/
def setProtectOperand (mode : Byte) (s : State) : State × Transaction :=
  match protectOf mode with
  | none => refuse .badOperand s
  | some m => if s.effective = .hard then refuse .protected_ s else ({ s with protect := m }, answer .ok)

/-- SET_PROTECT (R60). -/
def execSetProtect (mode : Byte) (s : State) : Result := takeCommand .setProtect (fun _ => setProtectOperand mode) s

/-- RIG_LOCK_CHANGE: the level of RIG LOCK is followed in every supply state (R58, R62, R176). -/
def execRigLockChange (asserted : Bool) (s : State) : Result :=
  .next { s with inputs := { s.inputs with rigLock := asserted } }

end Sys2Proof.Machine
end

