-- ==== Sys2Proof/Machine/Flyers.lean ====
section
/-! DEFINITION. The flyer commands BIND, UNBIND and CLEAR_BREACH (R65, R67, R116). -/

namespace Sys2Proof.Machine

/-- BIND's tests 5 to 7 and its effect, for a winch bound to no flyer (R65). -/
def bindWinch (f : Flyer) (w : Winch) (s : State) : State × Transaction :=
  if Config.bindingRoom ≤ (s.boundWinches f).length then refuse .bindingFull s
  else if !s.groundedFlyer f then refuse .airborne s
  else if (s.grantOf f).isSome then refuse .grantLive s
  else (s.setBinding w (some f), answer .ok)

/-- BIND's tests and effect (R61, R65). -/
def bindOperands (flyer winch : Byte) (s : State) : State × Transaction :=
  match flyerOf flyer, winchOf winch with
  | some f, some w =>
    if s.effective = .hard then refuse .protected_ s
    else
      match s.bindings[w] with
      | some g => if g = f then (s, answer .ok) else refuse .wrongState s
      | none => bindWinch f w s
  | _, _ => refuse .badOperand s

/-- BIND (R65). -/
def execBind (flyer winch : Byte) (s : State) : Result := takeCommand .bind (fun _ => bindOperands flyer winch) s

/-- UNBIND's tests and effect (R61, R67). -/
def unbindOperand (winch : Byte) (s : State) : State × Transaction :=
  match winchOf winch with
  | none => refuse .badOperand s
  | some w =>
    if s.effective = .hard then refuse .protected_ s
    else
      match s.bindings[w] with
      | none => refuse .wrongState s
      | some f =>
        if !s.groundedFlyer f then refuse .airborne s
        else if (s.grantOf f).isSome then refuse .grantLive s
        else (s.setBinding w none, answer .ok)

/-- UNBIND (R67). -/
def execUnbind (winch : Byte) (s : State) : Result := takeCommand .unbind (fun _ => unbindOperand winch) s

/-- CLEAR_BREACH's tests and effect: the record alone is removed (R116). -/
def clearBreachOperand (flyer : Byte) (s : State) : State × Transaction :=
  match flyerOf flyer with
  | none => refuse .badOperand s
  | some f =>
    if s.breached f then (s.setFlyer f { s.flyers[f] with breach := none }, answer .ok) else refuse .wrongState s

/-- CLEAR_BREACH (R116). -/
def execClearBreach (flyer : Byte) (s : State) : Result := takeCommand .clearBreach (fun _ => clearBreachOperand flyer) s

end Sys2Proof.Machine
end

