-- ==== Sys2Proof/Machine/Time.lean ====
section
/-! DEFINITION. Real time, in microseconds: what its passing does to every timer that runs (log 2, log 3). -/

namespace Sys2Proof.Machine

/-- A timer that runs, d microseconds on. -/
def tickTimer (d : Nat) (t : Option Nat) : Option Nat := t.map (fun e => e + d)

/-- A receiver d microseconds on (R80). -/
def Receiver.elapse (d : Nat) : Receiver → Receiver
  | .hunting => .hunting
  | .receiving body since => .receiving body (since + d)

/-- A channel d microseconds on: its report timer and its receiver (R80, R86). -/
def Channel.elapse (d : Nat) (c : Channel) : Channel := { c with timer := tickTimer d c.timer, rx := c.rx.elapse d }

/-- A grant's lease d microseconds shorter; it stays at zero once there (R101). -/
def GrantRec.elapse (d : Nat) (g : GrantRec) : GrantRec := { g with live := g.live.map (fun x => { x with lease := x.lease - d }) }

/-- The show clock's timers d microseconds on: the pulse watch, a pending request, the internal period (R136, R137, R139). -/
def Clock.elapse (d : Nat) (c : Clock) : Clock :=
  { c with request := tickTimer d c.request, pulseWatch := tickTimer d c.pulseWatch, period := tickTimer d c.period }

/-- d microseconds of real time; on BACKUP, in OFF and held in RESET no timer runs (R176, R179). -/
def elapse (d : Nat) (s : State) : State :=
  if s.running then
    { s with
      channels := tabulate (fun c => s.channels[c].elapse d)
      grants := tabulate (fun f => s.grants[f].elapse d)
      clock := s.clock.elapse d }
  else s

/-- The real time until a running timer has reached a time: none once it has (log 3). -/
def timeLeft (due : Nat) (timer : Option Nat) : Nat := timer.elim 0 (fun e => due - e)

end Sys2Proof.Machine
end

