-- ==== Sys2Proof/Machine/Channels.lean ====
section
/-! DEFINITION. The flyer channels: the receiver's events, HELLO, the expiries of the report timer, outgoing frames, and REOPEN (R80 to R91). -/

namespace Sys2Proof.Machine

/-- REOPEN's tests and effect: a LOST channel goes OPEN with its report timer disarmed (R89). -/
def reopenOperand (channel : Byte) (s : State) : State × Transaction :=
  match flyerOf channel with
  | none => refuse .badOperand s
  | some c =>
    if s.channels[c].state = .lost then
      (s.setChannel c { s.channels[c] with state := .opened, timer := none }, answer .ok)
    else refuse .wrongState s

/-- REOPEN (R89). -/
def execReopen (channel : Byte) (s : State) : Result := takeCommand .reopen (fun _ => reopenOperand channel) s

/-! ## The receiver (R80, R82). While the part does not run, RXD is ignored (R77). -/

/-- The receiver of a channel set. -/
def setReceiver (ch : Flyer) (r : Receiver) (s : State) : State := s.setChannel ch { s.channels[ch] with rx := r }

/-- The receiver a byte meets: a partial frame is gone when more than 100 us lay between the end of its last byte and the start of this one, so that this one is taken as the first of a fresh hunt (R80).
A byte is an event at its end, 10 us after its start (R77). -/
def Receiver.atByte : Receiver → Receiver
  | .hunting => .hunting
  | .receiving body since => if Config.gapTime + Config.byteTime < since then .hunting else .receiving body since

/-- The receiver after a byte: a sync byte starts a frame, a known kind goes on to its payload, the payload to the check byte, and with every other byte the receiver hunts (R80).
Each byte of the frame begins the measure of the gap anew. -/
def Receiver.hear (b : Byte) : Receiver → Receiver
  | .hunting => if b = syncByteValue then .receiving [] 0 else .hunting
  | .receiving [] _ => if knownKind b then .receiving [b] 0 else .hunting
  | .receiving (k :: payload) _ =>
    if (decodeFrame (k :: payload)).isSome then .hunting else .receiving (k :: payload ++ [b]) 0

/-- The frame that a byte takes: the byte stands where the check byte falls, and agrees (R78, R80). -/
def Receiver.taken (b : Byte) : Receiver → Option InFrame
  | .hunting => none
  | .receiving body _ => if b = crc8 body then decodeFrame body else none

/-- A frame placed at the end of a channel's inbound list, or discarded when the list is full (R82). -/
def admitFrame (ch : Flyer) (f : InFrame) (s : State) : State :=
  if s.channels[ch].inbound.length < Config.inboundRoom then
    s.setChannel ch { s.channels[ch] with inbound := s.channels[ch].inbound ++ [f] }
  else s

/-- A byte heard on a channel: the receiver goes on, and a frame taken at it is placed in the inbound list (R80, R82). -/
def hearByte (ch : Flyer) (b : Byte) (s : State) : State :=
  let heard := setReceiver ch (s.channels[ch].rx.atByte.hear b) s
  match s.channels[ch].rx.atByte.taken b with
  | some f => admitFrame ch f heard
  | none => heard

/-- A receiver d microseconds earlier (R77). -/
def Receiver.before (d : Nat) : Receiver → Receiver
  | .hunting => .hunting
  | .receiving body since => .receiving body (since - d)

/-- Bytes heard back to back, the last of which ends now: the first met the receiver 10 us earlier for each byte after it (R77, R80). -/
def hearBytes (ch : Flyer) (bytes : List Byte) (last : Byte) (s : State) : State :=
  hearByte ch last (bytes.foldl (fun t b => hearByte ch b t)
    (setReceiver ch (s.channels[ch].rx.before (Config.byteTime * bytes.length)) s))

/-- The end of good bytes on RXD: heard while the part runs, else ignored (R77). -/
def receiveBytes (ch : Flyer) (bytes : List Byte) (last : Byte) (s : State) : Result :=
  .next (if s.running then hearBytes ch bytes last s else s)

/-- SYNC_BYTE: a byte of the sync value; a hunting receiver starts a frame, and inside a frame it is data (R80). -/
def execSyncByte (ch : Flyer) (s : State) : Result := receiveBytes ch [] syncByteValue s

/-- UNKNOWN_KIND: a byte that is no known kind; where the kind byte falls, the frame is discarded and the receiver hunts again (R80). -/
def execUnknownKind (ch : Flyer) (kind : Byte) (s : State) : Result := receiveBytes ch [] kind s

/-- FRAME_TAKEN: the bytes of a frame, or of a part of it, heard back to back; at a check byte that agrees the frame is taken (R78, R80, R82).
That the row carries the kind, payload and check bytes, and may end before the check byte, the table having no row for the others, is the model's choice (log 6). -/
def execFrameTaken (ch : Flyer) (bytes : List Byte) (last : Byte) (s : State) : Result := receiveBytes ch bytes last s

/-- FRAME_GAP: more than 100 us pass after the end of the last byte of a frame, and the partial frame is discarded (R80, log 3). -/
def execFrameGap (ch : Flyer) (s : State) : Result :=
  match s.channels[ch].rx with
  | .receiving _ since =>
    if s.running then .next (setReceiver ch .hunting (elapse (Config.gapTime + 1 - since) s)) else .next s
  | .hunting => .next s

/-- FRAMING_ERROR: any partial frame is discarded, the byte as well, and the receiver hunts (R77, R80). -/
def execFramingError (ch : Flyer) (s : State) : Result :=
  if s.running then .next (setReceiver ch .hunting s) else .next s

/-! ## The head of the inbound list (R82, R83, R91) -/

/-- The handled frame leaves the inbound list (R82). -/
def dropHead (ch : Flyer) (s : State) : State :=
  s.setChannel ch { s.channels[ch] with inbound := s.channels[ch].inbound.drop 1 }

/-- CLOSED_CHANNEL_DISCARD: a REPORT or ASK at the head of a CLOSED channel's list is discarded (R82).
That this does not wait for the outgoing queue, as R91 makes a head wait while two or more frames stand behind the one being sent, is the model's choice (log 29). -/
def execClosedChannelDiscard (ch : Flyer) (s : State) : Result :=
  match s.channels[ch].inbound with
  | .report _ _ _ _ :: _ | .ask _ _ _ :: _ =>
    if s.running && decide (s.channels[ch].state = .closed) then .next (dropHead ch s) else .next s
  | .hello _ _ :: _ | [] => .next s

/-- A CLOSED channel goes OPEN at a HELLO with its own number; any other channel keeps its state (R83). -/
def welcomeChannel (ch : Flyer) (s : State) : State :=
  if s.channels[ch].state = .closed then s.setChannel ch { s.channels[ch] with state := .opened } else s

/-- A HELLO judged by the flyer id it carries (R83). -/
def judgeHello (ch : Flyer) (id : Byte) (s : State) : State :=
  if id.toNat = flyerNumber ch then queueFrame ch (.welcome (flyerNumber ch)) (welcomeChannel ch s)
  else queueFrame ch (.deny .mismatch) s

/-- HELLO: the HELLO at the head of the inbound list is handled (R83, R91). -/
def execHello (ch : Flyer) (s : State) : Result :=
  match s.channels[ch].inbound with
  | .hello id _ :: _ =>
    if s.running && s.channels[ch].mayHandle then .next (judgeHello ch id (dropHead ch s)) else .next s
  | .report _ _ _ _ :: _ | .ask _ _ _ :: _ | [] => .next s

/-- FRAME_SENT: the frame being sent has left, and the next waiting frame starts (R77, R90). -/
def execFrameSent (ch : Flyer) (s : State) : Result :=
  if s.running then .next (s.setChannel ch { s.channels[ch] with out := s.channels[ch].out.drop 1 }) else .next s

/-! ## The report timer (R86 to R88). An expiry whose time has not yet come waits for it (log 3). -/

/-- The real time passing until a channel's report timer has run for a time (R86, log 3). -/
def awaitSilence (ch : Flyer) (t : Nat) (s : State) : State := elapse (timeLeft t s.channels[ch].timer) s

/-- A channel falling late: LATE, with CHANNEL_LATE raised (R87). -/
def lateChannel (ch : Flyer) (s : State) : State :=
  raiseFlag .channelLate (s.setChannel ch { s.channels[ch] with state := .late })

/-- LATE_EXPIRY: a LIVE channel silent for 30 ms goes LATE (R87). -/
def execLateExpiry (ch : Flyer) (s : State) : Result :=
  if s.running && decide (s.channels[ch].state = .live) && s.channels[ch].timer.isSome then
    .next (lateChannel ch (awaitSilence ch Config.lateTime s))
  else .next s

/-- A channel lost: LOST, the alert, and the grant removed with LOST (R88). -/
def loseChannel (ch : Flyer) (s : State) : State :=
  let s1 := s.setChannel ch { s.channels[ch] with state := .lost }
  closeEvent false s (removeGrant ch .lost (recordAlert (.lost ch) s1))

/-- LOST_EXPIRY: a LIVE or LATE channel silent for 60 ms goes LOST (R88). -/
def execLostExpiry (ch : Flyer) (s : State) : Result :=
  if s.running && (decide (s.channels[ch].state = .live) || decide (s.channels[ch].state = .late))
      && s.channels[ch].timer.isSome then
    .next (loseChannel ch (awaitSilence ch Config.lostTime s))
  else .next s

end Sys2Proof.Machine
end

