-- ==== Sys2Proof/Machine/Holds.lean ====
section
/-! DEFINITION. The hold commands HOLD and RELEASE, and the STOP and RING lines (R121 to R127). -/

namespace Sys2Proof.Machine

/-- The source a HOLD pushes, by the select it came from (R121). -/
def holdSourceFrom : Select → HoldSource
  | .showSel => .showHold
  | .crewSel => .crewHold

/-- HOLD's effect (R121). -/
def holdFrom (sel : Select) (s : State) : State × Transaction :=
  (closeEvent false s (pushHold (holdSourceFrom sel) true s), answer .ok)

/-- HOLD (R121). -/
def execHold (s : State) : Result := takeCommand .hold holdFrom s

/-- Whether the CREW select may release a source (R125, R160). -/
def crewMayRelease : HoldSource → Bool
  | .crewHold | .ring => true
  | .showHold | .stop | .breach | .restart => false

/-- The further condition on the release of a source (R126). -/
def releaseClear (src : HoldSource) (s : State) : Bool :=
  match src with
  | .ring => !s.inputs.ring
  | .stop => !s.inputs.stop
  | .breach => allFlyers.all (fun f => !(s.flyers[f].breach.any (fun b => b.intrusion)))
  | .showHold | .crewHold | .restart => true

/-- A source's entry removed with HOLDS_CHANGED; emptying the list starts a FROZEN clock (R125, R127). -/
def removeHold (src : HoldSource) (s : State) : State :=
  let s1 := raiseFlag .holdsChanged { s with holds := s.holds.filter (fun h => decide (h.source ≠ src)) }
  if s1.holds.isEmpty then thawClock s1 else s1

/-- RELEASE's tests and effect, the operand judged before the crew's privilege (R125, R160). -/
def releaseFrom (source : Byte) (sel : Select) (s : State) : State × Transaction :=
  match holdSourceOf source with
  | none => refuse .badOperand s
  | some src =>
    if decide (sel = .crewSel) && !crewMayRelease src then refuse .privilege s
    else if !s.holding src then refuse .wrongState s
    else if !releaseClear src s then refuse .notClear s
    else (removeHold src s, answer .ok)

/-- RELEASE (R125). -/
def execRelease (source : Byte) (s : State) : Result := takeCommand .release (releaseFrom source) s

/-! ## The STOP and RING lines (R122). Their levels are followed in every supply state, for the sampling of R123 (log 14). -/

/-- STOP taken as asserted: STOP is pushed and a STOP alert recorded (R122, R123). -/
def takeStop (flag : Bool) (s : State) : State := recordAlert .stop (pushHold .stop flag s)

/-- RING taken as asserted: RING is pushed (R122, R123). -/
def takeRing (flag : Bool) (s : State) : State := pushHold .ring flag s

/-- The level of STOP followed. -/
def setStopLine (v : Bool) (s : State) : State := { s with inputs := { s.inputs with stop := v } }

/-- The level of RING followed. -/
def setRingLine (v : Bool) (s : State) : State := { s with inputs := { s.inputs with ring := v } }

/-- STOP_ASSERTION: a change of the line to asserted, an event only while the part runs (R122). -/
def execStopAssertion (s : State) : Result :=
  if s.inputs.stop then .next s
  else if s.running then .next (closeEvent false s (takeStop true (setStopLine true s)))
  else .next (setStopLine true s)

/-- RING_ASSERTION: a change of the line to asserted, an event only while the part runs (R122). -/
def execRingAssertion (s : State) : Result :=
  if s.inputs.ring then .next s
  else if s.running then .next (closeEvent false s (takeRing true (setRingLine true s)))
  else .next (setRingLine true s)

/-- STOP_DEASSERTION: the line's level changes, and nothing in the list (R122). -/
def execStopDeassertion (s : State) : Result := .next (setStopLine false s)

/-- RING_DEASSERTION: the line's level changes, and nothing in the list (R122). -/
def execRingDeassertion (s : State) : Result := .next (setRingLine false s)

end Sys2Proof.Machine
end

