-- ==== Sys2Proof/Machine/Grants.lean ====
section
/-! DEFINITION. Travel grants and the Position Monitor: ASK, REPORT, the lease's expiry, the breach response (R69, R84, R96 to R115). -/

namespace Sys2Proof.Machine

/-! ## ASK (R96 to R99) -/

/-- Whether a claim is one of the flyer's in a state, with a box containing the segment box (R97). -/
def holdsSegment (f : Flyer) (st : ClaimState) (seg : Box) (c : Claim) : Bool :=
  decide (c.flyer = f) && decide (c.state = st) && c.box.contains seg

/-- The lowest slot whose claim is the flyer's, in a state, and contains the segment box (R97). -/
def State.segmentSlot (s : State) (f : Flyer) (st : ClaimState) (seg : Box) : Option Slot :=
  allSlots.find? (fun i => (s.claimAt i).any (holdsSegment f st seg))

/-- What the Grant Unit answers: a grant naming a claim, or a denial (R96). -/
inductive Judgement where
  | grant (kind : GrantKind) (origin : Cell) (slot : Slot)
  | deny (reason : Reason)
  deriving DecidableEq, Repr

/-- Tests 8 and 9, from the flyer's last position (R96, R97).
The position is present whenever these tests are reached; were it absent, no box would contain the segment (log 13). -/
def judgeSegment (f : Flyer) (target : Cell) (s : State) : Judgement :=
  match s.flyers[f].position with
  | none => .deny .noClaim
  | some origin =>
    match s.segmentSlot f .active (segmentBox origin target), s.segmentSlot f .overrun (segmentBox origin target) with
    | some i, _ => .grant .travel origin i
    | none, some i => if straightDown origin target then .grant .descent origin i else .deny .descentOnly
    | none, none => .deny .noClaim

/-- The reason a channel state gives against an ASK; a CLOSED channel's ASK never comes so far (R85, R96). -/
def channelRefusal : ChannelState → Option Reason
  | .opened => some .notLive
  | .late => some .late
  | .lost => some .lost
  | .live | .closed => none

/-- The tests of an ASK, in their order (R96). -/
def judgeAsk (f : Flyer) (target : Cell) (s : State) : Judgement :=
  if !target.inGrid then .deny .badTarget
  else if !s.holds.isEmpty then .deny .held
  else
    match channelRefusal s.channels[f].state with
    | some r => .deny r
    | none =>
      if s.breached f then .deny .breached
      else if (s.boundWinches f).isEmpty then .deny .unbound
      else judgeSegment f target s

/-- The sequence after a sequence, 255 being followed by 0 (R98). -/
def nextSeq (n : Nat) : Nat := if n < 255 then n + 1 else 0

/-- The grant an issue writes (R98). -/
def issuedGrant (f : Flyer) (kind : GrantKind) (origin target : Cell) (i : Slot) (s : State) : Grant :=
  { seq := nextSeq s.grants[f].seq, target := target, segment := segmentBox origin target, claim := s.handleAt i
    issued := kind, kind := kind, lease := Config.leaseTime }

/-- The issue of a grant: the sequence advances, the record is written in place of any earlier one, the permits rise, and the GRANT is queued (R98). -/
def issueGrant (f : Flyer) (kind : GrantKind) (origin target : Cell) (i : Slot) (s : State) : State :=
  let g := issuedGrant f kind origin target i s
  queueFrame f (.grant g.seq target kind) (drivePermits f .high (s.setGrant f { seq := g.seq, live := some g }))

/-- An ASK answered (R98, R99). -/
def answerAsk (f : Flyer) (target : Cell) (s : State) : State :=
  match judgeAsk f target s with
  | .grant kind origin i => issueGrant f kind origin target i s
  | .deny r => queueFrame f (.deny r) s

/-- ASK: the ASK at the head is handled at the service of its lookup (R82, R85, R96). -/
def execAsk (ch : Flyer) (s : State) : Result :=
  match s.channels[ch].inbound with
  | .ask x y z :: _ =>
    if s.grantsChannel ch then .next (answerAsk ch (cellOf x y z) (dropHead ch (serveChannel ch s))) else .next s
  | .hello _ _ :: _ | .report _ _ _ _ :: _ | [] => .next s

/-! ## The lease (R101) -/

/-- A lapsed grant removed with EXPIRED (R101, R103). -/
def expireGrant (f : Flyer) (s : State) : State := closeEvent false s (removeGrant f .expired s)

/-- LEASE_EXPIRY: a live grant whose lease has run out is removed; real time passes until it has (R101, log 3). -/
def execLeaseExpiry (f : Flyer) (s : State) : Result :=
  match s.grantOf f with
  | none => .next s
  | some g => if s.running then .next (expireGrant f (elapse g.lease s)) else .next s

/-! ## Judging a REPORT (R108 to R111) -/

/-- Whether a cell lies in the box of one of the flyer's claims with a property of its state. -/
def State.inOwnClaim (s : State) (f : Flyer) (p : ClaimState → Bool) (cell : Cell) : Bool :=
  s.anyClaim (fun _ c => decide (c.flyer = f) && p c.state && c.box.containsCell cell)

/-- The compliance test: the kind of the failure, none when it passes (R109). -/
def compliance (f : Flyer) (cell : Cell) (s : State) : Option BreachKind :=
  if !cell.inGrid then some .escape
  else
    match s.grantOf f, s.flyers[f].position with
    | some g, _ => if g.segment.containsCell cell then none else some .escape
    | none, some p => if cell = p then none else some .drift
    | none, none => if s.inOwnClaim f ClaimState.begun cell then none else some .escape

/-- Whether a claim is HELD. -/
def ClaimState.isHeld : ClaimState → Bool
  | .held _ _ => true
  | _ => false

/-- The lowest SET zone whose present box contains a cell (R52). -/
def State.zoneHolding (s : State) (cell : Cell) : Option Zone :=
  allZones.find? (fun z => s.zones[z].inForce.any (fun b => b.containsCell cell))

/-- The intrusion test: a SET zone, or a begun claim of another flyer, but for a HELD claim where the reporting flyer overstays (R110). -/
def intrudes (f : Flyer) (cell : Cell) (s : State) : Bool :=
  (s.zoneHolding cell).isSome ||
  s.anyClaim (fun _ c =>
    decide (c.flyer ≠ f) && c.state.begun && c.region.containsCell cell
      && !(c.state.isHeld && s.inOwnClaim f ClaimState.overstaying cell))

/-- The classification of an airborne report: none when lawful (R111). -/
def classify (f : Flyer) (cell : Cell) (s : State) : Option BreachKind :=
  if intrudes f cell s then some .intrude else compliance f cell s

/-- The judgement of a report: a grounded one is not judged (R108). -/
def judgeReport (f : Flyer) (cell : Cell) (grounded : Bool) (s : State) : Option BreachKind :=
  if grounded then none else classify f cell s

/-! ## Storing and answering a REPORT (R69, R84, R112 to R115) -/

/-- The channel's own action at a REPORT: OPEN, LIVE and LATE go LIVE, LOST stays, and the report timer starts (R84). -/
def channelReport (ch : Flyer) (s : State) : State :=
  s.setChannel ch
    { s.channels[ch] with
      state := if s.channels[ch].state = .lost then .lost else .live
      timer := some 0 }

/-- A report stored (R69). -/
def storeReport (f : Flyer) (cell : Cell) (grounded : Bool) (s : State) : State :=
  s.setFlyer f { s.flyers[f] with position := some cell, grounded := grounded }

/-- One claim held for breach (R16). -/
def breachClaim (f : Flyer) (i : Slot) (s : State) : State :=
  match s.claimAt i with
  | none => s
  | some c =>
    if c.flyer = f then
      match c.state with
      | .active => moveClaim i (.held .breach false) s
      | .overrun => moveClaim i (.held .breach true) s
      | _ => s
    else s

/-- The flyer's claims held for breach (R16). -/
def breachClaims (f : Flyer) (s : State) : State := allSlots.foldl (fun t i => breachClaim f i t) s

/-- A breach record after a breach: created, or its latest fields, count and flag updated (R115). -/
def breachRecordAfter (e : BreachEvent) : Option BreachRec → BreachRec
  | none => { first := e, latest := e, count := 1, intrusion := decide (e.kind = .intrude) }
  | some b =>
    { first := b.first, latest := e, count := bumpCount b.count, intrusion := b.intrusion || decide (e.kind = .intrude) }

/-- The flyer's breach record written or updated (R115). -/
def writeBreach (f : Flyer) (kind : BreachKind) (cell : Cell) (s : State) : State :=
  s.setFlyer f
    { s.flyers[f] with
      breach := some (breachRecordAfter { kind := kind, tick := s.now, cell := cell } s.flyers[f].breach) }

/-- The alert a breach records (R112). -/
def breachAlert (f : Flyer) : BreachKind → AlertCause
  | .intrude => .intrude f
  | .escape | .drift => .breach f

/-- The breach response, its five steps in order (R112, R113). -/
def breachResponse (f : Flyer) (kind : BreachKind) (cell : Cell) (s : State) : State :=
  let s1 := removeGrant f .breach s
  let s2 := breachClaims f s1
  let s3 := writeBreach f kind cell s2
  let s4 := recordAlert (breachAlert f kind) s3
  if kind = .intrude then pushHold .breach true s4 else s4

/-- What a stored report sets off: the breach response, or the grounded event of a grounded report (R71, R112). -/
def reportOutcome (f : Flyer) (cell : Cell) (grounded : Bool) (v : Option BreachKind) (s : State) : State :=
  match v with
  | some kind => breachResponse f kind cell s
  | none => if grounded then groundedEvent f s else s

/-- The handling of a report in one event: the channel's action, the judgement on the record as it stood, the storage, and what follows (R69, R84). -/
def handleReport (ch : Flyer) (cell : Cell) (grounded : Bool) (s : State) : State :=
  reportOutcome ch cell grounded (judgeReport ch cell grounded s)
    (storeReport ch cell grounded (channelReport ch s))

/-- REPORT: the REPORT at the head is handled at the service of its lookup (R82, R84). -/
def execReport (ch : Flyer) (s : State) : Result :=
  match s.channels[ch].inbound with
  | .report x y z flags :: _ =>
    if s.grantsChannel ch then
      .next (closeEvent false s (handleReport ch (cellOf x y z) (groundedOf flags) (dropHead ch (serveChannel ch s))))
    else .next s
  | .hello _ _ :: _ | .ask _ _ _ :: _ | [] => .next s

end Sys2Proof.Machine
end

