-- ==== Sys2Proof/Machine/ShowClock.lean ====
section
/-! DEFINITION. The show clock: ticks, the tick sources, SET_CLOCK, SET_SOURCE and SKIP (R132 to R143). -/

namespace Sys2Proof.Machine

/-- The clock ENDED when its count has reached the top (R134, R142). -/
def endClock (s : State) : State :=
  if Config.maxTick ≤ s.clock.count then s.setClock { s.clock with run := .ended } else s

/-- A tick source event with its source in use: a tick on a RUNNING clock, else passed over (R134). -/
def sourceEvent (s : State) : State :=
  if s.clock.run = .running then
    endClock (tickEvent (s.setClock { s.clock with count := s.clock.count + 1 }))
  else s

/-- The period that has run t completed, real time passing until it is, and the next one begun (R136, log 3, log 19). -/
def nextPeriod (t : Nat) (s : State) : State :=
  let s1 := elapse (Config.periodTime - t) s
  s1.setClock { s1.clock with period := some (t - Config.periodTime) }

/-- INTERNAL_PERIOD_COMPLETION: the next period begins at once, and the completion is a tick source event while INTERNAL is in use (R136). -/
def execInternalPeriodCompletion (s : State) : Result :=
  match s.clock.period with
  | none => .next s
  | some t =>
    if s.running then
      .next (if s.clock.source = .internal then sourceEvent (nextPeriod t s) else nextPeriod t s)
    else .next s

/-- EXT_TICK_PULSE: with EXTERNAL in use the watch restarts and the pulse is a tick source event; with a request pending the switch completes; else the pulse is passed over (R137, R139). -/
def execExtTickPulse (s : State) : Result :=
  if !s.running then .next s
  else
    match s.clock.source with
    | .external => .next (sourceEvent (s.setClock { s.clock with pulseWatch := some 0 }))
    | .internal =>
      if s.clock.request.isSome then
        .next (sourceEvent (s.setClock { s.clock with request := none, source := .external, pulseWatch := some 0 }))
      else .next s

/-- The fallback to the internal source, with CLOCK_FALLBACK (R137). -/
def fallBack (s : State) : State :=
  raiseFlag .clockFallback (s.setClock { s.clock with source := .internal, pulseWatch := none })

/-- PULSE_WATCH_EXPIRY: 30 ms without a pulse return the source to INTERNAL; real time passes until they have (R137, log 3). -/
def execPulseWatchExpiry (s : State) : Result :=
  if s.running && decide (s.clock.source = .external) && s.clock.pulseWatch.isSome then
    .next (fallBack (elapse (timeLeft Config.pulseTime s.clock.pulseWatch) s))
  else .next s

/-- A switch request abandoned, with SOURCE_ABANDONED (R139). -/
def abandonRequest (s : State) : State := raiseFlag .sourceAbandoned (s.setClock { s.clock with request := none })

/-- ABANDONMENT: a request pending for 50 ms is removed; real time passes until they have (R139, log 3). -/
def execAbandonment (s : State) : Result :=
  if s.running && s.clock.request.isSome then
    .next (abandonRequest (elapse (timeLeft Config.requestTime s.clock.request) s))
  else .next s

/-- SET_SOURCE's effect for a source (R138). -/
def selectSource (src : TickSource) (s : State) : State :=
  match src, s.clock.source with
  | .external, .internal => s.setClock { s.clock with request := some 0 }
  | .external, .external => s
  | .internal, .internal => s.setClock { s.clock with request := none }
  | .internal, .external => s.setClock { s.clock with source := .internal, pulseWatch := none }

/-- SET_SOURCE's test and effect (R138). -/
def setSourceOperand (source : Byte) (s : State) : State × Transaction :=
  match tickSourceOf source with
  | none => refuse .badOperand s
  | some src => (selectSource src s, answer .ok)

/-- SET_SOURCE (R138). -/
def execSetSource (source : Byte) (s : State) : Result := takeCommand .setSource (fun _ => setSourceOperand source) s

/-- The run state a loaded clock takes (R140). -/
def loadedRun (s : State) : RunState := if s.holds.isEmpty then .running else .frozen

/-- SET_CLOCK's tests and effect: the count loaded, the run state set, one load event (R140, R141).
The operand is judged before the run state, where R140 gives no order (log 27). -/
def setClockOperand (value : Word24) (s : State) : State × Transaction :=
  if Config.maxTick ≤ value.toNat then refuse .badOperand s
  else if s.clock.run ≠ .void then refuse .wrongState s
  else (jumpEvent (s.setClock { s.clock with count := value.toNat, run := loadedRun s }), answer .ok)

/-- SET_CLOCK (R140). -/
def execSetClock (value : Word24) (s : State) : Result := takeCommand .setClock (fun _ => setClockOperand value) s

/-- SKIP's tests and effect: the count advanced and saturated, one jump event, ENDED at the top (R142).
The operand is judged before the run state, where R142 gives no order (log 27). -/
def skipOperand (distance : Word24) (s : State) : State × Transaction :=
  if distance.toNat = 0 || Config.maxSkip < distance.toNat then refuse .badOperand s
  else if s.clock.run ≠ .frozen then refuse .wrongState s
  else
    (endClock (jumpEvent (s.setClock { s.clock with count := min (s.clock.count + distance.toNat) Config.maxTick })),
      answer .ok)

/-- SKIP (R142). -/
def execSkip (distance : Word24) (s : State) : Result := takeCommand .skip (fun _ => skipOperand distance) s

end Sys2Proof.Machine
end

