-- ==== Sys2Proof/Machine/Templates.lean ====
section
/-! DEFINITION. The Template Store: loading, dropping, locking and firing cue templates (R146 to R154). -/

namespace Sys2Proof.Machine

/-- The set of a cue, cue mod 16 (R146). -/
def cueSet (cue : Nat) : Fin 16 := ⟨cue % 16, by omega⟩

/-- A set of the store written. -/
def State.setTemplates (s : State) (k : Fin 16) (t : TemplateSet) : State :=
  { s with templates := { s.templates with sets := s.templates.sets.set k t } }

/-- The four ways of a set, in ascending order. -/
def allWays : List (Fin 4) := List.finRange 4

/-- The way of a set holding a valid template of a cue (R146). -/
def TemplateSet.find (t : TemplateSet) (cue : Nat) : Option (Fin 4) :=
  allWays.find? (fun w => t.ways[w].any (fun x => decide (x.cue = cue)))

/-- The lowest-numbered invalid way (R149). -/
def TemplateSet.emptyWay (t : TemplateSet) : Option (Fin 4) := allWays.find? (fun w => t.ways[w].isNone)

/-- The victim of a set: the way the root's pair's choice points at (R148). -/
def TemplateSet.victim (t : TemplateSet) : Fin 4 :=
  match t.root with
  | .low => if t.lowChoice then 1 else 0
  | .high => if t.highChoice then 3 else 2

/-- Whether a way holds an unlocked template. -/
def TemplateSet.unlocked (t : TemplateSet) (w : Fin 4) : Bool := t.ways[w].any (fun x => !x.locked)

/-- The way a displacement chooses: the victim, or the first unlocked way after it; none when all four are locked (R149). -/
def TemplateSet.displaced (t : TemplateSet) : Option (Fin 4) :=
  [t.victim, t.victim + 1, t.victim + 2, t.victim + 3].find? (fun w => t.unlocked w)

/-- The tree after an access to a way: the root away from the way's pair, the pair's choice at its other way (R148). -/
def TemplateSet.access (t : TemplateSet) (w : Fin 4) : TemplateSet :=
  match w with
  | 0 => { t with root := .high, lowChoice := true }
  | 1 => { t with root := .high, lowChoice := false }
  | 2 => { t with root := .low, highChoice := true }
  | 3 => { t with root := .low, highChoice := false }

/-- A way of a set written, the tree unchanged. -/
def TemplateSet.setWay (t : TemplateSet) (w : Fin 4) (x : Option Template) : TemplateSet :=
  { t with ways := t.ways.set w x }

/-- A template written into a way and the way accessed, in one event (R149). -/
def TemplateSet.load (t : TemplateSet) (w : Fin 4) (x : Template) : TemplateSet := (t.setWay w (some x)).access w

/-- An eviction recorded: the last evicted cue, and TEMPLATE_EVICTED (R150). -/
def noteEviction (cue : Option Nat) (s : State) : State :=
  raiseFlag .templateEvicted { s with templates := { s.templates with lastEvicted := cue } }

/-- The cue of the template in a way. -/
def TemplateSet.cueAt (t : TemplateSet) (w : Fin 4) : Option Nat := t.ways[w].map (fun x => x.cue)

/-- Whether the template in a way is locked. -/
def TemplateSet.lockedAt (t : TemplateSet) (w : Fin 4) : Bool := t.ways[w].any (fun x => x.locked)

/-- LOAD_TEMPLATE's choice of a way and its effect; the template comes with locked clear (R149). -/
def loadTemplate (x : Template) (s : State) : State × Transaction :=
  let k := cueSet x.cue
  let t := s.templates.sets[k]
  match t.find x.cue, t.emptyWay, t.displaced with
  | some w, _, _ => (s.setTemplates k (t.load w { x with locked := t.lockedAt w }), answer .ok)
  | none, some w, _ => (s.setTemplates k (t.load w x), answer .ok)
  | none, none, some w => (noteEviction (t.cueAt w) (s.setTemplates k (t.load w x)), answer .ok)
  | none, none, none => refuse .setLocked s

/-- LOAD_TEMPLATE's tests (R149). -/
def loadTemplateOperands (cue : Word16) (flyer : Byte) (box : BoxBytes) (offset duration : Word16) (s : State) :
    State × Transaction :=
  match cueOf cue, flyerOf flyer, boxOf box with
  | some c, some f, some b =>
    loadTemplate { cue := c, flyer := f, box := b, offset := offset.toNat, duration := duration.toNat, locked := false } s
  | _, _, _ => refuse .badOperand s

/-- LOAD_TEMPLATE (R149). -/
def execLoadTemplate (cue : Word16) (flyer : Byte) (box : BoxBytes) (offset duration : Word16) (s : State) : Result :=
  takeCommand .loadTemplate (fun _ => loadTemplateOperands cue flyer box offset duration) s

/-- A command on the template of a cue: BAD_OPERAND for a cue out of range, NO_TEMPLATE on a miss (R151 to R153). -/
def onTemplate (cue : Word16) (act : Fin 16 → Fin 4 → Template → State → State × Transaction) (s : State) :
    State × Transaction :=
  match cueOf cue with
  | none => refuse .badOperand s
  | some c =>
    match s.templates.sets[cueSet c].find c with
    | none => refuse .noTemplate s
    | some w =>
      match s.templates.sets[cueSet c].ways[w] with
      | none => refuse .noTemplate s
      | some x => act (cueSet c) w x s

/-- A way of a set written, the tree unchanged. -/
def writeWay (k : Fin 16) (w : Fin 4) (x : Option Template) (s : State) : State :=
  s.setTemplates k (s.templates.sets[k].setWay w x)

/-- DROP_TEMPLATE's effect on a template (R151). -/
def dropTemplate (k : Fin 16) (w : Fin 4) (x : Template) (s : State) : State × Transaction :=
  if x.locked then refuse .wrongState s else (writeWay k w none s, answer .ok)

/-- DROP_TEMPLATE (R151). -/
def execDropTemplate (cue : Word16) (s : State) : Result :=
  takeCommand .dropTemplate (fun _ => onTemplate cue dropTemplate) s

/-- The locked field of a template written (R152). -/
def lockWay (v : Bool) (k : Fin 16) (w : Fin 4) (x : Template) (s : State) : State × Transaction :=
  (writeWay k w (some { x with locked := v }) s, answer .ok)

/-- LOCK_TEMPLATE (R152). -/
def execLockTemplate (cue : Word16) (s : State) : Result :=
  takeCommand .lockTemplate (fun _ => onTemplate cue (lockWay true)) s

/-- UNLOCK_TEMPLATE (R152). -/
def execUnlockTemplate (cue : Word16) (s : State) : Result :=
  takeCommand .unlockTemplate (fun _ => onTemplate cue (lockWay false)) s

/-- The end a template's window has for a start; a duration of 0 gives none (R147, R153). -/
def Template.stop (x : Template) (start : Nat) : Option Nat := if x.duration = 0 then none else some (start + x.duration)

/-- The booking a template makes at a tick (R30, R153). -/
def Template.booking (x : Template) (now : Nat) : Booking :=
  { flyer := x.flyer, box := x.box, start := now + x.offset, stop := x.stop (now + x.offset), cue := some x.cue }

/-- Whether a booking's window lies in the count's range (R153). -/
def Booking.inRange (b : Booking) : Bool :=
  decide (b.start ≤ Config.maxTick) && b.stop.all (fun e => decide (e ≤ Config.maxTick))

/-- The tree of a set accessed at a way (R148). -/
def accessWay (k : Fin 16) (w : Fin 4) (s : State) : State := s.setTemplates k (s.templates.sets[k].access w)

/-- FIRE's tests 3 to 5 and its booking; the tree is accessed only when the answer is QUEUED (R153). -/
def fireTemplate (k : Fin 16) (w : Fin 4) (x : Template) (s : State) : State × Transaction :=
  if s.clock.run = .void then refuse .clockVoid s
  else if !(x.booking s.clock.count).inRange then refuse .wrongState s
  else if s.queueFull then refuse .queueFull s
  else
    match s.freeSlotOf with
    | none => refuse .tableFull s
    | some i => acceptBooking i (x.booking s.clock.count) (accessWay k w s)

/-- FIRE (R153). -/
def execFire (cue : Word16) (s : State) : Result := takeCommand .fire (fun _ => onTemplate cue fireTemplate) s

end Sys2Proof.Machine
end

