-- ==== Sys2Proof/Machine/SupplyEvents.lean ====
section
/-! DEFINITION. Backup entry, return, RESET, cold start and loss of the supplies, with what each block does at them (R17, R49, R62, R75, R93, R106, R124, R145, R156, R170 to R181). -/

namespace Sys2Proof.Machine

/-! ## What every block does at a backup entry and at a restart -/

/-- A claim's state after a restart or backup entry (R17). -/
def ClaimState.restarted : ClaimState → ClaimState
  | .active => .held .restart false
  | .overrun => .held .restart true
  | .checking => .queued
  | st => st

/-- The claim table at a restart or backup entry (R17). -/
def restartClaims (s : State) : State :=
  { s with slots := tabulate (fun i =>
    { gen := s.slots[i].gen, claim := s.slots[i].claim.map (fun c => { c with state := c.state.restarted }) }) }

/-- The walk abandoned with its entry kept, every waiting access withdrawn, the arbiter as after cold start (R24, R49). -/
def dropWalk (s : State) : State :=
  { s with admission := { s.admission with walk := none }, arbiter := { lastServed := 7, walkCount := 0 } }

/-- Every live grant discarded without frame or grounded event, the sequence counters kept, every PERMIT line low (R74, R106). -/
def discardGrants (s : State) : State :=
  { s with
    grants := tabulate (fun f => { seq := s.grants[f].seq, live := none })
    lines := { s.lines with permit := Vector.replicate 16 .low } }

/-- Last positions absent and grounded flags set, breach records kept (R75). -/
def forgetPositions (s : State) : State :=
  { s with flyers := tabulate (fun f => { position := none, grounded := true, breach := s.flyers[f].breach }) }

/-- A channel with its lists emptied, its timer disarmed and its receiver hunting, in a given state (R93). -/
def quietChannel (st : ChannelState) : Channel := { state := st, timer := none, inbound := [], out := [], rx := .hunting }

/-- The channels at a backup entry: quiet, their states kept (R93). -/
def quietChannels (s : State) : State :=
  { s with channels := tabulate (fun c => quietChannel s.channels[c].state) }

/-- The channels at a restart: quiet and CLOSED (R93). -/
def closeChannels (s : State) : State := { s with channels := Vector.replicate 8 (quietChannel .closed) }

/-- The transactions discarded; no auto-clear is made (R173). -/
def dropTransactions (s : State) : State :=
  { forgetShown s with console := { showTx := .idle, crewTx := .idle } }

/-- The switch request withdrawn without flag, the pulse watch discarded, the internal period halted (R145). -/
def stopTimers (s : State) : State :=
  s.setClock { s.clock with request := none, pulseWatch := none, period := none }

/-- What a backup entry and a restart have in common, but for the channels (R17, R49, R75, R106, R124, R145, R173). -/
def haltBlocks (s : State) : State :=
  pushHold .restart false
    (stopTimers (restartClaims (dropWalk (forgetPositions (discardGrants (dropTransactions s))))))

/-- The internal period begun, and the pulse watch started when EXTERNAL is in use (R145, R179). -/
def startTimers (s : State) : State :=
  s.setClock { s.clock with period := some 0, pulseWatch := if s.clock.source = .external then some 0 else none }

/-- STOP, then RING, taken as asserted where their lines stand so, with or without HOLDS_CHANGED (R123, R124, log 8). -/
def sampleLines (flag : Bool) (s : State) : State :=
  let s1 := if s.inputs.stop then takeStop flag s else s
  if s1.inputs.ring then takeRing flag s1 else s1

/-- The flags cleared and SUPPLY_RETURNED raised (R170). -/
def restartFlags (s : State) : State :=
  raiseFlag .supplyReturned (clearFlagSet (BitVec.allOnes 11) s)

/-- The supply state set, and the attention outputs driven as it lets them. -/
def setSupplyState (st : SupplyState) (s : State) : State :=
  driveLines { s with supply := { s.supply with state := st } }

/-- The level of RESET set, and the attention outputs driven as it lets them. -/
def setResetLine (v : Bool) (s : State) : State := driveLines { s with inputs := { s.inputs with reset := v } }

/-- The part begins to run: the timers, the sampling of STOP and RING, and the head's walk (R145, R123, R49). -/
def beginRunning (flag : Bool) (s : State) : State := beginHead (sampleLines flag (startTimers s))

/-! ## The four events -/

/-- The supply record at a backup entry (R181). -/
def recordEntry (s : State) : State :=
  { s with supply :=
    { s.supply with
      firstEntry := match s.supply.firstEntry with
        | some t => some t
        | none => some s.now
      count := bumpCount s.supply.count } }

/-- BACKUP_ENTRY: MAIN falls while BACKUP is present (R175). -/
def execBackupEntry (s : State) : Result :=
  if decide (s.supply.state = .main) && s.supply.backupPresent then
    .next (setSupplyState .backup (recordEntry (quietChannels (haltBlocks s))))
  else .next s

/-- The restart of every block: the halt, the channels CLOSED, the RESTART alert (R93, R172, R177, R179). -/
def restartBlocks (s : State) : State := recordAlert .restart (closeChannels (haltBlocks s))

/-- The supply record at a return of MAIN (R181). -/
def recordReturn (s : State) : State := { s with supply := { s.supply with latestReturn := some s.now } }

/-- The timers and the sampling at a return, unless the part stays held in RESET (R177). -/
def returnTimers (s : State) : State := if s.inputs.reset then s else sampleLines false (startTimers s)

/-- RETURN_OF_MAIN: the restart of every block; the part runs at once unless RESET stands asserted (R177). -/
def execReturnOfMain (s : State) : Result :=
  if s.supply.state = .backup then
    .next (beginHead (restartFlags (returnTimers (restartBlocks (setSupplyState .main (recordReturn s))))))
  else .next s

/-- RESET_ASSERTION: on MAIN a restart, and the part is then held in RESET; elsewhere only the level changes (R176, R179). -/
def execResetAssertion (s : State) : Result :=
  if s.inputs.reset then .next s
  else if s.supply.state = .main then .next (restartFlags (restartBlocks (setResetLine true s)))
  else .next (setResetLine true s)

/-- RESET_DEASSERTION: on MAIN the part runs again; elsewhere only the level changes (R177, R179). -/
def execResetDeassertion (s : State) : Result :=
  if !s.inputs.reset then .next s
  else if s.supply.state = .main then .next (beginRunning true (setResetLine false s))
  else .next (setResetLine false s)

/-- The cold start values, with the levels of the input lines and the cell's presence as they stand (R180). -/
def coldValues (s : State) : State := coldState s.inputs s.supply.backupPresent s.pending

/-- COLD_START: MAIN returns while the part is OFF (R180). With RESET asserted the part is held, and nothing of `beginRunning` begins (R180). -/
def execColdStart (s : State) : Result :=
  if s.supply.state = .off then
    if s.inputs.reset then .next (driveLines (stopTimers (coldValues s)))
    else .next (driveLines (beginRunning false (coldValues s)))
  else .next s

/-- The part OFF: every piece of state lost, the outputs unpowered; the levels of the inputs and the cell's presence are the world's (R174, R178, log 9). -/
def powerOff (s : State) : State :=
  let s1 := stopTimers (coldValues s)
  { s1 with
    holds := []
    alert := { count := 0, first := none, latest := none }
    supply := { s1.supply with state := .off }
    lines := { permit := Vector.replicate 16 .unpowered, attn := .unpowered, alert := .unpowered } }

/-- MAIN_FALLS_WITHOUT_BACKUP (R178). -/
def execMainFallsWithoutBackup (s : State) : Result :=
  if decide (s.supply.state = .main) && !s.supply.backupPresent then .next (powerOff s) else .next s

/-- The presence of the cell followed in every supply state; in BACKUP its absence takes the part OFF (R174, R178, log 18). -/
def followCell (present : Bool) (s : State) : State :=
  let s1 := { s with supply := { s.supply with backupPresent := present } }
  if decide (s.supply.state = .backup) && !present then powerOff s1 else s1

/-- CELL_BECOMES_ABSENT (R178). -/
def execCellBecomesAbsent (s : State) : Result := .next (followCell false s)

/-- BACKUP_PRESENCE_CHANGE (R174). -/
def execBackupPresenceChange (present : Bool) (s : State) : Result := .next (followCell present s)

end Sys2Proof.Machine
end

