-- ==== Sys2Proof/Machine/Dispatch.lean ====
section
/-! DEFINITION. Each command's meaning: one arm for each constructor of `Instr`. -/

namespace Sys2Proof.Machine

/-- The effect of a command on everything but the queue of commands. -/
def exec (i : Instr) (s : State) : Host.Outcome State Fault Refusal :=
  match i with
  | .status => Sys2Proof.Machine.execStatus s
  | .readClaims slot => Sys2Proof.Machine.execReadClaims slot s
  | .readZones zone => Sys2Proof.Machine.execReadZones zone s
  | .readFlyers flyer => Sys2Proof.Machine.execReadFlyers flyer s
  | .readTemplates set => Sys2Proof.Machine.execReadTemplates set s
  | .readHolds => Sys2Proof.Machine.execReadHolds s
  | .readAlert => Sys2Proof.Machine.execReadAlert s
  | .readSupply => Sys2Proof.Machine.execReadSupply s
  | .book flyer box start presence stop => Sys2Proof.Machine.execBook flyer box start presence stop s
  | .amend handle presence newEnd newBox => Sys2Proof.Machine.execAmend handle presence newEnd newBox s
  | .cancel handle => Sys2Proof.Machine.execCancel handle s
  | .retire handle => Sys2Proof.Machine.execRetire handle s
  | .forceRetire handle => Sys2Proof.Machine.execForceRetire handle s
  | .holdClaim handle => Sys2Proof.Machine.execHoldClaim handle s
  | .resume handle => Sys2Proof.Machine.execResume handle s
  | .dismiss handle => Sys2Proof.Machine.execDismiss handle s
  | .zoneSet zone box fixed => Sys2Proof.Machine.execZoneSet zone box fixed s
  | .zoneClear zone => Sys2Proof.Machine.execZoneClear zone s
  | .setProtect mode => Sys2Proof.Machine.execSetProtect mode s
  | .bind flyer winch => Sys2Proof.Machine.execBind flyer winch s
  | .unbind winch => Sys2Proof.Machine.execUnbind winch s
  | .clearBreach flyer => Sys2Proof.Machine.execClearBreach flyer s
  | .reopen channel => Sys2Proof.Machine.execReopen channel s
  | .hold => Sys2Proof.Machine.execHold s
  | .release source => Sys2Proof.Machine.execRelease source s
  | .setClock value => Sys2Proof.Machine.execSetClock value s
  | .setSource source => Sys2Proof.Machine.execSetSource source s
  | .skip distance => Sys2Proof.Machine.execSkip distance s
  | .loadTemplate cue flyer box offset duration => Sys2Proof.Machine.execLoadTemplate cue flyer box offset duration s
  | .dropTemplate cue => Sys2Proof.Machine.execDropTemplate cue s
  | .lockTemplate cue => Sys2Proof.Machine.execLockTemplate cue s
  | .unlockTemplate cue => Sys2Proof.Machine.execUnlockTemplate cue s
  | .fire cue => Sys2Proof.Machine.execFire cue s
  | .setEnables mask => Sys2Proof.Machine.execSetEnables mask s
  | .setAutoclear setting => Sys2Proof.Machine.execSetAutoclear setting s
  | .clearFlags mask => Sys2Proof.Machine.execClearFlags mask s
  | .clearAlert => Sys2Proof.Machine.execClearAlert s
  | .clearSupply => Sys2Proof.Machine.execClearSupply s
  | .unknownCommand byte => Sys2Proof.Machine.execUnknownCommand byte s
  | .selectFall sel => Sys2Proof.Machine.execSelectFall sel s
  | .selectRise sel shifted => Sys2Proof.Machine.execSelectRise sel shifted s
  | .recordTaken => Sys2Proof.Machine.execRecordTaken s
  | .frameTaken ch bytes last => Sys2Proof.Machine.execFrameTaken ch bytes last s
  | .frameGap ch => Sys2Proof.Machine.execFrameGap ch s
  | .framingError ch => Sys2Proof.Machine.execFramingError ch s
  | .hello ch => Sys2Proof.Machine.execHello ch s
  | .report ch => Sys2Proof.Machine.execReport ch s
  | .ask ch => Sys2Proof.Machine.execAsk ch s
  | .closedChannelDiscard ch => Sys2Proof.Machine.execClosedChannelDiscard ch s
  | .frameSent ch => Sys2Proof.Machine.execFrameSent ch s
  | .lateExpiry ch => Sys2Proof.Machine.execLateExpiry ch s
  | .lostExpiry ch => Sys2Proof.Machine.execLostExpiry ch s
  | .leaseExpiry flyer => Sys2Proof.Machine.execLeaseExpiry flyer s
  | .walkAccess => Sys2Proof.Machine.execWalkAccess s
  | .zonePhaseRead => Sys2Proof.Machine.execZonePhaseRead s
  | .internalPeriodCompletion => Sys2Proof.Machine.execInternalPeriodCompletion s
  | .extTickPulse => Sys2Proof.Machine.execExtTickPulse s
  | .pulseWatchExpiry => Sys2Proof.Machine.execPulseWatchExpiry s
  | .abandonment => Sys2Proof.Machine.execAbandonment s
  | .stopAssertion => Sys2Proof.Machine.execStopAssertion s
  | .ringAssertion => Sys2Proof.Machine.execRingAssertion s
  | .stopDeassertion => Sys2Proof.Machine.execStopDeassertion s
  | .ringDeassertion => Sys2Proof.Machine.execRingDeassertion s
  | .rigLockChange asserted => Sys2Proof.Machine.execRigLockChange asserted s
  | .backupEntry => Sys2Proof.Machine.execBackupEntry s
  | .returnOfMain => Sys2Proof.Machine.execReturnOfMain s
  | .resetAssertion => Sys2Proof.Machine.execResetAssertion s
  | .resetDeassertion => Sys2Proof.Machine.execResetDeassertion s
  | .coldStart => Sys2Proof.Machine.execColdStart s
  | .mainFallsWithoutBackup => Sys2Proof.Machine.execMainFallsWithoutBackup s
  | .cellBecomesAbsent => Sys2Proof.Machine.execCellBecomesAbsent s
  | .backupPresenceChange present => Sys2Proof.Machine.execBackupPresenceChange present s
  | .syncByte ch => Sys2Proof.Machine.execSyncByte ch s
  | .unknownKind ch kind => Sys2Proof.Machine.execUnknownKind ch kind s
  | .commandByte byte => Sys2Proof.Machine.execCommandByte byte s

end Sys2Proof.Machine
end

