-- ==== Sys2Proof/Machine/Step.lean ====
section
/-! DEFINITION. One step: the command at the front of the queue, or one microsecond of real time when none waits. -/

namespace Sys2Proof.Machine

/-- One step of the part: the oldest waiting command is taken and its outcome answered; with no command waiting, real time passes (log 1, log 2). -/
def step (s : State) : Host.Outcome State Fault Refusal :=
  match s.pending with
  | [] => .next (elapse 1 s)
  | c :: rest => exec c { s with pending := rest }

/-- s with the command a word spells put at the front of its queue; unchanged where the word spells none (log 21). -/
def State.withFetchWord (s : State) (nbits w : Nat) : State :=
  match decodeTableWord nbits w with
  | some c => { s with pending := c :: s.pending }
  | none => s

end Sys2Proof.Machine
end

