-- ==== Sys2Proof/Safety.lean ====
section
/-! DEFINITION. What counts as a safe state: the laws the manual states of the part, in the terms the claims use. -/

namespace Sys2Proof.Machine

/-- A PERMIT line is high exactly while its winch is bound to a flyer that holds a live grant (R73). -/
abbrev PermitLaw (s : State) : Prop :=
  ∀ w : Winch, s.lines.permit[w] = .high ↔ ∃ f : Flyer, s.bindings[w] = some f ∧ (s.grantOf f).isSome

/-- A live grant exists only while the part runs on MAIN and the hold list is empty (R73, R120). -/
abbrev GrantsOnlyFree (s : State) : Prop :=
  ∀ f : Flyer, (s.grantOf f).isSome → s.running = true ∧ s.holds = []

/-- What a live grant lies in: a claim of its flyer, in force, whose box contains the segment, DESCENT when the claim is OVERRUN (R107). -/
abbrev grantFits (s : State) (f : Flyer) (g : Grant) : Bool :=
  (s.resolve g.claim).any (fun c =>
    decide (c.flyer = f) && c.state.inForce && c.box.contains g.segment
      && (decide (c.state ≠ .overrun) || decide (g.kind = .descent)))

/-- Every live grant lies in a claim as R107 requires. -/
abbrev GrantLaw (s : State) : Prop := ∀ f : Flyer, (s.grantOf f).all (grantFits s f) = true

/-- Each winch is bound to at most one flyer by its storage, and each flyer has at most four bound winches (R64). -/
abbrev BindingLaw (s : State) : Prop := ∀ f : Flyer, (s.boundWinches f).length ≤ Config.bindingRoom

/-- Whether two entries name the same claim or the same zone (R27). -/
abbrev sameSubject : Entry → Entry → Bool
  | .book h, .book k | .book h, .amend k | .amend h, .book k | .amend h, .amend k => decide (h = k)
  | .zone y, .zone z => decide (y = z)
  | _, _ => false

/-- Whether the subject of an entry is as R27 says: QUEUED or CHECKING, occupying with a pending amendment, or a zone awaiting its verdict. -/
abbrev subjectFits (s : State) : Entry → Bool
  | .book h => (s.resolve h).any (fun c => decide (c.state = .queued) || decide (c.state = .checking))
  | .amend h => (s.resolve h).any (fun c => c.state.occupying && c.amend.isSome)
  | .zone z =>
    match s.zones[z] with
    | .pending _ => true
    | .set _ r _ => r.isSome
    | .empty | .refused _ _ => false

/-- The admission queue holds at most eight entries, no two of one subject, each with its subject as R27 says. -/
abbrev QueueLaw (s : State) : Prop :=
  s.admission.queue.length ≤ Config.queueRoom ∧
  s.admission.queue.Pairwise (fun a b => sameSubject a b = false) ∧
  ∀ e ∈ s.admission.queue, subjectFits s e = true

/-- Only the head is in flight: a walk's subject is the head; a walk is in flight only while the part runs, and while it runs whenever an entry waits (R27, R28, R49). -/
abbrev WalkLaw (s : State) : Prop :=
  (s.admission.walk.all (fun w => decide (s.admission.queue.head? = some w.subject)) = true) ∧
  (s.admission.walk.isSome = true → s.running = true) ∧
  (s.running = true → (s.admission.walk = none ↔ s.admission.queue = []))

/-- A claim in CHECKING is the subject of the walk in flight (R27). -/
abbrev CheckingLaw (s : State) : Prop :=
  ∀ i : Slot, (s.claimAt i).any (fun c => decide (c.state = .checking)) = true →
    s.admission.walk.any (fun w => decide (w.subject = .book (s.handleAt i))) = true

/-- The hold list has at most one entry for each source (R117). -/
abbrev HoldLaw (s : State) : Prop := (s.holds.map (fun h => h.source)).Nodup

/-- The run state fits the count and the hold list: VOID stands at 0, RUNNING needs an empty list, FROZEN a non-empty one, ENDED the top of the count (R132, R133). -/
abbrev ClockLaw (s : State) : Prop :=
  (s.clock.run = .void → s.clock.count = 0) ∧
  (s.clock.run = .running → s.clock.count < Config.maxTick ∧ s.holds = []) ∧
  (s.clock.run = .frozen → s.clock.count < Config.maxTick ∧ s.holds ≠ []) ∧
  (s.clock.run = .ended → s.clock.count = Config.maxTick)

/-- Every template stands in its cue's set, and no cue stands in two ways (R146, R147). -/
abbrev TemplateLaw (s : State) : Prop :=
  ∀ k : Fin 16, ∀ v : Fin 4,
    (s.templates.sets[k].ways[v].all (fun x => decide (x.cue % 16 = k.val)) = true) ∧
    ∀ w : Fin 4, v ≠ w → (s.templates.sets[k].cueAt v).isSome → s.templates.sets[k].cueAt v ≠ s.templates.sets[k].cueAt w

/-- A HELD OVERLAP claim has its ended mark clear, and its region overlaps the region of an overstaying claim of another flyer (R26). -/
abbrev OverlapLaw (s : State) : Prop :=
  ∀ i : Slot, (s.claimAt i).all (fun c =>
    match c.state with
    | .held .overlap ended => !ended && s.overlapsOverstayer c.flyer c.region
    | _ => true) = true

/-- No two claims of different flyers that are each ACTIVE or OVERRUN have overlapping regions (R25). -/
abbrev InForceLaw (s : State) : Prop :=
  ∀ i j : Slot, (s.claimAt i).all (fun c => (s.claimAt j).all (fun d =>
    !(c.state.inForce && d.state.inForce && decide (c.flyer ≠ d.flyer) && c.region.overlaps d.region))) = true

/-- No SET zone's box overlaps the region of an occupying claim (R50). -/
abbrev ZoneLaw (s : State) : Prop :=
  ∀ (i : Slot) (z : Zone), (s.claimAt i).all (fun c => s.zones[z].inForce.all (fun b =>
    !(c.state.occupying && c.region.overlaps b))) = true

/-! ### What the claim and zone laws rest on: windows, and what a walk has read -/

/-- A claim's window, and the window a pending amendment would give it, is not empty; the start of a BOOKED claim lies after now, and that of a begun claim does not; a begun claim's end has come exactly when it overstays (R4, R11, R12, R29, R31). -/
abbrev windowFits (now : Nat) (c : Claim) : Bool :=
  !endedBy c.stop c.start && c.amend.all (fun a => !endedBy a.newEnd c.start)
    && (decide (c.state ≠ .booked) || decide (now < c.start))
    && (!c.state.begun || (decide (c.start ≤ now) && decide (endedBy c.stop now = c.state.overstaying)))

/-- Every claim's window fits its state at the count. -/
abbrev WindowLaw (s : State) : Prop := ∀ i : Slot, (s.claimAt i).all (windowFits s.now) = true

/-- No two claims of different flyers that occupy without overstaying have both overlapping regions and overlapping windows (R5, R21). -/
abbrev DisjointLaw (s : State) : Prop :=
  ∀ i j : Slot, (s.claimAt i).all (fun c => (s.claimAt j).all (fun d =>
    !(c.state.occupying && !c.state.overstaying && d.state.occupying && !d.state.overstaying && decide (c.flyer ≠ d.flyer)
      && c.region.overlaps d.region && (c.occupancy s.now).overlaps (d.occupancy s.now)))) = true

/-- The candidate of the walk in flight is the one its subject, as it stands, gives (R34, R35, R38, R45). -/
abbrev CandidateLaw (s : State) : Prop :=
  s.admission.walk.all (fun w => decide (s.candidateOf w.subject = some w.cand)) = true

/-- Whether a walk has read a slot (R36). -/
abbrev hasReadSlot (w : Walk) (i : Slot) : Bool :=
  match w.pos with
  | .claims next => decide (i < next)
  | .zones _ => true

/-- Whether a walk has read a zone (R37). -/
abbrev hasReadZone (w : Walk) (z : Zone) : Bool :=
  match w.pos with
  | .claims _ => false
  | .zones next => decide (z < next)

/-- What keeps a candidate safe from a claim already read whose region meets its own, whatever becomes of that claim: the candidate's end has come, so that it will be refused STALE; or the claim's window lies after the candidate's; or before it, with the candidate's start still to come or to be judged by the opening test of a BOOK (R39, R44). -/
abbrev staysClear (now : Nat) (w : Walk) (d : Claim) : Bool :=
  match w.cand.span with
  | .window v =>
    endedBy v.hi now || endedBy v.hi d.start
      || (endedBy d.stop v.lo && (decide (now < v.lo) || (match w.subject with | .book _ => true | .amend _ | .zone _ => false)))
  | .fromNow | .always => false

/-- Every occupying claim of another flyer that the walk has read, with a region that meets the candidate's, stays clear of it (R36, R38, R44). -/
abbrev ClaimsReadLaw (s : State) : Prop :=
  ∀ i : Slot, s.admission.walk.all (fun w => (s.claimAt i).all (fun d =>
    !(hasReadSlot w i && d.state.occupying && decide (w.cand.flyer ≠ some d.flyer) && d.region.overlaps w.cand.box)
      || staysClear s.now w d)) = true

/-- No SET zone that the walk has read meets the candidate (R37, R47). -/
abbrev ZonesReadLaw (s : State) : Prop :=
  ∀ z : Zone, s.admission.walk.all (fun w => s.zones[z].inForce.all (fun b =>
    !(hasReadZone w z && w.cand.box.overlaps b))) = true

/-- What a receiver has taken since the sync byte: nothing yet, or a known kind and no more payload than that kind has (R79, R80). -/
abbrev receiverFits : Receiver → Bool
  | .hunting => true
  | .receiving [] _ => true
  | .receiving (kind :: payload) _ =>
    (decide (kind = 0x01) && decide (payload.length ≤ 2)) || (decide (kind = 0x02) && decide (payload.length ≤ 4))
      || (decide (kind = 0x03) && decide (payload.length ≤ 3))

/-- A channel's lists stay in their bounds, a live grant counting for the REVOKE that will end it, its report timer is armed only in LIVE, LATE and LOST, and its receiver holds no more than a frame of a known kind (R80, R82, R86, R90, R91). -/
abbrev ChannelLaw (s : State) : Prop :=
  ∀ c : Flyer,
    s.channels[c].inbound.length ≤ Config.inboundRoom ∧
    s.channels[c].out.length + (if (s.grantOf c).isSome then 1 else 0) ≤ 4 ∧
    ((s.channels[c].state = .closed ∨ s.channels[c].state = .opened) → s.channels[c].timer = none) ∧
    receiverFits s.channels[c].rx = true

/-- A flyer without a position is grounded, and on MAIN a LIVE or LATE channel's flyer has a position (R63, R84, R96). -/
abbrev PositionLaw (s : State) : Prop :=
  ∀ f : Flyer,
    (s.flyers[f].position = none → s.flyers[f].grounded = true) ∧
    (s.supply.state = .main → (s.channels[f].state = .live ∨ s.channels[f].state = .late) →
      s.flyers[f].position.isSome = true)

/-- ATTN and ALERT stand at the levels their flags, enables and count give (R167, R172). -/
abbrev AttentionLaw (s : State) : Prop := s.lines.attn = attnLevel s ∧ s.lines.alert = alertLevel s

/-- The alert record's first and latest fields are present exactly while its count is above 0, and the count stays at most 255 (R171). -/
abbrev AlertLaw (s : State) : Prop :=
  s.alert.count ≤ Config.maxRecordCount ∧
  (s.alert.first.isSome = true ↔ 0 < s.alert.count) ∧ (s.alert.latest.isSome = true ↔ 0 < s.alert.count)

/-- The arbiter's walk count stays at most 8 (R24). -/
abbrev ArbiterLaw (s : State) : Prop := s.arbiter.walkCount ≤ Config.walkPatience

/-- The port serves one select at a time, an open transaction's select is low, and none is open while the part does not run (R157, R173). -/
abbrev ConsoleLaw (s : State) : Prop :=
  (s.console.showTx = .idle ∨ s.console.crewTx = .idle) ∧
  (s.console.showTx ≠ .idle → s.inputs.showLow = true ∧ s.running = true) ∧
  (s.console.crewTx ≠ .idle → s.inputs.crewLow = true ∧ s.running = true)

/-- The subject of a walk in flight is an entry of its kind still naming what it named, with a claim in CHECKING under a BOOK entry (R7, R27, R34). -/
abbrev WalkSubjectLaw (s : State) : Prop :=
  s.admission.walk.all (fun w =>
    match w.subject with
    | .book h => (s.resolve h).any (fun c => decide (c.state = .checking))
    | .amend _ | .zone _ => true) = true

/-- A flyer whose channel is CLOSED or LOST holds no live grant (R19, R88). -/
abbrev LostLaw (s : State) : Prop :=
  ∀ f : Flyer, (s.channels[f].state = .closed ∨ s.channels[f].state = .lost) → s.grantOf f = none

/-! ## What the statements about one command assume and leave unchanged -/

/-- The part runs: on MAIN, with RESET deasserted (R176, R179). -/
abbrev Runs (s : State) : Prop := s.supply.state = .main ∧ s.inputs.reset = false

/-- A command says that one byte has been heard on a channel: SYNC_BYTE one of the sync value, UNKNOWN_KIND and FRAME_TAKEN the one they carry (R80, R185, log 6). -/
abbrev HearsByte (i : Instr) (c : Flyer) (b : Byte) : Prop :=
  (i = .syncByte c ∧ b = 0xA5) ∨ i = .unknownKind c b ∨ i = .frameTaken c [] b

/-- A state with the receiver of one channel in another state. -/
abbrev State.withReceiver (s : State) (c : Flyer) (r : Receiver) : State := s.setChannel c { s.channels[c] with rx := r }

/-- A select's open transaction awaits a command: at its command byte when the command has no operands, else at its operands; the other select has none open (R157, R158). -/
abbrev Awaits (s : State) (sel : Select) (c : Command) : Prop :=
  Runs s ∧ s.tx sel = (if c.operandBytes = 0 then .command else .operands c) ∧ s.tx sel.other = .idle

/-- A state with a response code alone as a select's answer (R158, R161). -/
abbrev answered (s : State) (sel : Select) (r : ResponseCode) : State := s.setTx sel (.response r none)

/-- s with the claims, the admission queue and walk, the arbiter, the flags, what STATUS has shown of them, and the ATTN and ALERT lines of t. -/
abbrev State.withClaimsOf (s t : State) : State :=
  { s with
    slots := t.slots
    arbiter := t.arbiter
    admission := t.admission
    attention := { s.attention with flags := t.attention.flags, current := t.attention.current, whole := t.attention.whole }
    lines := { s.lines with attn := t.lines.attn, alert := t.lines.alert } }

/-- From s to t only what `withClaimsOf` takes from t may differ. -/
abbrev ClaimFrame (s t : State) : Prop := t = s.withClaimsOf t

/-- s with what `withClaimsOf` takes from t, and the grants, the channels and the PERMIT lines of t. -/
abbrev State.withGrantsOf (s t : State) : State :=
  { s.withClaimsOf t with grants := t.grants, channels := t.channels, lines := t.lines }

/-- From s to t only what `withGrantsOf` takes from t may differ. -/
abbrev GrantFrame (s t : State) : Prop := t = s.withGrantsOf t

/-- s with what `withGrantsOf` takes from t, and the hold list and the run state of t. -/
abbrev State.withHoldsOf (s t : State) : State :=
  { s.withGrantsOf t with holds := t.holds, clock := { s.clock with run := t.clock.run } }

/-- From s to t only what `withHoldsOf` takes from t may differ. -/
abbrev HoldFrame (s t : State) : Prop := t = s.withHoldsOf t

/-- What the close of an event may make of a slot's claim: nothing, CHECKING of a QUEUED one whose walk begins, or the release of a HELD OVERLAP one (R7, R13). -/
abbrev closesTo (a b : Option Claim) : Prop :=
  b = a ∨ ∃ (c : Claim) (st : ClaimState), a = some c ∧ b = some { c with state := st } ∧
    ((c.state = .queued ∧ st = .checking) ∨
     ∃ ended : Bool, c.state = .held .overlap ended ∧ (st = .active ∨ st = .held .breach ended))

/-- The attention unit after the flags of a set were raised: they are set, a flag already set staying set, and each raise is recorded with every status record shown and not yet judged by auto-clear (R166, R169). -/
abbrev raisedBy (m : FlagSet) (a : Attention) : Attention :=
  { a with
    flags := a.flags ||| m
    current := a.current.map (fun x => { x with raised := x.raised ||| m })
    whole := a.whole.map (fun x => { x with raised := x.raised ||| m }) }

/-- The flag that a change of a slot's claim calls for: EXPIRED where the claim is gone, WINDOW_OPENED where a BOOKED or HELD OVERLAP one is ACTIVE, OVERRUN where an ACTIVE one is OVERRUN, OVERLAP_HELD where a BOOKED one is HELD OVERLAP (R9, R11, R12, R13). -/
abbrev movedFlag : Option Claim → Option Claim → FlagSet
  | some c, some d =>
    if d.state = .active ∧ (c.state = .booked ∨ c.state = .held .overlap false ∨ c.state = .held .overlap true) then 0x002
    else if c.state = .active ∧ d.state = .overrun then 0x004
    else if c.state = .booked ∧ d.state = .held .overlap false then 0x010
    else 0
  | some _, none => 0x008
  | none, _ => 0

/-- The flags that the changes of the claims from s to t call for. -/
abbrev movedFlags (s t : State) : FlagSet :=
  allSlots.foldl (fun m j => m ||| movedFlag (s.claimAt j) (t.claimAt j)) 0

/-- From s to t exactly these flags were raised: those of the set, and those that the changes of the claims call for; nothing else of the attention unit changed (R166). -/
abbrev FlagsRaised (m : FlagSet) (s t : State) : Prop := t.attention = raisedBy (m ||| movedFlags s t) s.attention

/-- Whether the subject of an entry still exists: a claim that its handle names, or a zone. -/
abbrev stillNamed (t : State) : Entry → Bool
  | .book h | .amend h => (t.resolve h).isSome
  | .zone _ => true

/-- From s to t the admission queue lost exactly the entries whose claim is gone, in place (R9, R46). -/
abbrev QueueFollows (s t : State) : Prop := t.admission.queue = s.admission.queue.filter (stillNamed t)

/-- From s to t the head entry, whose walk waited at the lookup port, was withdrawn (R24, R46). -/
abbrev WalkWithdrawn (s t : State) : Prop :=
  ∃ (w : Walk) (i : Slot), s.admission.walk = some w ∧ w.pos = .claims i ∧ s.admission.queue.head? = some w.subject ∧
    w.subject ∉ t.admission.queue

/-- The walk count goes from n in s to m in t as an event that serves no access takes it: to 0 where the head entry was withdrawn while its walk waited at the lookup port, and else, from a state whose walk is its head's, kept (R24, R46).
That a walk begun again in place keeps the count is the model's reading (log 11). -/
abbrev CountKept (s t : State) (n m : Nat) : Prop :=
  (m = n ∨ m = 0) ∧ (WalkWithdrawn s t → m = 0) ∧ (WalkLaw s → ¬ WalkWithdrawn s t → m = n)

/-- From s to t the round robin's place is kept, and the walk count too, but for a walk withdrawn from the lookup port (R24, R46, log 11). -/
abbrev TurnKept (s t : State) : Prop :=
  t.arbiter.lastServed = s.arbiter.lastServed ∧ CountKept s t s.arbiter.walkCount t.arbiter.walkCount

/-- A region overlaps the region of an overstaying claim of a flyer other than f (R12). -/
abbrev OverstayedIn (s : State) (f : Flyer) (region : Box) : Prop :=
  ∃ (j : Slot) (d : Claim), s.claimAt j = some d ∧ d.state.overstaying = true ∧ d.flyer ≠ f ∧ d.region.overlaps region = true

/-- From s to t every HELD OVERLAP claim but that of a slot spoken of elsewhere was released exactly where no overstaying claim of another flyer overlaps its region any longer: HELD BREACH where its flyer's breach record is present, else ACTIVE (R13, R26). -/
abbrev OverlapsJudged (own : Option Slot) (s t : State) : Prop :=
  ∀ (j : Slot) (c : Claim), own ≠ some j → s.claimAt j = some c → c.state = .held .overlap false →
    (OverstayedIn t c.flyer c.region → t.claimAt j = some c) ∧
    (¬ OverstayedIn t c.flyer c.region →
      t.claimAt j = some { c with state := if s.flyers[c.flyer].breach = none then .active else .held .breach false })

/-- Every generation is kept, and every slot but i holds what the close of an event makes of its claim; from a state with R26's law, the HELD OVERLAP claims among them are judged as the re-check judges. -/
abbrev OthersClose (s t : State) (i : Slot) : Prop :=
  (∀ j : Slot, t.slots[j].gen = s.slots[j].gen) ∧ (∀ j : Slot, j ≠ i → closesTo (s.claimAt j) (t.claimAt j)) ∧
  (OverlapLaw s → OverlapsJudged (some i) s t)

/-- t is s after the claim of slot i was freed by a command of a select, answered OK, and the event closed; no flag is raised but for the claims that the re-check releases (R9, R13, R28). -/
abbrev FreedBy (s t : State) (sel : Select) (i : Slot) : Prop :=
  t.claimAt i = none ∧ OthersClose s t i ∧ FlagsRaised 0 (s.setSlot i { s.slots[i] with claim := none }) t ∧
  QueueFollows s t ∧ TurnKept s t ∧ ClaimFrame (answered s sel .ok) t

/-- A region overlaps the region of an ACTIVE or OVERRUN claim of a flyer other than f (R22). -/
abbrev InForceIn (s : State) (f : Flyer) (region : Box) : Prop :=
  ∃ (j : Slot) (d : Claim), s.claimAt j = some d ∧ d.state.inForce = true ∧ d.flyer ≠ f ∧ d.region.overlaps region = true

/-- From s to t the live grant of f, if it had one, was removed for a reason: no grant, the counter kept, the permits of its winches low, a REVOKE queued; without one nothing of this changed (R103). -/
abbrev GrantRemoved (s t : State) (f : Flyer) (r : Reason) : Prop :=
  (s.grantOf f = none → t.grants = s.grants ∧ t.channels = s.channels ∧ t.lines.permit = s.lines.permit) ∧
  ∀ g : Grant, s.grantOf f = some g →
    t.grants = s.grants.set f { s.grants[f] with live := none } ∧
    t.channels = s.channels.set f { s.channels[f] with out := s.channels[f].out ++ [.revoke g.seq r] } ∧
    ∀ w : Winch, t.lines.permit[w] = if s.bindings[w] = some f then .low else s.lines.permit[w]

/-- What an event that may ground a flyer makes of a claim: what a close makes of it, or, of an OVERRUN claim of the flyer, nothing left (R13, R15). -/
abbrev groundsTo (f : Flyer) (a b : Option Claim) : Prop :=
  closesTo a b ∨ (b = none ∧ ∃ d : Claim, a = some d ∧ d.flyer = f ∧ d.state = .overrun)

/-- The claim of slot i conflicts with the candidate of a walk at this access: occupying, not the subject, of another flyer, its region and its occupancy meeting the candidate's (R5, R36, R38). -/
abbrev SlotConflict (s : State) (w : Walk) (i : Slot) : Prop :=
  ∃ d : Claim, s.claimAt i = some d ∧ d.state.occupying = true ∧ w.subject.slot? ≠ some i ∧ w.cand.flyer ≠ some d.flyer ∧
    d.region.overlaps w.cand.box = true ∧ w.cand.span.meets s.now (d.occupancy s.now) = true

/-- A SET zone's present box meets the candidate's region (R37). -/
abbrev ZoneConflict (s : State) (w : Walk) (z : Zone) : Prop :=
  ∃ (area : FixedBox) (r : Option FixedBox) (v : Option Handle), s.zones[z] = .set area r v ∧ w.cand.box.overlaps area.box = true

/-- From s to t the only change of a live grant is that its kind goes DESCENT where the ACTIVE claim it names ended and went OVERRUN (R11, R105). -/
abbrev GrantsDescend (s t : State) : Prop :=
  ∀ f : Flyer,
    (s.grantOf f = none → t.grants[f] = s.grants[f]) ∧
    ∀ g : Grant, s.grantOf f = some g →
      ((∃ c : Claim, s.resolve g.claim = some c ∧ c.flyer = f ∧ c.state = .active ∧ endedBy c.stop s.now = true) →
        t.grants[f] = { s.grants[f] with live := some { g with kind := .descent } }) ∧
      ((∀ c : Claim, s.resolve g.claim = some c → c.flyer = f → c.state = .active → endedBy c.stop s.now = false) →
        t.grants[f] = s.grants[f])

/-- From s, whose clock already stands at the new count, to t: what the endings, the openings and the re-check of one tick (or, with `jump`, of one jump or load) make of each claim (R11, R12, R13, R14, R141).
Whether a claim opens or is released beside an overstaying claim is judged on t, since openings and releases make and unmake no overstayer. -/
abbrev ClaimsMoved (jump : Bool) (s t : State) : Prop :=
  (∀ j : Slot, t.slots[j].gen = s.slots[j].gen ∧ (s.claimAt j = none → t.claimAt j = none)) ∧
  ∀ (j : Slot) (c : Claim), s.claimAt j = some c →
    (c.state = .active → endedBy c.stop s.now = true →
      (s.settled c.flyer = true → t.claimAt j = none) ∧
      (s.settled c.flyer = false → t.claimAt j = some { c with state := .overrun })) ∧
    (c.state = .active → endedBy c.stop s.now = false → t.claimAt j = some c) ∧
    (∀ cause, c.state = .held cause false → cause ≠ .overlap →
      t.claimAt j = some { c with state := .held cause (endedBy c.stop s.now) }) ∧
    (∀ cause, c.state = .held cause true → cause ≠ .overlap → t.claimAt j = some c) ∧
    (c.state = .overrun → t.claimAt j = some c) ∧
    (c.state = .refused → t.claimAt j = some c) ∧
    (c.state = .queued ∨ c.state = .checking → closesTo (some c) (t.claimAt j)) ∧
    (c.state = .held .overlap false → endedBy c.stop s.now = true → t.claimAt j = none) ∧
    (c.state = .held .overlap false → endedBy c.stop s.now = false →
      (OverstayedIn t c.flyer c.region → t.claimAt j = some c) ∧
      (¬ OverstayedIn t c.flyer c.region →
        t.claimAt j = some { c with state := if s.flyers[c.flyer].breach = none then .active else .held .breach false })) ∧
    (c.state = .booked → jump = true → endedBy c.stop s.now = true → t.claimAt j = none) ∧
    (c.state = .booked → (jump = false ∨ endedBy c.stop s.now = false) →
      (s.now < c.start → t.claimAt j = some c) ∧
      (c.start ≤ s.now → s.flyers[c.flyer].breach ≠ none → t.claimAt j = some { c with state := .held .breach false }) ∧
      (c.start ≤ s.now → s.flyers[c.flyer].breach = none →
        (OverstayedIn t c.flyer c.region → t.claimAt j = some { c with state := .held .overlap false }) ∧
        (¬ OverstayedIn t c.flyer c.region → t.claimAt j = some { c with state := .active })))

/-- From s, whose clock already stands at the new count, to t: all that one tick (or, with `jump`, one jump or load) does: the claims move, exactly the flags that this calls for are raised, freed claims take their entries along, the grants of claims gone OVERRUN go DESCENT, and no frame or PERMIT line moves (R11, R12, R14, R141). -/
abbrev WindowsMoved (jump : Bool) (s t : State) : Prop :=
  ClaimsMoved jump s t ∧ FlagsRaised 0 s t ∧ QueueFollows s t ∧ TurnKept s t ∧ GrantsDescend s t ∧
  t.channels = s.channels ∧ t.lines.permit = s.lines.permit

/-- The head's walk stands at its beginning, with its candidate formed from its subject as it is; with no entry there is no walk (R28, R34, R35, R38, R49). -/
abbrev HeadWalked (t : State) : Prop :=
  (t.admission.queue = [] → t.admission.walk = none) ∧
  ∀ e : Entry, t.admission.queue.head? = some e → ∃ cand : Candidate, t.candidateOf e = some cand ∧
    t.admission.walk = some { subject := e, cand := cand, pos := .claims 0 }

/-- From s to t the subject of an AMEND entry changed its state, or its ended mark; of a HELD claim, a change of cause alone is none (R45). -/
abbrev SubjectMoved (s t : State) : Entry → Prop
  | .amend h => ∃ c d : Claim, s.resolve h = some c ∧ t.resolve h = some d ∧ c.state ≠ d.state ∧
      ¬ ∃ (a b : HeldCause) (m : Bool), c.state = .held a m ∧ d.state = .held b m
  | .book _ | .zone _ => False

/-- From s to t, while its entry stays the head, the walk in flight stands where it stood, with its candidate; or, where its subject moved, at the claim phase at slot 0 with its candidate formed afresh (R44, R45, R47, R48). -/
abbrev WalkGoesOn (s t : State) : Prop :=
  ∀ w : Walk, s.admission.walk = some w → t.admission.queue.head? = some w.subject →
    (¬ SubjectMoved s t w.subject → t.admission.walk = some w) ∧
    (SubjectMoved s t w.subject → ∃ cand : Candidate, t.candidateOf w.subject = some cand ∧
      t.admission.walk = some { subject := w.subject, cand := cand, pos := .claims 0 })

/-- The entries the sampling of STOP and RING appends to the list of s: STOP, then RING, each where its line stands asserted and its source has no entry yet (R118, R123). -/
abbrev sampledHolds (s : State) : List HoldEntry :=
  (if s.inputs.stop = true ∧ s.holding .stop = false then [{ source := .stop, tick := s.now }] else [])
    ++ (if s.inputs.ring = true ∧ s.holding .ring = false then [{ source := .ring, tick := s.now }] else [])

/-- What every block but the channels, the attention unit and the timers has at a backup entry and at a restart, from s to t (R17, R24, R49, R75, R106, R124, R173): grants gone with their counters kept, positions absent, in-force claims HELD RESTART, the walk dropped with its entry kept, transactions gone, RESTART in the hold list, a RUNNING clock FROZEN, and the rest retained.
Where the part runs again in the event, STOP and RING are sampled and the head's walk begins: `running` says so (R49, R123). -/
abbrev HaltedFrom (running : Bool) (s t : State) : Prop :=
  t.pending = s.pending ∧
  (∀ f : Flyer, t.grants[f] = { seq := s.grants[f].seq, live := none } ∧
    t.flyers[f] = { position := none, grounded := true, breach := s.flyers[f].breach }) ∧
  (∀ j : Slot, t.slots[j].gen = s.slots[j].gen ∧
    (s.claimAt j = none → t.claimAt j = none) ∧
    ∀ c, s.claimAt j = some c →
      (c.state = .active → t.claimAt j = some { c with state := .held .restart false }) ∧
      (c.state = .overrun → t.claimAt j = some { c with state := .held .restart true }) ∧
      ((c.state = .queued ∨ c.state = .checking) →
        t.claimAt j = some { c with state := if running = true ∧ s.admission.queue.head? = some (.book (s.handleAt j))
                                             then .checking else .queued }) ∧
      (c.state.isHeld = true ∨ c.state = .booked ∨ c.state = .refused → t.claimAt j = some c)) ∧
  t.admission.queue = s.admission.queue ∧ (running = false → t.admission.walk = none) ∧ (running = true → HeadWalked t) ∧
  t.arbiter = { lastServed := 7, walkCount := 0 } ∧
  t.console = { showTx := .idle, crewTx := .idle } ∧ t.attention.current = none ∧ t.attention.whole = none ∧
  t.holds = s.holds ++ (if s.holding .restart = true then [] else [{ source := .restart, tick := s.now }])
    ++ (if running = true then sampledHolds s else []) ∧
  t.clock.run = (if s.clock.run = .running ∧ s.holds = [] then .frozen else s.clock.run) ∧
  t.clock.count = s.clock.count ∧ t.clock.source = s.clock.source ∧ t.clock.request = none ∧
  t.zones = s.zones ∧ t.protect = s.protect ∧ t.bindings = s.bindings ∧ t.templates = s.templates ∧
  t.attention.enables = s.attention.enables ∧ t.attention.autoClear = s.attention.autoClear ∧
  (∀ w : Winch, t.lines.permit[w] = .low)

/-- t is u after a push of a source: u itself when the source is present; else the source at the tail with the present tick and HOLDS_CHANGED raised, and, on an empty list, every grant removed with HOLD, a RUNNING clock FROZEN, and the OVERRUN claims freed of each grounded flyer whose grant was removed, with what the close then does of the others (R15, R103, R118, R119). -/
abbrev Pushed (u t : State) (src : HoldSource) : Prop :=
  (u.holding src = true → t = u) ∧
  (u.holding src = false →
    HoldFrame u t ∧ t.holds = u.holds ++ [{ source := src, tick := u.now }] ∧
    (u.holds ≠ [] →
      t.attention = raisedBy 0x040 u.attention ∧ t.clock = u.clock ∧ t.grants = u.grants ∧ t.channels = u.channels ∧
      t.slots = u.slots ∧ t.admission = u.admission ∧ t.arbiter = u.arbiter ∧ t.lines.permit = u.lines.permit) ∧
    (u.holds = [] →
      t.clock = { u.clock with run := if u.clock.run = .running then .frozen else u.clock.run } ∧
      (∀ f : Flyer, t.grants[f] = { u.grants[f] with live := none } ∧
        (u.grantOf f = none → t.channels[f] = u.channels[f]) ∧
        ∀ g, u.grantOf f = some g →
          t.channels[f] = { u.channels[f] with out := u.channels[f].out ++ [.revoke g.seq .hold] }) ∧
      (∀ (w : Winch) (f : Flyer), u.bindings[w] = some f →
        t.lines.permit[w] = if u.grantOf f = none then u.lines.permit[w] else .low) ∧
      (∀ w : Winch, u.bindings[w] = none → t.lines.permit[w] = u.lines.permit[w]) ∧
      FlagsRaised 0x040 u t ∧ QueueFollows u t ∧ TurnKept u t ∧ (OverlapLaw u → OverlapsJudged none u t) ∧
      ∀ j : Slot, t.slots[j].gen = u.slots[j].gen ∧
        ((∀ d : Claim, u.claimAt j = some d → d.state ≠ .overrun) → closesTo (u.claimAt j) (t.claimAt j)) ∧
        ∀ d : Claim, u.claimAt j = some d → d.state = .overrun →
          ((u.flyers[d.flyer].grounded = true ∧ (u.grantOf d.flyer).isSome = true) → t.claimAt j = none) ∧
          ((u.flyers[d.flyer].grounded = false ∨ u.grantOf d.flyer = none) → t.claimAt j = some d)))

/-- The alert record after one more alert (R171). -/
abbrev alertAfter (a : AlertRecord) (e : AlertEvent) : AlertRecord :=
  { count := if a.count < 255 then a.count + 1 else a.count
    first := if a.count = 0 then some e else a.first
    latest := some e }

/-- u is s after a REPORT of channel c that is a breach, with all it does but the push of BREACH: the frame taken from the list, the channel's own action, the report stored, the flyer's grant removed with BREACH, its ACTIVE and OVERRUN claims HELD BREACH (a walk of one of them begun again), the breach record and the alert written (R16, R45, R69, R84, R112, R115, R171). -/
abbrev BreachedFrom (s u : State) (c : Flyer) (rest : List InFrame) (e : BreachEvent) : Prop :=
  u = { s with
        arbiter := { lastServed := c, walkCount := if s.walkWaiting = true then s.arbiter.walkCount + 1 else 0 }
        channels := s.channels.set c
          { s.channels[c] with
            state := if s.channels[c].state = .lost then .lost else .live
            timer := some 0
            inbound := rest
            out := s.channels[c].out ++ ((s.grantOf c).map (fun g => OutFrame.revoke g.seq .breach)).toList }
        flyers := s.flyers.set c
          { position := some e.cell, grounded := false
            breach := some (match s.flyers[c].breach with
              | none => { first := e, latest := e, count := 1, intrusion := decide (e.kind = .intrude) }
              | some b => { first := b.first, latest := e, count := if b.count < 255 then b.count + 1 else b.count
                            intrusion := b.intrusion || decide (e.kind = .intrude) }) }
        grants := s.grants.set c { s.grants[c] with live := none }
        slots := u.slots
        admission := { s.admission with walk := u.admission.walk }
        alert := alertAfter s.alert { cause := if e.kind = .intrude then .intrude c else .breach c, tick := e.tick }
        lines := { permit := u.lines.permit, attn := s.lines.attn, alert := .high } } ∧
  (∀ w : Winch, u.lines.permit[w] =
    if s.bindings[w] = some c ∧ s.grantOf c ≠ none then .low else s.lines.permit[w]) ∧
  (∀ j : Slot, u.slots[j].gen = s.slots[j].gen ∧ (s.claimAt j = none → u.claimAt j = none) ∧
    ∀ d : Claim, s.claimAt j = some d →
      (d.flyer = c → d.state = .active → u.claimAt j = some { d with state := .held .breach false }) ∧
      (d.flyer = c → d.state = .overrun → u.claimAt j = some { d with state := .held .breach true }) ∧
      ((d.flyer ≠ c ∨ d.state.inForce = false) → u.claimAt j = some d)) ∧
  (∀ (w : Walk) (h : Handle) (d : Claim), s.admission.walk = some w → w.subject = .amend h → s.resolve h = some d →
    d.flyer = c → d.state.inForce = true → ∃ cand : Candidate, u.candidateOf w.subject = some cand ∧
      u.admission.walk = some { subject := w.subject, cand := cand, pos := .claims 0 }) ∧
  ((∀ (w : Walk) (h : Handle) (d : Claim), s.admission.walk = some w → w.subject = .amend h → s.resolve h = some d →
    d.flyer = c → d.state.inForce = false) → u.admission.walk = s.admission.walk)

/-! ### Fields on the wire (R183) -/

/-- A number in three bytes, most significant byte first. -/
abbrev threeBytes (n : Nat) : List Byte := [BitVec.ofNat 8 (n / 65536), BitVec.ofNat 8 (n / 256), BitVec.ofNat 8 n]

/-- A number in two bytes, most significant byte first. -/
abbrev twoBytes (n : Nat) : List Byte := [BitVec.ofNat 8 (n / 256), BitVec.ofNat 8 n]

/-- A box, in the order x0, x1, y0, y1, z0, z1. -/
abbrev sixBytes (b : Box) : List Byte :=
  [BitVec.ofNat 8 b.x0, BitVec.ofNat 8 b.x1, BitVec.ofNat 8 b.y0, BitVec.ofNat 8 b.y1, BitVec.ofNat 8 b.z0, BitVec.ofNat 8 b.z1]

/-- A bit of a presence byte, or a yes-or-no field. -/
abbrev bitOf (b : Bool) (n : Nat) : Nat := if b = true then n else 0

/-- A box and its fixed attribute. -/
abbrev fixedBytes (a : FixedBox) : List Byte := sixBytes a.box ++ [BitVec.ofNat 8 (bitOf a.fixed 1)]

/-- A cell, in the order x, y, z. -/
abbrev threeCoords (c : Cell) : List Byte := [BitVec.ofNat 8 c.x, BitVec.ofNat 8 c.y, BitVec.ofNat 8 c.z]

/-- A handle, slot times 8 plus generation. -/
abbrev oneHandle (h : Handle) : Byte := BitVec.ofNat 8 (h.slot.val * 8 + h.gen.val)

/-! ### The parts of the records that repeat (R187) -/

/-- A breach in a flyer record: kind (1 ESCAPE, 2 DRIFT, 3 INTRUDE), tick, cell. -/
abbrev breachBytes (e : BreachEvent) : List Byte :=
  (match e.kind with | .escape => 1 | .drift => 2 | .intrude => 3) :: threeBytes e.tick ++ threeCoords e.cell

/-- A way in a template set record: state byte (bit 0 valid, bit 1 locked), cue, flyer, box, offset, duration; 14 zero bytes of an invalid way. -/
abbrev wayBytes : Option Template → List Byte
  | none => List.replicate 14 0
  | some x => BitVec.ofNat 8 (1 + bitOf x.locked 2) :: twoBytes x.cue ++ [BitVec.ofNat 8 (flyerNumber x.flyer)] ++ sixBytes x.box
      ++ twoBytes x.offset ++ twoBytes x.duration

/-- An entry of the hold record: source, with the RELEASE codes (0 SHOW, 1 CREW, 2 RING, 3 STOP, 4 BREACH, 5 RESTART), and tick. -/
abbrev holdBytes (h : HoldEntry) : List Byte :=
  (match h.source with | .showHold => 0 | .crewHold => 1 | .ring => 2 | .stop => 3 | .breach => 4 | .restart => 5)
    :: threeBytes h.tick

/-- An alert in the alert record: cause (1 BREACH, 2 INTRUDE, 3 STOP, 4 LOST, 5 RESTART), tick, and the flyer of a cause that names one. -/
abbrev alertBytes (e : AlertEvent) : List Byte :=
  match e.cause with
  | .breach f => 1 :: threeBytes e.tick ++ [BitVec.ofNat 8 (flyerNumber f)]
  | .intrude f => 2 :: threeBytes e.tick ++ [BitVec.ofNat 8 (flyerNumber f)]
  | .stop => 3 :: threeBytes e.tick ++ [0]
  | .lost f => 4 :: threeBytes e.tick ++ [BitVec.ofNat 8 (flyerNumber f)]
  | .restart => 5 :: threeBytes e.tick ++ [0]

end Sys2Proof.Machine
end

