-- ==== Sys2Proof/Certificates/Slice0/Obligations.lean ====
section
/-! DEFINITION. The statements about the part that are to be proved. -/

open Sys2Proof Sys2Proof.Machine

/-! ## The step, the queue of commands, and reset -/

/-- A step takes the command at the front of the queue and runs it on the state with the rest of the queue (the queue is the model's own, log 1). -/
def Obligations.StepTakesFront : Prop :=
  ∀ (c : Instr) (rest : List Instr) (s : State), step { s with pending := c :: rest } = exec c { s with pending := rest }

/-- With no command waiting, a step lets one microsecond of real time pass (the model's choice, log 2).
Real time changes nothing while the part does not run (R176, R179); otherwise only the report timers, the receivers' gaps, the leases and the show clock's timers move, each by as much. -/
def Obligations.StepWithEmptyQueue : Prop :=
  (∀ s : State, s.pending = [] → step s = .next (elapse 1 s)) ∧
  ∀ (s : State) (d : Nat),
    (¬ Runs s → elapse d s = s) ∧
    (Runs s →
      elapse d s = { s with channels := (elapse d s).channels, grants := (elapse d s).grants, clock := (elapse d s).clock } ∧
      (∀ c : Flyer, (elapse d s).channels[c] =
        { s.channels[c] with timer := s.channels[c].timer.map (· + d), rx := (elapse d s).channels[c].rx } ∧
        (s.channels[c].rx = .hunting → (elapse d s).channels[c].rx = .hunting) ∧
        (∀ body n, s.channels[c].rx = .receiving body n → (elapse d s).channels[c].rx = .receiving body (n + d))) ∧
      (∀ f : Flyer, (elapse d s).grants[f] =
        { s.grants[f] with live := s.grants[f].live.map (fun g => { g with lease := g.lease - d }) }) ∧
      (elapse d s).clock = { s.clock with request := s.clock.request.map (· + d)
                                          pulseWatch := s.clock.pulseWatch.map (· + d)
                                          period := s.clock.period.map (· + d) })

/-- Every command, in every state, answers a next state, and leaves the queue of commands as it finds it. That the part has no stop is the model's reading (log 22), and the queue, and a next state for a command that the state does not admit, are its choice (log 1). -/
def Obligations.EveryCommandCompletes : Prop :=
  ∀ (c : Instr) (s : State), ∃ t, exec c s = .next t ∧ t.pending = s.pending

/-- The state after reset is the cold start of R180: every slot FREE with generation 0, nothing queued, held or bound, the clock VOID, every way invalid with its set's tree at its cold values, the internal period begun, the hold list RESTART at tick 0, one RESTART alert, ALERT asserted and every PERMIT line low.
Each law that a step is said to keep holds there. The levels of the input lines and the presence of the cell are the model's choice (log 4). -/
def Obligations.ResetStateAndLaws : Prop :=
  (∀ i : Slot, State.reset.slots[i] = { gen := 0, claim := none }) ∧
  State.reset.arbiter = { lastServed := 7, walkCount := 0 } ∧
  State.reset.admission = { queue := [], walk := none } ∧
  (∀ z : Zone, State.reset.zones[z] = .empty) ∧ State.reset.protect = .opened ∧
  (∀ f : Flyer, State.reset.flyers[f] = { position := none, grounded := true, breach := none }) ∧
  (∀ w : Winch, State.reset.bindings[w] = none ∧ State.reset.lines.permit[w] = .low) ∧
  (∀ f : Flyer, State.reset.grants[f] = { seq := 0, live := none }) ∧
  (∀ c : Flyer, State.reset.channels[c] = { state := .closed, timer := none, inbound := [], out := [], rx := .hunting }) ∧
  State.reset.holds = [{ source := .restart, tick := 0 }] ∧
  State.reset.clock.count = 0 ∧ State.reset.clock.run = .void ∧ State.reset.clock.source = .internal ∧
  State.reset.clock.request = none ∧ State.reset.clock.pulseWatch = none ∧ State.reset.clock.period = some 0 ∧
  (∀ k : Fin 16, (∀ w : Fin 4, State.reset.templates.sets[k].ways[w] = none) ∧ State.reset.templates.sets[k].root = .low ∧
    State.reset.templates.sets[k].lowChoice = false ∧ State.reset.templates.sets[k].highChoice = false) ∧
  State.reset.templates.lastEvicted = none ∧
  State.reset.attention.flags = 0 ∧ State.reset.attention.enables = BitVec.allOnes 11 ∧
  State.reset.attention.autoClear = false ∧
  State.reset.alert =
    { count := 1, first := some { cause := .restart, tick := 0 }, latest := some { cause := .restart, tick := 0 } } ∧
  State.reset.supply.state = .main ∧ State.reset.supply.firstEntry = none ∧
  State.reset.supply.latestReturn = none ∧ State.reset.supply.count = 0 ∧
  State.reset.console = { showTx := .idle, crewTx := .idle } ∧
  State.reset.lines.attn = .low ∧ State.reset.lines.alert = .high ∧
  PermitLaw State.reset ∧ GrantsOnlyFree State.reset ∧ GrantLaw State.reset ∧ LostLaw State.reset ∧
  BindingLaw State.reset ∧ QueueLaw State.reset ∧ WalkLaw State.reset ∧ CheckingLaw State.reset ∧
  WalkSubjectLaw State.reset ∧ HoldLaw State.reset ∧ ClockLaw State.reset ∧ TemplateLaw State.reset ∧
  OverlapLaw State.reset ∧ ChannelLaw State.reset ∧ AttentionLaw State.reset ∧ AlertLaw State.reset ∧
  ArbiterLaw State.reset ∧ ConsoleLaw State.reset ∧ PositionLaw State.reset ∧
  InForceLaw State.reset ∧ ZoneLaw State.reset ∧ WindowLaw State.reset ∧ DisjointLaw State.reset ∧
  CandidateLaw State.reset ∧ ClaimsReadLaw State.reset ∧ ZonesReadLaw State.reset

/-! ## The console port: reads, transactions, privilege -/

/-- The eight reads are answered OK from either select and begin to stream, and nothing else changes; a starting point out of range (slots 0 to 31, zones 0 to 7, flyers 1 to 8, sets 0 to 15) is answered BAD_OPERAND (R163).
RECORD_TAKEN takes the whole record as the state then is, and goes on to the next slot, zone, flyer or set; only a STATUS of the SHOW select also notes the flags it shows (R163, R169).
Streams advance by one and wrap: 31 to slot 0, 7 to zone 0, flyer 8 to flyer 1, set 15 to set 0; a single-record read streams its record again. -/
def Obligations.ReadsStreamRecords : Prop :=
  ((∀ (s : State) (sel : Select),
    (Awaits s sel .status → exec .status s = .next (s.setTx sel (.stream .status none))) ∧
    (Awaits s sel .readHolds → exec .readHolds s = .next (s.setTx sel (.stream .holds none))) ∧
    (Awaits s sel .readAlert → exec .readAlert s = .next (s.setTx sel (.stream .alert none))) ∧
    (Awaits s sel .readSupply → exec .readSupply s = .next (s.setTx sel (.stream .supply none)))) ∧
  (∀ (s : State) (sel : Select) (b : Byte),
    (Awaits s sel .readClaims →
      (∀ i : Slot, b.toNat = i.val → exec (.readClaims b) s = .next (s.setTx sel (.stream (.claims i) none))) ∧
      (31 < b.toNat → exec (.readClaims b) s = .next (answered s sel .badOperand))) ∧
    (Awaits s sel .readZones →
      (∀ z : Zone, b.toNat = z.val → exec (.readZones b) s = .next (s.setTx sel (.stream (.zones z) none))) ∧
      (7 < b.toNat → exec (.readZones b) s = .next (answered s sel .badOperand))) ∧
    (Awaits s sel .readFlyers →
      (∀ f : Flyer, b.toNat = flyerNumber f → exec (.readFlyers b) s = .next (s.setTx sel (.stream (.flyers f) none))) ∧
      (b.toNat = 0 ∨ 8 < b.toNat → exec (.readFlyers b) s = .next (answered s sel .badOperand))) ∧
    (Awaits s sel .readTemplates →
      (∀ k : Fin 16, b.toNat = k.val → exec (.readTemplates b) s = .next (s.setTx sel (.stream (.templates k) none))) ∧
      (15 < b.toNat → exec (.readTemplates b) s = .next (answered s sel .badOperand))))) ∧
  (∀ (s : State) (sel : Select) (k : ReadKind) (r : Option (List Byte)),
    Runs s → s.tx sel = .stream k r → s.tx sel.other = .idle →
    exec .recordTaken s = .next
      { s.setTx sel (.stream k.after (some (recordBytes s k))) with
        attention :=
          if sel = .showSel ∧ k = .status then
            { s.attention with whole := s.attention.current, current := some { flags := s.attention.flags, raised := 0 } }
          else s.attention }) ∧
  ((∀ i j : Slot, j.val = (i.val + 1) % 32 → (ReadKind.claims i).after = .claims j) ∧
  (∀ z y : Zone, y.val = (z.val + 1) % 8 → (ReadKind.zones z).after = .zones y) ∧
  (∀ f g : Flyer, g.val = (f.val + 1) % 8 → (ReadKind.flyers f).after = .flyers g) ∧
  (∀ k l : Fin 16, l.val = (k.val + 1) % 16 → (ReadKind.templates k).after = .templates l) ∧
  ReadKind.status.after = .status ∧ ReadKind.holds.after = .holds ∧ ReadKind.alert.after = .alert ∧
  ReadKind.supply.after = .supply)

/-- Every record has the length its layout gives it, whatever the state: 31, 32, 18, 27, 58, 11 and 8 bytes, and four for each hold with one end marker (R187).
Byte for byte, the claim record of a FREE slot and of a claim, the status record on MAIN, and the zone, flyer, template set, hold, alert and supply records are those of their layouts, with an absent field as zero bytes (R183, R187). -/
def Obligations.RecordLayouts : Prop :=
  (∀ s : State,
    (recordBytes s .status).length = 31 ∧
    (∀ i : Slot, (recordBytes s (.claims i)).length = 32) ∧
    (∀ z : Zone, (recordBytes s (.zones z)).length = 18) ∧
    (∀ f : Flyer, (recordBytes s (.flyers f)).length = 27) ∧
    (∀ k : Fin 16, (recordBytes s (.templates k)).length = 58) ∧
    (recordBytes s .alert).length = 11 ∧ (recordBytes s .supply).length = 8 ∧
    (recordBytes s .holds).length = 4 * s.holds.length + 1) ∧
  (∀ (s : State) (i : Slot),
    (s.claimAt i = none →
      recordBytes s (.claims i) = BitVec.ofNat 8 (i.val * 8 + s.slots[i].gen.val) :: List.replicate 31 0) ∧
    ∀ (c : Claim) (code : Nat) (held amend verdict : List Byte), s.claimAt i = some c →
      ((c.state = .queued ∧ code = 1) ∨ (c.state = .checking ∧ code = 2) ∨ (c.state = .booked ∧ code = 3) ∨
       (c.state = .active ∧ code = 4) ∨ (c.state.isHeld = true ∧ code = 5) ∨ (c.state = .overrun ∧ code = 6) ∨
       (c.state = .refused ∧ code = 7)) →
      ((c.state.isHeld = false ∧ held = [0, 0]) ∨
       (∃ m, c.state = .held .command m ∧ held = [0, BitVec.ofNat 8 (bitOf m 1)]) ∨
       (∃ m, c.state = .held .breach m ∧ held = [1, BitVec.ofNat 8 (bitOf m 1)]) ∨
       (∃ m, c.state = .held .restart m ∧ held = [2, BitVec.ofNat 8 (bitOf m 1)]) ∨
       (∃ m, c.state = .held .overlap m ∧ held = [3, BitVec.ofNat 8 (bitOf m 1)])) →
      ((c.amend = none ∧ amend = List.replicate 10 0) ∨
       (∃ a, c.amend = some a ∧ amend = [BitVec.ofNat 8 (bitOf a.newEnd.isSome 1 + bitOf a.newBox.isSome 2)]
          ++ a.newEnd.elim [0, 0, 0] threeBytes ++ a.newBox.elim (List.replicate 6 0) sixBytes)) →
      ((c.verdict = none ∧ verdict = [0, 0]) ∨
       (∃ h : Handle, c.verdict = some (.conflict h) ∧ verdict = [1, BitVec.ofNat 8 (h.slot.val * 8 + h.gen.val)]) ∨
       (∃ z : Zone, c.verdict = some (.zone z) ∧ verdict = [2, BitVec.ofNat 8 z.val]) ∨
       (c.verdict = some .stale ∧ verdict = [3, 0])) →
      recordBytes s (.claims i) =
        [BitVec.ofNat 8 (i.val * 8 + s.slots[i].gen.val), BitVec.ofNat 8 code,
         BitVec.ofNat 8 (bitOf c.stop.isSome 1 + bitOf c.state.isHeld 2 + bitOf c.cue.isSome 4 + bitOf c.amend.isSome 8
           + bitOf c.verdict.isSome 16),
         BitVec.ofNat 8 (flyerNumber c.flyer)]
        ++ sixBytes c.box ++ threeBytes c.start ++ c.stop.elim [0, 0, 0] threeBytes ++ held
        ++ c.cue.elim [0, 0] twoBytes ++ amend ++ verdict) ∧
  (∀ (s : State) (run mode eff : Nat) (ch : Flyer → Nat), s.supply.state = .main →
    ((s.clock.run = .void ∧ run = 0) ∨ (s.clock.run = .running ∧ run = 1) ∨ (s.clock.run = .frozen ∧ run = 2) ∨
     (s.clock.run = .ended ∧ run = 3)) →
    ((s.protect = .opened ∧ mode = 0) ∨ (s.protect = .soft ∧ mode = 1) ∨ (s.protect = .hard ∧ mode = 2)) →
    ((s.effective = .opened ∧ eff = 0) ∨ (s.effective = .soft ∧ eff = 1) ∨ (s.effective = .hard ∧ eff = 2)) →
    (∀ c : Flyer, (s.channels[c].state = .closed ∧ ch c = 0) ∨ (s.channels[c].state = .opened ∧ ch c = 1) ∨
      (s.channels[c].state = .live ∧ ch c = 2) ∨ (s.channels[c].state = .late ∧ ch c = 3) ∨
      (s.channels[c].state = .lost ∧ ch c = 4)) →
    recordBytes s .status =
      [1, BitVec.ofNat 8 (bitOf s.supply.backupPresent 1), BitVec.ofNat 8 (bitOf s.admission.walk.isSome 1),
       BitVec.ofNat 8 s.admission.queue.length, BitVec.ofNat 8 (if s.holds = [] then 0 else 1)]
      ++ threeBytes s.clock.count
      ++ [BitVec.ofNat 8 run, BitVec.ofNat 8 (if s.clock.source = .external then 1 else 0),
          BitVec.ofNat 8 (bitOf s.clock.request.isSome 1), BitVec.ofNat 8 mode, BitVec.ofNat 8 (bitOf s.inputs.rigLock 1),
          BitVec.ofNat 8 eff, BitVec.ofNat 8 (ch 0), BitVec.ofNat 8 (ch 1), BitVec.ofNat 8 (ch 2), BitVec.ofNat 8 (ch 3),
          BitVec.ofNat 8 (ch 4), BitVec.ofNat 8 (ch 5), BitVec.ofNat 8 (ch 6), BitVec.ofNat 8 (ch 7),
          BitVec.ofNat 8 (bitOf s.templates.lastEvicted.isSome 1)]
      ++ s.templates.lastEvicted.elim [0, 0] twoBytes ++ twoBytes s.attention.flags.toNat
      ++ twoBytes s.attention.enables.toNat
      ++ [BitVec.ofNat 8 (bitOf s.attention.autoClear 1), BitVec.ofNat 8 s.alert.count]) ∧
  (∀ (s : State) (z : Zone),
    (s.zones[z] = .empty → recordBytes s (.zones z) = [BitVec.ofNat 8 z.val, 0, 0] ++ List.replicate 15 0) ∧
    (∀ a, s.zones[z] = .pending a →
      recordBytes s (.zones z) = [BitVec.ofNat 8 z.val, 1, 1] ++ fixedBytes a ++ List.replicate 8 0) ∧
    (∀ a r v, s.zones[z] = .set a r v → recordBytes s (.zones z) =
      [BitVec.ofNat 8 z.val, 2, BitVec.ofNat 8 (1 + bitOf r.isSome 2 + bitOf v.isSome 4)] ++ fixedBytes a
        ++ r.elim (List.replicate 7 0) fixedBytes ++ [v.elim 0 oneHandle]) ∧
    (∀ a h, s.zones[z] = .refused a h → recordBytes s (.zones z) =
      [BitVec.ofNat 8 z.val, 3, 5] ++ fixedBytes a ++ List.replicate 7 0 ++ [oneHandle h])) ∧
  (∀ (s : State) (f : Flyer) (ws : List Winch), ws.Pairwise (fun v w => v < w) → (∀ w : Winch, w ∈ ws ↔ s.bindings[w] = some f) →
    ws.length ≤ 4 → recordBytes s (.flyers f) =
      [BitVec.ofNat 8 (flyerNumber f), BitVec.ofNat 8 ws.length] ++ ws.map (fun w => BitVec.ofNat 8 w.val)
        ++ List.replicate (4 - ws.length) 0
        ++ [BitVec.ofNat 8 (bitOf s.flyers[f].position.isSome 1 + bitOf s.flyers[f].breach.isSome 2),
            BitVec.ofNat 8 (bitOf s.flyers[f].grounded 1)]
        ++ s.flyers[f].position.elim [0, 0, 0] threeCoords
        ++ s.flyers[f].breach.elim (List.replicate 16 0) (fun b => breachBytes b.first ++ breachBytes b.latest
          ++ [BitVec.ofNat 8 b.count, BitVec.ofNat 8 (bitOf b.intrusion 1)])) ∧
  (∀ (s : State) (k : Fin 16) (set : TemplateSet), set = s.templates.sets[k] → recordBytes s (.templates k) =
    [BitVec.ofNat 8 k.val] ++ wayBytes set.ways[(0 : Fin 4)] ++ wayBytes set.ways[(1 : Fin 4)] ++ wayBytes set.ways[(2 : Fin 4)]
      ++ wayBytes set.ways[(3 : Fin 4)]
      ++ [BitVec.ofNat 8 ((if set.root = .high then 1 else 0) + bitOf set.lowChoice 2 + bitOf set.highChoice 4)]) ∧
  (∀ s : State,
    recordBytes s .holds = s.holds.flatMap holdBytes ++ [0xFF] ∧
    recordBytes s .alert = [BitVec.ofNat 8 s.alert.count] ++ s.alert.first.elim (List.replicate 5 0) alertBytes
      ++ s.alert.latest.elim (List.replicate 5 0) alertBytes ∧
    recordBytes s .supply = [BitVec.ofNat 8 (bitOf s.supply.firstEntry.isSome 1 + bitOf s.supply.latestReturn.isSome 2)]
      ++ s.supply.firstEntry.elim [0, 0, 0] threeBytes ++ s.supply.latestReturn.elim [0, 0, 0] threeBytes
      ++ [BitVec.ofNat 8 s.supply.count])

/-- MISO is driven for the select whose transaction is open, and is high-impedance while none is open and while the part does not run (R157, R173).
On it come the idle byte 0xFF while the command is shifted in; then the response code, after QUEUED the handle or zone number, and idle bytes; or, of a read, OK and then the bytes of the record last taken (R158, R163, R183, R186). Every response code has its byte (R186). -/
def Obligations.MisoBytes : Prop :=
  (∀ (s : State) (n : Nat), (¬ Runs s ∨ (s.tx .showSel = .idle ∧ s.tx .crewSel = .idle)) →
    s.misoSelect = none ∧ s.miso n = none) ∧
  (∀ (s : State) (sel : Select) (n : Nat), Runs s → s.tx sel.other = .idle →
    (s.tx sel ≠ .idle → s.misoSelect = some sel) ∧
    (s.tx sel = .command → s.miso n = some 0xFF) ∧
    (∀ c : Command, s.tx sel = .operands c → s.miso n = some 0xFF) ∧
    (∀ (r : ResponseCode) (d : Option Byte), s.tx sel = .response r d →
      s.miso 0 = some (responseByte r) ∧ s.miso 1 = some (d.getD 0xFF) ∧ s.miso (n + 2) = some 0xFF) ∧
    (∀ k : ReadKind, s.tx sel = .stream k none → s.miso 0 = some 0x00) ∧
    (∀ (k : ReadKind) (r : List Byte) (b : Byte), s.tx sel = .stream k (some r) → r[n]? = some b → s.miso n = some b)) ∧
  responseByte .ok = 0x00 ∧ responseByte .queued = 0x01 ∧ responseByte .unknown = 0x02 ∧ responseByte .privilege = 0x03 ∧
  responseByte .badOperand = 0x04 ∧ responseByte .noClaim = 0x05 ∧ responseByte .wrongState = 0x06 ∧
  responseByte .tableFull = 0x07 ∧ responseByte .queueFull = 0x08 ∧ responseByte .airborne = 0x09 ∧
  responseByte .grantLive = 0x0A ∧ responseByte .protected_ = 0x0B ∧ responseByte .notClear = 0x0C ∧
  responseByte .clockVoid = 0x0D ∧ responseByte .noTemplate = 0x0E ∧ responseByte .setLocked = 0x0F ∧
  responseByte .bindingFull = 0x10

/-- SELECT_FALL opens a transaction in COMMAND while the part runs and the other select is high; otherwise only the level is followed; a select already low stays so (R157, R173).
SELECT_RISE ends the select's transaction; at the end of a STATUS of the SHOW select with auto-clear ON, exactly the flags shown set by the last record whose 27 bytes up to the flags were shifted out, and not raised since, are cleared (R157, R159, R169); that SELECT_RISE carries the number of bytes shifted out is the model's choice (log 7), and that a select's level is followed while the part does not run its reading (log 14). -/
def Obligations.SelectEdges : Prop :=
  (∀ (s : State) (sel : Select),
    (s.selectLow sel = false → Runs s → s.selectLow sel.other = false →
      exec (.selectFall sel) s = .next ((s.setSelectLow sel true).setTx sel .command)) ∧
    (s.selectLow sel = false → (¬ Runs s ∨ s.selectLow sel.other = true) →
      exec (.selectFall sel) s = .next (s.setSelectLow sel true)) ∧
    (s.selectLow sel = true → exec (.selectFall sel) s = .next s)) ∧
  (∀ (s : State) (sel : Select) (n : Nat),
    (s.selectLow sel = false → exec (.selectRise sel n) s = .next s) ∧
    (s.selectLow sel = true → ∃ t, exec (.selectRise sel n) s = .next t ∧
      t = { (s.setSelectLow sel false).setTx sel .idle with
            attention := { s.attention with flags := t.attention.flags, current := t.attention.current, whole := t.attention.whole }
            lines := { s.lines with attn := t.lines.attn, alert := t.lines.alert } } ∧
      (AttentionLaw s → AttentionLaw t) ∧
      (sel = .crewSel → t.attention = s.attention) ∧
      (sel = .showSel → t.attention.current = none ∧ t.attention.whole = none ∧
        (∀ x r, s.attention.autoClear = true → s.tx .showSel = .stream .status r →
          (if 27 ≤ n then s.attention.current else s.attention.whole) = some x →
          t.attention.flags = s.attention.flags &&& ~~~(x.flags &&& ~~~x.raised)) ∧
        ((s.attention.autoClear = false ∨ (∀ r, s.tx .showSel ≠ .stream .status r) ∨
          (if 27 ≤ n then s.attention.current else s.attention.whole) = none) →
          t.attention.flags = s.attention.flags))))

/-- A command byte naming a command with operands takes the transaction to OPERANDS, and one naming no command is answered UNKNOWN from either select, with no effect (R158, R160).
A command the crew may not issue is answered PRIVILEGE at the CREW select, whatever its operands, with no other effect (R160).
A command that no open transaction awaits changes nothing (the model's choice, log 1; while the part does not run no byte is read, R173). -/
def Obligations.CommandsAreJudged : Prop :=
  (∀ (s : State) (sel : Select), Runs s → s.tx sel = .command → s.tx sel.other = .idle →
    (∀ c : Command, 0 < c.operandBytes → exec (.commandByte c.code) s = .next (s.setTx sel (.operands c))) ∧
    (∀ b : Byte, (∀ c : Command, c.code ≠ b) → exec (.unknownCommand b) s = .next (answered s sel .unknown))) ∧
  (∀ (s : State) (i : Instr) (c : Command) (ops : List Byte), i.command = some (c, ops) → Awaits s .crewSel c →
    c ∉ [Command.status, .readClaims, .readZones, .readFlyers, .readTemplates, .readHolds, .readAlert, .readSupply,
      .hold, .holdClaim, .release] →
    exec i s = .next (answered s .crewSel .privilege)) ∧
  (∀ (s : State) (i : Instr) (c : Command) (ops : List Byte), i.command = some (c, ops) →
    (¬ Runs s ∨ ∀ sel : Select, s.tx sel ≠ (if c.operandBytes = 0 then .command else .operands c)) →
    exec i s = .next s)

/-- SET_ENABLES, CLEAR_FLAGS, SET_AUTOCLEAR, CLEAR_ALERT and CLEAR_SUPPLY: from the SHOW select each writes its own item and is answered OK, ATTN and ALERT stand as the new values give, and nothing else changes; from the CREW select each is answered PRIVILEGE (R167, R168, R172, R182). -/
def Obligations.AttentionCommands : Prop :=
  ∀ s : State,
    (∀ m : Word16, Awaits s .showSel .setEnables → ∃ t, exec (.setEnables m) s = .next t ∧
      t = { answered s .showSel .ok with
            attention := { s.attention with enables := m.setWidth 11 }
            lines := { s.lines with attn := attnLevel t, alert := alertLevel s } }) ∧
    (∀ m : Word16, Awaits s .showSel .clearFlags → ∃ t, exec (.clearFlags m) s = .next t ∧
      t = { answered s .showSel .ok with
            attention := { s.attention with flags := s.attention.flags &&& ~~~(m.setWidth 11) }
            lines := { s.lines with attn := attnLevel t, alert := alertLevel s } }) ∧
    (∀ b : Byte, Awaits s .showSel .setAutoclear →
      (b = 0 → exec (.setAutoclear b) s =
        .next { answered s .showSel .ok with attention := { s.attention with autoClear := false } }) ∧
      (b = 1 → exec (.setAutoclear b) s =
        .next { answered s .showSel .ok with attention := { s.attention with autoClear := true } }) ∧
      (b ≠ 0 → b ≠ 1 → exec (.setAutoclear b) s = .next (answered s .showSel .badOperand))) ∧
    (Awaits s .showSel .clearAlert → exec .clearAlert s =
      .next { answered s .showSel .ok with
              alert := { count := 0, first := none, latest := none }
              lines := { s.lines with attn := attnLevel s, alert := .low } }) ∧
    (Awaits s .showSel .clearSupply → exec .clearSupply s =
      .next { answered s .showSel .ok with
              supply := { s.supply with firstEntry := none, latestReturn := none, count := 0 } }) ∧
    (∀ m : Word16, Awaits s .crewSel .setEnables → exec (.setEnables m) s = .next (answered s .crewSel .privilege)) ∧
    (∀ m : Word16, Awaits s .crewSel .clearFlags → exec (.clearFlags m) s = .next (answered s .crewSel .privilege)) ∧
    (∀ b : Byte, Awaits s .crewSel .setAutoclear → exec (.setAutoclear b) s = .next (answered s .crewSel .privilege)) ∧
    (Awaits s .crewSel .clearAlert → exec .clearAlert s = .next (answered s .crewSel .privilege)) ∧
    (Awaits s .crewSel .clearSupply → exec .clearSupply s = .next (answered s .crewSel .privilege))

/-! ## The claim commands -/

/-- A handle that names no claim is answered NO_CLAIM by every claim command, with no other effect (R3).
DISMISS frees the slot of a REFUSED claim, which keeps its generation, and changes nothing else; on any other claim it is answered WRONG_STATE with no effect (R10).
CANCEL frees a QUEUED or CHECKING claim and withdraws its BOOK entry; on any other claim it is answered WRONG_STATE with no effect (R33). The port's turn is kept, but for the walk count, which goes to 0 where the head entry is withdrawn while its walk waits at the lookup port (R24, R46); that a walk begun again in place keeps the count is the model's reading (log 11). -/
def Obligations.DismissAndCancel : Prop :=
  (∀ (s : State) (h : Byte), (∀ c : Claim, s.claimAt (handleOf h).slot = some c → s.slots[(handleOf h).slot].gen ≠ (handleOf h).gen) →
    (Awaits s .showSel .cancel → exec (.cancel h) s = .next (answered s .showSel .noClaim)) ∧
    (Awaits s .showSel .retire → exec (.retire h) s = .next (answered s .showSel .noClaim)) ∧
    (Awaits s .showSel .forceRetire → exec (.forceRetire h) s = .next (answered s .showSel .noClaim)) ∧
    (∀ sel, Awaits s sel .holdClaim → exec (.holdClaim h) s = .next (answered s sel .noClaim)) ∧
    (Awaits s .showSel .resume → exec (.resume h) s = .next (answered s .showSel .noClaim)) ∧
    (Awaits s .showSel .dismiss → exec (.dismiss h) s = .next (answered s .showSel .noClaim))) ∧
  (∀ (s : State) (h : Byte) (c : Claim), Awaits s .showSel .dismiss → s.resolve (handleOf h) = some c →
    (c.state = .refused → QueueLaw s → WalkLaw s → exec (.dismiss h) s = .next { answered s .showSel .ok with
      slots := s.slots.set (handleOf h).slot { s.slots[(handleOf h).slot] with claim := none } }) ∧
    (c.state ≠ .refused → exec (.dismiss h) s = .next (answered s .showSel .wrongState))) ∧
  (∀ (s : State) (h : Byte) (c : Claim), Awaits s .showSel .cancel → s.resolve (handleOf h) = some c →
    ((c.state = .queued ∨ c.state = .checking) → QueueLaw s → ∃ t, exec (.cancel h) s = .next t ∧
      FreedBy s t .showSel (handleOf h).slot ∧
      .book (handleOf h) ∉ t.admission.queue) ∧
    (c.state ≠ .queued → c.state ≠ .checking → exec (.cancel h) s = .next (answered s .showSel .wrongState)))

/-- RETIRE frees a BOOKED claim, and an ACTIVE, HELD or OVERRUN one when its flyer is grounded without a live grant; it is answered AIRBORNE, GRANT_LIVE or WRONG_STATE otherwise, with no effect (R18).
FORCE_RETIRE frees an ACTIVE, HELD or OVERRUN claim whose flyer's channel is LOST or CLOSED, grounded or not; it is answered NOT_CLEAR on another channel and WRONG_STATE on another claim, with no effect (R19). The port's turn is kept, but for the walk count, which goes to 0 where the head entry is withdrawn while its walk waits at the lookup port (R24, R46); that a walk begun again in place keeps the count is the model's reading (log 11). -/
def Obligations.RetireAndForceRetire : Prop :=
  (∀ (s : State) (h : Byte) (c : Claim), Awaits s .showSel .retire → s.resolve (handleOf h) = some c →
    ((c.state = .booked ∨ (c.state.begun = true ∧ s.flyers[c.flyer].grounded = true ∧ s.grantOf c.flyer = none)) →
      QueueLaw s → ∃ t, exec (.retire h) s = .next t ∧ FreedBy s t .showSel (handleOf h).slot) ∧
    (c.state.begun = true → s.flyers[c.flyer].grounded = false →
      exec (.retire h) s = .next (answered s .showSel .airborne)) ∧
    (c.state.begun = true → s.flyers[c.flyer].grounded = true → s.grantOf c.flyer ≠ none →
      exec (.retire h) s = .next (answered s .showSel .grantLive)) ∧
    ((c.state = .queued ∨ c.state = .checking ∨ c.state = .refused) →
      exec (.retire h) s = .next (answered s .showSel .wrongState))) ∧
  (∀ (s : State) (h : Byte) (c : Claim), Awaits s .showSel .forceRetire → s.resolve (handleOf h) = some c →
    (c.state.begun = true → (s.channels[c.flyer].state = .lost ∨ s.channels[c.flyer].state = .closed) → QueueLaw s →
      ∃ t, exec (.forceRetire h) s = .next t ∧ FreedBy s t .showSel (handleOf h).slot) ∧
    (c.state.begun = true → s.channels[c.flyer].state ≠ .lost → s.channels[c.flyer].state ≠ .closed →
      exec (.forceRetire h) s = .next (answered s .showSel .notClear)) ∧
    (c.state.begun = false → exec (.forceRetire h) s = .next (answered s .showSel .wrongState)))

/-- HOLD_CLAIM, from either select, puts an ACTIVE or OVERRUN claim in HELD COMMAND, with the ended mark for OVERRUN, and removes the flyer's grant with CLAIM_HELD when it names the claim; on any other claim it is answered WRONG_STATE with no effect (R20). That the claim is held before its grant goes, so that the removal's grounded event leaves it, is the model's reading (log 24), and so is that this event frees a grounded flyer's other OVERRUN claims, with EXPIRED, and, having freed one, runs the re-check, which releases every HELD OVERLAP claim that no overstayer overlaps any longer (log 26). The port's turn is kept, but for the walk count, which goes to 0 where the head entry is withdrawn while its walk waits at the lookup port (R24, R46); that a walk begun again in place keeps the count is the model's reading (log 11). -/
def Obligations.HoldClaimSuspends : Prop :=
  ∀ (s : State) (sel : Select) (h : Byte) (c : Claim), Awaits s sel .holdClaim → s.resolve (handleOf h) = some c →
    ((c.state = .active ∨ c.state = .overrun) → QueueLaw s → WalkLaw s → ∃ t, exec (.holdClaim h) s = .next t ∧
      GrantFrame (answered s sel .ok) t ∧
      (∀ j : Slot, t.slots[j].gen = s.slots[j].gen) ∧
      t.claimAt (handleOf h).slot = some { c with state := .held .command (decide (c.state = .overrun)) } ∧
      (∀ j : Slot, j ≠ (handleOf h).slot → groundsTo c.flyer (s.claimAt j) (t.claimAt j)) ∧
      FlagsRaised 0 s t ∧ (OverlapLaw s → OverlapsJudged none s t) ∧ QueueFollows s t ∧ TurnKept s t ∧
      ((∀ g, s.grantOf c.flyer = some g → g.claim ≠ handleOf h) →
        t.grants = s.grants ∧ t.channels = s.channels ∧ t.lines.permit = s.lines.permit) ∧
      (∀ g, s.grantOf c.flyer = some g → g.claim = handleOf h → GrantRemoved s t c.flyer .claimHeld ∧
        ∀ (j : Slot) (d : Claim), j ≠ (handleOf h).slot → s.claimAt j = some d → d.flyer = c.flyer → d.state = .overrun →
          t.claimAt j = if s.flyers[c.flyer].grounded = true then none else some d) ∧
      ((∀ g, s.grantOf c.flyer = some g → g.claim ≠ handleOf h) →
        ∀ j : Slot, j ≠ (handleOf h).slot → t.claimAt j = s.claimAt j)) ∧
    (c.state ≠ .active → c.state ≠ .overrun → exec (.holdClaim h) s = .next (answered s sel .wrongState))

/-- RESUME of a HELD claim whose ended mark is clear: WRONG_STATE for cause OVERLAP, NOT_CLEAR for cause BREACH while the breach record is present; else HELD OVERLAP with OVERLAP_HELD where an overstaying claim of another flyer overlaps, and ACTIVE where none does (R21).
RESUME of a HELD claim whose ended mark is set: freed when its flyer is grounded without a live grant; else NOT_CLEAR where a claim in force of another flyer overlaps, and OVERRUN where none does (R22). A RESUME that frees takes the claim's AMEND entry along, and the walk count goes to 0 where that was the head and waited at the lookup port (R24, R46); that a RESUME which begins the claim's walk again in place keeps the count is the model's reading (log 11). -/
def Obligations.Resume : Prop :=
  (∀ (s : State) (h : Byte) (c : Claim), Awaits s .showSel .resume → s.resolve (handleOf h) = some c →
    (c.state.isHeld = false → exec (.resume h) s = .next (answered s .showSel .wrongState)) ∧
    (∀ m, c.state = .held .overlap m → exec (.resume h) s = .next (answered s .showSel .wrongState)) ∧
    (∀ m, c.state = .held .breach m → s.flyers[c.flyer].breach ≠ none →
      exec (.resume h) s = .next (answered s .showSel .notClear)) ∧
    (∀ cause, c.state = .held cause false → cause ≠ .overlap → (cause = .breach → s.flyers[c.flyer].breach = none) →
      QueueLaw s → ∃ t, exec (.resume h) s = .next t ∧
        ClaimFrame (answered s .showSel .ok) t ∧ OthersClose s t (handleOf h).slot ∧
        t.admission.queue = s.admission.queue ∧ t.arbiter = s.arbiter ∧
        (OverstayedIn s c.flyer c.region → t.claimAt (handleOf h).slot = some { c with state := .held .overlap false } ∧
          t.attention = raisedBy 0x010 s.attention) ∧
        (¬ OverstayedIn s c.flyer c.region → t.claimAt (handleOf h).slot = some { c with state := .active } ∧
          t.attention = s.attention))) ∧
  (∀ (s : State) (h : Byte) (c : Claim) (cause : HeldCause), Awaits s .showSel .resume → s.resolve (handleOf h) = some c →
    c.state = .held cause true → cause ≠ .overlap → (cause = .breach → s.flyers[c.flyer].breach = none) →
    (s.flyers[c.flyer].grounded = true → s.grantOf c.flyer = none → QueueLaw s →
      ∃ t, exec (.resume h) s = .next t ∧ FreedBy s t .showSel (handleOf h).slot) ∧
    ((s.flyers[c.flyer].grounded = false ∨ s.grantOf c.flyer ≠ none) → InForceIn s c.flyer c.region →
      exec (.resume h) s = .next (answered s .showSel .notClear)) ∧
    ((s.flyers[c.flyer].grounded = false ∨ s.grantOf c.flyer ≠ none) → ¬ InForceIn s c.flyer c.region → QueueLaw s →
      ∃ t, exec (.resume h) s = .next t ∧ ClaimFrame (answered s .showSel .ok) t ∧ OthersClose s t (handleOf h).slot ∧
        t.claimAt (handleOf h).slot = some { c with state := .overrun } ∧
        t.admission.queue = s.admission.queue ∧ t.arbiter = s.arbiter ∧ t.attention = s.attention))

/-- The re-check at the close of an event releases exactly the HELD OVERLAP claims whose region no overstaying claim of another flyer overlaps: HELD BREACH where the flyer's breach record is present, else ACTIVE; every other claim stays as it is. WINDOW_OPENED is raised exactly when one goes ACTIVE, and nothing outside the claims, the walk and the attention unit changes (R13). That the lookup port's turn is kept where the re-check begins the walk of a released claim again in place (R45) is the model's reading (log 11). -/
def Obligations.RecheckReleases : Prop :=
  (∀ s : State, ClaimFrame s (recheck s) ∧ FlagsRaised 0 s (recheck s) ∧
    (recheck s).admission.queue = s.admission.queue ∧ (recheck s).arbiter = s.arbiter) ∧
  ∀ s : State, (∀ (i : Slot) (c : Claim), s.claimAt i = some c → c.state ≠ .held .overlap true) →
    ∀ (i : Slot) (c : Claim), s.claimAt i = some c →
      (c.state ≠ .held .overlap false → (recheck s).claimAt i = some c) ∧
      (c.state = .held .overlap false → OverstayedIn s c.flyer c.region → (recheck s).claimAt i = some c) ∧
      (c.state = .held .overlap false → ¬ OverstayedIn s c.flyer c.region →
        (recheck s).claimAt i = some { c with state := if s.flyers[c.flyer].breach = none then .active else .held .breach false })

/-! ## Admission -/

/-- BOOK's refusals, in their order, with no effect: BAD_OPERAND for a flyer outside 1 to 8, an ill-formed box, or a present end not greater than the start; then QUEUE_FULL; then TABLE_FULL (R29).
AMEND's refusals, in their order, with no effect on the claim (R31). -/
def Obligations.AdmissionRefusals : Prop :=
  (∀ (s : State) (f : Byte) (box : BoxBytes) (start : Word24) (p : Byte) (stop : Word24), Awaits s .showSel .book →
    ((f.toNat = 0 ∨ 8 < f.toNat ∨ (boxOfBytes box).wf = false ∨ (p.getLsbD 0 = true ∧ stop.toNat ≤ start.toNat)) →
      exec (.book f box start p stop) s = .next (answered s .showSel .badOperand)) ∧
    (1 ≤ f.toNat → f.toNat ≤ 8 → (boxOfBytes box).wf = true → (p.getLsbD 0 = true → start.toNat < stop.toNat) →
      (8 ≤ s.admission.queue.length →
        exec (.book f box start p stop) s = .next (answered s .showSel .queueFull)) ∧
      (s.admission.queue.length < 8 → (∀ i : Slot, s.claimAt i ≠ none) →
        exec (.book f box start p stop) s = .next (answered s .showSel .tableFull)))) ∧
  (∀ (s : State) (h p : Byte) (e : Word24) (box : BoxBytes), Awaits s .showSel .amend →
    (((p.getLsbD 0 = false ∧ p.getLsbD 1 = false) ∨ (p.getLsbD 1 = true ∧ (boxOfBytes box).wf = false)) →
      exec (.amend h p e box) s = .next (answered s .showSel .badOperand)) ∧
    ((p.getLsbD 0 = true ∨ p.getLsbD 1 = true) → (p.getLsbD 1 = true → (boxOfBytes box).wf = true) →
      (s.resolve (handleOf h) = none → exec (.amend h p e box) s = .next (answered s .showSel .noClaim)) ∧
      ∀ c, s.resolve (handleOf h) = some c →
        (p.getLsbD 0 = true → e.toNat ≤ c.start →
          exec (.amend h p e box) s = .next (answered s .showSel .badOperand)) ∧
        ((p.getLsbD 0 = true → c.start < e.toNat) →
          ((c.state.occupying = false ∨ c.amend ≠ none) →
            exec (.amend h p e box) s = .next (answered s .showSel .wrongState)) ∧
          (c.state.occupying = true → c.amend = none → 8 ≤ s.admission.queue.length →
            exec (.amend h p e box) s = .next (answered s .showSel .queueFull)))))

/-- An accepted BOOK takes the lowest FREE slot, advances its generation, writes the claim, appends the BOOK entry and answers QUEUED with the handle; on an empty queue the walk begins in the same event, from slot 0, with the claim CHECKING and its candidate formed (R3, R6, R28, R29, R34). -/
def Obligations.BookAccepted : Prop :=
  ∀ (s : State) (fb : Byte) (f : Flyer) (box : BoxBytes) (start : Word24) (p : Byte) (stop : Word24) (e : Option Nat)
    (i : Slot) (h : Handle),
    Awaits s .showSel .book → QueueLaw s →
    fb.toNat = flyerNumber f → (boxOfBytes box).wf = true → e = (if p.getLsbD 0 = true then some stop.toNat else none) →
    (p.getLsbD 0 = true → start.toNat < stop.toNat) → s.admission.queue.length < 8 →
    s.claimAt i = none → (∀ j : Slot, j < i → s.claimAt j ≠ none) → h = { slot := i, gen := s.slots[i].gen + 1 } →
    ∃ t, exec (.book fb box start p stop) s = .next t ∧
      ClaimFrame (s.setTx .showSel (.response .queued (some h.byte))) t ∧
      t.slots[i] = { gen := s.slots[i].gen + 1
                     claim := some { flyer := f, box := boxOfBytes box, start := start.toNat, stop := e
                                     state := if s.admission.queue = [] ∧ s.admission.walk = none then .checking else .queued
                                     cue := none, amend := none, verdict := none } } ∧
      (∀ j : Slot, j ≠ i → t.slots[j].gen = s.slots[j].gen ∧ closesTo (s.claimAt j) (t.claimAt j)) ∧
      t.admission.queue = s.admission.queue ++ [.book h] ∧
      (s.admission.queue = [] → s.admission.walk = none →
        t.admission.walk = some
          { subject := .book h
            cand := { flyer := some f, box := (boxOfBytes box).region, span := .window { lo := start.toNat, hi := e } }
            pos := .claims 0 }) ∧
      t.attention = s.attention ∧ t.arbiter = s.arbiter

/-- An accepted AMEND writes the pending amendment, leaves the claim's state, box, end and verdict as they were, appends the AMEND entry and answers QUEUED with the handle (R32). -/
def Obligations.AmendAccepted : Prop :=
  ∀ (s : State) (h p : Byte) (e : Word24) (box : BoxBytes) (c : Claim), Awaits s .showSel .amend → QueueLaw s →
    (p.getLsbD 0 = true ∨ p.getLsbD 1 = true) → (p.getLsbD 1 = true → (boxOfBytes box).wf = true) →
    s.resolve (handleOf h) = some c → (p.getLsbD 0 = true → c.start < e.toNat) → c.state.occupying = true →
    c.amend = none → s.admission.queue.length < 8 →
    ∃ t, exec (.amend h p e box) s = .next t ∧
      ClaimFrame (s.setTx .showSel (.response .queued (some h))) t ∧ OthersClose s t (handleOf h).slot ∧
      t.claimAt (handleOf h).slot = some { c with amend := some (Amendment.mk
        (if p.getLsbD 0 = true then some e.toNat else none) (if p.getLsbD 1 = true then some (boxOfBytes box) else none)) } ∧
      t.admission.queue = s.admission.queue ++ [.amend (handleOf h)] ∧ t.attention = s.attention ∧ t.arbiter = s.arbiter

/-- A read of the walk that ends nothing only moves the walk on: to the next slot, from slot 31 to zone 0 for a BOOK or AMEND, to the next zone; a served claim access also sets the walk count to 0 (R24, R36, R37). While the part does not run, no walk runs: neither read changes anything (R176, R179). That this holds in OFF too is the model's choice (log 9).
The arbiter serves the walk exactly while it waits at the lookup port and either no channel waits or eight channel-side accesses have been served in a row; and a channel exactly when it waits, the walk is not so owed, and no waiting channel comes before it after the last one served (R24). -/
def Obligations.WalkReadsOn : Prop :=
  (∀ (s : State) (w : Walk), s.admission.walk = some w → Runs s →
    (∀ i : Slot, w.pos = .claims i → s.grantsWalk = true → ¬ SlotConflict s w i →
      (∀ j : Slot, j.val = i.val + 1 → exec .walkAccess s = .next
        { s with arbiter := { s.arbiter with walkCount := 0 }
                 admission := { s.admission with walk := some { w with pos := .claims j } } }) ∧
      (i.val = 31 → w.subject.isZone = false → exec .walkAccess s = .next
        { s with arbiter := { s.arbiter with walkCount := 0 }
                 admission := { s.admission with walk := some { w with pos := .zones 0 } } })) ∧
    (∀ z y : Zone, w.pos = .zones z → y.val = z.val + 1 → ¬ ZoneConflict s w z →
      exec .zonePhaseRead s = .next
        { s with admission := { s.admission with walk := some { w with pos := .zones y } } })) ∧
  (∀ s : State, ¬ Runs s → exec .walkAccess s = .next s ∧ exec .zonePhaseRead s = .next s) ∧
  (∀ s : State, Runs s →
    (s.grantsWalk = true ↔ s.walkWaiting = true ∧
      ((∀ c : Flyer, s.channels[c].waiting = false) ∨ 8 ≤ s.arbiter.walkCount)) ∧
    (s.walkWaiting = true ↔ ∃ (w : Walk) (i : Slot), s.admission.walk = some w ∧ w.pos = .claims i) ∧
    (∀ c : Flyer, s.grantsChannel c = true ↔ s.channels[c].waiting = true ∧
      (s.walkWaiting = true → s.arbiter.walkCount < 8) ∧
      ∀ d : Flyer, s.channels[d].waiting = true →
        (c.val + 7 - s.arbiter.lastServed.val) % 8 ≤ (d.val + 7 - s.arbiter.lastServed.val) % 8))

/-- The first conflict ends a walk with the refusal of its subject: a BOOK claim goes REFUSED with its verdict, an AMEND claim loses its amendment and takes the verdict, a PENDING zone goes REFUSED, a replacement is dropped; the entry leaves the queue and ADMIT_DONE is raised (R8, R39, R42, R43, R56).
A ZONE walk that has read slot 31 without a conflict makes the zone SET in the box that was walked, and drops any last verdict (R38, R43, R56). -/
def Obligations.ClaimPhaseEnds : Prop :=
  (∀ (s : State) (w : Walk) (i : Slot), s.admission.walk = some w → w.pos = .claims i → Runs s → s.grantsWalk = true →
    QueueLaw s → WalkLaw s → SlotConflict s w i →
    ∃ t, exec .walkAccess s = .next t ∧ ClaimFrame { s with zones := t.zones } t ∧
      t.arbiter = { s.arbiter with walkCount := 0 } ∧
      t.admission.queue = s.admission.queue.drop 1 ∧ t.attention = raisedBy 0x001 s.attention ∧
      (∀ j : Slot, t.slots[j].gen = s.slots[j].gen) ∧
      (∀ h c, w.subject = .book h → s.resolve h = some c → t.zones = s.zones ∧
        t.claimAt h.slot = some { c with state := .refused, verdict := some (.conflict (s.handleAt i)) } ∧
        ∀ j : Slot, j ≠ h.slot → closesTo (s.claimAt j) (t.claimAt j)) ∧
      (∀ h c, w.subject = .amend h → s.resolve h = some c → t.zones = s.zones ∧
        t.claimAt h.slot = some { c with amend := none, verdict := some (.conflict (s.handleAt i)) } ∧
        ∀ j : Slot, j ≠ h.slot → closesTo (s.claimAt j) (t.claimAt j)) ∧
      (∀ z, w.subject = .zone z → (∀ j : Slot, closesTo (s.claimAt j) (t.claimAt j)) ∧
        (∀ area, s.zones[z] = .pending area → t.zones = s.zones.set z (.refused area (s.handleAt i))) ∧
        (∀ area r v, s.zones[z] = .set area (some r) v → t.zones = s.zones.set z (.set area none (some (s.handleAt i)))))) ∧
  (∀ (s : State) (w : Walk) (z : Zone), s.admission.walk = some w → w.pos = .claims 31 → w.subject = .zone z → Runs s →
    s.grantsWalk = true → QueueLaw s → WalkLaw s → ¬ SlotConflict s w 31 →
    ∃ t, exec .walkAccess s = .next t ∧ ClaimFrame { s with zones := t.zones } t ∧
      t.arbiter = { s.arbiter with walkCount := 0 } ∧
      t.admission.queue = s.admission.queue.drop 1 ∧ t.attention = raisedBy 0x001 s.attention ∧
      (∀ j : Slot, t.slots[j].gen = s.slots[j].gen ∧ closesTo (s.claimAt j) (t.claimAt j)) ∧
      (∀ area, s.zones[z] = .pending area → t.zones = s.zones.set z (.set area none none)) ∧
      (∀ area r v, s.zones[z] = .set area (some r) v → t.zones = s.zones.set z (.set r none none)))

/-- The zone phase of a BOOK walk: a SET zone in the way refuses the claim with ZONE and its number; past zone 7 the claim is refused STALE when its end is not later than now, goes BOOKED when its start is later than now, and is opened otherwise: HELD BREACH, HELD OVERLAP or ACTIVE (R8, R12, R37, R39). -/
def Obligations.ZonePhaseSettlesBooking : Prop :=
  ∀ (s : State) (w : Walk) (z : Zone) (h : Handle) (c : Claim), s.admission.walk = some w → w.pos = .zones z →
    w.subject = .book h → s.resolve h = some c → Runs s → QueueLaw s → WalkLaw s → (z.val = 7 ∨ ZoneConflict s w z) →
    ∃ t, exec .zonePhaseRead s = .next t ∧ ClaimFrame s t ∧ OthersClose s t h.slot ∧ t.arbiter = s.arbiter ∧
      t.admission.queue = s.admission.queue.drop 1 ∧
      (ZoneConflict s w z → t.attention = raisedBy 0x001 s.attention ∧
        t.claimAt h.slot = some { c with state := .refused, verdict := some (.zone z) }) ∧
      (¬ ZoneConflict s w z →
        (∀ e, c.stop = some e → e ≤ s.now → t.attention = raisedBy 0x001 s.attention ∧
          t.claimAt h.slot = some { c with state := .refused, verdict := some .stale }) ∧
        ((∀ e, c.stop = some e → s.now < e) →
          (s.now < c.start → t.attention = raisedBy 0x001 s.attention ∧
            t.claimAt h.slot = some { c with state := .booked }) ∧
          (c.start ≤ s.now → s.flyers[c.flyer].breach ≠ none → t.attention = raisedBy 0x001 s.attention ∧
            t.claimAt h.slot = some { c with state := .held .breach false }) ∧
          (c.start ≤ s.now → s.flyers[c.flyer].breach = none → OverstayedIn s c.flyer c.region →
            t.attention = raisedBy 0x011 s.attention ∧
            t.claimAt h.slot = some { c with state := .held .overlap false }) ∧
          (c.start ≤ s.now → s.flyers[c.flyer].breach = none → ¬ OverstayedIn s c.flyer c.region →
            t.attention = raisedBy 0x003 s.attention ∧ t.claimAt h.slot = some { c with state := .active })))

/-- Past zone 7 a box-only or end amendment of a BOOKED or ACTIVE claim takes effect with no change of state, is refused STALE when its end is not later than now, and removes the flyer's grant with AMENDED exactly when it names the claim and its segment leaves the new box (R39 to R42). That the claim takes its new shape before the grant is judged is the model's reading (log 25), and that the removal's grounded event frees a grounded flyer's OVERRUN claims, with EXPIRED, its choice (log 28). The lookup port's turn is kept: a walk in its zone phase does not wait at the port (R24, R37). -/
def Obligations.AmendmentOfBookedOrActive : Prop :=
  ∀ (s : State) (w : Walk) (h : Handle) (c : Claim) (a : Amendment), s.admission.walk = some w → w.pos = .zones 7 →
    w.subject = .amend h → s.resolve h = some c → c.amend = some a → (c.state = .booked ∨ c.state = .active) →
    Runs s → QueueLaw s → WalkLaw s → ¬ ZoneConflict s w 7 →
    ∃ t, exec .zonePhaseRead s = .next t ∧ GrantFrame s t ∧ (∀ j : Slot, t.slots[j].gen = s.slots[j].gen) ∧
      t.admission.queue = (s.admission.queue.drop 1).filter (stillNamed t) ∧
      FlagsRaised 0x001 s t ∧ TurnKept s t ∧
      (∀ j : Slot, j ≠ h.slot → groundsTo c.flyer (s.claimAt j) (t.claimAt j)) ∧
      (∀ e, (if a.newEnd = none then c.stop else a.newEnd) = some e → e ≤ s.now →
        t.claimAt h.slot = some { c with amend := none, verdict := some .stale } ∧
        t.grants = s.grants ∧ t.channels = s.channels ∧ t.lines.permit = s.lines.permit ∧
        ∀ (j : Slot) (o : Claim), j ≠ h.slot → s.claimAt j = some o → o.state = .overrun → t.claimAt j = some o) ∧
      ((∀ e, (if a.newEnd = none then c.stop else a.newEnd) = some e → s.now < e) →
        t.claimAt h.slot = some { c with box := a.newBox.getD c.box, stop := if a.newEnd = none then c.stop else a.newEnd
                                         amend := none, verdict := none } ∧
        ((∃ g b, s.grantOf c.flyer = some g ∧ g.claim = h ∧ a.newBox = some b ∧ b.contains g.segment = false) →
          GrantRemoved s t c.flyer .amended ∧
          ∀ (j : Slot) (o : Claim), j ≠ h.slot → s.claimAt j = some o → o.flyer = c.flyer → o.state = .overrun →
            t.claimAt j = if s.flyers[c.flyer].grounded = true then none else some o) ∧
        ((∀ g b, s.grantOf c.flyer = some g → g.claim = h → a.newBox = some b → b.contains g.segment = true) →
          t.grants = s.grants ∧ t.channels = s.channels ∧ t.lines.permit = s.lines.permit ∧
          ∀ (j : Slot) (o : Claim), j ≠ h.slot → s.claimAt j = some o → o.state = .overrun → t.claimAt j = some o)) ∧
      (OverlapLaw s → OverlapsJudged (some h.slot) s t)

/-- A SET zone in the way of an AMEND walk refuses the amendment with ZONE and its number, whatever the claim's state: the claim keeps all else (R37, R42).
Past zone 7 an amendment of an OVERRUN or HELD claim is refused STALE when it has an end not later than now; else the claim takes its new shape and its state follows (R39, R40): OVERRUN with a new end goes ACTIVE, its grant's kind as issued; an ended mark is cleared by a new end; HELD OVERLAP is released where no overstayer meets the new region; any other keeps its state. A new shape of an overstaying claim closes with the re-check, which judges every HELD OVERLAP claim (R13). The flyer's grant goes with AMENDED as R41 says, and that removal of a grounded flyer frees its OVERRUN claims, with EXPIRED, the amended one too if it is still OVERRUN (R15). That the claim takes its shape and state before the grant is judged is the model's reading (log 25), and that OVERRUN claims are then freed with EXPIRED, beside the flags and the state that R40 names, its choice (log 28). The lookup port's turn is kept: a walk in its zone phase does not wait at the port (R24, R37). -/
def Obligations.AmendmentOfOverrunOrHeld : Prop :=
  (∀ (s : State) (w : Walk) (z : Zone) (h : Handle) (c : Claim), s.admission.walk = some w → w.pos = .zones z →
    w.subject = .amend h → s.resolve h = some c → Runs s → QueueLaw s → WalkLaw s → ZoneConflict s w z →
    ∃ t, exec .zonePhaseRead s = .next t ∧ ClaimFrame s t ∧ OthersClose s t h.slot ∧ t.arbiter = s.arbiter ∧
      t.admission.queue = s.admission.queue.drop 1 ∧ t.attention = raisedBy 0x001 s.attention ∧
      t.claimAt h.slot = some { c with amend := none, verdict := some (.zone z) }) ∧
  (∀ (s : State) (w : Walk) (h : Handle) (c d : Claim) (a : Amendment) (gone : Prop), s.admission.walk = some w →
    w.pos = .zones 7 → w.subject = .amend h → s.resolve h = some c → c.amend = some a →
    (c.state = .overrun ∨ c.state.isHeld = true) → Runs s → QueueLaw s → WalkLaw s → OverlapLaw s → ¬ ZoneConflict s w 7 →
    d = { c with box := a.newBox.getD c.box, stop := if a.newEnd = none then c.stop else a.newEnd
                 amend := none, verdict := none } →
    (gone ↔ ∃ g b, s.grantOf c.flyer = some g ∧ g.claim = h ∧ a.newBox = some b ∧ b.contains g.segment = false) →
    ∃ t, exec .zonePhaseRead s = .next t ∧ GrantFrame s t ∧ (∀ j : Slot, t.slots[j].gen = s.slots[j].gen) ∧
      t.admission.queue = (s.admission.queue.drop 1).filter (stillNamed t) ∧
      FlagsRaised 0x001 s t ∧ TurnKept s t ∧
      (∀ j : Slot, j ≠ h.slot → groundsTo c.flyer (s.claimAt j) (t.claimAt j)) ∧ OverlapsJudged (some h.slot) s t ∧
      (∀ e, (if a.newEnd = none then (if c.state.overstaying = true then none else c.stop) else a.newEnd) = some e →
        e ≤ s.now →
        t.claimAt h.slot = some { c with amend := none, verdict := some .stale } ∧
        t.grants = s.grants ∧ t.channels = s.channels ∧ t.lines.permit = s.lines.permit ∧
        ∀ (j : Slot) (o : Claim), j ≠ h.slot → s.claimAt j = some o → o.state = .overrun → t.claimAt j = some o) ∧
      ((∀ e, (if a.newEnd = none then (if c.state.overstaying = true then none else c.stop) else a.newEnd) = some e →
          s.now < e) →
        (c.state = .overrun → a.newEnd ≠ none → t.claimAt h.slot = some { d with state := .active }) ∧
        (c.state = .overrun → a.newEnd = none → gone → s.flyers[c.flyer].grounded = true → t.claimAt h.slot = none) ∧
        (c.state = .overrun → a.newEnd = none → (¬ gone ∨ s.flyers[c.flyer].grounded = false) →
          t.claimAt h.slot = some d) ∧
        (∀ cause, c.state = .held cause true → a.newEnd ≠ none →
          t.claimAt h.slot = some { d with state := .held cause false }) ∧
        (∀ cause, c.state = .held cause true → a.newEnd = none → t.claimAt h.slot = some d) ∧
        (∀ cause, c.state = .held cause false → cause ≠ .overlap → t.claimAt h.slot = some d) ∧
        (c.state = .held .overlap false → OverstayedIn s c.flyer d.region → t.claimAt h.slot = some d) ∧
        (c.state = .held .overlap false → ¬ OverstayedIn s c.flyer d.region → t.claimAt h.slot =
          some { d with state := if s.flyers[c.flyer].breach = none then .active else .held .breach false }) ∧
        (gone → GrantRemoved s t c.flyer .amended ∧
          ∀ (j : Slot) (o : Claim), j ≠ h.slot → s.claimAt j = some o → o.flyer = c.flyer → o.state = .overrun →
            t.claimAt j = if s.flyers[c.flyer].grounded = true then none else some o) ∧
        (¬ gone → ∀ (j : Slot) (o : Claim), j ≠ h.slot → s.claimAt j = some o → o.state = .overrun → t.claimAt j = some o) ∧
        (¬ gone → t.channels = s.channels ∧ t.lines.permit = s.lines.permit ∧
          (∀ g, s.grantOf c.flyer = some g → g.claim = h → c.state = .overrun → a.newEnd ≠ none →
            t.grants = s.grants.set c.flyer { s.grants[c.flyer] with live := some { g with kind := g.issued } }) ∧
          ((c.state ≠ .overrun ∨ a.newEnd = none ∨ ∀ g, s.grantOf c.flyer = some g → g.claim ≠ h) →
            t.grants = s.grants))))

/-! ## Keep-out zones, protection, bindings -/

/-- ZONE_SET: BAD_OPERAND, PROTECTED, WRONG_STATE and QUEUE_FULL in their order, with no effect on the slot; else the zone goes PENDING, or a SET zone gains a pending replacement, the ZONE entry is appended and the answer is QUEUED with the zone number (R53, R54, R55, R59). -/
def Obligations.ZoneSetRequests : Prop :=
  ∀ (s : State) (zb : Byte) (box : BoxBytes) (fb : Byte), Awaits s .showSel .zoneSet →
    ((7 < zb.toNat ∨ (boxOfBytes box).wf = false ∨ 1 < fb.toNat) →
      exec (.zoneSet zb box fb) s = .next (answered s .showSel .badOperand)) ∧
    ∀ (z : Zone) (area : FixedBox), zb.toNat = z.val → (boxOfBytes box).wf = true → fb.toNat ≤ 1 →
      area = { box := boxOfBytes box, fixed := decide (fb.toNat = 1) } →
      ((s.effective = .hard ∨ (s.effective = .soft ∧ s.zones[z].isFixed = true)) →
        exec (.zoneSet zb box fb) s = .next (answered s .showSel .protected_)) ∧
      ((s.effective = .opened ∨ (s.effective = .soft ∧ s.zones[z].isFixed = false)) →
        (((∃ a, s.zones[z] = .pending a) ∨ (∃ a r v, s.zones[z] = .set a (some r) v)) →
          exec (.zoneSet zb box fb) s = .next (answered s .showSel .wrongState)) ∧
        ((∀ a, s.zones[z] ≠ .pending a) → (∀ a r v, s.zones[z] ≠ .set a (some r) v) →
          (8 ≤ s.admission.queue.length → exec (.zoneSet zb box fb) s = .next (answered s .showSel .queueFull)) ∧
          (s.admission.queue.length < 8 → QueueLaw s → ∃ t, exec (.zoneSet zb box fb) s = .next t ∧
            ClaimFrame { s.setTx .showSel (.response .queued (some zb)) with zones := t.zones } t ∧
            (∀ j : Slot, t.slots[j].gen = s.slots[j].gen ∧ closesTo (s.claimAt j) (t.claimAt j)) ∧
            t.admission.queue = s.admission.queue ++ [.zone z] ∧ t.attention = s.attention ∧ t.arbiter = s.arbiter ∧
            (∀ a v, s.zones[z] = .set a none v → t.zones = s.zones.set z (.set a (some area) v)) ∧
            ((∀ a v, s.zones[z] ≠ .set a none v) → t.zones = s.zones.set z (.pending area)))))

/-- ZONE_CLEAR: BAD_OPERAND, PROTECTED and WRONG_STATE in their order, with no effect; else the zone goes EMPTY with everything it held, and its ZONE entry leaves the queue (R57, R59). The port's turn is kept, but for the walk count, which goes to 0 where the head entry is withdrawn while its walk waits at the lookup port (R24, R46); that a walk begun again in place keeps the count is the model's reading (log 11). -/
def Obligations.ZoneClearEmpties : Prop :=
  ∀ (s : State) (zb : Byte), Awaits s .showSel .zoneClear →
    (7 < zb.toNat → exec (.zoneClear zb) s = .next (answered s .showSel .badOperand)) ∧
    ∀ z : Zone, zb.toNat = z.val →
      ((s.effective = .hard ∨ (s.effective = .soft ∧ s.zones[z].isFixed = true)) →
        exec (.zoneClear zb) s = .next (answered s .showSel .protected_)) ∧
      ((s.effective = .opened ∨ (s.effective = .soft ∧ s.zones[z].isFixed = false)) →
        (s.zones[z] = .empty → exec (.zoneClear zb) s = .next (answered s .showSel .wrongState)) ∧
        (s.zones[z] ≠ .empty → QueueLaw s → ∃ t, exec (.zoneClear zb) s = .next t ∧
          ClaimFrame { answered s .showSel .ok with zones := s.zones.set z .empty } t ∧
          (∀ j : Slot, t.slots[j].gen = s.slots[j].gen ∧ closesTo (s.claimAt j) (t.claimAt j)) ∧
          t.admission.queue = s.admission.queue.filter (fun e => decide (e ≠ .zone z)) ∧ t.attention = s.attention ∧
          TurnKept s t))

/-- SET_PROTECT: BAD_OPERAND when the operand names none of OPEN, SOFT and HARD, PROTECTED when the effective protection is HARD, else the mode is set, answered OK, and nothing else changes; the CREW select is answered PRIVILEGE.
RIG_LOCK_CHANGE follows the level of the line and changes nothing else; the effective protection is the mode, but SOFT for HARD while the line is deasserted (R58). That the operand is judged before the protection is the model's choice (log 27), and that the line's level is followed in every supply state its reading (log 14). -/
def Obligations.ProtectionCommands : Prop :=
  (∀ (s : State) (m : Byte),
    (Awaits s .crewSel .setProtect → exec (.setProtect m) s = .next (answered s .crewSel .privilege)) ∧
    (Awaits s .showSel .setProtect →
      (2 < m.toNat → exec (.setProtect m) s = .next (answered s .showSel .badOperand)) ∧
      (m.toNat ≤ 2 → s.protect = .hard → s.inputs.rigLock = true →
        exec (.setProtect m) s = .next (answered s .showSel .protected_)) ∧
      (¬ (s.protect = .hard ∧ s.inputs.rigLock = true) →
        (m.toNat = 0 → exec (.setProtect m) s = .next { answered s .showSel .ok with protect := .opened }) ∧
        (m.toNat = 1 → exec (.setProtect m) s = .next { answered s .showSel .ok with protect := .soft }) ∧
        (m.toNat = 2 → exec (.setProtect m) s = .next { answered s .showSel .ok with protect := .hard })))) ∧
  (∀ (s : State) (v : Bool),
    exec (.rigLockChange v) s = .next { s with inputs := { s.inputs with rigLock := v } } ∧
    (s.protect = .opened → s.effective = .opened) ∧ (s.protect = .soft → s.effective = .soft) ∧
    (s.protect = .hard → s.inputs.rigLock = true → s.effective = .hard) ∧
    (s.protect = .hard → s.inputs.rigLock = false → s.effective = .soft))

/-- BIND judges its tests in the order of R65 and answers the first that fails, with no effect; a BIND that passes binds the winch, answered OK, and moves no PERMIT line.
UNBIND judges its tests in the order of R67 and answers the first that fails, with no effect; an UNBIND that passes leaves the winch bound to none, answered OK, and moves no PERMIT line. -/
def Obligations.BindAndUnbind : Prop :=
  (∀ (s : State) (fb wb : Byte),
    (Awaits s .crewSel .bind → exec (.bind fb wb) s = .next (answered s .crewSel .privilege)) ∧
    (Awaits s .showSel .bind →
      ((fb.toNat = 0 ∨ 8 < fb.toNat ∨ 15 < wb.toNat) →
        exec (.bind fb wb) s = .next (answered s .showSel .badOperand)) ∧
      ∀ (f : Flyer) (w : Winch), fb.toNat = flyerNumber f → wb.toNat = w.val →
        (s.effective = .hard → exec (.bind fb wb) s = .next (answered s .showSel .protected_)) ∧
        (s.effective ≠ .hard →
          (∀ g, s.bindings[w] = some g → g ≠ f → exec (.bind fb wb) s = .next (answered s .showSel .wrongState)) ∧
          (s.bindings[w] = some f → exec (.bind fb wb) s = .next (answered s .showSel .ok)) ∧
          (s.bindings[w] = none →
            (4 ≤ (s.boundWinches f).length → exec (.bind fb wb) s = .next (answered s .showSel .bindingFull)) ∧
            ((s.boundWinches f).length < 4 →
              (s.flyers[f].grounded = false → exec (.bind fb wb) s = .next (answered s .showSel .airborne)) ∧
              (s.flyers[f].grounded = true →
                (s.grantOf f ≠ none → exec (.bind fb wb) s = .next (answered s .showSel .grantLive)) ∧
                (s.grantOf f = none → exec (.bind fb wb) s =
                  .next { answered s .showSel .ok with bindings := s.bindings.set w (some f) }))))))) ∧
  (∀ (s : State) (wb : Byte),
    (Awaits s .crewSel .unbind → exec (.unbind wb) s = .next (answered s .crewSel .privilege)) ∧
    (Awaits s .showSel .unbind →
      (15 < wb.toNat → exec (.unbind wb) s = .next (answered s .showSel .badOperand)) ∧
      ∀ w : Winch, wb.toNat = w.val →
        (s.effective = .hard → exec (.unbind wb) s = .next (answered s .showSel .protected_)) ∧
        (s.effective ≠ .hard →
          (s.bindings[w] = none → exec (.unbind wb) s = .next (answered s .showSel .wrongState)) ∧
          (∀ f, s.bindings[w] = some f →
            (s.flyers[f].grounded = false → exec (.unbind wb) s = .next (answered s .showSel .airborne)) ∧
            (s.flyers[f].grounded = true →
              (s.grantOf f ≠ none → exec (.unbind wb) s = .next (answered s .showSel .grantLive)) ∧
              (s.grantOf f = none → exec (.unbind wb) s =
                .next { answered s .showSel .ok with bindings := s.bindings.set w none }))))))

/-- CLEAR_BREACH: BAD_OPERAND outside 1 to 8, WRONG_STATE without a breach record; else the record alone is removed, answered OK: claims, holds and all else stay as they are.
REOPEN: BAD_OPERAND outside 1 to 8, WRONG_STATE unless the channel is LOST; else the channel goes OPEN with its report timer disarmed, its lists and all else as they stand (R89). -/
def Obligations.ClearBreachAndReopen : Prop :=
  (∀ (s : State) (fb : Byte),
    (Awaits s .crewSel .clearBreach → exec (.clearBreach fb) s = .next (answered s .crewSel .privilege)) ∧
    (Awaits s .showSel .clearBreach →
      ((fb.toNat = 0 ∨ 8 < fb.toNat) → exec (.clearBreach fb) s = .next (answered s .showSel .badOperand)) ∧
      ∀ f : Flyer, fb.toNat = flyerNumber f →
        (s.flyers[f].breach = none → exec (.clearBreach fb) s = .next (answered s .showSel .wrongState)) ∧
        (s.flyers[f].breach ≠ none → exec (.clearBreach fb) s =
          .next { answered s .showSel .ok with flyers := s.flyers.set f { s.flyers[f] with breach := none } }))) ∧
  (∀ (s : State) (cb : Byte), Awaits s .showSel .reopen →
    ((cb.toNat = 0 ∨ 8 < cb.toNat) → exec (.reopen cb) s = .next (answered s .showSel .badOperand)) ∧
    ∀ c : Flyer, cb.toNat = flyerNumber c →
      (s.channels[c].state ≠ .lost → exec (.reopen cb) s = .next (answered s .showSel .wrongState)) ∧
      (s.channels[c].state = .lost → exec (.reopen cb) s =
        .next { answered s .showSel .ok with
                channels := s.channels.set c { s.channels[c] with state := .opened, timer := none } }))

/-! ## Flyer channels -/

/-- A byte heard by a hunting receiver, or more than 100 us, and its own 10 us on the line, after the end of the last byte of a frame: a sync byte begins a frame, any other is discarded. A byte heard in time by a receiving one: a known kind is taken, an unknown one discards the frame; a payload byte is taken, be it of the sync value; each begins the measure of the gap anew; at the check byte the receiver hunts again, and an agreeing frame joins the inbound list when fewer than two wait, every other being discarded. A gap of more than 100 us after the end of the last byte, and a framing error, discard the frame (R77 to R80, R82).
FRAME_TAKEN hears its bytes one after the other, 10 us apart, the last now; with all the bytes of a frame, or all after its sync byte when these come in time, it takes that frame, or discards it where the check does not agree or two wait.
Nothing but the receiver, that list and, at a gap, real time ever changes. While the part does not run, RXD is ignored: none of these events changes anything (R77, R176, R179). That this holds in OFF too is the model's choice (log 9), as is which rows carry the bytes (log 6), and that a gap's row lets its time pass (log 3). -/
def Obligations.ReceiverEvents : Prop :=
  (∀ (s : State) (c : Flyer), ¬ Runs s → exec (.frameGap c) s = .next s ∧ exec (.framingError c) s = .next s ∧
    (∀ (i : Instr) (b : Byte), HearsByte i c b → exec i s = .next s) ∧
    ∀ (bytes : List Byte) (b : Byte), exec (.frameTaken c bytes b) s = .next s) ∧
  (∀ (s : State) (c : Flyer), Runs s →
    exec (.framingError c) s = .next (s.withReceiver c .hunting) ∧
    (s.channels[c].rx = .hunting → exec (.frameGap c) s = .next s) ∧
    ∀ (body : List Byte) (n : Nat) (u : State), s.channels[c].rx = .receiving body n → u = elapse (101 - n) s →
      exec (.frameGap c) s = .next (u.withReceiver c .hunting)) ∧
  (∀ (s : State) (c : Flyer) (i : Instr) (b : Byte), Runs s → HearsByte i c b →
    ((s.channels[c].rx = .hunting ∨ ∃ body n, s.channels[c].rx = .receiving body n ∧ 100 + 10 < n) →
      (b = 0xA5 → exec i s = .next (s.withReceiver c (.receiving [] 0))) ∧
      (b ≠ 0xA5 → exec i s = .next (s.withReceiver c .hunting))) ∧
    ∀ (body : List Byte) (n : Nat), s.channels[c].rx = .receiving body n → n ≤ 100 + 10 →
      (body = [] →
        ((b = 0x01 ∨ b = 0x02 ∨ b = 0x03) → exec i s = .next (s.withReceiver c (.receiving [b] 0))) ∧
        (b ≠ 0x01 → b ≠ 0x02 → b ≠ 0x03 → exec i s = .next (s.withReceiver c .hunting))) ∧
      (∀ (k : Byte) (payload : List Byte), body = k :: payload →
        ((k = 0x01 ∧ payload.length < 2) ∨ (k = 0x02 ∧ payload.length < 4) ∨ (k = 0x03 ∧ payload.length < 3)) →
        exec i s = .next (s.withReceiver c (.receiving (body ++ [b]) 0))) ∧
      ∀ f : InFrame, body = f.body →
        (b = f.check → s.channels[c].inbound.length < 2 → exec i s =
          .next (s.setChannel c { s.channels[c] with rx := .hunting, inbound := s.channels[c].inbound ++ [f] })) ∧
        ((b ≠ f.check ∨ 2 ≤ s.channels[c].inbound.length) → exec i s = .next (s.withReceiver c .hunting))) ∧
  (∀ (s t v : State) (c : Flyer) (b last : Byte) (bytes : List Byte), Runs s →
    ((s.channels[c].rx = .hunting ∧ v = s) ∨ ∃ body n, s.channels[c].rx = .receiving body n ∧
      v = s.withReceiver c (.receiving body (n - 10 * (bytes.length + 1)))) →
    exec (.frameTaken c [] b) v = .next t → exec (.frameTaken c (b :: bytes) last) s = exec (.frameTaken c bytes last) t) ∧
  ∀ (s : State) (c : Flyer) (f : InFrame) (bytes : List Byte) (last : Byte), Runs s →
    ((s.channels[c].rx = .hunting ∧ bytes = 0xA5 :: f.body) ∨
      ∃ n, s.channels[c].rx = .receiving [] n ∧ n ≤ 100 + 10 * (bytes.length + 1) ∧ bytes = f.body) →
    (last = f.check → s.channels[c].inbound.length < 2 → exec (.frameTaken c bytes last) s =
      .next (s.setChannel c { s.channels[c] with rx := .hunting, inbound := s.channels[c].inbound ++ [f] })) ∧
    ((last ≠ f.check ∨ 2 ≤ s.channels[c].inbound.length) → exec (.frameTaken c bytes last) s = .next (s.withReceiver c .hunting))

/-- HELLO at the head: a WELCOME for the channel's own number, which opens a CLOSED channel, and a DENY MISMATCH for any other; a REPORT or ASK at the head of a CLOSED channel is discarded, at once, as R82 says; that the test of R91 does not delay this is the model's choice (log 29); a frame sent leaves the outgoing queue. Timers, grants and records are untouched (R82, R83, R90, R91). While the part does not run, no frame is handled, a REPORT or ASK no more than these, and none is sent (R77, R176, R179). That this holds in OFF too is the model's choice (log 9). That the queue's first frame is the one being sent is the model's reading (log 16). -/
def Obligations.HelloDiscardAndSent : Prop :=
  (∀ (s : State) (c : Flyer), ¬ Runs s →
    exec (.hello c) s = .next s ∧ exec (.closedChannelDiscard c) s = .next s ∧ exec (.frameSent c) s = .next s ∧
    exec (.report c) s = .next s ∧ exec (.ask c) s = .next s) ∧
  ∀ (s : State) (c : Flyer), Runs s →
    (∀ (id rev : Byte) (rest : List InFrame), s.channels[c].inbound = .hello id rev :: rest →
      (s.channels[c].out.length ≤ 2 →
        (id.toNat = flyerNumber c → exec (.hello c) s =
          .next (s.setChannel c
            { s.channels[c] with
              state := if s.channels[c].state = .closed then .opened else s.channels[c].state
              inbound := rest
              out := s.channels[c].out ++ [.welcome (flyerNumber c)] })) ∧
        (id.toNat ≠ flyerNumber c → exec (.hello c) s =
          .next (s.setChannel c { s.channels[c] with inbound := rest, out := s.channels[c].out ++ [.deny .mismatch] }))) ∧
      (2 < s.channels[c].out.length → exec (.hello c) s = .next s)) ∧
    (∀ (f : InFrame) (rest : List InFrame), s.channels[c].inbound = f :: rest → (∀ id rev, f ≠ .hello id rev) →
      s.channels[c].state = .closed → exec (.closedChannelDiscard c) s =
        .next (s.setChannel c { s.channels[c] with inbound := rest })) ∧
    (∀ (o : OutFrame) (rest : List OutFrame), s.channels[c].out = o :: rest → exec (.frameSent c) s =
      .next (s.setChannel c { s.channels[c] with out := rest }))

/-- The LATE expiry of a LIVE channel, 30 ms after its last report, makes it LATE and raises CHANNEL_LATE, and changes nothing else but that ATTN and ALERT stand as R167 and R172 give: its grant and its permits stay; it has no effect on a channel in another state (R87).
The LOST expiry of a LIVE or LATE channel, 60 ms after its last report, makes it LOST, records a LOST alert naming the flyer, and removes its grant with LOST, which frees the OVERRUN claims of a grounded flyer with EXPIRED; it has no effect on a channel in another state (R15, R88, R103). While the part does not run, neither has any effect (R176, R179). That this holds in OFF too is the model's choice (log 9).
That an expiry lets the time still left pass, or is taken late, is the model's choice (log 3). The port's turn is kept, but for the walk count, which goes to 0 where the head entry is withdrawn while its walk waits at the lookup port (R24, R46); that a walk begun again in place keeps the count is the model's reading (log 11). -/
def Obligations.ReportTimerExpiries : Prop :=
  (∀ (s : State) (c : Flyer), Runs s →
    (∀ (n : Nat) (u : State), s.channels[c].state = .live → s.channels[c].timer = some n → u = elapse (30000 - n) s →
      ∃ t, exec (.lateExpiry c) s = .next t ∧
        ClaimFrame { u with channels := u.channels.set c { u.channels[c] with state := .late } } t ∧
        t.slots = s.slots ∧ t.admission = s.admission ∧ t.arbiter = s.arbiter ∧
        t.attention = raisedBy 0x020 s.attention ∧ t.lines.attn = attnLevel t ∧ t.lines.alert = alertLevel s) ∧
    (s.channels[c].state ≠ .live → exec (.lateExpiry c) s = .next s)) ∧
  (∀ (s : State) (c : Flyer), Runs s →
    (∀ (n : Nat) (u : State), (s.channels[c].state = .live ∨ s.channels[c].state = .late) → s.channels[c].timer = some n →
      u = elapse (60000 - n) s →
      QueueLaw s → ∃ t, exec (.lostExpiry c) s = .next t ∧ GrantFrame { u with alert := t.alert } t ∧
        t.channels[c].state = .lost ∧ t.channels[c].timer = u.channels[c].timer ∧
        (∀ d : Flyer, d ≠ c → t.channels[d] = u.channels[d]) ∧
        t.alert.latest = some { cause := .lost c, tick := s.now } ∧
        t.alert.first = (if s.alert.count = 0 then some { cause := .lost c, tick := s.now } else s.alert.first) ∧
        t.alert.count = (if s.alert.count < 255 then s.alert.count + 1 else s.alert.count) ∧
        GrantRemoved { u with channels := u.channels.set c { u.channels[c] with state := .lost } } t c .lost ∧
        FlagsRaised 0 s t ∧ (OverlapLaw s → OverlapsJudged none s t) ∧ QueueFollows s t ∧ TurnKept s t ∧
        (∀ j : Slot, t.slots[j].gen = s.slots[j].gen ∧ groundsTo c (s.claimAt j) (t.claimAt j)) ∧
        (∀ (j : Slot) (d : Claim), s.claimAt j = some d → d.flyer = c → d.state = .overrun →
          (s.flyers[c].grounded = true → s.grantOf c ≠ none → t.claimAt j = none) ∧
          ((s.flyers[c].grounded = false ∨ s.grantOf c = none) → t.claimAt j = some d))) ∧
    (s.channels[c].state ≠ .live → s.channels[c].state ≠ .late → exec (.lostExpiry c) s = .next s)) ∧
  (∀ (s : State) (c : Flyer), ¬ Runs s → exec (.lateExpiry c) s = .next s ∧ exec (.lostExpiry c) s = .next s)

/-! ## Travel grants and the position monitor -/

/-- The lease expiry removes the grant with EXPIRED, in the four steps of R103: the record is gone, its permits low, a REVOKE queued, and, of a grounded flyer, every OVERRUN claim freed with EXPIRED and the re-check run; without a grant, or while the part does not run, nothing changes (R15, R101, R176, R179). That this holds in OFF too is the model's choice (log 9). That the expiry lets the lease still left pass, or is taken late, is the model's choice (log 3). The port's turn is kept, but for the walk count, which goes to 0 where the head entry is withdrawn while its walk waits at the lookup port (R24, R46); that a walk begun again in place keeps the count is the model's reading (log 11). -/
def Obligations.LeaseExpiry : Prop :=
  (∀ (s : State) (f : Flyer), ¬ Runs s → exec (.leaseExpiry f) s = .next s) ∧
  ∀ (s : State) (f : Flyer), Runs s →
    (∀ (g : Grant) (u : State), s.grantOf f = some g → u = elapse g.lease s → QueueLaw s →
      ∃ t, exec (.leaseExpiry f) s = .next t ∧
      GrantFrame u t ∧ GrantRemoved u t f .expired ∧ FlagsRaised 0 s t ∧ (OverlapLaw s → OverlapsJudged none s t) ∧
      QueueFollows s t ∧ TurnKept s t ∧
      (∀ j : Slot, t.slots[j].gen = s.slots[j].gen ∧ groundsTo f (s.claimAt j) (t.claimAt j)) ∧
      (∀ (j : Slot) (d : Claim), s.claimAt j = some d → d.flyer = f → d.state = .overrun →
        (s.flyers[f].grounded = true → t.claimAt j = none) ∧ (s.flyers[f].grounded = false → t.claimAt j = some d))) ∧
    (s.grantOf f = none → exec (.leaseExpiry f) s = .next s)

/-- A denied ASK queues a DENY with the reason of the first test that fails, and changes nothing else but the frame's leaving the list and the arbiter's turn: the grant, the counter and the permits stay (R96, R99). -/
def Obligations.AskDenied : Prop :=
  ∀ (s : State) (c : Flyer) (x y z : Byte) (rest : List InFrame) (r : Reason), Runs s →
    s.channels[c].inbound = .ask x y z :: rest → s.grantsChannel c = true →
    ((¬ (x.toNat ≤ 39 ∧ y.toNat ≤ 39 ∧ z.toNat ≤ 31) ∧ r = .badTarget) ∨
     ((x.toNat ≤ 39 ∧ y.toNat ≤ 39 ∧ z.toNat ≤ 31) ∧
      ((s.holds ≠ [] ∧ r = .held) ∨
       (s.holds = [] ∧
        ((s.channels[c].state = .opened ∧ r = .notLive) ∨ (s.channels[c].state = .late ∧ r = .late) ∨
         (s.channels[c].state = .lost ∧ r = .lost) ∨
         (s.channels[c].state = .live ∧
          ((s.flyers[c].breach ≠ none ∧ r = .breached) ∨
           (s.flyers[c].breach = none ∧
            (((∀ w : Winch, s.bindings[w] ≠ some c) ∧ r = .unbound) ∨
             (∃ (w : Winch) (p : Cell), s.bindings[w] = some c ∧ s.flyers[c].position = some p ∧
               (((∀ (j : Slot) (d : Claim), s.claimAt j = some d → d.flyer = c → d.state.inForce = true →
                   d.box.contains (segmentBox p (cellOf x y z)) = false) ∧ r = .noClaim) ∨
                ((∃ (j : Slot) (d : Claim), s.claimAt j = some d ∧ d.flyer = c ∧ d.state = .overrun ∧
                    d.box.contains (segmentBox p (cellOf x y z)) = true) ∧
                 (∀ (j : Slot) (d : Claim), s.claimAt j = some d → d.flyer = c → d.state = .active →
                    d.box.contains (segmentBox p (cellOf x y z)) = false) ∧
                 straightDown p (cellOf x y z) = false ∧ r = .descentOnly)))))))))))) →
    exec (.ask c) s = .next
      { s with
        arbiter := { lastServed := c, walkCount := if s.walkWaiting = true then s.arbiter.walkCount + 1 else 0 }
        channels := s.channels.set c { s.channels[c] with inbound := rest, out := s.channels[c].out ++ [.deny r] } }

/-- A granted ASK issues a grant naming the lowest ACTIVE claim that contains its segment, TRAVEL, or else the lowest OVERRUN one, DESCENT: the counter advances with 255 followed by 0, the record replaces any earlier one with a lease of 250 ms, the permits of the flyer's winches rise and no other line moves, and a GRANT is queued (R97, R98). -/
def Obligations.AskGranted : Prop :=
  ∀ (s : State) (c : Flyer) (x y z : Byte) (rest : List InFrame) (p : Cell) (w : Winch) (i : Slot) (d : Claim)
    (kind : GrantKind) (q : Nat), Runs s →
    s.channels[c].inbound = .ask x y z :: rest → s.grantsChannel c = true →
    x.toNat ≤ 39 → y.toNat ≤ 39 → z.toNat ≤ 31 → s.holds = [] → s.channels[c].state = .live → s.flyers[c].breach = none →
    s.bindings[w] = some c → s.flyers[c].position = some p →
    s.claimAt i = some d → d.flyer = c → d.box.contains (segmentBox p (cellOf x y z)) = true →
    ((d.state = .active ∧ kind = .travel) ∨ (d.state = .overrun ∧ kind = .descent ∧ straightDown p (cellOf x y z) = true ∧
      ∀ (j : Slot) (e : Claim), s.claimAt j = some e → e.flyer = c → e.state = .active →
        e.box.contains (segmentBox p (cellOf x y z)) = false)) →
    (∀ (j : Slot) (e : Claim), j < i → s.claimAt j = some e → e.flyer = c → e.state = d.state →
      e.box.contains (segmentBox p (cellOf x y z)) = false) →
    q = (if s.grants[c].seq < 255 then s.grants[c].seq + 1 else 0) →
    exec (.ask c) s = .next
      { s with
        arbiter := { lastServed := c, walkCount := if s.walkWaiting = true then s.arbiter.walkCount + 1 else 0 }
        channels := (s.channels.set c
          { s.channels[c] with inbound := rest, out := s.channels[c].out ++ [.grant q (cellOf x y z) kind] })
        grants := (s.grants.set c
          { seq := q
            live := some { seq := q, target := cellOf x y z, segment := segmentBox p (cellOf x y z), claim := s.handleAt i
                           issued := kind, kind := kind, lease := 250000 } })
        lines := { s.lines with permit := tabulate (fun v => if s.bindings[v] = some c then .high else s.lines.permit[v]) } }

/-- The judgement of an airborne report: INTRUDE in a SET zone or in the region of a begun claim of another flyer, but for a HELD claim where the flyer's own overstaying claim holds the cell; else ESCAPE outside the grid, outside the live grant's segment, or, at a first report, outside the flyer's begun claims; DRIFT off the last position without a grant (R109, R110, R111). -/
def Obligations.ReportJudgement : Prop :=
  ∀ (s : State) (f : Flyer) (cell : Cell) (intr : Prop) (kind : Option BreachKind),
    (intr ↔ (∃ (z : Zone) (a : FixedBox) (r : Option FixedBox) (v : Option Handle),
        s.zones[z] = .set a r v ∧ a.box.containsCell cell = true) ∨
      ∃ (j : Slot) (d : Claim), s.claimAt j = some d ∧ d.flyer ≠ f ∧ d.state.begun = true ∧
        d.region.containsCell cell = true ∧
        ¬ (d.state.isHeld = true ∧ ∃ (k : Slot) (e : Claim), s.claimAt k = some e ∧ e.flyer = f ∧
            e.state.overstaying = true ∧ e.box.containsCell cell = true)) →
    ((intr ∧ kind = some .intrude) ∨
     (¬ intr ∧
      ((cell.inGrid = false ∧ kind = some .escape) ∨
       (cell.inGrid = true ∧
        ((∃ g, s.grantOf f = some g ∧ kind = if g.segment.containsCell cell = true then none else some .escape) ∨
         (s.grantOf f = none ∧
          ((∃ p, s.flyers[f].position = some p ∧ kind = if cell = p then none else some .drift) ∨
           (s.flyers[f].position = none ∧
            (((∃ (j : Slot) (d : Claim), s.claimAt j = some d ∧ d.flyer = f ∧ d.state.begun = true ∧
                d.box.containsCell cell = true) ∧ kind = none) ∨
             ((∀ (j : Slot) (d : Claim), s.claimAt j = some d → d.flyer = f → d.state.begun = true →
                d.box.containsCell cell = false) ∧ kind = some .escape)))))))))) →
    judgeReport f cell false s = kind ∧ judgeReport f cell true s = none

/-- A handled REPORT: the channel goes LIVE, a LOST one staying LOST, its timer starts again, the flyer's position and grounded flag become the report's, and the frame leaves the list. A lawful airborne report changes nothing else but the arbiter's turn; a grounded one frees the flyer's OVERRUN claims but the one its grant names, with EXPIRED, and the re-check follows where it freed one (R13, R15, R69, R71, R84, R108). The arbiter's turn is its service of this channel: the walk count goes up by one while the walk waits, else to 0, and to 0 too where a freed claim's entry was the head and its walk waited at the lookup port (R24, R46); that a walk the re-check begins again in place keeps the count is the model's reading (log 11). -/
def Obligations.LawfulReport : Prop :=
  ∀ (s : State) (c : Flyer) (x y z fl : Byte) (rest : List InFrame), Runs s → QueueLaw s → WalkLaw s →
    s.channels[c].inbound = .report x y z fl :: rest → s.grantsChannel c = true →
    judgeReport c (cellOf x y z) (fl.getLsbD 0) s = none →
    ∃ t, exec (.report c) s = .next t ∧
      ClaimFrame
        { s with
          channels := s.channels.set c
            { s.channels[c] with
              state := if s.channels[c].state = .lost then .lost else .live
              timer := some 0
              inbound := rest }
          flyers := s.flyers.set c { s.flyers[c] with position := some (cellOf x y z), grounded := fl.getLsbD 0 } } t ∧
      t.arbiter.lastServed = c ∧
      CountKept s t (if s.walkWaiting = true then s.arbiter.walkCount + 1 else 0) t.arbiter.walkCount ∧
      FlagsRaised 0 s t ∧ (OverlapLaw s → OverlapsJudged none s t) ∧ QueueFollows s t ∧
      (∀ j : Slot, t.slots[j].gen = s.slots[j].gen) ∧
      (fl.getLsbD 0 = false → t.attention = s.attention ∧ t.slots = s.slots ∧ t.admission = s.admission ∧
        t.lines = s.lines ∧ t.arbiter.walkCount = if s.walkWaiting = true then s.arbiter.walkCount + 1 else 0) ∧
      (fl.getLsbD 0 = true → ∀ (j : Slot), groundsTo c (s.claimAt j) (t.claimAt j) ∧
        ∀ d : Claim, s.claimAt j = some d → d.flyer = c → d.state = .overrun →
          ((∃ g, s.grantOf c = some g ∧ g.claim = s.handleAt j) → t.claimAt j = some d) ∧
          ((∀ g, s.grantOf c = some g → g.claim ≠ s.handleAt j) → t.claimAt j = none))

/-- A REPORT that is a breach: beside the report's own storage, the grant is removed with BREACH, the flyer's ACTIVE and OVERRUN claims go HELD BREACH, the breach record takes the breach, an alert is recorded, and nothing else changes; INTRUDE alone then pushes BREACH on the hold list, as every push (R16, R112, R113, R115, R118, R119, R171). The arbiter's turn is its service of this channel (R24), and that the walk of a claim so held, begun again in place (R45), keeps the count is the model's reading (log 11). -/
def Obligations.BreachResponse : Prop :=
  ∀ (s : State) (c : Flyer) (x y z fl : Byte) (rest : List InFrame) (kind : BreachKind), Runs s → QueueLaw s → WalkLaw s →
    AttentionLaw s → s.channels[c].inbound = .report x y z fl :: rest → s.grantsChannel c = true →
    judgeReport c (cellOf x y z) (fl.getLsbD 0) s = some kind →
    ∃ u t, exec (.report c) s = .next t ∧ BreachedFrom s u c rest { kind := kind, tick := s.now, cell := cellOf x y z } ∧
      (kind ≠ .intrude → t = u) ∧ (kind = .intrude → Pushed u t .breach)

/-! ## The hold list -/

/-- HOLD pushes SHOW or CREW by its select, an assertion of STOP pushes STOP and records a STOP alert whether or not the list changed, and an assertion of RING pushes RING; the first entry removes every grant with HOLD, frees the OVERRUN claims of each grounded flyer that held one, and freezes a RUNNING clock. A line already asserted makes no event, one that changes while the part does not run is only followed, and a deassertion changes nothing but the level (R118, R119, R121, R122). That a level is followed in every supply state is the model's reading (log 14). The port's turn is kept, but for the walk count, which goes to 0 where the head entry is withdrawn while its walk waits at the lookup port (R24, R46); that a walk begun again in place keeps the count is the model's reading (log 11). -/
def Obligations.HoldsArePushed : Prop :=
  ∀ s : State,
    (Runs s → QueueLaw s → WalkLaw s → AttentionLaw s →
      (∀ sel, Awaits s sel .hold → ∃ t, exec .hold s = .next t ∧
        Pushed (answered s sel .ok) t (if sel = .showSel then .showHold else .crewHold)) ∧
      (s.inputs.stop = false → ∃ t, exec .stopAssertion s = .next t ∧
        Pushed { s with inputs := { s.inputs with stop := true }
                        alert := alertAfter s.alert { cause := .stop, tick := s.now }
                        lines := { s.lines with alert := .high } } t .stop) ∧
      (s.inputs.ring = false → ∃ t, exec .ringAssertion s = .next t ∧
        Pushed { s with inputs := { s.inputs with ring := true } } t .ring)) ∧
    (s.inputs.stop = true → exec .stopAssertion s = .next s) ∧
    (s.inputs.ring = true → exec .ringAssertion s = .next s) ∧
    (¬ Runs s → exec .stopAssertion s = .next { s with inputs := { s.inputs with stop := true } } ∧
      exec .ringAssertion s = .next { s with inputs := { s.inputs with ring := true } }) ∧
    exec .stopDeassertion s = .next { s with inputs := { s.inputs with stop := false } } ∧
    exec .ringDeassertion s = .next { s with inputs := { s.inputs with ring := false } }

/-- RELEASE is judged in the order of R125: BAD_OPERAND, PRIVILEGE for the crew on a source that is not its own, WRONG_STATE for an absent source, NOT_CLEAR where the line stands asserted or a breach record carries the intrusion flag; else the entry leaves the list, the others keep their order, HOLDS_CHANGED is raised, and an emptied list starts a FROZEN clock (R125, R126, R127). -/
def Obligations.ReleaseRemoves : Prop :=
  ∀ (s : State) (sel : Select) (b : Byte), Awaits s sel .release →
    (5 < b.toNat → exec (.release b) s = .next (answered s sel .badOperand)) ∧
    ∀ src : HoldSource, b.toNat = holdSourceCode src →
      (sel = .crewSel → src ≠ .crewHold → src ≠ .ring → exec (.release b) s = .next (answered s sel .privilege)) ∧
      ((sel = .showSel ∨ src = .crewHold ∨ src = .ring) →
        ((∀ h ∈ s.holds, h.source ≠ src) → exec (.release b) s = .next (answered s sel .wrongState)) ∧
        ((∃ h ∈ s.holds, h.source = src) →
          (((src = .ring ∧ s.inputs.ring = true) ∨ (src = .stop ∧ s.inputs.stop = true) ∨
              (src = .breach ∧ ∃ (f : Flyer) (r : BreachRec), s.flyers[f].breach = some r ∧ r.intrusion = true)) →
            exec (.release b) s = .next (answered s sel .notClear)) ∧
          ((src = .ring → s.inputs.ring = false) → (src = .stop → s.inputs.stop = false) →
            (src = .breach → ∀ (f : Flyer) (r : BreachRec), s.flyers[f].breach = some r → r.intrusion = false) →
            ∃ t, exec (.release b) s = .next t ∧
              t = { answered s sel .ok with
                    holds := s.holds.filter (fun h => decide (h.source ≠ src))
                    clock := { s.clock with run :=
                      if (∀ h ∈ s.holds, h.source = src) ∧ s.clock.run = .frozen then .running else s.clock.run }
                    attention := raisedBy 0x040 s.attention
                    lines := { s.lines with attn := attnLevel t, alert := alertLevel s } })))

/-! ## The show clock -/

/-- A tick source event of the source in use on a RUNNING clock advances the count by one and moves the windows, ENDED at the top; on any other clock it only acts on the source: the period goes on, a pulse restarts the watch, and the first pulse of a pending request completes the switch. A pulse with INTERNAL in use and no request changes nothing, and while the part does not run neither event does (R134, R136, R137, R139, R176, R179). That this holds in OFF too is the model's choice (log 9). That a completion lets the time still left of its period pass, and keeps the remainder when taken late, is the model's choice (logs 3 and 19). The port's turn is kept, but for the walk count, which goes to 0 where the head entry is withdrawn while its walk waits at the lookup port (R24, R46); that a walk begun again in place keeps the count is the model's reading (log 11). -/
def Obligations.TickSourceEvents : Prop :=
  (∀ s : State, ¬ Runs s → exec .internalPeriodCompletion s = .next s ∧ exec .extTickPulse s = .next s) ∧
  ∀ (s u : State) (i : Instr), Runs s →
    ((∃ n, i = .internalPeriodCompletion ∧ s.clock.period = some n ∧ s.clock.source = .internal ∧
        u = { elapse (10000 - n) s with clock := { (elapse (10000 - n) s).clock with period := some (n - 10000) } }) ∨
     (i = .extTickPulse ∧ s.clock.source = .external ∧ u = { s with clock := { s.clock with pulseWatch := some 0 } }) ∨
     (i = .extTickPulse ∧ s.clock.source = .internal ∧ s.clock.request ≠ none ∧
        u = { s with clock := { s.clock with request := none, source := .external, pulseWatch := some 0 } }) →
      (s.clock.run ≠ .running → exec i s = .next u) ∧
      (s.clock.run = .running → QueueLaw s → OverlapLaw s → ∃ t, exec i s = .next t ∧
        GrantFrame { u with clock := t.clock } t ∧
        t.clock = { u.clock with count := s.clock.count + 1
                                 run := if 16777215 ≤ s.clock.count + 1 then .ended else .running } ∧
        WindowsMoved false { u with clock := { u.clock with count := s.clock.count + 1 } } t)) ∧
    (∀ n, s.clock.period = some n → s.clock.source = .external → u = elapse (10000 - n) s →
      exec .internalPeriodCompletion s = .next { u with clock := { u.clock with period := some (n - 10000) } }) ∧
    (s.clock.source = .internal → s.clock.request = none → exec .extTickPulse s = .next s)

/-- SET_SOURCE answers BAD_OPERAND for an operand that names neither source, and OK in every case of its table: it records or renews a request, withdraws it, or returns to INTERNAL at once with the pulse watch discarded, and raises no flag; the crew is answered PRIVILEGE. -/
def Obligations.SetSource : Prop :=
  ∀ (s : State) (b : Byte),
    (Awaits s .crewSel .setSource → exec (.setSource b) s = .next (answered s .crewSel .privilege)) ∧
    (Awaits s .showSel .setSource →
      (1 < b.toNat → exec (.setSource b) s = .next (answered s .showSel .badOperand)) ∧
      (b.toNat = 1 → s.clock.source = .internal → exec (.setSource b) s =
        .next { answered s .showSel .ok with clock := { s.clock with request := some 0 } }) ∧
      (b.toNat = 1 → s.clock.source = .external → exec (.setSource b) s = .next (answered s .showSel .ok)) ∧
      (b.toNat = 0 → s.clock.source = .internal → exec (.setSource b) s =
        .next { answered s .showSel .ok with clock := { s.clock with request := none } }) ∧
      (b.toNat = 0 → s.clock.source = .external → exec (.setSource b) s =
        .next { answered s .showSel .ok with clock := { s.clock with source := .internal, pulseWatch := none } }))

/-- The pulse watch at 30 ms returns the source to INTERNAL and raises CLOCK_FALLBACK; a request at 50 ms is removed and SOURCE_ABANDONED is raised, the source staying; without a watch or a request, or while the part does not run, nothing changes (R137, R139, R176, R179). That this holds in OFF too is the model's choice (log 9). That an expiry lets the time still left pass, or is taken late, is the model's choice (log 3). -/
def Obligations.SourceExpiries : Prop :=
  (∀ s : State, ¬ Runs s → exec .pulseWatchExpiry s = .next s ∧ exec .abandonment s = .next s) ∧
  ∀ s : State, Runs s →
    (∀ (n : Nat) (u : State), s.clock.source = .external → s.clock.pulseWatch = some n → u = elapse (30000 - n) s →
      ∃ t, exec .pulseWatchExpiry s = .next t ∧
        t = { u with
              clock := { u.clock with source := .internal, pulseWatch := none }
              attention := raisedBy 0x080 s.attention
              lines := { s.lines with attn := attnLevel t, alert := alertLevel s } }) ∧
    ((s.clock.source = .internal ∨ s.clock.pulseWatch = none) → exec .pulseWatchExpiry s = .next s) ∧
    (∀ (n : Nat) (u : State), s.clock.request = some n → u = elapse (50000 - n) s →
      ∃ t, exec .abandonment s = .next t ∧
        t = { u with
              clock := { u.clock with request := none }
              attention := raisedBy 0x100 s.attention
              lines := { s.lines with attn := attnLevel t, alert := alertLevel s } }) ∧
    (s.clock.request = none → exec .abandonment s = .next s)

/-- SET_CLOCK and SKIP: BAD_OPERAND outside 0 to 16,777,214 and 1 to 360,000; WRONG_STATE unless the clock is VOID, respectively FROZEN; else the count is loaded, RUNNING or FROZEN by the hold list, or advanced and saturated, ENDED at the top, and the windows move once for the new count (R140, R141, R142). That the operand is judged before the run state is the model's choice (log 27). The port's turn is kept, but for the walk count, which goes to 0 where the head entry is withdrawn while its walk waits at the lookup port (R24, R46); that a walk begun again in place keeps the count is the model's reading (log 11). -/
def Obligations.LoadAndSkip : Prop :=
  ∀ (s : State) (v : Word24),
    (Awaits s .showSel .setClock →
      (16777215 ≤ v.toNat → exec (.setClock v) s = .next (answered s .showSel .badOperand)) ∧
      (v.toNat < 16777215 → s.clock.run ≠ .void → exec (.setClock v) s = .next (answered s .showSel .wrongState)) ∧
      (v.toNat < 16777215 → s.clock.run = .void → QueueLaw s → OverlapLaw s → ∃ t, exec (.setClock v) s = .next t ∧
        GrantFrame { answered s .showSel .ok with clock := t.clock } t ∧
        t.clock = { s.clock with count := v.toNat, run := if s.holds = [] then .running else .frozen } ∧
        WindowsMoved true { s with clock := t.clock } t)) ∧
    (Awaits s .showSel .skip →
      ((v.toNat = 0 ∨ 360000 < v.toNat) → exec (.skip v) s = .next (answered s .showSel .badOperand)) ∧
      (1 ≤ v.toNat → v.toNat ≤ 360000 → s.clock.run ≠ .frozen →
        exec (.skip v) s = .next (answered s .showSel .wrongState)) ∧
      (1 ≤ v.toNat → v.toNat ≤ 360000 → s.clock.run = .frozen → QueueLaw s → OverlapLaw s →
        ∃ t, exec (.skip v) s = .next t ∧
          GrantFrame { answered s .showSel .ok with clock := t.clock } t ∧
          t.clock = { s.clock with count := min (s.clock.count + v.toNat) 16777215
                                   run := if 16777215 ≤ s.clock.count + v.toNat then .ended else .frozen } ∧
          WindowsMoved true { s with clock := { s.clock with count := t.clock.count } } t))

/-! ## Cue templates -/

/-- LOAD_TEMPLATE writes the way of its own cue with its lock kept, else the lowest invalid way, else the first unlocked way from the victim on, an eviction that records the cue and raises TEMPLATE_EVICTED; else it is answered SET_LOCKED with no effect. The way written is accessed, and no other way or set changes.
An access points the root away from the way's pair and the pair's choice at its other way (R148, R149, R150). -/
def Obligations.LoadTemplate : Prop :=
  (∀ (s : State) (cue : Word16) (fb : Byte) (box : BoxBytes) (off dur : Word16), Awaits s .showSel .loadTemplate →
    ((4095 < cue.toNat ∨ fb.toNat = 0 ∨ 8 < fb.toNat ∨ (boxOfBytes box).wf = false) →
      exec (.loadTemplate cue fb box off dur) s = .next (answered s .showSel .badOperand)) ∧
    ∀ (f : Flyer) (k : Fin 16) (set : TemplateSet) (x : Template), cue.toNat ≤ 4095 → fb.toNat = flyerNumber f →
      (boxOfBytes box).wf = true → k.val = cue.toNat % 16 → set = s.templates.sets[k] →
      x = { cue := cue.toNat, flyer := f, box := boxOfBytes box, offset := off.toNat, duration := dur.toNat, locked := false } →
      (∀ (w : Fin 4) (old : Template), set.ways[w] = some old → old.cue = cue.toNat →
        (∀ v : Fin 4, v < w → ∀ o, set.ways[v] = some o → o.cue ≠ cue.toNat) →
        exec (.loadTemplate cue fb box off dur) s = .next { answered s .showSel .ok with templates :=
          { s.templates with sets := (s.templates.sets.set k
            (TemplateSet.access { set with ways := set.ways.set w (some { x with locked := old.locked }) } w)) } }) ∧
      ((∀ (v : Fin 4) (o : Template), set.ways[v] = some o → o.cue ≠ cue.toNat) →
        (∀ w : Fin 4, set.ways[w] = none → (∀ v : Fin 4, v < w → set.ways[v] ≠ none) →
          exec (.loadTemplate cue fb box off dur) s = .next { answered s .showSel .ok with templates :=
            { s.templates with sets := (s.templates.sets.set k
              (TemplateSet.access { set with ways := set.ways.set w (some x) } w)) } }) ∧
        ((∀ v : Fin 4, set.ways[v] ≠ none) →
          ((∀ (v : Fin 4) (o : Template), set.ways[v] = some o → o.locked = true) →
            exec (.loadTemplate cue fb box off dur) s = .next (answered s .showSel .setLocked)) ∧
          (∀ (n w : Fin 4) (old : Template), w = set.victim + n → set.ways[w] = some old → old.locked = false →
            (∀ m : Fin 4, m < n → ∀ o, set.ways[set.victim + m] = some o → o.locked = true) →
            ∃ t, exec (.loadTemplate cue fb box off dur) s = .next t ∧
              t = { answered s .showSel .ok with
                    templates :=
                      { sets := (s.templates.sets.set k
                          (TemplateSet.access { set with ways := set.ways.set w (some x) } w))
                        lastEvicted := some old.cue }
                    attention := raisedBy 0x200 s.attention
                    lines := { s.lines with attn := attnLevel t, alert := alertLevel s } })))) ∧
  (∀ (set : TemplateSet) (w : Fin 4),
    (set.access w).ways = set.ways ∧ (set.access w).root = (if w.val < 2 then .high else .low) ∧
    (set.access w).lowChoice = (if w.val < 2 then decide (w.val = 0) else set.lowChoice) ∧
    (set.access w).highChoice = (if w.val < 2 then set.highChoice else decide (w.val = 2)) ∧
    (set.access w).victim.val / 2 ≠ w.val / 2)

/-- DROP_TEMPLATE, LOCK_TEMPLATE and UNLOCK_TEMPLATE: BAD_OPERAND for a cue above 4095, NO_TEMPLATE on a miss, and WRONG_STATE for a drop of a locked template, with no effect; else the way goes invalid, or its locked field is set or cleared, answered OK, and the tree and all else stay. -/
def Obligations.DropLockUnlock : Prop :=
  ∀ (s : State) (cue : Word16),
    (4095 < cue.toNat →
      (Awaits s .showSel .dropTemplate → exec (.dropTemplate cue) s = .next (answered s .showSel .badOperand)) ∧
      (Awaits s .showSel .lockTemplate → exec (.lockTemplate cue) s = .next (answered s .showSel .badOperand)) ∧
      (Awaits s .showSel .unlockTemplate → exec (.unlockTemplate cue) s = .next (answered s .showSel .badOperand))) ∧
    ∀ k : Fin 16, cue.toNat ≤ 4095 → k.val = cue.toNat % 16 →
      ((∀ (v : Fin 4) (o : Template), s.templates.sets[k].ways[v] = some o → o.cue ≠ cue.toNat) →
        (Awaits s .showSel .dropTemplate → exec (.dropTemplate cue) s = .next (answered s .showSel .noTemplate)) ∧
        (Awaits s .showSel .lockTemplate → exec (.lockTemplate cue) s = .next (answered s .showSel .noTemplate)) ∧
        (Awaits s .showSel .unlockTemplate → exec (.unlockTemplate cue) s = .next (answered s .showSel .noTemplate))) ∧
      (∀ (w : Fin 4) (x : Template), s.templates.sets[k].ways[w] = some x → x.cue = cue.toNat →
        (∀ v : Fin 4, v < w → ∀ o, s.templates.sets[k].ways[v] = some o → o.cue ≠ cue.toNat) →
        (Awaits s .showSel .dropTemplate →
          (x.locked = true → exec (.dropTemplate cue) s = .next (answered s .showSel .wrongState)) ∧
          (x.locked = false → exec (.dropTemplate cue) s = .next { answered s .showSel .ok with templates :=
            { s.templates with sets := (s.templates.sets.set k
              { s.templates.sets[k] with ways := s.templates.sets[k].ways.set w none }) } })) ∧
        (Awaits s .showSel .lockTemplate → exec (.lockTemplate cue) s = .next { answered s .showSel .ok with templates :=
          { s.templates with sets := (s.templates.sets.set k
            { s.templates.sets[k] with ways := s.templates.sets[k].ways.set w (some { x with locked := true }) }) } }) ∧
        (Awaits s .showSel .unlockTemplate → exec (.unlockTemplate cue) s = .next { answered s .showSel .ok with templates :=
          { s.templates with sets := (s.templates.sets.set k
            { s.templates.sets[k] with ways := s.templates.sets[k].ways.set w (some { x with locked := false }) }) } }))

/-- FIRE judges its tests in the order of R153, with no effect on a refusal; a FIRE that passes books the template's flyer and box from now plus its offset, with the cue, in the lowest FREE slot, appends the BOOK entry, accesses the way, and answers QUEUED with the handle. -/
def Obligations.Fire : Prop :=
  ∀ (s : State) (cue : Word16), Awaits s .showSel .fire →
    (4095 < cue.toNat → exec (.fire cue) s = .next (answered s .showSel .badOperand)) ∧
    ∀ k : Fin 16, cue.toNat ≤ 4095 → k.val = cue.toNat % 16 →
      ((∀ (v : Fin 4) (o : Template), s.templates.sets[k].ways[v] = some o → o.cue ≠ cue.toNat) →
        exec (.fire cue) s = .next (answered s .showSel .noTemplate)) ∧
      (∀ (w : Fin 4) (x : Template) (start : Nat) (e : Option Nat), s.templates.sets[k].ways[w] = some x → x.cue = cue.toNat →
        (∀ v : Fin 4, v < w → ∀ o, s.templates.sets[k].ways[v] = some o → o.cue ≠ cue.toNat) →
        start = s.clock.count + x.offset → e = (if x.duration = 0 then none else some (start + x.duration)) →
        (s.clock.run = .void → exec (.fire cue) s = .next (answered s .showSel .clockVoid)) ∧
        (s.clock.run ≠ .void →
          ((16777215 < start ∨ ∃ n, e = some n ∧ 16777215 < n) →
            exec (.fire cue) s = .next (answered s .showSel .wrongState)) ∧
          (start ≤ 16777215 → (∀ n, e = some n → n ≤ 16777215) →
            (8 ≤ s.admission.queue.length → exec (.fire cue) s = .next (answered s .showSel .queueFull)) ∧
            (s.admission.queue.length < 8 → (∀ j : Slot, s.claimAt j ≠ none) →
              exec (.fire cue) s = .next (answered s .showSel .tableFull)) ∧
            (s.admission.queue.length < 8 → QueueLaw s → ∀ (i : Slot) (h : Handle), s.claimAt i = none →
              (∀ j : Slot, j < i → s.claimAt j ≠ none) → h = { slot := i, gen := s.slots[i].gen + 1 } →
              ∃ t, exec (.fire cue) s = .next t ∧
                ClaimFrame
                  { s.setTx .showSel (.response .queued (some h.byte)) with templates :=
                    { s.templates with sets := s.templates.sets.set k (s.templates.sets[k].access w) } } t ∧
                t.slots[i] = { gen := s.slots[i].gen + 1
                               claim := some { flyer := x.flyer, box := x.box, start := start, stop := e
                                               state := if s.admission.queue = [] ∧ s.admission.walk = none then .checking
                                                        else .queued
                                               cue := some x.cue, amend := none, verdict := none } } ∧
                (∀ j : Slot, j ≠ i → t.slots[j].gen = s.slots[j].gen ∧ closesTo (s.claimAt j) (t.claimAt j)) ∧
                t.admission.queue = s.admission.queue ++ [.book h] ∧ t.attention = s.attention ∧ t.arbiter = s.arbiter))))

/-! ## Supply, RESET, cold start -/

/-- BACKUP_ENTRY on MAIN with the cell present halts every block in one event: the channels are quiet with their states kept, the outputs low, the flags and the alert record retained, and the supply record takes the entry.
RETURN_OF_MAIN restarts every block: channels CLOSED, a RESTART alert, the flags cleared but SUPPLY_RETURNED, the record takes the return; with RESET deasserted the part runs, exactly STOP and then RING are pushed of the lines that stand asserted and have no entry, the timers begin, and the head, of whatever kind, is walked from slot 0 (R49, R93, R123, R170, R172, R175, R177, R181). That the lines' levels are followed meanwhile is the model's reading (log 14). -/
def Obligations.BackupAndReturn : Prop :=
  ∀ s : State, QueueLaw s →
    (s.supply.state = .main → s.supply.backupPresent = true → ∃ t, exec .backupEntry s = .next t ∧
      HaltedFrom false s t ∧
      (∀ c : Flyer, t.channels[c] =
        { state := s.channels[c].state, timer := none, inbound := [], out := [], rx := .hunting }) ∧
      t.clock.pulseWatch = none ∧ t.clock.period = none ∧
      t.attention.flags = s.attention.flags ∧ t.alert = s.alert ∧ t.inputs = s.inputs ∧
      t.lines.attn = .low ∧ t.lines.alert = .low ∧
      t.supply = { s.supply with state := .backup
                                 firstEntry := if s.supply.firstEntry = none then some s.now else s.supply.firstEntry
                                 count := if s.supply.count < 255 then s.supply.count + 1 else s.supply.count }) ∧
    (s.supply.state = .backup → ∃ t, exec .returnOfMain s = .next t ∧
      HaltedFrom (!s.inputs.reset) s t ∧
      (∀ c : Flyer, t.channels[c] = { state := .closed, timer := none, inbound := [], out := [], rx := .hunting }) ∧
      t.attention.flags = 0x400 ∧ t.inputs = s.inputs ∧
      t.supply = { s.supply with state := .main, latestReturn := some s.now } ∧
      (s.inputs.reset = true → t.clock.period = none ∧ t.clock.pulseWatch = none ∧
        t.alert = alertAfter s.alert { cause := .restart, tick := s.now } ∧ t.lines.attn = .low ∧ t.lines.alert = .low) ∧
      (s.inputs.reset = false → t.clock.period = some 0 ∧
        t.clock.pulseWatch = (if s.clock.source = .external then some 0 else none) ∧
        t.alert = (if s.inputs.stop = true
          then alertAfter (alertAfter s.alert { cause := .restart, tick := s.now }) { cause := .stop, tick := s.now }
          else alertAfter s.alert { cause := .restart, tick := s.now }) ∧
        (t.lines.attn = .high ↔ s.attention.enables.getLsbD 10 = true) ∧ t.lines.alert = .high))

/-- RESET_ASSERTION on MAIN is a restart with the outputs held low, the supply record unchanged, and nothing begun; RESET_DEASSERTION on MAIN records no alert of its own and clears no flag: the timers begin, exactly STOP and then RING are pushed of the lines that stand asserted and have no entry, and the head, of whatever kind, is walked from slot 0, a BOOK's claim CHECKING (R49, R123). Off MAIN only the level changes, and a level that is already so is no event (R176, R179). That the levels are followed off MAIN is the model's reading (log 14), and that its sampling may raise HOLDS_CHANGED (log 8), of which this says only that no other flag changes. -/
def Obligations.ResetHolds : Prop :=
  ∀ s : State,
    (s.inputs.reset = true → exec .resetAssertion s = .next s) ∧
    (s.inputs.reset = false → exec .resetDeassertion s = .next s) ∧
    (s.supply.state ≠ .main → AttentionLaw s →
      exec .resetAssertion s = .next { s with inputs := { s.inputs with reset := true } } ∧
      exec .resetDeassertion s = .next { s with inputs := { s.inputs with reset := false } }) ∧
    (s.supply.state = .main → s.inputs.reset = false → QueueLaw s → ∃ t, exec .resetAssertion s = .next t ∧
      HaltedFrom false s t ∧
      (∀ c : Flyer, t.channels[c] = { state := .closed, timer := none, inbound := [], out := [], rx := .hunting }) ∧
      t.clock.pulseWatch = none ∧ t.clock.period = none ∧ t.attention.flags = 0x400 ∧
      t.alert = alertAfter s.alert { cause := .restart, tick := s.now } ∧
      t.inputs = { s.inputs with reset := true } ∧ t.supply = s.supply ∧ t.lines.attn = .low ∧ t.lines.alert = .low) ∧
    (s.supply.state = .main → s.inputs.reset = true → QueueLaw s → WalkLaw s → GrantsOnlyFree s →
      ∃ t, exec .resetDeassertion s = .next t ∧
      ClaimFrame
        { s with
          inputs := { s.inputs with reset := false }
          holds := t.holds
          alert := t.alert
          clock := { s.clock with run := t.clock.run, period := some 0
                                  pulseWatch := if s.clock.source = .external then some 0 else none } } t ∧
      t.clock.run = (if s.clock.run = .running ∧ s.holds = [] ∧ t.holds ≠ [] then .frozen else s.clock.run) ∧
      (∀ j : Slot, t.slots[j].gen = s.slots[j].gen ∧
        ((s.admission.queue.head? ≠ some (.book (s.handleAt j)) ∨ s.claimAt j = none) → t.claimAt j = s.claimAt j) ∧
        ∀ c, s.admission.queue.head? = some (.book (s.handleAt j)) → s.claimAt j = some c →
          t.claimAt j = some { c with state := .checking }) ∧
      t.admission.queue = s.admission.queue ∧ HeadWalked t ∧ t.arbiter = s.arbiter ∧
      t.holds = s.holds ++ sampledHolds s ∧
      t.alert = (if s.inputs.stop = true then alertAfter s.alert { cause := .stop, tick := s.now } else s.alert) ∧
      (t.attention = s.attention ∨ (t.holds ≠ s.holds ∧ t.attention = raisedBy 0x040 s.attention)))

/-- COLD_START from OFF sets every cold start value, the levels of the lines and the cell's presence as they stand, with STOP and RING sampled at once, or, with RESET asserted, left to its deassertion; MAIN_FALLS_WITHOUT_BACKUP, and the loss of the cell on BACKUP, take the part OFF with its outputs unpowered; any other change of the cell's presence is only followed (R174, R178, R180). What the state holds while OFF is the model's choice (log 9), and that two rows share one rule its reading (log 18). -/
def Obligations.PowerLossAndColdStart : Prop :=
  ∀ s : State,
    (s.supply.state = .off → ∃ t, exec .coldStart s = .next t ∧
      t = { coldState s.inputs s.supply.backupPresent s.pending with
            holds := t.holds, alert := t.alert, clock := t.clock, lines := t.lines } ∧
      t.clock = { (coldState s.inputs s.supply.backupPresent s.pending).clock with
                  period := if s.inputs.reset = true then none else some 0 } ∧
      (∀ w : Winch, t.lines.permit[w] = .low) ∧ t.lines.attn = .low ∧
      (t.lines.alert = .high ↔ s.inputs.reset = false) ∧
      t.holds = [{ source := .restart, tick := 0 }]
        ++ (if s.inputs.reset = false ∧ s.inputs.stop = true then [{ source := .stop, tick := 0 }] else [])
        ++ (if s.inputs.reset = false ∧ s.inputs.ring = true then [{ source := .ring, tick := 0 }] else []) ∧
      t.alert.first = some { cause := .restart, tick := 0 } ∧
      (s.inputs.reset = false ∧ s.inputs.stop = true →
        t.alert.count = 2 ∧ t.alert.latest = some { cause := .stop, tick := 0 }) ∧
      (s.inputs.reset = true ∨ s.inputs.stop = false →
        t.alert.count = 1 ∧ t.alert.latest = some { cause := .restart, tick := 0 })) ∧
    (∀ i, ((i = .mainFallsWithoutBackup ∧ s.supply.state = .main ∧ s.supply.backupPresent = false) ∨
        ((i = .cellBecomesAbsent ∨ i = .backupPresenceChange false) ∧ s.supply.state = .backup)) →
      ∃ t, exec i s = .next t ∧ t.supply.state = .off ∧ t.supply.backupPresent = false ∧
        t.lines = { permit := Vector.replicate 16 .unpowered, attn := .unpowered, alert := .unpowered } ∧
        t.inputs = s.inputs ∧ t.pending = s.pending ∧
        exec .coldStart t = exec .coldStart { s with supply := { s.supply with state := .off, backupPresent := false } }) ∧
    (s.supply.state ≠ .backup →
      exec .cellBecomesAbsent s = .next { s with supply := { s.supply with backupPresent := false } } ∧
      exec (.backupPresenceChange false) s = .next { s with supply := { s.supply with backupPresent := false } }) ∧
    exec (.backupPresenceChange true) s = .next { s with supply := { s.supply with backupPresent := true } }

/-! ## The wire -/

/-- Every console command, with every operand, is read back from the bytes that spell it, and those bytes are its command byte and as many operand bytes as its command has (R183, R186). -/
def Obligations.CommandEncoding : Prop :=
  ∀ (i : Instr) (bytes : List Byte), encodeCommand i = some bytes →
    decodeCommand bytes = some i ∧
    ∃ (c : Command) (ops : List Byte), i.command = some (c, ops) ∧ bytes = c.code :: ops ∧ ops.length = c.operandBytes

/-- Every frame is read back from its kind and payload bytes, every byte list that is read as a frame is that frame's, and the computation over kind, payload and check byte together gives 0, while any other check byte does not (R78, R79, R185).
The frames the part sends are, byte for byte, the sync byte, the kind, the payload and the check of both, each reason by its code (R81, R185). -/
def Obligations.FrameEncoding : Prop :=
  (∀ f : InFrame, decodeFrame f.body = some f ∧
    (∀ bytes : List Byte, decodeFrame bytes = some f → bytes = f.body) ∧
    ∀ b : Byte, crc8 (f.body ++ [b]) = 0 ↔ b = f.check) ∧
  (∀ (o : OutFrame) (body : List Byte),
    ((∃ id, o = .welcome id ∧ body = [0x81, BitVec.ofNat 8 id, 25]) ∨
     (∃ seq target, o = .grant seq target .travel ∧
        body = [0x82, BitVec.ofNat 8 seq, BitVec.ofNat 8 target.x, BitVec.ofNat 8 target.y, BitVec.ofNat 8 target.z, 0]) ∨
     (∃ seq target, o = .grant seq target .descent ∧
        body = [0x82, BitVec.ofNat 8 seq, BitVec.ofNat 8 target.x, BitVec.ofNat 8 target.y, BitVec.ofNat 8 target.z, 1]) ∨
     (∃ reason, o = .deny reason ∧ body = [0x83, reasonCode reason]) ∨
     (∃ seq reason, o = .revoke seq reason ∧ body = [0x84, BitVec.ofNat 8 seq, reasonCode reason])) →
    o.bytes = 0xA5 :: body ++ [crc8 body]) ∧
  reasonCode .mismatch = 0x01 ∧ reasonCode .badTarget = 0x02 ∧ reasonCode .held = 0x03 ∧ reasonCode .notLive = 0x04 ∧
  reasonCode .late = 0x05 ∧ reasonCode .lost = 0x06 ∧ reasonCode .breached = 0x07 ∧ reasonCode .unbound = 0x08 ∧
  reasonCode .noClaim = 0x09 ∧ reasonCode .descentOnly = 0x0A ∧ reasonCode .expired = 0x10 ∧ reasonCode .hold = 0x11 ∧
  reasonCode .breach = 0x12 ∧ reasonCode .claimHeld = 0x13 ∧ reasonCode .amended = 0x14

/-! ## What every step keeps -/

/-- Every step keeps at most one entry of each source in the hold list, and the run state in step with the count and the list: VOID at 0, RUNNING on an empty list, FROZEN on a non-empty one, ENDED at the top (R117, R133); and at most one transaction open, on a select that is low, and none while the part does not run (R157, R173). -/
def Obligations.HoldsClockAndConsoleKept : Prop :=
  (∀ s t : State, HoldLaw s → ClockLaw s → step s = .next t → HoldLaw t ∧ ClockLaw t) ∧
  ∀ s t : State, ConsoleLaw s → step s = .next t → ConsoleLaw t

/-- Every step keeps ATTN and ALERT at the levels of R167 and R172: asserted while some flag is both set and enabled, and while the alert count is above 0, and held low in RESET and on BACKUP; and keeps the alert record's fields present with its count, which stays at most 255 (R171). -/
def Obligations.AttentionKept : Prop :=
  (∀ s t : State, AttentionLaw s → AlertLaw s → step s = .next t → AttentionLaw t ∧ AlertLaw t) ∧
  ∀ s : State, AttentionLaw s →
    (Runs s →
      ((∃ k : Fin 11, s.attention.flags.getLsbD k = true ∧ s.attention.enables.getLsbD k = true) → s.lines.attn = .high) ∧
      ((∀ k : Fin 11, s.attention.flags.getLsbD k = false ∨ s.attention.enables.getLsbD k = false) → s.lines.attn = .low) ∧
      (0 < s.alert.count → s.lines.alert = .high) ∧ (s.alert.count = 0 → s.lines.alert = .low)) ∧
    (s.supply.state = .backup ∨ (s.supply.state = .main ∧ s.inputs.reset = true) →
      s.lines.attn = .low ∧ s.lines.alert = .low) ∧
    (s.supply.state = .off → s.lines.attn = .unpowered ∧ s.lines.alert = .unpowered)

/-- Every step keeps at most four winches bound to each flyer (R64); and each template in the set of its cue, with no cue in two ways of a set (R146, R147). -/
def Obligations.BindingsAndTemplatesKept : Prop :=
  (∀ s t : State, BindingLaw s → step s = .next t → BindingLaw t) ∧
  ∀ s t : State, TemplateLaw s → step s = .next t → TemplateLaw t

/-- Every step keeps each PERMIT line high exactly while its winch is bound to a flyer with a live grant, and live grants only while the part runs on MAIN with an empty hold list (R73, R120). -/
def Obligations.PermitsKept : Prop :=
  ∀ s t : State, PermitLaw s → GrantsOnlyFree s → step s = .next t → PermitLaw t ∧ GrantsOnlyFree t

/-- Every step keeps each channel's lists in their bounds, its report timer disarmed in CLOSED and OPEN, its receiver with no more than a frame of a known kind, and the arbiter's walk count at most 8 (R24, R79, R80, R82, R86, R90, R91); and each flyer without a position grounded, with a position on MAIN while its channel is LIVE or LATE (R63, R84). -/
def Obligations.ChannelsAndPositionsKept : Prop :=
  (∀ s t : State, ChannelLaw s → ArbiterLaw s → step s = .next t → ChannelLaw t ∧ ArbiterLaw t) ∧
  ∀ s t : State, PositionLaw s → step s = .next t → PositionLaw t

/-- Every step keeps each HELD OVERLAP claim unended, with its region overlapping the region of an overstaying claim of another flyer (R26); and a HELD OVERLAP claim goes ACTIVE in a step only where none then overlaps its region (R13, R40). -/
def Obligations.OverlapHoldsKept : Prop :=
  ∀ s t : State, OverlapLaw s → GrantsOnlyFree s → QueueLaw s → WalkLaw s → WalkSubjectLaw s → step s = .next t →
    OverlapLaw t ∧
    ∀ (j : Slot) (c d : Claim), s.claimAt j = some c → c.state = .held .overlap false → t.claimAt j = some d →
      d.state = .active → ¬ OverstayedIn t d.flyer d.region

/-- Every step keeps the admission queue as R27 gives it, its walk on its head, every CHECKING claim under that walk, and every live grant inside the box of a claim in force of its flyer, DESCENT when the claim is OVERRUN (R27, R28, R107); and where a step brings another entry to the head while the part runs, or lets the part run again, the head's walk begins from slot 0 (R28, R34, R35, R38, R49).
A step that leaves the entry in flight at the head, and is no walk access and no zone phase read, leaves its walk where it stands, with its candidate (R44, R46, R47, R48); but where the state or the ended mark of an AMEND entry's claim changed, its walk is begun again from slot 0, with its candidate formed afresh from the claim as it now stands (R45). -/
def Obligations.QueueAndGrantsKept : Prop :=
  ∀ s t : State,
    QueueLaw s → WalkLaw s → CheckingLaw s → WalkSubjectLaw s → GrantLaw s → GrantsOnlyFree s → LostLaw s →
    step s = .next t →
    QueueLaw t ∧ WalkLaw t ∧ CheckingLaw t ∧ WalkSubjectLaw t ∧ GrantLaw t ∧ GrantsOnlyFree t ∧ LostLaw t ∧
    (Runs t → (t.admission.queue.head? ≠ s.admission.queue.head? ∨ ¬ Runs s) → HeadWalked t) ∧
    (Runs t → s.pending.head? ≠ some .walkAccess → s.pending.head? ≠ some .zonePhaseRead → WalkGoesOn s t)

/-- Every step keeps every two claims of different flyers that are each ACTIVE or OVERRUN in regions that do not overlap (R25), and with it what that rests on: windows that fit their claims' states, disjoint windows where regions meet, and a walk in flight whose candidate is its subject's and stays clear of every claim it has read (R4, R5, R36, R44, R45). -/
def Obligations.InForceKept : Prop :=
  ∀ s t : State,
    InForceLaw s → WindowLaw s → DisjointLaw s → CandidateLaw s → ClaimsReadLaw s →
    OverlapLaw s → ClockLaw s → QueueLaw s → WalkLaw s → WalkSubjectLaw s → step s = .next t →
    InForceLaw t ∧ WindowLaw t ∧ DisjointLaw t ∧ CandidateLaw t ∧ ClaimsReadLaw t

/-- Every step keeps every SET zone's box clear of the region of every claim in BOOKED, ACTIVE, HELD or OVERRUN (R50), and with it every SET zone that a walk in flight has read clear of its candidate (R37, R47). -/
def Obligations.ZonesKept : Prop :=
  ∀ s t : State,
    ZoneLaw s → ZonesReadLaw s → CandidateLaw s → ClaimsReadLaw s → QueueLaw s → WalkLaw s → WalkSubjectLaw s →
    step s = .next t → ZoneLaw t ∧ ZonesReadLaw t
end

