-- ==== Sys2Proof/Laws/State.lean ====
section
/-! SUPPORT. What each one-field update of `State` leaves and writes: one lemma for each field, true by computation, so that no later proof unfolds a record update. -/

namespace Sys2Proof.Machine


/-! ## setSlot -/

@[simp] theorem setSlot_pending (s : State) (i : Slot) (r : SlotRec) : (s.setSlot i r).pending = s.pending := rfl
@[simp] theorem setSlot_slots (s : State) (i : Slot) (r : SlotRec) : (s.setSlot i r).slots = s.slots.set i r := rfl
@[simp] theorem setSlot_arbiter (s : State) (i : Slot) (r : SlotRec) : (s.setSlot i r).arbiter = s.arbiter := rfl
@[simp] theorem setSlot_admission (s : State) (i : Slot) (r : SlotRec) : (s.setSlot i r).admission = s.admission := rfl
@[simp] theorem setSlot_zones (s : State) (i : Slot) (r : SlotRec) : (s.setSlot i r).zones = s.zones := rfl
@[simp] theorem setSlot_protect (s : State) (i : Slot) (r : SlotRec) : (s.setSlot i r).protect = s.protect := rfl
@[simp] theorem setSlot_flyers (s : State) (i : Slot) (r : SlotRec) : (s.setSlot i r).flyers = s.flyers := rfl
@[simp] theorem setSlot_bindings (s : State) (i : Slot) (r : SlotRec) : (s.setSlot i r).bindings = s.bindings := rfl
@[simp] theorem setSlot_grants (s : State) (i : Slot) (r : SlotRec) : (s.setSlot i r).grants = s.grants := rfl
@[simp] theorem setSlot_channels (s : State) (i : Slot) (r : SlotRec) : (s.setSlot i r).channels = s.channels := rfl
@[simp] theorem setSlot_holds (s : State) (i : Slot) (r : SlotRec) : (s.setSlot i r).holds = s.holds := rfl
@[simp] theorem setSlot_clock (s : State) (i : Slot) (r : SlotRec) : (s.setSlot i r).clock = s.clock := rfl
@[simp] theorem setSlot_templates (s : State) (i : Slot) (r : SlotRec) : (s.setSlot i r).templates = s.templates := rfl
@[simp] theorem setSlot_attention (s : State) (i : Slot) (r : SlotRec) : (s.setSlot i r).attention = s.attention := rfl
@[simp] theorem setSlot_alert (s : State) (i : Slot) (r : SlotRec) : (s.setSlot i r).alert = s.alert := rfl
@[simp] theorem setSlot_supply (s : State) (i : Slot) (r : SlotRec) : (s.setSlot i r).supply = s.supply := rfl
@[simp] theorem setSlot_console (s : State) (i : Slot) (r : SlotRec) : (s.setSlot i r).console = s.console := rfl
@[simp] theorem setSlot_inputs (s : State) (i : Slot) (r : SlotRec) : (s.setSlot i r).inputs = s.inputs := rfl
@[simp] theorem setSlot_lines (s : State) (i : Slot) (r : SlotRec) : (s.setSlot i r).lines = s.lines := rfl

/-! ## setZone -/

@[simp] theorem setZone_pending (s : State) (z : Zone) (r : ZoneSlot) : (s.setZone z r).pending = s.pending := rfl
@[simp] theorem setZone_slots (s : State) (z : Zone) (r : ZoneSlot) : (s.setZone z r).slots = s.slots := rfl
@[simp] theorem setZone_arbiter (s : State) (z : Zone) (r : ZoneSlot) : (s.setZone z r).arbiter = s.arbiter := rfl
@[simp] theorem setZone_admission (s : State) (z : Zone) (r : ZoneSlot) : (s.setZone z r).admission = s.admission := rfl
@[simp] theorem setZone_zones (s : State) (z : Zone) (r : ZoneSlot) : (s.setZone z r).zones = s.zones.set z r := rfl
@[simp] theorem setZone_protect (s : State) (z : Zone) (r : ZoneSlot) : (s.setZone z r).protect = s.protect := rfl
@[simp] theorem setZone_flyers (s : State) (z : Zone) (r : ZoneSlot) : (s.setZone z r).flyers = s.flyers := rfl
@[simp] theorem setZone_bindings (s : State) (z : Zone) (r : ZoneSlot) : (s.setZone z r).bindings = s.bindings := rfl
@[simp] theorem setZone_grants (s : State) (z : Zone) (r : ZoneSlot) : (s.setZone z r).grants = s.grants := rfl
@[simp] theorem setZone_channels (s : State) (z : Zone) (r : ZoneSlot) : (s.setZone z r).channels = s.channels := rfl
@[simp] theorem setZone_holds (s : State) (z : Zone) (r : ZoneSlot) : (s.setZone z r).holds = s.holds := rfl
@[simp] theorem setZone_clock (s : State) (z : Zone) (r : ZoneSlot) : (s.setZone z r).clock = s.clock := rfl
@[simp] theorem setZone_templates (s : State) (z : Zone) (r : ZoneSlot) : (s.setZone z r).templates = s.templates := rfl
@[simp] theorem setZone_attention (s : State) (z : Zone) (r : ZoneSlot) : (s.setZone z r).attention = s.attention := rfl
@[simp] theorem setZone_alert (s : State) (z : Zone) (r : ZoneSlot) : (s.setZone z r).alert = s.alert := rfl
@[simp] theorem setZone_supply (s : State) (z : Zone) (r : ZoneSlot) : (s.setZone z r).supply = s.supply := rfl
@[simp] theorem setZone_console (s : State) (z : Zone) (r : ZoneSlot) : (s.setZone z r).console = s.console := rfl
@[simp] theorem setZone_inputs (s : State) (z : Zone) (r : ZoneSlot) : (s.setZone z r).inputs = s.inputs := rfl
@[simp] theorem setZone_lines (s : State) (z : Zone) (r : ZoneSlot) : (s.setZone z r).lines = s.lines := rfl

/-! ## setFlyer -/

@[simp] theorem setFlyer_pending (s : State) (f : Flyer) (r : FlyerRec) : (s.setFlyer f r).pending = s.pending := rfl
@[simp] theorem setFlyer_slots (s : State) (f : Flyer) (r : FlyerRec) : (s.setFlyer f r).slots = s.slots := rfl
@[simp] theorem setFlyer_arbiter (s : State) (f : Flyer) (r : FlyerRec) : (s.setFlyer f r).arbiter = s.arbiter := rfl
@[simp] theorem setFlyer_admission (s : State) (f : Flyer) (r : FlyerRec) : (s.setFlyer f r).admission = s.admission := rfl
@[simp] theorem setFlyer_zones (s : State) (f : Flyer) (r : FlyerRec) : (s.setFlyer f r).zones = s.zones := rfl
@[simp] theorem setFlyer_protect (s : State) (f : Flyer) (r : FlyerRec) : (s.setFlyer f r).protect = s.protect := rfl
@[simp] theorem setFlyer_flyers (s : State) (f : Flyer) (r : FlyerRec) : (s.setFlyer f r).flyers = s.flyers.set f r := rfl
@[simp] theorem setFlyer_bindings (s : State) (f : Flyer) (r : FlyerRec) : (s.setFlyer f r).bindings = s.bindings := rfl
@[simp] theorem setFlyer_grants (s : State) (f : Flyer) (r : FlyerRec) : (s.setFlyer f r).grants = s.grants := rfl
@[simp] theorem setFlyer_channels (s : State) (f : Flyer) (r : FlyerRec) : (s.setFlyer f r).channels = s.channels := rfl
@[simp] theorem setFlyer_holds (s : State) (f : Flyer) (r : FlyerRec) : (s.setFlyer f r).holds = s.holds := rfl
@[simp] theorem setFlyer_clock (s : State) (f : Flyer) (r : FlyerRec) : (s.setFlyer f r).clock = s.clock := rfl
@[simp] theorem setFlyer_templates (s : State) (f : Flyer) (r : FlyerRec) : (s.setFlyer f r).templates = s.templates := rfl
@[simp] theorem setFlyer_attention (s : State) (f : Flyer) (r : FlyerRec) : (s.setFlyer f r).attention = s.attention := rfl
@[simp] theorem setFlyer_alert (s : State) (f : Flyer) (r : FlyerRec) : (s.setFlyer f r).alert = s.alert := rfl
@[simp] theorem setFlyer_supply (s : State) (f : Flyer) (r : FlyerRec) : (s.setFlyer f r).supply = s.supply := rfl
@[simp] theorem setFlyer_console (s : State) (f : Flyer) (r : FlyerRec) : (s.setFlyer f r).console = s.console := rfl
@[simp] theorem setFlyer_inputs (s : State) (f : Flyer) (r : FlyerRec) : (s.setFlyer f r).inputs = s.inputs := rfl
@[simp] theorem setFlyer_lines (s : State) (f : Flyer) (r : FlyerRec) : (s.setFlyer f r).lines = s.lines := rfl

/-! ## setBinding -/

@[simp] theorem setBinding_pending (s : State) (w : Winch) (b : Option Flyer) : (s.setBinding w b).pending = s.pending := rfl
@[simp] theorem setBinding_slots (s : State) (w : Winch) (b : Option Flyer) : (s.setBinding w b).slots = s.slots := rfl
@[simp] theorem setBinding_arbiter (s : State) (w : Winch) (b : Option Flyer) : (s.setBinding w b).arbiter = s.arbiter := rfl
@[simp] theorem setBinding_admission (s : State) (w : Winch) (b : Option Flyer) : (s.setBinding w b).admission = s.admission := rfl
@[simp] theorem setBinding_zones (s : State) (w : Winch) (b : Option Flyer) : (s.setBinding w b).zones = s.zones := rfl
@[simp] theorem setBinding_protect (s : State) (w : Winch) (b : Option Flyer) : (s.setBinding w b).protect = s.protect := rfl
@[simp] theorem setBinding_flyers (s : State) (w : Winch) (b : Option Flyer) : (s.setBinding w b).flyers = s.flyers := rfl
@[simp] theorem setBinding_bindings (s : State) (w : Winch) (b : Option Flyer) : (s.setBinding w b).bindings = s.bindings.set w b := rfl
@[simp] theorem setBinding_grants (s : State) (w : Winch) (b : Option Flyer) : (s.setBinding w b).grants = s.grants := rfl
@[simp] theorem setBinding_channels (s : State) (w : Winch) (b : Option Flyer) : (s.setBinding w b).channels = s.channels := rfl
@[simp] theorem setBinding_holds (s : State) (w : Winch) (b : Option Flyer) : (s.setBinding w b).holds = s.holds := rfl
@[simp] theorem setBinding_clock (s : State) (w : Winch) (b : Option Flyer) : (s.setBinding w b).clock = s.clock := rfl
@[simp] theorem setBinding_templates (s : State) (w : Winch) (b : Option Flyer) : (s.setBinding w b).templates = s.templates := rfl
@[simp] theorem setBinding_attention (s : State) (w : Winch) (b : Option Flyer) : (s.setBinding w b).attention = s.attention := rfl
@[simp] theorem setBinding_alert (s : State) (w : Winch) (b : Option Flyer) : (s.setBinding w b).alert = s.alert := rfl
@[simp] theorem setBinding_supply (s : State) (w : Winch) (b : Option Flyer) : (s.setBinding w b).supply = s.supply := rfl
@[simp] theorem setBinding_console (s : State) (w : Winch) (b : Option Flyer) : (s.setBinding w b).console = s.console := rfl
@[simp] theorem setBinding_inputs (s : State) (w : Winch) (b : Option Flyer) : (s.setBinding w b).inputs = s.inputs := rfl
@[simp] theorem setBinding_lines (s : State) (w : Winch) (b : Option Flyer) : (s.setBinding w b).lines = s.lines := rfl

/-! ## setGrant -/

@[simp] theorem setGrant_pending (s : State) (f : Flyer) (g : GrantRec) : (s.setGrant f g).pending = s.pending := rfl
@[simp] theorem setGrant_slots (s : State) (f : Flyer) (g : GrantRec) : (s.setGrant f g).slots = s.slots := rfl
@[simp] theorem setGrant_arbiter (s : State) (f : Flyer) (g : GrantRec) : (s.setGrant f g).arbiter = s.arbiter := rfl
@[simp] theorem setGrant_admission (s : State) (f : Flyer) (g : GrantRec) : (s.setGrant f g).admission = s.admission := rfl
@[simp] theorem setGrant_zones (s : State) (f : Flyer) (g : GrantRec) : (s.setGrant f g).zones = s.zones := rfl
@[simp] theorem setGrant_protect (s : State) (f : Flyer) (g : GrantRec) : (s.setGrant f g).protect = s.protect := rfl
@[simp] theorem setGrant_flyers (s : State) (f : Flyer) (g : GrantRec) : (s.setGrant f g).flyers = s.flyers := rfl
@[simp] theorem setGrant_bindings (s : State) (f : Flyer) (g : GrantRec) : (s.setGrant f g).bindings = s.bindings := rfl
@[simp] theorem setGrant_grants (s : State) (f : Flyer) (g : GrantRec) : (s.setGrant f g).grants = s.grants.set f g := rfl
@[simp] theorem setGrant_channels (s : State) (f : Flyer) (g : GrantRec) : (s.setGrant f g).channels = s.channels := rfl
@[simp] theorem setGrant_holds (s : State) (f : Flyer) (g : GrantRec) : (s.setGrant f g).holds = s.holds := rfl
@[simp] theorem setGrant_clock (s : State) (f : Flyer) (g : GrantRec) : (s.setGrant f g).clock = s.clock := rfl
@[simp] theorem setGrant_templates (s : State) (f : Flyer) (g : GrantRec) : (s.setGrant f g).templates = s.templates := rfl
@[simp] theorem setGrant_attention (s : State) (f : Flyer) (g : GrantRec) : (s.setGrant f g).attention = s.attention := rfl
@[simp] theorem setGrant_alert (s : State) (f : Flyer) (g : GrantRec) : (s.setGrant f g).alert = s.alert := rfl
@[simp] theorem setGrant_supply (s : State) (f : Flyer) (g : GrantRec) : (s.setGrant f g).supply = s.supply := rfl
@[simp] theorem setGrant_console (s : State) (f : Flyer) (g : GrantRec) : (s.setGrant f g).console = s.console := rfl
@[simp] theorem setGrant_inputs (s : State) (f : Flyer) (g : GrantRec) : (s.setGrant f g).inputs = s.inputs := rfl
@[simp] theorem setGrant_lines (s : State) (f : Flyer) (g : GrantRec) : (s.setGrant f g).lines = s.lines := rfl

/-! ## setChannel -/

@[simp] theorem setChannel_pending (s : State) (c : Flyer) (r : Channel) : (s.setChannel c r).pending = s.pending := rfl
@[simp] theorem setChannel_slots (s : State) (c : Flyer) (r : Channel) : (s.setChannel c r).slots = s.slots := rfl
@[simp] theorem setChannel_arbiter (s : State) (c : Flyer) (r : Channel) : (s.setChannel c r).arbiter = s.arbiter := rfl
@[simp] theorem setChannel_admission (s : State) (c : Flyer) (r : Channel) : (s.setChannel c r).admission = s.admission := rfl
@[simp] theorem setChannel_zones (s : State) (c : Flyer) (r : Channel) : (s.setChannel c r).zones = s.zones := rfl
@[simp] theorem setChannel_protect (s : State) (c : Flyer) (r : Channel) : (s.setChannel c r).protect = s.protect := rfl
@[simp] theorem setChannel_flyers (s : State) (c : Flyer) (r : Channel) : (s.setChannel c r).flyers = s.flyers := rfl
@[simp] theorem setChannel_bindings (s : State) (c : Flyer) (r : Channel) : (s.setChannel c r).bindings = s.bindings := rfl
@[simp] theorem setChannel_grants (s : State) (c : Flyer) (r : Channel) : (s.setChannel c r).grants = s.grants := rfl
@[simp] theorem setChannel_channels (s : State) (c : Flyer) (r : Channel) : (s.setChannel c r).channels = s.channels.set c r := rfl
@[simp] theorem setChannel_holds (s : State) (c : Flyer) (r : Channel) : (s.setChannel c r).holds = s.holds := rfl
@[simp] theorem setChannel_clock (s : State) (c : Flyer) (r : Channel) : (s.setChannel c r).clock = s.clock := rfl
@[simp] theorem setChannel_templates (s : State) (c : Flyer) (r : Channel) : (s.setChannel c r).templates = s.templates := rfl
@[simp] theorem setChannel_attention (s : State) (c : Flyer) (r : Channel) : (s.setChannel c r).attention = s.attention := rfl
@[simp] theorem setChannel_alert (s : State) (c : Flyer) (r : Channel) : (s.setChannel c r).alert = s.alert := rfl
@[simp] theorem setChannel_supply (s : State) (c : Flyer) (r : Channel) : (s.setChannel c r).supply = s.supply := rfl
@[simp] theorem setChannel_console (s : State) (c : Flyer) (r : Channel) : (s.setChannel c r).console = s.console := rfl
@[simp] theorem setChannel_inputs (s : State) (c : Flyer) (r : Channel) : (s.setChannel c r).inputs = s.inputs := rfl
@[simp] theorem setChannel_lines (s : State) (c : Flyer) (r : Channel) : (s.setChannel c r).lines = s.lines := rfl

/-! ## setAdmission -/

@[simp] theorem setAdmission_pending (s : State) (a : Admission) : (s.setAdmission a).pending = s.pending := rfl
@[simp] theorem setAdmission_slots (s : State) (a : Admission) : (s.setAdmission a).slots = s.slots := rfl
@[simp] theorem setAdmission_arbiter (s : State) (a : Admission) : (s.setAdmission a).arbiter = s.arbiter := rfl
@[simp] theorem setAdmission_admission (s : State) (a : Admission) : (s.setAdmission a).admission = a := rfl
@[simp] theorem setAdmission_zones (s : State) (a : Admission) : (s.setAdmission a).zones = s.zones := rfl
@[simp] theorem setAdmission_protect (s : State) (a : Admission) : (s.setAdmission a).protect = s.protect := rfl
@[simp] theorem setAdmission_flyers (s : State) (a : Admission) : (s.setAdmission a).flyers = s.flyers := rfl
@[simp] theorem setAdmission_bindings (s : State) (a : Admission) : (s.setAdmission a).bindings = s.bindings := rfl
@[simp] theorem setAdmission_grants (s : State) (a : Admission) : (s.setAdmission a).grants = s.grants := rfl
@[simp] theorem setAdmission_channels (s : State) (a : Admission) : (s.setAdmission a).channels = s.channels := rfl
@[simp] theorem setAdmission_holds (s : State) (a : Admission) : (s.setAdmission a).holds = s.holds := rfl
@[simp] theorem setAdmission_clock (s : State) (a : Admission) : (s.setAdmission a).clock = s.clock := rfl
@[simp] theorem setAdmission_templates (s : State) (a : Admission) : (s.setAdmission a).templates = s.templates := rfl
@[simp] theorem setAdmission_attention (s : State) (a : Admission) : (s.setAdmission a).attention = s.attention := rfl
@[simp] theorem setAdmission_alert (s : State) (a : Admission) : (s.setAdmission a).alert = s.alert := rfl
@[simp] theorem setAdmission_supply (s : State) (a : Admission) : (s.setAdmission a).supply = s.supply := rfl
@[simp] theorem setAdmission_console (s : State) (a : Admission) : (s.setAdmission a).console = s.console := rfl
@[simp] theorem setAdmission_inputs (s : State) (a : Admission) : (s.setAdmission a).inputs = s.inputs := rfl
@[simp] theorem setAdmission_lines (s : State) (a : Admission) : (s.setAdmission a).lines = s.lines := rfl

/-! ## setArbiter -/

@[simp] theorem setArbiter_pending (s : State) (a : Arbiter) : (s.setArbiter a).pending = s.pending := rfl
@[simp] theorem setArbiter_slots (s : State) (a : Arbiter) : (s.setArbiter a).slots = s.slots := rfl
@[simp] theorem setArbiter_arbiter (s : State) (a : Arbiter) : (s.setArbiter a).arbiter = a := rfl
@[simp] theorem setArbiter_admission (s : State) (a : Arbiter) : (s.setArbiter a).admission = s.admission := rfl
@[simp] theorem setArbiter_zones (s : State) (a : Arbiter) : (s.setArbiter a).zones = s.zones := rfl
@[simp] theorem setArbiter_protect (s : State) (a : Arbiter) : (s.setArbiter a).protect = s.protect := rfl
@[simp] theorem setArbiter_flyers (s : State) (a : Arbiter) : (s.setArbiter a).flyers = s.flyers := rfl
@[simp] theorem setArbiter_bindings (s : State) (a : Arbiter) : (s.setArbiter a).bindings = s.bindings := rfl
@[simp] theorem setArbiter_grants (s : State) (a : Arbiter) : (s.setArbiter a).grants = s.grants := rfl
@[simp] theorem setArbiter_channels (s : State) (a : Arbiter) : (s.setArbiter a).channels = s.channels := rfl
@[simp] theorem setArbiter_holds (s : State) (a : Arbiter) : (s.setArbiter a).holds = s.holds := rfl
@[simp] theorem setArbiter_clock (s : State) (a : Arbiter) : (s.setArbiter a).clock = s.clock := rfl
@[simp] theorem setArbiter_templates (s : State) (a : Arbiter) : (s.setArbiter a).templates = s.templates := rfl
@[simp] theorem setArbiter_attention (s : State) (a : Arbiter) : (s.setArbiter a).attention = s.attention := rfl
@[simp] theorem setArbiter_alert (s : State) (a : Arbiter) : (s.setArbiter a).alert = s.alert := rfl
@[simp] theorem setArbiter_supply (s : State) (a : Arbiter) : (s.setArbiter a).supply = s.supply := rfl
@[simp] theorem setArbiter_console (s : State) (a : Arbiter) : (s.setArbiter a).console = s.console := rfl
@[simp] theorem setArbiter_inputs (s : State) (a : Arbiter) : (s.setArbiter a).inputs = s.inputs := rfl
@[simp] theorem setArbiter_lines (s : State) (a : Arbiter) : (s.setArbiter a).lines = s.lines := rfl

/-! ## setClock -/

@[simp] theorem setClock_pending (s : State) (c : Clock) : (s.setClock c).pending = s.pending := rfl
@[simp] theorem setClock_slots (s : State) (c : Clock) : (s.setClock c).slots = s.slots := rfl
@[simp] theorem setClock_arbiter (s : State) (c : Clock) : (s.setClock c).arbiter = s.arbiter := rfl
@[simp] theorem setClock_admission (s : State) (c : Clock) : (s.setClock c).admission = s.admission := rfl
@[simp] theorem setClock_zones (s : State) (c : Clock) : (s.setClock c).zones = s.zones := rfl
@[simp] theorem setClock_protect (s : State) (c : Clock) : (s.setClock c).protect = s.protect := rfl
@[simp] theorem setClock_flyers (s : State) (c : Clock) : (s.setClock c).flyers = s.flyers := rfl
@[simp] theorem setClock_bindings (s : State) (c : Clock) : (s.setClock c).bindings = s.bindings := rfl
@[simp] theorem setClock_grants (s : State) (c : Clock) : (s.setClock c).grants = s.grants := rfl
@[simp] theorem setClock_channels (s : State) (c : Clock) : (s.setClock c).channels = s.channels := rfl
@[simp] theorem setClock_holds (s : State) (c : Clock) : (s.setClock c).holds = s.holds := rfl
@[simp] theorem setClock_clock (s : State) (c : Clock) : (s.setClock c).clock = c := rfl
@[simp] theorem setClock_templates (s : State) (c : Clock) : (s.setClock c).templates = s.templates := rfl
@[simp] theorem setClock_attention (s : State) (c : Clock) : (s.setClock c).attention = s.attention := rfl
@[simp] theorem setClock_alert (s : State) (c : Clock) : (s.setClock c).alert = s.alert := rfl
@[simp] theorem setClock_supply (s : State) (c : Clock) : (s.setClock c).supply = s.supply := rfl
@[simp] theorem setClock_console (s : State) (c : Clock) : (s.setClock c).console = s.console := rfl
@[simp] theorem setClock_inputs (s : State) (c : Clock) : (s.setClock c).inputs = s.inputs := rfl
@[simp] theorem setClock_lines (s : State) (c : Clock) : (s.setClock c).lines = s.lines := rfl

/-! ## setPermit -/

@[simp] theorem setPermit_pending (s : State) (p : Vector Level 16) : (s.setPermit p).pending = s.pending := rfl
@[simp] theorem setPermit_slots (s : State) (p : Vector Level 16) : (s.setPermit p).slots = s.slots := rfl
@[simp] theorem setPermit_arbiter (s : State) (p : Vector Level 16) : (s.setPermit p).arbiter = s.arbiter := rfl
@[simp] theorem setPermit_admission (s : State) (p : Vector Level 16) : (s.setPermit p).admission = s.admission := rfl
@[simp] theorem setPermit_zones (s : State) (p : Vector Level 16) : (s.setPermit p).zones = s.zones := rfl
@[simp] theorem setPermit_protect (s : State) (p : Vector Level 16) : (s.setPermit p).protect = s.protect := rfl
@[simp] theorem setPermit_flyers (s : State) (p : Vector Level 16) : (s.setPermit p).flyers = s.flyers := rfl
@[simp] theorem setPermit_bindings (s : State) (p : Vector Level 16) : (s.setPermit p).bindings = s.bindings := rfl
@[simp] theorem setPermit_grants (s : State) (p : Vector Level 16) : (s.setPermit p).grants = s.grants := rfl
@[simp] theorem setPermit_channels (s : State) (p : Vector Level 16) : (s.setPermit p).channels = s.channels := rfl
@[simp] theorem setPermit_holds (s : State) (p : Vector Level 16) : (s.setPermit p).holds = s.holds := rfl
@[simp] theorem setPermit_clock (s : State) (p : Vector Level 16) : (s.setPermit p).clock = s.clock := rfl
@[simp] theorem setPermit_templates (s : State) (p : Vector Level 16) : (s.setPermit p).templates = s.templates := rfl
@[simp] theorem setPermit_attention (s : State) (p : Vector Level 16) : (s.setPermit p).attention = s.attention := rfl
@[simp] theorem setPermit_alert (s : State) (p : Vector Level 16) : (s.setPermit p).alert = s.alert := rfl
@[simp] theorem setPermit_supply (s : State) (p : Vector Level 16) : (s.setPermit p).supply = s.supply := rfl
@[simp] theorem setPermit_console (s : State) (p : Vector Level 16) : (s.setPermit p).console = s.console := rfl
@[simp] theorem setPermit_inputs (s : State) (p : Vector Level 16) : (s.setPermit p).inputs = s.inputs := rfl
@[simp] theorem setPermit_lines (s : State) (p : Vector Level 16) : (s.setPermit p).lines = { s.lines with permit := p } := rfl

/-! ## setClaim -/

@[simp] theorem setClaim_pending (s : State) (i : Slot) (c : Claim) : (s.setClaim i c).pending = s.pending := rfl
@[simp] theorem setClaim_slots (s : State) (i : Slot) (c : Claim) : (s.setClaim i c).slots = s.slots.set i { gen := s.slots[i].gen, claim := some c } := rfl
@[simp] theorem setClaim_arbiter (s : State) (i : Slot) (c : Claim) : (s.setClaim i c).arbiter = s.arbiter := rfl
@[simp] theorem setClaim_admission (s : State) (i : Slot) (c : Claim) : (s.setClaim i c).admission = s.admission := rfl
@[simp] theorem setClaim_zones (s : State) (i : Slot) (c : Claim) : (s.setClaim i c).zones = s.zones := rfl
@[simp] theorem setClaim_protect (s : State) (i : Slot) (c : Claim) : (s.setClaim i c).protect = s.protect := rfl
@[simp] theorem setClaim_flyers (s : State) (i : Slot) (c : Claim) : (s.setClaim i c).flyers = s.flyers := rfl
@[simp] theorem setClaim_bindings (s : State) (i : Slot) (c : Claim) : (s.setClaim i c).bindings = s.bindings := rfl
@[simp] theorem setClaim_grants (s : State) (i : Slot) (c : Claim) : (s.setClaim i c).grants = s.grants := rfl
@[simp] theorem setClaim_channels (s : State) (i : Slot) (c : Claim) : (s.setClaim i c).channels = s.channels := rfl
@[simp] theorem setClaim_holds (s : State) (i : Slot) (c : Claim) : (s.setClaim i c).holds = s.holds := rfl
@[simp] theorem setClaim_clock (s : State) (i : Slot) (c : Claim) : (s.setClaim i c).clock = s.clock := rfl
@[simp] theorem setClaim_templates (s : State) (i : Slot) (c : Claim) : (s.setClaim i c).templates = s.templates := rfl
@[simp] theorem setClaim_attention (s : State) (i : Slot) (c : Claim) : (s.setClaim i c).attention = s.attention := rfl
@[simp] theorem setClaim_alert (s : State) (i : Slot) (c : Claim) : (s.setClaim i c).alert = s.alert := rfl
@[simp] theorem setClaim_supply (s : State) (i : Slot) (c : Claim) : (s.setClaim i c).supply = s.supply := rfl
@[simp] theorem setClaim_console (s : State) (i : Slot) (c : Claim) : (s.setClaim i c).console = s.console := rfl
@[simp] theorem setClaim_inputs (s : State) (i : Slot) (c : Claim) : (s.setClaim i c).inputs = s.inputs := rfl
@[simp] theorem setClaim_lines (s : State) (i : Slot) (c : Claim) : (s.setClaim i c).lines = s.lines := rfl

/-! ## setTemplates -/

@[simp] theorem setTemplates_pending (s : State) (k : Fin 16) (t : TemplateSet) : (s.setTemplates k t).pending = s.pending := rfl
@[simp] theorem setTemplates_slots (s : State) (k : Fin 16) (t : TemplateSet) : (s.setTemplates k t).slots = s.slots := rfl
@[simp] theorem setTemplates_arbiter (s : State) (k : Fin 16) (t : TemplateSet) : (s.setTemplates k t).arbiter = s.arbiter := rfl
@[simp] theorem setTemplates_admission (s : State) (k : Fin 16) (t : TemplateSet) : (s.setTemplates k t).admission = s.admission := rfl
@[simp] theorem setTemplates_zones (s : State) (k : Fin 16) (t : TemplateSet) : (s.setTemplates k t).zones = s.zones := rfl
@[simp] theorem setTemplates_protect (s : State) (k : Fin 16) (t : TemplateSet) : (s.setTemplates k t).protect = s.protect := rfl
@[simp] theorem setTemplates_flyers (s : State) (k : Fin 16) (t : TemplateSet) : (s.setTemplates k t).flyers = s.flyers := rfl
@[simp] theorem setTemplates_bindings (s : State) (k : Fin 16) (t : TemplateSet) : (s.setTemplates k t).bindings = s.bindings := rfl
@[simp] theorem setTemplates_grants (s : State) (k : Fin 16) (t : TemplateSet) : (s.setTemplates k t).grants = s.grants := rfl
@[simp] theorem setTemplates_channels (s : State) (k : Fin 16) (t : TemplateSet) : (s.setTemplates k t).channels = s.channels := rfl
@[simp] theorem setTemplates_holds (s : State) (k : Fin 16) (t : TemplateSet) : (s.setTemplates k t).holds = s.holds := rfl
@[simp] theorem setTemplates_clock (s : State) (k : Fin 16) (t : TemplateSet) : (s.setTemplates k t).clock = s.clock := rfl
@[simp] theorem setTemplates_templates (s : State) (k : Fin 16) (t : TemplateSet) : (s.setTemplates k t).templates = { s.templates with sets := s.templates.sets.set k t } := rfl
@[simp] theorem setTemplates_attention (s : State) (k : Fin 16) (t : TemplateSet) : (s.setTemplates k t).attention = s.attention := rfl
@[simp] theorem setTemplates_alert (s : State) (k : Fin 16) (t : TemplateSet) : (s.setTemplates k t).alert = s.alert := rfl
@[simp] theorem setTemplates_supply (s : State) (k : Fin 16) (t : TemplateSet) : (s.setTemplates k t).supply = s.supply := rfl
@[simp] theorem setTemplates_console (s : State) (k : Fin 16) (t : TemplateSet) : (s.setTemplates k t).console = s.console := rfl
@[simp] theorem setTemplates_inputs (s : State) (k : Fin 16) (t : TemplateSet) : (s.setTemplates k t).inputs = s.inputs := rfl
@[simp] theorem setTemplates_lines (s : State) (k : Fin 16) (t : TemplateSet) : (s.setTemplates k t).lines = s.lines := rfl

/-! ## setTx -/

@[simp] theorem setTx_pending (s : State) (sel : Select) (t : Transaction) : (s.setTx sel t).pending = s.pending := by cases sel <;> rfl
@[simp] theorem setTx_slots (s : State) (sel : Select) (t : Transaction) : (s.setTx sel t).slots = s.slots := by cases sel <;> rfl
@[simp] theorem setTx_arbiter (s : State) (sel : Select) (t : Transaction) : (s.setTx sel t).arbiter = s.arbiter := by cases sel <;> rfl
@[simp] theorem setTx_admission (s : State) (sel : Select) (t : Transaction) : (s.setTx sel t).admission = s.admission := by cases sel <;> rfl
@[simp] theorem setTx_zones (s : State) (sel : Select) (t : Transaction) : (s.setTx sel t).zones = s.zones := by cases sel <;> rfl
@[simp] theorem setTx_protect (s : State) (sel : Select) (t : Transaction) : (s.setTx sel t).protect = s.protect := by cases sel <;> rfl
@[simp] theorem setTx_flyers (s : State) (sel : Select) (t : Transaction) : (s.setTx sel t).flyers = s.flyers := by cases sel <;> rfl
@[simp] theorem setTx_bindings (s : State) (sel : Select) (t : Transaction) : (s.setTx sel t).bindings = s.bindings := by cases sel <;> rfl
@[simp] theorem setTx_grants (s : State) (sel : Select) (t : Transaction) : (s.setTx sel t).grants = s.grants := by cases sel <;> rfl
@[simp] theorem setTx_channels (s : State) (sel : Select) (t : Transaction) : (s.setTx sel t).channels = s.channels := by cases sel <;> rfl
@[simp] theorem setTx_holds (s : State) (sel : Select) (t : Transaction) : (s.setTx sel t).holds = s.holds := by cases sel <;> rfl
@[simp] theorem setTx_clock (s : State) (sel : Select) (t : Transaction) : (s.setTx sel t).clock = s.clock := by cases sel <;> rfl
@[simp] theorem setTx_templates (s : State) (sel : Select) (t : Transaction) : (s.setTx sel t).templates = s.templates := by cases sel <;> rfl
@[simp] theorem setTx_attention (s : State) (sel : Select) (t : Transaction) : (s.setTx sel t).attention = s.attention := by cases sel <;> rfl
@[simp] theorem setTx_alert (s : State) (sel : Select) (t : Transaction) : (s.setTx sel t).alert = s.alert := by cases sel <;> rfl
@[simp] theorem setTx_supply (s : State) (sel : Select) (t : Transaction) : (s.setTx sel t).supply = s.supply := by cases sel <;> rfl
@[simp] theorem setTx_inputs (s : State) (sel : Select) (t : Transaction) : (s.setTx sel t).inputs = s.inputs := by cases sel <;> rfl
@[simp] theorem setTx_lines (s : State) (sel : Select) (t : Transaction) : (s.setTx sel t).lines = s.lines := by cases sel <;> rfl

/-! ## setSelectLow -/

@[simp] theorem setSelectLow_pending (s : State) (sel : Select) (low : Bool) : (s.setSelectLow sel low).pending = s.pending := by cases sel <;> rfl
@[simp] theorem setSelectLow_slots (s : State) (sel : Select) (low : Bool) : (s.setSelectLow sel low).slots = s.slots := by cases sel <;> rfl
@[simp] theorem setSelectLow_arbiter (s : State) (sel : Select) (low : Bool) : (s.setSelectLow sel low).arbiter = s.arbiter := by cases sel <;> rfl
@[simp] theorem setSelectLow_admission (s : State) (sel : Select) (low : Bool) : (s.setSelectLow sel low).admission = s.admission := by cases sel <;> rfl
@[simp] theorem setSelectLow_zones (s : State) (sel : Select) (low : Bool) : (s.setSelectLow sel low).zones = s.zones := by cases sel <;> rfl
@[simp] theorem setSelectLow_protect (s : State) (sel : Select) (low : Bool) : (s.setSelectLow sel low).protect = s.protect := by cases sel <;> rfl
@[simp] theorem setSelectLow_flyers (s : State) (sel : Select) (low : Bool) : (s.setSelectLow sel low).flyers = s.flyers := by cases sel <;> rfl
@[simp] theorem setSelectLow_bindings (s : State) (sel : Select) (low : Bool) : (s.setSelectLow sel low).bindings = s.bindings := by cases sel <;> rfl
@[simp] theorem setSelectLow_grants (s : State) (sel : Select) (low : Bool) : (s.setSelectLow sel low).grants = s.grants := by cases sel <;> rfl
@[simp] theorem setSelectLow_channels (s : State) (sel : Select) (low : Bool) : (s.setSelectLow sel low).channels = s.channels := by cases sel <;> rfl
@[simp] theorem setSelectLow_holds (s : State) (sel : Select) (low : Bool) : (s.setSelectLow sel low).holds = s.holds := by cases sel <;> rfl
@[simp] theorem setSelectLow_clock (s : State) (sel : Select) (low : Bool) : (s.setSelectLow sel low).clock = s.clock := by cases sel <;> rfl
@[simp] theorem setSelectLow_templates (s : State) (sel : Select) (low : Bool) : (s.setSelectLow sel low).templates = s.templates := by cases sel <;> rfl
@[simp] theorem setSelectLow_attention (s : State) (sel : Select) (low : Bool) : (s.setSelectLow sel low).attention = s.attention := by cases sel <;> rfl
@[simp] theorem setSelectLow_alert (s : State) (sel : Select) (low : Bool) : (s.setSelectLow sel low).alert = s.alert := by cases sel <;> rfl
@[simp] theorem setSelectLow_supply (s : State) (sel : Select) (low : Bool) : (s.setSelectLow sel low).supply = s.supply := by cases sel <;> rfl
@[simp] theorem setSelectLow_console (s : State) (sel : Select) (low : Bool) : (s.setSelectLow sel low).console = s.console := by cases sel <;> rfl
@[simp] theorem setSelectLow_lines (s : State) (sel : Select) (low : Bool) : (s.setSelectLow sel low).lines = s.lines := by cases sel <;> rfl

/-! ## Reading back what was written -/

@[simp] theorem tabulate_get {α : Type} {n : Nat} (f : Fin n → α) (i : Fin n) : (tabulate f)[i] = f i := by
  simp [tabulate]

@[simp] theorem tabulate_getElem {α : Type} {n : Nat} (f : Fin n → α) (i : Nat) (h : i < n) :
    (tabulate f)[i] = f ⟨i, h⟩ := by
  simp [tabulate]

/-- Entry j after entry i of `slots` is written. -/
theorem setSlot_get (s : State) (i j : Slot) (r : SlotRec) :
    (s.setSlot i r).slots[j] = if i = j then r else s.slots[j] := by
  simp [Vector.getElem_set, Fin.ext_iff]

/-- Entry j after entry i of `zones` is written. -/
theorem setZone_get (s : State) (i j : Zone) (r : ZoneSlot) :
    (s.setZone i r).zones[j] = if i = j then r else s.zones[j] := by
  simp [Vector.getElem_set, Fin.ext_iff]

/-- Entry j after entry i of `flyers` is written. -/
theorem setFlyer_get (s : State) (i j : Flyer) (r : FlyerRec) :
    (s.setFlyer i r).flyers[j] = if i = j then r else s.flyers[j] := by
  simp [Vector.getElem_set, Fin.ext_iff]

/-- Entry j after entry i of `bindings` is written. -/
theorem setBinding_get (s : State) (i j : Winch) (r : Option Flyer) :
    (s.setBinding i r).bindings[j] = if i = j then r else s.bindings[j] := by
  simp [Vector.getElem_set, Fin.ext_iff]

/-- Entry j after entry i of `grants` is written. -/
theorem setGrant_get (s : State) (i j : Flyer) (r : GrantRec) :
    (s.setGrant i r).grants[j] = if i = j then r else s.grants[j] := by
  simp [Vector.getElem_set, Fin.ext_iff]

/-- Entry j after entry i of `channels` is written. -/
theorem setChannel_get (s : State) (i j : Flyer) (r : Channel) :
    (s.setChannel i r).channels[j] = if i = j then r else s.channels[j] := by
  simp [Vector.getElem_set, Fin.ext_iff]

/-- Set j of the store after set i is written. -/
theorem setTemplates_get (s : State) (i j : Fin 16) (t : TemplateSet) :
    (s.setTemplates i t).templates.sets[j] = if i = j then t else s.templates.sets[j] := by
  simp [Vector.getElem_set, Fin.ext_iff]

/-- The claim of slot j after slot i is written. -/
theorem setSlot_claimAt (s : State) (i j : Slot) (r : SlotRec) :
    (s.setSlot i r).claimAt j = if i = j then r.claim else s.claimAt j := by
  unfold State.claimAt
  rw [setSlot_get]
  split <;> rfl

/-- The claim of slot j after the claim of slot i is written. -/
theorem setClaim_claimAt (s : State) (i j : Slot) (c : Claim) :
    (s.setClaim i c).claimAt j = if i = j then some c else s.claimAt j :=
  setSlot_claimAt s i j _

/-- Writing a claim keeps every generation. -/
theorem setClaim_gen (s : State) (i j : Slot) (c : Claim) : (s.setClaim i c).slots[j].gen = s.slots[j].gen := by
  unfold State.setClaim
  rw [setSlot_get]
  split
  · next h => subst h; rfl
  · rfl

/-- The transaction of a select after one is written. -/
theorem setTx_tx (s : State) (a b : Select) (t : Transaction) : (s.setTx a t).tx b = if a = b then t else s.tx b := by
  cases a <;> cases b <;> rfl

/-- The level of a select after one is written. -/
theorem setSelectLow_selectLow (s : State) (a b : Select) (v : Bool) :
    (s.setSelectLow a v).selectLow b = if a = b then v else s.selectLow b := by
  cases a <;> cases b <;> rfl

end Sys2Proof.Machine
end

