-- ==== Sys2Proof/Laws/Frames.lean ====
section
/-! SUPPORT. The frame of each shared operation: what it can change, said once. -/

namespace Sys2Proof.Machine

/-! ## The two frames are preorders, and pass through folds -/

theorem ClaimFrame.refl (s : State) : ClaimFrame s s := rfl

theorem GrantFrame.refl (s : State) : GrantFrame s s := rfl

theorem ClaimFrame.trans {s t u : State} (h : ClaimFrame s t) (k : ClaimFrame t u) : ClaimFrame s u := by
  have e : t.withClaimsOf u = (s.withClaimsOf t).withClaimsOf u := congrArg (fun x => State.withClaimsOf x u) h
  exact Eq.trans k e

theorem GrantFrame.trans {s t u : State} (h : GrantFrame s t) (k : GrantFrame t u) : GrantFrame s u := by
  have e : t.withGrantsOf u = (s.withGrantsOf t).withGrantsOf u := congrArg (fun x => State.withGrantsOf x u) h
  exact Eq.trans k e

theorem ClaimFrame.grant {s t : State} (h : ClaimFrame s t) : GrantFrame s t := by
  have e : { s.withClaimsOf t with grants := t.grants, channels := t.channels, lines := t.lines } = s.withClaimsOf t :=
    congrArg (fun x : State => { s.withClaimsOf t with grants := x.grants, channels := x.channels, lines := x.lines }) h
  exact Eq.trans h e.symm

/-- A fold of steps that each keep a frame keeps it. -/
theorem foldl_frame {α : Type} (R : State → State → Prop) (refl : ∀ s, R s s)
    (trans : ∀ s t u, R s t → R t u → R s u) (f : State → α → State) (step : ∀ s a, R s (f s a)) :
    ∀ (l : List α) (s : State), R s (l.foldl f s)
  | [], s => refl s
  | a :: l, s => trans _ _ _ (step s a) (foldl_frame R refl trans f step l (f s a))

/-! ## Operations within the claim frame -/

theorem driveLines_frame (s : State) : ClaimFrame s (driveLines s) := rfl

theorem raiseFlag_frame (f : Flag) (s : State) : ClaimFrame s (raiseFlag f s) := rfl

theorem clearFlagSet_frame (m : FlagSet) (s : State) : ClaimFrame s (clearFlagSet m s) := rfl

theorem setSlot_frame (s : State) (i : Slot) (r : SlotRec) : ClaimFrame s (s.setSlot i r) := rfl

theorem setClaim_frame (s : State) (i : Slot) (c : Claim) : ClaimFrame s (s.setClaim i c) := rfl

theorem setAdmission_frame (s : State) (a : Admission) : ClaimFrame s (s.setAdmission a) := rfl

theorem setArbiter_frame (s : State) (a : Arbiter) : ClaimFrame s (s.setArbiter a) := rfl

theorem formWalk_frame (e : Entry) (s : State) : ClaimFrame s (formWalk e s) := rfl

theorem checkSubject_frame (e : Entry) (s : State) : ClaimFrame s (checkSubject e s) := by
  unfold checkSubject
  split
  · split <;> rfl
  · rfl
  · rfl

theorem beginHead_frame (s : State) : ClaimFrame s (beginHead s) := by
  unfold beginHead
  split
  · split
    · rfl
    · exact (formWalk_frame _ s).trans (checkSubject_frame _ _)
  · rfl

theorem abandonWalk_frame (s : State) : ClaimFrame s (abandonWalk s) := by
  unfold abandonWalk
  split
  · rfl
  · dsimp only
    split <;> rfl

theorem withdrawEntry_frame (e : Entry) (s : State) : ClaimFrame s (withdrawEntry e s) := by
  unfold withdrawEntry
  dsimp only
  split
  · exact (abandonWalk_frame s).trans rfl
  · rfl

theorem freeSlot_frame (i : Slot) (s : State) : ClaimFrame s (freeSlot i s) := by
  unfold freeSlot
  split
  · rfl
  · dsimp only
    split
    · exact ClaimFrame.trans (setSlot_frame s i _) (withdrawEntry_frame _ _)
    · rfl

theorem expireSlot_frame (i : Slot) (s : State) : ClaimFrame s (expireSlot i s) :=
  (freeSlot_frame i s).trans (raiseFlag_frame _ _)

theorem moveClaim_frame (i : Slot) (st : ClaimState) (s : State) : ClaimFrame s (moveClaim i st s) := by
  unfold moveClaim
  split
  · rfl
  · dsimp only
    split <;> rfl

theorem openClaim_frame (i : Slot) (s : State) : ClaimFrame s (openClaim i s) := by
  unfold openClaim
  split
  · rfl
  · split
    · exact moveClaim_frame _ _ _
    · split <;> exact (moveClaim_frame _ _ _).trans (raiseFlag_frame _ _)

theorem releaseOverlap_frame (i : Slot) (s : State) : ClaimFrame s (releaseOverlap i s) := by
  unfold releaseOverlap
  split
  · rfl
  · split
    · split
      · rfl
      · split
        · exact moveClaim_frame _ _ _
        · exact (moveClaim_frame _ _ _).trans (raiseFlag_frame _ _)
    · rfl

theorem recheck_frame (s : State) : ClaimFrame s (recheck s) := by
  unfold recheck
  exact foldl_frame ClaimFrame .refl (fun _ _ _ h k => h.trans k) _ (fun t i => releaseOverlap_frame i t) allSlots s

/-- The close of an event changes only what the claim frame names. -/
theorem closeEvent_frame (asked : Bool) (s t : State) : ClaimFrame t (closeEvent asked s t) := by
  unfold closeEvent
  split
  · exact ClaimFrame.trans (recheck_frame t) (beginHead_frame (recheck t))
  · exact beginHead_frame t

theorem groundedEvent_frame (f : Flyer) (s : State) : ClaimFrame s (groundedEvent f s) := by
  unfold groundedEvent
  refine foldl_frame ClaimFrame .refl (fun _ _ _ h k => h.trans k) _ (fun t i => ?_) allSlots s
  split
  · split
    · exact expireSlot_frame i t
    · rfl
  · rfl

theorem openBooked_frame (i : Slot) (s : State) : ClaimFrame s (openBooked i s) := by
  unfold openBooked
  split
  · rfl
  · split
    · exact openClaim_frame i s
    · rfl

theorem openings_frame (s : State) : ClaimFrame s (openings s) := by
  unfold openings
  exact foldl_frame ClaimFrame .refl (fun _ _ _ h k => h.trans k) _ (fun t i => openBooked_frame i t) allSlots s

theorem jumpBooked_frame (i : Slot) (s : State) : ClaimFrame s (jumpBooked i s) := by
  unfold jumpBooked
  split
  · rfl
  · split
    · exact expireSlot_frame i s
    · exact openBooked_frame i s

theorem jumpOpenings_frame (s : State) : ClaimFrame s (jumpOpenings s) := by
  unfold jumpOpenings
  exact foldl_frame ClaimFrame .refl (fun _ _ _ h k => h.trans k) _ (fun t i => jumpBooked_frame i t) allSlots s

/-! ## Operations within the grant frame -/

theorem setGrant_frame (s : State) (f : Flyer) (g : GrantRec) : GrantFrame s (s.setGrant f g) := rfl

theorem drivePermits_frame (f : Flyer) (v : Level) (s : State) : GrantFrame s (drivePermits f v s) := rfl

theorem queueFrame_frame (ch : Flyer) (o : OutFrame) (s : State) : GrantFrame s (queueFrame ch o s) := rfl

theorem descendGrant_frame (f : Flyer) (h : Handle) (s : State) : GrantFrame s (descendGrant f h s) := by
  unfold descendGrant
  split
  · rfl
  · split <;> rfl

theorem restoreGrant_frame (f : Flyer) (h : Handle) (s : State) : GrantFrame s (restoreGrant f h s) := by
  unfold restoreGrant
  split
  · rfl
  · split <;> rfl

theorem endClaim_frame (i : Slot) (s : State) : GrantFrame s (endClaim i s) := by
  unfold endClaim
  split
  · rfl
  · split
    · split
      · split
        · exact (expireSlot_frame i s).grant
        · exact ((moveClaim_frame _ _ _).trans (raiseFlag_frame _ _)).grant.trans (descendGrant_frame _ _ _)
      · exact (expireSlot_frame i s).grant
      · exact (moveClaim_frame _ _ _).grant
      · rfl
    · rfl

theorem endings_frame (s : State) : GrantFrame s (endings s) := by
  unfold endings
  exact foldl_frame GrantFrame .refl (fun _ _ _ h k => h.trans k) _ (fun t i => endClaim_frame i t) allSlots s

theorem removeGrant_frame (f : Flyer) (r : Reason) (s : State) : GrantFrame s (removeGrant f r s) := by
  unfold removeGrant
  split
  · rfl
  · dsimp only
    split
    · exact GrantFrame.trans rfl (groundedEvent_frame f _).grant
    · rfl

theorem removeAllGrants_frame (s : State) : GrantFrame s (removeAllGrants s) := by
  unfold removeAllGrants
  exact foldl_frame GrantFrame .refl (fun _ _ _ h k => h.trans k) _ (fun t f => removeGrant_frame f .hold t) allFlyers s

theorem tickEvent_frame (s : State) : GrantFrame s (tickEvent s) :=
  (endings_frame s).trans ((openings_frame _).trans (closeEvent_frame _ _ _)).grant

theorem jumpEvent_frame (s : State) : GrantFrame s (jumpEvent s) :=
  (endings_frame s).trans ((jumpOpenings_frame _).trans (closeEvent_frame _ _ _)).grant

theorem breachClaim_frame (f : Flyer) (i : Slot) (s : State) : ClaimFrame s (breachClaim f i s) := by
  unfold breachClaim
  split
  · rfl
  · split
    · split
      · exact moveClaim_frame _ _ _
      · exact moveClaim_frame _ _ _
      · rfl
    · rfl

theorem breachClaims_frame (f : Flyer) (s : State) : ClaimFrame s (breachClaims f s) := by
  unfold breachClaims
  exact foldl_frame ClaimFrame .refl (fun _ _ _ h k => h.trans k) _ (fun t i => breachClaim_frame f i t) allSlots s

/-! ## The push of a hold -/

theorem HoldFrame.refl (s : State) : HoldFrame s s := rfl

theorem HoldFrame.trans {s t u : State} (h : HoldFrame s t) (k : HoldFrame t u) : HoldFrame s u := by
  have e : t.withHoldsOf u = (s.withHoldsOf t).withHoldsOf u := congrArg (fun x => State.withHoldsOf x u) h
  exact Eq.trans k e

theorem GrantFrame.hold {s t : State} (h : GrantFrame s t) : HoldFrame s t := by
  have e : { s.withGrantsOf t with holds := t.holds, clock := { s.clock with run := t.clock.run } } = s.withGrantsOf t :=
    congrArg (fun x : State => { s.withGrantsOf t with holds := x.holds, clock := { s.clock with run := x.clock.run } }) h
  exact Eq.trans h e.symm

theorem freezeClock_frame (s : State) : HoldFrame s (freezeClock s) := by
  unfold freezeClock
  split <;> rfl

theorem thawClock_frame (s : State) : HoldFrame s (thawClock s) := by
  unfold thawClock
  split <;> rfl

/-- A push writes the hold list and the run state, and what the grant frame names. -/
theorem pushHold_frame (src : HoldSource) (flag : Bool) (s : State) : HoldFrame s (pushHold src flag s) := by
  have h1 : HoldFrame s { s with holds := s.holds ++ [{ source := src, tick := s.now }] } := rfl
  have h2 : HoldFrame s (if flag then raiseFlag .holdsChanged { s with holds := s.holds ++ [{ source := src, tick := s.now }] }
      else { s with holds := s.holds ++ [{ source := src, tick := s.now }] }) := by
    split
    · exact h1.trans (raiseFlag_frame _ _).grant.hold
    · exact h1
  unfold pushHold
  split
  · rfl
  · dsimp only
    split
    · exact h2.trans ((removeAllGrants_frame _).hold.trans (freezeClock_frame _))
    · exact h2

theorem removeHold_frame (src : HoldSource) (s : State) : HoldFrame s (removeHold src s) := by
  have h1 : HoldFrame s { s with holds := s.holds.filter (fun h => decide (h.source ≠ src)) } := rfl
  have h2 := h1.trans (raiseFlag_frame .holdsChanged _).grant.hold
  unfold removeHold
  dsimp only
  split
  · exact h2.trans (thawClock_frame _)
  · exact h2

/-! ## What each frame keeps, field by field -/

theorem ClaimFrame.pending {s t : State} (h : ClaimFrame s t) : t.pending = s.pending :=
  Eq.trans (congrArg State.pending (Eq.trans h rfl : t = s.withClaimsOf t)) rfl

theorem ClaimFrame.zones {s t : State} (h : ClaimFrame s t) : t.zones = s.zones :=
  Eq.trans (congrArg State.zones (Eq.trans h rfl : t = s.withClaimsOf t)) rfl

theorem ClaimFrame.protect {s t : State} (h : ClaimFrame s t) : t.protect = s.protect :=
  Eq.trans (congrArg State.protect (Eq.trans h rfl : t = s.withClaimsOf t)) rfl

theorem ClaimFrame.flyers {s t : State} (h : ClaimFrame s t) : t.flyers = s.flyers :=
  Eq.trans (congrArg State.flyers (Eq.trans h rfl : t = s.withClaimsOf t)) rfl

theorem ClaimFrame.bindings {s t : State} (h : ClaimFrame s t) : t.bindings = s.bindings :=
  Eq.trans (congrArg State.bindings (Eq.trans h rfl : t = s.withClaimsOf t)) rfl

theorem ClaimFrame.grants {s t : State} (h : ClaimFrame s t) : t.grants = s.grants :=
  Eq.trans (congrArg State.grants (Eq.trans h rfl : t = s.withClaimsOf t)) rfl

theorem ClaimFrame.channels {s t : State} (h : ClaimFrame s t) : t.channels = s.channels :=
  Eq.trans (congrArg State.channels (Eq.trans h rfl : t = s.withClaimsOf t)) rfl

theorem ClaimFrame.holds {s t : State} (h : ClaimFrame s t) : t.holds = s.holds :=
  Eq.trans (congrArg State.holds (Eq.trans h rfl : t = s.withClaimsOf t)) rfl

theorem ClaimFrame.clock {s t : State} (h : ClaimFrame s t) : t.clock = s.clock :=
  Eq.trans (congrArg State.clock (Eq.trans h rfl : t = s.withClaimsOf t)) rfl

theorem ClaimFrame.templates {s t : State} (h : ClaimFrame s t) : t.templates = s.templates :=
  Eq.trans (congrArg State.templates (Eq.trans h rfl : t = s.withClaimsOf t)) rfl

theorem ClaimFrame.alert {s t : State} (h : ClaimFrame s t) : t.alert = s.alert :=
  Eq.trans (congrArg State.alert (Eq.trans h rfl : t = s.withClaimsOf t)) rfl

theorem ClaimFrame.supply {s t : State} (h : ClaimFrame s t) : t.supply = s.supply :=
  Eq.trans (congrArg State.supply (Eq.trans h rfl : t = s.withClaimsOf t)) rfl

theorem ClaimFrame.console {s t : State} (h : ClaimFrame s t) : t.console = s.console :=
  Eq.trans (congrArg State.console (Eq.trans h rfl : t = s.withClaimsOf t)) rfl

theorem ClaimFrame.inputs {s t : State} (h : ClaimFrame s t) : t.inputs = s.inputs :=
  Eq.trans (congrArg State.inputs (Eq.trans h rfl : t = s.withClaimsOf t)) rfl

theorem GrantFrame.pending {s t : State} (h : GrantFrame s t) : t.pending = s.pending :=
  Eq.trans (congrArg State.pending (Eq.trans h rfl : t = s.withGrantsOf t)) rfl

theorem GrantFrame.zones {s t : State} (h : GrantFrame s t) : t.zones = s.zones :=
  Eq.trans (congrArg State.zones (Eq.trans h rfl : t = s.withGrantsOf t)) rfl

theorem GrantFrame.protect {s t : State} (h : GrantFrame s t) : t.protect = s.protect :=
  Eq.trans (congrArg State.protect (Eq.trans h rfl : t = s.withGrantsOf t)) rfl

theorem GrantFrame.flyers {s t : State} (h : GrantFrame s t) : t.flyers = s.flyers :=
  Eq.trans (congrArg State.flyers (Eq.trans h rfl : t = s.withGrantsOf t)) rfl

theorem GrantFrame.bindings {s t : State} (h : GrantFrame s t) : t.bindings = s.bindings :=
  Eq.trans (congrArg State.bindings (Eq.trans h rfl : t = s.withGrantsOf t)) rfl

theorem GrantFrame.holds {s t : State} (h : GrantFrame s t) : t.holds = s.holds :=
  Eq.trans (congrArg State.holds (Eq.trans h rfl : t = s.withGrantsOf t)) rfl

theorem GrantFrame.clock {s t : State} (h : GrantFrame s t) : t.clock = s.clock :=
  Eq.trans (congrArg State.clock (Eq.trans h rfl : t = s.withGrantsOf t)) rfl

theorem GrantFrame.templates {s t : State} (h : GrantFrame s t) : t.templates = s.templates :=
  Eq.trans (congrArg State.templates (Eq.trans h rfl : t = s.withGrantsOf t)) rfl

theorem GrantFrame.alert {s t : State} (h : GrantFrame s t) : t.alert = s.alert :=
  Eq.trans (congrArg State.alert (Eq.trans h rfl : t = s.withGrantsOf t)) rfl

theorem GrantFrame.supply {s t : State} (h : GrantFrame s t) : t.supply = s.supply :=
  Eq.trans (congrArg State.supply (Eq.trans h rfl : t = s.withGrantsOf t)) rfl

theorem GrantFrame.console {s t : State} (h : GrantFrame s t) : t.console = s.console :=
  Eq.trans (congrArg State.console (Eq.trans h rfl : t = s.withGrantsOf t)) rfl

theorem GrantFrame.inputs {s t : State} (h : GrantFrame s t) : t.inputs = s.inputs :=
  Eq.trans (congrArg State.inputs (Eq.trans h rfl : t = s.withGrantsOf t)) rfl

theorem HoldFrame.pending {s t : State} (h : HoldFrame s t) : t.pending = s.pending :=
  Eq.trans (congrArg State.pending (Eq.trans h rfl : t = s.withHoldsOf t)) rfl

theorem HoldFrame.zones {s t : State} (h : HoldFrame s t) : t.zones = s.zones :=
  Eq.trans (congrArg State.zones (Eq.trans h rfl : t = s.withHoldsOf t)) rfl

theorem HoldFrame.protect {s t : State} (h : HoldFrame s t) : t.protect = s.protect :=
  Eq.trans (congrArg State.protect (Eq.trans h rfl : t = s.withHoldsOf t)) rfl

theorem HoldFrame.flyers {s t : State} (h : HoldFrame s t) : t.flyers = s.flyers :=
  Eq.trans (congrArg State.flyers (Eq.trans h rfl : t = s.withHoldsOf t)) rfl

theorem HoldFrame.bindings {s t : State} (h : HoldFrame s t) : t.bindings = s.bindings :=
  Eq.trans (congrArg State.bindings (Eq.trans h rfl : t = s.withHoldsOf t)) rfl

theorem HoldFrame.templates {s t : State} (h : HoldFrame s t) : t.templates = s.templates :=
  Eq.trans (congrArg State.templates (Eq.trans h rfl : t = s.withHoldsOf t)) rfl

theorem HoldFrame.alert {s t : State} (h : HoldFrame s t) : t.alert = s.alert :=
  Eq.trans (congrArg State.alert (Eq.trans h rfl : t = s.withHoldsOf t)) rfl

theorem HoldFrame.supply {s t : State} (h : HoldFrame s t) : t.supply = s.supply :=
  Eq.trans (congrArg State.supply (Eq.trans h rfl : t = s.withHoldsOf t)) rfl

theorem HoldFrame.console {s t : State} (h : HoldFrame s t) : t.console = s.console :=
  Eq.trans (congrArg State.console (Eq.trans h rfl : t = s.withHoldsOf t)) rfl

theorem HoldFrame.inputs {s t : State} (h : HoldFrame s t) : t.inputs = s.inputs :=
  Eq.trans (congrArg State.inputs (Eq.trans h rfl : t = s.withHoldsOf t)) rfl

theorem ClaimFrame.permit {s t : State} (h : ClaimFrame s t) : t.lines.permit = s.lines.permit :=
  Eq.trans (congrArg (fun u : State => u.lines.permit) (Eq.trans h rfl : t = s.withClaimsOf t)) rfl

theorem ClaimFrame.now {s t : State} (h : ClaimFrame s t) : t.now = s.now := by
  unfold State.now
  rw [h.clock]

theorem GrantFrame.now {s t : State} (h : GrantFrame s t) : t.now = s.now := by
  unfold State.now
  rw [h.clock]

theorem HoldFrame.count {s t : State} (h : HoldFrame s t) : t.clock.count = s.clock.count :=
  Eq.trans (congrArg (fun u : State => u.clock.count) (Eq.trans h rfl : t = s.withHoldsOf t)) rfl

theorem ClaimFrame.running {s t : State} (h : ClaimFrame s t) : t.running = s.running := by
  unfold State.running
  rw [h.supply, h.inputs]

theorem ClaimFrame.enables {s t : State} (h : ClaimFrame s t) : t.attention.enables = s.attention.enables :=
  Eq.trans (congrArg (fun u : State => u.attention.enables) (Eq.trans h rfl : t = s.withClaimsOf t)) rfl

theorem ClaimFrame.autoClear {s t : State} (h : ClaimFrame s t) : t.attention.autoClear = s.attention.autoClear :=
  Eq.trans (congrArg (fun u : State => u.attention.autoClear) (Eq.trans h rfl : t = s.withClaimsOf t)) rfl

theorem GrantFrame.running {s t : State} (h : GrantFrame s t) : t.running = s.running := by
  unfold State.running
  rw [h.supply, h.inputs]

theorem GrantFrame.enables {s t : State} (h : GrantFrame s t) : t.attention.enables = s.attention.enables :=
  Eq.trans (congrArg (fun u : State => u.attention.enables) (Eq.trans h rfl : t = s.withGrantsOf t)) rfl

theorem GrantFrame.autoClear {s t : State} (h : GrantFrame s t) : t.attention.autoClear = s.attention.autoClear :=
  Eq.trans (congrArg (fun u : State => u.attention.autoClear) (Eq.trans h rfl : t = s.withGrantsOf t)) rfl

theorem HoldFrame.running {s t : State} (h : HoldFrame s t) : t.running = s.running := by
  unfold State.running
  rw [h.supply, h.inputs]

theorem HoldFrame.enables {s t : State} (h : HoldFrame s t) : t.attention.enables = s.attention.enables :=
  Eq.trans (congrArg (fun u : State => u.attention.enables) (Eq.trans h rfl : t = s.withHoldsOf t)) rfl

theorem HoldFrame.autoClear {s t : State} (h : HoldFrame s t) : t.attention.autoClear = s.attention.autoClear :=
  Eq.trans (congrArg (fun u : State => u.attention.autoClear) (Eq.trans h rfl : t = s.withHoldsOf t)) rfl

end Sys2Proof.Machine
end

