-- ==== Sys2Proof/Laws/Claims.lean ====
section
/-! SUPPORT. What the shared operations make of each claim slot, of the grants and of the outgoing queues. -/

namespace Sys2Proof.Machine

/-! ## Slots under the operations that write none or one -/

theorem claimAt_congr {s t : State} (h : t.slots = s.slots) (j : Slot) : t.claimAt j = s.claimAt j := by
  unfold State.claimAt
  rw [h]

theorem gen_congr {s t : State} (h : t.slots = s.slots) (j : Slot) : t.slots[j].gen = s.slots[j].gen := by
  rw [h]

@[simp] theorem raiseFlag_slots (f : Flag) (s : State) : (raiseFlag f s).slots = s.slots := rfl

@[simp] theorem formWalk_slots (e : Entry) (s : State) : (formWalk e s).slots = s.slots := rfl

@[simp] theorem abandonWalk_slots (s : State) : (abandonWalk s).slots = s.slots := by
  unfold abandonWalk
  split
  · rfl
  · dsimp only
    split <;> rfl

@[simp] theorem withdrawEntry_slots (e : Entry) (s : State) : (withdrawEntry e s).slots = s.slots := by
  unfold withdrawEntry
  dsimp only
  split
  · exact abandonWalk_slots s
  · rfl

/-- A moved claim changes its state alone; every other slot is as it was. -/
theorem moveClaim_claimAt (i j : Slot) (st : ClaimState) (s : State) :
    (moveClaim i st s).claimAt j = if i = j then (s.claimAt i).map (fun c => { c with state := st }) else s.claimAt j := by
  unfold moveClaim
  cases h : s.claimAt i with
  | none =>
    by_cases e : i = j
    · subst e; simp [h]
    · simp [e]
  | some c =>
    have k : ((s.setClaim i { c with state := st }).claimAt j) =
        if i = j then (some c).map (fun c => { c with state := st }) else s.claimAt j := setClaim_claimAt _ _ _ _
    dsimp only
    split
    · exact k
    · exact k

theorem moveClaim_gen (i j : Slot) (st : ClaimState) (s : State) :
    (moveClaim i st s).slots[j].gen = s.slots[j].gen := by
  unfold moveClaim
  split
  · rfl
  · dsimp only
    split
    · exact setClaim_gen s i j _
    · exact setClaim_gen s i j _

/-- A freed slot holds no claim; every other slot is as it was (R9). -/
theorem freeSlot_claimAt (i j : Slot) (s : State) :
    (freeSlot i s).claimAt j = if i = j then none else s.claimAt j := by
  unfold freeSlot
  cases h : s.claimAt i with
  | none =>
    by_cases e : i = j
    · subst e; simp [h]
    · simp [e]
  | some c =>
    have k : (s.setSlot i { gen := s.slots[i].gen, claim := none }).claimAt j = if i = j then none else s.claimAt j :=
      setSlot_claimAt _ _ _ _
    dsimp only
    split
    · rw [claimAt_congr (withdrawEntry_slots _ _)]; exact k
    · exact k

/-- A freed slot keeps its generation (R3, R9). -/
theorem freeSlot_gen (i j : Slot) (s : State) : (freeSlot i s).slots[j].gen = s.slots[j].gen := by
  have k : (s.setSlot i { gen := s.slots[i].gen, claim := none }).slots[j].gen = s.slots[j].gen := by
    rw [setSlot_get]
    split
    · next e => subst e; rfl
    · rfl
  unfold freeSlot
  split
  · rfl
  · dsimp only
    split
    · exact (gen_congr (withdrawEntry_slots _ _) j).trans k
    · exact k

theorem expireSlot_claimAt (i j : Slot) (s : State) : (expireSlot i s).claimAt j = if i = j then none else s.claimAt j :=
  freeSlot_claimAt i j s

theorem expireSlot_gen (i j : Slot) (s : State) : (expireSlot i s).slots[j].gen = s.slots[j].gen := freeSlot_gen i j s

/-- The re-check's step on one slot, when the slot holds a HELD OVERLAP claim (R13). -/
theorem releaseOverlap_of_held {i : Slot} {s : State} {c : Claim} {ended : Bool} (h : s.claimAt i = some c)
    (hs : c.state = .held .overlap ended) :
    releaseOverlap i s =
      if s.overlapsOverstayer c.flyer c.region then s
      else if s.breached c.flyer then moveClaim i (.held .breach ended) s
      else raiseFlag .windowOpened (moveClaim i .active s) := by
  simp only [releaseOverlap, h, hs]

/-- The re-check's step on one slot, when the slot holds no HELD OVERLAP claim (R13). -/
theorem releaseOverlap_of_not_held {i : Slot} {s : State}
    (h : ∀ c ended, s.claimAt i = some c → c.state ≠ .held .overlap ended) : releaseOverlap i s = s := by
  unfold releaseOverlap
  split
  · rfl
  · next c hc =>
    split
    · next e he => exact absurd he (h c e hc)
    · rfl

/-! ## What a close makes of the claims -/

theorem closesTo.refl (a : Option Claim) : closesTo a a := Or.inl rfl

theorem closesTo.trans {a b c : Option Claim} (h : closesTo a b) (k : closesTo b c) : closesTo a c := by
  rcases k with rfl | ⟨x, st, hb, rfl, hx⟩
  · exact h
  · rcases h with rfl | ⟨y, st', ha, hb', hy⟩
    · exact Or.inr ⟨x, st, hb, rfl, hx⟩
    · have e : x = { y with state := st' } := Option.some.inj (hb.symm.trans hb')
      subst e
      rcases hy with ⟨_, rfl⟩ | ⟨_, _, rfl | rfl⟩ <;> rcases hx with ⟨h1, _⟩ | ⟨_, h1, _⟩ <;> cases h1

theorem moveClaim_closes {i : Slot} {st : ClaimState} {s : State} {c : Claim} (h : s.claimAt i = some c)
    (hc : (c.state = .queued ∧ st = .checking) ∨
      ∃ ended : Bool, c.state = .held .overlap ended ∧ (st = .active ∨ st = .held .breach ended)) (j : Slot) :
    closesTo (s.claimAt j) ((moveClaim i st s).claimAt j) := by
  rw [moveClaim_claimAt]
  split
  · next e => subst e; exact Or.inr ⟨c, st, h, by rw [h]; rfl, hc⟩
  · exact .refl _

theorem releaseOverlap_closes (i : Slot) (s : State) (j : Slot) : closesTo (s.claimAt j) ((releaseOverlap i s).claimAt j) := by
  unfold releaseOverlap
  split
  · exact .refl _
  · next c hc =>
    split
    · next ended he =>
      split
      · exact .refl _
      · split
        · exact moveClaim_closes hc (Or.inr ⟨ended, he, Or.inr rfl⟩) j
        · exact moveClaim_closes hc (Or.inr ⟨ended, he, Or.inl rfl⟩) j
    · exact .refl _

theorem releaseOverlap_gen (i : Slot) (s : State) (j : Slot) : (releaseOverlap i s).slots[j].gen = s.slots[j].gen := by
  unfold releaseOverlap
  split
  · rfl
  · split
    · split
      · rfl
      · split
        · exact moveClaim_gen _ _ _ _
        · exact moveClaim_gen _ _ _ _
    · rfl

theorem recheck_closes (s : State) (j : Slot) : closesTo (s.claimAt j) ((recheck s).claimAt j) := by
  unfold recheck
  exact foldl_frame (fun s t => closesTo (s.claimAt j) (t.claimAt j)) (fun _ => .refl _) (fun _ _ _ h k => h.trans k) _
    (fun t i => releaseOverlap_closes i t j) allSlots s

theorem recheck_gen (s : State) (j : Slot) : (recheck s).slots[j].gen = s.slots[j].gen := by
  unfold recheck
  exact foldl_frame (fun s t => t.slots[j].gen = s.slots[j].gen) (fun _ => rfl) (fun _ _ _ h k => k.trans h) _
    (fun t i => releaseOverlap_gen i t j) allSlots s

/-- A walk's beginning changes no slot, or makes the claim its BOOK entry names CHECKING (R34). -/
theorem checkSubject_slots (e : Entry) (s : State) :
    (checkSubject e s).slots = s.slots ∨
    ∃ h c, e = .book h ∧ s.resolve h = some c ∧ checkSubject e s = s.setClaim h.slot { c with state := .checking } := by
  unfold checkSubject
  cases e with
  | book h =>
    cases hc : s.resolve h with
    | none => left; simp [hc]
    | some c => exact Or.inr ⟨h, c, rfl, hc, by simp [hc]⟩
  | amend h => exact Or.inl rfl
  | zone z => exact Or.inl rfl

theorem beginHead_gen (s : State) (j : Slot) : (beginHead s).slots[j].gen = s.slots[j].gen := by
  unfold beginHead
  split
  · split
    · rfl
    · next e _ _ =>
      rcases checkSubject_slots e (formWalk e s) with h | ⟨_, _, _, _, h⟩
      · exact (gen_congr h j).trans (gen_congr (formWalk_slots e s) j)
      · rw [h]
        exact (setClaim_gen _ _ _ _).trans (gen_congr (formWalk_slots e s) j)
  · rfl

/-- The grants, their channels and the flyers are outside every close. -/
theorem closeEvent_grants (asked : Bool) (s t : State) : (closeEvent asked s t).grants = t.grants :=
  (closeEvent_frame asked s t).grants

theorem closeEvent_channels (asked : Bool) (s t : State) : (closeEvent asked s t).channels = t.channels :=
  (closeEvent_frame asked s t).channels

theorem closeEvent_gen (asked : Bool) (s t : State) (j : Slot) : (closeEvent asked s t).slots[j].gen = t.slots[j].gen := by
  unfold closeEvent
  split
  · rw [beginHead_gen, recheck_gen]
  · exact beginHead_gen t j

/-! ## The walk of the head -/

theorem beginHead_walk {s : State} (h : s.admission.walk.isSome = true) : beginHead s = s := by
  have k : s.admission.walk.isNone = false := by
    cases e : s.admission.walk with
    | none => rw [e] at h; cases h
    | some _ => rfl
  unfold beginHead
  rw [k, Bool.and_false]
  rfl

theorem beginHead_halted {s : State} (h : s.running = false) : beginHead s = s := by
  unfold beginHead
  simp [h]

theorem checkSubject_admission (e : Entry) (s : State) : (checkSubject e s).admission = s.admission := by
  unfold checkSubject
  split
  · split <;> rfl
  · rfl
  · rfl

/-- The beginning of a walk leaves the queue as it was. -/
theorem beginHead_queue (s : State) : (beginHead s).admission.queue = s.admission.queue := by
  unfold beginHead
  split
  · split
    · rfl
    · rw [checkSubject_admission]; rfl
  · rfl

theorem moveClaim_queue (i : Slot) (st : ClaimState) (s : State) :
    (moveClaim i st s).admission.queue = s.admission.queue := by
  unfold moveClaim
  split
  · rfl
  · dsimp only
    split <;> rfl

theorem releaseOverlap_queue (i : Slot) (s : State) : (releaseOverlap i s).admission.queue = s.admission.queue := by
  unfold releaseOverlap
  split
  · rfl
  · split
    · split
      · rfl
      · split
        · exact moveClaim_queue _ _ _
        · exact moveClaim_queue _ _ _
    · rfl

theorem recheck_queue (s : State) : (recheck s).admission.queue = s.admission.queue := by
  unfold recheck
  exact foldl_frame (fun s t => t.admission.queue = s.admission.queue) (fun _ => rfl) (fun _ _ _ h k => k.trans h) _
    (fun t i => releaseOverlap_queue i t) allSlots s

/-- The close of an event leaves the admission queue as it was. -/
theorem closeEvent_queue (asked : Bool) (s t : State) : (closeEvent asked s t).admission.queue = t.admission.queue := by
  unfold closeEvent
  split
  · rw [beginHead_queue, recheck_queue]
  · exact beginHead_queue t

/-- A withdrawn entry is gone from the queue, and no other is. -/
theorem withdrawEntry_queue (e : Entry) (s : State) :
    (withdrawEntry e s).admission.queue = s.admission.queue.filter (fun x => decide (x ≠ e)) := by
  unfold withdrawEntry
  dsimp only
  split
  · have h : (abandonWalk s).admission.queue = s.admission.queue := by
      unfold abandonWalk
      split
      · rfl
      · dsimp only
        split <;> rfl
    show (abandonWalk s).admission.queue.filter _ = _
    rw [h]
  · rfl

/-! ## Removing a grant (R103) -/

theorem groundedEvent_grants (f : Flyer) (s : State) : (groundedEvent f s).grants = s.grants := (groundedEvent_frame f s).grants

theorem groundedEvent_channels (f : Flyer) (s : State) : (groundedEvent f s).channels = s.channels :=
  (groundedEvent_frame f s).channels

theorem groundedEvent_permit (f : Flyer) (s : State) : (groundedEvent f s).lines.permit = s.lines.permit :=
  (groundedEvent_frame f s).permit

/-- A removal writes the flyer's grant record alone, its sequence counter kept (R103). -/
theorem removeGrant_grants (f : Flyer) (r : Reason) (s : State) :
    (removeGrant f r s).grants =
      match s.grantOf f with
      | none => s.grants
      | some _ => s.grants.set f { s.grants[f] with live := none } := by
  unfold removeGrant
  cases h : s.grantOf f with
  | none => rfl
  | some x =>
    dsimp only
    split
    · exact groundedEvent_grants f _
    · rfl

/-- A removed grant is gone, and no other flyer's grant is touched. -/
theorem removeGrant_grantOf (f g : Flyer) (r : Reason) (s : State) :
    (removeGrant f r s).grantOf g = if f = g then none else s.grantOf g := by
  unfold State.grantOf
  rw [removeGrant_grants]
  cases h : s.grantOf f with
  | none =>
    by_cases e : f = g
    · subst e; simpa [State.grantOf] using h
    · simp [e]
  | some x => simp [Vector.getElem_set, Fin.ext_iff]; split <;> rfl

/-- A removal with a live grant queues one REVOKE on the flyer's channel; without one it changes nothing (R103). -/
theorem removeGrant_channels (f : Flyer) (r : Reason) (s : State) :
    (removeGrant f r s).channels =
      match s.grantOf f with
      | none => s.channels
      | some g => s.channels.set f { s.channels[f] with out := s.channels[f].out ++ [.revoke g.seq r] } := by
  unfold removeGrant
  cases h : s.grantOf f with
  | none => rfl
  | some x =>
    dsimp only
    split
    · exact groundedEvent_channels f _
    · rfl

/-- A removal lowers the PERMIT lines of the flyer's winches and moves no other (R74, R103). -/
theorem removeGrant_permit (f : Flyer) (r : Reason) (s : State) :
    (removeGrant f r s).lines.permit =
      match s.grantOf f with
      | none => s.lines.permit
      | some _ => tabulate (fun w => if s.bindings[w] = some f then .low else s.lines.permit[w]) := by
  unfold removeGrant
  cases h : s.grantOf f with
  | none => rfl
  | some x =>
    dsimp only
    split
    · exact groundedEvent_permit f _
    · rfl

/-! ## What a close makes of the claims, all together -/

/-- The claim a BOOK entry at the head names is QUEUED or CHECKING (R27). -/
def HeadFits (s : State) : Prop :=
  ∀ (h : Handle) (c : Claim), s.admission.queue.head? = some (.book h) → s.resolve h = some c →
    c.state = .queued ∨ c.state = .checking

theorem resolve_eq_some {s : State} {h : Handle} {c : Claim} :
    s.resolve h = some c ↔ s.slots[h.slot].gen = h.gen ∧ s.claimAt h.slot = some c := by
  unfold State.resolve
  split
  · next e => exact ⟨fun k => ⟨e, k⟩, fun k => k.2⟩
  · next e => exact ⟨nofun, fun k => absurd k.1 e⟩

theorem resolve_free {s : State} {h : Handle} (hc : s.claimAt h.slot = none) : s.resolve h = none := by
  unfold State.resolve
  rw [hc]
  split <;> rfl

theorem QueueLaw.headFits {s : State} (h : QueueLaw s) : HeadFits s := by
  intro k c hk hc
  have hm : Entry.book k ∈ s.admission.queue := List.mem_of_mem_head? hk
  have hf := h.2.2 _ hm
  simpa [subjectFits, hc] using hf

theorem closesTo.none_left {b : Option Claim} (h : closesTo none b) : b = none := by
  rcases h with h | ⟨_, _, h, _⟩
  · exact h
  · cases h

/-- A claim that is neither QUEUED nor HELD OVERLAP is as it was after a close. -/
theorem closesTo.stays {c : Claim} {b : Option Claim} (h : closesTo (some c) b) (hq : c.state ≠ .queued)
    (ho : ∀ e, c.state ≠ .held .overlap e) : b = some c := by
  rcases h with h | ⟨x, _, hx, _, hs⟩
  · exact h
  · cases hx
    rcases hs with ⟨hs, _⟩ | ⟨e, hs, _⟩
    · exact absurd hs hq
    · exact absurd hs (ho e)

theorem beginHead_closes {s : State} (h : HeadFits s) (j : Slot) : closesTo (s.claimAt j) ((beginHead s).claimAt j) := by
  unfold beginHead
  split
  · cases hq : s.admission.queue with
    | nil => exact .refl _
    | cons e l =>
      rcases checkSubject_slots e (formWalk e s) with k | ⟨g, c, rfl, hc, k⟩
      · show closesTo _ ((checkSubject e (formWalk e s)).claimAt j)
        rw [claimAt_congr (k.trans (formWalk_slots e s))]
        exact .refl _
      · show closesTo _ ((checkSubject (.book g) (formWalk (.book g) s)).claimAt j)
        rw [k, setClaim_claimAt]
        have hc' : s.resolve g = some c := hc
        split
        · next e =>
          subst e
          have hs := h g c (by rw [hq]; rfl) hc'
          have ha := (resolve_eq_some.mp hc').2
          rcases hs with hs | hs
          · exact Or.inr ⟨c, .checking, ha, rfl, Or.inl ⟨hs, rfl⟩⟩
          · left
            rw [ha, ← hs]
        · rw [claimAt_congr (formWalk_slots (.book g) s)]
          exact .refl _
  · exact .refl _

/-- The beginning of the head's walk changes at most one claim: the one a BOOK entry at the head names goes CHECKING. -/
theorem beginHead_cases (s : State) (j : Slot) :
    (beginHead s).claimAt j = s.claimAt j ∨
    ∃ (h : Handle) (c : Claim), s.admission.queue.head? = some (.book h) ∧ h.slot = j ∧ s.resolve h = some c ∧
      (beginHead s).claimAt j = some { c with state := .checking } := by
  unfold beginHead
  split
  · cases hq : s.admission.queue with
    | nil => exact Or.inl rfl
    | cons e l =>
      rcases checkSubject_slots e (formWalk e s) with k | ⟨g, c, rfl, hc, k⟩
      · exact Or.inl (claimAt_congr (k.trans (formWalk_slots e s)) j)
      · dsimp only
        rw [k, setClaim_claimAt]
        split
        · next e => exact Or.inr ⟨g, c, rfl, e, hc, rfl⟩
        · exact Or.inl (claimAt_congr (formWalk_slots _ _) j)
  · exact Or.inl rfl

/-- A claim that no BOOK entry may name is as it was after the head's walk begins. -/
theorem beginHead_stays {s : State} {j : Slot} {c : Claim} (h : HeadFits s) (hc : s.claimAt j = some c)
    (h1 : c.state ≠ .queued) (h2 : c.state ≠ .checking) : (beginHead s).claimAt j = some c := by
  rcases beginHead_cases s j with k | ⟨g, x, hq, hj, hx, -⟩
  · rw [k, hc]
  · have hs := h g x hq hx
    have hx' := (resolve_eq_some.mp hx).2
    subst hj
    rw [hc] at hx'
    cases hx'
    rcases hs with hs | hs
    · exact absurd hs h1
    · exact absurd hs h2

theorem recheck_headFits {s : State} (h : HeadFits s) : HeadFits (recheck s) := by
  intro g c hq hc
  rw [recheck_queue] at hq
  obtain ⟨hg, ha⟩ := resolve_eq_some.mp hc
  rw [recheck_gen] at hg
  rcases recheck_closes s g.slot with k | ⟨x, st, hx, hb, hs⟩
  · exact h g c hq (resolve_eq_some.mpr ⟨hg, by rw [← k]; exact ha⟩)
  · have hx' := h g x hq (resolve_eq_some.mpr ⟨hg, hx⟩)
    rw [hb] at ha
    cases ha
    rcases hs with ⟨_, rfl⟩ | ⟨e, hs, _⟩
    · exact Or.inr rfl
    · rcases hx' with hx' | hx' <;> rw [hs] at hx' <;> cases hx'

/-- The close of an event changes a claim only as `closesTo` says. -/
theorem closeEvent_closes {t : State} (h : HeadFits t) (asked : Bool) (s : State) (j : Slot) :
    closesTo (t.claimAt j) ((closeEvent asked s t).claimAt j) := by
  unfold closeEvent
  split
  · exact (recheck_closes t j).trans (beginHead_closes (recheck_headFits h) j)
  · exact beginHead_closes h j

/-- With no claim ceasing to overstay and no re-check asked for, a close is the beginning of the head's walk alone. -/
theorem closeEvent_quiet {s t : State} (h : ceasedOverstay s t = false) : closeEvent false s t = beginHead t := by
  unfold closeEvent
  simp [h]

theorem ceasedOverstay_eq_false {s t : State} :
    ceasedOverstay s t = false ↔
      ∀ i : Slot, s.overstayingAt i = true → t.slots[i].gen = s.slots[i].gen ∧ t.overstayingAt i = true := by
  unfold ceasedOverstay allSlots
  simp only [List.any_eq_false, List.mem_finRange, true_implies, Bool.and_eq_true, Bool.not_eq_true', Bool.and_eq_false_iff,
    decide_eq_false_iff_not, not_and, not_or, Classical.not_not, Bool.not_eq_false]

/-- Existence over all slots, as the model's `anyClaim` computes it. -/
theorem anyClaim_iff (s : State) (p : Slot → Claim → Bool) :
    s.anyClaim p = true ↔ ∃ (i : Slot) (c : Claim), s.claimAt i = some c ∧ p i c = true := by
  unfold State.anyClaim allSlots
  simp only [List.any_eq_true, List.mem_finRange, true_and, Option.any_eq_true]

theorem overlapsOverstayer_iff (s : State) (f : Flyer) (region : Box) :
    s.overlapsOverstayer f region = true ↔ OverstayedIn s f region := by
  unfold State.overlapsOverstayer
  rw [anyClaim_iff]
  simp only [Bool.and_eq_true, decide_eq_true_eq, and_assoc]

/-! ## Entries and heads after a claim is freed or an entry withdrawn -/

theorem withdrawEntry_mem {e x : Entry} {s : State} (h : x ∈ (withdrawEntry e s).admission.queue) : x ∈ s.admission.queue := by
  rw [withdrawEntry_queue] at h
  exact (List.mem_filter.mp h).1

theorem freeSlot_mem {i : Slot} {x : Entry} {s : State} (h : x ∈ (freeSlot i s).admission.queue) : x ∈ s.admission.queue := by
  unfold freeSlot at h
  split at h
  · exact h
  · dsimp only at h
    split at h
    · exact withdrawEntry_mem (s := s.setSlot i _) h
    · exact h

/-- The head fits after an event that adds no entry and changes no state of a claim an entry may name. -/
theorem headFits_of {s t : State} (hq : QueueLaw s) (hm : ∀ e ∈ t.admission.queue, e ∈ s.admission.queue)
    (hc : ∀ h c, t.resolve h = some c → ∃ c0, s.resolve h = some c0 ∧ (c0.state = .queued ∨ c0.state = .checking → c.state = c0.state)) :
    HeadFits t := by
  intro h c hh hr
  obtain ⟨c0, h0, hs⟩ := hc h c hr
  have hf := hq.2.2 _ (hm _ (List.mem_of_mem_head? hh))
  have h1 : c0.state = .queued ∨ c0.state = .checking := by simpa [subjectFits, h0] using hf
  rw [hs h1]
  exact h1

theorem freeSlot_resolve {i : Slot} {s : State} {h : Handle} {c : Claim} (hr : (freeSlot i s).resolve h = some c) :
    s.resolve h = some c := by
  rw [resolve_eq_some] at *
  rw [freeSlot_gen, freeSlot_claimAt] at hr
  refine ⟨hr.1, ?_⟩
  have h2 := hr.2
  split at h2
  · cases h2
  · exact h2

theorem freeSlot_headFits {i : Slot} {s : State} (hq : QueueLaw s) : HeadFits (freeSlot i s) :=
  headFits_of hq (fun _ h => freeSlot_mem h) (fun _ c h => ⟨c, freeSlot_resolve h, fun _ => rfl⟩)

/-! ## Folds over the slots -/

/-- A fold of steps that each rewrite one slot's claim, by a rule fixed under an invariant of the fold, rewrites every slot by that rule. -/
theorem foldl_claimAt (P : State → Prop) (f : State → Slot → State) (g : Slot → Option Claim → Option Claim)
    (hp : ∀ t i, P t → P (f t i))
    (hf : ∀ t i j, P t → (f t i).claimAt j = if i = j then g j (t.claimAt j) else t.claimAt j) :
    ∀ (l : List Slot), l.Nodup → ∀ s, P s → ∀ j, (l.foldl f s).claimAt j = if j ∈ l then g j (s.claimAt j) else s.claimAt j
  | [], _, s, _, j => by simp
  | i :: l, hl, s, hs, j => by
    have h1 := foldl_claimAt P f g hp hf l (List.nodup_cons.mp hl).2 (f s i) (hp s i hs) j
    rw [List.foldl_cons, h1, hf s i j hs]
    have h2 := (List.nodup_cons.mp hl).1
    by_cases e : i = j
    · subst e
      simp [h2]
    · have e' : j ≠ i := fun k => e k.symm
      simp [e, e']

theorem foldSlots_claimAt (P : State → Prop) (f : State → Slot → State) (g : Slot → Option Claim → Option Claim)
    (hp : ∀ t i, P t → P (f t i))
    (hf : ∀ t i j, P t → (f t i).claimAt j = if i = j then g j (t.claimAt j) else t.claimAt j)
    (s : State) (hs : P s) (j : Slot) : (allSlots.foldl f s).claimAt j = g j (s.claimAt j) := by
  have h := foldl_claimAt P f g hp hf allSlots (List.nodup_finRange 32) s hs j
  rw [h, if_pos (show j ∈ allSlots from List.mem_finRange j)]

/-- A fold over all slots keeps what each step keeps. -/
theorem foldSlots_keeps (P : State → Prop) (f : State → Slot → State) (hp : ∀ t i, P t → P (f t i)) (s : State) (hs : P s) :
    P (allSlots.foldl f s) := by
  have h := foldl_frame (fun s t => P s → P t) (fun _ h => h) (fun _ _ _ h k l => k (h l)) f (fun t i => hp t i) allSlots s
  exact h hs

theorem grantNames_congr {s t : State} (h : t.grants = s.grants) (f : Flyer) (g : Handle) :
    t.grantNames f g = s.grantNames f g := by
  unfold State.grantNames State.grantOf
  rw [h]

/-- A grounded event frees exactly the flyer's OVERRUN claims that its live grant does not name (R15). -/
theorem groundedEvent_claimAt (f : Flyer) (s : State) (j : Slot) :
    (groundedEvent f s).claimAt j =
      (s.claimAt j).filter (fun c => !(decide (c.flyer = f) && decide (c.state = .overrun) && !s.grantNames f (s.handleAt j))) := by
  unfold groundedEvent
  refine foldSlots_claimAt (fun t => t.grants = s.grants ∧ ∀ i : Slot, t.slots[i].gen = s.slots[i].gen) _
    (fun j x => x.filter (fun c => !(decide (c.flyer = f) && decide (c.state = .overrun) && !s.grantNames f (s.handleAt j)))) ?_ ?_ s
    ⟨rfl, fun _ => rfl⟩ j
  · intro t i ht
    split
    · split
      · exact ⟨(expireSlot_frame i t).grants.trans ht.1, fun k => (expireSlot_gen i k t).trans (ht.2 k)⟩
      · exact ht
    · exact ht
  · intro t i k ht
    have hn : t.grantNames f (t.handleAt i) = s.grantNames f (s.handleAt i) := by
      rw [grantNames_congr ht.1]
      unfold State.handleAt
      rw [ht.2 i]
    cases hc : t.claimAt i with
    | none =>
      by_cases e : i = k
      · subst e; simp [hc]
      · simp [e]
    | some c =>
      simp only [hn]
      split
      · next h =>
        rw [expireSlot_claimAt]
        by_cases e : i = k
        · subst e; simp only [if_true, hc]; simp [Option.filter, h]
        · simp [e]
      · next h =>
        by_cases e : i = k
        · subst e; simp only [if_true, hc]; simp [Option.filter, h]
        · simp [e]

theorem groundedEvent_gen (f : Flyer) (s : State) (j : Slot) : (groundedEvent f s).slots[j].gen = s.slots[j].gen := by
  unfold groundedEvent
  refine foldSlots_keeps (fun t => t.slots[j].gen = s.slots[j].gen) _ ?_ s rfl
  intro t i ht
  split
  · split
    · exact (expireSlot_gen i j t).trans ht
    · exact ht
  · exact ht

/-- The claims held for a breach: the flyer's ACTIVE and OVERRUN ones, the latter with the ended mark (R16). -/
theorem breachClaims_claimAt (f : Flyer) (s : State) (j : Slot) :
    (breachClaims f s).claimAt j =
      (s.claimAt j).map (fun c =>
        if c.flyer = f ∧ c.state = .active then { c with state := .held .breach false }
        else if c.flyer = f ∧ c.state = .overrun then { c with state := .held .breach true } else c) := by
  unfold breachClaims
  refine foldSlots_claimAt (fun _ => True) _ (fun _ x => x.map (fun c =>
        if c.flyer = f ∧ c.state = .active then { c with state := .held .breach false }
        else if c.flyer = f ∧ c.state = .overrun then { c with state := .held .breach true } else c)) (fun _ _ _ => trivial) ?_ s trivial j
  intro t i k _
  unfold breachClaim
  cases hc : t.claimAt i with
  | none =>
    by_cases e : i = k
    · subst e; simp [hc]
    · simp [e]
  | some c =>
    dsimp only
    by_cases hf : c.flyer = f
    · simp only [hf, if_true]
      cases hs : c.state <;> (try rw [moveClaim_claimAt]) <;> by_cases e : i = k <;> (try subst e) <;> simp [*]
    · simp only [hf, if_false]
      by_cases e : i = k
      · subst e; simp [hc, hf]
      · simp [e]

/-! ## The re-check, endings and openings, slot by slot -/

/-- Whether a region overlaps an overstaying claim depends on the overstaying claims alone. -/
theorem overlapsOverstayer_congr {s t : State}
    (h : ∀ (j : Slot) (c : Claim), c.state.overstaying = true → (t.claimAt j = some c ↔ s.claimAt j = some c))
    (f : Flyer) (r : Box) : t.overlapsOverstayer f r = s.overlapsOverstayer f r := by
  rw [Bool.eq_iff_iff, overlapsOverstayer_iff, overlapsOverstayer_iff]
  constructor
  · rintro ⟨j, d, hd, ho, hx⟩
    exact ⟨j, d, (h j d ho).mp hd, ho, hx⟩
  · rintro ⟨j, d, hd, ho, hx⟩
    exact ⟨j, d, (h j d ho).mpr hd, ho, hx⟩

/-- A move between two states that do not overstay leaves the overstaying claims as they were. -/
theorem moveClaim_overlaps {i : Slot} {st : ClaimState} {s : State} {c : Claim} (hc : s.claimAt i = some c)
    (h1 : c.state.overstaying = false) (h2 : st.overstaying = false) (f : Flyer) (r : Box) :
    (moveClaim i st s).overlapsOverstayer f r = s.overlapsOverstayer f r := by
  refine overlapsOverstayer_congr (fun j d hd => ?_) f r
  rw [moveClaim_claimAt]
  split
  · next e =>
    subst e
    rw [hc]
    constructor
    · intro k
      cases k
      rw [h2] at hd
      cases hd
    · intro k
      cases k
      rw [h1] at hd
      cases hd
  · rfl

theorem breached_congr {s t : State} (h : t.flyers = s.flyers) (f : Flyer) : t.breached f = s.breached f := by
  unfold State.breached
  rw [h]

/-- What the re-check makes of one claim, given the state it began in (R13). -/
def rechecked (s : State) (c : Claim) : Claim :=
  if c.state = .held .overlap false ∧ s.overlapsOverstayer c.flyer c.region = false then
    { c with state := if s.breached c.flyer = true then .held .breach false else .active }
  else c

/-- The re-check, slot by slot, when no HELD OVERLAP claim has its ended mark set (R13, R26). -/
theorem recheck_claimAt {s : State} (hn : ∀ (i : Slot) (c : Claim), s.claimAt i = some c → c.state ≠ .held .overlap true)
    (j : Slot) : (recheck s).claimAt j = (s.claimAt j).map (rechecked s) := by
  unfold recheck
  refine foldSlots_claimAt
    (fun t => (∀ f r, t.overlapsOverstayer f r = s.overlapsOverstayer f r) ∧ t.flyers = s.flyers ∧
      ∀ (i : Slot) (c : Claim), t.claimAt i = some c → c.state ≠ .held .overlap true) _
    (fun _ x => x.map (rechecked s)) ?_ ?_ s ⟨fun _ _ => rfl, rfl, hn⟩ j
  · intro t i ht
    refine ⟨fun f r => ?_, (releaseOverlap_frame i t).flyers.trans ht.2.1, fun k c hk he => ?_⟩
    · cases hc : t.claimAt i with
      | none => rw [releaseOverlap_of_not_held (fun c e h => by rw [hc] at h; cases h)]; exact ht.1 f r
      | some c =>
        by_cases hs : c.state = .held .overlap false
        · have hv : c.state.overstaying = false := by rw [hs]; rfl
          rw [releaseOverlap_of_held hc hs]
          split
          · exact ht.1 f r
          · split
            · exact (moveClaim_overlaps hc hv rfl f r).trans (ht.1 f r)
            · exact (moveClaim_overlaps hc hv rfl f r).trans (ht.1 f r)
        · rw [releaseOverlap_of_not_held]
          · exact ht.1 f r
          · intro c' e h h'
            rw [hc] at h
            cases h
            cases e
            · exact hs h'
            · exact ht.2.2 i c hc h'
    · rcases releaseOverlap_closes i t k with h | ⟨x, st, _, hb, hst⟩
      · rw [h] at hk
        exact ht.2.2 k c hk he
      · rw [hb] at hk
        cases hk
        rcases hst with ⟨_, h⟩ | ⟨e, hx, h | h⟩ <;> cases h <;> cases he
  · intro t i k ht
    cases hc : t.claimAt i with
    | none =>
      rw [releaseOverlap_of_not_held (fun c e h => by rw [hc] at h; cases h)]
      by_cases e : i = k
      · subst e; simp [hc]
      · simp [e]
    | some c =>
      by_cases hs : c.state = .held .overlap false
      · rw [releaseOverlap_of_held hc hs, ht.1, breached_congr ht.2.1]
        by_cases e : i = k
        · subst e
          rw [if_pos rfl, hc]
          simp only [Option.map_some, rechecked, hs, true_and]
          split
          · next h => simp [h, hc]
          · next h =>
            simp only [h, if_true]
            split
            · rw [moveClaim_claimAt, if_pos rfl, hc]; rfl
            · show (moveClaim i .active t).claimAt i = _
              rw [moveClaim_claimAt, if_pos rfl, hc]; rfl
        · rw [if_neg e]
          split
          · rfl
          · split
            · rw [moveClaim_claimAt, if_neg e]
            · show (moveClaim i .active t).claimAt k = _
              rw [moveClaim_claimAt, if_neg e]
      · rw [releaseOverlap_of_not_held]
        · by_cases e : i = k
          · subst e
            rw [if_pos rfl, hc]
            simp [rechecked, hs]
          · rw [if_neg e]
        · intro c' e h h'
          rw [hc] at h
          cases h
          cases e
          · exact hs h'
          · exact ht.2.2 i c hc h'

/-! ## The port's turn -/

theorem moveClaim_arbiter (i : Slot) (st : ClaimState) (s : State) : (moveClaim i st s).arbiter = s.arbiter := by
  unfold moveClaim
  split
  · rfl
  · dsimp only; split <;> rfl

theorem releaseOverlap_arbiter (i : Slot) (s : State) : (releaseOverlap i s).arbiter = s.arbiter := by
  unfold releaseOverlap
  split
  · rfl
  · split
    · split
      · rfl
      · split
        · exact moveClaim_arbiter ..
        · exact moveClaim_arbiter ..
    · rfl

theorem recheck_arbiter (s : State) : (recheck s).arbiter = s.arbiter := by
  unfold recheck
  exact foldl_frame (fun a b : State => b.arbiter = a.arbiter) (fun _ => rfl) (fun _ _ _ h k => k.trans h) _ (fun t i => releaseOverlap_arbiter i t) allSlots s

theorem checkSubject_arbiter (e : Entry) (s : State) : (checkSubject e s).arbiter = s.arbiter := by
  unfold checkSubject
  split
  · split <;> rfl
  · rfl
  · rfl

theorem beginHead_arbiter (s : State) : (beginHead s).arbiter = s.arbiter := by
  unfold beginHead
  split
  · split
    · rfl
    · rw [checkSubject_arbiter]; rfl
  · rfl

/-- The close of an event leaves the port's turn. -/
theorem closeEvent_arbiter (asked : Bool) (s t : State) : (closeEvent asked s t).arbiter = t.arbiter := by
  unfold closeEvent
  rw [beginHead_arbiter]
  split
  · exact recheck_arbiter t
  · rfl

end Sys2Proof.Machine
end

