-- ==== Sys2Proof/Laws/Console.lean ====
section
/-! SUPPORT. The taking of a console command, and one step, as lemmas the proofs cite instead of unfolding them. -/

namespace Sys2Proof.Machine

/-- A step takes the command at the front of the queue. -/
theorem step_cons (s : State) (c : Instr) (rest : List Instr) (h : s.pending = c :: rest) :
    step s = exec c { s with pending := rest } := by
  unfold step
  rw [h]

/-- A step with an empty queue lets real time pass. -/
theorem step_nil (s : State) (h : s.pending = []) : step s = .next (elapse 1 s) := by
  unfold step
  rw [h]

theorem runs_iff (s : State) : Runs s ↔ s.running = true := by
  unfold State.running
  simp [Runs]

/-- With one select's transaction in a state and the other idle, that select is the one found. -/
theorem selectIn_eq {s : State} {sel : Select} {t : Transaction} (hr : Runs s) (h : s.tx sel = t)
    (ho : s.tx sel.other = .idle) (hi : t ≠ .idle) : s.selectIn t = some sel := by
  have r := (runs_iff s).mp hr
  unfold State.selectIn
  cases sel
  · have h1 : s.console.showTx = t := h
    simp [r, h1]
  · have h1 : s.console.crewTx = t := h
    have h2 : s.console.showTx = .idle := ho
    have h3 : ¬ Transaction.idle = t := fun e => hi e.symm
    simp [r, h1, h2, h3]

theorem awaitedBy_ne_idle (c : Command) : awaitedBy c ≠ .idle := by
  unfold awaitedBy
  split <;> intro h <;> cases h

theorem taking_eq {s : State} {sel : Select} {c : Command} (h : Awaits s sel c) : s.taking c = some sel :=
  selectIn_eq h.1 h.2.1 h.2.2 (awaitedBy_ne_idle c)

/-- A command its select may issue is delivered to its owner, whose answer becomes the transaction (R158). -/
theorem takeCommand_delivered {s : State} {sel : Select} {c : Command} (h : Awaits s sel c)
    (hp : sel = .showSel ∨ crewMay c = true) (owner : Select → State → State × Transaction) :
    takeCommand c owner s = .next ((owner sel s).1.setTx sel (owner sel s).2) := by
  unfold takeCommand
  rw [taking_eq h]
  rcases hp with rfl | hp
  · rfl
  · simp [hp]

/-- A command the crew may not issue is refused at the CREW select, with no effect (R160). -/
theorem takeCommand_privilege {s : State} {c : Command} (h : Awaits s .crewSel c) (hp : crewMay c = false)
    (owner : Select → State → State × Transaction) : takeCommand c owner s = .next (answered s .crewSel .privilege) := by
  unfold takeCommand
  rw [taking_eq h]
  simp [hp, answer]

/-- A command no open transaction awaits changes nothing (log 1). -/
theorem takeCommand_untaken {s : State} {c : Command} (h : s.taking c = none)
    (owner : Select → State → State × Transaction) : takeCommand c owner s = .next s := by
  unfold takeCommand
  rw [h]

/-- MISO is driven for the select whose transaction is open (R157). -/
theorem misoSelect_open {s : State} {sel : Select} (hr : Runs s) (h : s.tx sel ≠ .idle) (ho : s.tx sel.other = .idle) :
    s.misoSelect = some sel := by
  have r := (runs_iff s).mp hr
  unfold State.misoSelect
  cases sel
  · have h1 : s.console.showTx ≠ .idle := h
    simp [r, h1]
  · have h1 : s.console.crewTx ≠ .idle := h
    have h2 : s.console.showTx = .idle := ho
    simp [r, h1, h2]

/-- What MISO shifts in an open transaction (R158). -/
theorem miso_open {s : State} {sel : Select} (hr : Runs s) (h : s.tx sel ≠ .idle) (ho : s.tx sel.other = .idle) (n : Nat) :
    s.miso n = some ((s.tx sel).misoByte n) := by
  unfold State.miso
  rw [misoSelect_open hr h ho]
  rfl

/-- MISO is high-impedance while the part does not run (R173). -/
theorem misoSelect_halted {s : State} (hr : ¬ Runs s) : s.misoSelect = none := by
  have r : s.running = false := by rw [Bool.eq_false_iff]; exact fun e => hr ((runs_iff s).mpr e)
  unfold State.misoSelect
  simp [r]

/-- MISO is high-impedance while no transaction is open (R157). -/
theorem misoSelect_closed {s : State} (h : s.tx .showSel = .idle) (h' : s.tx .crewSel = .idle) : s.misoSelect = none := by
  have h1 : s.console.showTx = .idle := h
  have h2 : s.console.crewTx = .idle := h'
  unfold State.misoSelect
  simp [h1, h2]

/-- A command always completes. -/
theorem takeCommand_completes (c : Command) (owner : Select → State → State × Transaction) (s : State) :
    ∃ t, takeCommand c owner s = .next t := by
  unfold takeCommand
  split
  · exact ⟨_, rfl⟩
  · split <;> exact ⟨_, rfl⟩

/-- A console command is taken at the port: some owner answers it when a transaction awaits it (R158). -/
theorem exec_command {i : Instr} {c : Command} {ops : List Byte} (h : i.command = some (c, ops)) :
    ∃ owner : Select → State → State × Transaction, ∀ s, exec i s = takeCommand c owner s := by
  cases i <;> simp only [Instr.command, reduceCtorEq, Option.some.injEq, Prod.mk.injEq] at h
  all_goals obtain ⟨rfl, -⟩ := h
  case setEnables m => exact ⟨fun _ t => (enableFlagSet (flagsOf m) t, answer .ok), fun _ => rfl⟩
  case clearFlags m => exact ⟨fun _ t => (clearFlagSet (flagsOf m) t, answer .ok), fun _ => rfl⟩
  case clearAlert => exact ⟨fun _ t => (emptyAlert t, answer .ok), fun _ => rfl⟩
  case clearSupply => exact ⟨fun _ t => (emptySupply t, answer .ok), fun _ => rfl⟩
  all_goals exact ⟨_, fun _ => rfl⟩

end Sys2Proof.Machine
end

