-- ==== Sys2Proof/Laws/Settles.lean ====
section
/-! SUPPORT. The events that book nothing: no entry joins the queue, no slot is taken, and QUEUED and CHECKING claims keep their state until the close. -/

namespace Sys2Proof.Machine

/-- From s to t nothing is booked: generations are kept, entries only leave the queue, every claim was one before, and a QUEUED or CHECKING claim keeps its state. -/
def Settles (s t : State) : Prop :=
  (∀ e ∈ t.admission.queue, e ∈ s.admission.queue) ∧
  ∀ j : Slot, t.slots[j].gen = s.slots[j].gen ∧
    ∀ c, t.claimAt j = some c → ∃ c0, s.claimAt j = some c0 ∧ (c0.state = .queued ∨ c0.state = .checking → c.state = c0.state)

theorem Settles.refl (s : State) : Settles s s := ⟨fun _ h => h, fun _ => ⟨rfl, fun c h => ⟨c, h, fun _ => rfl⟩⟩⟩

theorem Settles.trans {s t u : State} (h : Settles s t) (k : Settles t u) : Settles s u := by
  refine ⟨fun e he => h.1 e (k.1 e he), fun j => ⟨(k.2 j).1.trans (h.2 j).1, fun c hc => ?_⟩⟩
  obtain ⟨c1, h1, e1⟩ := (k.2 j).2 c hc
  obtain ⟨c0, h0, e0⟩ := (h.2 j).2 c1 h1
  refine ⟨c0, h0, fun q => ?_⟩
  have e := e0 q
  rw [← e] at q
  exact (e1 q).trans e

/-- States with the same slots and the same queue. -/
theorem Settles.of_eq {s t : State} (hs : t.slots = s.slots) (hq : t.admission.queue = s.admission.queue) : Settles s t :=
  ⟨fun e he => by rw [hq] at he; exact he,
   fun j => ⟨gen_congr hs j, fun c hc => ⟨c, by rw [claimAt_congr hs] at hc; exact hc, fun _ => rfl⟩⟩⟩

theorem Settles.headFits {s t : State} (h : Settles s t) (hq : QueueLaw s) : HeadFits t := by
  refine headFits_of hq h.1 (fun g c hr => ?_)
  rw [resolve_eq_some] at hr
  obtain ⟨c0, h0, e0⟩ := (h.2 g.slot).2 c hr.2
  exact ⟨c0, resolve_eq_some.mpr ⟨(h.2 g.slot).1 ▸ hr.1, h0⟩, e0⟩

theorem freeSlot_settles (i : Slot) (s : State) : Settles s (freeSlot i s) := by
  refine ⟨fun _ h => freeSlot_mem h, fun j => ⟨freeSlot_gen i j s, fun c hc => ?_⟩⟩
  rw [freeSlot_claimAt] at hc
  split at hc
  · cases hc
  · exact ⟨c, hc, fun _ => rfl⟩

theorem expireSlot_settles (i : Slot) (s : State) : Settles s (expireSlot i s) := freeSlot_settles i s

theorem withdrawEntry_settles (e : Entry) (s : State) : Settles s (withdrawEntry e s) :=
  ⟨fun _ h => withdrawEntry_mem h,
   fun j => ⟨gen_congr (withdrawEntry_slots e s) j,
    fun c hc => ⟨c, by rw [claimAt_congr (withdrawEntry_slots e s)] at hc; exact hc, fun _ => rfl⟩⟩⟩

/-- A move of a claim that is neither QUEUED nor CHECKING. -/
theorem moveClaim_settles {i : Slot} {st : ClaimState} {s : State}
    (h : ∀ c, s.claimAt i = some c → c.state ≠ .queued ∧ c.state ≠ .checking) : Settles s (moveClaim i st s) := by
  refine ⟨fun e he => by rw [moveClaim_queue] at he; exact he, fun j => ⟨moveClaim_gen i j st s, fun c hc => ?_⟩⟩
  rw [moveClaim_claimAt] at hc
  split at hc
  · next e =>
    subst e
    cases h0 : s.claimAt i with
    | none => rw [h0] at hc; cases hc
    | some c0 =>
      refine ⟨c0, rfl, fun q => ?_⟩
      rcases q with q | q
      · exact absurd q (h c0 h0).1
      · exact absurd q (h c0 h0).2
  · exact ⟨c, hc, fun _ => rfl⟩

theorem moveClaim_settles_of {i : Slot} {st : ClaimState} {s : State} {c : Claim} (hc : s.claimAt i = some c)
    (h1 : c.state ≠ .queued) (h2 : c.state ≠ .checking) : Settles s (moveClaim i st s) :=
  moveClaim_settles (fun d hd => by rw [hc] at hd; cases hd; exact ⟨h1, h2⟩)

theorem raiseFlag_settles (f : Flag) (s : State) : Settles s (raiseFlag f s) := .of_eq rfl rfl

theorem foldSlots_settles (f : State → Slot → State) (h : ∀ t i, Settles t (f t i)) (s : State) :
    Settles s (allSlots.foldl f s) :=
  foldl_frame Settles .refl (fun _ _ _ h k => h.trans k) f h allSlots s

theorem groundedEvent_settles (f : Flyer) (s : State) : Settles s (groundedEvent f s) := by
  unfold groundedEvent
  refine foldSlots_settles _ (fun t i => ?_) s
  split
  · split
    · exact expireSlot_settles i t
    · exact .refl t
  · exact .refl t

theorem removeGrant_settles (f : Flyer) (r : Reason) (s : State) : Settles s (removeGrant f r s) := by
  unfold removeGrant
  split
  · exact .refl s
  · next g _ =>
    have h : Settles s (queueFrame f (.revoke g.seq r) (drivePermits f .low (s.setGrant f { s.grants[f] with live := none }))) :=
      .of_eq rfl rfl
    dsimp only
    split
    · exact h.trans (groundedEvent_settles f _)
    · exact h

theorem removeAllGrants_settles (s : State) : Settles s (removeAllGrants s) :=
  foldl_frame Settles .refl (fun _ _ _ h k => h.trans k) (fun t f => removeGrant f .hold t)
    (fun t f => removeGrant_settles f .hold t) allFlyers s

theorem breachClaim_settles (f : Flyer) (i : Slot) (s : State) : Settles s (breachClaim f i s) := by
  unfold breachClaim
  split
  · exact .refl s
  · next c hc =>
    split
    · split
      · next hs => exact moveClaim_settles_of hc (by rw [hs]; nofun) (by rw [hs]; nofun)
      · next hs => exact moveClaim_settles_of hc (by rw [hs]; nofun) (by rw [hs]; nofun)
      · exact .refl s
    · exact .refl s

theorem breachClaims_settles (f : Flyer) (s : State) : Settles s (breachClaims f s) := by
  unfold breachClaims
  exact foldSlots_settles _ (fun t i => breachClaim_settles f i t) s

theorem openClaim_settles {i : Slot} {s : State} {c : Claim} (hc : s.claimAt i = some c) (h1 : c.state ≠ .queued)
    (h2 : c.state ≠ .checking) : Settles s (openClaim i s) := by
  unfold openClaim
  rw [hc]
  dsimp only
  split
  · exact moveClaim_settles_of hc h1 h2
  · split
    · exact (moveClaim_settles_of hc h1 h2).trans (raiseFlag_settles _ _)
    · exact (moveClaim_settles_of hc h1 h2).trans (raiseFlag_settles _ _)

theorem descendGrant_settles (f : Flyer) (h : Handle) (s : State) : Settles s (descendGrant f h s) := by
  unfold descendGrant
  split
  · exact .refl s
  · split
    · exact .of_eq rfl rfl
    · exact .refl s

theorem endClaim_settles (i : Slot) (s : State) : Settles s (endClaim i s) := by
  unfold endClaim
  split
  · exact .refl s
  · next c hc =>
    split
    · split
      · next hs =>
        split
        · exact expireSlot_settles i s
        · exact (moveClaim_settles_of hc (by rw [hs]; nofun) (by rw [hs]; nofun)).trans
            ((raiseFlag_settles _ _).trans (descendGrant_settles _ _ _))
      · exact expireSlot_settles i s
      · next hs => exact moveClaim_settles_of hc (by rw [hs]; nofun) (by rw [hs]; nofun)
      · exact .refl s
    · exact .refl s

theorem endings_settles (s : State) : Settles s (endings s) := by
  unfold endings
  exact foldSlots_settles _ (fun t i => endClaim_settles i t) s

theorem openBooked_settles (i : Slot) (s : State) : Settles s (openBooked i s) := by
  unfold openBooked
  split
  · exact .refl s
  · next c hc =>
    split
    · next h =>
      have hs : c.state = .booked := by
        have := (Bool.and_eq_true _ _ ▸ h).1
        exact of_decide_eq_true this
      exact openClaim_settles hc (by rw [hs]; nofun) (by rw [hs]; nofun)
    · exact .refl s

theorem openings_settles (s : State) : Settles s (openings s) := by
  unfold openings
  exact foldSlots_settles _ (fun t i => openBooked_settles i t) s

theorem jumpBooked_settles (i : Slot) (s : State) : Settles s (jumpBooked i s) := by
  unfold jumpBooked
  split
  · exact .refl s
  · split
    · exact expireSlot_settles i s
    · exact openBooked_settles i s

theorem jumpOpenings_settles (s : State) : Settles s (jumpOpenings s) := by
  unfold jumpOpenings
  exact foldSlots_settles _ (fun t i => jumpBooked_settles i t) s

/-! ## What a removal leaves of the claims -/

/-- A removal frees at most OVERRUN claims of its flyer, and those only when it is grounded (R15, R103). -/
theorem removeGrant_claimAt (f : Flyer) (r : Reason) (s : State) (j : Slot) :
    (removeGrant f r s).claimAt j =
      if (s.grantOf f).isSome = true ∧ s.groundedFlyer f = true then
        (s.claimAt j).filter (fun c => !(decide (c.flyer = f) && decide (c.state = .overrun)))
      else s.claimAt j := by
  unfold removeGrant
  cases h : s.grantOf f with
  | none => simp
  | some g =>
    dsimp only
    generalize hu : queueFrame f (.revoke g.seq r) (drivePermits f .low (s.setGrant f { s.grants[f] with live := none })) = u
    have hg : u.groundedFlyer f = s.groundedFlyer f := by subst hu; rfl
    have hn : ∀ k, u.grantNames f k = false := by
      intro k
      subst hu
      show State.grantNames (s.setGrant f { s.grants[f] with live := none }) f k = false
      unfold State.grantNames State.grantOf
      rw [setGrant_get, if_pos rfl]
      rfl
    have hc : ∀ k, u.claimAt k = s.claimAt k := by subst hu; exact fun _ => rfl
    rw [hg]
    cases e : s.groundedFlyer f with
    | true =>
      simp only [Option.isSome_some, if_true, and_self]
      rw [groundedEvent_claimAt, hc]
      simp only [hn, Bool.not_false, Bool.and_true]
    | false =>
      simp only [Bool.false_eq_true, if_false, and_false]
      exact hc j

theorem filter_grounds {f : Flyer} {a b : Option Claim}
    (h : b = a ∨ b = a.filter (fun c => !(decide (c.flyer = f) && decide (c.state = .overrun)))) :
    b = a ∨ (b = none ∧ ∃ d : Claim, a = some d ∧ d.flyer = f ∧ d.state = .overrun) := by
  rcases h with h | h
  · exact Or.inl h
  · cases a with
    | none => exact Or.inl h
    | some d =>
      rw [Option.filter] at h
      split at h
      · exact Or.inl h
      · next hx =>
        simp only [Bool.not_eq_true, Bool.not_eq_false', Bool.and_eq_true, decide_eq_true_eq] at hx
        exact Or.inr ⟨h, d, rfl, hx.1, hx.2⟩

theorem groundsTo.of_close {f : Flyer} {a b c : Option Claim}
    (h : b = a ∨ (b = none ∧ ∃ d : Claim, a = some d ∧ d.flyer = f ∧ d.state = .overrun)) (k : closesTo b c) :
    groundsTo f a c := by
  rcases h with rfl | ⟨rfl, h⟩
  · exact Or.inl k
  · exact Or.inr ⟨k.none_left, h⟩

theorem removeGrant_grounds (f : Flyer) (r : Reason) (s : State) (j : Slot) :
    (removeGrant f r s).claimAt j = s.claimAt j ∨
      ((removeGrant f r s).claimAt j = none ∧ ∃ d : Claim, s.claimAt j = some d ∧ d.flyer = f ∧ d.state = .overrun) := by
  apply filter_grounds
  rw [removeGrant_claimAt]
  split
  · exact Or.inr rfl
  · exact Or.inl rfl

/-- A removal is the removal of R103. -/
theorem removeGrant_removed (f : Flyer) (r : Reason) (s : State) : GrantRemoved s (removeGrant f r s) f r := by
  refine ⟨fun h => ?_, fun g h => ?_⟩
  · unfold removeGrant
    rw [h]
    exact ⟨rfl, rfl, rfl⟩
  · refine ⟨?_, ?_, fun w => ?_⟩
    · rw [removeGrant_grants, h]
    · rw [removeGrant_channels, h]
    · have k : (removeGrant f r s).lines.permit = tabulate (fun w => if s.bindings[w] = some f then .low else s.lines.permit[w]) := by
        rw [removeGrant_permit, h]
      rw [k, tabulate_get]

end Sys2Proof.Machine
end

