-- ==== Sys2Proof/Laws/Rises.lean ====
section
/-! SUPPORT. Which flags each shared operation raises, exactly: `FlagsRaised` for the changes of the claims it makes. -/

namespace Sys2Proof.Machine

/-! ## The attention unit after raises -/

theorem Shown.note_zero (x : Shown) : x.note 0 = x := by
  unfold Shown.note
  rw [show x.raised ||| (0 : FlagSet) = x.raised from BitVec.or_zero]

theorem raisedBy_zero (a : Attention) : raisedBy 0 a = a := by
  have h : ∀ o : Option Shown, o.map (fun x => { x with raised := x.raised ||| (0 : FlagSet) }) = o := by
    intro o
    cases o with
    | none => rfl
    | some x => exact congrArg some x.note_zero
  unfold raisedBy
  rw [h, h, show a.flags ||| (0 : FlagSet) = a.flags from BitVec.or_zero]

theorem raisedBy_raisedBy (m n : FlagSet) (a : Attention) : raisedBy n (raisedBy m a) = raisedBy (m ||| n) a := by
  simp only [raisedBy, Option.map_map, Function.comp_def, BitVec.or_assoc]

/-- A raise sets its flag and is recorded (R166, R169). -/
theorem raiseFlag_attention (f : Flag) (s : State) : (raiseFlag f s).attention = raisedBy f.bit s.attention := rfl

theorem abandonWalk_attention (s : State) : (abandonWalk s).attention = s.attention := by
  unfold abandonWalk
  split
  · rfl
  · dsimp only; split <;> rfl

theorem withdrawEntry_attention (e : Entry) (s : State) : (withdrawEntry e s).attention = s.attention := by
  unfold withdrawEntry
  dsimp only
  split
  · exact abandonWalk_attention s
  · rfl

theorem freeSlot_attention (i : Slot) (s : State) : (freeSlot i s).attention = s.attention := by
  unfold freeSlot
  split
  · rfl
  · dsimp only
    split
    · rw [withdrawEntry_attention]; rfl
    · rfl

theorem checkSubject_attention (e : Entry) (s : State) : (checkSubject e s).attention = s.attention := by
  unfold checkSubject
  split
  · split <;> rfl
  · rfl
  · rfl

theorem beginHead_attention (s : State) : (beginHead s).attention = s.attention := by
  unfold beginHead
  split
  · split
    · rfl
    · rw [checkSubject_attention]; rfl
  · rfl

theorem moveClaim_attention (i : Slot) (st : ClaimState) (s : State) : (moveClaim i st s).attention = s.attention := by
  unfold moveClaim
  split
  · rfl
  · dsimp only; split <;> rfl

theorem descendGrant_attention (f : Flyer) (h : Handle) (s : State) : (descendGrant f h s).attention = s.attention := by
  unfold descendGrant
  split
  · rfl
  · split <;> rfl

theorem breachClaim_attention (f : Flyer) (i : Slot) (s : State) : (breachClaim f i s).attention = s.attention := by
  unfold breachClaim
  split
  · rfl
  · split
    · split
      · exact moveClaim_attention _ _ _
      · exact moveClaim_attention _ _ _
      · rfl
    · rfl

/-! ## The flags that the changes of the claims call for -/

theorem movedFlag_self (a : Option Claim) : movedFlag a a = 0 := by
  cases a with
  | none => rfl
  | some c =>
    cases hs : c.state <;> simp [movedFlag, hs]

/-- A claim gone. -/
theorem movedFlag_gone (c : Claim) : movedFlag (some c) none = 0x008 := rfl

/-- Two changes of a slot of which one is none at all. -/
theorem movedFlag_chain {a b c : Option Claim} (h : b = a ∨ c = b) : movedFlag a c = movedFlag a b ||| movedFlag b c := by
  rcases h with rfl | rfl
  · rw [movedFlag_self]; exact BitVec.zero_or.symm
  · rw [movedFlag_self]; exact BitVec.or_zero.symm

/-- A claim that goes CHECKING as its walk begins calls for no flag. -/
theorem movedFlag_checking {a : Option Claim} {c : Claim} (h : c.state = .queued ∨ c.state = .checking) :
    movedFlag a (some { c with state := .checking }) = movedFlag a (some c) := by
  cases a with
  | none => rfl
  | some d =>
    unfold movedFlag
    rcases h with h | h <;> simp [h]

theorem foldl_or_bit {α : Type} (f : α → FlagSet) (k : Nat) :
    ∀ (l : List α) (m : FlagSet), (l.foldl (fun m j => m ||| f j) m).getLsbD k = (m.getLsbD k || l.any (fun j => (f j).getLsbD k))
  | [], m => by rw [List.foldl_nil, List.any_nil, Bool.or_false]
  | j :: l, m => by rw [List.foldl_cons, foldl_or_bit f k l, BitVec.getLsbD_or, List.any_cons, Bool.or_assoc]

theorem movedFlags_bit (s t : State) (k : Nat) :
    (movedFlags s t).getLsbD k = allSlots.any (fun j => (movedFlag (s.claimAt j) (t.claimAt j)).getLsbD k) := by
  unfold movedFlags
  rw [foldl_or_bit]
  show ((0#11).getLsbD k || _) = _
  rw [BitVec.getLsbD_zero, Bool.false_or]

/-- The flags of two changes together, where slot by slot they are the flags of the change as a whole. -/
theorem movedFlags_split {s t u : State}
    (h : ∀ j, movedFlag (s.claimAt j) (u.claimAt j) = movedFlag (s.claimAt j) (t.claimAt j) ||| movedFlag (t.claimAt j) (u.claimAt j)) :
    movedFlags s u = movedFlags s t ||| movedFlags t u := by
  refine BitVec.eq_of_getLsbD_eq (fun k _ => ?_)
  rw [BitVec.getLsbD_or, movedFlags_bit, movedFlags_bit, movedFlags_bit, Bool.eq_iff_iff]
  simp only [h, BitVec.getLsbD_or, Bool.or_eq_true, List.any_eq_true, and_or_left, exists_or]

theorem movedFlags_congr {s s' t t' : State}
    (h : ∀ j, movedFlag (s'.claimAt j) (t'.claimAt j) = movedFlag (s.claimAt j) (t.claimAt j)) : movedFlags s' t' = movedFlags s t := by
  unfold movedFlags
  congr 1
  funext m j
  rw [h]

/-- A change of one slot alone. -/
theorem movedFlags_one {s t : State} {i : Slot} (h : ∀ j, j ≠ i → t.claimAt j = s.claimAt j) :
    movedFlags s t = movedFlag (s.claimAt i) (t.claimAt i) := by
  refine BitVec.eq_of_getLsbD_eq (fun k _ => ?_)
  rw [movedFlags_bit, Bool.eq_iff_iff, List.any_eq_true]
  constructor
  · rintro ⟨j, _, hj⟩
    by_cases e : j = i
    · rw [← e]; exact hj
    · rw [h j e, movedFlag_self] at hj
      exact absurd (hj.symm.trans BitVec.getLsbD_zero) (by decide)
  · exact fun hk => ⟨i, List.mem_finRange i, hk⟩

theorem movedFlags_same {s t : State} (h : ∀ j, t.claimAt j = s.claimAt j) : movedFlags s t = 0 := by
  rw [movedFlags_one (i := 0) (fun j _ => h j), h, movedFlag_self]

theorem movedFlags_slots {s t : State} (h : t.slots = s.slots) : movedFlags s t = 0 := movedFlags_same (claimAt_congr h)

/-! ## Exactly these flags -/

theorem FlagsRaised.of_eq {s t : State} (hc : ∀ j, t.claimAt j = s.claimAt j) (h : t.attention = s.attention) : FlagsRaised 0 s t := by
  unfold FlagsRaised
  rw [movedFlags_same hc, h]
  exact (raisedBy_zero _).symm

theorem FlagsRaised.refl (s : State) : FlagsRaised 0 s s := .of_eq (fun _ => rfl) rfl

/-- Two events in a row, where every slot is changed by one of them at most. -/
theorem FlagsRaised.trans {m n : FlagSet} {s t u : State} (h : FlagsRaised m s t) (k : FlagsRaised n t u)
    (hc : ∀ j, t.claimAt j = s.claimAt j ∨ u.claimAt j = t.claimAt j) : FlagsRaised (m ||| n) s u := by
  unfold FlagsRaised at *
  rw [k, h, raisedBy_raisedBy, movedFlags_split (fun j => movedFlag_chain (hc j))]
  congr 1
  ac_rfl

/-- One claim changed and the flag that this calls for raised, or none when it calls for none. -/
theorem FlagsRaised.one {s t : State} {i : Slot} (h : ∀ j, j ≠ i → t.claimAt j = s.claimAt j)
    (ha : t.attention = raisedBy (movedFlag (s.claimAt i) (t.claimAt i)) s.attention) : FlagsRaised 0 s t := by
  unfold FlagsRaised
  rw [movedFlags_one h, ha]
  congr 1
  exact BitVec.zero_or.symm

/-- A step of a fold over the slots: it changes one slot's claim alone, and raises exactly the flag that this calls for. -/
def RaisesAt (i : Slot) (s t : State) : Prop := (∀ j, j ≠ i → t.claimAt j = s.claimAt j) ∧ FlagsRaised 0 s t

theorem RaisesAt.refl (i : Slot) (s : State) : RaisesAt i s s := ⟨fun _ _ => rfl, .refl s⟩

theorem foldl_raised (f : State → Slot → State) (h : ∀ t i, RaisesAt i t (f t i)) :
    ∀ (l : List Slot), l.Nodup → ∀ s, FlagsRaised 0 s (l.foldl f s) ∧ ∀ j, j ∉ l → (l.foldl f s).claimAt j = s.claimAt j
  | [], _, s => ⟨.refl s, fun _ _ => rfl⟩
  | i :: l, hl, s => by
    obtain ⟨h1, h2⟩ := foldl_raised f h l (List.nodup_cons.mp hl).2 (f s i)
    refine ⟨?_, fun j hj => ?_⟩
    · refine FlagsRaised.trans (m := 0) (n := 0) (h s i).2 h1 (fun j => ?_)
      by_cases e : j = i
      · exact Or.inr (h2 j (e ▸ (List.nodup_cons.mp hl).1))
      · exact Or.inl ((h s i).1 j e)
    · rw [List.mem_cons, not_or] at hj
      exact (h2 j hj.2).trans ((h s i).1 j hj.1)

/-- A fold of such steps over all slots raises exactly the flags that its changes call for. -/
theorem foldSlots_raised (f : State → Slot → State) (h : ∀ t i, RaisesAt i t (f t i)) (s : State) : FlagsRaised 0 s (allSlots.foldl f s) :=
  (foldl_raised f h allSlots (List.nodup_finRange 32) s).1

/-! ## The operations on one claim -/

theorem expireSlot_raised {i : Slot} {s : State} {c : Claim} (hc : s.claimAt i = some c) : RaisesAt i s (expireSlot i s) := by
  refine ⟨fun j hj => ?_, .one (i := i) (fun j hj => ?_) ?_⟩
  · rw [expireSlot_claimAt, if_neg (fun e => hj e.symm)]
  · rw [expireSlot_claimAt, if_neg (fun e => hj e.symm)]
  · rw [expireSlot_claimAt, if_pos rfl, hc]
    show (raiseFlag .expired (freeSlot i s)).attention = _
    rw [raiseFlag_attention, freeSlot_attention]
    rfl

/-- A claim moved, with nothing else of the slots or the attention unit changed. -/
theorem moved_raised {i : Slot} {st : ClaimState} {s t : State} {c : Claim} (hc : s.claimAt i = some c)
    (hs : t.slots = (moveClaim i st s).slots) (ha : t.attention = raisedBy (movedFlag (some c) (some { c with state := st })) s.attention) :
    RaisesAt i s t := by
  have k : ∀ j, j ≠ i → t.claimAt j = s.claimAt j := by
    intro j hj
    rw [claimAt_congr hs, moveClaim_claimAt, if_neg (fun e => hj e.symm)]
  refine ⟨k, .one k ?_⟩
  rw [ha, claimAt_congr hs, moveClaim_claimAt, if_pos rfl, hc]
  rfl

/-- A move that calls for no flag. -/
theorem moveClaim_raised {i : Slot} {st : ClaimState} {s : State} {c : Claim} (hc : s.claimAt i = some c)
    (h : movedFlag (some c) (some { c with state := st }) = 0) : RaisesAt i s (moveClaim i st s) :=
  moved_raised hc rfl (by rw [h, moveClaim_attention, raisedBy_zero])

/-- A move with the flag that it calls for. -/
theorem moveClaim_raise {i : Slot} {st : ClaimState} {s : State} {c : Claim} {f : Flag} (hc : s.claimAt i = some c)
    (h : movedFlag (some c) (some { c with state := st }) = f.bit) : RaisesAt i s (raiseFlag f (moveClaim i st s)) :=
  moved_raised hc rfl (by rw [h, raiseFlag_attention, moveClaim_attention])

theorem releaseOverlap_raised (i : Slot) (s : State) : RaisesAt i s (releaseOverlap i s) := by
  unfold releaseOverlap
  split
  · exact .refl i s
  · next c hc =>
    split
    · next ended hs =>
      split
      · exact .refl i s
      · split
        · exact moveClaim_raised hc (by simp [movedFlag, hs])
        · exact moveClaim_raise hc (by cases ended <;> simp [movedFlag, hs, Flag.bit])
    · exact .refl i s

theorem openClaim_raised {i : Slot} {s : State} {c : Claim} (hc : s.claimAt i = some c) (hs : c.state = .booked) :
    RaisesAt i s (openClaim i s) := by
  unfold openClaim
  rw [hc]
  dsimp only
  split
  · exact moveClaim_raised hc (by simp [movedFlag, hs])
  · split
    · exact moveClaim_raise hc (by simp [movedFlag, hs, Flag.bit])
    · exact moveClaim_raise hc (by simp [movedFlag, hs, Flag.bit])

theorem openBooked_raised (i : Slot) (s : State) : RaisesAt i s (openBooked i s) := by
  unfold openBooked
  split
  · exact .refl i s
  · next c hc =>
    split
    · next h => exact openClaim_raised hc (of_decide_eq_true (Bool.and_eq_true _ _ ▸ h).1)
    · exact .refl i s

theorem jumpBooked_raised (i : Slot) (s : State) : RaisesAt i s (jumpBooked i s) := by
  unfold jumpBooked
  split
  · exact .refl i s
  · next c hc =>
    split
    · exact expireSlot_raised hc
    · exact openBooked_raised i s

theorem endClaim_raised (i : Slot) (s : State) : RaisesAt i s (endClaim i s) := by
  unfold endClaim
  split
  · exact .refl i s
  · next c hc =>
    split
    · split
      · next hs =>
        split
        · exact expireSlot_raised hc
        · refine moved_raised (st := .overrun) hc ?_ ?_
          · unfold descendGrant
            split
            · rfl
            · split <;> rfl
          · rw [descendGrant_attention, raiseFlag_attention, moveClaim_attention]
            simp [movedFlag, hs, Flag.bit]
      · exact expireSlot_raised hc
      · next hs => exact moveClaim_raised hc (by simp [movedFlag, hs])
      · exact .refl i s
    · exact .refl i s

/-! ## The operations over all claims -/

theorem recheck_raised (s : State) : FlagsRaised 0 s (recheck s) := foldSlots_raised _ (fun t i => releaseOverlap_raised i t) s

theorem endings_raised (s : State) : FlagsRaised 0 s (endings s) := foldSlots_raised _ (fun t i => endClaim_raised i t) s

theorem openings_raised (s : State) : FlagsRaised 0 s (openings s) := foldSlots_raised _ (fun t i => openBooked_raised i t) s

theorem jumpOpenings_raised (s : State) : FlagsRaised 0 s (jumpOpenings s) := foldSlots_raised _ (fun t i => jumpBooked_raised i t) s

theorem groundedEvent_raised (f : Flyer) (s : State) : FlagsRaised 0 s (groundedEvent f s) := by
  unfold groundedEvent
  refine foldSlots_raised _ (fun t i => ?_) s
  split
  · next c hc =>
    split
    · exact expireSlot_raised hc
    · exact .refl i t
  · exact .refl i t

/-- From s to t claims were freed alone, each with EXPIRED (R15, R103). -/
def OnlyExpired (s t : State) : Prop := FlagsRaised 0 s t ∧ ∀ j, t.claimAt j = s.claimAt j ∨ t.claimAt j = none

theorem OnlyExpired.refl (s : State) : OnlyExpired s s := ⟨.refl s, fun _ => Or.inl rfl⟩

theorem OnlyExpired.trans {s t u : State} (h : OnlyExpired s t) (k : OnlyExpired t u) : OnlyExpired s u := by
  refine ⟨FlagsRaised.trans (m := 0) (n := 0) h.1 k.1 (fun j => ?_), fun j => ?_⟩
  · rcases h.2 j with e | e
    · exact Or.inl e
    · rcases k.2 j with e' | e'
      · exact Or.inr e'
      · exact Or.inr (e'.trans e.symm)
  · rcases k.2 j with e' | e'
    · rw [e']; exact h.2 j
    · exact Or.inr e'

theorem groundedEvent_expired (f : Flyer) (s : State) : OnlyExpired s (groundedEvent f s) := by
  refine ⟨groundedEvent_raised f s, fun j => ?_⟩
  rw [groundedEvent_claimAt]
  cases s.claimAt j with
  | none => exact Or.inl rfl
  | some d =>
    rw [Option.filter]
    split
    · exact Or.inl rfl
    · exact Or.inr rfl

theorem removeGrant_expired (f : Flyer) (r : Reason) (s : State) : OnlyExpired s (removeGrant f r s) := by
  unfold removeGrant
  split
  · exact .refl s
  · next g _ =>
    obtain ⟨u, hu⟩ : ∃ u, u = queueFrame f (.revoke g.seq r) (drivePermits f .low (s.setGrant f { s.grants[f] with live := none })) :=
      ⟨_, rfl⟩
    have h : OnlyExpired s u := by subst hu; exact ⟨.of_eq (fun _ => rfl) rfl, fun _ => Or.inl rfl⟩
    dsimp only
    rw [← hu]
    split
    · exact h.trans (groundedEvent_expired f u)
    · exact h

theorem removeAllGrants_expired (s : State) : OnlyExpired s (removeAllGrants s) := by
  unfold removeAllGrants
  exact foldl_frame OnlyExpired .refl (fun _ _ _ h k => h.trans k) _ (fun t f => removeGrant_expired f .hold t) allFlyers s

/-! ## The close of an event -/

/-- The beginning of the head's walk calls for no flag. -/
theorem movedFlags_beginHead {s u : State} (h : HeadFits u) : movedFlags s (beginHead u) = movedFlags s u := by
  refine movedFlags_congr (fun j => ?_)
  rcases beginHead_cases u j with k | ⟨g, c, hq, rfl, hr, k⟩
  · rw [k]
  · rw [k, (resolve_eq_some.mp hr).2]
    exact movedFlag_checking (h g c hq hr)

theorem beginHead_raised {m : FlagSet} {s u : State} (h : HeadFits u) (hr : FlagsRaised m s u) : FlagsRaised m s (beginHead u) := by
  unfold FlagsRaised at *
  rw [beginHead_attention, movedFlags_beginHead h]
  exact hr

/-- The close of an event raises exactly the flags that the releases of its re-check call for (R13). -/
theorem closeEvent_raised {u : State} (h : HeadFits u) (asked : Bool) (s : State) : FlagsRaised 0 u (closeEvent asked s u) := by
  unfold closeEvent
  split
  · exact beginHead_raised (recheck_headFits h) (recheck_raised u)
  · exact beginHead_raised h (.refl u)

theorem OverstayedIn.beginHead_iff {u : State} (h : HeadFits u) (f : Flyer) (r : Box) :
    OverstayedIn (beginHead u) f r ↔ OverstayedIn u f r := by
  rw [← overlapsOverstayer_iff, ← overlapsOverstayer_iff, overlapsOverstayer_congr (s := u) (t := beginHead u)]
  intro j c hc
  rcases beginHead_cases u j with k | ⟨g, x, hq, rfl, hr, k⟩
  · rw [k]
  · rw [k, (resolve_eq_some.mp hr).2]
    constructor
    · intro e; cases e; cases hc
    · intro e; cases e; have k := h g _ hq hr; rcases k with k | k <;> rw [k] at hc <;> cases hc

theorem OverstayedIn.recheck_iff {u : State} (hn : ∀ (i : Slot) (c : Claim), u.claimAt i = some c → c.state ≠ .held .overlap true)
    (f : Flyer) (r : Box) : OverstayedIn (recheck u) f r ↔ OverstayedIn u f r := by
  rw [← overlapsOverstayer_iff, ← overlapsOverstayer_iff, overlapsOverstayer_congr (s := u) (t := recheck u)]
  intro j c hc
  rw [recheck_claimAt hn]
  cases hj : u.claimAt j with
  | none => exact Iff.rfl
  | some d =>
    rw [Option.map_some]
    unfold rechecked
    split
    · next h =>
      constructor
      · intro e
        cases e
        dsimp only at hc
        split at hc <;> cases hc
      · intro e
        cases e
        rw [h.1] at hc
        cases hc
    · rfl

/-- A HELD OVERLAP claim of a state with R26's law is not ended, and lies beside an overstaying claim. -/
theorem OverlapLaw.held {s : State} (ho : OverlapLaw s) {j : Slot} {c : Claim} {m : Bool} (hc : s.claimAt j = some c)
    (hs : c.state = .held .overlap m) : m = false ∧ OverstayedIn s c.flyer c.region := by
  have h := ho j
  rw [hc] at h
  simp only [Option.all_some, hs, Bool.and_eq_true, Bool.not_eq_true'] at h
  exact ⟨h.1, (overlapsOverstayer_iff _ _ _).mp h.2⟩

theorem OverlapLaw.not_ended {s : State} (ho : OverlapLaw s) (i : Slot) (c : Claim) (hc : s.claimAt i = some c) :
    c.state ≠ .held .overlap true := by
  intro hs
  cases (ho.held hc hs).1

/-- After an event in which every overstaying claim stayed one in its place, no HELD OVERLAP claim is released. -/
theorem quiet_judged {own : Option Slot} {s u : State} (ho : OverlapLaw s) (hf : HeadFits u)
    (hkeep : ∀ j c, own ≠ some j → s.claimAt j = some c → c.state = .held .overlap false → u.claimAt j = some c)
    (hover : ∀ i c, s.claimAt i = some c → c.state.overstaying = true →
      ∃ d, u.claimAt i = some d ∧ d.state.overstaying = true ∧ d.flyer = c.flyer ∧ d.region = c.region) :
    OverlapsJudged own s (beginHead u) := by
  intro j c hj hc hs
  obtain ⟨i, d, hd, hv, hne, hr⟩ := (ho.held hc hs).2
  obtain ⟨e, he, hve, h1, h2⟩ := hover i d hd hv
  refine ⟨fun _ => beginHead_stays hf (hkeep j c hj hc hs) (by rw [hs]; nofun) (by rw [hs]; nofun), fun hn => ?_⟩
  exact absurd ((OverstayedIn.beginHead_iff hf _ _).mpr ⟨i, e, he, hve, h1 ▸ hne, h2 ▸ hr⟩) hn

/-- The close of an event that began in r releases every HELD OVERLAP claim of s that no overstaying claim lies beside any longer, and no other (R13, R26). -/
theorem closeEvent_judged {own : Option Slot} {asked : Bool} {r s u : State} (ho : OverlapLaw s) (hf : HeadFits u)
    (hb : ∀ f : Flyer, u.flyers[f].breach = s.flyers[f].breach)
    (hkeep : ∀ j c, own ≠ some j → s.claimAt j = some c → c.state = .held .overlap false → u.claimAt j = some c)
    (hn : ∀ (i : Slot) (c : Claim), u.claimAt i = some c → c.state ≠ .held .overlap true)
    (hr : ∀ i, s.overstayingAt i = true → r.overstayingAt i = true)
    (hover : asked = false → ∀ i c d, s.claimAt i = some c → c.state.overstaying = true → u.claimAt i = some d →
      d.state.overstaying = true → d.flyer = c.flyer ∧ d.region = c.region) :
    OverlapsJudged own s (closeEvent asked r u) := by
  unfold closeEvent
  split
  · intro j c hj hc hs
    have hu := hkeep j c hj hc hs
    have HR := recheck_headFits hf
    have hre : (recheck u).claimAt j = some (rechecked u c) := by rw [recheck_claimAt hn, hu]; rfl
    have iff : OverstayedIn (beginHead (recheck u)) c.flyer c.region ↔ u.overlapsOverstayer c.flyer c.region = true :=
      ((OverstayedIn.beginHead_iff HR _ _).trans (OverstayedIn.recheck_iff hn _ _)).trans (overlapsOverstayer_iff _ _ _).symm
    refine ⟨fun h => ?_, fun h => ?_⟩
    · have : rechecked u c = c := by unfold rechecked; rw [if_neg (fun e => by rw [iff.mp h] at e; cases e.2)]
      rw [this] at hre
      exact beginHead_stays HR hre (by rw [hs]; nofun) (by rw [hs]; nofun)
    · have hfree : u.overlapsOverstayer c.flyer c.region = false := by
        cases e : u.overlapsOverstayer c.flyer c.region
        · rfl
        · exact absurd (iff.mpr e) h
      have hbr : (u.breached c.flyer = true) ↔ ¬ s.flyers[c.flyer].breach = none := by
        unfold State.breached
        rw [hb]
        cases s.flyers[c.flyer].breach <;> simp
      have : rechecked u c = { c with state := if s.flyers[c.flyer].breach = none then .active else .held .breach false } := by
        unfold rechecked
        rw [if_pos ⟨hs, hfree⟩]
        by_cases e : s.flyers[c.flyer].breach = none
        · rw [if_pos e, if_neg (fun k => hbr.mp k e)]
        · rw [if_neg e, if_pos (hbr.mpr e)]
      rw [this] at hre
      refine beginHead_stays HR hre ?_ ?_
      all_goals
        dsimp only
        split <;> nofun
  · next h =>
    rw [Bool.or_eq_true, not_or, Bool.not_eq_true, Bool.not_eq_true, ceasedOverstay_eq_false] at h
    refine quiet_judged ho hf hkeep (fun i c hc hv => ?_)
    have hi := (h.2 i (hr i (by unfold State.overstayingAt; rw [hc]; exact hv))).2
    unfold State.overstayingAt at hi
    cases hd : u.claimAt i with
    | none => rw [hd] at hi; cases hi
    | some d =>
      rw [hd] at hi
      exact ⟨d, rfl, hi, hover h.1 i c d hc hv hd hi⟩

end Sys2Proof.Machine
end

