-- ==== Sys2Proof/Laws/Follows.lean ====
section
/-! SUPPORT. What the events that book nothing do to the admission queue and to the lookup port's turn: entries leave with their claims, and no other does. -/

namespace Sys2Proof.Machine

/-- Every entry's subject is as R27 says: the last clause of `QueueLaw`. -/
def SubjectsFit (s : State) : Prop := ∀ e ∈ s.admission.queue, subjectFits s e = true

/-- From s to t the round robin's place is kept, and the walk count too, or an abandoned walk set it to 0 (R24, R46); `Laws/Goes.lean` says when. -/
def TurnMoved (s t : State) : Prop :=
  t.arbiter.lastServed = s.arbiter.lastServed ∧ (t.arbiter.walkCount = s.arbiter.walkCount ∨ t.arbiter.walkCount = 0)

/-- From s to t nothing is booked, the queue loses the entries of freed claims alone, the rest still fit, and the port's turn is kept. -/
def Follows (s t : State) : Prop :=
  (∀ j : Slot, t.slots[j].gen = s.slots[j].gen ∧ (s.claimAt j = none → t.claimAt j = none)) ∧
  TurnMoved s t ∧ (SubjectsFit s → SubjectsFit t ∧ QueueFollows s t)

theorem fits_book {s t : State} {g : Handle} (h : t.resolve g = s.resolve g) (k : subjectFits s (.book g) = true) :
    subjectFits t (.book g) = true := by
  simp only [subjectFits, h] at *; exact k

theorem fits_amend {s t : State} {g : Handle} (h : t.resolve g = s.resolve g) (k : subjectFits s (.amend g) = true) :
    subjectFits t (.amend g) = true := by
  simp only [subjectFits, h] at *; exact k

theorem fits_zone {s t : State} {z : Zone} (h : t.zones = s.zones) (k : subjectFits s (.zone z) = true) :
    subjectFits t (.zone z) = true := by
  simp only [subjectFits, h] at *; exact k

theorem named_book {s t : State} {g : Handle} (h : t.resolve g = s.resolve g) :
    stillNamed t (.book g) = stillNamed s (.book g) := by simp only [stillNamed, h]

theorem named_amend {s t : State} {g : Handle} (h : t.resolve g = s.resolve g) :
    stillNamed t (.amend g) = stillNamed s (.amend g) := by simp only [stillNamed, h]

theorem stillNamed_of_fits {s : State} {e : Entry} (h : subjectFits s e = true) : stillNamed s e = true := by
  cases e with
  | book g => cases hr : s.resolve g with
    | none => simp [subjectFits, hr] at h
    | some c => simp [stillNamed, hr]
  | amend g => cases hr : s.resolve g with
    | none => simp [subjectFits, hr] at h
    | some c => simp [stillNamed, hr]
  | zone z => rfl

theorem QueueFollows.keep {s t : State} (hf : SubjectsFit t) (hq : t.admission.queue = s.admission.queue) : QueueFollows s t := by
  unfold QueueFollows
  rw [hq]
  exact (List.filter_eq_self.mpr (fun e he => stillNamed_of_fits (hf e (by rw [hq]; exact he)))).symm

theorem Follows.refl (s : State) : Follows s s :=
  ⟨fun _ => ⟨rfl, fun h => h⟩, ⟨rfl, Or.inl rfl⟩, fun h => ⟨h, .keep h rfl⟩⟩

theorem stillNamed_back {t u : State} (hg : ∀ j : Slot, u.slots[j].gen = t.slots[j].gen ∧ (t.claimAt j = none → u.claimAt j = none))
    {e : Entry} (h : stillNamed u e = true) : stillNamed t e = true := by
  have k : ∀ g : Handle, (u.resolve g).isSome = true → (t.resolve g).isSome = true := by
    intro g hg'
    cases hr : u.resolve g with
    | none => rw [hr] at hg'; cases hg'
    | some c =>
      obtain ⟨h1, h2⟩ := resolve_eq_some.mp hr
      cases ht : t.claimAt g.slot with
      | none => rw [(hg g.slot).2 ht] at h2; cases h2
      | some d => rw [resolve_eq_some.mpr ⟨(hg g.slot).1 ▸ h1, ht⟩]; rfl
  cases e with
  | book g => exact k g h
  | amend g => exact k g h
  | zone z => rfl

theorem TurnMoved.trans {s t u : State} (h : TurnMoved s t) (k : TurnMoved t u) : TurnMoved s u := by
  refine ⟨k.1.trans h.1, ?_⟩
  rcases k.2 with k | k
  · rcases h.2 with h | h
    · exact Or.inl (k.trans h)
    · exact Or.inr (k.trans h)
  · exact Or.inr k

theorem Follows.trans {s t u : State} (h : Follows s t) (k : Follows t u) : Follows s u := by
  refine ⟨fun j => ⟨(k.1 j).1.trans (h.1 j).1, fun e => (k.1 j).2 ((h.1 j).2 e)⟩, h.2.1.trans k.2.1, fun f => ?_⟩
  obtain ⟨f1, q1⟩ := h.2.2 f
  obtain ⟨f2, q2⟩ := k.2.2 f1
  refine ⟨f2, ?_⟩
  unfold QueueFollows at *
  rw [q2, q1, List.filter_filter]
  refine List.filter_congr (fun e _ => ?_)
  cases hu : stillNamed u e with
  | false => rfl
  | true => rw [stillNamed_back k.1 hu]; rfl

/-- States with the same slots, zones, queue and turn. -/
theorem Follows.of_eq {s t : State} (hs : t.slots = s.slots) (hz : t.zones = s.zones)
    (hq : t.admission.queue = s.admission.queue) (ha : t.arbiter = s.arbiter) : Follows s t := by
  have hr : ∀ g, t.resolve g = s.resolve g := by
    intro g; unfold State.resolve; rw [gen_congr hs, claimAt_congr hs]
  have fit : SubjectsFit s → SubjectsFit t := by
    intro h e he
    rw [hq] at he
    have := h e he
    cases e with
    | book g => exact fits_book (hr g) this
    | amend g => exact fits_amend (hr g) this
    | zone z => exact fits_zone hz this
  exact ⟨fun j => ⟨gen_congr hs j, fun h => by rw [claimAt_congr hs]; exact h⟩, ⟨by rw [ha], Or.inl (by rw [ha])⟩,
    fun h => ⟨fit h, .keep (fit h) hq⟩⟩

/-- A move of a claim that no BOOK entry names into an occupying state. -/
theorem moveClaim_follows {i : Slot} {st : ClaimState} {s : State}
    (h : ∀ c, s.claimAt i = some c → c.state ≠ .queued ∧ c.state ≠ .checking) (ho : st.occupying = true) :
    Follows s (moveClaim i st s) := by
  obtain ⟨t, ht⟩ : ∃ t, t = moveClaim i st s := ⟨_, rfl⟩
  have hc : ∀ j, t.claimAt j = if i = j then (s.claimAt i).map (fun c => { c with state := st }) else s.claimAt j := by
    intro j; rw [ht]; exact moveClaim_claimAt i j st s
  have hg : ∀ j : Slot, t.slots[j].gen = s.slots[j].gen := by intro j; rw [ht]; exact moveClaim_gen i j st s
  have hq : t.admission.queue = s.admission.queue := by rw [ht]; exact moveClaim_queue i st s
  have hfr : ClaimFrame s t := ht ▸ moveClaim_frame i st s
  have ha : t.arbiter = s.arbiter := by rw [ht]; exact moveClaim_arbiter i st s
  have hz : t.zones = s.zones := hfr.zones
  rw [← ht]
  have fit : SubjectsFit s → SubjectsFit t := by
    intro hf e he
    rw [hq] at he
    have k := hf e he
    cases e with
    | book g =>
      cases hr : s.resolve g with
      | none => simp [subjectFits, hr] at k
      | some c =>
        obtain ⟨h1, h2⟩ := resolve_eq_some.mp hr
        simp only [subjectFits, hr, Option.any_some, Bool.or_eq_true, decide_eq_true_eq] at k
        have hne : i ≠ g.slot := by
          rintro rfl
          rcases k with k | k
          · exact (h c h2).1 k
          · exact (h c h2).2 k
        have : t.resolve g = some c := resolve_eq_some.mpr ⟨(hg _).trans h1, by rw [hc, if_neg hne]; exact h2⟩
        simp only [subjectFits, this, Option.any_some, Bool.or_eq_true, decide_eq_true_eq]
        exact k
    | amend g =>
      cases hr : s.resolve g with
      | none => simp [subjectFits, hr] at k
      | some c =>
        obtain ⟨h1, h2⟩ := resolve_eq_some.mp hr
        simp only [subjectFits, hr, Option.any_some, Bool.and_eq_true] at k
        by_cases hne : i = g.slot
        · have : t.resolve g = some { c with state := st } :=
            resolve_eq_some.mpr ⟨(hg _).trans h1, by rw [hc, if_pos hne, hne, h2]; rfl⟩
          simp only [subjectFits, this, Option.any_some, Bool.and_eq_true]
          exact ⟨ho, k.2⟩
        · have : t.resolve g = some c := resolve_eq_some.mpr ⟨(hg _).trans h1, by rw [hc, if_neg hne]; exact h2⟩
          simp only [subjectFits, this, Option.any_some, Bool.and_eq_true]
          exact k
    | zone z => exact fits_zone hz k
  refine ⟨fun j => ⟨hg j, fun e => ?_⟩, ⟨by rw [ha], Or.inl (by rw [ha])⟩, fun h' => ⟨fit h', .keep (fit h') hq⟩⟩
  rw [hc]
  split
  · next e' => subst e'; rw [e]; rfl
  · exact e

theorem moveClaim_follows_of {i : Slot} {st : ClaimState} {s : State} {c : Claim} (hc : s.claimAt i = some c)
    (h1 : c.state ≠ .queued) (h2 : c.state ≠ .checking) (ho : st.occupying = true) : Follows s (moveClaim i st s) :=
  moveClaim_follows (fun d hd => by rw [hc] at hd; cases hd; exact ⟨h1, h2⟩) ho

theorem abandonWalk_turn (s : State) : TurnMoved s (abandonWalk s) := by
  unfold abandonWalk
  split
  · exact ⟨rfl, Or.inl rfl⟩
  · dsimp only
    split
    · exact ⟨rfl, Or.inr rfl⟩
    · exact ⟨rfl, Or.inl rfl⟩

theorem withdrawEntry_turn (e : Entry) (s : State) : TurnMoved s (withdrawEntry e s) := by
  unfold withdrawEntry
  dsimp only
  split
  · exact abandonWalk_turn s
  · exact ⟨rfl, Or.inl rfl⟩

/-- Freeing a claim that no BOOK entry names takes the entry of its pending amendment along, and no other. -/
theorem freeSlot_follows {i : Slot} {s : State}
    (h : ∀ c, s.claimAt i = some c → c.state ≠ .queued ∧ c.state ≠ .checking) : Follows s (freeSlot i s) := by
  obtain ⟨t, ht⟩ : ∃ t, t = freeSlot i s := ⟨_, rfl⟩
  have hc : ∀ j, t.claimAt j = if i = j then none else s.claimAt j := by intro j; rw [ht]; exact freeSlot_claimAt i j s
  have hg : ∀ j : Slot, t.slots[j].gen = s.slots[j].gen := by intro j; rw [ht]; exact freeSlot_gen i j s
  have hz : t.zones = s.zones := (ht ▸ freeSlot_frame i s : ClaimFrame s t).zones
  have hturn : TurnMoved s t := by
    rw [ht]; unfold freeSlot
    split
    · exact ⟨rfl, Or.inl rfl⟩
    · dsimp only
      split
      · exact withdrawEntry_turn _ _
      · exact ⟨rfl, Or.inl rfl⟩
  have hq : SubjectsFit s → t.admission.queue = s.admission.queue.filter (fun e => decide (e ≠ .amend (s.handleAt i))) := by
    intro hf
    have same : (∀ c, s.claimAt i = some c → c.amend = none) →
        s.admission.queue = s.admission.queue.filter (fun e => decide (e ≠ .amend (s.handleAt i))) := by
      intro hn
      refine (List.filter_eq_self.mpr (fun e he => ?_)).symm
      rw [decide_eq_true_eq]
      rintro rfl
      have k := hf _ he
      cases hr : s.resolve (s.handleAt i) with
      | none => simp [subjectFits, hr] at k
      | some c =>
        have := hn c (resolve_eq_some.mp hr).2
        simp [subjectFits, hr, this] at k
    rw [ht]; unfold freeSlot
    split
    · next e => exact same (fun c hc => by rw [e] at hc; cases hc)
    · next c e =>
      dsimp only
      split
      · rw [withdrawEntry_queue]; rfl
      · next hn =>
        refine Eq.trans rfl (same (fun d hd => ?_))
        rw [e] at hd; cases hd
        cases ha : c.amend
        · rfl
        · rw [ha] at hn; exact absurd rfl hn
  rw [← ht]
  refine ⟨fun j => ⟨hg j, fun e => ?_⟩, hturn, fun hf => ?_⟩
  · rw [hc]; split
    · rfl
    · exact e
  have other : ∀ g : Handle, i ≠ g.slot → t.resolve g = s.resolve g := by
    intro g hne; unfold State.resolve; rw [hg, hc, if_neg hne]
  have bookOff : ∀ g, Entry.book g ∈ s.admission.queue → i ≠ g.slot := by
    intro g he e
    have k := hf _ he
    cases hr : s.resolve g with
    | none => simp [subjectFits, hr] at k
    | some c =>
      simp only [subjectFits, hr, Option.any_some, Bool.or_eq_true, decide_eq_true_eq] at k
      have := h c (e ▸ (resolve_eq_some.mp hr).2)
      rcases k with k | k
      · exact this.1 k
      · exact this.2 k
  have amendAt : ∀ g, Entry.amend g ∈ s.admission.queue → i = g.slot → g = s.handleAt i := by
    intro g he e
    have k := hf _ he
    cases hr : s.resolve g with
    | none => simp [subjectFits, hr] at k
    | some c =>
      have := (resolve_eq_some.mp hr).1
      cases g
      subst e
      unfold State.handleAt
      congr 1
      exact this.symm
  refine ⟨fun e he => ?_, ?_⟩
  · rw [hq hf, List.mem_filter, decide_eq_true_eq] at he
    have k := hf e he.1
    cases e with
    | book g => exact fits_book (other g (bookOff g he.1)) k
    | amend g =>
      have : i ≠ g.slot := fun e => he.2 (by rw [amendAt g he.1 e])
      exact fits_amend (other g this) k
    | zone z => exact fits_zone hz k
  · unfold QueueFollows
    rw [hq hf]
    refine List.filter_congr (fun e he => ?_)
    have k := stillNamed_of_fits (hf e he)
    cases e with
    | book g =>
      have : stillNamed t (.book g) = true := (named_book (other g (bookOff g he))).trans k
      rw [this]; rfl
    | amend g =>
      by_cases hi : i = g.slot
      · have e1 := amendAt g he hi
        have e2 : stillNamed t (.amend g) = false := by
          simp only [stillNamed, resolve_free (show t.claimAt g.slot = none by rw [hc, if_pos hi]), Option.isSome_none]
        rw [e2, e1]; simp
      · have : stillNamed t (.amend g) = true := (named_amend (other g hi)).trans k
        rw [this, decide_eq_true_eq]
        intro e; cases e; exact hi rfl
    | zone z => simp [stillNamed]

theorem raiseFlag_follows (f : Flag) (s : State) : Follows s (raiseFlag f s) := .of_eq rfl rfl rfl rfl

theorem expireSlot_follows {i : Slot} {s : State}
    (h : ∀ c, s.claimAt i = some c → c.state ≠ .queued ∧ c.state ≠ .checking) : Follows s (expireSlot i s) :=
  (freeSlot_follows h).trans (raiseFlag_follows _ _)

theorem foldSlots_follows (f : State → Slot → State) (h : ∀ t i, Follows t (f t i)) (s : State) :
    Follows s (allSlots.foldl f s) :=
  foldl_frame Follows .refl (fun _ _ _ h k => h.trans k) f h allSlots s

theorem groundedEvent_follows (f : Flyer) (s : State) : Follows s (groundedEvent f s) := by
  unfold groundedEvent
  refine foldSlots_follows _ (fun t i => ?_) s
  split
  · next c hc =>
    split
    · next hs =>
      simp only [Bool.and_eq_true, decide_eq_true_eq] at hs
      refine expireSlot_follows (fun d hd => ?_)
      rw [hc] at hd; cases hd
      rw [hs.1.2]
      exact ⟨nofun, nofun⟩
    · exact .refl t
  · exact .refl t

theorem removeGrant_follows (f : Flyer) (r : Reason) (s : State) : Follows s (removeGrant f r s) := by
  unfold removeGrant
  split
  · exact .refl s
  · next g _ =>
    obtain ⟨u, hu⟩ : ∃ u, u = queueFrame f (.revoke g.seq r) (drivePermits f .low (s.setGrant f { s.grants[f] with live := none })) :=
      ⟨_, rfl⟩
    have h : Follows s u := .of_eq (by rw [hu]; rfl) (by rw [hu]; rfl) (by rw [hu]; rfl) (by rw [hu]; rfl)
    dsimp only
    rw [← hu]
    split
    · exact h.trans (groundedEvent_follows f u)
    · exact h

theorem removeAllGrants_follows (s : State) : Follows s (removeAllGrants s) := by
  unfold removeAllGrants
  exact foldl_frame Follows .refl (fun _ _ _ h k => h.trans k) _ (fun t f => removeGrant_follows f .hold t) allFlyers s

theorem releaseOverlap_follows (i : Slot) (s : State) : Follows s (releaseOverlap i s) := by
  unfold releaseOverlap
  split
  · exact .refl s
  · next c hc =>
    split
    · next e hs =>
      have h1 : c.state ≠ .queued := by rw [hs]; nofun
      have h2 : c.state ≠ .checking := by rw [hs]; nofun
      split
      · exact .refl s
      · split
        · exact moveClaim_follows_of hc h1 h2 rfl
        · exact (moveClaim_follows_of hc h1 h2 rfl).trans (raiseFlag_follows _ _)
    · exact .refl s

theorem recheck_follows (s : State) : Follows s (recheck s) := by
  unfold recheck
  exact foldSlots_follows _ (fun t i => releaseOverlap_follows i t) s

theorem beginHead_follows (s : State) : Follows s (beginHead s) := by
  obtain ⟨t, ht⟩ : ∃ t, t = beginHead s := ⟨_, rfl⟩
  have hg : ∀ j : Slot, t.slots[j].gen = s.slots[j].gen := by intro j; rw [ht]; exact beginHead_gen s j
  have hq : t.admission.queue = s.admission.queue := by rw [ht]; exact beginHead_queue s
  have hz : t.zones = s.zones := (ht ▸ beginHead_frame s : ClaimFrame s t).zones
  have ha : t.arbiter = s.arbiter := by rw [ht]; exact beginHead_arbiter s
  have hcs : ∀ j, t.claimAt j = s.claimAt j ∨ ∃ (g : Handle) (x : Claim), s.admission.queue.head? = some (.book g) ∧
      g.slot = j ∧ s.resolve g = some x ∧ t.claimAt j = some { x with state := .checking } := by
    intro j; rw [ht]; exact beginHead_cases s j
  rw [← ht]
  refine ⟨fun j => ⟨hg j, fun e => ?_⟩, ⟨by rw [ha], Or.inl (by rw [ha])⟩, fun hf => ?_⟩
  · rcases hcs j with k | ⟨g, x, -, k2, k3, -⟩
    · rw [k]; exact e
    · subst k2; rw [(resolve_eq_some.mp k3).2] at e; cases e
  have fit : SubjectsFit t := by
    intro e he
    rw [hq] at he
    have k := hf e he
    cases e with
    | book g =>
      cases hr : s.resolve g with
      | none => simp [subjectFits, hr] at k
      | some c =>
        obtain ⟨h1, h2⟩ := resolve_eq_some.mp hr
        rcases hcs g.slot with k' | ⟨g', x, k1, k2, k3, k4⟩
        · exact fits_book ((resolve_eq_some.mpr ⟨(hg _).trans h1, k'.trans h2⟩ : t.resolve g = some c).trans hr.symm) k
        · have : t.resolve g = some { x with state := .checking } := resolve_eq_some.mpr ⟨(hg _).trans h1, k4⟩
          simp only [subjectFits, this]; rfl
    | amend g =>
      cases hr : s.resolve g with
      | none => simp [subjectFits, hr] at k
      | some c =>
        obtain ⟨h1, h2⟩ := resolve_eq_some.mp hr
        rcases hcs g.slot with k' | ⟨g', x, k1, k2, k3, -⟩
        · exact fits_amend ((resolve_eq_some.mpr ⟨(hg _).trans h1, k'.trans h2⟩ : t.resolve g = some c).trans hr.symm) k
        · exfalso
          have kb := hf (.book g') (List.mem_of_mem_head? k1)
          have hx := (resolve_eq_some.mp k3).2
          rw [k2, h2] at hx
          cases hx
          simp only [subjectFits, k3, hr, Option.any_some, Bool.or_eq_true, Bool.and_eq_true, decide_eq_true_eq] at kb k
          rcases kb with kb | kb <;> rw [kb] at k <;> exact absurd k.1 (by decide)
    | zone z => exact fits_zone hz k
  exact ⟨fit, .keep fit hq⟩

theorem closeEvent_follows (asked : Bool) (s t : State) : Follows t (closeEvent asked s t) := by
  unfold closeEvent
  split
  · exact (recheck_follows t).trans (beginHead_follows _)
  · exact beginHead_follows t

theorem openClaim_follows {i : Slot} {s : State} {c : Claim} (hc : s.claimAt i = some c) (h1 : c.state ≠ .queued)
    (h2 : c.state ≠ .checking) : Follows s (openClaim i s) := by
  unfold openClaim
  rw [hc]
  dsimp only
  split
  · exact moveClaim_follows_of hc h1 h2 rfl
  · split
    · exact (moveClaim_follows_of hc h1 h2 rfl).trans (raiseFlag_follows _ _)
    · exact (moveClaim_follows_of hc h1 h2 rfl).trans (raiseFlag_follows _ _)

theorem breachClaim_follows (f : Flyer) (i : Slot) (s : State) : Follows s (breachClaim f i s) := by
  unfold breachClaim
  split
  · exact .refl s
  · next c hc =>
    split
    · split
      · next hs => exact moveClaim_follows_of hc (by rw [hs]; nofun) (by rw [hs]; nofun) rfl
      · next hs => exact moveClaim_follows_of hc (by rw [hs]; nofun) (by rw [hs]; nofun) rfl
      · exact .refl s
    · exact .refl s

theorem breachClaims_follows (f : Flyer) (s : State) : Follows s (breachClaims f s) := by
  unfold breachClaims
  exact foldSlots_follows _ (fun t i => breachClaim_follows f i t) s

theorem descendGrant_follows (f : Flyer) (h : Handle) (s : State) : Follows s (descendGrant f h s) := by
  unfold descendGrant
  split
  · exact .refl s
  · split
    · exact .of_eq rfl rfl rfl rfl
    · exact .refl s

theorem endClaim_follows (i : Slot) (s : State) : Follows s (endClaim i s) := by
  unfold endClaim
  split
  · exact .refl s
  · next c hc =>
    have free : ∀ st, c.state = st → st ≠ .queued → st ≠ .checking →
        ∀ d, s.claimAt i = some d → d.state ≠ .queued ∧ d.state ≠ .checking := by
      intro st e h1 h2 d hd
      rw [hc] at hd; cases hd
      rw [e]; exact ⟨h1, h2⟩
    split
    · split
      · next hs =>
        split
        · exact expireSlot_follows (free _ hs nofun nofun)
        · exact ((moveClaim_follows (free _ hs nofun nofun) rfl).trans (raiseFlag_follows _ _)).trans
            (descendGrant_follows _ _ _)
      · next hs => exact expireSlot_follows (free _ hs nofun nofun)
      · next hs => exact moveClaim_follows (free _ hs nofun nofun) rfl
      · exact .refl s
    · exact .refl s

theorem endings_follows (s : State) : Follows s (endings s) := by
  unfold endings
  exact foldSlots_follows _ (fun t i => endClaim_follows i t) s

theorem openBooked_follows (i : Slot) (s : State) : Follows s (openBooked i s) := by
  unfold openBooked
  split
  · exact .refl s
  · next c hc =>
    split
    · next hs =>
      simp only [Bool.and_eq_true, decide_eq_true_eq] at hs
      exact openClaim_follows hc (by rw [hs.1]; nofun) (by rw [hs.1]; nofun)
    · exact .refl s

theorem openings_follows (s : State) : Follows s (openings s) := by
  unfold openings
  exact foldSlots_follows _ (fun t i => openBooked_follows i t) s

theorem jumpBooked_follows (i : Slot) (s : State) : Follows s (jumpBooked i s) := by
  unfold jumpBooked
  split
  · exact .refl s
  · next c hc =>
    split
    · next hs =>
      simp only [Bool.and_eq_true, decide_eq_true_eq] at hs
      refine expireSlot_follows (fun d hd => ?_)
      rw [hc] at hd; cases hd
      rw [hs.1]; exact ⟨nofun, nofun⟩
    · exact openBooked_follows i s

theorem jumpOpenings_follows (s : State) : Follows s (jumpOpenings s) := by
  unfold jumpOpenings
  exact foldSlots_follows _ (fun t i => jumpBooked_follows i t) s

theorem tickEvent_follows (s : State) : Follows s (tickEvent s) :=
  (endings_follows s).trans ((openings_follows _).trans (closeEvent_follows false s _))

theorem jumpEvent_follows (s : State) : Follows s (jumpEvent s) :=
  (endings_follows s).trans ((jumpOpenings_follows _).trans (closeEvent_follows false s _))

/-- What `Follows` says of the queue, from a state whose queue is as R27 gives it. -/
theorem Follows.queue {s t : State} (h : Follows s t) (hq : QueueLaw s) : QueueFollows s t := (h.2.2 hq.2.2).2

end Sys2Proof.Machine
end

