-- ==== Sys2Proof/Laws/Goes.lean ====
section
/-! SUPPORT. What the events that book nothing make of the walk in flight and of its turn at the lookup port: it goes on, is begun again where its subject moves, and is withdrawn with its entry. -/

namespace Sys2Proof.Machine

/-- A walk of an entry at its beginning, with its candidate formed from the subject as it stands in t; none when there is nothing to form it from. -/
def walkBegun (e : Entry) (t : State) : Option Walk :=
  (t.candidateOf e).map (fun c => { subject := e, cand := c, pos := .claims 0 })

/-- The arbiter once a walk in flight is withdrawn: the count is 0 where it waited at the lookup port (R24, R46). -/
def withdrawnTurn (w : Walk) (a : Arbiter) : Arbiter :=
  match w.pos with
  | .claims _ => { a with walkCount := 0 }
  | .zones _ => a

/-- From s to t, whose entries fit their subjects in s: with no walk in flight none begins; a walk of a BOOK or ZONE entry goes on; and a walk of an AMEND entry goes on, is begun again where its subject's state or ended mark changed, and is gone with its subject (R44, R45, R46). -/
def WalkGoes (s t : State) : Prop :=
  SubjectsFit s →
  (s.admission.walk = none → t.admission.walk = none ∧ t.arbiter = s.arbiter) ∧
  ∀ w, s.admission.walk = some w → w.subject ∈ s.admission.queue →
    ((∀ h, w.subject ≠ .amend h) → t.admission.walk = some w ∧ t.arbiter = s.arbiter ∧ w.subject ∈ t.admission.queue) ∧
    ∀ (h : Handle) (c : Claim), w.subject = .amend h → s.resolve h = some c →
      (t.claimAt h.slot = none → t.admission.walk = none ∧ t.arbiter = withdrawnTurn w s.arbiter) ∧
      ∀ d, t.claimAt h.slot = some d → t.arbiter = s.arbiter ∧
        t.admission.walk = if c.state.sameButCause d.state = true then some w else walkBegun w.subject t

theorem sameButCause_refl (st : ClaimState) : st.sameButCause st = true := by
  cases st <;> simp [ClaimState.sameButCause]

theorem candidateOf_amend {s t : State} {h : Handle} (hr : t.resolve h = s.resolve h) :
    t.candidateOf (.amend h) = s.candidateOf (.amend h) := by
  unfold State.candidateOf
  simp only [hr]

theorem walkBegun_amend {s t : State} {h : Handle} (hr : t.resolve h = s.resolve h) :
    walkBegun (.amend h) t = walkBegun (.amend h) s := by
  unfold walkBegun
  rw [candidateOf_amend hr]

/-- The entry of a claim that stays leaves the queue in no event that books nothing. -/
theorem Follows.mem {s t : State} (h : Follows s t) (hf : SubjectsFit s) {e : Entry} (he : e ∈ s.admission.queue) :
    e ∈ t.admission.queue ↔ stillNamed t e = true := by
  rw [(h.2.2 hf).2, List.mem_filter]
  exact ⟨fun k => k.2, fun k => ⟨he, k⟩⟩

theorem Follows.resolve {s t : State} (h : Follows s t) (hd : Handle) (hc : t.claimAt hd.slot = s.claimAt hd.slot) :
    t.resolve hd = s.resolve hd := by
  unfold State.resolve
  rw [(h.1 hd.slot).1, hc]

/-- The subject of an AMEND entry in a queue that fits its subjects: a claim with a pending amendment, from which a candidate can be formed. -/
theorem SubjectsFit.amend {s : State} (hf : SubjectsFit s) {h : Handle} (hm : Entry.amend h ∈ s.admission.queue) :
    ∃ c w, s.resolve h = some c ∧ c.state.occupying = true ∧ c.amend.isSome = true ∧ walkBegun (.amend h) s = some w ∧ w.subject = .amend h := by
  have k := hf _ hm
  cases hr : s.resolve h with
  | none => simp [subjectFits, hr] at k
  | some c =>
    simp only [subjectFits, hr, Option.any_some, Bool.and_eq_true] at k
    cases ha : c.amend with
    | none => rw [ha] at k; exact absurd k.2 (by decide)
    | some a =>
      refine ⟨c, { subject := .amend h, cand := amendCandidate c a, pos := .claims 0 }, rfl, k.1, by rw [ha]; rfl, ?_, rfl⟩
      unfold walkBegun State.candidateOf
      simp only [hr, Option.bind_some, ha, Option.map_some]

theorem WalkGoes.refl (s : State) : WalkGoes s s := by
  intro _
  refine ⟨fun h => ⟨h, rfl⟩, fun w hw hm => ⟨fun _ => ⟨hw, rfl, hm⟩, fun h c hs hr => ⟨fun hn => ?_, fun d hd => ⟨rfl, ?_⟩⟩⟩⟩
  · rw [(resolve_eq_some.mp hr).2] at hn; cases hn
  · rw [(resolve_eq_some.mp hr).2] at hd; cases hd; rw [if_pos (sameButCause_refl _)]; exact hw

/-- States with the same claims, the same admission unit and the same turn. -/
theorem WalkGoes.of_eq {s t : State} (hs : t.slots = s.slots) (hq : t.admission = s.admission) (ha : t.arbiter = s.arbiter) : WalkGoes s t := by
  intro hf
  obtain ⟨h1, h2⟩ := WalkGoes.refl s hf
  refine ⟨fun h => by rw [hq, ha]; exact h1 h, fun w hw hm => ?_⟩
  obtain ⟨k1, k2⟩ := h2 w hw hm
  refine ⟨fun h => by rw [hq, ha]; exact k1 h, fun h c e hr => ?_⟩
  have hc := (resolve_eq_some.mp hr).2
  refine ⟨fun hn => ?_, fun d hd => ⟨ha, ?_⟩⟩
  · rw [claimAt_congr hs, hc] at hn; cases hn
  · rw [claimAt_congr hs, hc] at hd; cases hd; rw [if_pos (sameButCause_refl _), hq]; exact hw

/-- Two events in a row, where every slot is changed by one of them at most. -/
theorem WalkGoes.trans {s t u : State} (h : WalkGoes s t) (k : WalkGoes t u) (fh : Follows s t) (fk : Follows t u)
    (hc : ∀ j, t.claimAt j = s.claimAt j ∨ u.claimAt j = t.claimAt j) : WalkGoes s u := by
  intro hf
  obtain ⟨h1, h2⟩ := h hf
  obtain ⟨k1, k2⟩ := k (fh.2.2 hf).1
  refine ⟨fun hw => ?_, fun w hw hm => ⟨fun hn => ?_, fun g c hs hr => ?_⟩⟩
  · obtain ⟨a, b⟩ := h1 hw
    obtain ⟨a', b'⟩ := k1 a
    exact ⟨a', b'.trans b⟩
  · obtain ⟨a, b, m⟩ := (h2 w hw hm).1 hn
    obtain ⟨a', b', m'⟩ := (k2 w a m).1 hn
    exact ⟨a', b'.trans b, m'⟩
  obtain ⟨hn, hd⟩ := (h2 w hw hm).2 g c hs hr
  obtain ⟨hg, hcl⟩ := resolve_eq_some.mp hr
  have tg : t.slots[g.slot].gen = g.gen := ((fh.1 g.slot).1).trans hg
  have mem : ∀ d, t.claimAt g.slot = some d → w.subject ∈ t.admission.queue := by
    intro d e
    rw [fh.mem hf hm, hs]
    simp only [stillNamed, show t.resolve g = some d from resolve_eq_some.mpr ⟨tg, e⟩, Option.isSome_some]
  rcases hc g.slot with e | e
  · -- the first event leaves the subject alone
    have et : t.claimAt g.slot = some c := e.trans hcl
    obtain ⟨a, b⟩ := hd c et
    rw [if_pos (sameButCause_refl _)] at b
    obtain ⟨kn, kd⟩ := (k2 w b (mem c et)).2 g c hs (resolve_eq_some.mpr ⟨tg, et⟩)
    exact ⟨fun x => by rw [← a]; exact kn x, fun d x => by rw [← a]; exact kd d x⟩
  · -- the second does
    refine ⟨fun x => ?_, fun d x => ?_⟩
    · obtain ⟨a, b⟩ := hn (e.symm.trans x)
      obtain ⟨a', b'⟩ := k1 a
      exact ⟨a', b'.trans b⟩
    · have et : t.claimAt g.slot = some d := e.symm.trans x
      obtain ⟨a, b⟩ := hd d et
      have ru : u.resolve g = t.resolve g := fk.resolve g e
      have rt : t.resolve g = some d := resolve_eq_some.mpr ⟨tg, et⟩
      have stays : ∀ w', t.admission.walk = some w' → w'.subject = w.subject →
          u.admission.walk = some w' ∧ u.arbiter = t.arbiter := by
        intro w' hw' hs'
        obtain ⟨p, q⟩ := ((k2 w' hw' (hs' ▸ mem d et)).2 g d (hs'.trans hs) rt).2 d x
        rw [if_pos (sameButCause_refl _)] at q
        exact ⟨q, p⟩
      split at b
      · next hsame =>
        obtain ⟨p, q⟩ := stays w b rfl
        exact ⟨q.trans a, by rw [if_pos hsame]; exact p⟩
      · next hsame =>
        obtain ⟨_, w', _, _, _, hb, hs'⟩ := (fh.2.2 hf).1.amend (hs ▸ mem d et)
        rw [hs, hb] at b
        obtain ⟨p, q⟩ := stays w' b (hs'.trans hs.symm)
        refine ⟨q.trans a, ?_⟩
        rw [if_neg hsame, hs, walkBegun_amend ru, hb]
        exact p

/-! ## The operations on one claim -/

/-- A move of a claim that no BOOK entry names. -/
theorem moveClaim_goes {i : Slot} {st : ClaimState} {s : State} : WalkGoes s (moveClaim i st s) := by
  intro hf
  have harb : (moveClaim i st s).arbiter = s.arbiter := moveClaim_arbiter i st s
  have hw : (moveClaim i st s).admission.walk =
      if (∃ c, s.claimAt i = some c ∧ c.state.sameButCause st = false) ∧ ∃ w, s.admission.walk = some w ∧ w.subject = .amend (s.handleAt i)
      then walkBegun (.amend (s.handleAt i)) (moveClaim i st s) else s.admission.walk := by
    unfold moveClaim
    cases hc : s.claimAt i with
    | none => rw [if_neg (by rintro ⟨⟨c, h, _⟩, _⟩; cases h)]
    | some c =>
      dsimp only
      by_cases hx : (!c.state.sameButCause st && s.admission.walk.any (fun w => decide (w.subject = .amend (s.handleAt i)))) = true
      · rw [if_pos hx]
        simp only [Bool.and_eq_true, Bool.not_eq_true', Option.any_eq_true, decide_eq_true_eq] at hx
        rw [if_pos ⟨⟨c, rfl, hx.1⟩, hx.2⟩]
        rfl
      · rw [if_neg hx, if_neg]
        · rfl
        · rintro ⟨⟨c', h, h1⟩, h2⟩
          cases h
          exact hx (by simpa only [Bool.and_eq_true, Bool.not_eq_true', Option.any_eq_true, decide_eq_true_eq] using ⟨h1, h2⟩)
  obtain ⟨t, ht⟩ : ∃ t, t = moveClaim i st s := ⟨_, rfl⟩
  have hcl : ∀ j, t.claimAt j = if i = j then (s.claimAt i).map (fun c => { c with state := st }) else s.claimAt j := by
    intro j; rw [ht]; exact moveClaim_claimAt i j st s
  have hq : t.admission.queue = s.admission.queue := by rw [ht]; exact moveClaim_queue i st s
  rw [← ht] at hw harb ⊢
  refine ⟨fun h => ⟨?_, harb⟩, fun w hsw hm => ⟨fun hn => ⟨?_, harb, by rw [hq]; exact hm⟩, fun h c hs hr => ?_⟩⟩
  · rw [hw, if_neg (by rintro ⟨_, w, e, _⟩; rw [h] at e; cases e)]; exact h
  · rw [hw, if_neg (by rintro ⟨_, w', e, e'⟩; rw [hsw] at e; cases e; exact hn _ e')]; exact hsw
  obtain ⟨hg, hc⟩ := resolve_eq_some.mp hr
  refine ⟨fun hn => ?_, fun d hd => ⟨harb, ?_⟩⟩
  · rw [hcl] at hn
    split at hn
    · next e => subst e; rw [hc] at hn; cases hn
    · rw [hc] at hn; cases hn
  · rw [hw]
    by_cases hi : i = h.slot
    · have hh : s.handleAt i = h := by subst hi; unfold State.handleAt; cases h; simp only at hg ⊢; rw [hg]
      rw [hcl, if_pos hi, hi, hc] at hd
      cases hd
      dsimp only
      cases hsame : c.state.sameButCause st with
      | true =>
        rw [if_pos rfl, if_neg]
        · exact hsw
        · rintro ⟨⟨c', e, e'⟩, _⟩
          rw [hi, hc] at e; cases e
          rw [hsame] at e'; cases e'
      | false =>
        rw [if_neg (show ¬ (false = true) from nofun), if_pos ⟨⟨c, by rw [hi]; exact hc, hsame⟩, w, hsw, by rw [hh]; exact hs⟩, hh, hs]
    · rw [hcl, if_neg hi, hc] at hd
      cases hd
      rw [if_pos (sameButCause_refl _), if_neg]
      · exact hsw
      · rintro ⟨_, w', e, e'⟩
        rw [hsw] at e; cases e
        rw [hs] at e'
        cases e'
        exact hi rfl

theorem abandonWalk_goes {s : State} {w : Walk} (hw : s.admission.walk = some w) :
    (abandonWalk s).admission.walk = none ∧ (abandonWalk s).arbiter = withdrawnTurn w s.arbiter := by
  unfold abandonWalk withdrawnTurn
  rw [hw]
  dsimp only
  cases w.pos <;> exact ⟨rfl, rfl⟩

/-- A withdrawn entry takes its walk along, and no other (R46). -/
theorem withdrawEntry_goes (e : Entry) (s : State) :
    (∀ w, s.admission.walk = some w → w.subject = e →
      (withdrawEntry e s).admission.walk = none ∧ (withdrawEntry e s).arbiter = withdrawnTurn w s.arbiter) ∧
    ((∀ w, s.admission.walk = some w → w.subject ≠ e) →
      (withdrawEntry e s).admission.walk = s.admission.walk ∧ (withdrawEntry e s).arbiter = s.arbiter) := by
  unfold withdrawEntry
  dsimp only
  refine ⟨fun w hw he => ?_, fun hn => ?_⟩
  · rw [hw, Option.any_some, decide_eq_true he, if_pos rfl]
    exact abandonWalk_goes hw
  · rw [if_neg]
    · exact ⟨rfl, rfl⟩
    · intro h
      obtain ⟨w, hw, he⟩ := (Option.any_eq_true _ _).mp h
      exact hn w hw (of_decide_eq_true he)

/-- A claim freed that no BOOK entry names takes its AMEND entry's walk along, and no other. -/
theorem freeSlot_goes {i : Slot} {s : State}
    (hs : ∀ c, s.claimAt i = some c → c.state ≠ .queued ∧ c.state ≠ .checking) : WalkGoes s (freeSlot i s) := by
  intro hf
  have hF := freeSlot_follows hs
  have hcl : ∀ j, (freeSlot i s).claimAt j = if i = j then none else s.claimAt j := fun j => freeSlot_claimAt i j s
  -- what becomes of the walk, by whether it is of the amendment of the freed claim
  have off : (∀ w, s.admission.walk = some w → w.subject ≠ .amend (s.handleAt i)) →
      (freeSlot i s).admission.walk = s.admission.walk ∧ (freeSlot i s).arbiter = s.arbiter := by
    intro hn
    unfold freeSlot
    split
    · exact ⟨rfl, rfl⟩
    · dsimp only
      split
      · exact (withdrawEntry_goes _ (s.setSlot i _)).2 hn
      · exact ⟨rfl, rfl⟩
  have on : ∀ w c, s.admission.walk = some w → w.subject = .amend (s.handleAt i) → s.claimAt i = some c → c.amend.isSome = true →
      (freeSlot i s).admission.walk = none ∧ (freeSlot i s).arbiter = withdrawnTurn w s.arbiter := by
    intro w c hw he hc ha
    unfold freeSlot
    rw [hc]
    dsimp only
    rw [if_pos ha]
    exact (withdrawEntry_goes _ (s.setSlot i _)).1 w hw he
  refine ⟨fun h => ?_, fun w hw hm => ⟨fun hn => ?_, fun h c he hr => ?_⟩⟩
  · obtain ⟨a, b⟩ := off (fun w e => by rw [h] at e; cases e)
    exact ⟨a.trans h, b⟩
  · obtain ⟨a, b⟩ := off (fun w' e => by rw [hw] at e; cases e; exact hn _)
    refine ⟨a.trans hw, b, (hF.mem hf hm).mpr ?_⟩
    have k := stillNamed_of_fits (hf _ hm)
    cases hsub : w.subject with
    | amend g => exact absurd hsub (hn g)
    | zone z => rfl
    | book g =>
      rw [hsub] at k hm
      have kf := hf _ hm
      rw [← k]
      refine named_book (hF.resolve g ?_)
      rw [hcl, if_neg]
      intro e
      cases hrg : s.resolve g with
      | none => simp [subjectFits, hrg] at kf
      | some c =>
        simp only [subjectFits, hrg, Option.any_some, Bool.or_eq_true, decide_eq_true_eq] at kf
        have := hs c (e ▸ (resolve_eq_some.mp hrg).2)
        rcases kf with kf | kf
        · exact this.1 kf
        · exact this.2 kf
  obtain ⟨hg, hc⟩ := resolve_eq_some.mp hr
  rw [hcl]
  by_cases hi : i = h.slot
  · have hh : s.handleAt i = h := by subst hi; unfold State.handleAt; cases h; simp only at hg ⊢; rw [hg]
    obtain ⟨c', _, hr', _, ha, _⟩ := hf.amend (he ▸ hm)
    rw [hr] at hr'; cases hr'
    rw [if_pos hi]
    exact ⟨fun _ => on w c hw (by rw [hh]; exact he) (by rw [hi]; exact hc) ha, fun d hd => by cases hd⟩
  · rw [if_neg hi, hc]
    obtain ⟨a, b⟩ := off (fun w' e e' => by
      rw [hw] at e; cases e
      rw [he] at e'; cases e'
      exact hi rfl)
    refine ⟨nofun, fun d hd => ?_⟩
    cases hd
    rw [if_pos (sameButCause_refl _)]
    exact ⟨b, a.trans hw⟩

/-! ## Steps of folds -/

/-- A step of a fold over the slots: it changes one slot's claim alone, and the queue and the walk follow. -/
def GoesAt (i : Slot) (s t : State) : Prop := (∀ j, j ≠ i → t.claimAt j = s.claimAt j) ∧ Follows s t ∧ WalkGoes s t

theorem GoesAt.refl (i : Slot) (s : State) : GoesAt i s s := ⟨fun _ _ => rfl, .refl s, .refl s⟩

/-- A step with nothing of the claims, the admission unit or the turn changed after it. -/
theorem GoesAt.then_eq {i : Slot} {s t u : State} (h : GoesAt i s t) (hs : u.slots = t.slots) (hq : u.admission = t.admission)
    (ha : u.arbiter = t.arbiter) (hz : u.zones = t.zones) : GoesAt i s u := by
  have f : Follows t u := .of_eq hs hz (by rw [hq]) ha
  exact ⟨fun j hj => (claimAt_congr hs j).trans (h.1 j hj), h.2.1.trans f,
    h.2.2.trans (.of_eq hs hq ha) h.2.1 f (fun j => Or.inr (claimAt_congr hs j))⟩

theorem foldl_goes (f : State → Slot → State) (h : ∀ t i, GoesAt i t (f t i)) :
    ∀ (l : List Slot), l.Nodup → ∀ s, Follows s (l.foldl f s) ∧ WalkGoes s (l.foldl f s) ∧
      ∀ j, j ∉ l → (l.foldl f s).claimAt j = s.claimAt j
  | [], _, s => ⟨.refl s, .refl s, fun _ _ => rfl⟩
  | i :: l, hl, s => by
    obtain ⟨h1, h2, h3⟩ := foldl_goes f h l (List.nodup_cons.mp hl).2 (f s i)
    refine ⟨(h s i).2.1.trans h1, (h s i).2.2.trans h2 (h s i).2.1 h1 (fun j => ?_), fun j hj => ?_⟩
    · by_cases e : j = i
      · exact Or.inr (h3 j (e ▸ (List.nodup_cons.mp hl).1))
      · exact Or.inl ((h s i).1 j e)
    · rw [List.mem_cons, not_or] at hj
      exact (h3 j hj.2).trans ((h s i).1 j hj.1)

theorem foldSlots_goes (f : State → Slot → State) (h : ∀ t i, GoesAt i t (f t i)) (s : State) : WalkGoes s (allSlots.foldl f s) :=
  (foldl_goes f h allSlots (List.nodup_finRange 32) s).2.1

theorem expireSlot_goesAt {i : Slot} {s : State}
    (hs : ∀ c, s.claimAt i = some c → c.state ≠ .queued ∧ c.state ≠ .checking) : GoesAt i s (expireSlot i s) :=
  GoesAt.then_eq (t := freeSlot i s)
    ⟨fun j hj => by rw [freeSlot_claimAt, if_neg (fun e => hj e.symm)], freeSlot_follows hs, freeSlot_goes hs⟩ rfl rfl rfl rfl

/-- A move to an occupying state of a claim that no BOOK entry names. -/
theorem moveClaim_goesAt {i : Slot} {st : ClaimState} {s : State} {c : Claim} (hc : s.claimAt i = some c) (h1 : c.state ≠ .queued)
    (h2 : c.state ≠ .checking) (ho : st.occupying = true) : GoesAt i s (moveClaim i st s) :=
  ⟨fun j hj => by rw [moveClaim_claimAt, if_neg (fun e => hj e.symm)], moveClaim_follows_of hc h1 h2 ho, moveClaim_goes⟩

theorem GoesAt.raise {i : Slot} {s t : State} (h : GoesAt i s t) (f : Flag) : GoesAt i s (raiseFlag f t) := h.then_eq rfl rfl rfl rfl

theorem releaseOverlap_goesAt (i : Slot) (s : State) : GoesAt i s (releaseOverlap i s) := by
  unfold releaseOverlap
  split
  · exact .refl i s
  · next c hc =>
    split
    · next e hs =>
      split
      · exact .refl i s
      · split
        · exact moveClaim_goesAt hc (by rw [hs]; nofun) (by rw [hs]; nofun) rfl
        · exact (moveClaim_goesAt hc (by rw [hs]; nofun) (by rw [hs]; nofun) rfl).raise _
    · exact .refl i s

theorem openClaim_goesAt {i : Slot} {s : State} {c : Claim} (hc : s.claimAt i = some c) (hs : c.state = .booked) :
    GoesAt i s (openClaim i s) := by
  have k : ∀ st : ClaimState, st.occupying = true → GoesAt i s (moveClaim i st s) :=
    fun st ho => moveClaim_goesAt hc (by rw [hs]; nofun) (by rw [hs]; nofun) ho
  unfold openClaim
  rw [hc]
  dsimp only
  split
  · exact k _ rfl
  · split
    · exact (k _ rfl).raise _
    · exact (k _ rfl).raise _

theorem openBooked_goesAt (i : Slot) (s : State) : GoesAt i s (openBooked i s) := by
  unfold openBooked
  split
  · exact .refl i s
  · next c hc =>
    split
    · next h => exact openClaim_goesAt hc (of_decide_eq_true (Bool.and_eq_true _ _ ▸ h).1)
    · exact .refl i s

theorem jumpBooked_goesAt (i : Slot) (s : State) : GoesAt i s (jumpBooked i s) := by
  unfold jumpBooked
  split
  · exact .refl i s
  · next c hc =>
    split
    · next h =>
      have hs : c.state = .booked := of_decide_eq_true (Bool.and_eq_true _ _ ▸ h).1
      exact expireSlot_goesAt (fun d hd => by rw [hc] at hd; cases hd; rw [hs]; exact ⟨nofun, nofun⟩)
    · exact openBooked_goesAt i s

theorem descendGrant_goes (f : Flyer) (h : Handle) (s : State) :
    (descendGrant f h s).slots = s.slots ∧ (descendGrant f h s).admission = s.admission ∧
      (descendGrant f h s).arbiter = s.arbiter ∧ (descendGrant f h s).zones = s.zones := by
  unfold descendGrant
  split
  · exact ⟨rfl, rfl, rfl, rfl⟩
  · split <;> exact ⟨rfl, rfl, rfl, rfl⟩

theorem endClaim_goesAt (i : Slot) (s : State) : GoesAt i s (endClaim i s) := by
  unfold endClaim
  split
  · exact .refl i s
  · next c hc =>
    have free : ∀ st, c.state = st → st ≠ .queued → st ≠ .checking → GoesAt i s (expireSlot i s) := by
      intro st e h1 h2
      exact expireSlot_goesAt (fun d hd => by rw [hc] at hd; cases hd; rw [e]; exact ⟨h1, h2⟩)
    have move : ∀ st, c.state = st → st ≠ .queued → st ≠ .checking → ∀ st', st'.occupying = true → GoesAt i s (moveClaim i st' s) :=
      fun st e h1 h2 st' ho => moveClaim_goesAt hc (by rw [e]; exact h1) (by rw [e]; exact h2) ho
    split
    · split
      · next hs =>
        split
        · exact free _ hs nofun nofun
        · obtain ⟨a, b, d, e⟩ := descendGrant_goes c.flyer (s.handleAt i) (raiseFlag .overrun (moveClaim i .overrun s))
          exact ((move _ hs nofun nofun _ rfl).raise _).then_eq a b d e
      · next hs => exact free _ hs nofun nofun
      · next hs => exact move _ hs nofun nofun _ rfl
      · exact .refl i s
    · exact .refl i s

theorem breachClaim_goesAt (f : Flyer) (i : Slot) (s : State) : GoesAt i s (breachClaim f i s) := by
  unfold breachClaim
  split
  · exact .refl i s
  · next c hc =>
    split
    · split
      · next hs => exact moveClaim_goesAt hc (by rw [hs]; nofun) (by rw [hs]; nofun) rfl
      · next hs => exact moveClaim_goesAt hc (by rw [hs]; nofun) (by rw [hs]; nofun) rfl
      · exact .refl i s
    · exact .refl i s

/-! ## The operations over all claims -/

theorem recheck_goes (s : State) : WalkGoes s (recheck s) := foldSlots_goes _ (fun t i => releaseOverlap_goesAt i t) s

theorem endings_goes (s : State) : WalkGoes s (endings s) := foldSlots_goes _ (fun t i => endClaim_goesAt i t) s

theorem openings_goes (s : State) : WalkGoes s (openings s) := foldSlots_goes _ (fun t i => openBooked_goesAt i t) s

theorem jumpOpenings_goes (s : State) : WalkGoes s (jumpOpenings s) := foldSlots_goes _ (fun t i => jumpBooked_goesAt i t) s

theorem breachClaims_goes (f : Flyer) (s : State) : WalkGoes s (breachClaims f s) := foldSlots_goes _ (fun t i => breachClaim_goesAt f i t) s

theorem groundedEvent_goes (f : Flyer) (s : State) : WalkGoes s (groundedEvent f s) := by
  unfold groundedEvent
  refine foldSlots_goes _ (fun t i => ?_) s
  split
  · next c hc =>
    split
    · next hs =>
      simp only [Bool.and_eq_true, decide_eq_true_eq] at hs
      exact expireSlot_goesAt (fun d hd => by rw [hc] at hd; cases hd; rw [hs.1.2]; exact ⟨nofun, nofun⟩)
    · exact .refl i t
  · exact .refl i t

theorem removeGrant_goes (f : Flyer) (r : Reason) (s : State) : WalkGoes s (removeGrant f r s) := by
  unfold removeGrant
  split
  · exact .refl s
  · next g _ =>
    obtain ⟨u, hu⟩ : ∃ u, u = queueFrame f (.revoke g.seq r) (drivePermits f .low (s.setGrant f { s.grants[f] with live := none })) :=
      ⟨_, rfl⟩
    have hs : u.slots = s.slots := by rw [hu]; rfl
    have h : WalkGoes s u := .of_eq hs (by rw [hu]; rfl) (by rw [hu]; rfl)
    have hf : Follows s u := .of_eq hs (by rw [hu]; rfl) (by rw [hu]; rfl) (by rw [hu]; rfl)
    dsimp only
    rw [← hu]
    split
    · exact h.trans (groundedEvent_goes f u) hf (groundedEvent_follows f u) (fun j => Or.inl (claimAt_congr hs j))
    · exact h

/-- Events that free claims alone, one after the other: a slot once freed stays so. -/
def FreesAlone (s t : State) : Prop := Follows s t ∧ WalkGoes s t ∧ ∀ j, t.claimAt j = s.claimAt j ∨ t.claimAt j = none

theorem FreesAlone.trans {s t u : State} (h : FreesAlone s t) (k : FreesAlone t u) : FreesAlone s u := by
  refine ⟨h.1.trans k.1, h.2.1.trans k.2.1 h.1 k.1 (fun j => ?_), fun j => ?_⟩
  · rcases h.2.2 j with e | e
    · exact Or.inl e
    · rcases k.2.2 j with e' | e'
      · exact Or.inr e'
      · exact Or.inr (e'.trans e.symm)
  · rcases k.2.2 j with e' | e'
    · rw [e']; exact h.2.2 j
    · exact Or.inr e'

theorem removeAllGrants_goes (s : State) : WalkGoes s (removeAllGrants s) := by
  unfold removeAllGrants
  exact (foldl_frame FreesAlone (fun s => ⟨.refl s, .refl s, fun _ => Or.inl rfl⟩) (fun _ _ _ h k => h.trans k) _
    (fun t f => ⟨removeGrant_follows f .hold t, removeGrant_goes f .hold t, (removeGrant_expired f .hold t).2⟩) allFlyers s).2.1

/-! ## The turn and the walk at the close of an event -/

/-- The turn, told at a state with the same queue and the same arbiter. -/
theorem TurnKept.congr {s u t : State} (h : TurnKept s u) (tq : t.admission.queue = u.admission.queue) (ta : t.arbiter = u.arbiter) :
    TurnKept s t := by
  unfold TurnKept CountKept WalkWithdrawn at *
  rw [tq, ta]
  exact h

/-- The close of an event leaves the port's turn as the event made it. -/
theorem TurnKept.close {s u : State} (h : TurnKept s u) (asked : Bool) (r : State) : TurnKept s (closeEvent asked r u) :=
  h.congr (closeEvent_queue asked r u) (closeEvent_arbiter asked r u)

/-- The turn after one entry was withdrawn (R24, R46). -/
theorem TurnKept.withdrawn {s t : State} {e : Entry}
    (on : ∀ w, s.admission.walk = some w → w.subject = e → t.arbiter = withdrawnTurn w s.arbiter)
    (off : (∀ w, s.admission.walk = some w → w.subject ≠ e) → t.arbiter = s.arbiter)
    (hq : t.admission.queue = s.admission.queue.filter (fun x => decide (x ≠ e))) : TurnKept s t := by
  have left : ∀ w : Walk, s.admission.queue.head? = some w.subject → (w.subject ∉ t.admission.queue ↔ w.subject = e) := by
    intro w hh
    rw [hq, List.mem_filter, decide_eq_true_eq]
    exact ⟨fun h => Classical.byContradiction (fun k => h ⟨List.mem_of_mem_head? hh, k⟩), fun h k => k.2 h⟩
  by_cases hx : ∃ w, s.admission.walk = some w ∧ w.subject = e
  · obtain ⟨w, hw, he⟩ := hx
    have ha := on w hw he
    unfold withdrawnTurn at ha
    refine ⟨?_, ?_, ?_, fun hl hn => ?_⟩
    · rw [ha]; split <;> rfl
    · rw [ha]; split
      · exact Or.inr rfl
      · exact Or.inl rfl
    · rintro ⟨w', i, hw', hp, -, -⟩
      rw [hw] at hw'; cases hw'
      rw [ha, hp]
    · rw [ha]
      cases hp : w.pos with
      | zones z => rfl
      | claims i =>
        have hh := hl.1
        rw [hw] at hh
        have hh' : s.admission.queue.head? = some w.subject := by simpa using hh
        exact absurd ⟨w, i, hw, hp, hh', (left w hh').mpr he⟩ hn
  · have ha := off (fun w hw he => hx ⟨w, hw, he⟩)
    refine ⟨by rw [ha], Or.inl (by rw [ha]), ?_, fun _ _ => by rw [ha]⟩
    rintro ⟨w, i, hw, -, hh, hn⟩
    exact absurd ⟨w, hw, (left w hh).mp hn⟩ hx

/-- The turn after an event that serves no access and books nothing (R24, R46, log 11). -/
theorem WalkGoes.turn {s u : State} (h : WalkGoes s u) (f : Follows s u) (hq : QueueLaw s) : TurnKept s u := by
  obtain ⟨h1, h2⟩ := h hq.2.2
  obtain ⟨f1, f2⟩ := f.2.1
  have mem : ∀ w : Walk, s.admission.queue.head? = some w.subject → w.subject ∈ s.admission.queue := fun w e => List.mem_of_mem_head? e
  -- the walk of a head that has left
  have gone : ∀ w, s.admission.walk = some w → w.subject ∈ s.admission.queue → w.subject ∉ u.admission.queue →
      u.arbiter = withdrawnTurn w s.arbiter := by
    intro w hw hm hn
    obtain ⟨k1, k2⟩ := h2 w hw hm
    cases hsub : w.subject with
    | book g => exact absurd (k1 (by rw [hsub]; nofun)).2.2 hn
    | zone z => exact absurd (k1 (by rw [hsub]; nofun)).2.2 hn
    | amend g =>
      obtain ⟨c, _, hr, _⟩ := SubjectsFit.amend hq.2.2 (hsub ▸ hm)
      cases hu : u.claimAt g.slot with
      | none => exact ((k2 g c hsub hr).1 hu).2
      | some d =>
        exfalso
        refine hn ((f.mem hq.2.2 hm).mpr ?_)
        rw [hsub]
        have : u.resolve g = some d := resolve_eq_some.mpr ⟨(f.1 g.slot).1.trans (resolve_eq_some.mp hr).1, hu⟩
        simp only [stillNamed, this, Option.isSome_some]
  have stays : ∀ w, s.admission.walk = some w → w.subject ∈ s.admission.queue → w.subject ∈ u.admission.queue → u.arbiter = s.arbiter := by
    intro w hw hm hn
    obtain ⟨k1, k2⟩ := h2 w hw hm
    cases hsub : w.subject with
    | book g => exact (k1 (by rw [hsub]; nofun)).2.1
    | zone z => exact (k1 (by rw [hsub]; nofun)).2.1
    | amend g =>
      obtain ⟨c, _, hr, _⟩ := SubjectsFit.amend hq.2.2 (hsub ▸ hm)
      cases hu : u.claimAt g.slot with
      | none =>
        exfalso
        have := (f.mem hq.2.2 hm).mp hn
        rw [hsub] at this
        simp only [stillNamed, resolve_free hu] at this
        cases this
      | some d => exact ((k2 g c hsub hr).2 d hu).1
  refine ⟨f1, f2, ?_, fun hl hn => ?_⟩
  · rintro ⟨w, i, hw, hp, hh, hx⟩
    rw [gone w hw (mem w hh) hx]
    unfold withdrawnTurn
    rw [hp]
  · cases hw : s.admission.walk with
    | none => rw [(h1 hw).2]
    | some w =>
      have hh : s.admission.queue.head? = some w.subject := by
        have := hl.1
        rw [hw] at this
        simpa using this
      by_cases hx : w.subject ∈ u.admission.queue
      · rw [stays w hw (mem w hh) hx]
      · rw [gone w hw (mem w hh) hx]
        unfold withdrawnTurn
        cases hp : w.pos with
        | zones z => rfl
        | claims i => exact absurd ⟨w, i, hw, hp, hh, hx⟩ hn

/-- What `SubjectMoved` says, as the model computes it. -/
theorem moved_iff {a b : ClaimState} :
    a.sameButCause b = false ↔ a ≠ b ∧ ¬ ∃ (x y : HeldCause) (m : Bool), a = .held x m ∧ b = .held y m := by
  cases a <;> cases b <;> simp [ClaimState.sameButCause]
  exact fun h _ => h

/-- The walk in flight after the event and the beginning of the next head's walk (R44, R45). -/
theorem WalkGoes.goesOn {s u : State} (h : WalkGoes s u) (f : Follows s u) (hq : QueueLaw s) (hl : WalkLaw s) :
    WalkGoesOn s (beginHead u) := by
  intro w hw ht
  have hh : s.admission.queue.head? = some w.subject := by
    have := hl.1
    rw [hw] at this
    simpa using this
  have hm := List.mem_of_mem_head? hh
  rw [beginHead_queue] at ht
  have hu := List.mem_of_mem_head? ht
  obtain ⟨k1, k2⟩ := (h hq.2.2).2 w hw hm
  -- a walk still in flight is not begun by the close
  have still : ∀ w', u.admission.walk = some w' → beginHead u = u := fun w' e => beginHead_walk (by rw [e]; rfl)
  cases hsub : w.subject with
  | book g =>
    have e := (k1 (by rw [hsub]; nofun)).1
    exact ⟨fun _ => by rw [still w e]; exact e, fun x => x.elim⟩
  | zone z =>
    have e := (k1 (by rw [hsub]; nofun)).1
    exact ⟨fun _ => by rw [still w e]; exact e, fun x => x.elim⟩
  | amend g =>
    obtain ⟨c, _, hr, _⟩ := SubjectsFit.amend hq.2.2 (hsub ▸ hm)
    obtain ⟨d, w', hrd, _, _, hb, _⟩ := SubjectsFit.amend (f.2.2 hq.2.2).1 (hsub ▸ hu)
    have e := ((k2 g c hsub hr).2 d (resolve_eq_some.mp hrd).2).2
    rw [hsub, hb] at e
    have fixed : beginHead u = u := by
      cases hs : c.state.sameButCause d.state with
      | true => rw [hs, if_pos rfl] at e; exact still _ e
      | false => rw [hs, if_neg (by decide)] at e; exact still _ e
    rw [fixed]
    refine ⟨fun hn => ?_, ?_⟩
    · cases hs : c.state.sameButCause d.state with
      | true => rw [hs, if_pos rfl] at e; exact e
      | false => exact absurd ⟨c, d, hr, hrd, moved_iff.mp hs⟩ hn
    · rintro ⟨c', d', e1, e2, e3⟩
      rw [hr] at e1; cases e1
      rw [hrd] at e2; cases e2
      rw [moved_iff.mpr e3, if_neg (by decide)] at e
      unfold walkBegun at hb
      cases hc : u.candidateOf (.amend g) with
      | none => rw [hc] at hb; cases hb
      | some cand =>
        rw [hc] at hb
        exact ⟨cand, rfl, by rw [e, ← hb]; rfl⟩

/-- The walk after the close of such an event that began in r. -/
theorem closeEvent_goesOn {asked : Bool} {r s u : State} (h : WalkGoes s u) (f : Follows s u) (hq : QueueLaw s) (hl : WalkLaw s)
    (hc : asked = true ∨ ceasedOverstay r u = true → ∀ j, u.claimAt j = s.claimAt j ∨ (recheck u).claimAt j = u.claimAt j) :
    WalkGoesOn s (closeEvent asked r u) := by
  unfold closeEvent
  split
  · next hx =>
    exact (h.trans (recheck_goes u) f (recheck_follows u) (hc (by rwa [Bool.or_eq_true] at hx))).goesOn (f.trans (recheck_follows u)) hq hl
  · exact h.goesOn f hq hl

/-- The re-check leaves a slot alone that holds no claim. -/
theorem recheck_none {u : State} {j : Slot} (h : u.claimAt j = none) : (recheck u).claimAt j = none := by
  have := recheck_closes u j
  rw [h] at this
  exact this.none_left

end Sys2Proof.Machine
end

