-- ==== Sys2Proof/Laws/Operands.lean ====
section
/-! SUPPORT. What each operand of a console command names, and when it names nothing. -/

namespace Sys2Proof.Machine

theorem flyerOf_number {b : Byte} {f : Flyer} (h : b.toNat = flyerNumber f) : flyerOf b = some f := by
  simp [flyerOf, indexOf, h, flyerNumber]

theorem flyerOf_none {b : Byte} (h : b.toNat = 0 ∨ 8 < b.toNat) : flyerOf b = none := by
  simp [flyerOf, indexOf]
  omega

/-- Every number from 1 to 8 names a flyer. -/
theorem exists_flyer {b : Byte} (h1 : 1 ≤ b.toNat) (h8 : b.toNat ≤ 8) : ∃ f : Flyer, b.toNat = flyerNumber f :=
  ⟨⟨b.toNat - 1, by omega⟩, by simp only [flyerNumber]; omega⟩

theorem zoneOf_number {b : Byte} {z : Zone} (h : b.toNat = z.val) : zoneOf b = some z := by simp [zoneOf, indexOf, h]

theorem zoneOf_none {b : Byte} (h : 7 < b.toNat) : zoneOf b = none := by
  simp [zoneOf, indexOf]
  omega

theorem winchOf_number {b : Byte} {w : Winch} (h : b.toNat = w.val) : winchOf b = some w := by simp [winchOf, indexOf, h]

theorem winchOf_none {b : Byte} (h : 15 < b.toNat) : winchOf b = none := by
  simp [winchOf, indexOf]
  omega

theorem slotOf_number {b : Byte} {i : Slot} (h : b.toNat = i.val) : slotOf b = some i := by simp [slotOf, indexOf, h]

theorem slotOf_none {b : Byte} (h : 31 < b.toNat) : slotOf b = none := by
  simp [slotOf, indexOf]
  omega

theorem setOf_number {b : Byte} {k : Fin 16} (h : b.toNat = k.val) : setOf b = some k := by simp [setOf, indexOf, h]

theorem setOf_none {b : Byte} (h : 15 < b.toNat) : setOf b = none := by
  simp [setOf, indexOf]
  omega

theorem boxOf_some {b : BoxBytes} (h : (boxOfBytes b).wf = true) : boxOf b = some (boxOfBytes b) := by simp [boxOf, h]

theorem boxOf_none {b : BoxBytes} (h : (boxOfBytes b).wf = false) : boxOf b = none := by simp [boxOf, h]

theorem cueOf_some {w : Word16} (h : w.toNat ≤ 4095) : cueOf w = some w.toNat := by simp [cueOf, h]

theorem cueOf_none {w : Word16} (h : 4095 < w.toNat) : cueOf w = none := by simp [cueOf]; omega

/-- The handle a byte spells is spelled by that byte. -/
theorem handleOf_byte (b : Byte) : (handleOf b).byte = b := by
  apply BitVec.eq_of_toNat_eq
  simp only [Handle.byte, handleOf, BitVec.toNat_ofNat]
  have := b.isLt
  omega

end Sys2Proof.Machine
end

