-- ==== Sys2Proof/Laws/Commands.lean ====
section
/-! SUPPORT. What the claim commands do, in terms of the shared operations: a command on a resolved claim, a claim freed, a claim moved, each with the close of its event. -/

namespace Sys2Proof.Machine

/-- A command on a claim whose handle resolves acts on that claim. -/
theorem onClaim_some {h : Byte} {c : Claim} {s : State} (hr : s.resolve (handleOf h) = some c)
    (act : Slot → Claim → State → State × Transaction) : onClaim h act s = act (handleOf h).slot c s := by
  unfold onClaim
  rw [hr]

/-- The handle that resolves is the handle of the claim in its slot. -/
theorem handleAt_eq {s : State} {h : Handle} {c : Claim} (hr : s.resolve h = some c) : s.handleAt h.slot = h := by
  have := (resolve_eq_some.mp hr).1
  unfold State.handleAt
  rw [this]

/-- A claim moved between states without ceasing to overstay asks for no re-check. -/
theorem ceased_move {s : State} {i : Slot} {st : ClaimState} {c : Claim} (hc : s.claimAt i = some c)
    (h : c.state.overstaying = true → st.overstaying = true) : ceasedOverstay s (moveClaim i st s) = false := by
  rw [ceasedOverstay_eq_false]
  intro j hj
  refine ⟨moveClaim_gen _ _ _ _, ?_⟩
  unfold State.overstayingAt at *
  rw [moveClaim_claimAt]
  split
  · next e => subst e; rw [hc] at hj ⊢; exact h hj
  · exact hj

/-- Whether a claim has ceased to overstay depends on the slots alone. -/
theorem ceased_congr {s t u : State} (h : u.slots = t.slots) : ceasedOverstay s u = ceasedOverstay s t := by
  unfold ceasedOverstay State.overstayingAt State.claimAt
  rw [h]

theorem setTx_claimFrame {s t : State} (h : ClaimFrame s t) (sel : Select) (x : Transaction) :
    ClaimFrame (s.setTx sel x) (t.setTx sel x) := by
  cases sel
  · exact congrArg (fun x' : State => x'.setTx .showSel x) h
  · exact congrArg (fun x' : State => x'.setTx .crewSel x) h

theorem setTx_grantFrame {s t : State} (h : GrantFrame s t) (sel : Select) (x : Transaction) :
    GrantFrame (s.setTx sel x) (t.setTx sel x) := by
  cases sel
  · exact congrArg (fun x' : State => x'.setTx .showSel x) h
  · exact congrArg (fun x' : State => x'.setTx .crewSel x) h

theorem setTx_claimAt (s : State) (sel : Select) (x : Transaction) (j : Slot) : (s.setTx sel x).claimAt j = s.claimAt j := by
  cases sel <;> rfl

theorem setTx_gen (s : State) (sel : Select) (x : Transaction) (j : Slot) : (s.setTx sel x).slots[j].gen = s.slots[j].gen := by
  cases sel <;> rfl

/-- A state that differs from s by slot i's claim gone, after the close of its event and an answer OK. -/
theorem freedBy_of {s : State} {i : Slot} {u : State} (hf : HeadFits u) (hg : ∀ j : Slot, u.slots[j].gen = s.slots[j].gen)
    (hc : ∀ j, u.claimAt j = if i = j then none else s.claimAt j) (hfr : ClaimFrame s u)
    (ha : u.attention = s.attention) (hturn : TurnKept s u)
    (hqf : u.admission.queue = s.admission.queue.filter (stillNamed u)) :
    FreedBy s ((closeEvent false s u).setTx .showSel (answer .ok)) .showSel i := by
  have cf := closeEvent_follows false s u
  have cg : ∀ j : Slot, (closeEvent false s u).slots[j].gen = u.slots[j].gen := fun j => closeEvent_gen false s u j
  have named : ∀ e, stillNamed (closeEvent false s u) e = stillNamed u e := by
    intro e
    have k : ∀ g : Handle, ((closeEvent false s u).resolve g).isSome = (u.resolve g).isSome := by
      intro g
      have hcl := closeEvent_closes hf false s g.slot
      unfold State.resolve
      rw [cg]
      split
      · rcases hcl with h | ⟨c, st, h1, h2, -⟩
        · rw [h]
        · rw [h1, h2]; rfl
      · rfl
    cases e with
    | book g => exact k g
    | amend g => exact k g
    | zone z => rfl
  refine ⟨?_, ⟨fun j => ?_, fun j hj => ?_, fun ho => ?_⟩, ?_, ?_, hturn.close false s, ?_⟩
  · show (closeEvent false s u).claimAt i = none
    have := closeEvent_closes hf false s i
    rw [hc, if_pos rfl] at this
    exact this.none_left
  · exact (closeEvent_gen false s u j).trans (hg j)
  · show closesTo _ ((closeEvent false s u).claimAt j)
    have := closeEvent_closes hf false s j
    rw [hc, if_neg (fun e => hj e.symm)] at this
    exact this
  · have back : ∀ j c, u.claimAt j = some c → s.claimAt j = some c := by
      intro j c h
      rw [hc] at h
      split at h
      · cases h
      · exact h
    exact closeEvent_judged (own := some i) ho hf (fun f => by rw [hfr.flyers])
      (fun j c hj h _ => by rw [hc, if_neg (fun e => hj (congrArg some e))]; exact h)
      (fun j c h => ho.not_ended j c (back j c h)) (fun _ h => h)
      (fun _ j c d h _ hd _ => by rw [back j d hd] at h; cases h; exact ⟨rfl, rfl⟩)
  · have k : FlagsRaised 0 (s.setSlot i { s.slots[i] with claim := none }) u :=
      .of_eq (fun j => by rw [hc, setSlot_claimAt]) ha
    exact FlagsRaised.trans (m := 0) (n := 0) k (closeEvent_raised hf false s) (fun j => Or.inl (by rw [hc, setSlot_claimAt]))
  · show (closeEvent false s u).admission.queue = _
    rw [closeEvent_queue, hqf]
    exact List.filter_congr (fun e _ => (named e).symm)
  · have := ClaimFrame.trans hfr (closeEvent_frame false s u)
    have e := congrArg (fun x : State => x.setTx .showSel (answer .ok)) this
    exact e

/-- A claim freed by a command. -/
theorem freed_spec {s : State} {i : Slot} (hq : QueueLaw s)
    (hs : ∀ c, s.claimAt i = some c → c.state ≠ .queued ∧ c.state ≠ .checking) :
    FreedBy s ((freed i s).1.setTx .showSel (freed i s).2) .showSel i :=
  freedBy_of (freeSlot_headFits hq) (fun j => freeSlot_gen i j s) (fun j => freeSlot_claimAt i j s) (freeSlot_frame i s)
    (freeSlot_attention i s) ((freeSlot_goes hs).turn (freeSlot_follows hs) hq) ((freeSlot_follows hs).queue hq)

/-- A claim moved between states of which neither waits in the queue, without ceasing to overstay: the close of the event leaves it so, moves others as a close does, and raises no flag. -/
theorem moved_close {s : State} {i : Slot} {c : Claim} {st : ClaimState} (hq : QueueLaw s) (hc : s.claimAt i = some c) (h1 : c.state ≠ .queued) (h2 : c.state ≠ .checking)
   (ho : c.state.overstaying = true → st.overstaying = true) (u : State) (hu : u.slots = (moveClaim i st s).slots) (hqu : u.admission.queue = (moveClaim i st s).admission.queue) :
   (closeEvent false s u).claimAt i = some { c with state := st } ∧ OthersClose s (closeEvent false s u) i ∧ (closeEvent false s u).attention = u.attention := by
  have hce : ceasedOverstay s u = false := (ceased_congr hu).trans (ceased_move hc ho)
  have g : Settles s u := (moveClaim_settles_of hc h1 h2).trans (.of_eq hu hqu)
  rw [closeEvent_quiet hce]
  have cl := fun j => beginHead_closes (g.headFits hq) j
  have cu : ∀ j, u.claimAt j = if i = j then some { c with state := st } else s.claimAt j := by
    intro j; rw [claimAt_congr hu, moveClaim_claimAt, hc]; rfl
  refine ⟨?_, ⟨fun j => (beginHead_gen _ _).trans (g.2 j).1, fun j hj => ?_, fun hlaw => ?_⟩, beginHead_attention _⟩
  · have k := cl i
    rw [cu, if_pos rfl] at k
    unfold beginHead at k ⊢
    split
    · cases hqq : u.admission.queue with
      | nil => dsimp only; rw [cu, if_pos rfl]
      | cons e l =>
        dsimp only
        rcases checkSubject_slots e (formWalk e u) with k' | ⟨h', c', rfl, hc', k'⟩
        · rw [claimAt_congr (k'.trans (formWalk_slots _ _)), cu, if_pos rfl]
        · rw [k', setClaim_claimAt]
          split
          · next e =>
            exfalso
            have hr' : u.resolve h' = some c' := hc'
            have := (g.headFits hq) h' c' (by rw [hqq]; rfl) hr'
            have h3 := (resolve_eq_some.mp hr').2
            rw [e, cu, if_pos rfl] at h3
            cases h3
            obtain ⟨c0, h0, e0⟩ := (g.2 i).2 _ (by rw [cu, if_pos rfl])
            rw [hc] at h0; cases h0
            have hm : Entry.book h' ∈ s.admission.queue := g.1 _ (by rw [hqq]; exact List.mem_cons_self)
            have hf := hq.2.2 _ hm
            have hrs : s.resolve h' = some c := resolve_eq_some.mpr ⟨by have := (resolve_eq_some.mp hr').1; rw [(g.2 _).1] at this; exact this, by rw [e]; exact hc⟩
            simp [subjectFits, hrs, h1, h2] at hf
          · rw [claimAt_congr (formWalk_slots _ _), cu, if_pos rfl]
    · rw [cu, if_pos rfl]
  · have k := cl j
    rw [cu, if_neg (fun e => hj e.symm)] at k
    exact k
  · refine quiet_judged (own := some i) hlaw (g.headFits hq)
      (fun j d hj h _ => by rw [cu, if_neg (fun e => hj (congrArg some e))]; exact h) (fun j d h hv => ?_)
    rw [cu]
    split
    · next e =>
      subst e
      rw [hc] at h
      cases h
      exact ⟨_, rfl, ho hv, rfl, rfl⟩
    · exact ⟨d, h, hv, rfl, rfl⟩

/-! ## Admission -/

theorem queueFull_true {s : State} (h : 8 ≤ s.admission.queue.length) : s.queueFull = true := decide_eq_true h

theorem queueFull_false {s : State} (h : s.admission.queue.length < 8) : s.queueFull = false :=
  decide_eq_false (by show ¬ 8 ≤ _; omega)

theorem emptyWindow_iff (a : Nat) (p : Bool) (v : Nat) : emptyWindow a (fieldIf p v) = true ↔ p = true ∧ v ≤ a := by
  cases p <;> simp [emptyWindow, fieldIf, endedBy, beforeEnd]

theorem freeSlotOf_none {s : State} (h : ∀ i : Slot, s.claimAt i ≠ none) : s.freeSlotOf = none := by
  simp [State.freeSlotOf, allSlots, List.find?_eq_none]
  intro i
  cases e : s.claimAt i <;> simp_all

/-- The first index below n with a property is the one that `find?` gives. -/
theorem find_lowest {n : Nat} (p : Fin n → Bool) (i : Fin n) (hi : p i = true) (hl : ∀ j, j < i → p j = false) :
    (List.finRange n).find? p = some i := by
  rw [List.find?_eq_some_iff_getElem]
  refine ⟨hi, i.val, by simp, by simp, ?_⟩
  intro j hj
  have hb := hl ⟨j, by omega⟩ (by exact hj)
  simp [hb]

theorem freeSlotOf_lowest {s : State} {i : Slot} (h : s.claimAt i = none) (hl : ∀ j : Slot, j < i → s.claimAt j ≠ none) :
    s.freeSlotOf = some i :=
  find_lowest _ i (by rw [h]; rfl) (fun j hj => by
    cases e : s.claimAt j with
    | none => exact absurd e (hl j hj)
    | some c => rfl)

/-- An accepted booking, for BOOK and FIRE alike: the slot taken, the claim QUEUED or, where its walk begins at once, CHECKING, and the BOOK entry at the tail. -/
theorem acceptBooking_spec {s : State} {i : Slot} {b : Booking} {h : Handle} (ha : Runs s) (hq : QueueLaw s) (hi : s.claimAt i = none) (hh : h = { slot := i, gen := s.slots[i].gen + 1 }) :
    ∃ t, t = closeEvent false s (appendEntry (.book h) (takeSlot i b s)) ∧ acceptBooking i b s = (t, .response .queued (some h.byte)) ∧ ClaimFrame s t ∧
      t.slots[i] = { gen := s.slots[i].gen + 1, claim := some { b.claim with state := if s.admission.queue = [] ∧ s.admission.walk = none then .checking else .queued } } ∧
      (∀ j : Slot, j ≠ i → t.slots[j].gen = s.slots[j].gen ∧ closesTo (s.claimAt j) (t.claimAt j)) ∧
      t.admission.queue = s.admission.queue ++ [.book h] ∧
      (s.admission.queue = [] → s.admission.walk = none → t.admission.walk = some { subject := .book h, cand := { flyer := some b.flyer, box := b.box.region, span := .window { lo := b.start, hi := b.stop } }, pos := .claims 0 }) ∧
      t.attention = s.attention := by
  have hr : s.running = true := (runs_iff s).mp ha
  have hg : (takeSlot i b s).handleAt i = h := by subst hh; simp [State.handleAt, takeSlot]
  refine ⟨_, rfl, by unfold acceptBooking; simp only [hg], ?_⟩
  obtain ⟨u, hu⟩ : ∃ u, u = appendEntry (.book h) (takeSlot i b s) := ⟨_, rfl⟩
  rw [← hu]
  have fu : ClaimFrame s u := by subst hu; rfl
  have uq : u.admission.queue = s.admission.queue ++ [.book h] := by subst hu; rfl
  have uw : u.admission.walk = s.admission.walk := by subst hu; rfl
  have ui : u.slots[i] = { gen := s.slots[i].gen + 1, claim := some b.claim } := by subst hu; simp [appendEntry, takeSlot]
  have uj : ∀ j : Slot, j ≠ i → u.slots[j] = s.slots[j] := by subst hu; intro j hj; show (s.setSlot i _).slots[j] = _; rw [setSlot_get, if_neg (fun e => hj e.symm)]
  have ur : u.running = true := by rw [← hr]; subst hu; rfl
  have ua : u.attention = s.attention := by subst hu; rfl
  have hc : ceasedOverstay s u = false := by
    rw [ceasedOverstay_eq_false]
    intro j hj
    have : j ≠ i := by rintro rfl; simp [State.overstayingAt, hi] at hj
    refine ⟨by rw [uj j this], ?_⟩
    unfold State.overstayingAt State.claimAt at *
    rw [uj j this]; exact hj
  have rh : u.resolve h = some b.claim := by subst hh; rw [resolve_eq_some]; exact ⟨by rw [ui], by unfold State.claimAt; rw [ui]⟩
  have HF : HeadFits u := by
    intro k c hk hc'
    rw [uq] at hk
    cases hs : s.admission.queue with
    | nil => rw [hs] at hk; cases hk; rw [rh] at hc'; cases hc'; exact Or.inl rfl
    | cons e l =>
      rw [hs] at hk
      cases hk
      have hm : Entry.book k ∈ s.admission.queue := by rw [hs]; exact List.mem_cons_self
      have hf := hq.2.2 _ hm
      have hki : k.slot ≠ i := by
        intro e
        have : s.resolve k = none := resolve_free (by rw [e]; exact hi)
        rw [subjectFits, this] at hf; cases hf
      have : s.resolve k = u.resolve k := by unfold State.resolve State.claimAt; rw [uj _ hki]
      rw [subjectFits, this, hc'] at hf
      simpa using hf
  rw [closeEvent_quiet hc]
  have cl := fun j => beginHead_closes HF j
  refine ⟨fu.trans (beginHead_frame u), ?_, fun j hj => ⟨?_, ?_⟩, ?_, fun h1 h2 => ?_, (beginHead_attention u).trans ua⟩
  · have g : (beginHead u).slots[i].gen = s.slots[i].gen + 1 := (beginHead_gen u i).trans (by rw [ui])
    have c : (beginHead u).claimAt i = some { b.claim with state := if s.admission.queue = [] ∧ s.admission.walk = none then .checking else .queued } := by
      have ci : u.claimAt i = some b.claim := by unfold State.claimAt; rw [ui]
      rcases beginHead_cases u i with k | ⟨g, x, hk, hgi, hx, k⟩
      · by_cases hz : s.admission.queue = [] ∧ s.admission.walk = none
        · exfalso
          unfold beginHead at k
          rw [ur, uw, uq, hz.1, hz.2] at k
          simp only [Option.isNone_none, Bool.and_true, if_true, List.nil_append] at k
          have hr2 : (formWalk (.book h) u).resolve h = some b.claim := rh
          simp only [checkSubject, hr2] at k
          rw [setClaim_claimAt, if_pos (by subst hh; rfl), ci] at k
          cases k
        · rw [if_neg hz, k, ci]; rfl
      · have hg2 : g = h := by
          have := (resolve_eq_some.mp hx).1
          cases g; subst hgi; subst hh; congr 1; rw [ui] at this; exact this.symm
        rw [k]
        subst hg2
        rw [rh] at hx; cases hx
        have : s.admission.queue = [] := by
          cases hs : s.admission.queue with
          | nil => rfl
          | cons e l =>
            exfalso
            rw [uq, hs] at hk; cases hk
            have hm : Entry.book g ∈ s.admission.queue := by rw [hs]; exact List.mem_cons_self
            have hf := hq.2.2 _ hm
            have : s.resolve g = none := resolve_free (by rw [hgi]; exact hi)
            rw [subjectFits, this] at hf; cases hf
        have hw : s.admission.walk = none := by
          cases hw : s.admission.walk with
          | none => rfl
          | some w =>
            exfalso
            unfold beginHead at k
            rw [uw, hw] at k
            simp only [Option.isNone_some, Bool.and_false, Bool.false_eq_true, if_false, ci] at k
            cases k
        rw [if_pos ⟨this, hw⟩]
    unfold State.claimAt at c
    rw [← g, ← c]
  · exact (beginHead_gen u j).trans (by rw [uj j hj])
  · have := cl j
    have e : u.claimAt j = s.claimAt j := by unfold State.claimAt; rw [uj j hj]
    rwa [e] at this
  · exact (beginHead_queue u).trans uq
  · unfold beginHead
    rw [ur, uw, uq, h1, h2]
    simp only [Option.isNone_none, Bool.and_true, if_true, List.nil_append]
    rw [checkSubject_admission]
    simp only [formWalk, setAdmission_admission, State.candidateOf, rh, Option.map_some]
    rfl

end Sys2Proof.Machine
end

