-- ==== Sys2Proof/Laws/Grants.lean ====
section
/-! SUPPORT. An ASK and a REPORT at their service: the cells, the claims that contain a segment, and what the judgement depends on. -/

namespace Sys2Proof.Machine

/-- A served ASK is answered once its frame has left the list and the turn is taken (R96). -/
theorem ask_exec {s : State} {c : Flyer} {x y z : Byte} {rest : List InFrame} (hi : s.channels[c].inbound = .ask x y z :: rest) (hg : s.grantsChannel c = true) :
   exec (.ask c) s = .next (answerAsk c (cellOf x y z) (dropHead c (serveChannel c s))) := by
  show execAsk c s = _
  unfold execAsk; rw [hi]; dsimp only; rw [if_pos hg]

/-- The cells of the grid (00, The Dome Grid). -/
theorem inGrid_iff (x y z : Byte) : (cellOf x y z).inGrid = true ↔ x.toNat ≤ 39 ∧ y.toNat ≤ 39 ∧ z.toNat ≤ 31 := by
  unfold Cell.inGrid cellOf
  simp only [Bool.and_eq_true, and_assoc]
  exact and_congr decide_eq_true_iff (and_congr decide_eq_true_iff decide_eq_true_iff)

/-- No claim of the flyer in that state contains the segment. -/
theorem segmentSlot_none {s : State} {f : Flyer} {st : ClaimState} {seg : Box} (h : ∀ (j : Slot) (d : Claim), s.claimAt j = some d → d.flyer = f → d.state = st → d.box.contains seg = false) : s.segmentSlot f st seg = none := by
  unfold State.segmentSlot allSlots
  rw [List.find?_eq_none]
  intro j _
  cases e : s.claimAt j with
  | none => simp
  | some d =>
    simp only [Option.any_some, holdsSegment, Bool.and_eq_true, decide_eq_true_eq, not_and, Bool.not_eq_true]
    rintro ⟨h1, h2⟩; exact h j d e h1 h2

/-- The lowest such claim is found (R97). -/
theorem segmentSlot_some {s : State} {f : Flyer} {st : ClaimState} {seg : Box} {i : Slot} {d : Claim} (hd : s.claimAt i = some d) (h1 : d.flyer = f) (h2 : d.state = st) (h3 : d.box.contains seg = true)
   (h : ∀ (j : Slot) (e : Claim), j < i → s.claimAt j = some e → e.flyer = f → e.state = st → e.box.contains seg = false) : s.segmentSlot f st seg = some i := by
  refine find_lowest _ i (by rw [hd]; simp [holdsSegment, h1, h2, h3]) (fun j hj => ?_)
  cases e : s.claimAt j with
  | none => rfl
  | some d' =>
    simp only [Option.any_some, holdsSegment]
    by_cases a : d'.flyer = f <;> by_cases b : d'.state = st
    · rw [h j d' hj e a b]; simp
    · simp [b]
    · simp [a]
    · simp [a]

/-- Some such claim is found. -/
theorem segmentSlot_exists {s : State} {f : Flyer} {st : ClaimState} {seg : Box} (h : ∃ (j : Slot) (d : Claim), s.claimAt j = some d ∧ d.flyer = f ∧ d.state = st ∧ d.box.contains seg = true) : ∃ i, s.segmentSlot f st seg = some i := by
  cases e : s.segmentSlot f st seg with
  | some i => exact ⟨i, rfl⟩
  | none =>
    obtain ⟨j, d, h1, h2, h3, h4⟩ := h
    unfold State.segmentSlot allSlots at e
    rw [List.find?_eq_none] at e
    have := e j (List.mem_finRange j)
    rw [h1] at this; simp [holdsSegment, h2, h3, h4] at this

/-- A flyer with a bound winch is not UNBOUND. -/
theorem bound_nonempty {s : State} {w : Winch} {c : Flyer} (h : s.bindings[w] = some c) : (s.boundWinches c).isEmpty = false := by
  cases e : (s.boundWinches c).isEmpty
  · rfl
  · rw [List.isEmpty_iff] at e; unfold State.boundWinches allWinches at e
    rw [List.filter_eq_nil_iff] at e
    have := e w (List.mem_finRange w); exact absurd (decide_eq_true h) this

/-- No slot holds a claim with the property. -/
theorem anyClaim_false {s : State} {p : Slot → Claim → Bool} : s.anyClaim p = false ↔ ¬ ∃ (i : Slot) (c : Claim), s.claimAt i = some c ∧ p i c = true := by
  rw [← anyClaim_iff, Bool.not_eq_true]

/-- A served REPORT is handled and its event closes (R84). -/
theorem report_exec {s : State} {c : Flyer} {x y z fl : Byte} {rest : List InFrame} (hi : s.channels[c].inbound = .report x y z fl :: rest) (hg : s.grantsChannel c = true) :
   exec (.report c) s = .next (closeEvent false s (handleReport c (cellOf x y z) (fl.getLsbD 0) (dropHead c (serveChannel c s)))) := by
  show execReport c s = _
  unfold execReport; rw [hi]; dsimp only; rw [if_pos hg]; rfl

/-- The judgement reads the slots, the zones, the grants and the flyer records alone (R109 to R111). -/
theorem judgeReport_congr (c : Flyer) (cell : Cell) (g : Bool) {s u : State} (h1 : u.slots = s.slots) (h2 : u.zones = s.zones) (h3 : u.grants = s.grants) (h4 : u.flyers = s.flyers) : judgeReport c cell g u = judgeReport c cell g s := by
  unfold judgeReport classify intrudes compliance State.inOwnClaim State.anyClaim State.zoneHolding State.grantOf State.claimAt
  rw [h1, h2, h3, h4]

end Sys2Proof.Machine
end

