-- ==== Sys2Proof/Laws/Holds.lean ====
section
/-! SUPPORT. What the removal of every grant and the push of a hold do, flyer by flyer, winch by winch and slot by slot. -/

namespace Sys2Proof.Machine

/-- Every live grant is gone after the removal of every grant, the counters kept (R104, R119). -/
theorem removeAllGrants_grants (s : State) (f : Flyer) :
    (removeAllGrants s).grants[f] = { s.grants[f] with live := none } := by
  have h : ∀ (l : List Flyer) (t : State),
      (l.foldl (fun t f => removeGrant f .hold t) t).grants[f] = if f ∈ l then { t.grants[f] with live := none } else t.grants[f] := by
    intro l
    induction l with
    | nil => intro t; simp
    | cons g l ih =>
      intro t
      rw [List.foldl_cons, ih]
      have k : (removeGrant g .hold t).grants[f] = if g = f then { t.grants[f] with live := none } else t.grants[f] := by
        rw [removeGrant_grants]
        cases hg : t.grantOf g with
        | none =>
          dsimp only
          split
          · next e => subst e; unfold State.grantOf at hg; rw [← hg]
          · rfl
        | some x =>
          show (t.setGrant g _).grants[f] = _
          rw [setGrant_get]
          split
          · next e => subst e; rfl
          · rfl
      rw [k]
      by_cases e : g = f
      · subst e; simp
      · have e' : ¬ f = g := fun x => e x.symm
        simp [e, e']
  unfold removeAllGrants
  rw [h]
  exact if_pos (List.mem_finRange f)

/-- A REVOKE with HOLD is queued for each live grant, and no other channel changes (R104, R119). -/
theorem removeAllGrants_channels (s : State) (f : Flyer) :
    (removeAllGrants s).channels[f] =
      match s.grantOf f with
      | none => s.channels[f]
      | some g => { s.channels[f] with out := s.channels[f].out ++ [.revoke g.seq .hold] } := by
  have h : ∀ (l : List Flyer), l.Nodup → ∀ (t : State),
      (l.foldl (fun t f => removeGrant f .hold t) t).channels[f] =
        match t.grantOf f with
        | none => t.channels[f]
        | some g => if f ∈ l then { t.channels[f] with out := t.channels[f].out ++ [.revoke g.seq .hold] } else t.channels[f] := by
    intro l
    induction l with
    | nil => intro _ t; cases t.grantOf f <;> simp
    | cons g l ih =>
      intro hl t
      have hn := List.nodup_cons.mp hl
      rw [List.foldl_cons, ih hn.2]
      have k : (removeGrant g .hold t).channels[f] =
          match t.grantOf g with
          | none => t.channels[f]
          | some x => if g = f then { t.channels[f] with out := t.channels[f].out ++ [.revoke x.seq .hold] } else t.channels[f] := by
        rw [removeGrant_channels]
        cases hg : t.grantOf g with
        | none => rfl
        | some x =>
          show (t.setChannel g _).channels[f] = _
          rw [setChannel_get]
          split
          · next e => subst e; simp
          · next e => simp
      rw [removeGrant_grantOf, k]
      by_cases e : g = f
      · subst e
        cases hg : t.grantOf g with
        | none => simp
        | some x => simp
      · have e' : ¬ f = g := fun x => e x.symm
        rw [if_neg e]
        cases hg : t.grantOf g with
        | none => cases hf : t.grantOf f <;> simp [e']
        | some x => cases hf : t.grantOf f <;> simp [e, e']
  unfold removeAllGrants
  rw [h allFlyers (List.nodup_finRange 8)]
  cases s.grantOf f with
  | none => rfl
  | some g => simp [allFlyers]

/-- The PERMIT line of a winch falls when its flyer had a live grant, and else stays (R74, R119). -/
theorem removeAllGrants_permit (s : State) (w : Winch) :
    (removeAllGrants s).lines.permit[w] =
      if ∃ f : Flyer, s.bindings[w] = some f ∧ (s.grantOf f).isSome = true then .low else s.lines.permit[w] := by
  have h : ∀ (l : List Flyer) (t : State),
      (l.foldl (fun t f => removeGrant f .hold t) t).lines.permit[w] =
        if ∃ f ∈ l, t.bindings[w] = some f ∧ (t.grantOf f).isSome = true then .low else t.lines.permit[w] := by
    intro l
    induction l with
    | nil => intro t; simp
    | cons g l ih =>
      intro t
      rw [List.foldl_cons, ih]
      have hb : (removeGrant g .hold t).bindings = t.bindings := (removeGrant_frame g .hold t).bindings
      have k : (removeGrant g .hold t).lines.permit[w] =
          if t.bindings[w] = some g ∧ (t.grantOf g).isSome = true then .low else t.lines.permit[w] := by
        rw [removeGrant_permit]
        cases hg : t.grantOf g with
        | none => simp
        | some x => simp only [tabulate_get, Option.isSome_some, and_true]
      rw [hb, k]
      simp only [removeGrant_grantOf, List.mem_cons, exists_eq_or_imp]
      by_cases hg : t.bindings[w] = some g ∧ (t.grantOf g).isSome = true
      · rw [if_pos hg, if_pos (Or.inl hg)]
        split <;> rfl
      · rw [if_neg hg]
        have e : (∃ f ∈ l, t.bindings[w] = some f ∧ (if g = f then none else t.grantOf f).isSome = true) ↔
            ((t.bindings[w] = some g ∧ (t.grantOf g).isSome = true) ∨ ∃ f ∈ l, t.bindings[w] = some f ∧ (t.grantOf f).isSome = true) := by
          constructor
          · rintro ⟨f, h1, h2, h3⟩
            split at h3
            · cases h3
            · exact Or.inr ⟨f, h1, h2, h3⟩
          · rintro (h | ⟨f, h1, h2, h3⟩)
            · exact absurd h hg
            · refine ⟨f, h1, h2, ?_⟩
              rw [if_neg]
              · exact h3
              · rintro rfl
                exact hg ⟨h2, h3⟩
        simp only [e]
  unfold removeAllGrants
  rw [h]
  simp [allFlyers]

/-- The removal of every grant frees exactly the OVERRUN claims of the grounded flyers that held one (R15, R103, R104). -/
theorem removeAllGrants_claimAt (s : State) (j : Slot) :
    (removeAllGrants s).claimAt j = (s.claimAt j).filter (fun d =>
      !(decide (d.state = .overrun) && s.groundedFlyer d.flyer && (s.grantOf d.flyer).isSome)) := by
  have h : ∀ (l : List Flyer) (t : State), (l.foldl (fun t f => removeGrant f .hold t) t).claimAt j =
      (t.claimAt j).filter (fun d =>
        !(decide (d.state = .overrun) && t.groundedFlyer d.flyer && (t.grantOf d.flyer).isSome && decide (d.flyer ∈ l))) := by
    intro l
    induction l with
    | nil =>
      intro t
      rw [List.foldl_nil]
      cases t.claimAt j <;> simp [Option.filter]
    | cons g l ih =>
      intro t
      have hf : ∀ f, (removeGrant g .hold t).groundedFlyer f = t.groundedFlyer f := by
        intro f
        unfold State.groundedFlyer
        rw [(removeGrant_frame g .hold t).flyers]
      rw [List.foldl_cons, ih, removeGrant_claimAt]
      simp only [hf, removeGrant_grantOf, List.mem_cons]
      cases hd : t.claimAt j with
      | none => simp
      | some d =>
        by_cases e : g = d.flyer
        · subst e
          cases h1 : (t.grantOf d.flyer).isSome <;> cases h2 : t.groundedFlyer d.flyer <;>
            by_cases h3 : d.state = .overrun <;> simp [h1, h2, h3, Option.filter]
        · have e' : ¬ d.flyer = g := fun x => e x.symm
          split <;> simp [e, e', Option.filter]
  unfold removeAllGrants
  rw [h]
  simp [allFlyers]

/-- A freeze writes the run state alone. -/
theorem freeze_clock (s : State) :
    freezeClock s = { s with clock := { s.clock with run := if s.clock.run = .running then .frozen else s.clock.run } } := by
  unfold freezeClock; split
  · rfl
  · rfl

/-- A push of a source with HOLDS_CHANGED and the close of an event in which no claim has yet ceased or begun to overstay, from a state whose walk is as R28 says, in the terms of the statements (R118, R119). -/
theorem pushHold_closed {s u v : State} {src : HoldSource} (hq : QueueLaw u) (hw : WalkLaw u)
    (hn : ceasedOverstay s u = false) (hov : ∀ i, u.overstayingAt i = true → s.overstayingAt i = true) (hv : v = closeEvent false s (pushHold src true u)) :
    Pushed u v src := by
  have nocease : ∀ x : State, x.slots = u.slots → ceasedOverstay s x = false := fun x hx => (ceased_congr hx).trans hn
  have nohead : ∀ x : State, x.running = u.running → x.admission = u.admission → beginHead x = x := by
    intro x h1 h2; unfold beginHead
    split
    · next h =>
      rw [h1, h2, Bool.and_eq_true, Option.isNone_iff_eq_none] at h
      rw [h2, (hw.2.2 h.1).mp h.2]
    · rfl
  refine ⟨fun h => ?_, fun h => ?_⟩
  · have : pushHold src true u = u := by unfold pushHold; rw [if_pos h]
    rw [hv, this, closeEvent_quiet (nocease u rfl), nohead u rfl rfl]
  obtain ⟨a, ha⟩ : ∃ a, a = raiseFlag .holdsChanged { u with holds := u.holds ++ [{ source := src, tick := u.now }] } := ⟨_, rfl⟩
  have hp : pushHold src true u = if u.holds.isEmpty then freezeClock (removeAllGrants a) else a := by
    unfold pushHold; rw [if_neg (by simp [h]), ha]; rfl
  by_cases he : u.holds = []
  · rw [he] at hp; simp only [List.isEmpty_nil, if_true] at hp
    rw [hp] at hv
    obtain ⟨b, hb⟩ : ∃ b, b = removeAllGrants a := ⟨_, rfl⟩
    rw [← hb] at hv
    have fa : HoldFrame u a := by subst ha; rfl
    have fb : GrantFrame a b := hb ▸ removeAllGrants_frame a
    have ff : HoldFrame b (freezeClock b) := freezeClock_frame b
    have sf : Settles u (freezeClock b) := (Settles.of_eq (by subst ha; rfl) (by subst ha; rfl)).trans ((hb ▸ removeAllGrants_settles a : Settles a b).trans (.of_eq (by rw [freeze_clock]) (by rw [freeze_clock])))
    have cv : ClaimFrame (freezeClock b) v := hv ▸ closeEvent_frame _ _ _
    have HF : HeadFits (freezeClock b) := sf.headFits hq
    have bc : ∀ j, (freezeClock b).claimAt j = (u.claimAt j).filter (fun d =>
        !(decide (d.state = .overrun) && a.groundedFlyer d.flyer && (a.grantOf d.flyer).isSome)) := by
      intro j
      rw [claimAt_congr (show (freezeClock b).slots = b.slots by rw [freeze_clock]) j, hb, removeAllGrants_claimAt,
        claimAt_congr (show a.slots = u.slots by subst ha; rfl) j]
    have back : ∀ j c, (freezeClock b).claimAt j = some c → u.claimAt j = some c := by
      intro j c h
      rw [bc] at h
      exact (Option.filter_eq_some_iff.mp h).1
    have hraised : FlagsRaised 0x040 u v := by
      have h1 : FlagsRaised 0x040 u a := by
        unfold FlagsRaised
        rw [movedFlags_slots (show a.slots = u.slots by subst ha; rfl), ha, raiseFlag_attention]
        rfl
      have h2 : OnlyExpired a b := hb ▸ removeAllGrants_expired a
      have h3 : FlagsRaised 0 b (freezeClock b) := .of_eq (claimAt_congr (by rw [freeze_clock])) (by rw [freeze_clock])
      have h4 : FlagsRaised 0 (freezeClock b) v := hv ▸ closeEvent_raised HF false s
      have h34 : FlagsRaised 0 b v := FlagsRaised.trans (m := 0) (n := 0) h3 h4 (fun j => Or.inl (claimAt_congr (by rw [freeze_clock]) j))
      have h24 : FlagsRaised 0 a v := FlagsRaised.trans (m := 0) (n := 0) h2.1 h34 (fun j => by
        rcases h2.2 j with e | e
        · exact Or.inl e
        · refine Or.inr ?_
          have k := closeEvent_closes HF false s j
          rw [← hv, claimAt_congr (show (freezeClock b).slots = b.slots by rw [freeze_clock]) j, e] at k
          rw [e, k.none_left])
      exact FlagsRaised.trans (m := 0x040) (n := 0) h1 h24 (fun j => Or.inl (claimAt_congr (by subst ha; rfl) j))
    have hjudged : OverlapLaw u → OverlapsJudged none u v := by
      intro hl
      rw [hv]
      refine closeEvent_judged hl HF (fun f => ?_) (fun j c _ hc hs => ?_) (fun i c hc => hl.not_ended i c (back i c hc)) hov
        (fun _ i c d hc _ hd _ => by rw [back i d hd] at hc; cases hc; exact ⟨rfl, rfl⟩)
      · rw [freeze_clock]
        show b.flyers[f].breach = _
        rw [fb.flyers]; subst ha; rfl
      · rw [bc, hc, Option.filter, hs]; rfl
    have hgoes : WalkGoes u (freezeClock b) ∧ Follows u (freezeClock b) := by
      have ea : a.slots = u.slots := by subst ha; rfl
      have eb : (freezeClock b).slots = b.slots := by rw [freeze_clock]
      have gf : WalkGoes b (freezeClock b) := .of_eq eb (by rw [freeze_clock]) (by rw [freeze_clock])
      have pf : Follows b (freezeClock b) := .of_eq eb (by rw [freeze_clock]) (by rw [freeze_clock]) (by rw [freeze_clock])
      have ga : WalkGoes u a := .of_eq ea (by subst ha; rfl) (by subst ha; rfl)
      have pa : Follows u a := .of_eq ea (by subst ha; rfl) (by subst ha; rfl) (by subst ha; rfl)
      have gb : WalkGoes a b := hb ▸ removeAllGrants_goes a
      have pb : Follows a b := hb ▸ removeAllGrants_follows a
      exact ⟨ga.trans (gb.trans gf pb pf (fun j => Or.inr (claimAt_congr eb j))) pa (pb.trans pf) (fun j => Or.inl (claimAt_congr ea j)),
        pa.trans (pb.trans pf)⟩
    have hfol : Follows u v := hgoes.2.trans (hv ▸ closeEvent_follows false s (freezeClock b))
    refine ⟨fa.trans (fb.hold.trans (ff.trans cv.grant.hold)), ?_, fun h => absurd he h, fun _ => ⟨?_, fun f => ⟨?_, fun hg => ?_, fun g hg => ?_⟩, fun w f hw' => ?_, fun w hw' => ?_, hraised, ?_, ?_, hjudged, fun j => ⟨?_, ?_, fun d hd ho => ?_⟩⟩⟩
    · rw [cv.holds, freeze_clock, fb.holds]; subst ha; rfl
    · rw [cv.clock, freeze_clock, fb.clock]; subst ha; rfl
    · rw [cv.grants, freeze_clock]; show b.grants[f] = _; rw [hb, removeAllGrants_grants]; subst ha; rfl
    · rw [cv.channels, freeze_clock]; show b.channels[f] = _; rw [hb, removeAllGrants_channels]
      have : a.grantOf f = none := by subst ha; exact hg
      rw [this]; subst ha; rfl
    · rw [cv.channels, freeze_clock]; show b.channels[f] = _; rw [hb, removeAllGrants_channels]
      have : a.grantOf f = some g := by subst ha; exact hg
      rw [this]; subst ha; rfl
    · rw [cv.permit, freeze_clock]; show b.lines.permit[w] = _; rw [hb, removeAllGrants_permit]
      have h1 : a.bindings = u.bindings := by subst ha; rfl
      have h2 : a.grantOf = u.grantOf := by subst ha; rfl
      have h3 : a.lines.permit = u.lines.permit := by subst ha; rfl
      rw [h1, h2, h3]
      cases hg : u.grantOf f with
      | none => rw [if_neg, if_pos rfl]; rintro ⟨f', e1, e2⟩; rw [hw'] at e1; cases e1; rw [hg] at e2; cases e2
      | some g => rw [if_pos ⟨f, hw', by rw [hg]; rfl⟩]; rfl
    · rw [cv.permit, freeze_clock]; show b.lines.permit[w] = _; rw [hb, removeAllGrants_permit]
      have h1 : a.bindings = u.bindings := by subst ha; rfl
      have h3 : a.lines.permit = u.lines.permit := by subst ha; rfl
      rw [h1, h3, if_neg]; rintro ⟨f', e1, e2⟩; rw [hw'] at e1; cases e1
    · exact hfol.queue hq
    · rw [hv]; exact (hgoes.1.turn hgoes.2 hq).close false s
    · rw [hv, closeEvent_gen]; exact (sf.2 j).1
    all_goals
      have cl := closeEvent_closes (sf.headFits hq) false s j
      rw [← hv, bc] at cl
    · intro hno
      cases hd : u.claimAt j with
      | none => rw [hd] at cl; exact cl
      | some d =>
        rw [hd] at cl
        have h1 := hno d hd
        simpa [Option.filter, h1] using cl
    · have hg : a.groundedFlyer d.flyer = u.flyers[d.flyer].grounded := by subst ha; rfl
      have hgr : a.grantOf d.flyer = u.grantOf d.flyer := by subst ha; rfl
      rw [hd, Option.filter, hg, hgr] at cl
      refine ⟨fun h => ?_, fun h => ?_⟩
      · simp only [ho, h.1, h.2, decide_true, Bool.and_true, Bool.not_true, Bool.false_eq_true, if_false] at cl
        exact cl.none_left
      · have hk : (u.flyers[d.flyer].grounded && (u.grantOf d.flyer).isSome) = false := by
          rcases h with h | h
          · rw [h, Bool.false_and]
          · rw [h]; exact Bool.and_false _
        simp only [ho, decide_true, Bool.true_and, hk, Bool.not_false, if_true] at cl
        exact cl.stays (by rw [ho]; exact fun h => by cases h) (by rw [ho]; exact fun e h => by cases h)
  · have : u.holds.isEmpty = false := by cases e : u.holds with
      | nil => exact absurd e he
      | cons => rfl
    rw [this] at hp; simp only [Bool.false_eq_true, if_false] at hp
    have hva : v = a := by
      rw [hv, hp, closeEvent_quiet (nocease a (by subst ha; rfl)), nohead a (by subst ha; rfl) (by subst ha; rfl)]
    subst hva
    refine ⟨by subst ha; rfl, by subst ha; rfl, fun _ => ?_, fun h => absurd h he⟩
    · subst ha; exact ⟨rfl, rfl, rfl, rfl, rfl, rfl, rfl, rfl⟩

/-- A state whose attention lines stand as they should is not moved by driving them. -/
theorem driveLines_settled {s : State} (h : AttentionLaw s) : driveLines s = s := by
  unfold driveLines
  rw [← h.1, ← h.2]

/-- The byte of a source names that source (R184). -/
theorem holdSourceOf_code {b : Byte} {src : HoldSource} (h : b.toNat = holdSourceCode src) : holdSourceOf b = some src := by
  unfold holdSourceOf; rw [h]; cases src <;> rfl

/-- A source is held exactly when it has an entry in the list. -/
theorem holding_iff (s : State) (src) : s.holding src = true ↔ ∃ h ∈ s.holds, h.source = src := by
  unfold State.holding; simp

end Sys2Proof.Machine
end

