-- ==== Sys2Proof/Laws/Receiver.lean ====
section
/-! SUPPORT. What the receiver of a channel makes of one byte, of the bytes of a frame, and of the passing of time. -/

namespace Sys2Proof.Machine

/-- A byte in time meets the receiver as it is. -/
theorem atByte_inTime {body : List Byte} {n : Nat} (h : n ≤ 110) : (Receiver.receiving body n).atByte = .receiving body n :=
  if_neg (Nat.not_lt.mpr h)

/-- A late byte meets a hunting receiver. -/
theorem atByte_late {body : List Byte} {n : Nat} (h : 110 < n) : (Receiver.receiving body n).atByte = .hunting := if_pos h

/-- The kind and payload of a frame take the frame at the byte that agrees, and at no other. -/
theorem taken_body (f : InFrame) (n : Nat) (b : Byte) :
    (Receiver.receiving f.body n).taken b = if b = f.check then some f else none := by
  cases f <;> rfl

/-- Past the kind and payload of a frame comes the check byte, after which the receiver hunts. -/
theorem hear_body (f : InFrame) (n : Nat) (b : Byte) : (Receiver.receiving f.body n).hear b = .hunting := by
  cases f <;> rfl

/-- What is read as a frame is that frame's kind and payload. -/
theorem decodeFrame_body {bytes : List Byte} {f : InFrame} (h : decodeFrame bytes = some f) : bytes = f.body := by
  unfold decodeFrame at h
  split at h <;> cases h <;> rfl

/-- A payload shorter than its kind's is no frame yet. -/
theorem decodeFrame_short {k : Byte} {p : List Byte}
    (h : (k = 0x01 ∧ p.length < 2) ∨ (k = 0x02 ∧ p.length < 4) ∨ (k = 0x03 ∧ p.length < 3)) : decodeFrame (k :: p) = none := by
  cases hd : decodeFrame (k :: p) with
  | none => rfl
  | some f =>
    have e := decodeFrame_body hd
    cases f <;> cases e <;> simp at h

/-- A payload byte is taken, whatever its value, and takes no frame. -/
theorem hear_payload {k : Byte} {p : List Byte} (n : Nat) (b : Byte)
    (h : (k = 0x01 ∧ p.length < 2) ∨ (k = 0x02 ∧ p.length < 4) ∨ (k = 0x03 ∧ p.length < 3)) :
    (Receiver.receiving (k :: p) n).hear b = .receiving (k :: p ++ [b]) 0 ∧ (Receiver.receiving (k :: p) n).taken b = none := by
  unfold Receiver.hear Receiver.taken
  dsimp only
  rw [decodeFrame_short h]
  exact ⟨rfl, ite_self _⟩

/-- The kind and payload of a frame, each byte in time, are taken after the sync byte. -/
theorem hear_frame (f : InFrame) : f.body.foldl (fun (r : Receiver) b => r.atByte.hear b) (Receiver.receiving [] 0) = .receiving f.body 0 := by
  cases f <;> rfl

/-- A byte that takes no frame moves the receiver alone. -/
theorem hearByte_moves {ch : Flyer} {b : Byte} {s : State} (h : s.channels[ch].rx.atByte.taken b = none) :
    hearByte ch b s = setReceiver ch (s.channels[ch].rx.atByte.hear b) s := by
  unfold hearByte
  rw [h]

/-- A byte that takes a frame moves the receiver, and places the frame where there is room. -/
theorem hearByte_takes {ch : Flyer} {b : Byte} {s : State} {f : InFrame} (h : s.channels[ch].rx.atByte.taken b = some f) :
    hearByte ch b s = admitFrame ch f (setReceiver ch (s.channels[ch].rx.atByte.hear b) s) := by
  unfold hearByte
  rw [h]

/-- A receiver is set to what it is by nothing. -/
theorem setReceiver_same (ch : Flyer) (s : State) : setReceiver ch s.channels[ch].rx s = s := by
  unfold setReceiver State.setChannel
  congr
  exact Vector.set_getElem_self _

/-- One byte alone meets the receiver as it stands. -/
theorem hearBytes_one (ch : Flyer) (b : Byte) (s : State) : hearBytes ch [] b s = hearByte ch b s := by
  unfold hearBytes
  have : s.channels[ch].rx.before (Config.byteTime * ([] : List Byte).length) = s.channels[ch].rx := by
    cases s.channels[ch].rx <;> rfl
  rw [this, setReceiver_same]
  rfl

/-- After a byte no time has passed since the last byte of the frame. -/
theorem hear_before (d : Nat) (b : Byte) (r : Receiver) : (r.hear b).before d = r.hear b := by
  unfold Receiver.hear
  split
  · split <;> simp [Receiver.before]
  · split <;> simp [Receiver.before]
  · split <;> simp [Receiver.before]

/-- The receiver after a byte heard. -/
theorem hearByte_rx (ch : Flyer) (b : Byte) (s : State) : (hearByte ch b s).channels[ch].rx = s.channels[ch].rx.atByte.hear b := by
  unfold hearByte admitFrame setReceiver
  dsimp only
  split
  · split
    · rw [setChannel_get, if_pos rfl, setChannel_get, if_pos rfl]
    · rw [setChannel_get, if_pos rfl]
  · rw [setChannel_get, if_pos rfl]

/-- Bytes heard back to back are heard one after the other: the first as it was met, the rest after it. -/
theorem hearBytes_cons (ch : Flyer) (b : Byte) (bytes : List Byte) (last : Byte) (s : State) :
    hearBytes ch (b :: bytes) last s =
      hearBytes ch bytes last (hearByte ch b
        (setReceiver ch (s.channels[ch].rx.before (Config.byteTime * (bytes.length + 1))) s)) := by
  unfold hearBytes
  rw [hearByte_rx, hear_before, ← hearByte_rx, setReceiver_same]
  rfl

/-- A command that says one byte has been heard has no other meaning. -/
theorem hearsByte_exec {i : Instr} {c : Flyer} {b : Byte} (h : HearsByte i c b) (s : State) :
    exec i s = .next (if s.running then hearByte c b s else s) := by
  rw [← hearBytes_one]
  rcases h with ⟨rfl, rfl⟩ | rfl | rfl <;> rfl

/-- A receiver keeps within a frame of a known kind, whatever byte it hears. -/
theorem hear_fits (r : Receiver) (b : Byte) (h : receiverFits r = true) : receiverFits (r.atByte.hear b) = true := by
  have ha : receiverFits r.atByte = true := by
    unfold Receiver.atByte
    split
    · rfl
    · split
      · rfl
      · exact h
  generalize r.atByte = q at ha
  unfold Receiver.hear
  split
  · split <;> rfl
  · split
    · next hk =>
      simp only [knownKind, Bool.or_eq_true, beq_iff_eq] at hk
      rcases hk with (rfl | rfl) | rfl <;> rfl
    · rfl
  · next k p n =>
    split
    · rfl
    · next hd =>
      simp only [receiverFits, Bool.or_eq_true, Bool.and_eq_true, decide_eq_true_eq] at ha
      simp only [List.cons_append, receiverFits, List.length_append, List.length_singleton, Bool.or_eq_true, Bool.and_eq_true, decide_eq_true_eq]
      have full : ∀ m, p.length ≤ m → p.length ≠ m → p.length + 1 ≤ m := fun m h1 h2 => by omega
      rcases ha with (⟨hk, hl⟩ | ⟨hk, hl⟩) | ⟨hk, hl⟩
      · refine Or.inl (Or.inl ⟨hk, full 2 hl (fun e => hd ?_)⟩)
        match p, e with
        | [_, _], _ => rw [hk]; rfl
      · refine Or.inl (Or.inr ⟨hk, full 4 hl (fun e => hd ?_)⟩)
        match p, e with
        | [_, _, _, _], _ => rw [hk]; rfl
      · refine Or.inr ⟨hk, full 3 hl (fun e => hd ?_)⟩
        match p, e with
        | [_, _, _], _ => rw [hk]; rfl

/-- Time alone leaves what a receiver has taken. -/
theorem elapse_fits (d : Nat) (r : Receiver) : receiverFits (r.elapse d) = receiverFits r := by
  cases r with
  | hunting => rfl
  | receiving body n => cases body <;> rfl

end Sys2Proof.Machine
end

