-- ==== Sys2Proof/Laws/Records.lean ====
section
/-! SUPPORT. The fields of streamed records, as bytes (R183, R187). -/

namespace Sys2Proof.Machine

/-- A tick field is its number in three bytes. -/
theorem tickField_eq (n : Nat) : tickField n = threeBytes n := by
  unfold tickField bytes24 threeBytes
  simp only [List.cons.injEq, and_true]
  refine ⟨?_, ?_, ?_⟩ <;> apply BitVec.eq_of_toNat_eq <;> simp [Nat.shiftRight_eq_div_pow] <;> omega

/-- A two-byte field is its number in two bytes. -/
theorem wordField_eq (n : Nat) : wordField n = twoBytes n := by
  unfold wordField bytes16 twoBytes
  simp only [List.cons.injEq, and_true]
  refine ⟨?_, ?_⟩ <;> apply BitVec.eq_of_toNat_eq
  · simp [Nat.shiftRight_eq_div_pow]
    omega
  · simp

/-- A box field is its six bounds, a byte each. -/
theorem boxField_eq (b : Box) : boxField b = sixBytes b := rfl

/-- A yes-or-no field is the byte 1 or 0. -/
theorem boolField_eq (b : Bool) : boolField b = [BitVec.ofNat 8 (bitOf b 1)] := by cases b <;> rfl

/-- A presence byte of two fields. -/
theorem presenceField_two (a b : Bool) : presenceField [a, b] = [BitVec.ofNat 8 (bitOf a 1 + bitOf b 2)] := by
  cases a <;> cases b <;> rfl

/-- A presence byte of five fields. -/
theorem presenceField_five (a b c d e : Bool) :
    presenceField [a, b, c, d, e] = [BitVec.ofNat 8 (bitOf a 1 + bitOf b 2 + bitOf c 4 + bitOf d 8 + bitOf e 16)] := by
  cases a <;> cases b <;> cases c <;> cases d <;> cases e <;> rfl

/-- A presence byte of three fields. -/
theorem presenceField_three (a b c : Bool) : presenceField [a, b, c] = [BitVec.ofNat 8 (bitOf a 1 + bitOf b 2 + bitOf c 4)] := by
  cases a <;> cases b <;> cases c <;> rfl

/-- A handle is one byte. -/
theorem handle_byte_eq (h : Handle) : h.byte = oneHandle h := rfl

/-- A box with its fixed attribute. -/
theorem fixedBoxField_eq (a : FixedBox) : fixedBoxField a = fixedBytes a := by
  unfold fixedBoxField fixedBytes
  rw [boxField_eq, boolField_eq]

/-- A cell field is its three coordinates. -/
theorem cellField_eq (c : Cell) : cellField c = threeCoords c := rfl

/-- A breach in a flyer record. -/
theorem breachEventField_eq (e : BreachEvent) : breachEventField e = breachBytes e := by
  unfold breachEventField breachBytes
  rw [tickField_eq, cellField_eq]
  cases e.kind <;> rfl

/-- A way in a template set record. -/
theorem wayField_eq (x : Option Template) : wayField x = wayBytes x := by
  cases x with
  | none => rfl
  | some t =>
    unfold wayField wayBytes
    dsimp only
    rw [wordField_eq, wordField_eq, wordField_eq, boxField_eq]
    cases t.locked <;> rfl

/-- An entry of the hold record. -/
theorem holdField_eq (h : HoldEntry) : byteField (holdSourceCode h.source) ++ tickField h.tick = holdBytes h := by
  unfold holdBytes
  rw [tickField_eq]
  cases h.source <;> rfl

/-- An alert in the alert record. -/
theorem alertEventField_eq (e : AlertEvent) : alertEventField e = alertBytes e := by
  unfold alertEventField alertBytes
  rw [tickField_eq]
  cases e.cause <;> rfl

/-- The held fields of a claim's record are present exactly while it is HELD. -/
theorem heldFields_isSome (st : ClaimState) : (heldFields st).isSome = st.isHeld := by cases st <;> rfl

end Sys2Proof.Machine
end

