-- ==== Sys2Proof/Laws/Templates.lean ====
section
/-! SUPPORT. A cue looked up in its set, and the template commands on a miss and on a hit. -/

namespace Sys2Proof.Machine

/-- A cue that no way holds misses (R146). -/
theorem find_miss {t : TemplateSet} {cue : Nat} (h : ∀ (v : Fin 4) (o : Template), t.ways[v] = some o → o.cue ≠ cue) : t.find cue = none := by
  unfold TemplateSet.find allWays
  rw [List.find?_eq_none]
  intro w _
  cases e : t.ways[w] with
  | none => simp
  | some o => simp [h w o e]

/-- The lowest way that holds a cue is the hit. -/
theorem find_hit {t : TemplateSet} {cue : Nat} {w : Fin 4} {x : Template} (hx : t.ways[w] = some x) (hc : x.cue = cue)
   (hl : ∀ v : Fin 4, v < w → ∀ o, t.ways[v] = some o → o.cue ≠ cue) : t.find cue = some w := by
  unfold TemplateSet.find allWays
  refine find_lowest _ w (by rw [hx]; simp [hc]) (fun v hv => ?_)
  cases e : t.ways[v] with
  | none => rfl
  | some o => simp [hl v hv o e]

/-- The set of a cue is the cue modulo 16 (R146). -/
theorem cueSet_eq {k : Fin 16} {cue : Nat} (hk : k.val = cue % 16) : cueSet cue = k := Fin.ext hk.symm

/-- A cue above 4095 is BAD_OPERAND. -/
theorem onTemplate_out {cue : Word16} (h : 4095 < cue.toNat) (act) (s) : onTemplate cue act s = refuse .badOperand s := by
  unfold onTemplate; rw [cueOf_none h]

/-- A miss is NO_TEMPLATE. -/
theorem onTemplate_miss {cue : Word16} {s : State} {k : Fin 16} (h : cue.toNat ≤ 4095) (hk : k.val = cue.toNat % 16)
   (hm : ∀ (v : Fin 4) (o : Template), s.templates.sets[k].ways[v] = some o → o.cue ≠ cue.toNat) (act) : onTemplate cue act s = refuse .noTemplate s := by
  unfold onTemplate; rw [cueOf_some h]; dsimp only; 
  have := cueSet_eq hk; subst this
  rw [find_miss hm]

/-- A hit acts on the way found. -/
theorem onTemplate_hit {cue : Word16} {s : State} {k : Fin 16} {w : Fin 4} {x : Template} (h : cue.toNat ≤ 4095) (hk : k.val = cue.toNat % 16)
   (hx : s.templates.sets[k].ways[w] = some x) (hc : x.cue = cue.toNat)
   (hl : ∀ v : Fin 4, v < w → ∀ o, s.templates.sets[k].ways[v] = some o → o.cue ≠ cue.toNat) (act) : onTemplate cue act s = act k w x s := by
  unfold onTemplate; rw [cueOf_some h]; dsimp only; 
  have := cueSet_eq hk; subst this
  rw [find_hit hx hc hl]; dsimp only; rw [hx]

/-- A load in terms of the set of its cue (R149). -/
theorem loadTemplate_of_set {x : Template} {k : Fin 16} (hk : cueSet x.cue = k) (s : State) : loadTemplate x s =
    match s.templates.sets[k].find x.cue, s.templates.sets[k].emptyWay, s.templates.sets[k].displaced with
  | some w, _, _ => (s.setTemplates k (s.templates.sets[k].load w { x with locked := s.templates.sets[k].lockedAt w }), answer .ok)
  | none, some w, _ => (s.setTemplates k (s.templates.sets[k].load w x), answer .ok)
  | none, none, some w => (noteEviction (s.templates.sets[k].cueAt w) (s.setTemplates k (s.templates.sets[k].load w x)), answer .ok)
  | none, none, none => refuse .setLocked s := by subst hk; rfl

end Sys2Proof.Machine
end

