-- ==== Sys2Proof/Laws/Time.lean ====
section
/-! SUPPORT. What the passing of real time leaves, field by field and law by law. -/

namespace Sys2Proof.Machine

/-- Real time changes the channels, the grants and the clock alone. -/
theorem elapse_frame (d : Nat) (s : State) :
    elapse d s = { s with channels := (elapse d s).channels, grants := (elapse d s).grants, clock := (elapse d s).clock } := by
  unfold elapse
  split <;> rfl

@[simp] theorem elapse_pending (d : Nat) (s : State) : (elapse d s).pending = s.pending := by rw [elapse_frame]
@[simp] theorem elapse_slots (d : Nat) (s : State) : (elapse d s).slots = s.slots := by rw [elapse_frame]
@[simp] theorem elapse_arbiter (d : Nat) (s : State) : (elapse d s).arbiter = s.arbiter := by rw [elapse_frame]
@[simp] theorem elapse_admission (d : Nat) (s : State) : (elapse d s).admission = s.admission := by rw [elapse_frame]
@[simp] theorem elapse_zones (d : Nat) (s : State) : (elapse d s).zones = s.zones := by rw [elapse_frame]
@[simp] theorem elapse_protect (d : Nat) (s : State) : (elapse d s).protect = s.protect := by rw [elapse_frame]
@[simp] theorem elapse_flyers (d : Nat) (s : State) : (elapse d s).flyers = s.flyers := by rw [elapse_frame]
@[simp] theorem elapse_bindings (d : Nat) (s : State) : (elapse d s).bindings = s.bindings := by rw [elapse_frame]
@[simp] theorem elapse_holds (d : Nat) (s : State) : (elapse d s).holds = s.holds := by rw [elapse_frame]
@[simp] theorem elapse_templates (d : Nat) (s : State) : (elapse d s).templates = s.templates := by rw [elapse_frame]
@[simp] theorem elapse_attention (d : Nat) (s : State) : (elapse d s).attention = s.attention := by rw [elapse_frame]
@[simp] theorem elapse_alert (d : Nat) (s : State) : (elapse d s).alert = s.alert := by rw [elapse_frame]
@[simp] theorem elapse_supply (d : Nat) (s : State) : (elapse d s).supply = s.supply := by rw [elapse_frame]
@[simp] theorem elapse_console (d : Nat) (s : State) : (elapse d s).console = s.console := by rw [elapse_frame]
@[simp] theorem elapse_inputs (d : Nat) (s : State) : (elapse d s).inputs = s.inputs := by rw [elapse_frame]
@[simp] theorem elapse_lines (d : Nat) (s : State) : (elapse d s).lines = s.lines := by rw [elapse_frame]

@[simp] theorem elapse_running (d : Nat) (s : State) : (elapse d s).running = s.running := by
  unfold State.running
  rw [elapse_supply, elapse_inputs]

@[simp] theorem elapse_claimAt (d : Nat) (s : State) (i : Slot) : (elapse d s).claimAt i = s.claimAt i := by
  unfold State.claimAt
  rw [elapse_slots]

@[simp] theorem elapse_resolve (d : Nat) (s : State) (h : Handle) : (elapse d s).resolve h = s.resolve h := by
  unfold State.resolve
  rw [elapse_slots, elapse_claimAt]

@[simp] theorem elapse_count (d : Nat) (s : State) : (elapse d s).clock.count = s.clock.count := by
  unfold elapse Clock.elapse
  split <;> rfl

@[simp] theorem elapse_run (d : Nat) (s : State) : (elapse d s).clock.run = s.clock.run := by
  unfold elapse Clock.elapse
  split <;> rfl

@[simp] theorem elapse_source (d : Nat) (s : State) : (elapse d s).clock.source = s.clock.source := by
  unfold elapse Clock.elapse
  split <;> rfl

@[simp] theorem elapse_now (d : Nat) (s : State) : (elapse d s).now = s.now := by
  unfold State.now
  rw [elapse_run, elapse_count]

/-- A channel while real time passes: only its timer and its receiver move. -/
theorem elapse_channel (d : Nat) (s : State) (c : Flyer) :
    (elapse d s).channels[c] = if s.running then s.channels[c].elapse d else s.channels[c] := by
  unfold elapse
  split <;> simp

theorem elapse_channelState (d : Nat) (s : State) (c : Flyer) : (elapse d s).channels[c].state = s.channels[c].state := by
  rw [elapse_channel]
  split <;> rfl

theorem elapse_inbound (d : Nat) (s : State) (c : Flyer) : (elapse d s).channels[c].inbound = s.channels[c].inbound := by
  rw [elapse_channel]
  split <;> rfl

theorem elapse_out (d : Nat) (s : State) (c : Flyer) : (elapse d s).channels[c].out = s.channels[c].out := by
  rw [elapse_channel]
  split <;> rfl

/-- A grant while real time passes: only its lease shortens. -/
theorem elapse_grant (d : Nat) (s : State) (f : Flyer) :
    (elapse d s).grants[f] = if s.running then s.grants[f].elapse d else s.grants[f] := by
  unfold elapse
  split <;> simp

theorem elapse_grantOf (d : Nat) (s : State) (f : Flyer) :
    (elapse d s).grantOf f = if s.running then (s.grantOf f).map (fun g => { g with lease := g.lease - d }) else s.grantOf f := by
  unfold State.grantOf
  rw [elapse_grant]
  split <;> rfl

theorem elapse_grantOf_isSome (d : Nat) (s : State) (f : Flyer) : ((elapse d s).grantOf f).isSome = (s.grantOf f).isSome := by
  rw [elapse_grantOf]
  split <;> simp

/-! ## The laws that real time keeps -/

theorem elapse_permitLaw (d : Nat) {s : State} (h : PermitLaw s) : PermitLaw (elapse d s) := by
  intro w
  rw [elapse_lines, elapse_bindings]
  simp only [elapse_grantOf_isSome]
  exact h w

theorem elapse_grantsOnlyFree (d : Nat) {s : State} (h : GrantsOnlyFree s) : GrantsOnlyFree (elapse d s) := by
  intro f hf
  rw [elapse_grantOf_isSome] at hf
  simpa using h f hf

theorem elapse_queueLaw (d : Nat) {s : State} (h : QueueLaw s) : QueueLaw (elapse d s) := by
  refine ⟨by simpa using h.1, by simpa using h.2.1, fun e he => ?_⟩
  have := h.2.2 e (by simpa using he)
  cases e <;> simpa [subjectFits] using this

theorem elapse_overlapLaw (d : Nat) {s : State} (h : OverlapLaw s) : OverlapLaw (elapse d s) := by
  intro i
  have e : ∀ f r, (elapse d s).overlapsOverstayer f r = s.overlapsOverstayer f r := by
    intro f r
    simp [State.overlapsOverstayer, State.anyClaim]
  simp only [elapse_claimAt, e]
  exact h i

end Sys2Proof.Machine
end

