-- ==== Sys2Proof/Laws/Walks.lean ====
section
/-! SUPPORT. The walk's reads and its completion: when a read conflicts, and what a completion makes of its subject, of the queue and of the next head. -/

namespace Sys2Proof.Machine

/-- The same, when further entries may have left with their claims. -/
theorem headFits_after {s d : State} {e : Entry} (hq : QueueLaw s) (hw : s.admission.queue.head? = some e)
   (hd : ∀ x ∈ d.admission.queue, x ∈ s.admission.queue.drop 1) (hg : ∀ j : Slot, d.slots[j].gen = s.slots[j].gen)
   (hc : ∀ j, e.slot? ≠ some j → ∀ x, d.claimAt j = some x → s.claimAt j = some x) : HeadFits d := by
  intro k x hk hx
  obtain ⟨h1, h2⟩ := resolve_eq_some.mp hx
  have hk' := hd _ (List.mem_of_mem_head? hk)
  cases hs : s.admission.queue with
  | nil => rw [hs] at hk'; cases hk'
  | cons e' l =>
    rw [hs] at hk' hw
    cases hw
    have hm : Entry.book k ∈ s.admission.queue := by rw [hs]; exact List.mem_cons_of_mem _ hk'
    have hf := hq.2.2 _ hm
    have hp := hq.2.1
    rw [hs] at hp
    have hns := (List.pairwise_cons.mp hp).1 (.book k) hk'
    rw [hg] at h1
    cases hsk : s.claimAt k.slot with
    | none => rw [subjectFits, resolve_free hsk] at hf; cases hf
    | some c0 =>
      have hr0 : s.resolve k = some c0 := resolve_eq_some.mpr ⟨h1, hsk⟩
      by_cases he : e.slot? = some k.slot
      · exfalso
        have hme : e ∈ s.admission.queue := by rw [hs]; exact List.mem_cons_self
        have hfe := hq.2.2 _ hme
        have hgen : ∀ g : Handle, g.slot = k.slot → (s.resolve g).isSome = true → g = k := by
          intro g hgs hr
          cases hr' : s.resolve g with
          | none => rw [hr'] at hr; cases hr
          | some y =>
            have := (resolve_eq_some.mp hr').1
            cases g; cases k; simp only at hgs; subst hgs; congr 1; exact this.symm.trans h1
        cases e with
        | book g =>
          have hgs : g.slot = k.slot := by simpa [Entry.slot?] using he
          have := hgen g hgs (by cases hr' : s.resolve g with | none => simp [subjectFits, hr'] at hfe | some y => rfl)
          subst this; simp [sameSubject] at hns
        | amend g =>
          have hgs : g.slot = k.slot := by simpa [Entry.slot?] using he
          have := hgen g hgs (by cases hr' : s.resolve g with | none => simp [subjectFits, hr'] at hfe | some y => rfl)
          subst this; simp [sameSubject] at hns
        | zone z => cases he
      · have := hc _ he _ h2
        have hrx : s.resolve k = some x := resolve_eq_some.mpr ⟨h1, this⟩
        simpa [subjectFits, hrx] using hf

/-- Once the head has left, the claim the next BOOK entry names is QUEUED or CHECKING, when only claims other than the head's subject stand as they did. -/
theorem headFits_next {s d : State} {e : Entry} (hq : QueueLaw s) (hw : s.admission.queue.head? = some e)
   (hd : d.admission.queue = s.admission.queue.drop 1) (hg : ∀ j : Slot, d.slots[j].gen = s.slots[j].gen)
   (hc : ∀ j, e.slot? ≠ some j → ∀ x, d.claimAt j = some x → s.claimAt j = some x) : HeadFits d :=
  headFits_after hq hw (fun x hx => by rwa [hd] at hx) hg hc

/-- The subject of the walk in flight is the head (R28). -/
theorem walk_head {s : State} {w : Walk} (hw : s.admission.walk = some w) (hl : WalkLaw s) : s.admission.queue.head? = some w.subject := by
  have := hl.1; rw [hw] at this; simpa using this

/-- One claim written without ceasing to overstay asks for no re-check. -/
theorem ceased_set {s d : State} {h : Slot} {c : Claim} (hc : s.claimAt h = some c) (hg : ∀ j : Slot, d.slots[j].gen = s.slots[j].gen)
  (hd : ∀ j, j ≠ h → d.claimAt j = s.claimAt j) (ho : c.state.overstaying = true → d.overstayingAt h = true) : ceasedOverstay s d = false := by
  rw [ceasedOverstay_eq_false]
  intro j hj
  refine ⟨hg j, ?_⟩
  by_cases e : j = h
  · subst e; apply ho; simpa [State.overstayingAt, hc] using hj
  · unfold State.overstayingAt at *; rw [hd j e]; exact hj

/-- The completion of a walk that writes its subject's claim alone, to a claim that waits in no queue and has not ceased to overstay nor, overstaying, moved. -/
theorem completed {s d : State} {e : Entry} {h : Slot} {c c' : Claim} (hq : QueueLaw s) (hw : s.admission.queue.head? = some e) (he : e.slot? = some h)
   (hd : d.admission.queue = s.admission.queue.drop 1) (hg : ∀ j : Slot, d.slots[j].gen = s.slots[j].gen)
   (hc : s.claimAt h = some c) (hc' : d.claimAt h = some c') (hj : ∀ j, j ≠ h → d.claimAt j = s.claimAt j)
   (ho : c.state.overstaying = true → c'.state.overstaying = true ∧ c'.flyer = c.flyer ∧ c'.region = c.region) (h1 : c'.state ≠ .queued) (h2 : c'.state ≠ .checking) :
   closeEvent false s d = beginHead d ∧ (beginHead d).claimAt h = some c' ∧ OthersClose s (beginHead d) h ∧ (beginHead d).admission.queue = s.admission.queue.drop 1 ∧ (beginHead d).attention = d.attention := by
  have HF : HeadFits d := headFits_next hq hw hd hg (fun j hj' x hx => by
    have : j ≠ h := by rintro rfl; exact hj' he
    rw [← hj j this]; exact hx)
  refine ⟨closeEvent_quiet (ceased_set hc hg hj (fun ho' => by unfold State.overstayingAt; rw [hc']; exact (ho ho').1)), beginHead_stays HF hc' h1 h2, ⟨fun j => (beginHead_gen d j).trans (hg j), fun j hne => ?_, fun hl => ?_⟩, (beginHead_queue d).trans hd, beginHead_attention d⟩
  · have := beginHead_closes HF j
    rwa [hj j hne] at this
  · refine quiet_judged (own := some h) hl HF (fun j x hne hx _ => by rw [hj j (fun e => hne (congrArg some e.symm))]; exact hx) (fun j x hx hv => ?_)
    by_cases e : j = h
    · subst e
      rw [hc] at hx
      cases hx
      exact ⟨c', hc', ho hv⟩
    · exact ⟨x, by rw [hj j e]; exact hx, hv, rfl, rfl⟩

/-- The comparison of a walk access says that the slot conflicts (R36, R38). -/
theorem slotConflicts_iff (s : State) (w : Walk) (i : Slot) : s.slotConflicts w i = true ↔ SlotConflict s w i := by
  unfold State.slotConflicts SlotConflict
  simp only [Option.any_eq_true, Bool.and_eq_true, decide_eq_true_eq, and_assoc]

/-- The comparison of a zone read says that the zone conflicts (R37). -/
theorem zoneConflicts_iff (s : State) (w : Walk) (z : Zone) : s.zoneConflicts w z = true ↔ ZoneConflict s w z := by
  unfold State.zoneConflicts ZoneConflict
  cases e : s.zones[z] <;> simp [ZoneSlot.inForce]

/-- A served walk access reads its slot. -/
theorem walkAccess_exec {s : State} {w : Walk} {i : Slot} (hw : s.admission.walk = some w) (hp : w.pos = .claims i) (hg : s.grantsWalk = true) :
   exec .walkAccess s = .next (readSlot w i (serveWalk s)) := by
  show execWalkAccess s = _
  unfold execWalkAccess; rw [hw]; dsimp only; rw [hp]; dsimp only; rw [if_pos hg]

/-- A zone read of a running part reads its zone. -/
theorem zoneRead_exec {s : State} {w : Walk} {z : Zone} (hw : s.admission.walk = some w) (hp : w.pos = .zones z) (hr : Runs s) :
   exec .zonePhaseRead s = .next (readZone w z s) := by
  show execZonePhaseRead s = _
  unfold execZonePhaseRead; rw [hw]; dsimp only; rw [hp]; dsimp only; rw [if_pos ((runs_iff s).mp hr)]

/-- Every channel is some number of places after any other. -/
theorem flyer_wrap : ∀ l d : Fin 8, l + 1 + (d - (l+1)) = d := by decide

/-- The round robin finds no channel exactly when none waits (R24). -/
theorem nextChannel_none_iff (s : State) : s.nextChannel.isNone = true ↔ ∀ c : Flyer, s.channels[c].waiting = false := by
  unfold State.nextChannel
  rw [Option.isNone_iff_eq_none, List.find?_eq_none]
  unfold channelsAfter allFlyers
  simp only [List.mem_map, List.mem_finRange, true_and, Bool.not_eq_true]
  constructor
  · intro h c; exact h c ⟨c - (s.arbiter.lastServed + 1), flyer_wrap _ _⟩
  · rintro h _ ⟨k, rfl⟩; exact h _

/-- The head's leaving moves no claim. -/
theorem leaveQueue_resolve (s : State) (h) : (leaveQueue s).resolve h = s.resolve h := rfl

/-- A completion that writes its subject's claim alone (R39). -/
theorem completeWalk_write {S : State} {e : Entry} {v : Option Verdict} {h : Slot} {c c' : Claim} (hq : QueueLaw S) (hw : S.admission.queue.head? = some e) (he : e.slot? = some h)
   (hr : S.claimAt h = some c) (hd : deliverVerdict e v (leaveQueue S) = ((leaveQueue S).setClaim h c', false))
   (ho : c.state.overstaying = true → c'.state.overstaying = true ∧ c'.flyer = c.flyer ∧ c'.region = c.region) (h1 : c'.state ≠ .queued) (h2 : c'.state ≠ .checking) :
   ∃ t, completeWalk e v S = t ∧ ClaimFrame S t ∧ t.claimAt h = some c' ∧ OthersClose S t h ∧ t.admission.queue = S.admission.queue.drop 1 ∧ t.attention = raisedBy 0x001 S.attention := by
  refine ⟨_, rfl, ?_⟩
  unfold completeWalk
  rw [hd]
  dsimp only
  obtain ⟨d, hdd⟩ : ∃ d, d = raiseFlag .admitDone ((leaveQueue S).setClaim h c') := ⟨_, rfl⟩
  rw [← hdd]
  have cu : ∀ j, d.claimAt j = if h = j then some c' else S.claimAt j := by intro j; subst hdd; exact setClaim_claimAt ..
  obtain ⟨k1, k2, k3, k4, k5⟩ := completed (d := d) (c' := c') hq hw he (by subst hdd; rfl) (fun j => by subst hdd; exact setClaim_gen ..) hr (by rw [cu, if_pos rfl]) (fun j hj => by rw [cu, if_neg (fun e => hj e.symm)]) ho h1 h2
  rw [k1]
  refine ⟨?_, k2, k3, k4, by rw [k5]; subst hdd; rfl⟩
  have : ClaimFrame S d := by subst hdd; rfl
  exact this.trans (beginHead_frame d)

/-- A completion whose verdict may also raise flags (R39). -/
theorem completeWalk_spec {S D : State} {e : Entry} {v : Option Verdict} {h : Slot} {c c' : Claim} {m : FlagSet} (hq : QueueLaw S) (hw : S.admission.queue.head? = some e) (he : e.slot? = some h)
   (hr : S.claimAt h = some c) (hd : deliverVerdict e v (leaveQueue S) = (D, false)) (hD : ∀ j, D.claimAt j = if h = j then some c' else S.claimAt j)
   (hDg : ∀ j : Slot, D.slots[j].gen = S.slots[j].gen) (hDf : ClaimFrame S D) (hDq : D.admission.queue = S.admission.queue.drop 1) (hDa : D.attention = raisedBy m S.attention)
   (ho : c.state.overstaying = true → c'.state.overstaying = true ∧ c'.flyer = c.flyer ∧ c'.region = c.region) (h1 : c'.state ≠ .queued) (h2 : c'.state ≠ .checking) :
   ∃ t, completeWalk e v S = t ∧ ClaimFrame S t ∧ t.claimAt h = some c' ∧ OthersClose S t h ∧ t.admission.queue = S.admission.queue.drop 1 ∧ t.attention = raisedBy (m ||| 0x001) S.attention := by
  refine ⟨_, rfl, ?_⟩
  unfold completeWalk
  rw [hd]
  dsimp only
  obtain ⟨d, hdd⟩ : ∃ d, d = raiseFlag .admitDone D := ⟨_, rfl⟩
  rw [← hdd]
  have cu : ∀ j, d.claimAt j = if h = j then some c' else S.claimAt j := by intro j; subst hdd; exact hD j
  obtain ⟨k1, k2, k3, k4, k5⟩ := completed (d := d) (c' := c') hq hw he (by subst hdd; exact hDq) (fun j => by subst hdd; exact hDg j) hr (by rw [cu, if_pos rfl]) (fun j hj => by rw [cu, if_neg (fun e => hj e.symm)]) ho h1 h2
  rw [k1]
  refine ⟨?_, k2, k3, k4, by rw [k5]; subst hdd; rw [raiseFlag_attention, hDa, raisedBy_raisedBy]; rfl⟩
  have : ClaimFrame S d := by subst hdd; exact hDf.trans (raiseFlag_frame _ _)
  exact this.trans (beginHead_frame d)

/-- With no walk in flight, a move writes the claim's state alone. -/
theorem moveClaim_nowalk {s : State} {i : Slot} {c : Claim} {st} (hc : s.claimAt i = some c) (hw : s.admission.walk = none) : moveClaim i st s = s.setClaim i { c with state := st } := by
  unfold moveClaim; rw [hc]; dsimp only; rw [hw]; simp

end Sys2Proof.Machine
end

