-- ==== Sys2Proof/Laws/Windows.lean ====
section
/-! SUPPORT. What a tick, a jump or a load does: the endings and the openings slot by slot, the grants flyer by flyer, the queue, the flags and the lines. -/

namespace Sys2Proof.Machine

/-- What the ending part makes of one claim (R11). -/
def endedClaim (s : State) (c : Claim) : Option Claim :=
  if endedBy c.stop s.now = true then
    match c.state with
    | .active => if s.settled c.flyer = true then none else some { c with state := .overrun }
    | .held .overlap _ => none
    | .held cause false => some { c with state := .held cause true }
    | _ => some c
  else some c

/-- What the endings keep: the clock, the flyers, and which flyers hold a live grant. -/
def EndingFrame (s t : State) : Prop :=
  t.clock = s.clock ∧ t.flyers = s.flyers ∧ ∀ f : Flyer, (t.grantOf f).isNone = (s.grantOf f).isNone

theorem EndingFrame.refl (s : State) : EndingFrame s s := ⟨rfl, rfl, fun _ => rfl⟩

theorem EndingFrame.trans {s t u : State} (h : EndingFrame s t) (k : EndingFrame t u) : EndingFrame s u :=
  ⟨k.1.trans h.1, k.2.1.trans h.2.1, fun f => (k.2.2 f).trans (h.2.2 f)⟩

theorem ClaimFrame.ending {s t : State} (h : ClaimFrame s t) : EndingFrame s t :=
  ⟨h.clock, h.flyers, fun f => by unfold State.grantOf; rw [h.grants]⟩

theorem descendGrant_ending (f : Flyer) (h : Handle) (s : State) : EndingFrame s (descendGrant f h s) := by
  unfold descendGrant
  cases hg : s.grantOf f with
  | none => exact .refl s
  | some g =>
    dsimp only
    split
    · refine ⟨rfl, rfl, fun e => ?_⟩
      unfold State.grantOf
      rw [setGrant_get]
      split
      · next he =>
        subst he
        unfold State.grantOf at hg
        rw [hg]
        rfl
      · rfl
    · exact .refl s

theorem EndingFrame.settled {s t : State} (h : EndingFrame s t) (f : Flyer) : t.settled f = s.settled f := by
  unfold State.settled State.groundedFlyer
  rw [h.2.1, h.2.2 f]

theorem EndingFrame.now {s t : State} (h : EndingFrame s t) : t.now = s.now := by
  unfold State.now
  rw [h.1]

theorem endClaim_ending (i : Slot) (s : State) : EndingFrame s (endClaim i s) := by
  unfold endClaim
  split
  · exact .refl s
  · split
    · split
      · split
        · exact (expireSlot_frame i s).ending
        · exact ((moveClaim_frame _ _ _).trans (raiseFlag_frame _ _)).ending.trans (descendGrant_ending _ _ _)
      · exact (expireSlot_frame i s).ending
      · exact (moveClaim_frame _ _ _).ending
      · exact .refl s
    · exact .refl s

theorem descendGrant_slots (f : Flyer) (h : Handle) (s : State) : (descendGrant f h s).slots = s.slots := by
  unfold descendGrant
  split
  · rfl
  · split <;> rfl

theorem endClaim_claimAt (i j : Slot) (s : State) :
    (endClaim i s).claimAt j = if i = j then (s.claimAt j).bind (endedClaim s) else s.claimAt j := by
  unfold endClaim
  cases hc : s.claimAt i with
  | none =>
    dsimp only
    split
    · next e => subst e; rw [hc]; rfl
    · rfl
  | some c =>
    dsimp only
    by_cases he : endedBy c.stop s.now = true
    · rw [if_pos he]
      have k : ∀ x : Option Claim, (endedClaim s c = x) → (if i = j then (s.claimAt j).bind (endedClaim s) else s.claimAt j) = if i = j then x else s.claimAt j := by
        intro x hx
        split
        · next e => subst e; rw [hc]; exact hx
        · rfl
      split
      · next hs =>
        by_cases hx : s.settled c.flyer = true
        · rw [if_pos hx, expireSlot_claimAt, k none (by unfold endedClaim; rw [if_pos he, hs]; exact if_pos hx)]
        · rw [if_neg hx, claimAt_congr (descendGrant_slots _ _ _), claimAt_congr (raiseFlag_slots _ _), moveClaim_claimAt, hc,
            k (some { c with state := .overrun }) (by unfold endedClaim; rw [if_pos he, hs]; exact if_neg hx)]
          rfl
      · next hs => rw [expireSlot_claimAt, k none (by unfold endedClaim; rw [if_pos he, hs])]
      · next cause hne hs =>
        rw [moveClaim_claimAt, hc, k (some { c with state := .held cause true }) (by
          unfold endedClaim
          rw [if_pos he, hs]
          cases cause <;> first | rfl | exact absurd rfl hne)]
        rfl
      · next h1 h2 h3 =>
        rw [k (some c) (by
          unfold endedClaim
          rw [if_pos he]
          split
          · next h => exact absurd h h1
          · next h => exact absurd h (h2 _)
          · next h => exact absurd h (h3 _)
          · rfl)]
        split
        · next e => subst e; exact hc
        · rfl
    · rw [if_neg he]
      split
      · next e =>
        subst e
        rw [hc]
        show some c = endedClaim s c
        unfold endedClaim
        rw [if_neg he]
      · rfl

/-- The ending part, slot by slot (R11, R14). -/
theorem endings_claimAt (s : State) (j : Slot) : (endings s).claimAt j = (s.claimAt j).bind (endedClaim s) := by
  unfold endings
  refine foldSlots_claimAt (EndingFrame s) _ (fun _ x => x.bind (endedClaim s)) (fun t i h => h.trans (endClaim_ending i t)) ?_ s
    (.refl s) j
  intro t i k ht
  rw [endClaim_claimAt]
  have : endedClaim t = endedClaim s := by
    funext c
    unfold endedClaim
    rw [ht.now, ht.settled]
  rw [this]

/-- What the opening test makes of one claim (R12). -/
def openedClaim (s : State) (c : Claim) : Claim :=
  { c with state :=
      if s.breached c.flyer = true then .held .breach false
      else if s.overlapsOverstayer c.flyer c.region = true then .held .overlap false
      else .active }

theorem openClaim_claimAt {i : Slot} {s : State} {c : Claim} (hc : s.claimAt i = some c) (j : Slot) :
    (openClaim i s).claimAt j = if i = j then some (openedClaim s c) else s.claimAt j := by
  have k : ∀ (t : State) (st : ClaimState), t.slots = (moveClaim i st s).slots →
      t.claimAt j = if i = j then some { c with state := st } else s.claimAt j := by
    intro t st ht
    rw [claimAt_congr ht, moveClaim_claimAt, hc]
    rfl
  unfold openClaim openedClaim
  rw [hc]
  dsimp only
  split
  · exact k _ _ rfl
  · split
    · exact k _ _ rfl
    · exact k _ _ rfl

/-- What the BOOKED part makes of one claim: with `jump`, one whose window is past is freed (R12, R14, R141). -/
def begunClaim (jump : Bool) (s : State) (c : Claim) : Option Claim :=
  if c.state = .booked then
    if jump = true ∧ endedBy c.stop s.now = true then none
    else if c.start ≤ s.now then some (openedClaim s c) else some c
  else some c

/-- The BOOKED part for one slot, of a tick or of a jump. -/
def bookedPart (jump : Bool) (i : Slot) (s : State) : State := if jump then jumpBooked i s else openBooked i s

theorem openBooked_claimAt (i j : Slot) (s : State) :
    (openBooked i s).claimAt j = if i = j then (s.claimAt j).bind (begunClaim false s) else s.claimAt j := by
  unfold openBooked
  cases hc : s.claimAt i with
  | none =>
    dsimp only
    split
    · next e => subst e; rw [hc]; rfl
    · rfl
  | some c =>
    dsimp only
    by_cases h : c.state = .booked ∧ c.start ≤ s.now
    · rw [if_pos (by simp [h]), openClaim_claimAt hc]
      split
      · next e => subst e; rw [hc]; simp [begunClaim, h]
      · rfl
    · rw [if_neg (by simpa using h)]
      split
      · next e =>
        subst e
        rw [hc]
        show some c = begunClaim false s c
        unfold begunClaim
        by_cases hb : c.state = .booked
        · rw [if_pos hb, if_neg (by simp), if_neg (fun x => h ⟨hb, x⟩)]
        · rw [if_neg hb]
      · rfl

theorem bookedPart_claimAt (jump : Bool) (i j : Slot) (s : State) :
    (bookedPart jump i s).claimAt j = if i = j then (s.claimAt j).bind (begunClaim jump s) else s.claimAt j := by
  unfold bookedPart
  cases jump with
  | false => exact openBooked_claimAt i j s
  | true =>
    simp only [if_true]
    unfold jumpBooked
    cases hc : s.claimAt i with
    | none =>
      dsimp only
      split
      · next e => subst e; rw [hc]; rfl
      · rfl
    | some c =>
      dsimp only
      by_cases h : c.state = .booked ∧ endedBy c.stop s.now = true
      · rw [if_pos (by simp [h]), expireSlot_claimAt]
        split
        · next e => subst e; rw [hc]; simp [begunClaim, h]
        · rfl
      · rw [if_neg (by simpa using h), openBooked_claimAt]
        split
        · next e =>
          subst e
          rw [hc]
          show begunClaim false s c = begunClaim true s c
          unfold begunClaim
          by_cases hb : c.state = .booked
          · have : ¬ endedBy c.stop s.now = true := fun x => h ⟨hb, x⟩
            simp [hb, this]
          · simp [hb]
        · rfl

/-- What the BOOKED part keeps: the clock, the flyers, and the overstaying claims. -/
def OpeningFrame (s t : State) : Prop :=
  t.clock = s.clock ∧ t.flyers = s.flyers ∧ ∀ (j : Slot) (c : Claim), c.state.overstaying = true → (t.claimAt j = some c ↔ s.claimAt j = some c)

theorem OpeningFrame.refl (s : State) : OpeningFrame s s := ⟨rfl, rfl, fun _ _ _ => Iff.rfl⟩

theorem OpeningFrame.trans {s t u : State} (h : OpeningFrame s t) (k : OpeningFrame t u) : OpeningFrame s u :=
  ⟨k.1.trans h.1, k.2.1.trans h.2.1, fun j c x => (k.2.2 j c x).trans (h.2.2 j c x)⟩

theorem begunClaim_overstaying {jump : Bool} {s : State} {c d : Claim} (h : begunClaim jump s c = some d)
    (hd : d.state.overstaying = true) : d = c := by
  unfold begunClaim at h
  split at h
  · split at h
    · cases h
    · split at h
      · cases h
        unfold openedClaim at hd
        dsimp only at hd
        split at hd
        · cases hd
        · split at hd <;> cases hd
      · cases h; rfl
  · cases h; rfl

theorem begunClaim_of_overstaying {jump : Bool} {s : State} {c : Claim} (h : c.state.overstaying = true) :
    begunClaim jump s c = some c := by
  unfold begunClaim
  rw [if_neg]
  intro e
  rw [e] at h
  cases h

theorem bookedPart_opening (jump : Bool) (i : Slot) (s : State) : OpeningFrame s (bookedPart jump i s) := by
  have f : ClaimFrame s (bookedPart jump i s) := by
    unfold bookedPart
    split
    · exact jumpBooked_frame i s
    · exact openBooked_frame i s
  refine ⟨f.clock, f.flyers, fun j c hc => ?_⟩
  rw [bookedPart_claimAt]
  split
  · constructor
    · intro h
      obtain ⟨x, h1, h2⟩ := Option.bind_eq_some_iff.mp h
      rw [begunClaim_overstaying h2 hc]
      exact h1
    · intro h
      rw [h]
      exact begunClaim_of_overstaying hc
  · rfl

theorem OpeningFrame.begun {s t : State} (h : OpeningFrame s t) (jump : Bool) : begunClaim jump t = begunClaim jump s := by
  funext c
  have hn : t.now = s.now := by unfold State.now; rw [h.1]
  unfold begunClaim openedClaim
  rw [hn, breached_congr h.2.1, overlapsOverstayer_congr h.2.2]

/-- The BOOKED part of a tick or a jump, slot by slot (R12, R14, R141). -/
theorem bookedParts_claimAt (jump : Bool) (s : State) (j : Slot) :
    (allSlots.foldl (fun t i => bookedPart jump i t) s).claimAt j = (s.claimAt j).bind (begunClaim jump s) := by
  refine foldSlots_claimAt (OpeningFrame s) _ (fun _ x => x.bind (begunClaim jump s))
    (fun t i h => h.trans (bookedPart_opening jump i t)) ?_ s (.refl s) j
  intro t i k ht
  rw [bookedPart_claimAt, ht.begun]

theorem bookedParts_opening (jump : Bool) (s : State) : OpeningFrame s (allSlots.foldl (fun t i => bookedPart jump i t) s) :=
  foldl_frame OpeningFrame .refl (fun _ _ _ h k => h.trans k) _ (fun t i => bookedPart_opening jump i t) allSlots s

theorem openings_eq (s : State) : openings s = allSlots.foldl (fun t i => bookedPart false i t) s := rfl

theorem jumpOpenings_eq (s : State) : jumpOpenings s = allSlots.foldl (fun t i => bookedPart true i t) s := rfl

/-- The window part of a tick, or with `jump` of a jump or load, with the close of its event. -/
def windowEvent (jump : Bool) (s : State) : State := closeEvent false s (allSlots.foldl (fun t i => bookedPart jump i t) (endings s))

theorem windowEvent_tick (s : State) : tickEvent s = windowEvent false s := rfl
theorem windowEvent_jump (s : State) : jumpEvent s = windowEvent true s := rfl

/-- The claims once the window part of a tick, a jump or a load is done, slot by slot, before the close (R11, R12, R14, R141). -/
theorem windowPart_claimAt (jump : Bool) (s : State) (j : Slot) :
    (allSlots.foldl (fun t i => bookedPart jump i t) (endings s)).claimAt j =
      ((s.claimAt j).bind (endedClaim s)).bind (begunClaim jump (endings s)) := by
  rw [bookedParts_claimAt, endings_claimAt]

/-- The window part books nothing. -/
theorem windowPart_settles (jump : Bool) (s : State) : Settles s (allSlots.foldl (fun t i => bookedPart jump i t) (endings s)) := by
  refine (endings_settles s).trans ?_
  cases jump
  · exact openings_settles _
  · exact jumpOpenings_settles _

/-- Under R26's law an overstaying claim is as it was after the window part. -/
theorem windowPart_keeps {jump : Bool} {s : State} (ho : OverlapLaw s) {j : Slot} {c : Claim} (hc : s.claimAt j = some c)
    (hov : c.state.overstaying = true) : (allSlots.foldl (fun t i => bookedPart jump i t) (endings s)).claimAt j = some c := by
  have h1 : endedClaim s c = some c := by
    unfold endedClaim
    split
    · cases hs : c.state with
      | held cause m =>
        rw [hs] at hov
        cases m with
        | false => cases hov
        | true =>
          cases cause
          case overlap => exact absurd hs (ho.not_ended j c hc)
          all_goals rfl
      | active => rw [hs] at hov; cases hov
      | _ => rfl
    · rfl
  rw [windowPart_claimAt, hc]
  show (endedClaim s c).bind _ = _
  rw [h1]
  exact begunClaim_of_overstaying hov

/-- Under R26's law no claim ceases to overstay in the window part, and the close is the beginning of the head's walk alone. -/
theorem windowEvent_quiet {jump : Bool} {s : State} (ho : OverlapLaw s) :
    windowEvent jump s = beginHead (allSlots.foldl (fun t i => bookedPart jump i t) (endings s)) := by
  refine closeEvent_quiet (ceasedOverstay_eq_false.mpr (fun j hj => ⟨((windowPart_settles jump s).2 j).1, ?_⟩))
  unfold State.overstayingAt at *
  cases hc : s.claimAt j with
  | none => rw [hc] at hj; cases hj
  | some c => rw [hc] at hj; rw [windowPart_keeps ho hc hj]; exact hj

/-- No slot's claim is changed both by the endings and by the BOOKED part. -/
theorem windowPart_chain (jump : Bool) (s : State) (j : Slot) :
    (endings s).claimAt j = s.claimAt j ∨
      (allSlots.foldl (fun t i => bookedPart jump i t) (endings s)).claimAt j = (endings s).claimAt j := by
  rw [bookedParts_claimAt, endings_claimAt]
  cases hc : s.claimAt j with
  | none => exact Or.inl rfl
  | some c =>
    rw [Option.bind_some]
    by_cases hb : c.state = .booked
    · refine Or.inl ?_
      unfold endedClaim
      rw [hb]
      split <;> rfl
    · refine Or.inr ?_
      cases he : endedClaim s c with
      | none => rfl
      | some d =>
        have hd : d.state ≠ .booked := by
          intro e
          unfold endedClaim at he
          split at he
          · split at he
            · split at he <;> cases he
              cases e
            · cases he
            · cases he; cases e
            · cases he; exact hb e
          · cases he; exact hb e
        rw [Option.bind_some]
        unfold begunClaim
        rw [if_neg hd]

/-- A tick, a jump and a load raise exactly the flags that the changes of the claims call for (R9, R11, R12). -/
theorem windowEvent_raised {jump : Bool} {s : State} (hq : QueueLaw s) (ho : OverlapLaw s) : FlagsRaised 0 s (windowEvent jump s) := by
  rw [windowEvent_quiet ho]
  refine beginHead_raised ((windowPart_settles jump s).headFits hq) ?_
  have h : FlagsRaised 0 (endings s) (allSlots.foldl (fun t i => bookedPart jump i t) (endings s)) := by
    cases jump
    · rw [← openings_eq]; exact openings_raised _
    · rw [← jumpOpenings_eq]; exact jumpOpenings_raised _
  exact FlagsRaised.trans (m := 0) (n := 0) (endings_raised s) h (windowPart_chain jump s)

/-- A tick, a jump and a load move the windows as R11 to R14 and R141 say. -/
theorem windowEvent_claims {jump : Bool} {s : State} (hq : QueueLaw s) (ho : OverlapLaw s) :
   ClaimsMoved jump s (windowEvent jump s) := by
  obtain ⟨e, he⟩ : ∃ e, e = endings s := ⟨_, rfl⟩
  obtain ⟨u, hu⟩ : ∃ u, u = allSlots.foldl (fun t i => bookedPart jump i t) e := ⟨_, rfl⟩
  have su : Settles s u := by rw [hu, he]; exact windowPart_settles jump s
  have ec : ∀ j, e.claimAt j = (s.claimAt j).bind (endedClaim s) := by intro j; rw [he]; exact endings_claimAt s j
  have uc : ∀ j, u.claimAt j = (e.claimAt j).bind (begunClaim jump e) := by intro j; rw [hu]; exact bookedParts_claimAt jump e j
  have ef : EndingFrame s e := by
    rw [he]; unfold endings
    exact foldl_frame EndingFrame .refl (fun _ _ _ h k => h.trans k) _ (fun t i => endClaim_ending i t) allSlots s
  have of : OpeningFrame e u := hu ▸ bookedParts_opening jump e
  have hol : ∀ j c m, s.claimAt j = some c → c.state = .held .overlap m → m = false ∧ OverstayedIn s c.flyer c.region :=
    fun _ _ _ hc hs => ho.held hc hs
  have keep : ∀ j c, s.claimAt j = some c → c.state.overstaying = true → u.claimAt j = some c := by
    intro j c hc hov
    rw [hu, he]
    exact windowPart_keeps ho hc hov
  have hev2 : windowEvent jump s = beginHead u := by rw [hu, he]; exact windowEvent_quiet ho
  rw [hev2]
  have HF := su.headFits hq
  have ov : ∀ f r, OverstayedIn (beginHead u) f r ↔ OverstayedIn e f r := by
    intro f r
    rw [← overlapsOverstayer_iff, ← overlapsOverstayer_iff, ← overlapsOverstayer_congr of.2.2 f r, overlapsOverstayer_congr (s := u) (t := beginHead u)]
    intro j c hc
    rcases beginHead_cases u j with k | ⟨g, x, k1, k2, k3, k4⟩
    · rw [k]
    · have hx := (resolve_eq_some.mp k3).2
      subst k2
      rw [k4, hx]
      constructor
      · intro h; cases h; cases hc
      · intro h; have e := Option.some.inj h; rw [← e] at hc; rcases HF g x k1 k3 with h | h <;> rw [h] at hc <;> cases hc
  have hover : ∀ f r, e.overlapsOverstayer f r = true ↔ OverstayedIn (beginHead u) f r := by intro f r; rw [overlapsOverstayer_iff, ov]
  have hbr : ∀ f, e.breached f = true ↔ s.flyers[f].breach ≠ none := by
    intro f; unfold State.breached; rw [ef.2.1]; cases s.flyers[f].breach <;> simp
  have stay : ∀ j x, u.claimAt j = some x → x.state ≠ .queued → x.state ≠ .checking → (beginHead u).claimAt j = some x := fun j x h h1 h2 => beginHead_stays HF h h1 h2
  have gone : ∀ j, u.claimAt j = none → (beginHead u).claimAt j = none := fun j h => by
    have := beginHead_closes HF j; rw [h] at this; exact this.none_left
  refine ⟨fun j => ⟨(beginHead_gen u j).trans (su.2 j).1, fun h => gone j (by rw [uc, ec, h]; rfl)⟩, fun j c hc => ?_⟩
  have ucj : ∀ x : Option Claim, endedClaim s c = x → u.claimAt j = x.bind (begunClaim jump e) := by
    intro x hx; rw [uc, ec, hc]; show (endedClaim s c).bind _ = _; rw [hx]
  have nb : ∀ d : Claim, d.state ≠ .booked → begunClaim jump e d = some d := by intro d hd; unfold begunClaim; rw [if_neg hd]
  refine ⟨fun hs hend => ⟨fun hset => ?_, fun hset => ?_⟩, fun hs hend => ?_, fun cause hs hne => ?_, fun cause hs hne => ?_, fun hs => ?_, fun hs => ?_, fun hs => ?_, fun hs hend => ?_, fun hs hend => ⟨fun hov => ?_, fun hov => ?_⟩, fun hs hj hend => ?_, fun hs hor => ?_⟩
  · refine gone j ?_
    rw [ucj none (by unfold endedClaim; rw [if_pos hend, hs]; exact if_pos hset)]; rfl
  · refine stay j _ ?_ nofun nofun
    rw [ucj (some { c with state := .overrun }) (by unfold endedClaim; rw [if_pos hend, hs]; exact if_neg (by rw [hset]; nofun))]
    exact nb _ nofun
  · refine stay j _ ?_ (by rw [hs]; nofun) (by rw [hs]; nofun)
    rw [ucj (some c) (by unfold endedClaim; rw [if_neg (by rw [hend]; nofun)])]
    exact nb _ (by rw [hs]; nofun)
  · refine stay j _ ?_ nofun nofun
    cases hend : endedBy c.stop s.now with
    | true =>
      rw [ucj (some { c with state := .held cause true }) (by unfold endedClaim; rw [if_pos hend, hs]; cases cause <;> first | rfl | exact absurd rfl hne)]
      exact nb _ nofun
    | false =>
      rw [ucj (some c) (by unfold endedClaim; rw [if_neg (by rw [hend]; nofun)])]
      show begunClaim jump e c = _
      rw [nb _ (by rw [hs]; nofun), ← hs]
  · refine stay j _ (keep j c hc (by rw [hs]; rfl)) (by rw [hs]; nofun) (by rw [hs]; nofun)
  · refine stay j _ (keep j c hc (by rw [hs]; rfl)) (by rw [hs]; nofun) (by rw [hs]; nofun)
  · refine stay j _ ?_ (by rw [hs]; nofun) (by rw [hs]; nofun)
    rw [ucj (some c) (by unfold endedClaim; rw [hs]; split <;> rfl)]
    exact nb _ (by rw [hs]; nofun)
  · have : u.claimAt j = some c := by
      rw [ucj (some c) (by unfold endedClaim; rcases hs with h | h <;> rw [h] <;> split <;> rfl)]
      exact nb _ (by rcases hs with h | h <;> rw [h] <;> nofun)
    have k := beginHead_closes HF j; rwa [this] at k
  · refine gone j ?_
    rw [ucj none (by unfold endedClaim; rw [if_pos hend, hs])]; rfl
  · refine stay j _ ?_ (by rw [hs]; nofun) (by rw [hs]; nofun)
    rw [ucj (some c) (by unfold endedClaim; rw [if_neg (by rw [hend]; nofun)])]
    exact nb _ (by rw [hs]; nofun)
  · exfalso
    apply hov
    rw [ov]
    obtain ⟨j', d, h1, h2, h3, h4⟩ := (hol j c false hc hs).2
    have k := keep j' d h1 h2
    exact ⟨j', d, (of.2.2 j' d h2).mp k, h2, h3, h4⟩
  · refine gone j ?_
    rw [ucj (some c) (by unfold endedClaim; rw [hs]; split <;> rfl)]
    show begunClaim jump e c = none
    unfold begunClaim; rw [if_pos hs, ef.now, if_pos ⟨hj, hend⟩]
  · have hu2 : u.claimAt j = begunClaim jump e c := by
      rw [ucj (some c) (by unfold endedClaim; rw [hs]; split <;> rfl)]; rfl
    unfold begunClaim at hu2
    rw [if_pos hs, ef.now, if_neg (by rintro ⟨a, b⟩; rcases hor with h | h <;> simp_all)] at hu2
    refine ⟨fun hlt => ?_, fun hle hb => ?_, fun hle hb => ⟨fun hov => ?_, fun hov => ?_⟩⟩
    · rw [if_neg (by omega)] at hu2
      exact stay j _ hu2 (by rw [hs]; nofun) (by rw [hs]; nofun)
    all_goals rw [if_pos hle] at hu2; unfold openedClaim at hu2
    · rw [if_pos ((hbr _).mpr hb)] at hu2
      exact stay j _ hu2 nofun nofun
    all_goals rw [if_neg (fun h => (hbr _).mp h hb)] at hu2
    · rw [if_pos ((hover _ _).mpr hov)] at hu2
      exact stay j _ hu2 nofun nofun
    · rw [if_neg (fun h => hov ((hover _ _).mp h))] at hu2
      exact stay j _ hu2 nofun nofun

/-! ## Grants, frames and PERMIT lines of a window event (R11, R105) -/

/-- Whether the claim a grant of f names ends, ACTIVE, at this count. -/
def endsClaimOf (s : State) (f : Flyer) (g : Grant) : Bool :=
  (s.resolve g.claim).any (fun c => decide (c.flyer = f) && decide (c.state = .active) && endedBy c.stop s.now)

/-- A grant record after the claims of some slots have ended. -/
def descended (s : State) (p : Slot → Bool) (f : Flyer) : GrantRec :=
  { seq := s.grants[f].seq
    live := (s.grantOf f).map (fun g => if p g.claim.slot && endsClaimOf s f g then { g with kind := .descent } else g) }

theorem endClaim_gen (i : Slot) (s : State) (j : Slot) : (endClaim i s).slots[j].gen = s.slots[j].gen :=
  ((endClaim_settles i s).2 j).1

/-- The ending of one claim writes at most the kind of the grant that names it. -/
theorem endClaim_grant (i : Slot) (s : State) (f : Flyer) :
    (endClaim i s).grants[f] = descended s (fun j => decide (j = i)) f := by
  have rec' : ∀ x : Option Grant, s.grantOf f = x → s.grants[f] = { seq := s.grants[f].seq, live := x } := by
    intro x h; unfold State.grantOf at h; rw [← h]
  have same : (∀ g, s.grantOf f = some g → g.claim.slot = i → endsClaimOf s f g = false) →
      s.grants[f] = descended s (fun j => decide (j = i)) f := by
    intro h
    unfold descended
    cases hg : s.grantOf f with
    | none => exact rec' _ hg
    | some g =>
      rw [rec' _ hg]
      by_cases hi : g.claim.slot = i
      · simp [h g hg hi]
      · simp [hi]
  have via : ∀ {t : State}, t.grants = s.grants → s.grants[f] = descended s (fun j => decide (j = i)) f →
      t.grants[f] = descended s (fun j => decide (j = i)) f := by
    intro t h k
    rw [← k]
    exact congrArg (fun v : Vector GrantRec 8 => v[f]) h
  have notEnds : ∀ (c : Claim), s.claimAt i = some c → (c.flyer ≠ f ∨ c.state ≠ .active ∨ endedBy c.stop s.now = false) →
      ∀ g : Grant, s.grantOf f = some g → g.claim.slot = i → endsClaimOf s f g = false := by
    intro c hc hor g _ hi
    unfold endsClaimOf
    cases hr : s.resolve g.claim with
    | none => rfl
    | some d =>
      have := (resolve_eq_some.mp hr).2
      rw [hi, hc] at this; cases this
      rw [Option.any_some]
      rcases hor with h | h | h
      · rw [decide_eq_false h]; rfl
      · rw [decide_eq_false h, Bool.and_false]; rfl
      · rw [h, Bool.and_false]
  unfold endClaim
  split
  · next hc =>
    exact same (fun g _ hi => by unfold endsClaimOf; rw [resolve_free (by rw [hi]; exact hc)]; rfl)
  · next c hc =>
    split
    · next he =>
      split
      · next hs =>
        split
        · next hx =>
          refine via (expireSlot_frame i s).grants (same (fun g hg hi => notEnds c hc (Or.inl ?_) g hg hi))
          rintro rfl
          unfold State.settled at hx
          rw [hg] at hx
          simp at hx
        · obtain ⟨u, hu⟩ : ∃ u, u = raiseFlag .overrun (moveClaim i .overrun s) := ⟨_, rfl⟩
          have gu : u.grants = s.grants := (hu ▸ (moveClaim_frame _ _ _).trans (raiseFlag_frame _ _) : ClaimFrame s u).grants
          rw [← hu]
          unfold descendGrant
          have gof : ∀ k, u.grantOf k = s.grantOf k := by intro k; unfold State.grantOf; rw [gu]
          rw [gof]
          cases hg : s.grantOf c.flyer with
          | none =>
            exact via gu (same (fun g hg' hi => notEnds c hc (Or.inl (by rintro rfl; rw [hg] at hg'; cases hg')) g hg' hi))
          | some g =>
            dsimp only
            split
            · next hgc =>
              rw [setGrant_get]
              split
              · next hf =>
                subst hf
                have hr : s.resolve g.claim = some c :=
                  resolve_eq_some.mpr ⟨by rw [hgc]; rfl, by rw [hgc]; exact hc⟩
                unfold descended endsClaimOf
                rw [hg, Option.map_some, hr, Option.any_some, he, hs, gu, hgc]
                simp [State.handleAt]
              · next hf => exact via gu (same (notEnds c hc (Or.inl hf)))
            · next hgc =>
              refine via gu (same (fun g' hg' hi => ?_))
              by_cases hf : c.flyer = f
              · rw [hf, hg'] at hg; cases hg
                unfold endsClaimOf
                have : s.resolve g.claim = none := by
                  unfold State.resolve
                  rw [if_neg]
                  intro e
                  apply hgc
                  unfold State.handleAt
                  rw [← hi, e]
                rw [this]; rfl
              · exact notEnds c hc (Or.inl hf) g' hg' hi
      · next hs => exact via (expireSlot_frame i s).grants (same (notEnds c hc (Or.inr (Or.inl (by rw [hs]; nofun)))))
      · next hs => exact via (moveClaim_frame _ _ _).grants (same (notEnds c hc (Or.inr (Or.inl (by rw [hs]; nofun)))))
      · next hs _ _ => exact same (notEnds c hc (Or.inr (Or.inl hs)))
    · next he => exact same (notEnds c hc (Or.inr (Or.inr (by simpa using he))))

theorem endings_grant (s : State) (f : Flyer) : (endings s).grants[f] = descended s (fun _ => true) f := by
  have h : ∀ (l : List Slot), l.Nodup → ∀ (t : State),
      (l.foldl (fun t i => endClaim i t) t).grants[f] = descended t (fun j => decide (j ∈ l)) f := by
    intro l
    induction l with
    | nil =>
      intro _ t
      show t.grants[f] = _
      unfold descended State.grantOf
      cases h : t.grants[f].live with
      | none => rw [Option.map_none, ← h]
      | some g => rw [Option.map_some]; simp [← h]
    | cons i l ih =>
      intro hl t
      have hn := List.nodup_cons.mp hl
      rw [List.foldl_cons, ih hn.2]
      have e1 : (endClaim i t).grantOf f = (t.grantOf f).map (fun g =>
          if decide (g.claim.slot = i) && endsClaimOf t f g then { g with kind := .descent } else g) := by
        unfold State.grantOf; rw [endClaim_grant]; rfl
      have e2 : (endClaim i t).grants[f].seq = t.grants[f].seq := by rw [endClaim_grant]; rfl
      unfold descended
      rw [e1, e2]
      cases hg : t.grantOf f with
      | none => rfl
      | some g =>
        have ends : ∀ g' : Grant, g'.claim = g.claim → g.claim.slot ≠ i →
            endsClaimOf (endClaim i t) f g' = endsClaimOf t f g := by
          intro g' e hne
          have hr : (endClaim i t).resolve g.claim = t.resolve g.claim := by
            have hcl : (endClaim i t).claimAt g.claim.slot = t.claimAt g.claim.slot := by
              rw [endClaim_claimAt, if_neg (fun x => hne x.symm)]
            unfold State.resolve
            rw [endClaim_gen, hcl]
          unfold endsClaimOf
          rw [e, hr, (endClaim_ending i t).now]
        simp only [Option.map_some]
        by_cases hi : g.claim.slot = i
        · have hnl : ¬ i ∈ l := hn.1
          simp only [hi, decide_true, Bool.true_and, List.mem_cons, true_or]
          split <;> simp [hi, hnl]
        · simp [hi, ends g rfl hi]
  rw [endings, h allSlots (List.nodup_finRange 32) s]
  have : (fun j : Slot => decide (j ∈ allSlots)) = fun _ => true := by funext j; simp [allSlots]
  rw [this]

/-- The kinds of the grants after the endings are as R11 says. -/
theorem endings_descend {s t : State} (h : t.grants = (endings s).grants) : GrantsDescend s t := by
  intro f
  rw [h, endings_grant]
  have rec' : ∀ x : Option Grant, s.grantOf f = x → s.grants[f] = { seq := s.grants[f].seq, live := x } := by
    intro x h; unfold State.grantOf at h; rw [← h]
  refine ⟨fun hg => ?_, fun g hg => ⟨?_, fun hn => ?_⟩⟩
  · unfold descended; rw [hg]; exact (rec' _ hg).symm
  · rintro ⟨c, hr, hf, hs, he⟩
    unfold descended endsClaimOf
    rw [hg, Option.map_some, hr, Option.any_some, he, hs, hf]
    simp
  · have : endsClaimOf s f g = false := by
      unfold endsClaimOf
      cases hr : s.resolve g.claim with
      | none => rfl
      | some c =>
        rw [Option.any_some]
        by_cases h1 : c.flyer = f
        · by_cases h2 : c.state = .active
          · rw [hn c hr h1 h2, Bool.and_false]
          · rw [decide_eq_false h2, Bool.and_false]; rfl
        · rw [decide_eq_false h1]; rfl
    unfold descended
    rw [hg, Option.map_some, this]
    exact (rec' _ hg).symm

theorem descendGrant_still (f : Flyer) (h : Handle) (s : State) :
    (descendGrant f h s).channels = s.channels ∧ (descendGrant f h s).lines.permit = s.lines.permit := by
  unfold descendGrant
  split
  · exact ⟨rfl, rfl⟩
  · split <;> exact ⟨rfl, rfl⟩

theorem endClaim_still (i : Slot) (s : State) :
    (endClaim i s).channels = s.channels ∧ (endClaim i s).lines.permit = s.lines.permit := by
  have k : ∀ {t : State}, ClaimFrame s t → t.channels = s.channels ∧ t.lines.permit = s.lines.permit :=
    fun h => ⟨h.channels, h.permit⟩
  obtain ⟨u, hu⟩ : ∃ u, u = raiseFlag .overrun (moveClaim i .overrun s) := ⟨_, rfl⟩
  have ku := k (hu ▸ (moveClaim_frame i .overrun s).trans (raiseFlag_frame .overrun _) : ClaimFrame s u)
  unfold endClaim
  split
  · exact ⟨rfl, rfl⟩
  · split
    · split
      · split
        · exact k (expireSlot_frame i s)
        · rw [← hu]
          exact ⟨(descendGrant_still _ _ u).1.trans ku.1, (descendGrant_still _ _ u).2.trans ku.2⟩
      · exact k (expireSlot_frame i s)
      · exact k (moveClaim_frame _ _ _)
      · exact ⟨rfl, rfl⟩
    · exact ⟨rfl, rfl⟩

theorem endings_still (s : State) :
    (endings s).channels = s.channels ∧ (endings s).lines.permit = s.lines.permit := by
  unfold endings
  exact foldl_frame (fun a b : State => b.channels = a.channels ∧ b.lines.permit = a.lines.permit) (fun _ => ⟨rfl, rfl⟩)
    (fun _ _ _ h k => ⟨k.1.trans h.1, k.2.trans h.2⟩) _ (fun t i => endClaim_still i t) allSlots s

theorem bookedParts_frame (jump : Bool) (s : State) :
    ClaimFrame s (allSlots.foldl (fun t i => bookedPart jump i t) s) := by
  cases jump
  · rw [← openings_eq]; exact openings_frame s
  · rw [← jumpOpenings_eq]; exact jumpOpenings_frame s

/-- What the window part makes of the walk in flight. -/
theorem windowPart_goes (jump : Bool) (s : State) :
    WalkGoes s (allSlots.foldl (fun t i => bookedPart jump i t) (endings s)) ∧
      Follows s (allSlots.foldl (fun t i => bookedPart jump i t) (endings s)) := by
  have k : WalkGoes (endings s) (allSlots.foldl (fun t i => bookedPart jump i t) (endings s)) ∧
      Follows (endings s) (allSlots.foldl (fun t i => bookedPart jump i t) (endings s)) := by
    cases jump
    · rw [← openings_eq]; exact ⟨openings_goes _, openings_follows _⟩
    · rw [← jumpOpenings_eq]; exact ⟨jumpOpenings_goes _, jumpOpenings_follows _⟩
  exact ⟨(endings_goes s).trans k.1 (endings_follows s) k.2 (windowPart_chain jump s), (endings_follows s).trans k.2⟩

/-- The walk in flight goes on past a tick, a jump or a load, or is begun again where its subject moved (R44, R45). -/
theorem windowEvent_goesOn {jump : Bool} {s : State} (hq : QueueLaw s) (hw : WalkLaw s) (ho : OverlapLaw s) :
    WalkGoesOn s (windowEvent jump s) := by
  obtain ⟨hg, hp⟩ := windowPart_goes jump s
  rw [windowEvent_quiet ho]
  exact hg.goesOn hp hq hw

/-- A tick, a jump and a load do what R11 to R14 and R141 say, and nothing to frames or PERMIT lines. -/
theorem windowEvent_moved {jump : Bool} {s : State} (hq : QueueLaw s) (ho : OverlapLaw s) :
    WindowsMoved jump s (windowEvent jump s) := by
  have hf : ClaimFrame (endings s) (windowEvent jump s) := (bookedParts_frame jump _).trans (closeEvent_frame false s _)
  obtain ⟨hg, hp⟩ := windowPart_goes jump s
  have hl : Follows s (windowEvent jump s) := hp.trans (closeEvent_follows false s _)
  exact ⟨windowEvent_claims hq ho, windowEvent_raised hq ho, hl.queue hq, (hg.turn hp hq).close false s, endings_descend hf.grants,
    hf.channels.trans (endings_still s).1, hf.permit.trans (endings_still s).2⟩

end Sys2Proof.Machine
end

