-- ==== Sys2Proof/WellFormed.lean ====
section
/-! DEFINITION. What an operand of a command must satisfy for the row to be the event its name says. -/

namespace Sys2Proof

/-- A byte that may stand in UNKNOWN_COMMAND: one that names no command (R160). -/
def unknownByteOk (b : Byte) : Bool := (commandOfByte b).isNone

/-- A byte that may stand in COMMAND_BYTE: one naming a command that has operands (R158). -/
def commandByteOk (b : Byte) : Bool :=
  match commandOfByte b with
  | some c => decide (0 < c.operandBytes)
  | none => false

/-- A kind byte that may stand in UNKNOWN_KIND: neither HELLO, REPORT nor ASK (R80). -/
def unknownKindOk (k : Byte) : Bool := !knownKind k

/-- A count of record bytes that may stand in SELECT_RISE: no fixed-length record is longer than 58 bytes (R187). -/
def shiftedOk (n : Nat) : Bool := decide (n ≤ 58)

/-- The check on a command: the bytes and counts of the four rows above; every other row admits every operand. -/
def Instr.wf : Instr → Bool
  | .unknownCommand b => unknownByteOk b
  | .commandByte b => commandByteOk b
  | .unknownKind _ k => unknownKindOk k
  | .selectRise _ n => shiftedOk n
  | .status | .readClaims _ | .readZones _ | .readFlyers _ | .readTemplates _ => true
  | .readHolds | .readAlert | .readSupply => true
  | .book _ _ _ _ _ | .amend _ _ _ _ | .cancel _ | .retire _ | .forceRetire _ => true
  | .holdClaim _ | .resume _ | .dismiss _ | .zoneSet _ _ _ | .zoneClear _ | .setProtect _ => true
  | .bind _ _ | .unbind _ | .clearBreach _ | .reopen _ | .hold | .release _ => true
  | .setClock _ | .setSource _ | .skip _ => true
  | .loadTemplate _ _ _ _ _ | .dropTemplate _ | .lockTemplate _ | .unlockTemplate _ | .fire _ => true
  | .setEnables _ | .setAutoclear _ | .clearFlags _ | .clearAlert | .clearSupply => true
  | .selectFall _ | .recordTaken => true
  | .frameTaken _ _ _ | .frameGap _ | .framingError _ | .syncByte _ => true
  | .hello _ | .report _ | .ask _ | .closedChannelDiscard _ | .frameSent _ => true
  | .lateExpiry _ | .lostExpiry _ | .leaseExpiry _ | .walkAccess | .zonePhaseRead => true
  | .internalPeriodCompletion | .extTickPulse | .pulseWatchExpiry | .abandonment => true
  | .stopAssertion | .ringAssertion | .stopDeassertion | .ringDeassertion | .rigLockChange _ => true
  | .backupEntry | .returnOfMain | .resetAssertion | .resetDeassertion | .coldStart => true
  | .mainFallsWithoutBackup | .cellBecomesAbsent | .backupPresenceChange _ => true

end Sys2Proof
end

