-- ==== Sys2Proof/Tests/Slice0.lean ====
section
/-! SUPPORT. Small tests: the smoke of the well-formedness check, what the manual's examples say of single commands, and, for every statement with hypotheses, a state and operands that meet them. -/

namespace Sys2Proof.Tests

open Sys2Proof.Machine

-- The tests are checked one after the other: many kernel evaluations at once would each take a thread of their own.
set_option Elab.async false

/-! ## Well-formedness: each check refuses an ill-formed term -/

theorem test_wf_unknownCommand : (Instr.unknownCommand 0x10).wf = false ∧ (Instr.unknownCommand 0xFF).wf = true := by decide +kernel
theorem test_wf_commandByte : (Instr.commandByte 0x30).wf = false ∧ (Instr.commandByte 0xFF).wf = false ∧ (Instr.commandByte 0x10).wf = true := by decide +kernel
theorem test_wf_unknownKind : (Instr.unknownKind 0 0x02).wf = false ∧ (Instr.unknownKind 0 0x81).wf = true := by decide +kernel
theorem test_wf_selectRise : (Instr.selectRise .showSel 59).wf = false ∧ (Instr.selectRise .showSel 58).wf = true := by decide +kernel

/-! ## Encodings the manual writes out -/

/-- The check over 0x01, 0x02 is 0x1B (R78). -/
theorem test_crc8_example : crc8 [0x01, 0x02] = 0x1B := by decide +kernel
/-- The opcode table gives no row any bits. -/
theorem test_no_table_word : decodeTableWord 8 1 = none := rfl
/-- BOOK of flyer 2, the box 4..10, 12..18, 6..14, from tick 1000 to 1500, byte by byte (R183, R186). -/
theorem test_encode_book :
    encodeCommand (.book 2 ⟨4, 10, 12, 18, 6, 14⟩ 1000 1 1500) =
      some [0x10, 2, 4, 10, 12, 18, 6, 14, 0x00, 0x03, 0xE8, 1, 0x00, 0x05, 0xDC] := by decide +kernel
/-- The kinds of the frames a unit sends (R185). -/
theorem test_frame_kinds :
    decodeFrame [1, 4, 1] = some (.hello 4 1) ∧ decodeFrame [2, 9, 15, 6, 1] = some (.report 9 15 6 1) ∧
    decodeFrame [3, 9, 15, 12] = some (.ask 9 15 12) ∧ decodeFrame [0x81, 4, 25] = none := by decide +kernel

/-! ## Small states -/

/-- The state a command leads to. -/
def ran (i : Instr) (s : State) : State :=
  match exec i s with
  | .next t => t
  | .fault _ | .refused _ => s

/-- A free rig in mid-show: tick 100, RUNNING, no hold. -/
def base : State := { State.reset with holds := [], clock := { State.reset.clock with count := 100, run := .running } }

/-- A select's open transaction that awaits a command. -/
def awaiting (sel : Select) (c : Command) (s : State) : State := (s.setSelectLow sel true).setTx sel (awaitedBy c)

/-- A claim of flyer 1 in a state, from tick 50 to tick 200. -/
def claimOf (st : ClaimState) : Claim :=
  { flyer := 0, box := ⟨0, 9, 0, 9, 0, 9⟩, start := 50, stop := some 200, state := st, cue := none, amend := none, verdict := none }

/-- A claim of flyer 2 in the same box. -/
def rival (st : ClaimState) : Claim := { claimOf st with flyer := 1 }

/-- A claim put in a slot, generation 1. -/
def slotted (i : Slot) (c : Claim) (s : State) : State := s.setSlot i { gen := 1, claim := some c }

/-- The base with a claim in slot 3; its handle is the byte 25. -/
def with3 (c : Claim) : State := slotted 3 c base

/-- The handle of slot 3's claim. -/
def h3 : Handle := { slot := 3, gen := 1 }

/-- One waiting entry with its walk at a position. -/
def walking (w : Walk) (s : State) : State := s.setAdmission { queue := [w.subject], walk := some w }

/-- A live grant of flyer 1 in the claim of slot 3, from (1,1,1) to (1,1,5). -/
def grant3 (kind : GrantKind) (lease : Nat) : Grant :=
  { seq := 7, target := ⟨1, 1, 5⟩, segment := ⟨1, 1, 1, 1, 1, 5⟩, claim := h3, issued := kind, kind := kind, lease := lease }

/-- Flyer 1 with that grant. -/
def granted (kind : GrantKind) (lease : Nat) (s : State) : State := s.setGrant 0 { seq := 7, live := some (grant3 kind lease) }

/-- Flyer 1 at a cell, in the air or grounded. -/
def placed (cell : Cell) (g : Bool) (s : State) : State := s.setFlyer 0 { position := some cell, grounded := g, breach := none }

/-- A breach record of kind ESCAPE, or of INTRUDE with the intrusion flag. -/
def breachRec (intrude : Bool) : BreachRec :=
  let e : BreachEvent := { kind := if intrude then .intrude else .escape, tick := 90, cell := ⟨1, 1, 1⟩ }
  { first := e, latest := e, count := 1, intrusion := intrude }

/-- Flyer 1 with a breach record. -/
def breachedBy (intrude : Bool) (s : State) : State :=
  s.setFlyer 0 { s.flyers[(0 : Flyer)] with breach := some (breachRec intrude) }

/-- Channel 1 in a state, with an inbound list, its timer armed at a time. -/
def channelled (st : ChannelState) (t : Option Nat) (inb : List InFrame) (s : State) : State :=
  s.setChannel 0 { s.channels[(0 : Flyer)] with state := st, timer := t, inbound := inb }

/-- A property that the value present has, if any. -/
theorem allOf {α : Type} {o : Option α} {p : α → Prop} [DecidablePred p] (h : o.all (fun a => decide (p a)) = true) :
    ∀ a, o = some a → p a := by
  intro a e
  rw [e] at h
  simpa using h

/-- A property of every claim. -/
theorem allClaims {s : State} {p : Slot → Claim → Prop} [∀ i, DecidablePred (p i)]
    (h : ∀ i : Slot, (s.claimAt i).all (fun c => decide (p i c)) = true) : ∀ (i : Slot) (c : Claim), s.claimAt i = some c → p i c :=
  fun i => allOf (h i)

/-- No slot conflicts at this access. -/
theorem noSlotConflict {s : State} {w : Walk} {i : Slot} (h : s.slotConflicts w i = false) : ¬ SlotConflict s w i := by
  rw [← slotConflicts_iff, h]; exact Bool.false_ne_true

/-- No zone conflicts at this read. -/
theorem noZoneConflict {s : State} {w : Walk} {z : Zone} (h : s.zoneConflicts w z = false) : ¬ ZoneConflict s w z := by
  rw [← zoneConflicts_iff, h]; exact Bool.false_ne_true

/-- No overstaying claim of another flyer overlaps. -/
theorem notOverstayed {s : State} {f : Flyer} {b : Box} (h : s.overlapsOverstayer f b = false) : ¬ OverstayedIn s f b := by
  rw [← overlapsOverstayer_iff, h]; exact Bool.false_ne_true

/-- No claim in force of another flyer overlaps. -/
theorem notInForce {s : State} {f : Flyer} {b : Box} (h : s.overlapsInForce f b = false) : ¬ InForceIn s f b := by
  rintro ⟨j, d, h1, h2, h3, h4⟩
  have : s.overlapsInForce f b = true := by
    unfold State.overlapsInForce
    rw [anyClaim_iff]
    exact ⟨j, d, h1, by simp [h2, h3, h4]⟩
  exact absurd this (by rw [h]; exact Bool.false_ne_true)

/-- Every console command is awaited by a transaction of either select. -/
theorem test_awaits : ∀ c ∈ Command.all, Awaits (awaiting .showSel c base) .showSel c ∧ Awaits (awaiting .crewSel c base) .crewSel c := by
  decide +kernel

/-! ## States that meet the hypotheses of each statement, clause by clause -/

/-- The base in RESET, on BACKUP, and OFF. -/
def inReset : State := { base with inputs := { base.inputs with reset := true } }
def onBackup : State := { base with supply := { base.supply with state := .backup } }
def isOff : State := { base with supply := { base.supply with state := .off } }

/-- The part does not run in RESET, on BACKUP, or OFF. -/
theorem notRunning : ∀ s ∈ [inReset, onBackup, isOff], ¬ Runs s := by decide +kernel

/-- A state with an OVERRUN claim of flyer 1 in slot 4, and one of flyer 2 held beside it in slot 6. -/
def beside (s : State) : State := slotted 6 (rival (.held .overlap false)) (slotted 4 (claimOf .overrun) s)

/-- The SHOW select awaiting a command about the claim of slot 3. -/
def asked (cmd : Command) (c : Claim) : State := awaiting .showSel cmd (with3 c)

/-- The base with flyer 1 in the air. -/
def aloft (s : State) : State := placed ⟨1, 1, 5⟩ false s

theorem test_witness_StepWithEmptyQueue :
    (base.pending = [] ∧ Runs base ∧ base.channels[(0 : Flyer)].rx = .hunting) ∧
    (let s := base.setChannel 7 { coldChannel with rx := .receiving [0x02, 9] 0 }
     Runs s ∧ s.channels[(7 : Flyer)].rx = .receiving [0x02, 9] 0) ∧
    (¬ Runs inReset) := by
  decide +kernel

theorem test_witness_ReadsStreamRecords_begin :
    (∀ c ∈ [Command.status, .readHolds, .readAlert, .readSupply, .readClaims, .readZones, .readFlyers, .readTemplates],
      Awaits (awaiting .showSel c base) .showSel c ∧ Awaits (awaiting .crewSel c base) .crewSel c) ∧
    ((0 : Byte).toNat = (0 : Slot).val ∧ (31 : Byte).toNat = (31 : Slot).val ∧ 31 < (32 : Byte).toNat) ∧
    ((7 : Byte).toNat = (7 : Zone).val ∧ 7 < (8 : Byte).toNat) ∧
    ((1 : Byte).toNat = flyerNumber 0 ∧ (8 : Byte).toNat = flyerNumber 7 ∧ (0 : Byte).toNat = 0 ∧ 8 < (9 : Byte).toNat) ∧
    ((15 : Byte).toNat = (15 : Fin 16).val ∧ 15 < (16 : Byte).toNat) := by
  decide +kernel

theorem test_witness_ReadsStreamRecords_take :
    (∀ k ∈ [ReadKind.status, .claims 31, .zones 7, .flyers 7, .templates 15, .holds, .alert, .supply],
      ∀ sel ∈ [Select.showSel, .crewSel], ∀ r ∈ [none, some (recordBytes base k)],
        let s := (base.setSelectLow sel true).setTx sel (.stream k r)
        Runs s ∧ s.tx sel = .stream k r ∧ s.tx sel.other = .idle) ∧
    ((0 : Slot).val = ((31 : Slot).val + 1) % 32 ∧ (0 : Zone).val = ((7 : Zone).val + 1) % 8 ∧
      (0 : Fin 16).val = ((15 : Fin 16).val + 1) % 16) := by
  decide +kernel

/-- The claim record's premises at each field: every state code and held cause, an amendment absent, with its end and with its box, each verdict; and the status record's in a state of every code. -/
theorem test_witness_RecordLayouts :
    base.claimAt 31 = none ∧
    (∀ x ∈ [(ClaimState.queued, 1), (.checking, 2), (.booked, 3), (.active, 4), (.overrun, 6), (.refused, 7)],
      (slotted 31 (claimOf x.1) base).claimAt 31 = some (claimOf x.1) ∧ x.1.isHeld = false) ∧
    (∀ st ∈ [ClaimState.held .command true, .held .breach false, .held .restart true, .held .overlap false],
      (slotted 0 (claimOf st) base).claimAt 0 = some (claimOf st) ∧ st.isHeld = true) ∧
    (∀ v ∈ [Verdict.conflict { slot := 31, gen := 7 }, .zone 7, .stale], ∀ a ∈ [(⟨some 1, none⟩ : Amendment), ⟨none, some ⟨0, 9, 0, 9, 0, 9⟩⟩],
      let c : Claim := { claimOf .active with amend := some a, verdict := some v }
      (with3 c).claimAt 3 = some c ∧ c.amend = some a ∧ c.verdict = some v) ∧
    (∀ r ∈ [RunState.void, .running, .frozen, .ended], ∀ m ∈ [Protect.opened, .soft, .hard],
      ∀ st ∈ [ChannelState.closed, .opened, .live, .late, .lost],
      let s := (channelled st none [] { base with clock := { base.clock with run := r }, protect := m })
      s.supply.state = .main ∧ s.clock.run = r ∧ s.protect = m ∧ s.effective ≠ .hard ∧ s.channels[(0 : Flyer)].state = st ∧
        ∀ c : Flyer, c ≠ 0 → s.channels[c].state = .closed) := by
  decide +kernel

theorem test_witness_MisoBytes :
    (¬ Runs inReset ∧ ¬ Runs onBackup ∧ ¬ Runs isOff) ∧ (base.tx .showSel = .idle ∧ base.tx .crewSel = .idle) ∧
    (∀ sel ∈ [Select.showSel, .crewSel],
      ∀ x ∈ [Transaction.command, .operands .book, .response .ok none, .response .queued (some 25), .stream .holds none,
        .stream .holds (some [0xFF])],
      let s := (base.setSelectLow sel true).setTx sel x
      Runs s ∧ s.tx sel.other = .idle ∧ s.tx sel = x ∧ x ≠ .idle) ∧
    ([(0xFF : Byte)][0]? = some 0xFF) := by
  decide +kernel

/-- The SHOW select streaming STATUS with auto-clear ON, all that it showed being WINDOW_OPENED, raised again since. -/
def shown (n : Nat) : State :=
  let x : Shown := { flags := 0x002, raised := 0x002 }
  { (base.setSelectLow .showSel true).setTx .showSel (.stream .status none) with
    attention := { base.attention with autoClear := true, current := if n < 27 then none else some x
                                       whole := if n < 27 then some x else none } }

theorem test_witness_SelectEdges :
    (base.selectLow .showSel = false ∧ Runs base ∧ base.selectLow (Select.other .showSel) = false) ∧
    (inReset.selectLow .crewSel = false ∧ ¬ Runs inReset) ∧
    (let s := base.setSelectLow .crewSel true
     s.selectLow .showSel = false ∧ s.selectLow (Select.other .showSel) = true) ∧
    (let s := base.setSelectLow .crewSel true
     s.selectLow .crewSel = true ∧ AttentionLaw s ∧ s.attention.autoClear = false) ∧
    (∀ n ∈ [26, 27], (shown n).selectLow .showSel = true ∧ (shown n).attention.autoClear = true ∧
      (shown n).tx .showSel = .stream .status none ∧
      (if 27 ≤ n then (shown n).attention.current else (shown n).attention.whole) = some ⟨0x002, 0x002⟩) ∧
    ((if 27 ≤ 27 then (shown 26).attention.current else (shown 26).attention.whole) = none) := by
  decide +kernel

theorem test_witness_CommandsAreJudged :
    (let s := (base.setSelectLow .crewSel true).setTx .crewSel .command
     Runs s ∧ s.tx .crewSel = .command ∧ s.tx (Select.other .crewSel) = .idle ∧ 0 < Command.operandBytes .book) ∧
    (∀ c : Command, c.code ≠ (0xFF : Byte)) ∧
    ((Instr.clearAlert).command = some (.clearAlert, []) ∧ Awaits (awaiting .crewSel .clearAlert base) .crewSel .clearAlert ∧
      Command.clearAlert ∉ [Command.status, .readClaims, .readZones, .readFlyers, .readTemplates, .readHolds, .readAlert,
        .readSupply, .hold, .holdClaim, .release]) ∧
    ((Instr.bind 0 16).command = some (.bind, [0, 16]) ∧ Awaits (awaiting .crewSel .bind base) .crewSel .bind) ∧
    (¬ Runs inReset) ∧
    (∀ sel : Select, base.tx sel ≠ (if Command.operandBytes .hold = 0 then .command else .operands .hold)) := by
  refine ⟨by decide +kernel, by intro c; cases c <;> decide +kernel, by decide +kernel, by decide +kernel, by decide +kernel, ?_⟩
  intro sel; cases sel <;> decide +kernel

theorem test_witness_AttentionCommands :
    ∀ c ∈ [Command.setEnables, .clearFlags, .setAutoclear, .clearAlert, .clearSupply],
      Awaits (awaiting .showSel c base) .showSel c ∧ Awaits (awaiting .crewSel c base) .crewSel c := by
  decide +kernel

/-- A handle that names no claim: a FREE slot, and a slot that holds another generation. -/
theorem test_witness_NoClaim :
    (∀ c : Claim, base.claimAt (handleOf 255).slot = some c → base.slots[(handleOf 255).slot].gen ≠ (handleOf 255).gen) ∧
    (∀ c : Claim, (with3 (claimOf .active)).claimAt (handleOf 26).slot = some c →
      (with3 (claimOf .active)).slots[(handleOf 26).slot].gen ≠ (handleOf 26).gen) ∧
    (∀ c ∈ [Command.cancel, .retire, .forceRetire, .holdClaim, .resume, .dismiss],
      Awaits (asked c (claimOf .active)) .showSel c) ∧
    Awaits (awaiting .crewSel .holdClaim base) .crewSel .holdClaim :=
  ⟨allOf (by decide +kernel), allOf (by decide +kernel), by decide +kernel, by decide +kernel⟩

/-- A BOOK entry of the claim of slot 3 as the whole queue, not yet walked. -/
def waiting3 (s : State) : State := s.setAdmission { queue := [.book h3], walk := none }

theorem test_witness_DismissAndCancel :
    (let s := asked .dismiss (claimOf .refused)
     Awaits s .showSel .dismiss ∧ s.resolve (handleOf 25) = some (claimOf .refused) ∧ QueueLaw s ∧ WalkLaw s) ∧
    (let s := asked .dismiss (claimOf .overrun)
     Awaits s .showSel .dismiss ∧ s.resolve (handleOf 25) = some (claimOf .overrun)) ∧
    (∀ st ∈ [ClaimState.queued, .checking], let s := waiting3 (asked .cancel (claimOf st))
     Awaits s .showSel .cancel ∧ s.resolve (handleOf 25) = some (claimOf st) ∧ QueueLaw s) ∧
    (let s := asked .cancel (claimOf .booked)
     Awaits s .showSel .cancel ∧ s.resolve (handleOf 25) = some (claimOf .booked)) := by
  decide +kernel

theorem test_witness_RetireAndForceRetire :
    (∀ st ∈ [ClaimState.booked, .active, .held .command true, .overrun], let s := asked .retire (claimOf st)
     Awaits s .showSel .retire ∧ s.resolve (handleOf 25) = some (claimOf st) ∧
       s.flyers[(0 : Flyer)].grounded = true ∧ s.grantOf 0 = none ∧ QueueLaw s) ∧
    (let s := slotted 6 (rival (.held .overlap false)) (asked .retire (claimOf .overrun))
     Awaits s .showSel .retire ∧ s.resolve (handleOf 25) = some (claimOf .overrun) ∧ s.flyers[(0 : Flyer)].grounded = true ∧
       s.grantOf 0 = none ∧ QueueLaw s ∧ OverlapLaw s ∧ s.claimAt 6 = some (rival (.held .overlap false))) ∧
    (let s := aloft (asked .retire (claimOf .overrun))
     Awaits s .showSel .retire ∧ s.resolve (handleOf 25) = some (claimOf .overrun) ∧ s.flyers[(0 : Flyer)].grounded = false) ∧
    (let s := granted .travel 1 (asked .retire (claimOf .active))
     Awaits s .showSel .retire ∧ s.resolve (handleOf 25) = some (claimOf .active) ∧
       s.flyers[(0 : Flyer)].grounded = true ∧ s.grantOf 0 ≠ none) ∧
    (∀ st ∈ [ClaimState.queued, .checking, .refused], (asked .retire (claimOf st)).resolve (handleOf 25) = some (claimOf st)) ∧
    (∀ ch ∈ [ChannelState.lost, .closed], let s := channelled ch none [] (aloft (asked .forceRetire (claimOf .overrun)))
     Awaits s .showSel .forceRetire ∧ s.resolve (handleOf 25) = some (claimOf .overrun) ∧ s.channels[(0 : Flyer)].state = ch ∧
       QueueLaw s) ∧
    (let s := channelled .late none [] (asked .forceRetire (claimOf .active))
     Awaits s .showSel .forceRetire ∧ s.resolve (handleOf 25) = some (claimOf .active) ∧
       s.channels[(0 : Flyer)].state ≠ .lost ∧ s.channels[(0 : Flyer)].state ≠ .closed) ∧
    ((asked .forceRetire (claimOf .booked)).resolve (handleOf 25) = some (claimOf .booked) ∧ ClaimState.begun .booked = false) :=
  ⟨by decide +kernel, by decide +kernel⟩

theorem test_witness_HoldClaimSuspends :
    (∀ st ∈ [ClaimState.active, .overrun], ∀ sel ∈ [Select.showSel, .crewSel],
      let s := granted .descent 1 (aloft (awaiting sel .holdClaim (with3 (claimOf st))))
      Awaits s sel .holdClaim ∧ s.resolve (handleOf 25) = some (claimOf st) ∧ QueueLaw s ∧ WalkLaw s ∧
        s.grantOf 0 = some (grant3 .descent 1) ∧ (grant3 .descent 1).claim = handleOf 25) ∧
    (∀ g ∈ [false, true],
      let s := placed ⟨1, 1, 5⟩ g (granted .descent 1 (beside (asked .holdClaim (claimOf .active))))
      Awaits s .showSel .holdClaim ∧ QueueLaw s ∧ WalkLaw s ∧ OverlapLaw s ∧ s.claimAt 4 = some (claimOf .overrun) ∧
        s.claimAt 6 = some (rival (.held .overlap false)) ∧ s.flyers[(0 : Flyer)].grounded = g) ∧
    (∀ g, (asked .holdClaim (claimOf .active)).grantOf 0 = some g → g.claim ≠ handleOf 25) ∧
    ((asked .holdClaim (claimOf .booked)).resolve (handleOf 25) = some (claimOf .booked)) :=
  ⟨by decide +kernel, by decide +kernel, allOf (by decide +kernel), by decide +kernel⟩

/-- The claim of slot 3 asked to resume, beside a claim of flyer 2 in slot 5. -/
def resuming (st other : ClaimState) : State := slotted 5 (rival other) (asked .resume (claimOf st))

theorem test_witness_Resume :
    (∀ st ∈ [ClaimState.active, .held .overlap false, .held .command false, .held .breach true],
      Awaits (asked .resume (claimOf st)) .showSel .resume ∧ (asked .resume (claimOf st)).resolve (handleOf 25) = some (claimOf st) ∧
        QueueLaw (asked .resume (claimOf st))) ∧
    ((breachedBy false (asked .resume (claimOf (.held .breach false)))).flyers[(0 : Flyer)].breach ≠ none) ∧
    OverstayedIn (resuming (.held .command false) .overrun) 0 (claimOf .active).region ∧
    ¬ OverstayedIn (resuming (.held .breach false) .active) 0 (claimOf .active).region ∧
    ((resuming (.held .breach false) .active).flyers[(0 : Flyer)].breach = none ∧ QueueLaw (resuming (.held .breach false) .active)) ∧
    (let s := resuming (.held .restart true) .active
     s.resolve (handleOf 25) = some (claimOf (.held .restart true)) ∧ s.flyers[(0 : Flyer)].grounded = true ∧
       s.grantOf 0 = none ∧ QueueLaw s) ∧
    (let s := slotted 6 { claimOf (.held .overlap false) with box := ⟨5, 9, 5, 9, 5, 9⟩ } (resuming (.held .command false) .overrun)
     OverlapLaw s ∧ QueueLaw s ∧ s.resolve (handleOf 25) = some (claimOf (.held .command false))) ∧
    ((aloft (resuming (.held .command true) .active)).flyers[(0 : Flyer)].grounded = false ∧
      InForceIn (aloft (resuming (.held .command true) .active)) 0 (claimOf .active).region) ∧
    (¬ InForceIn (aloft (resuming (.held .command true) (.held .command true))) 0 (claimOf .active).region) :=
  ⟨by decide +kernel, by decide +kernel, (overlapsOverstayer_iff _ _ _).mp (by decide +kernel),
    notOverstayed (by decide +kernel), by decide +kernel, by decide +kernel, by decide +kernel,
    ⟨by decide +kernel, 5, rival .active, by decide +kernel, by decide +kernel, by decide +kernel, by decide +kernel⟩,
    notInForce (by decide +kernel)⟩

theorem test_witness_RecheckReleases :
    (∀ (i : Slot) (c : Claim), (resuming (.held .overlap false) .overrun).claimAt i = some c → c.state ≠ .held .overlap true) ∧
    ((resuming (.held .overlap false) .overrun).claimAt 3 = some (claimOf (.held .overlap false)) ∧
      (resuming (.held .overlap false) .overrun).claimAt 5 = some (rival .overrun)) ∧
    OverstayedIn (resuming (.held .overlap false) .overrun) 0 (claimOf .active).region ∧
    ¬ OverstayedIn (resuming (.held .overlap false) .active) 0 (claimOf .active).region :=
  ⟨allClaims (by decide +kernel), by decide +kernel, (overlapsOverstayer_iff _ _ _).mp (by decide +kernel),
    notOverstayed (by decide +kernel)⟩

/-- The wire's bytes of the box 0..9, 0..9, 0..9, and of one whose x goes beyond the grid. -/
def goodBox : BoxBytes := ⟨0, 9, 0, 9, 0, 9⟩
def badBox : BoxBytes := ⟨0, 40, 0, 9, 0, 9⟩

/-- A full admission queue. -/
def queueFull (s : State) : State := s.setAdmission { queue := allZones.map .zone, walk := none }

/-- Every slot occupied at generation 7 but for those of a list. -/
def crowded (free : List Slot) (s : State) : State :=
  { s with slots := tabulate (fun i => { gen := 7, claim := if i ∈ free then none else some (claimOf .refused) }) }

theorem test_witness_AdmissionRefusals :
    (Awaits (awaiting .showSel .book base) .showSel .book ∧ (0 : Byte).toNat = 0 ∧ 8 < (9 : Byte).toNat ∧
      (boxOfBytes badBox).wf = false ∧ (1 : Byte).getLsbD 0 = true ∧ (50 : Word24).toNat ≤ (50 : Word24).toNat) ∧
    ((boxOfBytes goodBox).wf = true ∧ (50 : Word24).toNat < (51 : Word24).toNat ∧
      8 ≤ (queueFull (awaiting .showSel .book base)).admission.queue.length) ∧
    (let s := crowded [] (awaiting .showSel .book base)
     Awaits s .showSel .book ∧ s.admission.queue.length < 8 ∧ ∀ i : Slot, s.claimAt i ≠ none) ∧
    (Awaits (asked .amend (claimOf .booked)) .showSel .amend ∧ (0xFC : Byte).getLsbD 0 = false ∧
      (0xFC : Byte).getLsbD 1 = false ∧ (2 : Byte).getLsbD 1 = true) ∧
    ((asked .amend (claimOf .booked)).resolve (handleOf 26) = none) ∧
    ((asked .amend (claimOf .booked)).resolve (handleOf 25) = some (claimOf .booked) ∧
      (50 : Word24).toNat ≤ (claimOf .booked).start ∧ (claimOf .booked).start < (51 : Word24).toNat) ∧
    ((asked .amend (claimOf .refused)).resolve (handleOf 25) = some (claimOf .refused) ∧
      (claimOf .refused).state.occupying = false) ∧
    (let c : Claim := { claimOf .active with amend := some ⟨some 60, none⟩ }
     (asked .amend c).resolve (handleOf 25) = some c ∧ c.amend ≠ none) ∧
    (let s := queueFull (asked .amend (claimOf .overrun))
     Awaits s .showSel .amend ∧ s.resolve (handleOf 25) = some (claimOf .overrun) ∧
      (claimOf .overrun).state.occupying = true ∧ (claimOf .overrun).amend = none ∧ 8 ≤ s.admission.queue.length) := by
  decide +kernel

theorem test_witness_BookAccepted :
    (let s := awaiting .showSel .book base
     Awaits s .showSel .book ∧ QueueLaw s ∧ (8 : Byte).toNat = flyerNumber 7 ∧ (boxOfBytes goodBox).wf = true ∧
      some 51 = (if (1 : Byte).getLsbD 0 = true then some (51 : Word24).toNat else none) ∧ (50 : Word24).toNat < (51 : Word24).toNat ∧
      s.admission.queue.length < 8 ∧ s.claimAt 0 = none ∧ (∀ j : Slot, j < 0 → s.claimAt j ≠ none) ∧
      ({ slot := 0, gen := 1 } : Handle) = { slot := 0, gen := s.slots[(0 : Slot)].gen + 1 } ∧
      s.admission.queue = [] ∧ s.admission.walk = none) ∧
    (let s := crowded [31] (awaiting .showSel .book base)
     Awaits s .showSel .book ∧ QueueLaw s ∧ none = (if (0 : Byte).getLsbD 0 = true then some (51 : Word24).toNat else none) ∧
      s.claimAt 31 = none ∧ (∀ j : Slot, j < 31 → s.claimAt j ≠ none) ∧
      ({ slot := 31, gen := 0 } : Handle) = { slot := 31, gen := s.slots[(31 : Slot)].gen + 1 }) := by
  decide +kernel

theorem test_witness_AmendAccepted :
    ∀ st ∈ [ClaimState.booked, .active, .held .overlap false, .overrun],
      let s := asked .amend (claimOf st)
      Awaits s .showSel .amend ∧ QueueLaw s ∧ ((3 : Byte).getLsbD 0 = true ∧ (3 : Byte).getLsbD 1 = true) ∧
        (boxOfBytes goodBox).wf = true ∧ s.resolve (handleOf 25) = some (claimOf st) ∧
        (claimOf st).start < (51 : Word24).toNat ∧ (claimOf st).state.occupying = true ∧ (claimOf st).amend = none ∧
        s.admission.queue.length < 8 := by
  decide +kernel

/-- A walk for flyer 1's box, from tick 50 to tick 200. -/
def walkOf (e : Entry) (p : WalkPos) : Walk :=
  { subject := e, cand := { flyer := some 0, box := ⟨0, 9, 0, 9, 0, 31⟩, span := .window { lo := 50, hi := some 200 } }, pos := p }

/-- A walk of zone 2's box. -/
def zoneWalk (p : WalkPos) : Walk :=
  { subject := .zone 2, cand := { flyer := none, box := ⟨0, 9, 0, 9, 0, 9⟩, span := .always }, pos := p }

/-- The claim of slot 3 under its own BOOK walk. -/
def booking (p : WalkPos) (c : Claim) : State := walking (walkOf (.book h3) p) (with3 { c with state := .checking })

/-- A zone's box, SET. -/
def zoneAt (z : Zone) (s : State) : State := s.setZone z (.set ⟨⟨0, 9, 0, 9, 0, 9⟩, false⟩ none none)

theorem test_witness_WalkReadsOn :
    (∀ i ∈ [(0 : Slot), 30, 31], let s := booking (.claims i) (claimOf .checking)
      s.admission.walk = some (walkOf (.book h3) (.claims i)) ∧ Runs s ∧ s.grantsWalk = true) ∧
    ¬ SlotConflict (booking (.claims 30) (claimOf .checking)) (walkOf (.book h3) (.claims 30)) 30 ∧
    ¬ SlotConflict (booking (.claims 31) (claimOf .checking)) (walkOf (.book h3) (.claims 31)) 31 ∧
    ((walkOf (.book h3) (.claims 31)).subject.isZone = false ∧ (31 : Slot).val = (30 : Slot).val + 1) ∧
    (∀ z ∈ [(0 : Zone), 6], (booking (.zones z) (claimOf .checking)).admission.walk = some (walkOf (.book h3) (.zones z)) ∧
      (z + 1).val = z.val + 1) ∧
    ¬ ZoneConflict (booking (.zones 6) (claimOf .checking)) (walkOf (.book h3) (.zones 6)) 6 ∧
    (let s := channelled .live (some 0) [.ask 1 1 1] (booking (.claims 0) (claimOf .checking))
     Runs s ∧ s.walkWaiting = true ∧ s.grantsChannel 0 = true) ∧
    (let s := channelled .live (some 0) [.ask 1 1 1] base
     Runs s ∧ s.walkWaiting = false ∧ s.grantsChannel 0 = true ∧ s.grantsChannel 7 = false) ∧
    (∀ s ∈ [inReset, onBackup, isOff], ¬ Runs s) :=
  ⟨by decide +kernel, noSlotConflict (by decide +kernel), noSlotConflict (by decide +kernel), by decide +kernel,
    by decide +kernel, noZoneConflict (by decide +kernel), by decide +kernel, by decide +kernel, notRunning⟩

/-- A walk in conflict with flyer 2's ACTIVE claim in slot 31: a BOOK, an AMEND, a PENDING zone, a zone's replacement. -/
def conflictBook : State := slotted 31 (rival .active) (booking (.claims 31) (claimOf .checking))
def conflictAmend : State :=
  slotted 31 (rival .active) (walking (walkOf (.amend h3) (.claims 31)) (with3 { claimOf .booked with amend := some ⟨some 150, none⟩ }))
def conflictZone (z : ZoneSlot) : State := slotted 31 (rival .active) (walking (zoneWalk (.claims 31)) (base.setZone 2 z))

/-- What a PENDING zone, and a SET zone with a pending replacement, hold. -/
def pendingZone : ZoneSlot := .pending ⟨⟨0, 9, 0, 9, 0, 9⟩, true⟩
def replacing : ZoneSlot := .set ⟨⟨20, 29, 20, 29, 0, 9⟩, true⟩ (some ⟨⟨0, 9, 0, 9, 0, 9⟩, false⟩) (some h3)

theorem test_witness_ClaimPhaseEnds :
    (∀ s ∈ [conflictBook, conflictAmend, conflictZone pendingZone, conflictZone replacing],
      Runs s ∧ s.grantsWalk = true ∧ QueueLaw s ∧ WalkLaw s ∧ OverlapLaw s) ∧
    (conflictBook.admission.walk = some (walkOf (.book h3) (.claims 31)) ∧
      conflictAmend.admission.walk = some (walkOf (.amend h3) (.claims 31)) ∧
      (conflictZone pendingZone).admission.walk = some (zoneWalk (.claims 31)) ∧
      (conflictZone replacing).admission.walk = some (zoneWalk (.claims 31))) ∧
    SlotConflict conflictBook (walkOf (.book h3) (.claims 31)) 31 ∧
    SlotConflict conflictAmend (walkOf (.amend h3) (.claims 31)) 31 ∧
    SlotConflict (conflictZone pendingZone) (zoneWalk (.claims 31)) 31 ∧
    SlotConflict (conflictZone replacing) (zoneWalk (.claims 31)) 31 ∧
    (conflictBook.resolve h3 = some (claimOf .checking) ∧
      conflictAmend.resolve h3 = some { claimOf .booked with amend := some ⟨some 150, none⟩ } ∧
      (conflictZone pendingZone).zones[(2 : Zone)] = pendingZone ∧ (conflictZone replacing).zones[(2 : Zone)] = replacing) ∧
    (let s := walking (zoneWalk (.claims 31)) (base.setZone 2 pendingZone)
     Runs s ∧ s.grantsWalk = true ∧ QueueLaw s ∧ WalkLaw s) ∧
    ¬ SlotConflict (walking (zoneWalk (.claims 31)) (base.setZone 2 pendingZone)) (zoneWalk (.claims 31)) 31 ∧
    (let s := walking (zoneWalk (.claims 31)) (base.setZone 2 replacing)
     Runs s ∧ s.grantsWalk = true ∧ QueueLaw s ∧ WalkLaw s) ∧
    ¬ SlotConflict (walking (zoneWalk (.claims 31)) (base.setZone 2 replacing)) (zoneWalk (.claims 31)) 31 :=
  ⟨by decide +kernel, by decide +kernel, (slotConflicts_iff _ _ _).mp (by decide +kernel),
    (slotConflicts_iff _ _ _).mp (by decide +kernel), (slotConflicts_iff _ _ _).mp (by decide +kernel),
    (slotConflicts_iff _ _ _).mp (by decide +kernel), by decide +kernel, by decide +kernel, noSlotConflict (by decide +kernel),
    by decide +kernel, noSlotConflict (by decide +kernel)⟩

/-- The claim of slot 3 past zone 7, with a start and an end. -/
def passing (start : Nat) (stop : Option Nat) : State :=
  booking (.zones 7) { claimOf .checking with start := start, stop := stop }

theorem test_witness_ZonePhaseSettlesBooking :
    (∀ s ∈ [passing 50 (some 100), passing 101 (some 102), passing 100 none, beside (passing 100 none)],
      Runs s ∧ QueueLaw s ∧ WalkLaw s ∧ OverlapLaw s ∧
      s.admission.walk = some (walkOf (.book h3) (.zones 7)) ∧ (s.resolve h3).isSome) ∧
    (∀ z ∈ [(0 : Zone), 7], let s := zoneAt z (booking (.zones z) (claimOf .checking))
      Runs s ∧ QueueLaw s ∧ WalkLaw s ∧ s.resolve h3 = some (claimOf .checking) ∧
        s.zoneConflicts (walkOf (.book h3) (.zones z)) z = true) ∧
    ZoneConflict (zoneAt 0 (booking (.zones 0) (claimOf .checking))) (walkOf (.book h3) (.zones 0)) 0 ∧
    ¬ ZoneConflict (passing 50 (some 100)) (walkOf (.book h3) (.zones 7)) 7 ∧
    ((passing 100 none).now = 100 ∧ (100 : Nat) ≤ (passing 50 (some 100)).now ∧ (passing 101 (some 102)).now < 101) ∧
    ((breachedBy false (passing 100 none)).flyers[(0 : Flyer)].breach ≠ none ∧ (passing 100 none).flyers[(0 : Flyer)].breach = none) ∧
    OverstayedIn (slotted 5 (rival .overrun) (passing 100 none)) 0 (claimOf .checking).region ∧
    ¬ OverstayedIn (passing 100 none) 0 (claimOf .checking).region :=
  ⟨by decide +kernel, by decide +kernel, (zoneConflicts_iff _ _ _).mp (by decide +kernel), noZoneConflict (by decide +kernel),
    by decide +kernel, by decide +kernel, (overlapsOverstayer_iff _ _ _).mp (by decide +kernel), notOverstayed (by decide +kernel)⟩

/-- The claim of slot 3 with an amendment past zone 7, its flyer with a grant in it. -/
def amending (st : ClaimState) (a : Amendment) : State :=
  granted .travel 9 (walking (walkOf (.amend h3) (.zones 7)) (with3 { claimOf st with amend := some a }))

theorem test_witness_AmendmentOfBookedOrActive :
    (∀ a ∈ [(⟨some 100, none⟩ : Amendment), ⟨some 101, none⟩, ⟨none, some ⟨0, 9, 0, 9, 0, 4⟩⟩, ⟨some 101, some ⟨0, 9, 0, 9, 0, 5⟩⟩],
      let s := amending .active a
      s.admission.walk = some (walkOf (.amend h3) (.zones 7)) ∧ s.resolve h3 = some { claimOf .active with amend := some a } ∧
        Runs s ∧ QueueLaw s ∧ WalkLaw s ∧ s.grantOf 0 = some (grant3 .travel 9) ∧ (grant3 .travel 9).claim = h3) ∧
    (let s := amending .booked ⟨some 101, none⟩
     s.resolve h3 = some { claimOf .booked with amend := some ⟨some 101, none⟩ } ∧ QueueLaw s ∧ WalkLaw s) ∧
    (∀ g ∈ [false, true], ∀ b ∈ [(⟨0, 9, 0, 9, 0, 4⟩ : Box), ⟨0, 9, 0, 9, 0, 5⟩],
      let s := placed ⟨1, 1, 5⟩ g (beside (amending .active ⟨none, some b⟩))
      Runs s ∧ QueueLaw s ∧ WalkLaw s ∧ OverlapLaw s ∧ s.claimAt 4 = some (claimOf .overrun) ∧
        s.claimAt 6 = some (rival (.held .overlap false)) ∧ s.flyers[(0 : Flyer)].grounded = g ∧
        s.zoneConflicts (walkOf (.amend h3) (.zones 7)) 7 = false) ∧
    ¬ ZoneConflict (amending .active ⟨some 100, none⟩) (walkOf (.amend h3) (.zones 7)) 7 ∧
    ((100 : Nat) ≤ (amending .active ⟨some 100, none⟩).now ∧ (amending .active ⟨some 101, none⟩).now < 101) ∧
    (Box.contains ⟨0, 9, 0, 9, 0, 4⟩ (grant3 .travel 9).segment = false ∧ Box.contains ⟨0, 9, 0, 9, 0, 5⟩ (grant3 .travel 9).segment = true) :=
  ⟨by decide +kernel, by decide +kernel, by decide +kernel, noZoneConflict (by decide +kernel), by decide +kernel,
    by decide +kernel⟩

theorem test_witness_AmendmentOfOverrunOrHeld :
    (∀ z ∈ [(0 : Zone), 7], ∀ st ∈ [ClaimState.booked, .active, .overrun, .held .overlap false],
      let c : Claim := { claimOf st with amend := some ⟨some 150, none⟩ }
      let s := zoneAt z (walking (walkOf (.amend h3) (.zones z)) (with3 c))
      s.admission.walk = some (walkOf (.amend h3) (.zones z)) ∧ s.resolve h3 = some c ∧ Runs s ∧ QueueLaw s ∧ WalkLaw s ∧
        s.zoneConflicts (walkOf (.amend h3) (.zones z)) z = true) ∧
    ZoneConflict (zoneAt 7 (amending .overrun ⟨some 150, none⟩)) (walkOf (.amend h3) (.zones 7)) 7 ∧
    (∀ st ∈ [ClaimState.overrun, .held .command true, .held .breach true, .held .restart false, .held .overlap false],
      ∀ a ∈ [(⟨some 100, none⟩ : Amendment), ⟨some 101, none⟩, ⟨none, some ⟨0, 9, 0, 9, 0, 4⟩⟩, ⟨none, some ⟨0, 9, 0, 9, 0, 5⟩⟩],
      let s := slotted 5 (rival .overrun) (slotted 6 (claimOf (.held .overlap false)) (amending st a))
      s.admission.walk = some (walkOf (.amend h3) (.zones 7)) ∧ s.resolve h3 = some { claimOf st with amend := some a } ∧
        Runs s ∧ QueueLaw s ∧ WalkLaw s ∧ OverlapLaw s ∧ s.zoneConflicts (walkOf (.amend h3) (.zones 7)) 7 = false ∧
        s.grantOf 0 = some (grant3 .travel 9) ∧ (grant3 .travel 9).claim = h3 ∧ s.claimAt 6 = some (claimOf (.held .overlap false))) ∧
    (∀ g ∈ [false, true], ∀ b ∈ [(⟨0, 9, 0, 9, 0, 4⟩ : Box), ⟨0, 9, 0, 9, 0, 5⟩],
      let s := placed ⟨1, 1, 5⟩ g (beside (amending .overrun ⟨none, some b⟩))
      Runs s ∧ QueueLaw s ∧ WalkLaw s ∧ OverlapLaw s ∧ s.claimAt 4 = some (claimOf .overrun) ∧
        s.claimAt 6 = some (rival (.held .overlap false)) ∧ s.flyers[(0 : Flyer)].grounded = g) ∧
    ¬ ZoneConflict (amending .overrun ⟨some 100, none⟩) (walkOf (.amend h3) (.zones 7)) 7 ∧
    ((aloft (amending .overrun ⟨none, some ⟨0, 9, 0, 9, 0, 4⟩⟩)).flyers[(0 : Flyer)].grounded = false ∧
      (amending .overrun ⟨none, some ⟨0, 9, 0, 9, 0, 4⟩⟩).flyers[(0 : Flyer)].grounded = true) ∧
    OverstayedIn (slotted 5 (rival .overrun) (amending (.held .overlap false) ⟨some 101, none⟩)) 0 (claimOf .active).region ∧
    ¬ OverstayedIn (slotted 5 (rival .overrun) (amending (.held .overlap false) ⟨none, some ⟨10, 19, 0, 9, 0, 9⟩⟩)) 0
      (Claim.region { claimOf .active with box := ⟨10, 19, 0, 9, 0, 9⟩ }) :=
  ⟨by decide +kernel, (zoneConflicts_iff _ _ _).mp (by decide +kernel), by decide +kernel, by decide +kernel,
    noZoneConflict (by decide +kernel), by decide +kernel, (overlapsOverstayer_iff _ _ _).mp (by decide +kernel), notOverstayed (by decide +kernel)⟩

/-- A zone slot under a command of the SHOW select. -/
def zoned (cmd : Command) (z : ZoneSlot) : State := awaiting .showSel cmd (base.setZone 7 z)

/-- An EMPTY and a REFUSED zone, and a SET one with its fixed attribute. -/
def refusedZone : ZoneSlot := .refused ⟨⟨0, 9, 0, 9, 0, 9⟩, false⟩ h3
def fixedZone : ZoneSlot := .set ⟨⟨0, 9, 0, 9, 0, 9⟩, true⟩ none none

theorem test_witness_ZoneSetRequests :
    (∀ z ∈ [ZoneSlot.empty, refusedZone, fixedZone],
      Awaits (zoned .zoneSet z) .showSel .zoneSet ∧ QueueLaw (zoned .zoneSet z) ∧ (zoned .zoneSet z).zones[(7 : Zone)] = z ∧
        (zoned .zoneSet z).effective = .opened ∧ (zoned .zoneSet z).admission.queue.length < 8 ∧
        8 ≤ (queueFull (zoned .zoneSet z)).admission.queue.length) ∧
    (7 < (8 : Byte).toNat ∧ (boxOfBytes badBox).wf = false ∧ 1 < (2 : Byte).toNat ∧ (7 : Byte).toNat = (7 : Zone).val ∧
      (boxOfBytes goodBox).wf = true ∧ (1 : Byte).toNat ≤ 1) ∧
    ((zoned .zoneSet pendingZone).zones[(7 : Zone)] = pendingZone ∧ (zoned .zoneSet replacing).zones[(7 : Zone)] = replacing) ∧
    (let s := { zoned .zoneSet fixedZone with protect := .soft }
     s.effective = .soft ∧ s.zones[(7 : Zone)].isFixed = true) ∧
    (let s := { zoned .zoneSet .empty with protect := .soft }
     s.effective = .soft ∧ s.zones[(7 : Zone)].isFixed = false) ∧
    (let s := { zoned .zoneSet .empty with protect := .hard, inputs := { (zoned .zoneSet .empty).inputs with rigLock := true } }
     Awaits s .showSel .zoneSet ∧ s.effective = .hard) := by
  decide +kernel

theorem test_witness_ZoneClearEmpties :
    (∀ z ∈ [ZoneSlot.empty, refusedZone, fixedZone],
      Awaits (zoned .zoneClear z) .showSel .zoneClear ∧ QueueLaw (zoned .zoneClear z) ∧ (zoned .zoneClear z).zones[(7 : Zone)] = z ∧
        (zoned .zoneClear z).effective = .opened) ∧
    (let s := (zoned .zoneClear pendingZone).setAdmission { queue := [.zone 7], walk := some { zoneWalk (.claims 9) with subject := .zone 7 } }
     Awaits s .showSel .zoneClear ∧ QueueLaw s ∧ s.zones[(7 : Zone)] ≠ .empty ∧ s.effective = .opened) ∧
    (7 < (8 : Byte).toNat ∧ (7 : Byte).toNat = (7 : Zone).val) ∧
    (let s := { zoned .zoneClear fixedZone with protect := .soft }
     s.effective = .soft ∧ s.zones[(7 : Zone)].isFixed = true) ∧
    (let s := { zoned .zoneClear refusedZone with protect := .soft }
     s.effective = .soft ∧ s.zones[(7 : Zone)].isFixed = false) := by
  decide +kernel

/-- A state with the protection HARD and the rig lock asserted. -/
def hardLocked (s : State) : State := { s with protect := .hard, inputs := { s.inputs with rigLock := true } }

theorem test_witness_ProtectionCommands :
    (Awaits (awaiting .crewSel .setProtect base) .crewSel .setProtect ∧ Awaits (awaiting .showSel .setProtect base) .showSel .setProtect) ∧
    (2 < (3 : Byte).toNat ∧ (2 : Byte).toNat ≤ 2 ∧ (0 : Byte).toNat = 0 ∧ (1 : Byte).toNat = 1 ∧ (2 : Byte).toNat = 2) ∧
    (let s := hardLocked (awaiting .showSel .setProtect base)
     Awaits s .showSel .setProtect ∧ s.protect = .hard ∧ s.inputs.rigLock = true) ∧
    (¬ (base.protect = .hard ∧ base.inputs.rigLock = true) ∧ base.protect = .opened) ∧
    (let s := { base with protect := .hard }
     ¬ (s.protect = .hard ∧ s.inputs.rigLock = true)) ∧
    (let s := { base with protect := .soft }
     s.protect = .soft ∧ s.inputs.rigLock = false) := by
  decide +kernel

/-- A state with winches 0 to n - 1 bound to flyer 1. -/
def boundTo (n : Nat) (s : State) : State := { s with bindings := tabulate (fun w => if w.val < n then some 0 else none) }

theorem test_witness_BindAndUnbind :
    (∀ c ∈ [Command.bind, .unbind], ∀ n ∈ [0, 1, 3, 4],
      Awaits (boundTo n (awaiting .showSel c base)) .showSel c ∧ Awaits (boundTo n (awaiting .crewSel c base)) .crewSel c) ∧
    ((0 : Byte).toNat = 0 ∧ 8 < (9 : Byte).toNat ∧ 15 < (16 : Byte).toNat ∧ (8 : Byte).toNat = flyerNumber 7 ∧
      (15 : Byte).toNat = (15 : Winch).val) ∧
    ((hardLocked base).effective = .hard ∧ base.effective ≠ .hard) ∧
    ((boundTo 1 base).bindings[(0 : Winch)] = some 0 ∧ (0 : Flyer) ≠ 7 ∧ (boundTo 1 base).bindings[(15 : Winch)] = none) ∧
    (4 ≤ ((boundTo 4 base).boundWinches 0).length ∧ ((boundTo 3 base).boundWinches 0).length < 4) ∧
    ((aloft (boundTo 3 base)).flyers[(0 : Flyer)].grounded = false ∧ (boundTo 3 base).flyers[(0 : Flyer)].grounded = true) ∧
    ((granted .travel 1 (boundTo 3 base)).grantOf 0 ≠ none ∧ (boundTo 3 base).grantOf 0 = none) := by
  decide +kernel

theorem test_witness_ClearBreachAndReopen :
    (∀ c ∈ [Command.clearBreach, .reopen], Awaits (awaiting .showSel c base) .showSel c) ∧
    (Awaits (awaiting .crewSel .clearBreach base) .crewSel .clearBreach) ∧
    ((0 : Byte).toNat = 0 ∧ 8 < (9 : Byte).toNat ∧ (1 : Byte).toNat = flyerNumber 0 ∧ (8 : Byte).toNat = flyerNumber 7) ∧
    (let s := awaiting .showSel .clearBreach (breachedBy true base)
     Awaits s .showSel .clearBreach ∧ s.flyers[(0 : Flyer)].breach ≠ none ∧ s.flyers[(7 : Flyer)].breach = none) ∧
    (let s := awaiting .showSel .reopen (channelled .lost (some 9) [] base)
     Awaits s .showSel .reopen ∧ s.channels[(0 : Flyer)].state = .lost ∧ s.channels[(7 : Flyer)].state ≠ .lost) := by
  decide +kernel

/-- Channel 1's receiver in a state, with n frames waiting. -/
def receiving (r : Receiver) (n : Nat) : State :=
  base.setChannel 0 { coldChannel with rx := r, inbound := List.replicate n (.hello 1 1) }

theorem test_witness_ReceiverEvents :
    (Runs (receiving .hunting 0) ∧ (receiving .hunting 0).channels[(0 : Flyer)].rx = .hunting) ∧
    (∀ n ∈ [0, 100, 101, 110, 111], ∀ body ∈ [[], [(0x01 : Byte)], [0x01, 1], [0x02, 9, 9, 9], [0x03, 9, 9], (InFrame.hello 1 1).body,
        (InFrame.report 9 9 9 1).body, (InFrame.ask 9 9 0xA5).body],
      Runs (receiving (.receiving body n) 1) ∧ (receiving (.receiving body n) 1).channels[(0 : Flyer)].rx = .receiving body n) ∧
    ((0x81 : Byte) ≠ 0x01 ∧ (0x81 : Byte) ≠ 0x02 ∧ (0x81 : Byte) ≠ 0x03 ∧ (0x81 : Byte) ≠ 0xA5) ∧
    ((receiving (.receiving [] 0) 1).channels[(0 : Flyer)].inbound.length < 2 ∧
      2 ≤ (receiving (.receiving [] 0) 2).channels[(0 : Flyer)].inbound.length ∧ (0 : Byte) ≠ (InFrame.hello 1 1).check) ∧
    (HearsByte (.syncByte 0) 0 0xA5 ∧ HearsByte (.unknownKind 0 0x81) 0 0x81 ∧ HearsByte (.frameTaken 0 [] 0x02) 0 0x02) ∧
    ((receiving (.receiving [] 160) 1).channels[(0 : Flyer)].rx = .receiving [] 160 ∧
      160 ≤ 100 + 10 * ((InFrame.report 1 2 3 0).body.length + 1)) ∧
    (∀ s ∈ [inReset, onBackup, isOff], ¬ Runs s) := by
  decide +kernel

/-- The bytes of a frame heard one after the other, with idle microseconds before each (the byte's own 10 in them). -/
def hearing (wait : Nat) (bytes : List Byte) (s : State) : State := bytes.foldl (fun t b => ran (.frameTaken 0 [] b) (elapse wait t)) s

/-- A frame is taken when each byte ends no more than 110 us after the byte before it, however long it all lasts; one byte later than that breaks it, and begins a fresh hunt, be it of the sync value (R80). -/
theorem test_frameByBytes :
    (let t := hearing 110 [0x03, 9, 0xA5, 6, crc8 [0x03, 9, 0xA5, 6]] (ran (.syncByte 0) base)
     t.channels[(0 : Flyer)].inbound = [.ask 9 0xA5 6] ∧ t.channels[(0 : Flyer)].rx = .hunting) ∧
    (hearing 111 [0xA5] (hearing 90 [0x03, 9] (ran (.syncByte 0) base))).channels[(0 : Flyer)].rx = .receiving [] 0 := by
  decide +kernel

/-- The bytes of a frame heard back to back take it, from the sync byte on or after it; those after it need not come within 110 us as a whole (R80). -/
theorem test_frameBackToBack :
    (ran (.frameTaken 0 (0xA5 :: (InFrame.hello 1 9).body) (InFrame.hello 1 9).check) base).channels[(0 : Flyer)].inbound = [.hello 1 9] ∧
    (∀ n ∈ [160, 161], (ran (.frameTaken 0 (InFrame.report 1 2 3 0).body (InFrame.report 1 2 3 0).check)
      (receiving (.receiving [] n) 0)).channels[(0 : Flyer)].inbound = if n = 160 then [.report 1 2 3 0] else []) := by
  decide +kernel

/-- A payload byte begins the measure of the gap anew: 90 us after the sync byte a kind byte, and the gap is over 101 us after that (R80). -/
theorem test_gapFromLastByte :
    (let s := channelled .live (some 0) [] base
     (ran (.frameGap 0) (hearing 90 [0x02] (ran (.syncByte 0) s))).channels[(0 : Flyer)].timer) = some 191 := by
  decide +kernel

/-- Channel 1 with a frame at the head and n frames to send. -/
def headed (f : InFrame) (n : Nat) : State :=
  base.setChannel 0 { coldChannel with inbound := [f], out := List.replicate n (.deny .held) }

theorem test_witness_HelloDiscardAndSent :
    (∀ n ∈ [0, 2, 3], Runs (headed (.hello 1 1) n) ∧ (headed (.hello 1 1) n).channels[(0 : Flyer)].inbound = [.hello 1 1]) ∧
    ((headed (.hello 1 1) 2).channels[(0 : Flyer)].out.length ≤ 2 ∧ 2 < (headed (.hello 1 1) 3).channels[(0 : Flyer)].out.length) ∧
    ((1 : Byte).toNat = flyerNumber 0 ∧ (2 : Byte).toNat ≠ flyerNumber 0) ∧
    ((headed (.ask 1 1 1) 0).channels[(0 : Flyer)].inbound = [.ask 1 1 1] ∧
      (headed (.ask 1 1 1) 0).channels[(0 : Flyer)].state = .closed ∧ ∀ id rev, (InFrame.ask 1 1 1) ≠ .hello id rev) ∧
    ((headed (.ask 1 1 1) 2).channels[(0 : Flyer)].out = [.deny .held, .deny .held]) ∧
    (∀ s ∈ [inReset, onBackup, isOff], ¬ Runs s) :=
  ⟨by decide +kernel, by decide +kernel, by decide +kernel, ⟨by decide +kernel, by decide +kernel, nofun⟩, by decide +kernel,
    notRunning⟩

theorem test_witness_ReportTimerExpiries :
    (∀ n ∈ [0, 30000, 30001], let s := channelled .live (some n) [] base
     Runs s ∧ s.channels[(0 : Flyer)].state = .live ∧ s.channels[(0 : Flyer)].timer = some n) ∧
    (∀ st ∈ [ChannelState.live, .late], ∀ n ∈ [30000, 60000, 60001],
     let s := granted .travel 1 (channelled st (some n) [] (with3 (claimOf .active)))
     Runs s ∧ s.channels[(0 : Flyer)].state = st ∧ s.channels[(0 : Flyer)].timer = some n ∧ QueueLaw s) ∧
    (let s := channelled .lost (some 60000) [] base
     Runs s ∧ s.channels[(0 : Flyer)].state ≠ .live ∧ s.channels[(0 : Flyer)].state ≠ .late) ∧
    (∀ g ∈ [false, true], ∀ live ∈ [none, some (grant3 .descent 1)],
     let s := (channelled .late (some 60000) [] (placed ⟨1, 1, 5⟩ g (beside (with3 (claimOf .overrun))))).setGrant 0 ⟨7, live⟩
     Runs s ∧ s.channels[(0 : Flyer)].state = .late ∧ s.channels[(0 : Flyer)].timer = some 60000 ∧ QueueLaw s ∧ OverlapLaw s ∧
       s.claimAt 3 = some (claimOf .overrun) ∧ s.claimAt 4 = some (claimOf .overrun) ∧
       s.claimAt 6 = some (rival (.held .overlap false)) ∧ s.flyers[(0 : Flyer)].grounded = g ∧ s.grantOf 0 = live) ∧
    (∀ s ∈ [inReset, onBackup, isOff], ¬ Runs s) := by
  decide +kernel

theorem test_witness_LeaseExpiry :
    (∀ g ∈ [false, true], ∀ n ∈ [0, 1, 250000], let s := granted .descent n (placed ⟨1, 1, 5⟩ g (beside (with3 (claimOf .overrun))))
     Runs s ∧ s.grantOf 0 = some (grant3 .descent n) ∧ QueueLaw s ∧ OverlapLaw s ∧ s.claimAt 3 = some (claimOf .overrun) ∧
       s.flyers[(0 : Flyer)].grounded = g) ∧
    (Runs base ∧ base.grantOf 0 = none) ∧
    (∀ s ∈ [inReset, onBackup, isOff], ¬ Runs s) := by
  decide +kernel

/-- Channel 1 asking for a cell, its flyer aloft at (1, 1, 5) with winch 0, before a claim of slot 3. -/
def asking (st : ChannelState) (x y z : Byte) (c : Claim) : State :=
  channelled st (some 0) [.ask x y z] (boundTo 1 (aloft (with3 c)))

theorem test_witness_AskDenied :
    (∀ st ∈ [ChannelState.live, .opened, .late, .lost], let s := asking st 39 39 31 (claimOf .booked)
      Runs s ∧ s.channels[(0 : Flyer)].inbound = [.ask 39 39 31] ∧ s.grantsChannel 0 = true ∧ s.holds = [] ∧
        s.channels[(0 : Flyer)].state = st) ∧
    (let s := asking .live 40 39 31 (claimOf .active)
     s.channels[(0 : Flyer)].inbound = [.ask 40 39 31] ∧ s.grantsChannel 0 = true ∧
       ¬ ((40 : Byte).toNat ≤ 39 ∧ (39 : Byte).toNat ≤ 39 ∧ (31 : Byte).toNat ≤ 31)) ∧
    (let s := { asking .live 1 1 1 (claimOf .active) with holds := [⟨.crewHold, 9⟩] }
     Runs s ∧ s.grantsChannel 0 = true ∧ s.holds ≠ []) ∧
    ((breachedBy false (asking .live 1 1 1 (claimOf .active))).flyers[(0 : Flyer)].breach ≠ none ∧
      (asking .live 1 1 1 (claimOf .active)).flyers[(0 : Flyer)].breach = none) ∧
    (∀ w : Winch, (boundTo 0 (asking .live 1 1 1 (claimOf .active))).bindings[w] ≠ some 0) ∧
    (let s := asking .live 1 1 1 (claimOf .booked)
     s.bindings[(0 : Winch)] = some 0 ∧ s.flyers[(0 : Flyer)].position = some ⟨1, 1, 5⟩) ∧
    (∀ (j : Slot) (d : Claim), (asking .live 1 1 1 (claimOf .booked)).claimAt j = some d → d.flyer = 0 → d.state.inForce = true →
      d.box.contains (segmentBox ⟨1, 1, 5⟩ (cellOf 1 1 1)) = false) ∧
    (let s := asking .live 2 1 5 (claimOf .overrun)
     s.claimAt 3 = some (claimOf .overrun) ∧ (claimOf .overrun).flyer = 0 ∧
       (claimOf .overrun).box.contains (segmentBox ⟨1, 1, 5⟩ (cellOf 2 1 5)) = true ∧ straightDown ⟨1, 1, 5⟩ (cellOf 2 1 5) = false ∧
       s.grantsChannel 0 = true) ∧
    (∀ (j : Slot) (d : Claim), (asking .live 2 1 5 (claimOf .overrun)).claimAt j = some d → d.flyer = 0 → d.state = .active →
      d.box.contains (segmentBox ⟨1, 1, 5⟩ (cellOf 2 1 5)) = false) :=
  ⟨by decide +kernel, by decide +kernel, by decide +kernel, by decide +kernel, by decide +kernel, by decide +kernel,
    allClaims (by decide +kernel), by decide +kernel, allClaims (by decide +kernel)⟩

/-- A granted ASK's hypotheses at slot 3, its counter at 255, and no lower or ACTIVE claim in the way. -/
def askingAtTop (x y z : Byte) (st : ClaimState) : State :=
  (asking .live x y z (claimOf st)).setGrant 0 { seq := 255, live := none }

theorem test_witness_AskGranted :
    (∀ st ∈ [ClaimState.active, .overrun], let s := askingAtTop 1 1 0 st
      Runs s ∧ s.channels[(0 : Flyer)].inbound = [.ask 1 1 0] ∧ s.grantsChannel 0 = true ∧ s.holds = [] ∧
        s.channels[(0 : Flyer)].state = .live ∧ s.flyers[(0 : Flyer)].breach = none ∧ s.bindings[(0 : Winch)] = some 0 ∧
        s.flyers[(0 : Flyer)].position = some ⟨1, 1, 5⟩ ∧ s.claimAt 3 = some (claimOf st) ∧ (claimOf st).flyer = 0 ∧
        (claimOf st).box.contains (segmentBox ⟨1, 1, 5⟩ (cellOf 1 1 0)) = true ∧ straightDown ⟨1, 1, 5⟩ (cellOf 1 1 0) = true ∧
        0 = (if s.grants[(0 : Flyer)].seq < 255 then s.grants[(0 : Flyer)].seq + 1 else 0)) ∧
    (∀ (j : Slot) (e : Claim), (askingAtTop 1 1 0 .overrun).claimAt j = some e → e.flyer = 0 → e.state = .active →
      e.box.contains (segmentBox ⟨1, 1, 5⟩ (cellOf 1 1 0)) = false) ∧
    (∀ (j : Slot) (e : Claim), j < 3 → (askingAtTop 1 1 0 .active).claimAt j = some e → e.flyer = 0 → e.state = .active →
      e.box.contains (segmentBox ⟨1, 1, 5⟩ (cellOf 1 1 0)) = false) ∧
    (∀ (j : Slot) (e : Claim), j < 3 → (askingAtTop 1 1 0 .overrun).claimAt j = some e → e.flyer = 0 → e.state = .overrun →
      e.box.contains (segmentBox ⟨1, 1, 5⟩ (cellOf 1 1 0)) = false) := by
  refine ⟨by decide +kernel, allClaims (by decide +kernel), ?_, ?_⟩ <;>
  · intro j e hj he
    exact (allClaims (p := fun j _ => j < 3 → False) (by decide +kernel) j e he hj).elim

/-- What ReportJudgement calls an intrusion of a flyer in a cell. -/
abbrev Intrudes (s : State) (f : Flyer) (cell : Cell) : Prop :=
  (∃ (z : Zone) (a : FixedBox) (r : Option FixedBox) (v : Option Handle), s.zones[z] = .set a r v ∧ a.box.containsCell cell = true) ∨
  ∃ (j : Slot) (d : Claim), s.claimAt j = some d ∧ d.flyer ≠ f ∧ d.state.begun = true ∧ d.region.containsCell cell = true ∧
    ¬ (d.state.isHeld = true ∧ ∃ (k : Slot) (e : Claim), s.claimAt k = some e ∧ e.flyer = f ∧
        e.state.overstaying = true ∧ e.box.containsCell cell = true)

/-- In the base no zone is SET and no claim stands, so no cell is an intrusion. -/
theorem noIntrusion (f : Flyer) (cell : Cell) (s : State) (hz : s.zones = base.zones) (hs : s.slots = base.slots) :
    ¬ Intrudes s f cell := by
  rintro (⟨z, a, r, v, h, -⟩ | ⟨j, d, h, -⟩)
  · rw [hz] at h
    exact absurd h (by have : ∀ z : Zone, base.zones[z] = .empty := by decide +kernel
                       rw [this z]; nofun)
  · exact (allClaims (s := s) (p := fun _ _ => False) (by unfold State.claimAt; rw [hs]; decide +kernel) j d h).elim

theorem test_witness_ReportJudgement :
    Intrudes (zoneAt 7 base) 0 ⟨9, 9, 9⟩ ∧
    Intrudes (slotted 31 (rival (.held .restart false)) base) 0 ⟨9, 9, 31⟩ ∧
    (¬ Intrudes base 0 ⟨40, 0, 0⟩ ∧ Cell.inGrid ⟨40, 0, 0⟩ = false) ∧
    (¬ Intrudes (granted .travel 1 base) 0 ⟨1, 1, 5⟩ ∧ ¬ Intrudes (granted .travel 1 base) 0 ⟨1, 1, 6⟩ ∧
      (granted .travel 1 base).grantOf 0 = some (grant3 .travel 1) ∧ Cell.inGrid ⟨39, 39, 31⟩ = true) ∧
    (¬ Intrudes (aloft base) 0 ⟨1, 1, 5⟩ ∧ (aloft base).grantOf 0 = none ∧ (aloft base).flyers[(0 : Flyer)].position = some ⟨1, 1, 5⟩) ∧
    (base.flyers[(0 : Flyer)].position = none ∧ base.grantOf 0 = none) ∧
    ((with3 (claimOf .active)).claimAt 3 = some (claimOf .active) ∧ (claimOf .active).box.containsCell ⟨9, 9, 9⟩ = true) ∧
    (∀ (j : Slot) (d : Claim), base.claimAt j = some d → d.flyer = 0 → d.state.begun = true → d.box.containsCell ⟨9, 9, 9⟩ = false) :=
  ⟨.inl ⟨7, _, none, none, rfl, by decide +kernel⟩,
    .inr ⟨31, rival (.held .restart false), by decide +kernel, by decide +kernel, by decide +kernel, by decide +kernel,
      fun ⟨_, k, e, h1, h2, h3, _⟩ => absurd h3 (by
        have := allClaims (p := fun (_ : Slot) e => e.flyer = 0 → e.state.overstaying = false)
          (s := slotted 31 (rival (.held .restart false)) base) (by decide +kernel) k e h1 h2
        rw [this]; exact Bool.false_ne_true)⟩,
    ⟨noIntrusion _ _ _ rfl rfl, by decide +kernel⟩,
    ⟨noIntrusion _ _ _ rfl rfl, noIntrusion _ _ _ rfl rfl, by decide +kernel, by decide +kernel⟩,
    ⟨noIntrusion _ _ _ rfl rfl, by decide +kernel, by decide +kernel⟩,
    by decide +kernel, by decide +kernel, allClaims (by decide +kernel)⟩

/-- Channel 1 with a REPORT at the head, in a state. -/
def reporting (x y z fl : Byte) (s : State) : State := channelled .live (some 9) [.report x y z fl] s

theorem test_witness_LawfulReport :
    (∀ fl ∈ [(0xFE : Byte), 0xFF], let s := reporting 1 1 5 fl (aloft (with3 (claimOf .overrun)))
      Runs s ∧ QueueLaw s ∧ WalkLaw s ∧ s.channels[(0 : Flyer)].inbound = [.report 1 1 5 fl] ∧ s.grantsChannel 0 = true ∧
        judgeReport 0 (cellOf 1 1 5) (fl.getLsbD 0) s = none ∧ s.claimAt 3 = some (claimOf .overrun)) ∧
    (let s := granted .descent 1 (reporting 1 1 1 1 (aloft (with3 (claimOf .overrun))))
     s.grantsChannel 0 = true ∧ s.grantOf 0 = some (grant3 .descent 1) ∧ (grant3 .descent 1).claim = s.handleAt 3 ∧
       judgeReport 0 (cellOf 1 1 1) true s = none) ∧
    (let s := reporting 1 1 5 0xFF (aloft (beside base))
     Runs s ∧ QueueLaw s ∧ WalkLaw s ∧ OverlapLaw s ∧ s.grantsChannel 0 = true ∧ judgeReport 0 (cellOf 1 1 5) true s = none ∧
       s.claimAt 4 = some (claimOf .overrun) ∧ s.claimAt 6 = some (rival (.held .overlap false))) ∧
    ((0xFE : Byte).getLsbD 0 = false ∧ (0xFF : Byte).getLsbD 0 = true) ∧
    (∀ g, (reporting 1 1 5 0xFF (aloft (with3 (claimOf .overrun)))).grantOf 0 = some g →
      g.claim ≠ (reporting 1 1 5 0xFF (aloft (with3 (claimOf .overrun)))).handleAt 3) :=
  ⟨by decide +kernel, by decide +kernel, by decide +kernel, by decide +kernel, allOf (by decide +kernel)⟩

/-- A state with ATTN and ALERT at the levels its flags, enables and count give. -/
def lit (s : State) : State := { s with lines := { s.lines with attn := attnLevel s, alert := alertLevel s } }

theorem test_witness_BreachResponse :
    (∀ st ∈ [ClaimState.active, .overrun], let s := lit (granted .descent 1 (reporting 1 1 6 0 (aloft (with3 (claimOf st)))))
      Runs s ∧ QueueLaw s ∧ WalkLaw s ∧ AttentionLaw s ∧ s.channels[(0 : Flyer)].inbound = [.report 1 1 6 0] ∧
        s.grantsChannel 0 = true ∧ judgeReport 0 (cellOf 1 1 6) ((0 : Byte).getLsbD 0) s = some .escape ∧
        s.claimAt 3 = some (claimOf st) ∧ s.grantOf 0 = some (grant3 .descent 1)) ∧
    (let s := lit (boundTo 1 (breachedBy false (reporting 2 1 5 0 (aloft base))))
     Runs s ∧ QueueLaw s ∧ WalkLaw s ∧ AttentionLaw s ∧ s.grantsChannel 0 = true ∧
       judgeReport 0 (cellOf 2 1 5) false s = some .drift ∧ s.bindings[(0 : Winch)] = some 0) ∧
    (∀ holds ∈ [[], [(⟨.breach, 9⟩ : HoldEntry)], [⟨.ring, 9⟩]],
     let s := lit { zoneAt 0 (reporting 9 9 9 0 (slotted 5 (rival .active) (with3 (claimOf .active)))) with holds := holds }
     Runs s ∧ QueueLaw s ∧ WalkLaw s ∧ AttentionLaw s ∧ s.grantsChannel 0 = true ∧
       judgeReport 0 (cellOf 9 9 9) false s = some .intrude ∧ s.claimAt 5 = some (rival .active) ∧ (rival .active).flyer ≠ 0) ∧
    (let c : Claim := { claimOf .active with amend := some ⟨some 150, none⟩ }
     let s := lit (reporting 1 1 6 0 (aloft (walking (walkOf (.amend h3) (.zones 7)) (with3 c))))
     Runs s ∧ QueueLaw s ∧ WalkLaw s ∧ AttentionLaw s ∧ s.grantsChannel 0 = true ∧
       judgeReport 0 (cellOf 1 1 6) false s = some .drift ∧ s.resolve h3 = some c) :=
  ⟨by decide +kernel, by decide +kernel, by decide +kernel, by decide +kernel⟩

/-- The base with a grant that names its ACTIVE claim, and the base with a hold. -/
def flying : State := boundTo 1 (granted .travel 1 (aloft (with3 (claimOf .active))))
def heldBy (src : HoldSource) (s : State) : State :=
  { s with holds := [⟨src, 9⟩], clock := { s.clock with run := .frozen } }

theorem test_witness_HoldsArePushed :
    (∀ s ∈ [flying, heldBy .showHold base], Runs s ∧ QueueLaw s ∧ WalkLaw s ∧ AttentionLaw (lit s) ∧
      s.inputs.stop = false ∧ s.inputs.ring = false) ∧
    (∀ s ∈ [flying, heldBy .showHold base], ∀ sel ∈ [Select.showSel, .crewSel],
      let t := awaiting sel .hold (lit s)
      Runs t ∧ Awaits t sel .hold ∧ QueueLaw t ∧ WalkLaw t ∧ AttentionLaw t) ∧
    (flying.holding .showHold = false ∧ flying.holds = [] ∧ flying.grantOf 0 = some (grant3 .travel 1) ∧ flying.grantOf 7 = none ∧
      flying.bindings[(0 : Winch)] = some 0 ∧ flying.bindings[(15 : Winch)] = none) ∧
    (∀ g ∈ [false, true], let s := placed ⟨1, 1, 5⟩ g (beside flying)
     Runs s ∧ QueueLaw s ∧ WalkLaw s ∧ OverlapLaw s ∧ s.holds = [] ∧ s.claimAt 4 = some (claimOf .overrun) ∧
       s.flyers[(0 : Flyer)].grounded = g ∧ (s.grantOf 0).isSome = true) ∧
    ((heldBy .showHold base).holding .showHold = true ∧ (heldBy .showHold base).holding .crewHold = false) ∧
    (let s := { base with inputs := { base.inputs with stop := true, ring := true } }
     s.inputs.stop = true ∧ s.inputs.ring = true) ∧
    (¬ Runs inReset) :=
  ⟨by decide +kernel, by decide +kernel, by decide +kernel, by decide +kernel⟩

/-- Every source in the hold list. -/
def allHeld (s : State) : State :=
  { s with holds := [⟨.restart, 0⟩, ⟨.ring, 1⟩, ⟨.stop, 2⟩, ⟨.breach, 3⟩, ⟨.crewHold, 4⟩, ⟨.showHold, 5⟩], clock := { s.clock with run := .frozen } }

theorem test_witness_ReleaseRemoves :
    (∀ sel ∈ [Select.showSel, .crewSel], Awaits (allHeld (awaiting sel .release base)) sel .release ∧
      Awaits (awaiting sel .release base) sel .release ∧ Awaits (heldBy .crewHold (awaiting sel .release base)) sel .release) ∧
    (5 < (6 : Byte).toNat ∧ (5 : Byte).toNat = holdSourceCode .restart ∧ (0 : Byte).toNat = holdSourceCode .showHold ∧
      (1 : Byte).toNat = holdSourceCode .crewHold ∧ (2 : Byte).toNat = holdSourceCode .ring ∧
      (3 : Byte).toNat = holdSourceCode .stop ∧ (4 : Byte).toNat = holdSourceCode .breach) ∧
    (∀ h ∈ (awaiting .showSel .release base).holds, h.source ≠ .showHold) ∧
    (∀ src ∈ [HoldSource.showHold, .crewHold, .ring, .stop, .breach, .restart], ∃ h ∈ (allHeld base).holds, h.source = src) ∧
    (let s := allHeld { base with inputs := { base.inputs with stop := true, ring := true } }
     s.inputs.ring = true ∧ s.inputs.stop = true) ∧
    (∃ (f : Flyer) (r : BreachRec), (allHeld (breachedBy true base)).flyers[f].breach = some r ∧ r.intrusion = true) ∧
    (∀ (f : Flyer) (r : BreachRec), (allHeld (breachedBy false base)).flyers[f].breach = some r → r.intrusion = false) ∧
    ((allHeld base).inputs.ring = false ∧ (allHeld base).inputs.stop = false ∧
      ∀ h ∈ (heldBy .crewHold base).holds, h.source = .crewHold) :=
  ⟨by decide +kernel, by decide +kernel, by decide +kernel, by decide +kernel, by decide +kernel,
    ⟨0, breachRec true, by decide +kernel, rfl⟩,
    fun f => allOf (by revert f; decide +kernel), by decide +kernel⟩

/-- The base with its clock set from a source, at a period, with a request and a watch. -/
def ticking (src : TickSource) (req watch : Option Nat) (p : Nat) (s : State) : State :=
  { s with clock := { s.clock with source := src, request := req, pulseWatch := watch, period := some p } }

/-- The claim of slot 3 held beside flyer 2's overstaying claim in slot 5. -/
def overlapping : State := slotted 5 (rival .overrun) (with3 (claimOf (.held .overlap false)))

theorem test_witness_TickSourceEvents :
    (∀ s ∈ [base, overlapping, { base with clock := { base.clock with count := 16777214 } }], ∀ n ∈ [0, 10000, 10001],
      let t := ticking .internal none none n s
      Runs t ∧ t.clock.period = some n ∧ t.clock.source = .internal ∧ t.clock.run = .running ∧ QueueLaw t ∧ OverlapLaw t) ∧
    (∀ s ∈ [base, overlapping], let t := ticking .external none (some 29999) 0 s
      Runs t ∧ t.clock.source = .external ∧ t.clock.run = .running ∧ QueueLaw t ∧ OverlapLaw t) ∧
    (let t := ticking .internal (some 49999) none 0 base
     Runs t ∧ t.clock.source = .internal ∧ t.clock.request ≠ none ∧ t.clock.run = .running ∧ QueueLaw t ∧ OverlapLaw t) ∧
    ((ticking .internal none none 10000 (heldBy .ring base)).clock.run ≠ .running) ∧
    (let t := ticking .external none (some 0) 10000 base
     t.clock.period = some 10000 ∧ t.clock.source = .external) ∧
    (let t := ticking .internal none none 9999 base
     t.clock.source = .internal ∧ t.clock.request = none) ∧
    (∀ s ∈ [inReset, onBackup, isOff], ¬ Runs s) := by
  decide +kernel

theorem test_witness_SetSource :
    (∀ src ∈ [TickSource.internal, .external], let s := ticking src none none 0 (awaiting .showSel .setSource base)
      Awaits s .showSel .setSource ∧ s.clock.source = src) ∧
    (Awaits (awaiting .crewSel .setSource base) .crewSel .setSource) ∧
    (1 < (2 : Byte).toNat ∧ (1 : Byte).toNat = 1 ∧ (0 : Byte).toNat = 0) := by
  decide +kernel

theorem test_witness_SourceExpiries :
    (∀ n ∈ [0, 30000, 30001], let s := ticking .external none (some n) 0 base
      Runs s ∧ s.clock.source = .external ∧ s.clock.pulseWatch = some n) ∧
    (∀ n ∈ [0, 50000, 50001], Runs (ticking .internal (some n) none 0 base) ∧ (ticking .internal (some n) none 0 base).clock.request = some n) ∧
    (Runs base ∧ base.clock.source = .internal ∧ base.clock.pulseWatch = none ∧ base.clock.request = none) ∧
    (∀ s ∈ [inReset, onBackup, isOff], ¬ Runs s) := by
  decide +kernel

/-- A clock in a run state, at a count. -/
def clocked (r : RunState) (n : Nat) (s : State) : State := { s with clock := { s.clock with run := r, count := n } }

theorem test_witness_LoadAndSkip :
    (∀ s ∈ [base, overlapping, heldBy .restart base], let t := clocked .void 0 (awaiting .showSel .setClock s)
      Awaits t .showSel .setClock ∧ t.clock.run = .void ∧ QueueLaw t ∧ OverlapLaw t) ∧
    (16777215 ≤ (16777215 : Word24).toNat ∧ (16777214 : Word24).toNat < 16777215 ∧ base.clock.run ≠ .void) ∧
    (∀ s ∈ [heldBy .crewHold base, heldBy .crewHold overlapping, clocked .frozen 16777214 (heldBy .ring base)],
      let t := awaiting .showSel .skip s
      Awaits t .showSel .skip ∧ t.clock.run = .frozen ∧ QueueLaw t ∧ OverlapLaw t) ∧
    ((0 : Word24).toNat = 0 ∧ 360000 < (360001 : Word24).toNat ∧ 1 ≤ (1 : Word24).toNat ∧ (360000 : Word24).toNat ≤ 360000) ∧
    (Awaits (awaiting .showSel .skip base) .showSel .skip ∧ base.clock.run ≠ .frozen) := by
  decide +kernel

/-- Set 15 with templates of flyer 1 in its first n ways, cues 15, 31, 47 and 63, the first k of them locked. -/
def templated (n k : Nat) (s : State) : State :=
  { s with templates := { s.templates with sets := s.templates.sets.set 15 { coldSet with ways := tabulate (fun w =>
      if w.val < n then
        some { cue := w.val * 16 + 15, flyer := 0, box := ⟨0, 9, 0, 9, 0, 9⟩, offset := 1, duration := 0, locked := decide (w.val < k) }
      else none) } } }

/-- The templates of a state's set 15. -/
abbrev ways15 (s : State) : Vector (Option Template) 4 := s.templates.sets[(15 : Fin 16)].ways

theorem noCue {s : State} {n : Nat} (h : ∀ v : Fin 4, (ways15 s)[v].all (fun o => decide (o.cue ≠ n)) = true) :
    ∀ (v : Fin 4) (o : Template), (ways15 s)[v] = some o → o.cue ≠ n := fun v => allOf (h v)

/-- The zone record's premises in every zone state, the flyer record's with no winch and with four, and the template set's in a full set. -/
theorem test_witness_RecordLayouts_others :
    (∀ z ∈ [ZoneSlot.empty, pendingZone, fixedZone, replacing, refusedZone], (base.setZone 7 z).zones[(7 : Zone)] = z) ∧
    (∀ x ∈ [(0, []), (4, [(0 : Winch), 1, 2, 3])], let s := breachedBy true (aloft (boundTo x.1 base))
     x.2.Pairwise (fun v w => v < w) ∧ (∀ w : Winch, w ∈ x.2 ↔ s.bindings[w] = some 0) ∧ x.2.length ≤ 4) ∧
    ((templated 4 2 base).templates.sets[(15 : Fin 16)] ≠ coldSet) := by
  decide +kernel

theorem test_witness_LoadTemplate :
    (∀ n ∈ [0, 3, 4], Awaits (templated n 0 (awaiting .showSel .loadTemplate base)) .showSel .loadTemplate) ∧
    (4095 < (4096 : Word16).toNat ∧ (4095 : Word16).toNat ≤ 4095 ∧ (15 : Fin 16).val = (4095 : Word16).toNat % 16 ∧
      (8 : Byte).toNat = flyerNumber 7 ∧ (boxOfBytes goodBox).wf = true ∧ (boxOfBytes badBox).wf = false) ∧
    ((ways15 (templated 4 4 base))[(0 : Fin 4)].any (fun o => decide (o.cue = (15 : Word16).toNat)) = true) ∧
    (∀ (v : Fin 4) (o : Template), (ways15 (templated 3 0 base))[v] = some o → o.cue ≠ (4095 : Word16).toNat) ∧
    ((ways15 (templated 3 0 base))[(3 : Fin 4)] = none ∧ ∀ v : Fin 4, v < 3 → (ways15 (templated 3 0 base))[v] ≠ none) ∧
    (∀ v : Fin 4, (ways15 (templated 4 0 base))[v] ≠ none) ∧
    (∀ (v : Fin 4) (o : Template), (ways15 (templated 4 4 base))[v] = some o → o.locked = true) ∧
    ((3 : Fin 4) = (templated 4 3 base).templates.sets[(15 : Fin 16)].victim + 3 ∧
      (ways15 (templated 4 3 base))[(3 : Fin 4)].any (fun o => !o.locked) = true) ∧
    (∀ m : Fin 4, m < 3 → ∀ o, (ways15 (templated 4 3 base))[(templated 4 3 base).templates.sets[(15 : Fin 16)].victim + m] = some o →
      o.locked = true) :=
  ⟨by decide +kernel, by decide +kernel, by decide +kernel, noCue (by decide +kernel), by decide +kernel, by decide +kernel,
    fun v => allOf (by revert v; decide +kernel), by decide +kernel, fun m hm => allOf (by revert m; decide +kernel)⟩

theorem test_witness_DropLockUnlock :
    (∀ c ∈ [Command.dropTemplate, .lockTemplate, .unlockTemplate],
      Awaits (templated 4 2 (awaiting .showSel c base)) .showSel c) ∧
    (4095 < (4096 : Word16).toNat ∧ (15 : Fin 16).val = (63 : Word16).toNat % 16) ∧
    (∀ (v : Fin 4) (o : Template), (ways15 (templated 4 2 base))[v] = some o → o.cue ≠ (4095 : Word16).toNat) ∧
    ((ways15 (templated 4 2 base))[(0 : Fin 4)].any (fun o => o.locked && decide (o.cue = (15 : Word16).toNat)) = true) ∧
    ((ways15 (templated 4 2 base))[(3 : Fin 4)].any (fun o => !o.locked && decide (o.cue = (63 : Word16).toNat)) = true) ∧
    (∀ v : Fin 4, v < 3 → ∀ o, (ways15 (templated 4 2 base))[v] = some o → o.cue ≠ (63 : Word16).toNat) :=
  ⟨by decide +kernel, by decide +kernel, noCue (by decide +kernel), by decide +kernel, by decide +kernel,
    fun v hv => allOf (by revert v; decide +kernel)⟩

/-- The SHOW select awaiting FIRE, with the templates of set 15. -/
def firing (s : State) : State := templated 4 0 (awaiting .showSel .fire s)

theorem test_witness_Fire :
    (∀ s ∈ [base, queueFull base, crowded [] base, crowded [31] base], Awaits (firing s) .showSel .fire ∧
      (ways15 (firing s))[(3 : Fin 4)].any (fun o => decide (o.cue = (63 : Word16).toNat ∧ o.offset = 1 ∧ o.duration = 0)) = true) ∧
    (∀ (v : Fin 4) (o : Template), (ways15 (firing base))[v] = some o → o.cue ≠ (4095 : Word16).toNat) ∧
    (∀ v : Fin 4, v < 3 → ∀ o, (ways15 (firing base))[v] = some o → o.cue ≠ (63 : Word16).toNat) ∧
    ((clocked .void 0 (firing base)).clock.run = .void ∧ (firing base).clock.run ≠ .void) ∧
    (16777215 < (clocked .ended 16777215 (firing base)).clock.count + 1 ∧
      (clocked .running 16777214 (firing base)).clock.count + 1 ≤ 16777215) ∧
    (8 ≤ (firing (queueFull base)).admission.queue.length ∧ (firing base).admission.queue.length < 8) ∧
    (∀ j : Slot, (firing (crowded [] base)).claimAt j ≠ none) ∧
    (let s := firing (crowded [31] base)
     QueueLaw s ∧ s.claimAt 31 = none ∧ (∀ j : Slot, j < 31 → s.claimAt j ≠ none) ∧
       ({ slot := 31, gen := 0 } : Handle) = { slot := 31, gen := s.slots[(31 : Slot)].gen + 1 }) :=
  ⟨by decide +kernel, noCue (by decide +kernel), fun v hv => allOf (by revert v; decide +kernel), by decide +kernel,
    by decide +kernel, by decide +kernel, by decide +kernel, by decide +kernel⟩

/-- A state with STOP and RING asserted. -/
def pressed (s : State) : State := { s with inputs := { s.inputs with stop := true, ring := true } }

theorem test_witness_BackupAndReturn :
    (∀ s ∈ [base, flying, booking (.claims 9) (claimOf .checking)], QueueLaw s ∧ s.supply.state = .main ∧ s.supply.backupPresent = true) ∧
    (∀ s ∈ [onBackup, pressed onBackup, waiting3 (slotted 3 (claimOf .queued) onBackup)],
      QueueLaw s ∧ s.supply.state = .backup ∧ s.inputs.reset = false) ∧
    (let s := { onBackup with inputs := { onBackup.inputs with reset := true } }
     QueueLaw s ∧ s.supply.state = .backup ∧ s.inputs.reset = true) := by
  decide +kernel

theorem test_witness_ResetHolds :
    (inReset.inputs.reset = true ∧ base.inputs.reset = false) ∧
    (let s := { onBackup with lines := { onBackup.lines with attn := .low, alert := .low } }
     s.supply.state ≠ .main ∧ AttentionLaw s) ∧
    (∀ s ∈ [base, flying], s.supply.state = .main ∧ s.inputs.reset = false ∧ QueueLaw s) ∧
    (∀ s ∈ [inReset, pressed inReset, waiting3 (slotted 3 (claimOf .queued) inReset), heldBy .restart inReset,
        waiting3 (slotted 3 (claimOf .queued) (pressed (heldBy .stop inReset))),
        (inReset.setZone 2 pendingZone).setAdmission { queue := [.zone 2], walk := none }],
      s.supply.state = .main ∧ s.inputs.reset = true ∧ QueueLaw s ∧ WalkLaw s ∧ GrantsOnlyFree s) := by
  decide +kernel

theorem test_witness_PowerLossAndColdStart :
    (isOff.supply.state = .off ∧ isOff.inputs.reset = false ∧ (pressed isOff).inputs.stop = true ∧ (pressed isOff).supply.state = .off) ∧
    (let s := { isOff with inputs := { isOff.inputs with reset := true } }
     s.supply.state = .off ∧ s.inputs.reset = true) ∧
    (let s := { base with supply := { base.supply with backupPresent := false } }
     s.supply.state = .main ∧ s.supply.backupPresent = false) ∧
    (onBackup.supply.state = .backup ∧ base.supply.state ≠ .backup) := by
  decide +kernel

theorem test_witness_CommandEncoding : encodeCommand (.setClock 16777215) = some [0x38, 0xFF, 0xFF, 0xFF] := by decide +kernel

theorem test_witness_FrameEncoding : decodeFrame [0x02, 255, 0, 255, 255] = some (.report 255 0 255 255) := by decide +kernel

/-- A step that the laws hold before: the front command of a queue. -/
def queued (i : Instr) (s : State) : State := { s with pending := [i] }

/-- The state a step leads to. -/
def stepped (s : State) : State :=
  match step s with
  | .next t => t
  | .fault _ | .refused _ => s

/-- A busy state in which every law holds: a grant in flight in an ACTIVE claim, permits up, an overlap held, a walk, a template, a hold on the way. -/
def busy : State :=
  let s := booking (.claims 7) (claimOf .checking)
  let s := slotted 4 { claimOf .active with box := ⟨10, 19, 0, 9, 0, 9⟩ } s
  let s := slotted 5 { rival .overrun with box := ⟨20, 29, 0, 9, 0, 9⟩, stop := some 90 } s
  let s := slotted 6 { claimOf (.held .overlap false) with box := ⟨25, 29, 0, 9, 0, 9⟩ } s
  let g : Grant := { grant3 .travel 9 with segment := ⟨10, 10, 1, 1, 1, 5⟩, claim := { slot := 4, gen := 1 } }
  let s := s.setGrant 0 { seq := 7, live := some g }
  let s := templated 4 2 (boundTo 4 (channelled .live (some 9) [.ask 10 1 1] (placed ⟨10, 1, 5⟩ false s)))
  { s with lines := { s.lines with permit := tabulate (fun w => if w.val < 4 then .high else .low) } }

/-- One state meets the hypotheses of every law that a step is said to keep, with a command at the front that takes a step. -/
theorem test_witness_Kept :
    (HoldLaw (queued .ringAssertion busy) ∧ ClockLaw (queued .ringAssertion busy) ∧ ConsoleLaw (queued .ringAssertion busy) ∧
      AttentionLaw (queued .ringAssertion busy) ∧ AlertLaw (queued .ringAssertion busy)) ∧
    (BindingLaw (queued .ringAssertion busy) ∧ TemplateLaw (queued .ringAssertion busy) ∧ PermitLaw (queued .ringAssertion busy) ∧
      GrantsOnlyFree (queued .ringAssertion busy) ∧ ChannelLaw (queued .ringAssertion busy) ∧ ArbiterLaw (queued .ringAssertion busy)) ∧
    (PositionLaw (queued .ringAssertion busy) ∧ InForceLaw (queued .ringAssertion busy) ∧ WindowLaw (queued .ringAssertion busy) ∧
      DisjointLaw (queued .ringAssertion busy)) ∧
    (CandidateLaw (queued .ringAssertion busy) ∧ ClaimsReadLaw (queued .ringAssertion busy) ∧
      ZoneLaw (queued .ringAssertion busy) ∧ ZonesReadLaw (queued .ringAssertion busy)) ∧
    (OverlapLaw (queued .ringAssertion busy) ∧ QueueLaw (queued .ringAssertion busy) ∧ WalkLaw (queued .ringAssertion busy) ∧
      CheckingLaw (queued .ringAssertion busy)) ∧
    (WalkSubjectLaw (queued .ringAssertion busy) ∧ GrantLaw (queued .ringAssertion busy) ∧ LostLaw (queued .ringAssertion busy)) ∧
    step (queued .ringAssertion busy) = .next (stepped (queued .ringAssertion busy)) :=
  ⟨by decide +kernel, by decide +kernel, by decide +kernel, by decide +kernel, by decide +kernel, by decide +kernel, rfl⟩

/-- A step that releases a HELD OVERLAP claim, the overstaying claim beside it being retired; and a step that brings a zone to the head, the booking before it being cancelled. -/
theorem test_witness_Kept_moves :
    (let s := queued (.retire 41) (awaiting .showSel .retire overlapping)
     OverlapLaw s ∧ GrantsOnlyFree s ∧ QueueLaw s ∧ WalkLaw s ∧ WalkSubjectLaw s ∧ step s = .next (stepped s) ∧
       s.claimAt 3 = some (claimOf (.held .overlap false)) ∧ (stepped s).claimAt 3 = some (claimOf .active)) ∧
    (let w := walkOf (.book h3) (.zones 3)
     let s := (with3 (claimOf .checking)).setZone 2 pendingZone
     let s := queued (.cancel 25) (awaiting .showSel .cancel (s.setAdmission { queue := [.book h3, .zone 2], walk := some w }))
     QueueLaw s ∧ WalkLaw s ∧ CheckingLaw s ∧ WalkSubjectLaw s ∧ GrantLaw s ∧ GrantsOnlyFree s ∧ LostLaw s ∧
       step s = .next (stepped s) ∧ Runs (stepped s) ∧ (stepped s).admission.queue.head? = some (.zone 2) ∧
       s.admission.queue.head? = some (.book h3)) :=
  ⟨⟨by decide +kernel, by decide +kernel, by decide +kernel, by decide +kernel, by decide +kernel, rfl, by decide +kernel,
      by decide +kernel⟩,
    ⟨by decide +kernel, by decide +kernel, by decide +kernel, by decide +kernel, by decide +kernel, by decide +kernel,
      by decide +kernel, rfl, by decide +kernel, by decide +kernel, by decide +kernel⟩⟩

/-- The claim of slot 3 under an AMEND walk, with HOLD_CLAIM of it at the front of the queue: a step that moves the walk's subject. -/
def holdingWalked (p : WalkPos) : State :=
  queued (.holdClaim 25) (awaiting .showSel .holdClaim
    (walking (walkOf (.amend h3) p) (with3 { claimOf .active with amend := some ⟨some 150, none⟩ })))

/-- Steps that leave the head in place: one that leaves its walk as well, and one that moves its subject; and a step after which the part runs again. -/
theorem test_witness_Kept_walk :
    (let s := queued .ringAssertion busy
     s.admission.walk = some (walkOf (.book h3) (.claims 7)) ∧ (stepped s).admission.queue.head? = some (.book h3) ∧ Runs (stepped s) ∧
       s.pending.head? ≠ some .walkAccess ∧ s.pending.head? ≠ some .zonePhaseRead) ∧
    (let s := holdingWalked (.zones 7)
     (QueueLaw s ∧ WalkLaw s ∧ CheckingLaw s ∧ WalkSubjectLaw s ∧ GrantLaw s ∧ GrantsOnlyFree s ∧ LostLaw s) ∧
       step s = .next (stepped s) ∧ s.admission.walk = some (walkOf (.amend h3) (.zones 7)) ∧
       (stepped s).admission.queue.head? = some (.amend h3) ∧ Runs (stepped s) ∧ SubjectMoved s (stepped s) (.amend h3)) ∧
    (let s := queued .resetDeassertion ((inReset.setZone 2 pendingZone).setAdmission { queue := [.zone 2], walk := none })
     (QueueLaw s ∧ WalkLaw s ∧ CheckingLaw s ∧ WalkSubjectLaw s ∧ GrantLaw s ∧ GrantsOnlyFree s ∧ LostLaw s) ∧
       step s = .next (stepped s) ∧ ¬ Runs s ∧ Runs (stepped s) ∧ (stepped s).admission.queue.head? = some (.zone 2)) :=
  ⟨⟨by decide +kernel, by decide +kernel, by decide +kernel, by decide +kernel, by decide +kernel⟩,
    ⟨by decide +kernel, rfl, by decide +kernel, by decide +kernel, by decide +kernel,
      ⟨_, { claimOf (.held .command false) with amend := some ⟨some 150, none⟩ }, rfl, by decide +kernel, by decide +kernel,
        by rintro ⟨a, b, m, h, -⟩; cases h⟩⟩,
    ⟨by decide +kernel, rfl, by decide +kernel, by decide +kernel, by decide +kernel⟩⟩

/-- The cases of the walk count: a walk withdrawn from the port by the CANCEL of its claim, and one begun again in place. -/
theorem test_witness_TurnKept :
    (let s := { asked .cancel (claimOf .checking) with arbiter := ⟨2, 5⟩ }
     let s := walking (walkOf (.book h3) (.claims 7)) s
     Awaits s .showSel .cancel ∧ s.resolve (handleOf 25) = some (claimOf .checking) ∧ QueueLaw s ∧ WalkLaw s ∧
       WalkWithdrawn s (ran (.cancel 25) s) ∧ (ran (.cancel 25) s).arbiter = ⟨2, 0⟩) ∧
    (let s := { holdingWalked (.claims 7) with arbiter := ⟨2, 5⟩ }
     QueueLaw s ∧ WalkLaw s ∧ Entry.amend h3 ∈ (ran (.holdClaim 25) s).admission.queue ∧ (ran (.holdClaim 25) s).arbiter = ⟨2, 5⟩) :=
  ⟨⟨by decide +kernel, by decide +kernel, by decide +kernel, by decide +kernel,
      ⟨_, _, rfl, rfl, by decide +kernel, by decide +kernel⟩, by decide +kernel⟩, by decide +kernel⟩

/-- The clauses of AttentionKept on the lines: running with and without a flag, on BACKUP, in RESET and OFF. -/
theorem test_witness_AttentionKept :
    (let s := raiseFlag .sourceAbandoned base
     AttentionLaw s ∧ Runs s ∧ (∃ k : Fin 11, s.attention.flags.getLsbD k = true ∧ s.attention.enables.getLsbD k = true) ∧ 0 < s.alert.count) ∧
    (let s := { base with alert := ⟨0, none, none⟩, lines := { base.lines with alert := .low } }
     AttentionLaw s ∧ Runs s ∧ (∀ k : Fin 11, s.attention.flags.getLsbD k = false ∨ s.attention.enables.getLsbD k = false) ∧
       s.alert.count = 0) ∧
    (∀ s ∈ [inReset, onBackup], AttentionLaw { s with lines := { s.lines with attn := .low, alert := .low } }) ∧
    AttentionLaw { isOff with lines := { isOff.lines with attn := .unpowered, alert := .unpowered } } := by
  decide +kernel

/-! ## One step each, as the manual tells it -/

/-- A cold start with the lines at rest is the state after reset (R180). -/
theorem test_coldStart : ran .coldStart isOff = State.reset := by decide +kernel

/-- A tick leaves a BOOK walk where it stands (R44, R48); the HOLD_CLAIM of an AMEND walk's subject begins it again from slot 0 (R45). -/
theorem test_walkGoesOn :
    (ran .internalPeriodCompletion (booking (.claims 9) (claimOf .checking))).admission.walk = some (walkOf (.book h3) (.claims 9)) ∧
    (stepped (holdingWalked (.zones 7))).admission.walk.map (fun w => w.pos) = some (.claims 0) := by
  decide +kernel

/-- The status record after reset, byte by byte (R187). -/
theorem test_statusAfterReset :
    recordBytes State.reset .status =
      [1, 1, 0, 0, 1, 0, 0, 0, 0, 0, 0, 0, 0, 0, 0, 0, 0, 0, 0, 0, 0, 0, 0, 0, 0, 0, 0, 0x07, 0xFF, 0, 1] := by decide +kernel

/-- The claim record of flyer 1's BOOKED claim, byte by byte (R187). -/
theorem test_claimRecord :
    recordBytes (with3 (claimOf .booked)) (.claims 3) =
      [25, 3, 1, 1, 0, 9, 0, 9, 0, 9, 0, 0, 50, 0, 0, 200, 0, 0, 0, 0, 0, 0, 0, 0, 0, 0, 0, 0, 0, 0, 0, 0] := by decide +kernel

/-- A BOOK's answer on MISO: QUEUED, the handle, and idle bytes; and a read's: OK, and then the record's bytes (R158, R183, R186). -/
theorem test_misoAnswers :
    let t := ran (.book 2 goodBox 1000 1 1500) (awaiting .showSel .book base)
    let r := ran .readHolds (awaiting .crewSel .readHolds base)
    [t.miso 0, t.miso 1, t.miso 2, t.miso 3] = [some 0x01, some 1, some 0xFF, some 0xFF] ∧ t.misoSelect = some .showSel ∧
      r.miso 0 = some 0x00 ∧ (ran .recordTaken r).miso 0 = some 0xFF ∧ base.miso 0 = none := by
  decide +kernel

/-- A tick that ends an ACTIVE claim whose flyer flies makes it OVERRUN and its grant DESCENT (R11). -/
theorem test_tickOverrun :
    let s := ticking .internal none none 10000 (clocked .running 199 flying)
    (ran .internalPeriodCompletion s).claimAt 3 = some (claimOf .overrun) ∧
      (ran .internalPeriodCompletion s).grantOf 0 = some { grant3 .travel 1 with kind := .descent } ∧
      (ran .internalPeriodCompletion s).attention.flags = 0x004 := by
  decide +kernel

/-- The top of the count ends the clock (R134). -/
theorem test_tickEnded :
    let t := ran .internalPeriodCompletion (ticking .internal none none 10000 (clocked .running 16777214 base))
    t.clock.count = 16777215 ∧ t.clock.run = .ended := by
  decide +kernel

/-- A completion of the running period is a tick from reset on, once the clock runs; the lease of a grant shortens by the time it takes (R101, R136). -/
theorem test_tickTakesItsTime :
    let t := ran .internalPeriodCompletion (ticking .internal none none 0 (granted .travel 250000 base))
    t.clock.count = 101 ∧ t.clock.period = some 0 ∧ t.grantOf 0 = some (grant3 .travel 240000) := by
  decide +kernel

/-- A LOST expiry removes the grant with LOST and records the alert (R88). -/
theorem test_lostExpiry :
    let t := ran (.lostExpiry 0) (channelled .late (some 30000) [] flying)
    t.channels[(0 : Flyer)].state = .lost ∧ t.channels[(0 : Flyer)].out = [.revoke 7 .lost] ∧ t.grantOf 0 = none ∧
      t.alert.count = 2 ∧ t.alert.latest = some { cause := .lost 0, tick := 100 } := by
  decide +kernel

/-- A granted ASK: the counter wraps, the permit of winch 0 rises, and the GRANT is queued (R97, R98). -/
theorem test_askGranted :
    let t := ran (.ask 0) (askingAtTop 1 1 0 .active)
    t.grantOf 0 = some { seq := 0, target := ⟨1, 1, 0⟩, segment := ⟨1, 1, 1, 1, 0, 5⟩, claim := h3, issued := .travel,
                         kind := .travel, lease := 250000 } ∧
      t.lines.permit[(0 : Winch)] = .high ∧ t.lines.permit[(1 : Winch)] = .low ∧
      t.channels[(0 : Flyer)].out = [.grant 0 ⟨1, 1, 0⟩ .travel] := by
  decide +kernel

/-- An intrusion holds the rig, ends the grant, and holds the claim (R112, R113). -/
theorem test_intrude :
    let t := ran (.report 0) (zoneAt 0 (reporting 9 9 9 0 flying))
    t.holds = [⟨.breach, 100⟩] ∧ t.clock.run = .frozen ∧ t.grantOf 0 = none ∧
      t.claimAt 3 = some (claimOf (.held .breach false)) ∧ t.lines.permit[(0 : Winch)] = .low ∧
      t.channels[(0 : Flyer)].out = [.revoke 7 .breach] := by
  decide +kernel

/-- The first hold removes the grant with HOLD and freezes the clock; the release of the last starts it (R119, R127). -/
theorem test_holdAndRelease :
    (ran .hold (awaiting .crewSel .hold flying)).holds = [⟨.crewHold, 100⟩] ∧
      (ran .hold (awaiting .crewSel .hold flying)).channels[(0 : Flyer)].out = [.revoke 7 .hold] ∧
      (ran .hold (awaiting .crewSel .hold flying)).clock.run = .frozen ∧
      (ran (.release 1) (heldBy .crewHold (awaiting .crewSel .release base))).clock.run = .running := by
  decide +kernel

/-- A walk past zone 7 opens a claim whose start has come, and raises both flags (R8, R12, R39). -/
theorem test_walkOpens :
    let t := ran .zonePhaseRead (passing 100 none)
    t.claimAt 3 = some { claimOf .active with start := 100, stop := none } ∧ t.admission = { queue := [], walk := none } ∧
      t.attention.flags = 0x003 := by
  decide +kernel

/-- A load into a full set evicts the victim, passing over a locked one (R149, R150). -/
theorem test_loadEvicts :
    let s := templated 4 1 (awaiting .showSel .loadTemplate base)
    let t := ran (.loadTemplate 79 1 goodBox 1 0) s
    t.templates.lastEvicted = some 31 ∧ t.attention.flags = 0x200 ∧
      (ways15 t)[(1 : Fin 4)].any (fun o => decide (o.cue = 79)) = true := by
  decide +kernel

/-- A raise is recorded with the status records shown and not yet judged (R166, R169). -/
theorem test_raiseRecorded :
    let s := ticking .external none (some 30000) 0 (shown 27)
    (ran .pulseWatchExpiry s).attention.flags = 0x080 ∧ (ran .pulseWatchExpiry s).attention.current = some ⟨0x002, 0x082⟩ := by
  decide +kernel

/-- A passing amendment whose new box loses the grant of a grounded flyer frees its OVERRUN claims with EXPIRED, and the claim held beside them is released (R13, R15, R41, R103). -/
theorem test_amendedGrantGone :
    let t := ran .zonePhaseRead (beside (amending .overrun ⟨none, some ⟨0, 9, 0, 9, 0, 4⟩⟩))
    t.claimAt 3 = none ∧ t.claimAt 4 = none ∧ t.claimAt 6 = some (rival .active) ∧ t.attention.flags = 0x00B ∧
      t.channels[(0 : Flyer)].out = [.revoke 7 .amended] := by
  decide +kernel

/-- A backup entry lowers every output and holds the claim RESTART (R17, R175). -/
theorem test_backupEntry :
    let t := ran .backupEntry flying
    t.claimAt 3 = some (claimOf (.held .restart false)) ∧ t.lines = { permit := Vector.replicate 16 .low, attn := .low, alert := .low } ∧
      t.holds = [⟨.restart, 100⟩] ∧ t.supply.firstEntry = some 100 ∧ t.supply.count = 1 := by
  decide +kernel

end Sys2Proof.Tests
end

section
/-! PROOF. The reads of the console port: how a read begins, what RECORD_TAKEN takes, and where a stream goes on (R163). -/

namespace Sys2Proof.Machine

/-- A command its select may issue takes the effect and the response its owner answers (R158). -/
theorem takeCommand_answers {s t : State} {sel : Select} {c : Command} {x : Transaction}
    {owner : Select → State → State × Transaction} (h : Awaits s sel c) (hp : sel = .showSel ∨ crewMay c = true)
    (ho : owner sel s = (t, x)) : takeCommand c owner s = .next (t.setTx sel x) := by
  rw [takeCommand_delivered h hp, ho]

/-! ## The beginning of a read -/

theorem takeCommand_startStream {s : State} {sel : Select} {c : Command} (h : Awaits s sel c) (hc : crewMay c = true)
    (k : ReadKind) : takeCommand c (fun _ t => startStream k t) s = .next (s.setTx sel (.stream k none)) :=
  takeCommand_answers h (.inr hc) rfl

/-- A read whose operand names a starting point streams from there. -/
theorem takeCommand_streamFrom_some {α : Type} {s : State} {sel : Select} {c : Command} {start : Option α} {a : α}
    (h : Awaits s sel c) (hc : crewMay c = true) (ha : start = some a) (k : α → ReadKind) :
    takeCommand c (fun _ t => streamFrom start k t) s = .next (s.setTx sel (.stream (k a) none)) := by
  subst ha
  exact takeCommand_startStream h hc (k a)

/-- A read whose operand names no starting point is answered BAD_OPERAND, with no effect. -/
theorem takeCommand_streamFrom_none {α : Type} {s : State} {sel : Select} {c : Command} {start : Option α}
    (h : Awaits s sel c) (hc : crewMay c = true) (hn : start = none) (k : α → ReadKind) :
    takeCommand c (fun _ t => streamFrom start k t) s = .next (answered s sel .badOperand) := by
  subst hn
  exact takeCommand_answers h (.inr hc) rfl

/-- The four reads of a single record begin to stream it. -/
theorem exec_singleRead (s : State) (sel : Select) :
    (Awaits s sel .status → exec .status s = .next (s.setTx sel (.stream .status none))) ∧
    (Awaits s sel .readHolds → exec .readHolds s = .next (s.setTx sel (.stream .holds none))) ∧
    (Awaits s sel .readAlert → exec .readAlert s = .next (s.setTx sel (.stream .alert none))) ∧
    (Awaits s sel .readSupply → exec .readSupply s = .next (s.setTx sel (.stream .supply none))) :=
  ⟨fun h => takeCommand_startStream h rfl .status, fun h => takeCommand_startStream h rfl .holds,
    fun h => takeCommand_startStream h rfl .alert, fun h => takeCommand_startStream h rfl .supply⟩

/-! ## Taking a record -/

/-- The record taken is of the state as it stands; the flags it shows are noted for a STATUS of the SHOW select alone (R163, R169). -/
theorem takeRecord_eq (sel : Select) (k : ReadKind) (s : State) :
    takeRecord sel k s = { s.setTx sel (.stream k.after (some (recordBytes s k))) with
      attention :=
        if sel = .showSel ∧ k = .status then
          { s.attention with whole := s.attention.current, current := some { flags := s.attention.flags, raised := 0 } }
        else s.attention } := by
  unfold takeRecord
  cases sel with
  | showSel =>
    by_cases hk : k = .status
    · subst hk; rfl
    · simp only [hk, decide_false, Bool.and_false, Bool.false_eq_true, if_false, and_false]; rfl
  | crewSel => simp only [reduceCtorEq, decide_false, Bool.false_and, Bool.false_eq_true, if_false, false_and]; rfl

/-- RECORD_TAKEN takes the next record of the one open stream (R157, R163). -/
theorem exec_recordTaken_stream {s : State} {sel : Select} {k : ReadKind} {r : Option (List Byte)} (hr : Runs s)
    (hs : s.tx sel = .stream k r) (ho : s.tx sel.other = .idle) : exec .recordTaken s = .next (takeRecord sel k s) := by
  have run : s.running = true := (runs_iff s).mp hr
  show execRecordTaken s = _
  unfold execRecordTaken
  cases sel with
  | showSel =>
    have show_stream : s.console.showTx = .stream k r := hs
    simp only [run, show_stream, Bool.not_true, Bool.false_eq_true, if_false]
  | crewSel =>
    have crew_stream : s.console.crewTx = .stream k r := hs
    have show_idle : s.console.showTx = .idle := ho
    simp only [run, show_idle, crew_stream, Bool.not_true, Bool.false_eq_true, if_false]

/-! ## Where a stream goes on -/

/-- The number after i, wrapping past the last below n. -/
theorem succ_eq_of_val_mod {n : Nat} {i j : Fin (n + 2)} (h : j.val = (i.val + 1) % (n + 2)) : i + 1 = j := by
  apply Fin.ext
  rw [h, Fin.val_add]
  rfl

/-- Each stream of many records goes on by one and wraps; a read of a single record streams it again. -/
theorem after_advances :
    (∀ i j : Slot, j.val = (i.val + 1) % 32 → (ReadKind.claims i).after = .claims j) ∧
    (∀ z y : Zone, y.val = (z.val + 1) % 8 → (ReadKind.zones z).after = .zones y) ∧
    (∀ f g : Flyer, g.val = (f.val + 1) % 8 → (ReadKind.flyers f).after = .flyers g) ∧
    (∀ k l : Fin 16, l.val = (k.val + 1) % 16 → (ReadKind.templates k).after = .templates l) ∧
    ReadKind.status.after = .status ∧ ReadKind.holds.after = .holds ∧ ReadKind.alert.after = .alert ∧
    ReadKind.supply.after = .supply :=
  ⟨fun _ _ h => congrArg ReadKind.claims (succ_eq_of_val_mod h), fun _ _ h => congrArg ReadKind.zones (succ_eq_of_val_mod h),
    fun _ _ h => congrArg ReadKind.flyers (succ_eq_of_val_mod h),
    fun _ _ h => congrArg ReadKind.templates (succ_eq_of_val_mod h), rfl, rfl, rfl, rfl⟩

/-- Settles O5: each read is delivered to the owner that starts its stream, RECORD_TAKEN finds the one open stream, and the wrap of a stream is that of its index. -/
theorem readsStreamRecords : Obligations.ReadsStreamRecords := by
  unfold Obligations.ReadsStreamRecords
  refine ⟨⟨exec_singleRead, fun s sel b => ⟨fun h => ⟨fun i hi => ?_, fun hb => ?_⟩, fun h => ⟨fun z hz => ?_, fun hb => ?_⟩,
    fun h => ⟨fun f hf => ?_, fun hb => ?_⟩, fun h => ⟨fun k hk => ?_, fun hb => ?_⟩⟩⟩, fun s sel k r hr hs ho => ?_, after_advances⟩
  · exact takeCommand_streamFrom_some h rfl (slotOf_number hi) .claims
  · exact takeCommand_streamFrom_none h rfl (slotOf_none hb) .claims
  · exact takeCommand_streamFrom_some h rfl (zoneOf_number hz) .zones
  · exact takeCommand_streamFrom_none h rfl (zoneOf_none hb) .zones
  · exact takeCommand_streamFrom_some h rfl (flyerOf_number hf) .flyers
  · exact takeCommand_streamFrom_none h rfl (flyerOf_none hb) .flyers
  · exact takeCommand_streamFrom_some h rfl (setOf_number hk) .templates
  · exact takeCommand_streamFrom_none h rfl (setOf_none hb) .templates
  · rw [exec_recordTaken_stream hr hs ho, takeRecord_eq]

end Sys2Proof.Machine
end

section
/-! PROOF. BIND and UNBIND: one lemma for each test that fails, in the order the tests are judged, and one for the effect (R65, R67). -/

namespace Sys2Proof.Machine

/-! ## The judgement of a flyer, shared by BIND and UNBIND -/

/-- The last tests of BIND and of UNBIND, on the flyer whose bound winches would change: it must be grounded and without a live grant; then the effect is `bound` (R65, R67). -/
def judgeFlyer (f : Flyer) (bound : State × Transaction) (s : State) : State × Transaction :=
  if !s.groundedFlyer f then refuse .airborne s
  else if (s.grantOf f).isSome then refuse .grantLive s
  else bound

section
variable {s : State} {f : Flyer} {bound : State × Transaction}

theorem judgeFlyer_airborne (hg : s.flyers[f].grounded = false) :
    judgeFlyer f bound s = (s, answer .airborne) := by
  simp only [judgeFlyer, State.groundedFlyer, hg, Bool.not_false, if_true, refuse]

theorem judgeFlyer_grantLive (hg : s.flyers[f].grounded = true) (hl : s.grantOf f ≠ none) :
    judgeFlyer f bound s = (s, answer .grantLive) := by
  simp only [judgeFlyer, State.groundedFlyer, hg, Bool.not_true, Bool.false_eq_true, if_false,
    Option.isSome_iff_ne_none.mpr hl, if_true, refuse]

theorem judgeFlyer_settled (hg : s.flyers[f].grounded = true) (hl : s.grantOf f = none) :
    judgeFlyer f bound s = bound := by
  simp only [judgeFlyer, State.groundedFlyer, hg, hl, Bool.not_true, Option.isSome_none, Bool.false_eq_true, if_false]

end

/-! ## BIND -/

theorem bindWinch_full {s : State} {f : Flyer} (w : Winch) (hn : 4 ≤ (s.boundWinches f).length) :
    bindWinch f w s = (s, answer .bindingFull) :=
  if_pos hn

/-- With room for one more winch, BIND judges the flyer it names. -/
theorem bindWinch_room {s : State} {f : Flyer} (w : Winch) (hn : (s.boundWinches f).length < 4) :
    bindWinch f w s = judgeFlyer f (s.setBinding w (some f), answer .ok) s :=
  if_neg (Nat.not_le.mpr hn)

/-- What BIND answers at the SHOW select is what its tests answer. -/
theorem exec_bind_answers {s t : State} {fb wb : Byte} {x : Transaction} (h : Awaits s .showSel .bind)
    (ho : bindOperands fb wb s = (t, x)) : exec (.bind fb wb) s = .next (t.setTx .showSel x) :=
  takeCommand_answers h (.inl rfl) ho

theorem bindOperands_outOfRange {s : State} {fb wb : Byte} (hb : fb.toNat = 0 ∨ 8 < fb.toNat ∨ 15 < wb.toNat) :
    bindOperands fb wb s = (s, answer .badOperand) := by
  unfold bindOperands
  rcases hb with hz | hf | hw
  · rw [flyerOf_none (.inl hz)]; rfl
  · rw [flyerOf_none (.inr hf)]; rfl
  · rw [winchOf_none hw]
    cases flyerOf fb <;> rfl

section
variable {s : State} {fb wb : Byte} {f : Flyer} {w : Winch} (hf : fb.toNat = flyerNumber f) (hw : wb.toNat = w.val)
include hf hw

theorem bindOperands_protected (he : s.effective = .hard) : bindOperands fb wb s = (s, answer .protected_) := by
  simp only [bindOperands, flyerOf_number hf, winchOf_number hw, he, if_true, refuse]

theorem bindOperands_boundElsewhere (he : s.effective ≠ .hard) {g : Flyer} (hb : s.bindings[w] = some g) (hg : g ≠ f) :
    bindOperands fb wb s = (s, answer .wrongState) := by
  simp only [bindOperands, flyerOf_number hf, winchOf_number hw, he, hb, hg, if_false, refuse]

theorem bindOperands_boundAlready (he : s.effective ≠ .hard) (hb : s.bindings[w] = some f) :
    bindOperands fb wb s = (s, answer .ok) := by
  simp only [bindOperands, flyerOf_number hf, winchOf_number hw, he, hb, if_false, if_true]

theorem bindOperands_unbound (he : s.effective ≠ .hard) (hb : s.bindings[w] = none) :
    bindOperands fb wb s = bindWinch f w s := by
  simp only [bindOperands, flyerOf_number hf, winchOf_number hw, he, hb, if_false]

end

/-! ## UNBIND -/

/-- What UNBIND answers at the SHOW select is what its tests answer. -/
theorem exec_unbind_answers {s t : State} {wb : Byte} {x : Transaction} (h : Awaits s .showSel .unbind)
    (ho : unbindOperand wb s = (t, x)) : exec (.unbind wb) s = .next (t.setTx .showSel x) :=
  takeCommand_answers h (.inl rfl) ho

theorem unbindOperand_outOfRange {s : State} {wb : Byte} (hb : 15 < wb.toNat) :
    unbindOperand wb s = (s, answer .badOperand) := by
  simp only [unbindOperand, winchOf_none hb, refuse]

section
variable {s : State} {wb : Byte} {w : Winch} (hw : wb.toNat = w.val)
include hw

theorem unbindOperand_protected (he : s.effective = .hard) : unbindOperand wb s = (s, answer .protected_) := by
  simp only [unbindOperand, winchOf_number hw, he, if_true, refuse]

theorem unbindOperand_unbound (he : s.effective ≠ .hard) (hb : s.bindings[w] = none) :
    unbindOperand wb s = (s, answer .wrongState) := by
  simp only [unbindOperand, winchOf_number hw, he, hb, if_false, refuse]

/-- On a bound winch, UNBIND judges the flyer it is bound to. -/
theorem unbindOperand_bound (he : s.effective ≠ .hard) {f : Flyer} (hb : s.bindings[w] = some f) :
    unbindOperand wb s = judgeFlyer f (s.setBinding w none, answer .ok) s := by
  simp only [unbindOperand, winchOf_number hw, he, hb, if_false, judgeFlyer]

end

/-! ## The statement -/

/-- Settles O27: the tests are judged one after the other, each where the earlier ones have passed, and the outcome at each is a lemma above. -/
theorem bindAndUnbind : Obligations.BindAndUnbind := by
  unfold Obligations.BindAndUnbind
  constructor
  case left =>
    intro s fb wb
    refine ⟨fun h => takeCommand_privilege h rfl _, fun h => ⟨fun hb => ?_, fun f w hf hw => ⟨fun he => ?_, fun he => ?_⟩⟩⟩
    · exact exec_bind_answers h (bindOperands_outOfRange hb)
    · exact exec_bind_answers h (bindOperands_protected hf hw he)
    refine ⟨fun g hb hg => ?_, fun hb => ?_, fun hb => ?_⟩
    · exact exec_bind_answers h (bindOperands_boundElsewhere hf hw he hb hg)
    · exact exec_bind_answers h (bindOperands_boundAlready hf hw he hb)
    have unbound := bindOperands_unbound hf hw he hb
    refine ⟨fun hn => exec_bind_answers h (unbound.trans (bindWinch_full w hn)), fun hn => ?_⟩
    have judged := unbound.trans (bindWinch_room w hn)
    refine ⟨fun hg => ?_, fun hg => ⟨fun hl => ?_, fun hl => ?_⟩⟩
    · exact exec_bind_answers h (judged.trans (judgeFlyer_airborne hg))
    · exact exec_bind_answers h (judged.trans (judgeFlyer_grantLive hg hl))
    · exact exec_bind_answers h (judged.trans (judgeFlyer_settled hg hl))
  case right =>
    intro s wb
    refine ⟨fun h => takeCommand_privilege h rfl _, fun h => ⟨fun hb => ?_, fun w hw => ⟨fun he => ?_, fun he => ?_⟩⟩⟩
    · exact exec_unbind_answers h (unbindOperand_outOfRange hb)
    · exact exec_unbind_answers h (unbindOperand_protected hw he)
    refine ⟨fun hb => exec_unbind_answers h (unbindOperand_unbound hw he hb), fun f hb => ?_⟩
    have judged := unbindOperand_bound hw he hb
    refine ⟨fun hg => ?_, fun hg => ⟨fun hl => ?_, fun hl => ?_⟩⟩
    · exact exec_unbind_answers h (judged.trans (judgeFlyer_airborne hg))
    · exact exec_unbind_answers h (judged.trans (judgeFlyer_grantLive hg hl))
    · exact exec_unbind_answers h (judged.trans (judgeFlyer_settled hg hl))

end Sys2Proof.Machine
end

section
/-! PROOF. CLEAR_BREACH and REOPEN: the operand's range, the state each asks for, and the one record each changes (R89, R116). -/

namespace Sys2Proof.Machine

/-! ## CLEAR_BREACH -/

/-- What CLEAR_BREACH answers at the SHOW select is what its tests answer. -/
theorem exec_clearBreach_answers {s t : State} {fb : Byte} {x : Transaction} (h : Awaits s .showSel .clearBreach)
    (ho : clearBreachOperand fb s = (t, x)) : exec (.clearBreach fb) s = .next (t.setTx .showSel x) :=
  takeCommand_answers h (.inl rfl) ho

theorem clearBreachOperand_outOfRange {s : State} {fb : Byte} (hb : fb.toNat = 0 ∨ 8 < fb.toNat) :
    clearBreachOperand fb s = (s, answer .badOperand) := by
  simp only [clearBreachOperand, flyerOf_none hb, refuse]

section
variable {s : State} {fb : Byte} {f : Flyer} (hf : fb.toNat = flyerNumber f)
include hf

theorem clearBreachOperand_noBreach (hn : s.flyers[f].breach = none) :
    clearBreachOperand fb s = (s, answer .wrongState) := by
  simp only [clearBreachOperand, flyerOf_number hf, State.breached, hn, Option.isSome_none, Bool.false_eq_true,
    if_false, refuse]

/-- The record alone is removed: the flyer's other fields are kept. -/
theorem clearBreachOperand_breached (hr : s.flyers[f].breach ≠ none) :
    clearBreachOperand fb s = (s.setFlyer f { s.flyers[f] with breach := none }, answer .ok) := by
  simp only [clearBreachOperand, flyerOf_number hf, State.breached, Option.isSome_iff_ne_none.mpr hr, if_true]

end

/-! ## REOPEN -/

/-- What REOPEN answers at the SHOW select is what its tests answer. -/
theorem exec_reopen_answers {s t : State} {cb : Byte} {x : Transaction} (h : Awaits s .showSel .reopen)
    (ho : reopenOperand cb s = (t, x)) : exec (.reopen cb) s = .next (t.setTx .showSel x) :=
  takeCommand_answers h (.inl rfl) ho

theorem reopenOperand_outOfRange {s : State} {cb : Byte} (hb : cb.toNat = 0 ∨ 8 < cb.toNat) :
    reopenOperand cb s = (s, answer .badOperand) := by
  simp only [reopenOperand, flyerOf_none hb, refuse]

section
variable {s : State} {cb : Byte} {c : Flyer} (hc : cb.toNat = flyerNumber c)
include hc

theorem reopenOperand_notLost (hl : s.channels[c].state ≠ .lost) :
    reopenOperand cb s = (s, answer .wrongState) := by
  simp only [reopenOperand, flyerOf_number hc, hl, if_false, refuse]

/-- The channel goes OPEN with its report timer disarmed: its lists and its receiver are kept. -/
theorem reopenOperand_lost (hl : s.channels[c].state = .lost) :
    reopenOperand cb s = (s.setChannel c { s.channels[c] with state := .opened, timer := none }, answer .ok) := by
  simp only [reopenOperand, flyerOf_number hc, hl, if_true]

end

/-! ## The statement -/

/-- Settles O28: each command is delivered to its owner, whose outcome is the lemma of the case; the crew may not issue CLEAR_BREACH. -/
theorem clearBreachAndReopen : Obligations.ClearBreachAndReopen := by
  unfold Obligations.ClearBreachAndReopen
  constructor
  case left =>
    intro s fb
    refine ⟨fun h => takeCommand_privilege h rfl _, fun h => ⟨fun hb => ?_, fun f hf => ⟨fun hn => ?_, fun hr => ?_⟩⟩⟩
    · exact exec_clearBreach_answers h (clearBreachOperand_outOfRange hb)
    · exact exec_clearBreach_answers h (clearBreachOperand_noBreach hf hn)
    · exact exec_clearBreach_answers h (clearBreachOperand_breached hf hr)
  case right =>
    intro s cb h
    refine ⟨fun hb => ?_, fun c hc => ⟨fun hl => ?_, fun hl => ?_⟩⟩
    · exact exec_reopen_answers h (reopenOperand_outOfRange hb)
    · exact exec_reopen_answers h (reopenOperand_notLost hc hl)
    · exact exec_reopen_answers h (reopenOperand_lost hc hl)

end Sys2Proof.Machine
end

section
/-! PROOF. The service of an ASK: the tests in their order, each with the judgement it gives, and what a denial and an issue write (R96 to R99). -/

namespace Sys2Proof.Machine

/-! ## The tests, each where the earlier ones have passed (R96) -/

section
variable {s : State} {f : Flyer} {target : Cell}

theorem judgeAsk_outside (ht : target.inGrid = false) : judgeAsk f target s = .deny .badTarget := by
  simp only [judgeAsk, ht, Bool.not_false, if_true]

variable (ht : target.inGrid = true)
include ht

theorem judgeAsk_held (hh : s.holds ≠ []) : judgeAsk f target s = .deny .held := by
  simp only [judgeAsk, ht, List.isEmpty_eq_false_iff.mpr hh, Bool.not_true, Bool.not_false, Bool.false_eq_true,
    if_false, if_true]

variable (hh : s.holds = [])
include hh

theorem judgeAsk_channel {r : Reason} (hc : channelRefusal s.channels[f].state = some r) :
    judgeAsk f target s = .deny r := by
  simp only [judgeAsk, ht, hh, hc, List.isEmpty_nil, Bool.not_true, Bool.false_eq_true, if_false]

variable (hc : s.channels[f].state = .live)
include hc

theorem judgeAsk_breached (hb : s.flyers[f].breach ≠ none) : judgeAsk f target s = .deny .breached := by
  simp only [judgeAsk, ht, hh, hc, channelRefusal, State.breached, Option.isSome_iff_ne_none.mpr hb, List.isEmpty_nil,
    Bool.not_true, Bool.false_eq_true, if_false, if_true]

variable (hb : s.flyers[f].breach = none)
include hb

theorem judgeAsk_unbound (hw : ∀ w : Winch, s.bindings[w] ≠ some f) : judgeAsk f target s = .deny .unbound := by
  have none_bound : s.boundWinches f = [] :=
    List.filter_eq_nil_iff.mpr fun w _ => by rw [decide_eq_true_eq]; exact hw w
  simp only [judgeAsk, ht, hh, hc, channelRefusal, State.breached, hb, none_bound, Option.isSome_none, List.isEmpty_nil,
    Bool.not_true, Bool.false_eq_true, if_false, if_true]

/-- Past the first seven tests an ASK is judged by its segment. -/
theorem judgeAsk_segment {w : Winch} (hw : s.bindings[w] = some f) : judgeAsk f target s = judgeSegment f target s := by
  simp only [judgeAsk, ht, hh, hc, channelRefusal, State.breached, hb, bound_nonempty hw, Option.isSome_none,
    List.isEmpty_nil, Bool.not_true, Bool.false_eq_true, if_false]

end

/-! ## The segment's judgement (R97) -/

section
variable {s : State} {f : Flyer} {origin target : Cell} (hp : s.flyers[f].position = some origin)
include hp

theorem judgeSegment_travel {i : Slot} (ha : s.segmentSlot f .active (segmentBox origin target) = some i) :
    judgeSegment f target s = .grant .travel origin i := by
  simp only [judgeSegment, hp, ha]

variable (ha : s.segmentSlot f .active (segmentBox origin target) = none)
include ha

theorem judgeSegment_noClaim (ho : s.segmentSlot f .overrun (segmentBox origin target) = none) :
    judgeSegment f target s = .deny .noClaim := by
  simp only [judgeSegment, hp, ha, ho]

variable {i : Slot} (ho : s.segmentSlot f .overrun (segmentBox origin target) = some i)
include ho

theorem judgeSegment_descent (hd : straightDown origin target = true) :
    judgeSegment f target s = .grant .descent origin i := by
  simp only [judgeSegment, hp, ha, ho, hd, if_true]

theorem judgeSegment_descentOnly (hd : straightDown origin target = false) :
    judgeSegment f target s = .deny .descentOnly := by
  simp only [judgeSegment, hp, ha, ho, hd, Bool.false_eq_true, if_false]

end

/-! ## The answer -/

/-- The judgement of an ASK reads the holds, the asking channel's state, the flyer records, the bindings and the slots alone (R96). -/
theorem judgeAsk_congr (f : Flyer) (target : Cell) {s u : State} (hholds : u.holds = s.holds)
    (hchannel : u.channels[f].state = s.channels[f].state) (hflyers : u.flyers = s.flyers)
    (hbindings : u.bindings = s.bindings) (hslots : u.slots = s.slots) : judgeAsk f target u = judgeAsk f target s := by
  unfold judgeAsk judgeSegment State.breached State.boundWinches State.segmentSlot State.claimAt
  rw [hholds, hchannel, hflyers, hbindings, hslots]

/-- A frame queued on a channel just written joins the outgoing queue that was written. -/
theorem queueFrame_setChannel (c : Flyer) (o : OutFrame) (r : Channel) (s : State) :
    queueFrame c o (s.setChannel c r) = s.setChannel c { r with out := r.out ++ [o] } := by
  simp [queueFrame, State.setChannel]

section
variable {s : State} {c : Flyer} {x y z : Byte} {rest : List InFrame}
  (hi : s.channels[c].inbound = .ask x y z :: rest) (hg : s.grantsChannel c = true)
include hi

/-- The service of an ASK takes the arbiter's turn and the frame from the list (R24, R82). -/
theorem dropHead_serveChannel_ask :
    dropHead c (serveChannel c s) = (serveChannel c s).setChannel c { s.channels[c] with inbound := rest } := by
  show (serveChannel c s).setChannel c { s.channels[c] with inbound := s.channels[c].inbound.drop 1 } = _
  rw [hi, List.drop_one, List.tail_cons]

/-- The service leaves the judgement as it was. -/
theorem judgeAsk_served (target : Cell) : judgeAsk c target (dropHead c (serveChannel c s)) = judgeAsk c target s := by
  refine judgeAsk_congr c target rfl ?_ rfl rfl rfl
  rw [dropHead_serveChannel_ask hi, setChannel_get, if_pos rfl]

include hg

theorem ask_exec_denied {r : Reason} (hj : judgeAsk c (cellOf x y z) s = .deny r) :
    exec (.ask c) s = .next
      ((serveChannel c s).setChannel c { s.channels[c] with inbound := rest, out := s.channels[c].out ++ [.deny r] }) := by
  rw [ask_exec hi hg]
  simp only [answerAsk, judgeAsk_served hi, hj]
  rw [dropHead_serveChannel_ask hi, queueFrame_setChannel]

/-- An issue writes the grant record, drives the permits and queues the GRANT; the claims and the counter it reads are those before the service (R98). -/
theorem ask_exec_granted {kind : GrantKind} {origin : Cell} {i : Slot} {g : Grant}
    (hj : judgeAsk c (cellOf x y z) s = .grant kind origin i) (hr : issuedGrant c kind origin (cellOf x y z) i s = g) :
    exec (.ask c) s = .next
      ((drivePermits c .high ((serveChannel c s).setGrant c { seq := g.seq, live := some g })).setChannel c
        { s.channels[c] with inbound := rest, out := s.channels[c].out ++ [.grant g.seq (cellOf x y z) kind] }) := by
  subst hr
  rw [ask_exec hi hg]
  simp only [answerAsk, judgeAsk_served hi, hj]
  rw [dropHead_serveChannel_ask hi]
  exact congrArg _ (queueFrame_setChannel c _ _ (drivePermits c .high ((serveChannel c s).setGrant c _)))

end

/-! ## The statements -/

/-- Settles O33: the frame is dropped and the DENY queued with the judgement's reason; each alternative is the lemma of the first test that fails. -/
theorem askDenied : Obligations.AskDenied := by
  unfold Obligations.AskDenied
  intro s c x y z rest r _ hi hg hfail
  refine ask_exec_denied hi hg ?_
  rw [← inGrid_iff] at hfail
  obtain ⟨ht, rfl⟩ | ⟨ht, hfail⟩ := hfail
  · exact judgeAsk_outside (Bool.eq_false_iff.mpr ht)
  obtain ⟨hh, rfl⟩ | ⟨hh, hfail⟩ := hfail
  · exact judgeAsk_held ht hh
  obtain ⟨hc, rfl⟩ | ⟨hc, rfl⟩ | ⟨hc, rfl⟩ | ⟨hc, hfail⟩ := hfail
  · exact judgeAsk_channel ht hh (by rw [hc]; rfl)
  · exact judgeAsk_channel ht hh (by rw [hc]; rfl)
  · exact judgeAsk_channel ht hh (by rw [hc]; rfl)
  obtain ⟨hb, rfl⟩ | ⟨hb, hfail⟩ := hfail
  · exact judgeAsk_breached ht hh hc hb
  obtain ⟨hw, rfl⟩ | ⟨w, p, hw, hp, hfail⟩ := hfail
  · exact judgeAsk_unbound ht hh hc hb hw
  rw [judgeAsk_segment ht hh hc hb hw]
  obtain ⟨hn, rfl⟩ | ⟨ho, ha, hd, rfl⟩ := hfail
  · have no_claim {st : ClaimState} (hst : st.inForce = true) : s.segmentSlot c st (segmentBox p (cellOf x y z)) = none :=
      segmentSlot_none fun j d hj hf hs => hn j d hj hf (hs ▸ hst)
    exact judgeSegment_noClaim hp (no_claim rfl) (no_claim rfl)
  · obtain ⟨i, found⟩ := segmentSlot_exists ho
    exact judgeSegment_descentOnly hp (segmentSlot_none ha) found hd

/-- Settles O34: past the first seven tests the segment decides; the claim of the hypotheses is the one `segmentSlot` finds, and the issue writes the rest. -/
theorem askGranted : Obligations.AskGranted := by
  unfold Obligations.AskGranted
  intro s c x y z rest p w i d kind q _ hi hg hx hy hz hh hc hb hw hp hd hf hbox hkind hlow hq
  subst hq
  refine ask_exec_granted hi hg (origin := p) (i := i) ?_ rfl
  rw [judgeAsk_segment ((inGrid_iff x y z).mpr ⟨hx, hy, hz⟩) hh hc hb hw]
  have found : s.segmentSlot c d.state (segmentBox p (cellOf x y z)) = some i := segmentSlot_some hd hf rfl hbox hlow
  obtain ⟨hs, rfl⟩ | ⟨hs, rfl, hdown, ha⟩ := hkind
  · exact judgeSegment_travel hp (hs ▸ found)
  · exact judgeSegment_descent hp (segmentSlot_none ha) (hs ▸ found) hdown

end Sys2Proof.Machine
end

section
/-! PROOF. The judgement of a REPORT: the intrusion test, the compliance test case by case, and the classification that puts INTRUDE first (R108 to R111). -/

namespace Sys2Proof.Machine

/-! ## The intrusion test (R110) -/

theorem zoneHolding_isSome_iff (s : State) (cell : Cell) :
    (s.zoneHolding cell).isSome = true ↔
      ∃ (z : Zone) (a : FixedBox) (r : Option FixedBox) (v : Option Handle),
        s.zones[z] = .set a r v ∧ a.box.containsCell cell = true := by
  have in_set (z : Zone) : s.zones[z].inForce.any (fun b => b.containsCell cell) = true ↔
      ∃ (a : FixedBox) (r : Option FixedBox) (v : Option Handle), s.zones[z] = .set a r v ∧ a.box.containsCell cell = true := by
    cases s.zones[z] <;> simp [ZoneSlot.inForce]
  simp only [State.zoneHolding, allZones, List.find?_isSome, List.mem_finRange, true_and, in_set]

theorem inOwnClaim_iff (s : State) (f : Flyer) (p : ClaimState → Bool) (cell : Cell) :
    s.inOwnClaim f p cell = true ↔
      ∃ (j : Slot) (d : Claim), s.claimAt j = some d ∧ d.flyer = f ∧ p d.state = true ∧ d.box.containsCell cell = true := by
  simp only [State.inOwnClaim, anyClaim_iff, Bool.and_eq_true, decide_eq_true_eq, and_assoc]

/-- An intrusion lies in a SET zone, or in the region of another flyer's begun claim; of a HELD one, only where the reporting flyer does not overstay. -/
theorem intrudes_iff (s : State) (f : Flyer) (cell : Cell) :
    intrudes f cell s = true ↔
      (∃ (z : Zone) (a : FixedBox) (r : Option FixedBox) (v : Option Handle),
        s.zones[z] = .set a r v ∧ a.box.containsCell cell = true) ∨
      ∃ (j : Slot) (d : Claim), s.claimAt j = some d ∧ d.flyer ≠ f ∧ d.state.begun = true ∧
        d.region.containsCell cell = true ∧
        ¬ (d.state.isHeld = true ∧ ∃ (k : Slot) (e : Claim), s.claimAt k = some e ∧ e.flyer = f ∧
            e.state.overstaying = true ∧ e.box.containsCell cell = true) := by
  unfold intrudes
  rw [Bool.or_eq_true, zoneHolding_isSome_iff, anyClaim_iff]
  simp only [← inOwnClaim_iff s f ClaimState.overstaying, Bool.and_eq_true, Bool.not_eq_true', decide_eq_true_eq,
    and_assoc, ← Bool.not_eq_true]

/-! ## The compliance test (R109) -/

section
variable {s : State} {f : Flyer} {cell : Cell}

theorem compliance_outside (hc : cell.inGrid = false) : compliance f cell s = some .escape := by
  simp only [compliance, hc, Bool.not_false, if_true]

variable (hc : cell.inGrid = true)
include hc

theorem compliance_granted {g : Grant} (hg : s.grantOf f = some g) :
    compliance f cell s = if g.segment.containsCell cell = true then none else some .escape := by
  simp only [compliance, hc, hg, Bool.not_true, Bool.false_eq_true, if_false]

variable (hg : s.grantOf f = none)
include hg

theorem compliance_placed {p : Cell} (hp : s.flyers[f].position = some p) :
    compliance f cell s = if cell = p then none else some .drift := by
  simp only [compliance, hc, hg, hp, Bool.not_true, Bool.false_eq_true, if_false]

theorem compliance_firstReport (hp : s.flyers[f].position = none) :
    compliance f cell s = if s.inOwnClaim f ClaimState.begun cell = true then none else some .escape := by
  simp only [compliance, hc, hg, hp, Bool.not_true, Bool.false_eq_true, if_false]

end

/-! ## The statement -/

/-- Settles O35: INTRUDE where the intrusion test finds one, else the outcome of the compliance test, whose alternatives are the lemmas above; a grounded report is not judged. -/
theorem reportJudgement : Obligations.ReportJudgement := by
  unfold Obligations.ReportJudgement
  intro s f cell intr kind hintr hcase
  rw [← intrudes_iff] at hintr
  refine ⟨?_, rfl⟩
  change classify f cell s = kind
  unfold classify
  obtain ⟨hi, rfl⟩ | ⟨hi, hcase⟩ := hcase
  · exact if_pos (hintr.mp hi)
  rw [if_neg (mt hintr.mpr hi)]
  obtain ⟨hc, rfl⟩ | ⟨hc, hcase⟩ := hcase
  · exact compliance_outside hc
  obtain ⟨g, hg, rfl⟩ | ⟨hg, ⟨p, hp, rfl⟩ | ⟨hp, hcase⟩⟩ := hcase
  · exact compliance_granted hc hg
  · exact compliance_placed hc hg hp
  rw [compliance_firstReport hc hg hp]
  obtain ⟨hin, rfl⟩ | ⟨hout, rfl⟩ := hcase
  · exact if_pos ((inOwnClaim_iff s f ClaimState.begun cell).mpr hin)
  · refine if_neg fun hin => ?_
    obtain ⟨j, d, hj, hf, hb, hbox⟩ := (inOwnClaim_iff s f ClaimState.begun cell).mp hin
    rw [hout j d hj hf hb] at hbox
    exact absurd hbox Bool.false_ne_true

end Sys2Proof.Machine
end

section
/-! PROOF. RELEASE: the tests in their order, when each source is clear, and the removal of an entry with what an emptied list does to the clock (R125, R126, R127). -/

namespace Sys2Proof.Machine

/-! ## The operand, the crew's sources and the clearance -/

theorem holdSourceOf_none {b : Byte} (h : 5 < b.toNat) : holdSourceOf b = none := by
  simp (disch := omega) only [holdSourceOf, if_neg]

/-- The crew may release its own hold and RING, and no other source (R125). -/
theorem crewMayRelease_iff (src : HoldSource) : crewMayRelease src = true ↔ src = .crewHold ∨ src = .ring := by
  cases src <;> decide

/-- A source is clear exactly when its line stands deasserted and, for BREACH, no breach record carries the intrusion flag (R126). -/
theorem releaseClear_iff (src : HoldSource) (s : State) :
    releaseClear src s = true ↔
      (src = .ring → s.inputs.ring = false) ∧ (src = .stop → s.inputs.stop = false) ∧
      (src = .breach → ∀ (f : Flyer) (r : BreachRec), s.flyers[f].breach = some r → r.intrusion = false) := by
  cases src with
  | breach => simp [releaseClear, allFlyers, Option.any_eq_false]
  | ring | stop | showHold | crewHold | restart => simp [releaseClear]

theorem releaseClear_blocked {src : HoldSource} {s : State}
    (hb : (src = .ring ∧ s.inputs.ring = true) ∨ (src = .stop ∧ s.inputs.stop = true) ∨
      (src = .breach ∧ ∃ (f : Flyer) (r : BreachRec), s.flyers[f].breach = some r ∧ r.intrusion = true)) :
    releaseClear src s = false := by
  refine Bool.eq_false_iff.mpr fun hclear => ?_
  obtain ⟨ring_low, stop_low, no_intrusion⟩ := (releaseClear_iff src s).mp hclear
  obtain ⟨hs, high⟩ | ⟨hs, high⟩ | ⟨hs, f, r, hr, intrusion⟩ := hb
  · exact Bool.false_ne_true ((ring_low hs).symm.trans high)
  · exact Bool.false_ne_true ((stop_low hs).symm.trans high)
  · exact Bool.false_ne_true ((no_intrusion hs f r hr).symm.trans intrusion)

/-! ## The removal of an entry -/

/-- Taking a source from the list empties it exactly when every entry is of that source. -/
theorem removed_isEmpty_iff (holds : List HoldEntry) (src : HoldSource) :
    (holds.filter (fun h => decide (h.source ≠ src))).isEmpty = true ↔ ∀ h ∈ holds, h.source = src := by
  simp only [List.isEmpty_iff, List.filter_eq_nil_iff, decide_eq_true_eq, Decidable.not_not]

theorem thawClock_eq (s : State) :
    thawClock s = s.setClock { s.clock with run := if s.clock.run = .frozen then .running else s.clock.run } := by
  unfold thawClock
  split <;> rfl

/-- The entry leaves, HOLDS_CHANGED is raised, and a FROZEN clock whose last hold this was runs (R125, R127). -/
theorem removeHold_eq (src : HoldSource) (s : State) :
    removeHold src s = driveLines { s with
      holds := s.holds.filter (fun h => decide (h.source ≠ src))
      clock := { s.clock with run :=
        if (∀ h ∈ s.holds, h.source = src) ∧ s.clock.run = .frozen then .running else s.clock.run }
      attention := raisedBy 0x040 s.attention } := by
  by_cases emptied : ∀ h ∈ s.holds, h.source = src
  · rw [ite_congr (propext (and_iff_right emptied)) (fun _ => rfl) (fun _ => rfl)]
    exact (if_pos ((removed_isEmpty_iff s.holds src).mpr emptied)).trans (thawClock_eq _)
  · rw [if_neg (fun ran => emptied ran.1)]
    exact if_neg (mt (removed_isEmpty_iff s.holds src).mp emptied)

/-! ## The tests, each where the earlier ones have passed (R125) -/

/-- What RELEASE answers is what its tests answer; the crew may issue it. -/
theorem exec_release_answers {s t : State} {sel : Select} {b : Byte} {x : Transaction} (h : Awaits s sel .release)
    (ho : releaseFrom b sel s = (t, x)) : exec (.release b) s = .next (t.setTx sel x) :=
  takeCommand_answers h (.inr rfl) ho

theorem releaseFrom_outOfRange {b : Byte} (sel : Select) (s : State) (hb : 5 < b.toNat) :
    releaseFrom b sel s = (s, answer .badOperand) := by
  simp only [releaseFrom, holdSourceOf_none hb, refuse]

section
variable {s : State} {sel : Select} {b : Byte} {src : HoldSource} (hb : b.toNat = holdSourceCode src)
include hb

theorem releaseFrom_privilege (hp : crewMayRelease src = false) :
    releaseFrom b .crewSel s = (s, answer .privilege) := by
  simp only [releaseFrom, holdSourceOf_code hb, hp, decide_true, Bool.not_false, Bool.and_self, if_true, refuse]

variable (hp : sel = .showSel ∨ crewMayRelease src = true)
include hp

/-- Past the operand and the privilege, RELEASE is judged by the list and by the clearance of the source. -/
theorem releaseFrom_judged :
    releaseFrom b sel s =
      if !s.holding src then refuse .wrongState s
      else if !releaseClear src s then refuse .notClear s
      else (removeHold src s, answer .ok) := by
  have allowed : (decide (sel = .crewSel) && !crewMayRelease src) = false := by
    obtain rfl | may := hp
    · rfl
    · rw [may, Bool.not_true, Bool.and_false]
  simp only [releaseFrom, holdSourceOf_code hb, allowed, Bool.false_eq_true, if_false]

theorem releaseFrom_absent (ha : s.holding src = false) : releaseFrom b sel s = (s, answer .wrongState) := by
  rw [releaseFrom_judged hb hp, ha]
  rfl

variable (hh : s.holding src = true)
include hh

theorem releaseFrom_notClear (hc : releaseClear src s = false) : releaseFrom b sel s = (s, answer .notClear) := by
  rw [releaseFrom_judged hb hp, hh, hc]
  rfl

theorem releaseFrom_clear (hc : releaseClear src s = true) : releaseFrom b sel s = (removeHold src s, answer .ok) := by
  rw [releaseFrom_judged hb hp, hh, hc]
  rfl

end

/-! ## The statement -/

/-- Settles O39: the tests are judged one after the other, each where the earlier ones have passed, and the outcome at each is a lemma above. -/
theorem releaseRemoves : Obligations.ReleaseRemoves := by
  unfold Obligations.ReleaseRemoves
  intro s sel b h
  refine ⟨fun hb => exec_release_answers h (releaseFrom_outOfRange sel s hb), fun src hb => ⟨?_, fun hsel => ?_⟩⟩
  · rintro rfl not_own not_ring
    have barred : crewMayRelease src = false :=
      Bool.eq_false_iff.mpr fun may => ((crewMayRelease_iff src).mp may).elim not_own not_ring
    exact exec_release_answers h (releaseFrom_privilege hb barred)
  have hp : sel = .showSel ∨ crewMayRelease src = true := hsel.imp_right (crewMayRelease_iff src).mpr
  refine ⟨fun absent => ?_, fun present => ?_⟩
  · have not_held : s.holding src = false := by
      refine Bool.eq_false_iff.mpr fun held => ?_
      obtain ⟨e, he, hsrc⟩ := (holding_iff s src).mp held
      exact absent e he hsrc
    exact exec_release_answers h (releaseFrom_absent hb hp not_held)
  have held := (holding_iff s src).mpr present
  refine ⟨fun blocked => ?_, fun ring_low stop_low no_intrusion => ?_⟩
  · exact exec_release_answers h (releaseFrom_notClear hb hp held (releaseClear_blocked blocked))
  · have clear := (releaseClear_iff src s).mpr ⟨ring_low, stop_low, no_intrusion⟩
    refine ⟨_, exec_release_answers h (releaseFrom_clear hb hp held clear), ?_⟩
    rw [removeHold_eq]
    cases sel <;> rfl

end Sys2Proof.Machine
end

section
/-! PROOF. SET_SOURCE: which source an operand names, the four cases of its table, and the answer (R138). -/

namespace Sys2Proof.Machine

/-! ## The operand -/

theorem tickSourceOf_none {b : Byte} (h : 1 < b.toNat) : tickSourceOf b = none := by
  simp (disch := omega) only [tickSourceOf, if_neg]

theorem tickSourceOf_internal {b : Byte} (h : b.toNat = 0) : tickSourceOf b = some .internal :=
  if_pos h

theorem tickSourceOf_external {b : Byte} (h : b.toNat = 1) : tickSourceOf b = some .external := by
  simp only [tickSourceOf, h, Nat.one_ne_zero, if_false, if_true]

/-! ## The table, a source named with a source in use -/

section
variable {s : State}

/-- EXTERNAL with INTERNAL in use records a request, or renews the one pending. -/
theorem selectSource_requested (hs : s.clock.source = .internal) :
    selectSource .external s = s.setClock { s.clock with request := some 0 } := by
  simp only [selectSource, hs]

/-- EXTERNAL in use already is left as it is, its pulse watch with it. -/
theorem selectSource_external_inUse (hs : s.clock.source = .external) : selectSource .external s = s := by
  simp only [selectSource, hs]

/-- INTERNAL in use already withdraws a pending request. -/
theorem selectSource_withdrawn (hs : s.clock.source = .internal) :
    selectSource .internal s = s.setClock { s.clock with request := none } := by
  simp only [selectSource, hs]

/-- From EXTERNAL the return to INTERNAL is immediate. -/
theorem selectSource_returned (hs : s.clock.source = .external) :
    selectSource .internal s = s.setClock { s.clock with source := .internal, pulseWatch := none } := by
  simp only [selectSource, hs]

end

/-! ## The answer -/

/-- What SET_SOURCE answers at the SHOW select is what its test answers. -/
theorem exec_setSource_answers {s t : State} {b : Byte} {x : Transaction} (h : Awaits s .showSel .setSource)
    (ho : setSourceOperand b s = (t, x)) : exec (.setSource b) s = .next (t.setTx .showSel x) :=
  takeCommand_answers h (.inl rfl) ho

theorem setSourceOperand_outOfRange {b : Byte} (s : State) (hb : 1 < b.toNat) :
    setSourceOperand b s = (s, answer .badOperand) := by
  simp only [setSourceOperand, tickSourceOf_none hb, refuse]

/-- An operand that names a source is answered OK, whatever case of the table it meets. -/
theorem setSourceOperand_named {s t : State} {b : Byte} {src : TickSource} (hb : tickSourceOf b = some src)
    (ht : selectSource src s = t) : setSourceOperand b s = (t, answer .ok) := by
  simp only [setSourceOperand, hb, ht]

/-! ## The statement -/

/-- Settles O41: the crew may not issue the command; at the SHOW select the operand is judged, and each case of the table is the lemma of the source named and the source in use. -/
theorem setSource : Obligations.SetSource := by
  unfold Obligations.SetSource
  intro s b
  refine ⟨fun h => takeCommand_privilege h rfl _, fun h => ⟨fun hb => ?_, fun hb hs => ?_, fun hb hs => ?_,
    fun hb hs => ?_, fun hb hs => ?_⟩⟩
  · exact exec_setSource_answers h (setSourceOperand_outOfRange s hb)
  · exact exec_setSource_answers h (setSourceOperand_named (tickSourceOf_external hb) (selectSource_requested hs))
  · exact exec_setSource_answers h (setSourceOperand_named (tickSourceOf_external hb) (selectSource_external_inUse hs))
  · exact exec_setSource_answers h (setSourceOperand_named (tickSourceOf_internal hb) (selectSource_withdrawn hs))
  · exact exec_setSource_answers h (setSourceOperand_named (tickSourceOf_internal hb) (selectSource_returned hs))

end Sys2Proof.Machine
end

section
/-! PROOF. The commands on a template of the store: the lookup they share, and what a drop, a lock and an unlock write into the way found (R146, R151, R152). -/

namespace Sys2Proof.Machine

/-! ## The lookup, whatever the command does with the template found -/

section
variable {s : State} {c : Command} {cue : Word16} (h : Awaits s .showSel c)
include h

theorem takeCommand_onTemplate_outOfRange (hc : 4095 < cue.toNat)
    (act : Fin 16 → Fin 4 → Template → State → State × Transaction) :
    takeCommand c (fun _ => onTemplate cue act) s = .next (answered s .showSel .badOperand) :=
  takeCommand_answers h (.inl rfl) (onTemplate_out hc act s)

variable (hc : cue.toNat ≤ 4095) {k : Fin 16} (hk : k.val = cue.toNat % 16)
include hc hk

theorem takeCommand_onTemplate_miss
    (hm : ∀ (v : Fin 4) (o : Template), s.templates.sets[k].ways[v] = some o → o.cue ≠ cue.toNat)
    (act : Fin 16 → Fin 4 → Template → State → State × Transaction) :
    takeCommand c (fun _ => onTemplate cue act) s = .next (answered s .showSel .noTemplate) :=
  takeCommand_answers h (.inl rfl) (onTemplate_miss hc hk hm act)

/-- On a hit the command answers what its action on the lowest matching way answers. -/
theorem takeCommand_onTemplate_hit {act : Fin 16 → Fin 4 → Template → State → State × Transaction}
    {w : Fin 4} {x : Template} {t : State} {y : Transaction} (hx : s.templates.sets[k].ways[w] = some x)
    (hcue : x.cue = cue.toNat)
    (hlow : ∀ v : Fin 4, v < w → ∀ o, s.templates.sets[k].ways[v] = some o → o.cue ≠ cue.toNat)
    (ha : act k w x s = (t, y)) :
    takeCommand c (fun _ => onTemplate cue act) s = .next (t.setTx .showSel y) :=
  takeCommand_answers h (.inl rfl) ((onTemplate_hit hc hk hx hcue hlow act).trans ha)

end

/-! ## DROP_TEMPLATE on the template found -/

theorem dropTemplate_locked {x : Template} (hl : x.locked = true) (k : Fin 16) (w : Fin 4) (s : State) :
    dropTemplate k w x s = (s, answer .wrongState) :=
  if_pos hl

theorem dropTemplate_unlocked {x : Template} (hl : x.locked = false) (k : Fin 16) (w : Fin 4) (s : State) :
    dropTemplate k w x s = (writeWay k w none s, answer .ok) :=
  if_neg (Bool.eq_false_iff.mp hl)

/-! ## The statement -/

/-- Settles O45: out of range and on a miss the three commands answer alike; on a hit a drop is judged by the locked field, and a lock or an unlock writes it. -/
theorem dropLockUnlock : Obligations.DropLockUnlock := by
  unfold Obligations.DropLockUnlock
  intro s cue
  refine ⟨fun hc => ?_, fun k hc hk => ⟨fun hm => ?_, fun w x hx hcue hlow => ?_⟩⟩
  · exact ⟨fun h => takeCommand_onTemplate_outOfRange h hc _, fun h => takeCommand_onTemplate_outOfRange h hc _,
      fun h => takeCommand_onTemplate_outOfRange h hc _⟩
  · exact ⟨fun h => takeCommand_onTemplate_miss h hc hk hm _, fun h => takeCommand_onTemplate_miss h hc hk hm _,
      fun h => takeCommand_onTemplate_miss h hc hk hm _⟩
  · refine ⟨fun h => ⟨fun hl => ?_, fun hl => ?_⟩, fun h => ?_, fun h => ?_⟩
    · exact takeCommand_onTemplate_hit h hc hk hx hcue hlow (dropTemplate_locked hl k w s)
    · exact takeCommand_onTemplate_hit h hc hk hx hcue hlow (dropTemplate_unlocked hl k w s)
    · exact takeCommand_onTemplate_hit h hc hk hx hcue hlow (act := lockWay true) rfl
    · exact takeCommand_onTemplate_hit h hc hk hx hcue hlow (act := lockWay false) rfl

end Sys2Proof.Machine
end

section
/-! PROOF. FIRE: its tests on the template found, in their order, and the booking it makes, with the way's access (R30, R148, R153). -/

namespace Sys2Proof.Machine

/-! ## The window a template books -/

/-- A window lies in the count's range when its start and, where it has one, its end do. -/
theorem Booking.inRange_iff (b : Booking) :
    b.inRange = true ↔ b.start ≤ 16777215 ∧ ∀ n, b.stop = some n → n ≤ 16777215 := by
  simp only [Booking.inRange, Bool.and_eq_true, Option.all_eq_true, decide_eq_true_eq]
  rfl

theorem Booking.inRange_false {b : Booking} (h : 16777215 < b.start ∨ ∃ n, b.stop = some n ∧ 16777215 < n) :
    b.inRange = false := by
  refine Bool.eq_false_iff.mpr fun fits => ?_
  obtain ⟨start_fits, stop_fits⟩ := b.inRange_iff.mp fits
  obtain late | ⟨n, hn, late⟩ := h
  · exact Nat.not_lt.mpr start_fits late
  · exact Nat.not_lt.mpr (stop_fits n hn) late

/-! ## The tests on the template found, each where the earlier ones have passed (R153) -/

section
variable {s : State} {k : Fin 16} {w : Fin 4} {x : Template}

theorem fireTemplate_clockVoid (hv : s.clock.run = .void) : fireTemplate k w x s = (s, answer .clockVoid) :=
  if_pos hv

variable (hv : s.clock.run ≠ .void)
include hv

theorem fireTemplate_outOfRange (hr : (x.booking s.clock.count).inRange = false) :
    fireTemplate k w x s = (s, answer .wrongState) := by
  simp only [fireTemplate, hv, hr, Bool.not_false, if_true, if_false, refuse]

variable (hr : (x.booking s.clock.count).inRange = true)
include hr

theorem fireTemplate_queueFull (hq : 8 ≤ s.admission.queue.length) :
    fireTemplate k w x s = (s, answer .queueFull) := by
  simp only [fireTemplate, hv, hr, queueFull_true hq, Bool.not_true, Bool.false_eq_true, if_true, if_false, refuse]

variable (hq : s.admission.queue.length < 8)
include hq

theorem fireTemplate_tableFull (hf : ∀ j : Slot, s.claimAt j ≠ none) :
    fireTemplate k w x s = (s, answer .tableFull) := by
  simp only [fireTemplate, hv, hr, queueFull_false hq, freeSlotOf_none hf, Bool.not_true, Bool.false_eq_true, if_false,
    refuse]

/-- A FIRE that passes its tests books as BOOK does, of the state with the way accessed. -/
theorem fireTemplate_accepted {i : Slot} (hi : s.claimAt i = none) (hlow : ∀ j : Slot, j < i → s.claimAt j ≠ none) :
    fireTemplate k w x s = acceptBooking i (x.booking s.clock.count) (accessWay k w s) := by
  simp only [fireTemplate, hv, hr, queueFull_false hq, freeSlotOf_lowest hi hlow, Bool.not_true, Bool.false_eq_true,
    if_false]

end

/-! ## The statement -/

/-- Settles O46: each refusal is the lemma of the first test that fails; a FIRE that passes is an accepted booking of the state with the way accessed, of which `acceptBooking_spec` says the rest. -/
theorem fire : Obligations.Fire := by
  unfold Obligations.Fire
  intro s cue h
  refine ⟨fun hc => takeCommand_onTemplate_outOfRange h hc _, fun k hc hk =>
    ⟨fun hm => takeCommand_onTemplate_miss h hc hk hm _, ?_⟩⟩
  rintro w x start e hx hcue hlow rfl rfl
  have answers {t : State} {y : Transaction} (ha : fireTemplate k w x s = (t, y)) :
      exec (.fire cue) s = .next (t.setTx .showSel y) :=
    takeCommand_onTemplate_hit h hc hk hx hcue hlow ha
  refine ⟨fun hv => answers (fireTemplate_clockVoid hv), fun hv => ⟨fun late => ?_, fun start_fits stop_fits => ?_⟩⟩
  · exact answers (fireTemplate_outOfRange hv (Booking.inRange_false late))
  have hr : (x.booking s.clock.count).inRange = true := (Booking.inRange_iff _).mpr ⟨start_fits, stop_fits⟩
  refine ⟨fun full => ?_, fun room full => ?_, fun room queue_law i hd hi lowest hhd => ?_⟩
  · exact answers (fireTemplate_queueFull hv hr full)
  · exact answers (fireTemplate_tableFull hv hr room full)
  · obtain ⟨t, closed, booked, frame, slot, others, queue, -, attention⟩ :=
      acceptBooking_spec (s := accessWay k w s) (b := x.booking s.clock.count) h.1 queue_law hi hhd
    have arbiter : t.arbiter = s.arbiter := by
      rw [closed]
      exact closeEvent_arbiter false _ _
    exact ⟨_, answers ((fireTemplate_accepted hv hr room hi lowest).trans booked), setTx_claimFrame frame .showSel _,
      slot, others, queue, attention, arbiter⟩

end Sys2Proof.Machine
end

section
/-! PROOF. The attention commands and CLEAR_SUPPLY: each writes its own item of the record it names, and the attention lines follow (R167, R168, R172, R182). -/

namespace Sys2Proof.Machine

/-! ## The operand of SET_AUTOCLEAR -/

theorem setAutoclear_off (s : State) :
    setAutoclear 0 s = ({ s with attention := { s.attention with autoClear := false } }, answer .ok) := rfl

theorem setAutoclear_on (s : State) :
    setAutoclear 1 s = ({ s with attention := { s.attention with autoClear := true } }, answer .ok) := rfl

theorem setAutoclear_outOfRange {b : Byte} (h0 : b ≠ 0) (h1 : b ≠ 1) (s : State) :
    setAutoclear b s = (s, answer .badOperand) := by
  have not_off : b.toNat ≠ 0 := fun e => h0 (BitVec.eq_of_toNat_eq e)
  have not_on : b.toNat ≠ 1 := fun e => h1 (BitVec.eq_of_toNat_eq e)
  simp only [setAutoclear, settingOf, not_off, not_on, if_false]

/-! ## The alert record emptied -/

/-- An empty alert record leaves ALERT low while the part runs (R172). -/
theorem emptyAlert_eq {s : State} (hr : Runs s) :
    emptyAlert s = { s with
      alert := { count := 0, first := none, latest := none }
      lines := { s.lines with attn := attnLevel s, alert := .low } } := by
  obtain ⟨main, -⟩ := hr
  have alert_low : alertLevel { s with alert := { count := 0, first := none, latest := none } } = .low := by
    simp [alertLevel, outputLevel, main]
  unfold emptyAlert driveLines
  rw [alert_low]
  rfl

/-! ## What each command answers -/

/-- A command the crew may not issue is refused at the CREW select, whatever its operands (R160). -/
theorem exec_privilege {s : State} {i : Instr} {c : Command} {ops : List Byte} (hi : i.command = some (c, ops))
    (hc : crewMay c = false) (h : Awaits s .crewSel c) : exec i s = .next (answered s .crewSel .privilege) := by
  obtain ⟨owner, delivered⟩ := exec_command hi
  rw [delivered, takeCommand_privilege h hc]

theorem exec_setEnables_ok {s : State} (h : Awaits s .showSel .setEnables) (m : Word16) :
    exec (.setEnables m) s = .next (answered (enableFlagSet (flagsOf m) s) .showSel .ok) :=
  takeCommand_delivered h (.inl rfl) (fun _ t => (enableFlagSet (flagsOf m) t, answer .ok))

theorem exec_clearFlags_ok {s : State} (h : Awaits s .showSel .clearFlags) (m : Word16) :
    exec (.clearFlags m) s = .next (answered (clearFlagSet (flagsOf m) s) .showSel .ok) :=
  takeCommand_delivered h (.inl rfl) (fun _ t => (clearFlagSet (flagsOf m) t, answer .ok))

/-- What SET_AUTOCLEAR answers at the SHOW select is what its test answers. -/
theorem exec_setAutoclear_answers {s t : State} {b : Byte} {x : Transaction} (h : Awaits s .showSel .setAutoclear)
    (ho : setAutoclear b s = (t, x)) : exec (.setAutoclear b) s = .next (t.setTx .showSel x) :=
  takeCommand_answers (owner := fun _ => setAutoclear b) h (.inl rfl) ho

theorem exec_clearAlert_ok {s : State} (h : Awaits s .showSel .clearAlert) :
    exec .clearAlert s = .next (answered (emptyAlert s) .showSel .ok) :=
  takeCommand_delivered h (.inl rfl) (fun _ t => (emptyAlert t, answer .ok))

theorem exec_clearSupply_ok {s : State} (h : Awaits s .showSel .clearSupply) :
    exec .clearSupply s = .next (answered (emptySupply s) .showSel .ok) :=
  takeCommand_delivered h (.inl rfl) (fun _ t => (emptySupply t, answer .ok))

/-! ## The statement -/

/-- Settles O10: at the SHOW select each command is answered as the lemma of its owner says, and the crew may issue none of the five. -/
theorem attentionCommands : Obligations.AttentionCommands := by
  unfold Obligations.AttentionCommands
  intro s
  refine ⟨fun m h => ?setEnables, fun m h => ?clearFlags, fun b h => ⟨?autoclearOff, ?autoclearOn, fun h0 h1 => ?outOfRange⟩,
    fun h => ?clearAlert, fun h => ?clearSupply, fun _ => exec_privilege rfl rfl, fun _ => exec_privilege rfl rfl,
    fun _ => exec_privilege rfl rfl, exec_privilege rfl rfl, exec_privilege rfl rfl⟩
  case setEnables => exact ⟨_, exec_setEnables_ok h m, rfl⟩
  case clearFlags => exact ⟨_, exec_clearFlags_ok h m, rfl⟩
  case autoclearOff => rintro rfl; exact exec_setAutoclear_answers h (setAutoclear_off s)
  case autoclearOn => rintro rfl; exact exec_setAutoclear_answers h (setAutoclear_on s)
  case outOfRange => exact exec_setAutoclear_answers h (setAutoclear_outOfRange h0 h1 s)
  case clearAlert => rw [exec_clearAlert_ok h, emptyAlert_eq h.1]; rfl
  case clearSupply => exact exec_clearSupply_ok h

end Sys2Proof.Machine
end

section
/-! PROOF. ATTN and ALERT under every step: an event leaves what the two lines hang on, or drives them where it ends; and what their levels then say (R167, R171, R172). -/

namespace Sys2Proof.Machine

/-! ## What the attention lines hang on -/

/-- ATTN and ALERT with the fields their levels hang on: the flags and enables, the alert record, the supply state and RESET. -/
def State.attentionView (s : State) : FlagSet × FlagSet × AlertRecord × SupplyState × Bool × Level × Level :=
  (s.attention.flags, s.attention.enables, s.alert, s.supply.state, s.inputs.reset, s.lines.attn, s.lines.alert)

/-- The attention lines stand at their levels, over an alert record in order (R167, R171, R172). -/
def Attended (s : State) : Prop := AttentionLaw s ∧ AlertLaw s

/-- A state that agrees on what the attention lines hang on keeps them at their levels. -/
theorem Attended.of_view {s t : State} (h : Attended s) (e : t.attentionView = s.attentionView) : Attended t := by
  simp only [State.attentionView, Prod.mk.injEq] at e
  obtain ⟨flags, enables, alert, supply, reset, attn, alert_line⟩ := e
  have running : t.running = s.running := by
    unfold State.running
    rw [supply, reset]
  have attn_level : attnLevel t = attnLevel s := by
    unfold attnLevel outputLevel
    rw [flags, enables, supply, running]
  have alert_level : alertLevel t = alertLevel s := by
    unfold alertLevel outputLevel
    rw [alert, supply, running]
  unfold Attended AttentionLaw AlertLaw
  rw [attn, alert_line, attn_level, alert_level, alert]
  exact h

/-- Driving the attention lines puts them at their levels. -/
theorem driveLines_attended {s : State} (h : AlertLaw s) : Attended (driveLines s) := ⟨⟨rfl, rfl⟩, h⟩

/-- A fold of steps that each keep the attention lines keeps them. -/
theorem foldl_attended {α : Type} {f : State → α → State} (step : ∀ s a, Attended s → Attended (f s a)) (l : List α)
    {s : State} (h : Attended s) : Attended (l.foldl f s) :=
  foldl_frame (fun s t => Attended s → Attended t) (fun _ => id) (fun _ _ _ h k => k ∘ h) f step l s h

/-! ## The attention unit and the alert record -/

theorem raiseFlag_attended (f : Flag) {s : State} (h : Attended s) : Attended (raiseFlag f s) := driveLines_attended h.2

theorem clearFlagSet_attended (m : FlagSet) {s : State} (h : Attended s) : Attended (clearFlagSet m s) :=
  driveLines_attended h.2

theorem enableFlagSet_attended (m : FlagSet) {s : State} (h : Attended s) : Attended (enableFlagSet m s) :=
  driveLines_attended h.2

theorem bumpCount_pos (n : Nat) : 0 < bumpCount n := by
  unfold bumpCount Config.maxRecordCount
  split <;> omega

theorem bumpCount_le {n : Nat} (h : n ≤ Config.maxRecordCount) : bumpCount n ≤ Config.maxRecordCount := by
  unfold bumpCount
  split <;> omega

/-- An alert recorded leaves both fields present and the count above 0 (R171). -/
theorem recordAlert_alertLaw (cause : AlertCause) {s : State} (h : AlertLaw s) : AlertLaw (recordAlert cause s) := by
  obtain ⟨le_max, first_iff, -⟩ := h
  have pos := bumpCount_pos s.alert.count
  refine ⟨bumpCount_le le_max, iff_of_true ?_ pos, iff_of_true rfl pos⟩
  show (if s.alert.count = 0 then some _ else s.alert.first).isSome = true
  split
  · rfl
  · next not_empty => exact first_iff.mpr (Nat.pos_of_ne_zero not_empty)

theorem recordAlert_attended (cause : AlertCause) {s : State} (h : Attended s) : Attended (recordAlert cause s) :=
  ⟨⟨rfl, rfl⟩, recordAlert_alertLaw cause h.2⟩

theorem emptyAlert_attended (s : State) : Attended (emptyAlert s) := by
  refine driveLines_attended ⟨Nat.zero_le _, ?_, ?_⟩ <;> exact iff_of_false Bool.false_ne_true (Nat.lt_irrefl 0)

/-! ## Operations that leave what the attention lines hang on -/

theorem checkSubject_attentionView (e : Entry) (s : State) : (checkSubject e s).attentionView = s.attentionView := by
  unfold checkSubject
  split
  · split <;> rfl
  · rfl
  · rfl

theorem beginHead_attentionView (s : State) : (beginHead s).attentionView = s.attentionView := by
  unfold beginHead
  split
  · split
    · rfl
    · exact checkSubject_attentionView _ _
  · rfl

theorem abandonWalk_attentionView (s : State) : (abandonWalk s).attentionView = s.attentionView := by
  unfold abandonWalk
  split
  · rfl
  · dsimp only
    split <;> rfl

theorem withdrawEntry_attentionView (e : Entry) (s : State) : (withdrawEntry e s).attentionView = s.attentionView := by
  unfold withdrawEntry
  dsimp only
  split
  · exact abandonWalk_attentionView s
  · rfl

theorem freeSlot_attentionView (i : Slot) (s : State) : (freeSlot i s).attentionView = s.attentionView := by
  unfold freeSlot
  split
  · rfl
  · dsimp only
    split
    · exact withdrawEntry_attentionView _ _
    · rfl

theorem moveClaim_attentionView (i : Slot) (st : ClaimState) (s : State) :
    (moveClaim i st s).attentionView = s.attentionView := by
  unfold moveClaim
  split
  · rfl
  · dsimp only
    split <;> rfl

theorem breachClaim_attentionView (f : Flyer) (i : Slot) (s : State) :
    (breachClaim f i s).attentionView = s.attentionView := by
  unfold breachClaim
  split
  · rfl
  · split
    · split
      · exact moveClaim_attentionView _ _ _
      · exact moveClaim_attentionView _ _ _
      · rfl
    · rfl

theorem descendGrant_attentionView (f : Flyer) (h : Handle) (s : State) :
    (descendGrant f h s).attentionView = s.attentionView := by
  unfold descendGrant
  split
  · rfl
  · split <;> rfl

theorem restoreGrant_attentionView (f : Flyer) (h : Handle) (s : State) :
    (restoreGrant f h s).attentionView = s.attentionView := by
  unfold restoreGrant
  split
  · rfl
  · split <;> rfl

theorem freezeClock_attentionView (s : State) : (freezeClock s).attentionView = s.attentionView := by
  unfold freezeClock
  split <;> rfl

theorem thawClock_attentionView (s : State) : (thawClock s).attentionView = s.attentionView := by
  unfold thawClock
  split <;> rfl

theorem endClock_attentionView (s : State) : (endClock s).attentionView = s.attentionView := by
  unfold endClock
  split <;> rfl

theorem setClock_attentionView (s : State) (c : Clock) : (s.setClock c).attentionView = s.attentionView := rfl

theorem writeBreach_attentionView (f : Flyer) (kind : BreachKind) (cell : Cell) (s : State) :
    (writeBreach f kind cell s).attentionView = s.attentionView := rfl

theorem elapse_attentionView (d : Nat) (s : State) : (elapse d s).attentionView = s.attentionView := by
  simp only [State.attentionView, elapse_attention, elapse_alert, elapse_supply, elapse_inputs, elapse_lines]

theorem setTx_attentionView (s : State) (sel : Select) (x : Transaction) :
    (s.setTx sel x).attentionView = s.attentionView := by
  simp only [State.attentionView, setTx_attention, setTx_alert, setTx_supply, setTx_inputs, setTx_lines]

theorem setSelectLow_attentionView (s : State) (sel : Select) (low : Bool) :
    (s.setSelectLow sel low).attentionView = s.attentionView := by
  cases sel <;> rfl

/-! ## The operations on one claim, and over all of them -/

theorem expireSlot_attended (i : Slot) {s : State} (h : Attended s) : Attended (expireSlot i s) :=
  raiseFlag_attended _ (h.of_view (freeSlot_attentionView i s))

theorem moveClaim_attended (i : Slot) (st : ClaimState) {s : State} (h : Attended s) : Attended (moveClaim i st s) :=
  h.of_view (moveClaim_attentionView i st s)

theorem openClaim_attended (i : Slot) {s : State} (h : Attended s) : Attended (openClaim i s) := by
  unfold openClaim
  split
  · exact h
  · split
    · exact moveClaim_attended _ _ h
    · split <;> exact raiseFlag_attended _ (moveClaim_attended _ _ h)

theorem releaseOverlap_attended (i : Slot) {s : State} (h : Attended s) : Attended (releaseOverlap i s) := by
  unfold releaseOverlap
  split
  · exact h
  · split
    · split
      · exact h
      · split
        · exact moveClaim_attended _ _ h
        · exact raiseFlag_attended _ (moveClaim_attended _ _ h)
    · exact h

theorem recheck_attended {s : State} (h : Attended s) : Attended (recheck s) :=
  foldl_attended (fun _ i => releaseOverlap_attended i) allSlots h

theorem beginHead_attended {s : State} (h : Attended s) : Attended (beginHead s) :=
  h.of_view (beginHead_attentionView s)

theorem closeEvent_attended (asked : Bool) (s : State) {t : State} (h : Attended t) : Attended (closeEvent asked s t) := by
  unfold closeEvent
  refine beginHead_attended ?_
  split
  · exact recheck_attended h
  · exact h

theorem openBooked_attended (i : Slot) {s : State} (h : Attended s) : Attended (openBooked i s) := by
  unfold openBooked
  split
  · exact h
  · split
    · exact openClaim_attended i h
    · exact h

theorem jumpBooked_attended (i : Slot) {s : State} (h : Attended s) : Attended (jumpBooked i s) := by
  unfold jumpBooked
  split
  · exact h
  · split
    · exact expireSlot_attended i h
    · exact openBooked_attended i h

theorem endClaim_attended (i : Slot) {s : State} (h : Attended s) : Attended (endClaim i s) := by
  unfold endClaim
  split
  · exact h
  · split
    · split
      · split
        · exact expireSlot_attended i h
        · exact (raiseFlag_attended _ (moveClaim_attended _ _ h)).of_view (descendGrant_attentionView _ _ _)
      · exact expireSlot_attended i h
      · exact moveClaim_attended _ _ h
      · exact h
    · exact h

theorem endings_attended {s : State} (h : Attended s) : Attended (endings s) :=
  foldl_attended (fun _ i => endClaim_attended i) allSlots h

theorem tickEvent_attended {s : State} (h : Attended s) : Attended (tickEvent s) :=
  closeEvent_attended _ _ (foldl_attended (fun _ i => openBooked_attended i) allSlots (endings_attended h))

theorem jumpEvent_attended {s : State} (h : Attended s) : Attended (jumpEvent s) :=
  closeEvent_attended _ _ (foldl_attended (fun _ i => jumpBooked_attended i) allSlots (endings_attended h))

/-! ## The clock, grants and holds -/

theorem setClock_attended (c : Clock) {s : State} (h : Attended s) : Attended (s.setClock c) :=
  h.of_view (setClock_attentionView s c)

theorem endClock_attended {s : State} (h : Attended s) : Attended (endClock s) := h.of_view (endClock_attentionView s)

theorem groundedEvent_attended (f : Flyer) {s : State} (h : Attended s) : Attended (groundedEvent f s) := by
  refine foldl_attended (fun t i ht => ?_) allSlots h
  split
  · split
    · exact expireSlot_attended i ht
    · exact ht
  · exact ht

theorem removeGrant_attended (f : Flyer) (r : Reason) {s : State} (h : Attended s) : Attended (removeGrant f r s) := by
  unfold removeGrant
  split
  · exact h
  · dsimp only
    split
    · exact groundedEvent_attended f (h.of_view rfl)
    · exact h.of_view rfl

theorem removeAllGrants_attended {s : State} (h : Attended s) : Attended (removeAllGrants s) :=
  foldl_attended (fun _ f => removeGrant_attended f .hold) allFlyers h

theorem pushHold_attended (src : HoldSource) (flag : Bool) {s : State} (h : Attended s) :
    Attended (pushHold src flag s) := by
  unfold pushHold
  split
  · exact h
  · have pushed : Attended (if flag then raiseFlag .holdsChanged { s with holds := s.holds ++ [{ source := src, tick := s.now }] }
        else { s with holds := s.holds ++ [{ source := src, tick := s.now }] }) := by
      split
      · exact raiseFlag_attended _ (h.of_view rfl)
      · exact h.of_view rfl
    dsimp only
    split
    · exact (removeAllGrants_attended pushed).of_view (freezeClock_attentionView _)
    · exact pushed

theorem removeHold_attended (src : HoldSource) {s : State} (h : Attended s) : Attended (removeHold src s) := by
  have removed : Attended (raiseFlag .holdsChanged { s with holds := s.holds.filter (fun h => decide (h.source ≠ src)) }) :=
    raiseFlag_attended _ (h.of_view rfl)
  unfold removeHold
  dsimp only
  split
  · exact removed.of_view (thawClock_attentionView _)
  · exact removed

theorem takeStop_attended (flag : Bool) {s : State} (h : Attended s) : Attended (takeStop flag s) :=
  recordAlert_attended _ (pushHold_attended _ _ h)

end Sys2Proof.Machine
end

section
/-! PROOF. Every event keeps ATTN, ALERT and the alert record in order, command by command; with it what the levels of the two lines say (R167, R171, R172, R173, R178). -/

namespace Sys2Proof.Machine

/-! ## Claim commands -/

theorem freed_attended (i : Slot) {s : State} (h : Attended s) : Attended (freed i s).1 :=
  closeEvent_attended _ _ (h.of_view (freeSlot_attentionView i s))

/-- A claim moved and the event closed. -/
theorem closeEvent_moveClaim_attended (i : Slot) (st : ClaimState) {s : State} (h : Attended s) :
    Attended (closeEvent false s (moveClaim i st s)) :=
  closeEvent_attended _ _ (moveClaim_attended i st h)

/-- A command on a claim keeps the attention lines where its effect on every claim does. -/
theorem onClaim_attended (handle : Byte) {act : Slot → Claim → State → State × Transaction} {s : State} (h : Attended s)
    (keeps : ∀ i c, Attended (act i c s).1) : Attended (onClaim handle act s).1 := by
  unfold onClaim
  split
  · exact h
  · exact keeps _ _

section
variable (i : Slot) (c : Claim) {s : State} (h : Attended s)
include h

theorem dismissClaim_attended : Attended (dismissClaim i c s).1 := by
  unfold dismissClaim
  split
  · exact freed_attended i h
  · exact h

theorem retireClaim_attended : Attended (retireClaim i c s).1 := by
  unfold retireClaim
  split
  case h_1 => exact freed_attended i h
  case h_2 | h_3 | h_4 =>
    split
    · exact h
    · split
      · exact h
      · exact freed_attended i h
  all_goals exact h

theorem forceRetireClaim_attended : Attended (forceRetireClaim i c s).1 := by
  unfold forceRetireClaim
  split
  case h_1 | h_2 | h_3 =>
    split
    case h_1 | h_2 => exact freed_attended i h
    all_goals exact h
  all_goals exact h

theorem commandHold_attended (ended : Bool) : Attended (commandHold i c ended s).1 := by
  have moved := moveClaim_attended i (.held .command ended) h
  refine closeEvent_attended _ _ ?_
  split
  · exact removeGrant_attended _ _ moved
  · exact moved

theorem holdClaim_attended : Attended (holdClaim i c s).1 := by
  unfold holdClaim
  split
  · exact commandHold_attended i c h false
  · exact commandHold_attended i c h true
  · exact h

theorem resumeClear_attended : Attended (resumeClear i c s).1 := by
  unfold resumeClear
  split
  · exact closeEvent_attended _ _ (raiseFlag_attended _ (moveClaim_attended _ _ h))
  · exact closeEvent_moveClaim_attended _ _ h

theorem resumeEnded_attended : Attended (resumeEnded i c s).1 := by
  unfold resumeEnded
  split
  · exact freed_attended i h
  · split
    · exact h
    · exact closeEvent_moveClaim_attended _ _ h

theorem resumeClaim_attended : Attended (resumeClaim i c s).1 := by
  unfold resumeClaim
  split
  · exact h
  · split
    · exact h
    · split
      · exact resumeEnded_attended i c h
      · exact resumeClear_attended i c h
  · exact h

theorem cancelClaim_attended : Attended (cancelClaim i c s).1 := by
  have withdrawn : Attended (withdrawEntry (.book (s.handleAt i)) (freeSlot i s)) :=
    h.of_view ((withdrawEntry_attentionView _ _).trans (freeSlot_attentionView i s))
  unfold cancelClaim
  split
  case h_1 | h_2 => exact closeEvent_attended _ _ withdrawn
  case h_3 => exact h

theorem amendClaim_attended (a : Amendment) : Attended (amendClaim a i c s).1 := by
  unfold amendClaim
  split
  · exact h
  · split
    · exact h
    · split
      · exact h
      · exact closeEvent_attended _ _ (h.of_view rfl)

end

/-! ## Admission -/

theorem amendOperands_attended (handle presence : Byte) (newEnd : Word24) (newBox : BoxBytes) {s : State} (h : Attended s) :
    Attended (amendOperands handle presence newEnd newBox s).1 := by
  unfold amendOperands
  dsimp only
  split
  · exact h
  · split
    · exact h
    · exact onClaim_attended handle h (fun i c => amendClaim_attended i c h _)

theorem acceptBooking_attended (i : Slot) (b : Booking) {s : State} (h : Attended s) :
    Attended (acceptBooking i b s).1 :=
  closeEvent_attended _ _ (h.of_view rfl)

theorem bookClaim_attended (b : Booking) {s : State} (h : Attended s) : Attended (bookClaim b s).1 := by
  unfold bookClaim
  split
  · exact h
  · split
    · exact h
    · exact acceptBooking_attended _ b h

theorem bookOperands_attended (flyer : Byte) (box : BoxBytes) (start : Word24) (presence : Byte) (stop : Word24) {s : State}
    (h : Attended s) : Attended (bookOperands flyer box start presence stop s).1 := by
  unfold bookOperands
  dsimp only
  split
  · split
    · exact h
    · exact bookClaim_attended _ h
  · exact h

theorem placeBooking_attended (i : Slot) (c : Claim) {s : State} (h : Attended s) : Attended (placeBooking i c s) := by
  unfold placeBooking
  split
  · exact h.of_view rfl
  · split
    · exact h.of_view rfl
    · exact openClaim_attended i h

theorem amendedState_attended (i : Slot) (c : Claim) (a : Amendment) {s : State} (h : Attended s) :
    Attended (amendedState i c a s) := by
  unfold amendedState
  split
  · split
    · exact (moveClaim_attended _ _ h).of_view (restoreGrant_attentionView _ _ _)
    · exact h
  · split
    · exact moveClaim_attended _ _ h
    · exact h
  · exact releaseOverlap_attended i h
  · exact h

theorem amendGrant_attended (i : Slot) (c : Claim) (a : Amendment) {s : State} (h : Attended s) :
    Attended (amendGrant i c a s) := by
  unfold amendGrant
  split
  · split
    · exact removeGrant_attended _ _ h
    · exact h
  · exact h

theorem passAmendment_attended (i : Slot) (c : Claim) (a : Amendment) {s : State} (h : Attended s) :
    Attended (passAmendment i c a s) :=
  amendGrant_attended i c a (amendedState_attended i c a (h.of_view rfl))

theorem deliverVerdict_attended (e : Entry) (v : Option Verdict) {s : State} (h : Attended s) :
    Attended (deliverVerdict e v s).1 := by
  unfold deliverVerdict
  split
  case h_1 =>
    split
    · exact h
    · split
      · exact h.of_view rfl
      · exact placeBooking_attended _ _ h
  case h_2 =>
    split
    · exact h
    · split
      · exact h.of_view rfl
      · exact h
      · split
        · exact h.of_view rfl
        · exact passAmendment_attended _ _ _ h
  case h_3 => exact h.of_view rfl

theorem completeWalk_attended (e : Entry) (v : Option Verdict) {s : State} (h : Attended s) :
    Attended (completeWalk e v s) :=
  closeEvent_attended _ _ (raiseFlag_attended _ (deliverVerdict_attended e v (h.of_view rfl)))

theorem readSlot_attended (w : Walk) (i : Slot) {s : State} (h : Attended s) : Attended (readSlot w i s) := by
  unfold readSlot
  split
  · exact completeWalk_attended _ _ h
  · split
    · exact h.of_view rfl
    · split
      · exact completeWalk_attended _ _ h
      · exact h.of_view rfl

theorem readZone_attended (w : Walk) (z : Zone) {s : State} (h : Attended s) : Attended (readZone w z s) := by
  unfold readZone
  split
  · exact completeWalk_attended _ _ h
  · split
    · exact h.of_view rfl
    · exact completeWalk_attended _ _ h

/-! ## Zones, bindings, channels -/

theorem zoneSetOperands_attended (zone : Byte) (box : BoxBytes) (fixed : Byte) {s : State} (h : Attended s) :
    Attended (zoneSetOperands zone box fixed s).1 := by
  unfold zoneSetOperands
  split
  · split
    · exact h
    · split
      · exact h
      · split
        · exact h
        · exact closeEvent_attended _ _ (h.of_view rfl)
  · exact h

theorem zoneClearOperands_attended (zone : Byte) {s : State} (h : Attended s) :
    Attended (zoneClearOperands zone s).1 := by
  unfold zoneClearOperands
  split
  · exact h
  · split
    · exact h
    · split
      · exact h
      · exact closeEvent_attended _ _ (h.of_view (withdrawEntry_attentionView _ _))

theorem setProtectOperand_attended (mode : Byte) {s : State} (h : Attended s) : Attended (setProtectOperand mode s).1 := by
  unfold setProtectOperand
  split
  · exact h
  · split
    · exact h
    · exact h.of_view rfl

theorem bindWinch_attended (f : Flyer) (w : Winch) {s : State} (h : Attended s) : Attended (bindWinch f w s).1 := by
  unfold bindWinch
  split
  · exact h
  · split
    · exact h
    · split
      · exact h
      · exact h.of_view rfl

theorem bindOperands_attended (flyer winch : Byte) {s : State} (h : Attended s) :
    Attended (bindOperands flyer winch s).1 := by
  unfold bindOperands
  split
  · split
    · exact h
    · split
      · split <;> exact h
      · exact bindWinch_attended _ _ h
  · exact h

theorem unbindOperand_attended (winch : Byte) {s : State} (h : Attended s) : Attended (unbindOperand winch s).1 := by
  unfold unbindOperand
  split
  · exact h
  · split
    · exact h
    · split
      · exact h
      · split
        · exact h
        · split
          · exact h
          · exact h.of_view rfl

theorem clearBreachOperand_attended (flyer : Byte) {s : State} (h : Attended s) :
    Attended (clearBreachOperand flyer s).1 := by
  unfold clearBreachOperand
  split
  · exact h
  · split
    · exact h.of_view rfl
    · exact h

theorem reopenOperand_attended (channel : Byte) {s : State} (h : Attended s) : Attended (reopenOperand channel s).1 := by
  unfold reopenOperand
  split
  · exact h
  · split
    · exact h.of_view rfl
    · exact h

/-! ## Holds, clock, templates -/

theorem releaseFrom_attended (source : Byte) (sel : Select) {s : State} (h : Attended s) :
    Attended (releaseFrom source sel s).1 := by
  unfold releaseFrom
  split
  · exact h
  · split
    · exact h
    · split
      · exact h
      · split
        · exact h
        · exact removeHold_attended _ h

theorem selectSource_attended (src : TickSource) {s : State} (h : Attended s) : Attended (selectSource src s) := by
  unfold selectSource
  split <;> exact h.of_view rfl

theorem setSourceOperand_attended (source : Byte) {s : State} (h : Attended s) :
    Attended (setSourceOperand source s).1 := by
  unfold setSourceOperand
  split
  · exact h
  · exact selectSource_attended _ h

theorem setClockOperand_attended (value : Word24) {s : State} (h : Attended s) :
    Attended (setClockOperand value s).1 := by
  unfold setClockOperand
  split
  · exact h
  · split
    · exact h
    · exact jumpEvent_attended (setClock_attended _ h)

theorem skipOperand_attended (distance : Word24) {s : State} (h : Attended s) : Attended (skipOperand distance s).1 := by
  unfold skipOperand
  split
  · exact h
  · split
    · exact h
    · exact endClock_attended (jumpEvent_attended (setClock_attended _ h))

theorem loadTemplate_attended (x : Template) {s : State} (h : Attended s) : Attended (loadTemplate x s).1 := by
  unfold loadTemplate
  dsimp only
  split
  · exact h.of_view rfl
  · exact h.of_view rfl
  · exact raiseFlag_attended _ (h.of_view rfl)
  · exact h

theorem loadTemplateOperands_attended (cue : Word16) (flyer : Byte) (box : BoxBytes) (offset duration : Word16) {s : State}
    (h : Attended s) : Attended (loadTemplateOperands cue flyer box offset duration s).1 := by
  unfold loadTemplateOperands
  split
  · exact loadTemplate_attended _ h
  · exact h

/-- A command on the template of a cue keeps the attention lines where its effect on every template does. -/
theorem onTemplate_attended (cue : Word16) {act : Fin 16 → Fin 4 → Template → State → State × Transaction} {s : State}
    (h : Attended s) (keeps : ∀ k w x, Attended (act k w x s).1) : Attended (onTemplate cue act s).1 := by
  unfold onTemplate
  split
  · exact h
  · split
    · exact h
    · split
      · exact h
      · exact keeps _ _ _

theorem dropTemplate_attended (k : Fin 16) (w : Fin 4) (x : Template) {s : State} (h : Attended s) :
    Attended (dropTemplate k w x s).1 := by
  unfold dropTemplate
  split
  · exact h
  · exact h.of_view rfl

theorem fireTemplate_attended (k : Fin 16) (w : Fin 4) (x : Template) {s : State} (h : Attended s) :
    Attended (fireTemplate k w x s).1 := by
  unfold fireTemplate
  split
  · exact h
  · split
    · exact h
    · split
      · exact h
      · split
        · exact h
        · exact acceptBooking_attended _ _ (h.of_view rfl)

/-! ## The console port -/

theorem streamFrom_attended {α : Type} (start : Option α) (k : α → ReadKind) {s : State} (h : Attended s) :
    Attended (streamFrom start k s).1 := by
  unfold streamFrom
  split <;> exact h

theorem setAutoclear_attended (setting : Byte) {s : State} (h : Attended s) : Attended (setAutoclear setting s).1 := by
  unfold setAutoclear
  split
  · exact h
  · exact h.of_view rfl

theorem setTx_attended (sel : Select) (x : Transaction) {s : State} (h : Attended s) : Attended (s.setTx sel x) :=
  h.of_view (setTx_attentionView s sel x)

theorem setSelectLow_attended (sel : Select) (low : Bool) {s : State} (h : Attended s) : Attended (s.setSelectLow sel low) :=
  h.of_view (setSelectLow_attentionView s sel low)

theorem autoClearFlags_attended (shifted : Nat) {s : State} (h : Attended s) : Attended (autoClearFlags shifted s) := by
  unfold autoClearFlags
  split
  · split
    · exact clearFlagSet_attended _ h
    · exact h
  · exact h

theorem takeRecord_attended (sel : Select) (k : ReadKind) {s : State} (h : Attended s) : Attended (takeRecord sel k s) := by
  unfold takeRecord
  refine setTx_attended _ _ ?_
  split
  · exact h.of_view rfl
  · exact h

/-! ## Channels -/

theorem admitFrame_attentionView (ch : Flyer) (f : InFrame) (s : State) :
    (admitFrame ch f s).attentionView = s.attentionView := by
  unfold admitFrame
  split <;> rfl

theorem hearByte_attended (ch : Flyer) (b : Byte) {s : State} (h : Attended s) : Attended (hearByte ch b s) := by
  unfold hearByte
  dsimp only
  split
  · exact h.of_view (admitFrame_attentionView _ _ _)
  · exact h.of_view rfl

theorem hearBytes_attended (ch : Flyer) (bytes : List Byte) (last : Byte) {s : State} (h : Attended s) :
    Attended (hearBytes ch bytes last s) :=
  hearByte_attended ch last (foldl_attended (fun _ b => hearByte_attended ch b) bytes (h.of_view rfl))

theorem judgeHello_attended (ch : Flyer) (id : Byte) {s : State} (h : Attended s) : Attended (judgeHello ch id s) := by
  have welcomed : (welcomeChannel ch s).attentionView = s.attentionView := by
    unfold welcomeChannel
    split <;> rfl
  unfold judgeHello
  split
  · exact h.of_view welcomed
  · exact h.of_view rfl

theorem elapse_attended (d : Nat) {s : State} (h : Attended s) : Attended (elapse d s) :=
  h.of_view (elapse_attentionView d s)

theorem lateChannel_attended (ch : Flyer) {s : State} (h : Attended s) : Attended (lateChannel ch s) :=
  raiseFlag_attended _ (h.of_view rfl)

theorem loseChannel_attended (ch : Flyer) {s : State} (h : Attended s) : Attended (loseChannel ch s) :=
  closeEvent_attended _ _ (removeGrant_attended _ _ (recordAlert_attended _ (h.of_view rfl)))

theorem answerAsk_attended (f : Flyer) (target : Cell) {s : State} (h : Attended s) : Attended (answerAsk f target s) := by
  unfold answerAsk
  split <;> exact h.of_view rfl

theorem breachClaims_attended (f : Flyer) {s : State} (h : Attended s) : Attended (breachClaims f s) :=
  foldl_attended (fun t i ht => ht.of_view (breachClaim_attentionView f i t)) allSlots h

theorem breachResponse_attended (f : Flyer) (kind : BreachKind) (cell : Cell) {s : State} (h : Attended s) :
    Attended (breachResponse f kind cell s) := by
  have held := breachClaims_attended f (removeGrant_attended f .breach h)
  have alerted : Attended (recordAlert (breachAlert f kind) (writeBreach f kind cell (breachClaims f (removeGrant f .breach s)))) :=
    recordAlert_attended _ (held.of_view (writeBreach_attentionView _ _ _ _))
  unfold breachResponse
  dsimp only
  split
  · exact pushHold_attended _ _ alerted
  · exact alerted

theorem handleReport_attended (ch : Flyer) (cell : Cell) (grounded : Bool) {s : State} (h : Attended s) :
    Attended (handleReport ch cell grounded s) := by
  have stored : Attended (storeReport ch cell grounded (channelReport ch s)) := h.of_view rfl
  unfold handleReport reportOutcome
  split
  · exact breachResponse_attended _ _ _ stored
  · split
    · exact groundedEvent_attended _ stored
    · exact stored

/-! ## The show clock -/

theorem sourceEvent_attended {s : State} (h : Attended s) : Attended (sourceEvent s) := by
  unfold sourceEvent
  split
  · exact endClock_attended (tickEvent_attended (setClock_attended _ h))
  · exact h

theorem nextPeriod_attended (t : Nat) {s : State} (h : Attended s) : Attended (nextPeriod t s) :=
  setClock_attended _ (elapse_attended _ h)

/-! ## Supply and RESET -/

theorem haltBlocks_attended {s : State} (h : Attended s) : Attended (haltBlocks s) :=
  pushHold_attended _ _ (h.of_view rfl)

theorem restartBlocks_attended {s : State} (h : Attended s) : Attended (restartBlocks s) :=
  recordAlert_attended _ ((haltBlocks_attended h).of_view rfl)

theorem restartFlags_attended {s : State} (h : Attended s) : Attended (restartFlags s) :=
  raiseFlag_attended _ (clearFlagSet_attended _ h)

theorem startTimers_attended {s : State} (h : Attended s) : Attended (startTimers s) := setClock_attended _ h

theorem sampleLines_attended (flag : Bool) {s : State} (h : Attended s) : Attended (sampleLines flag s) := by
  have ring_sampled (t : State) (ht : Attended t) : Attended (if t.inputs.ring then takeRing flag t else t) := by
    split
    · exact pushHold_attended _ _ ht
    · exact ht
  refine ring_sampled (if s.inputs.stop then takeStop flag s else s) ?_
  split
  · exact takeStop_attended flag h
  · exact h

theorem returnTimers_attended {s : State} (h : Attended s) : Attended (returnTimers s) := by
  unfold returnTimers
  split
  · exact h
  · exact sampleLines_attended _ (startTimers_attended h)

theorem beginRunning_attended (flag : Bool) {s : State} (h : Attended s) : Attended (beginRunning flag s) :=
  beginHead_attended (sampleLines_attended flag (startTimers_attended h))

theorem setSupplyState_attended (st : SupplyState) {s : State} (h : AlertLaw s) : Attended (setSupplyState st s) :=
  driveLines_attended h

theorem setResetLine_attended (v : Bool) {s : State} (h : AlertLaw s) : Attended (setResetLine v s) :=
  driveLines_attended h

/-- The one RESTART alert of a cold start is a record in order (R172). -/
theorem coldValues_alertLaw (s : State) : AlertLaw (coldValues s) := by
  show 1 ≤ Config.maxRecordCount ∧ (true = true ↔ 0 < 1) ∧ (true = true ↔ 0 < 1)
  decide

/-- A cold start out of RESET has ALERT high for its RESTART alert, and ATTN low with no flag set (R180). -/
theorem coldValues_attended {s : State} (hr : s.inputs.reset = false) : Attended (coldValues s) := by
  have running : (coldValues s).running = true := (runs_iff _).mp ⟨rfl, hr⟩
  refine ⟨⟨?_, ?_⟩, coldValues_alertLaw s⟩
  · simp [coldValues, coldState, attnLevel, outputLevel]
  · unfold alertLevel outputLevel
    rw [running]
    rfl

/-- An unpowered part drives neither line, and its alert record is empty (R178). -/
theorem powerOff_attended (s : State) : Attended (powerOff s) := by
  refine ⟨⟨rfl, rfl⟩, Nat.zero_le _, ?_, ?_⟩ <;> exact iff_of_false Bool.false_ne_true (Nat.lt_irrefl 0)

theorem followCell_attended (present : Bool) {s : State} (h : Attended s) : Attended (followCell present s) := by
  unfold followCell
  dsimp only
  split
  · exact powerOff_attended _
  · exact h.of_view rfl

/-! ## Outcomes -/

/-- An outcome whose next state has the attention lines at their levels. -/
def AttendedNext (r : Result) : Prop := ∀ t, r = .next t → Attended t

theorem Attended.next {t : State} (h : Attended t) : AttendedNext (.next t) := by
  rintro u ⟨⟩
  exact h

/-- A console command keeps the attention lines where its owner does: a response touches no line. -/
theorem takeCommand_attended {c : Command} {owner : Select → State → State × Transaction} {s : State} (h : Attended s)
    (keeps : ∀ sel, Attended (owner sel s).1) : AttendedNext (takeCommand c owner s) := by
  unfold takeCommand
  split
  · exact h.next
  · split
    · exact (setTx_attended _ _ h).next
    · exact (setTx_attended _ _ (keeps _)).next

/-! ## The events of the console port -/

section
variable {s : State} (h : Attended s)
include h

theorem execUnknownCommand_attended (byte : Byte) : AttendedNext (execUnknownCommand byte s) := by
  unfold execUnknownCommand
  split
  · split
    · exact (setTx_attended _ _ h).next
    · exact h.next
  · exact h.next

theorem execCommandByte_attended (byte : Byte) : AttendedNext (execCommandByte byte s) := by
  unfold execCommandByte
  split
  · split
    · exact (setTx_attended _ _ h).next
    · exact h.next
  · exact h.next

theorem execSelectFall_attended (sel : Select) : AttendedNext (execSelectFall sel s) := by
  unfold execSelectFall
  split
  · exact h.next
  · split
    · exact (setTx_attended _ _ (setSelectLow_attended _ _ h)).next
    · exact (setSelectLow_attended _ _ h).next

theorem execSelectRise_attended (sel : Select) (shifted : Nat) : AttendedNext (execSelectRise sel shifted s) := by
  have auto_cleared : Attended (if sel = .showSel && (s.tx sel).isStatus then autoClearFlags shifted s else s) := by
    split
    · exact autoClearFlags_attended shifted h
    · exact h
  unfold execSelectRise
  split
  · exact h.next
  · refine (setTx_attended _ _ (setSelectLow_attended _ _ ?_)).next
    split
    · exact auto_cleared.of_view rfl
    · exact auto_cleared

theorem execRecordTaken_attended : AttendedNext (execRecordTaken s) := by
  unfold execRecordTaken
  split
  · exact h.next
  · split
    · exact (takeRecord_attended _ _ h).next
    · split
      · exact (takeRecord_attended _ _ h).next
      · exact h.next

/-! ## The events of the channels -/

theorem receiveBytes_attended (ch : Flyer) (bytes : List Byte) (last : Byte) :
    AttendedNext (receiveBytes ch bytes last s) := by
  refine Attended.next ?_
  split
  · exact hearBytes_attended ch bytes last h
  · exact h

theorem execFrameGap_attended (ch : Flyer) : AttendedNext (execFrameGap ch s) := by
  unfold execFrameGap
  split
  · split
    · exact Attended.next ((elapse_attended _ h).of_view rfl)
    · exact h.next
  · exact h.next

theorem execFramingError_attended (ch : Flyer) : AttendedNext (execFramingError ch s) := by
  unfold execFramingError
  split
  · exact Attended.next (h.of_view rfl)
  · exact h.next

theorem execClosedChannelDiscard_attended (ch : Flyer) : AttendedNext (execClosedChannelDiscard ch s) := by
  have dropped : Attended (dropHead ch s) := h.of_view rfl
  unfold execClosedChannelDiscard
  split
  case h_1 | h_2 =>
    split
    · exact dropped.next
    · exact h.next
  all_goals exact h.next

theorem execHello_attended (ch : Flyer) : AttendedNext (execHello ch s) := by
  have dropped : Attended (dropHead ch s) := h.of_view rfl
  unfold execHello
  split
  case h_1 =>
    split
    · exact (judgeHello_attended ch _ dropped).next
    · exact h.next
  all_goals exact h.next

theorem execFrameSent_attended (ch : Flyer) : AttendedNext (execFrameSent ch s) := by
  unfold execFrameSent
  split
  · exact Attended.next (h.of_view rfl)
  · exact h.next

theorem execLateExpiry_attended (ch : Flyer) : AttendedNext (execLateExpiry ch s) := by
  unfold execLateExpiry
  split
  · exact (lateChannel_attended ch (elapse_attended _ h)).next
  · exact h.next

theorem execLostExpiry_attended (ch : Flyer) : AttendedNext (execLostExpiry ch s) := by
  unfold execLostExpiry
  split
  · exact (loseChannel_attended ch (elapse_attended _ h)).next
  · exact h.next

/-! ## Grants, walks, the clock's sources and the lines -/

theorem execAsk_attended (ch : Flyer) : AttendedNext (execAsk ch s) := by
  have dropped : Attended (dropHead ch (serveChannel ch s)) := h.of_view rfl
  unfold execAsk
  split
  case h_1 =>
    split
    · exact (answerAsk_attended ch _ dropped).next
    · exact h.next
  all_goals exact h.next

theorem execReport_attended (ch : Flyer) : AttendedNext (execReport ch s) := by
  have dropped : Attended (dropHead ch (serveChannel ch s)) := h.of_view rfl
  unfold execReport
  split
  case h_1 =>
    split
    · exact (closeEvent_attended _ _ (handleReport_attended ch _ _ dropped)).next
    · exact h.next
  all_goals exact h.next

theorem execLeaseExpiry_attended (f : Flyer) : AttendedNext (execLeaseExpiry f s) := by
  unfold execLeaseExpiry
  split
  · exact h.next
  · split
    · exact (closeEvent_attended _ _ (removeGrant_attended f _ (elapse_attended _ h))).next
    · exact h.next

theorem execWalkAccess_attended : AttendedNext (execWalkAccess s) := by
  have served : Attended (serveWalk s) := h.of_view rfl
  unfold execWalkAccess
  split
  · split
    · split
      · exact (readSlot_attended _ _ served).next
      · exact h.next
    · exact h.next
  · exact h.next

theorem execZonePhaseRead_attended : AttendedNext (execZonePhaseRead s) := by
  unfold execZonePhaseRead
  split
  · split
    · split
      · exact (readZone_attended _ _ h).next
      · exact h.next
    · exact h.next
  · exact h.next

theorem execInternalPeriodCompletion_attended : AttendedNext (execInternalPeriodCompletion s) := by
  unfold execInternalPeriodCompletion
  split
  · exact h.next
  · split
    · refine Attended.next ?_
      split
      · exact sourceEvent_attended (nextPeriod_attended _ h)
      · exact nextPeriod_attended _ h
    · exact h.next

theorem execExtTickPulse_attended : AttendedNext (execExtTickPulse s) := by
  unfold execExtTickPulse
  split
  · exact h.next
  · split
    · exact (sourceEvent_attended (setClock_attended _ h)).next
    · split
      · exact (sourceEvent_attended (setClock_attended _ h)).next
      · exact h.next

theorem execPulseWatchExpiry_attended : AttendedNext (execPulseWatchExpiry s) := by
  unfold execPulseWatchExpiry
  split
  · exact (raiseFlag_attended _ (setClock_attended _ (elapse_attended _ h))).next
  · exact h.next

theorem execAbandonment_attended : AttendedNext (execAbandonment s) := by
  unfold execAbandonment
  split
  · exact (raiseFlag_attended _ (setClock_attended _ (elapse_attended _ h))).next
  · exact h.next

theorem execStopAssertion_attended : AttendedNext (execStopAssertion s) := by
  have followed : Attended (setStopLine true s) := h.of_view rfl
  unfold execStopAssertion
  split
  · exact h.next
  · split
    · exact (closeEvent_attended _ _ (takeStop_attended true followed)).next
    · exact followed.next

theorem execRingAssertion_attended : AttendedNext (execRingAssertion s) := by
  have followed : Attended (setRingLine true s) := h.of_view rfl
  unfold execRingAssertion
  split
  · exact h.next
  · split
    · exact (closeEvent_attended _ _ (pushHold_attended .ring true followed)).next
    · exact followed.next

/-! ## Supply and RESET events -/

theorem execBackupEntry_attended : AttendedNext (execBackupEntry s) := by
  have halted : Attended (recordEntry (quietChannels (haltBlocks s))) := (haltBlocks_attended h).of_view rfl
  unfold execBackupEntry
  split
  · exact (setSupplyState_attended .backup halted.2).next
  · exact h.next

theorem execReturnOfMain_attended : AttendedNext (execReturnOfMain s) := by
  have returned : Attended (recordReturn s) := h.of_view rfl
  have restarted := restartBlocks_attended (setSupplyState_attended .main returned.2)
  unfold execReturnOfMain
  split
  · exact (beginHead_attended (restartFlags_attended (returnTimers_attended restarted))).next
  · exact h.next

theorem execResetAssertion_attended : AttendedNext (execResetAssertion s) := by
  have followed := setResetLine_attended true h.2
  unfold execResetAssertion
  split
  · exact h.next
  · split
    · exact (restartFlags_attended (restartBlocks_attended followed)).next
    · exact followed.next

theorem execResetDeassertion_attended : AttendedNext (execResetDeassertion s) := by
  have followed := setResetLine_attended false h.2
  unfold execResetDeassertion
  split
  · exact h.next
  · split
    · exact (beginRunning_attended true followed).next
    · exact followed.next

theorem execColdStart_attended : AttendedNext (execColdStart s) := by
  unfold execColdStart
  split
  · split
    · exact (driveLines_attended (s := stopTimers (coldValues s)) (coldValues_alertLaw s)).next
    · next running =>
      have begun := beginRunning_attended false (coldValues_attended (Bool.eq_false_iff.mpr running))
      exact (driveLines_attended begun.2).next
  · exact h.next

theorem execMainFallsWithoutBackup_attended : AttendedNext (execMainFallsWithoutBackup s) := by
  unfold execMainFallsWithoutBackup
  split
  · exact (powerOff_attended s).next
  · exact h.next

end

/-! ## Every command -/

/-- Every command keeps ATTN, ALERT and the alert record in order: one case for each row of the opcode table. -/
theorem exec_attended (i : Instr) {s : State} (h : Attended s) : AttendedNext (exec i s) := by
  cases i with
  | status | readHolds | readAlert | readSupply => exact takeCommand_attended h (fun _ => h)
  | readClaims | readZones | readFlyers | readTemplates => exact takeCommand_attended h (fun _ => streamFrom_attended _ _ h)
  | book => exact takeCommand_attended h (fun _ => bookOperands_attended _ _ _ _ _ h)
  | amend => exact takeCommand_attended h (fun _ => amendOperands_attended _ _ _ _ h)
  | cancel b => exact takeCommand_attended h (fun _ => onClaim_attended b h (fun i c => cancelClaim_attended i c h))
  | retire b => exact takeCommand_attended h (fun _ => onClaim_attended b h (fun i c => retireClaim_attended i c h))
  | forceRetire b => exact takeCommand_attended h (fun _ => onClaim_attended b h (fun i c => forceRetireClaim_attended i c h))
  | holdClaim b => exact takeCommand_attended h (fun _ => onClaim_attended b h (fun i c => holdClaim_attended i c h))
  | resume b => exact takeCommand_attended h (fun _ => onClaim_attended b h (fun i c => resumeClaim_attended i c h))
  | dismiss b => exact takeCommand_attended h (fun _ => onClaim_attended b h (fun i c => dismissClaim_attended i c h))
  | zoneSet => exact takeCommand_attended h (fun _ => zoneSetOperands_attended _ _ _ h)
  | zoneClear => exact takeCommand_attended h (fun _ => zoneClearOperands_attended _ h)
  | setProtect => exact takeCommand_attended h (fun _ => setProtectOperand_attended _ h)
  | bind => exact takeCommand_attended h (fun _ => bindOperands_attended _ _ h)
  | unbind => exact takeCommand_attended h (fun _ => unbindOperand_attended _ h)
  | clearBreach => exact takeCommand_attended h (fun _ => clearBreachOperand_attended _ h)
  | reopen => exact takeCommand_attended h (fun _ => reopenOperand_attended _ h)
  | hold => exact takeCommand_attended h (fun _ => closeEvent_attended _ _ (pushHold_attended _ true h))
  | release => exact takeCommand_attended h (fun sel => releaseFrom_attended _ sel h)
  | setClock => exact takeCommand_attended h (fun _ => setClockOperand_attended _ h)
  | setSource => exact takeCommand_attended h (fun _ => setSourceOperand_attended _ h)
  | skip => exact takeCommand_attended h (fun _ => skipOperand_attended _ h)
  | loadTemplate => exact takeCommand_attended h (fun _ => loadTemplateOperands_attended _ _ _ _ _ h)
  | dropTemplate cue => exact takeCommand_attended h (fun _ => onTemplate_attended cue h (fun k w x => dropTemplate_attended k w x h))
  | lockTemplate cue | unlockTemplate cue =>
    exact takeCommand_attended h (fun _ => onTemplate_attended cue h (fun _ _ _ => h.of_view rfl))
  | fire cue => exact takeCommand_attended h (fun _ => onTemplate_attended cue h (fun k w x => fireTemplate_attended k w x h))
  | setEnables m =>
    exact takeCommand_attended (owner := fun _ t => (enableFlagSet (flagsOf m) t, answer .ok)) h (fun _ => enableFlagSet_attended (flagsOf m) h)
  | setAutoclear => exact takeCommand_attended h (fun _ => setAutoclear_attended _ h)
  | clearFlags m =>
    exact takeCommand_attended (owner := fun _ t => (clearFlagSet (flagsOf m) t, answer .ok)) h (fun _ => clearFlagSet_attended (flagsOf m) h)
  | clearAlert =>
    exact takeCommand_attended (owner := fun _ t => (emptyAlert t, answer .ok)) h (fun _ => emptyAlert_attended s)
  | clearSupply =>
    exact takeCommand_attended (owner := fun _ t => (emptySupply t, answer .ok)) h (fun _ => h.of_view rfl)
  | unknownCommand b => exact execUnknownCommand_attended h b
  | commandByte b => exact execCommandByte_attended h b
  | selectFall sel => exact execSelectFall_attended h sel
  | selectRise sel n => exact execSelectRise_attended h sel n
  | recordTaken => exact execRecordTaken_attended h
  | frameTaken ch bytes last => exact receiveBytes_attended h ch bytes last
  | syncByte ch => exact receiveBytes_attended h ch [] syncByteValue
  | unknownKind ch kind => exact receiveBytes_attended h ch [] kind
  | frameGap ch => exact execFrameGap_attended h ch
  | framingError ch => exact execFramingError_attended h ch
  | hello ch => exact execHello_attended h ch
  | report ch => exact execReport_attended h ch
  | ask ch => exact execAsk_attended h ch
  | closedChannelDiscard ch => exact execClosedChannelDiscard_attended h ch
  | frameSent ch => exact execFrameSent_attended h ch
  | lateExpiry ch => exact execLateExpiry_attended h ch
  | lostExpiry ch => exact execLostExpiry_attended h ch
  | leaseExpiry f => exact execLeaseExpiry_attended h f
  | walkAccess => exact execWalkAccess_attended h
  | zonePhaseRead => exact execZonePhaseRead_attended h
  | internalPeriodCompletion => exact execInternalPeriodCompletion_attended h
  | extTickPulse => exact execExtTickPulse_attended h
  | pulseWatchExpiry => exact execPulseWatchExpiry_attended h
  | abandonment => exact execAbandonment_attended h
  | stopAssertion => exact execStopAssertion_attended h
  | ringAssertion => exact execRingAssertion_attended h
  | stopDeassertion | ringDeassertion | rigLockChange => exact Attended.next (h.of_view rfl)
  | backupEntry => exact execBackupEntry_attended h
  | returnOfMain => exact execReturnOfMain_attended h
  | resetAssertion => exact execResetAssertion_attended h
  | resetDeassertion => exact execResetDeassertion_attended h
  | coldStart => exact execColdStart_attended h
  | mainFallsWithoutBackup => exact execMainFallsWithoutBackup_attended h
  | cellBecomesAbsent => exact (followCell_attended false h).next
  | backupPresenceChange present => exact (followCell_attended present h).next

theorem step_attended {s t : State} (h : Attended s) (hs : step s = .next t) : Attended t := by
  cases hp : s.pending with
  | nil =>
    rw [step_nil s hp] at hs
    exact (elapse_attended 1 h).next t hs
  | cons c rest =>
    rw [step_cons s c rest hp] at hs
    exact exec_attended c (h.of_view (t := { s with pending := rest }) rfl) t hs

/-! ## What the levels say -/

/-- A set of flags meets the enables exactly where some flag is both set and enabled. -/
theorem flags_and_enables_eq_zero_iff (flags enables : FlagSet) :
    flags &&& enables = 0 ↔ ∀ k : Fin 11, flags.getLsbD k = false ∨ enables.getLsbD k = false := by
  have bitwise : flags &&& enables = 0 ↔ ∀ k : Fin 11, (flags &&& enables).getLsbD k = (0 : FlagSet).getLsbD k :=
    ⟨fun e _ => by rw [e], fun e => BitVec.eq_of_getLsbD_eq fun k hk => e ⟨k, hk⟩⟩
  rw [bitwise]
  simp only [BitVec.getLsbD_and, BitVec.ofNat_eq_ofNat, BitVec.getLsbD_zero, Bool.and_eq_false_iff]

section
variable {s : State} {asserted : Bool}

theorem outputLevel_runs (hr : Runs s) : outputLevel s asserted = if asserted then .high else .low := by
  simp [outputLevel, hr.1, (runs_iff s).mp hr]

/-- An attention output is held low in RESET and on BACKUP (R167, R172). -/
theorem outputLevel_held (hs : s.supply.state = .backup ∨ (s.supply.state = .main ∧ s.inputs.reset = true)) :
    outputLevel s asserted = .low := by
  rcases hs with backup | ⟨main, reset⟩
  · simp [outputLevel, State.running, backup]
  · simp [outputLevel, State.running, main, reset]

theorem outputLevel_off (hs : s.supply.state = .off) : outputLevel s asserted = .unpowered := if_pos hs

end

/-- Settles O53: every command keeps the two lines at their levels and the record in order (`exec_attended`), and the levels are those of `outputLevel`. -/
theorem attentionKept : Obligations.AttentionKept := by
  unfold Obligations.AttentionKept
  refine ⟨fun s t attention alert hs => step_attended ⟨attention, alert⟩ hs, ?_⟩
  rintro s ⟨attn, alert⟩
  rw [attn, alert]
  unfold attnLevel alertLevel
  refine ⟨fun hr => ?runs, fun hs => ⟨outputLevel_held hs, outputLevel_held hs⟩,
    fun hs => ⟨outputLevel_off hs, outputLevel_off hs⟩⟩
  case runs =>
    simp only [outputLevel_runs hr, decide_eq_true_eq]
    refine ⟨fun ⟨k, set, enabled⟩ => if_pos fun none_meets => ?_, fun none_meets => if_neg ?_, fun pos => if_pos pos,
      fun empty => if_neg (by rw [empty]; exact Nat.lt_irrefl 0)⟩
    · rcases (flags_and_enables_eq_zero_iff _ _).mp none_meets k with clear | disabled
      · exact Bool.false_ne_true (clear.symm.trans set)
      · exact Bool.false_ne_true (disabled.symm.trans enabled)
    · exact fun meets => meets ((flags_and_enables_eq_zero_iff _ _).mpr none_meets)

end Sys2Proof.Machine
end

section
/-! PROOF. What a step can do, said once: the effect of a console command on the state, the effect of an event, and the outcome of every command of the table in their terms. The laws that every step keeps are proved case by case over these. -/

namespace Sys2Proof.Machine

/-- An outcome that is a next state with a property. -/
def Leads (r : Result) (P : State → Prop) : Prop := ∃ t, r = .next t ∧ P t

theorem Leads.next {P : State → Prop} {t : State} (h : P t) : Leads (.next t) P := ⟨t, rfl, h⟩

theorem Leads.of_next {P : State → Prop} {r : Result} {t : State} (h : Leads r P) (e : r = .next t) : P t := by
  obtain ⟨u, hu, hp⟩ := h
  cases hu.symm.trans e
  exact hp

/-! ## The effects -/

/-- What the owner of a console command can make of the state, the answer apart: one constructor for each effect, with the tests that were passed. -/
inductive CommandEffect (s : State) : State → Prop
  | none : CommandEffect s s
  | shown : CommandEffect s (noteShown s)
  | enabled (m : FlagSet) : CommandEffect s (enableFlagSet m s)
  | cleared (m : FlagSet) : CommandEffect s (clearFlagSet m s)
  | autoClear (on : Bool) : CommandEffect s { s with attention := { s.attention with autoClear := on } }
  | alertEmptied : CommandEffect s (emptyAlert s)
  | supplyEmptied : CommandEffect s (emptySupply s)
  | claimFreed {i : Slot} {c : Claim} (at_slot : s.claimAt i = some c) (not_queued : c.state ≠ .queued)
      (not_checking : c.state ≠ .checking)
      (no_grant : c.state.inForce = true → s.grantOf c.flyer = .none ∨ s.channels[c.flyer].state = .closed ∨
        s.channels[c.flyer].state = .lost) :
      CommandEffect s (closeEvent false s (freeSlot i s))
  | claimHeld {i : Slot} {c : Claim} {ended : Bool} (at_slot : s.claimAt i = some c)
      (in_force : (c.state = .active ∧ ended = false) ∨ (c.state = .overrun ∧ ended = true)) :
      CommandEffect s (commandHold i c ended s).1
  | resumedOverlap {i : Slot} {c : Claim} {cause : HeldCause} (at_slot : s.claimAt i = some c)
      (held : c.state = .held cause false) (cause_ne : cause ≠ .overlap)
      (overstayed : s.overlapsOverstayer c.flyer c.region = true) :
      CommandEffect s (closeEvent false s (raiseFlag .overlapHeld (moveClaim i (.held .overlap false) s)))
  | resumedActive {i : Slot} {c : Claim} {cause : HeldCause} (at_slot : s.claimAt i = some c)
      (held : c.state = .held cause false) (cause_ne : cause ≠ .overlap)
      (clear : s.overlapsOverstayer c.flyer c.region = false) :
      CommandEffect s (closeEvent false s (moveClaim i .active s))
  | resumedOverrun {i : Slot} {c : Claim} {cause : HeldCause} (at_slot : s.claimAt i = some c)
      (held : c.state = .held cause true) (cause_ne : cause ≠ .overlap)
      (clear : s.overlapsInForce c.flyer c.region = false) :
      CommandEffect s (closeEvent false s (moveClaim i .overrun s))
  | cancelled {i : Slot} {c : Claim} (at_slot : s.claimAt i = some c) (waiting : c.state = .queued ∨ c.state = .checking) :
      CommandEffect s (closeEvent false s (withdrawEntry (.book (s.handleAt i)) (freeSlot i s)))
  | booked {i : Slot} {b : Booking} (room : s.queueFull = false) (slot : s.freeSlotOf = some i)
      (window : endedBy b.stop b.start = false) : CommandEffect s (acceptBooking i b s).1
  | fired {i : Slot} {b : Booking} (k : Fin 16) (w : Fin 4) (room : s.queueFull = false) (slot : s.freeSlotOf = some i)
      (window : endedBy b.stop b.start = false) : CommandEffect s (acceptBooking i b (accessWay k w s)).1
  | amended {i : Slot} {c : Claim} {a : Amendment} (at_slot : s.claimAt i = some c)
      (window : endedBy a.newEnd c.start = false) (occupying : c.state.occupying = true) (no_amend : c.amend = .none)
      (room : s.queueFull = false) : CommandEffect s (acceptAmend i c a s).1
  | zoneRequested {z : Zone} {area : FixedBox} (free : s.zones[z].awaiting = false) (room : s.queueFull = false) :
      CommandEffect s (acceptZone z area s).1
  | zoneEmptied (z : Zone) : CommandEffect s (closeEvent false s (withdrawEntry (.zone z) (s.setZone z .empty)))
  | protectSet (m : Protect) : CommandEffect s { s with protect := m }
  | bound {f : Flyer} {w : Winch} (unbound : s.bindings[w] = .none) (room : (s.boundWinches f).length < Config.bindingRoom)
      (no_grant : s.grantOf f = .none) : CommandEffect s (s.setBinding w (some f))
  | unbound {f : Flyer} {w : Winch} (is_bound : s.bindings[w] = some f) (no_grant : s.grantOf f = .none) :
      CommandEffect s (s.setBinding w .none)
  | breachCleared (f : Flyer) : CommandEffect s (s.setFlyer f { s.flyers[f] with breach := .none })
  | reopened {c : Flyer} (lost : s.channels[c].state = .lost) :
      CommandEffect s (s.setChannel c { s.channels[c] with state := .opened, timer := .none })
  | holdPushed (src : HoldSource) : CommandEffect s (closeEvent false s (pushHold src true s))
  | holdReleased (src : HoldSource) : CommandEffect s (removeHold src s)
  | clockLoaded {v : Nat} (in_range : v < Config.maxTick) (void : s.clock.run = .void) :
      CommandEffect s (jumpEvent (s.setClock { s.clock with count := v, run := loadedRun s }))
  | sourceSelected (src : TickSource) : CommandEffect s (selectSource src s)
  | clockSkipped {d : Nat} (frozen : s.clock.run = .frozen) :
      CommandEffect s (endClock (jumpEvent (s.setClock { s.clock with count := min (s.clock.count + d) Config.maxTick })))
  | templateStored {w : Fin 4} {x : Template}
      (own : s.templates.sets[cueSet x.cue].find x.cue = some w ∨ s.templates.sets[cueSet x.cue].find x.cue = .none) :
      CommandEffect s (s.setTemplates (cueSet x.cue) (s.templates.sets[cueSet x.cue].load w x))
  | templateEvicted {w : Fin 4} {x : Template} (absent : s.templates.sets[cueSet x.cue].find x.cue = .none) :
      CommandEffect s (noteEviction (s.templates.sets[cueSet x.cue].cueAt w)
        (s.setTemplates (cueSet x.cue) (s.templates.sets[cueSet x.cue].load w x)))
  | templateDropped (k : Fin 16) (w : Fin 4) : CommandEffect s (writeWay k w .none s)
  | templateLocked {k : Fin 16} {w : Fin 4} {x : Template} (v : Bool) (at_way : s.templates.sets[k].ways[w] = some x) :
      CommandEffect s (writeWay k w (some { x with locked := v }) s)

/-- What an event of the lines, the channels, the timers and the supplies can make of the state; the walk reads only where the command asks it to. -/
inductive EventEffect (reads : Prop) (s : State) : State → Prop
  | none : EventEffect reads s s
  | time (d : Nat) : EventEffect reads s (elapse d s)
  | heard (ch : Flyer) (bytes : List Byte) (last : Byte) (runs : s.running = true) : EventEffect reads s (hearBytes ch bytes last s)
  | unheard (ch : Flyer) (d : Nat) : EventEffect reads s (setReceiver ch .hunting (elapse d s))
  | misheard (ch : Flyer) : EventEffect reads s (setReceiver ch .hunting s)
  | discarded (ch : Flyer) : EventEffect reads s (dropHead ch s)
  | hello (ch : Flyer) (id : Byte) (room : s.channels[ch].mayHandle = true) (runs : s.running = true) :
      EventEffect reads s (judgeHello ch id (dropHead ch s))
  | sent (ch : Flyer) : EventEffect reads s (s.setChannel ch { s.channels[ch] with out := s.channels[ch].out.drop 1 })
  | late (ch : Flyer) (d : Nat) (live : s.channels[ch].state = .live) : EventEffect reads s (lateChannel ch (elapse d s))
  | lost (ch : Flyer) (d : Nat) (armed : s.channels[ch].state = .live ∨ s.channels[ch].state = .late) :
      EventEffect reads s (loseChannel ch (elapse d s))
  | leaseExpired (f : Flyer) (d : Nat) : EventEffect reads s (expireGrant f (elapse d s))
  | asked {ch : Flyer} {x y z : Byte} {rest : List InFrame} (head : s.channels[ch].inbound = .ask x y z :: rest)
      (granted : s.grantsChannel ch = true) : EventEffect reads s (answerAsk ch (cellOf x y z) (dropHead ch (serveChannel ch s)))
  | reported {ch : Flyer} {x y z flags : Byte} {rest : List InFrame} (head : s.channels[ch].inbound = .report x y z flags :: rest)
      (granted : s.grantsChannel ch = true) :
      EventEffect reads s (closeEvent false s (handleReport ch (cellOf x y z) (groundedOf flags) (dropHead ch (serveChannel ch s))))
  | slotRead {w : Walk} {i : Slot} (asked : reads) (walk : s.admission.walk = some w) (pos : w.pos = .claims i) (granted : s.grantsWalk = true) :
      EventEffect reads s (readSlot w i (serveWalk s))
  | zoneRead {w : Walk} {z : Zone} (asked : reads) (walk : s.admission.walk = some w) (pos : w.pos = .zones z) (runs : s.running = true) :
      EventEffect reads s (readZone w z s)
  | period (t : Nat) (runs : s.running = true) : EventEffect reads s (nextPeriod t s)
  | tickedPeriod (t : Nat) (runs : s.running = true) : EventEffect reads s (sourceEvent (nextPeriod t s))
  | pulse (request : Option Nat) (runs : s.running = true) :
      EventEffect reads s (sourceEvent (s.setClock { s.clock with request := request, source := .external, pulseWatch := some 0 }))
  | fellBack (d : Nat) : EventEffect reads s (fallBack (elapse d s))
  | requestAbandoned (d : Nat) : EventEffect reads s (abandonRequest (elapse d s))
  | stopLevel (v : Bool) : EventEffect reads s (setStopLine v s)
  | ringLevel (v : Bool) : EventEffect reads s (setRingLine v s)
  | stopped (runs : s.running = true) : EventEffect reads s (closeEvent false s (takeStop true (setStopLine true s)))
  | rung (runs : s.running = true) : EventEffect reads s (closeEvent false s (takeRing true (setRingLine true s)))
  | rigLock (v : Bool) : EventEffect reads s { s with inputs := { s.inputs with rigLock := v } }
  | backupEntry (main : s.supply.state = .main) : EventEffect reads s (setSupplyState .backup (recordEntry (quietChannels (haltBlocks s))))
  | returnOfMain (backup : s.supply.state = .backup) :
      EventEffect reads s (beginHead (restartFlags (returnTimers (restartBlocks (setSupplyState .main (recordReturn s))))))
  | resetAsserted (main : s.supply.state = .main) (high : s.inputs.reset = false) :
      EventEffect reads s (restartFlags (restartBlocks (setResetLine true s)))
  | resetDeasserted (main : s.supply.state = .main) (low : s.inputs.reset = true) :
      EventEffect reads s (beginRunning true (setResetLine false s))
  | resetLevel (v : Bool) (off_main : s.supply.state ≠ .main) : EventEffect reads s (setResetLine v s)
  | coldHeld (off : s.supply.state = .off) (low : s.inputs.reset = true) : EventEffect reads s (driveLines (stopTimers (coldValues s)))
  | coldStarted (off : s.supply.state = .off) (high : s.inputs.reset = false) :
      EventEffect reads s (driveLines (beginRunning false (coldValues s)))
  | poweredOff : EventEffect reads s (powerOff s)
  | cellFollowed (present : Bool) : EventEffect reads s { s with supply := { s.supply with backupPresent := present } }
  | cellLost : EventEffect reads s (powerOff { s with supply := { s.supply with backupPresent := false } })

/-- What a command of the table can make of the state: an answer at an open transaction with its owner's effect, the edge of a select, or an event. -/
inductive StepEffect (reads : Prop) (s : State) : State → Prop
  | answered {u : State} (sel : Select) (x : Transaction) (runs : s.running = true) (is_open : s.tx sel ≠ .idle)
      (effect : CommandEffect s u) : StepEffect reads s (u.setTx sel x)
  | opened {sel : Select} (runs : s.running = true) (high : s.selectLow sel = false) (other : s.selectLow sel.other = false) :
      StepEffect reads s ((s.setSelectLow sel true).setTx sel .command)
  | fell (sel : Select) : StepEffect reads s (s.setSelectLow sel true)
  | rose {u : State} (sel : Select) (effect : u = s ∨ u = forgetShown s ∨ ∃ m, u = forgetShown (clearFlagSet m s)) :
      StepEffect reads s ((u.setSelectLow sel false).setTx sel .idle)
  | event {t : State} (effect : EventEffect reads s t) : StepEffect reads s t

/-! ## The console commands -/

theorem selectIn_some {s : State} {sel : Select} {x : Transaction} (h : s.selectIn x = some sel) (hi : x ≠ .idle) :
    s.running = true ∧ s.tx sel ≠ .idle := by
  unfold State.selectIn at h
  split at h
  · exact absurd h (by simp)
  · next halted =>
    refine ⟨by simpa using halted, ?_⟩
    split at h
    · next show_tx =>
      cases h
      exact fun e => hi (show_tx.symm.trans e)
    · split at h
      · next crew_tx =>
        cases h
        exact fun e => hi (crew_tx.symm.trans e)
      · exact absurd h (by simp)

variable {reads : Prop}

theorem StepEffect.stay (s : State) : StepEffect reads s s := .event .none

/-- A console command leads where its owner's effect leads, answered at the select whose transaction was open. -/
theorem takeCommand_effect {c : Command} {owner : Select → State → State × Transaction} {s : State}
    (h : ∀ sel, CommandEffect s (owner sel s).1) : Leads (takeCommand c owner s) (StepEffect reads s) := by
  unfold takeCommand
  split
  · exact .next (.stay s)
  · next sel taking =>
    obtain ⟨runs, is_open⟩ := selectIn_some taking (awaitedBy_ne_idle c)
    split
    · exact .next (.answered sel _ runs is_open .none)
    · exact .next (.answered sel _ runs is_open (h sel))

/-- A command on a claim has the effect it has on the claim its handle names. -/
theorem onClaim_effect {handle : Byte} {act : Slot → Claim → State → State × Transaction} {s : State}
    (h : ∀ i c, s.claimAt i = some c → CommandEffect s (act i c s).1) : CommandEffect s (onClaim handle act s).1 := by
  unfold onClaim
  split
  · exact .none
  · next c named => exact h _ c (resolve_eq_some.mp named).2

section
variable {s : State} {i : Slot} {c : Claim} (hc : s.claimAt i = some c)
include hc

theorem dismissClaim_effect : CommandEffect s (dismissClaim i c s).1 := by
  unfold dismissClaim
  split
  · next refused => exact .claimFreed hc (by simp [refused]) (by simp [refused]) (by simp [refused, ClaimState.inForce])
  · exact .none

theorem retireClaim_effect : CommandEffect s (retireClaim i c s).1 := by
  unfold retireClaim
  split
  case h_1 booked => exact .claimFreed hc (by simp [booked]) (by simp [booked]) (by simp [booked, ClaimState.inForce])
  case h_2 begun | h_3 begun | h_4 begun =>
    split
    · exact .none
    · split
      · exact .none
      · next no_grant =>
        exact .claimFreed hc (by simp [begun]) (by simp [begun]) fun _ => .inl (by simpa using no_grant)
  all_goals exact .none

theorem forceRetireClaim_effect : CommandEffect s (forceRetireClaim i c s).1 := by
  unfold forceRetireClaim
  split
  case h_1 begun | h_2 begun | h_3 begun =>
    split
    case h_1 channel => exact .claimFreed hc (by simp [begun]) (by simp [begun]) fun _ => .inr (.inr channel)
    case h_2 channel => exact .claimFreed hc (by simp [begun]) (by simp [begun]) fun _ => .inr (.inl channel)
    all_goals exact .none
  all_goals exact .none

theorem holdClaim_effect : CommandEffect s (holdClaim i c s).1 := by
  unfold holdClaim
  split
  · next active => exact .claimHeld hc (.inl ⟨active, rfl⟩)
  · next overrun => exact .claimHeld hc (.inr ⟨overrun, rfl⟩)
  · exact .none

theorem resumeClaim_effect : CommandEffect s (resumeClaim i c s).1 := by
  unfold resumeClaim
  split
  · exact .none
  · next cause ended cause_ne held =>
    split
    · exact .none
    · split
      · next is_ended =>
        subst is_ended
        unfold resumeEnded
        split
        · next settled =>
          refine .claimFreed hc (by simp [held]) (by simp [held]) fun _ => .inl ?_
          simp only [State.settled, Bool.and_eq_true, Option.isNone_iff_eq_none] at settled
          exact settled.2
        · split
          · exact .none
          · next clear => exact .resumedOverrun hc held cause_ne (by simpa using clear)
      · next not_ended =>
        simp only [Bool.not_eq_true] at not_ended
        subst not_ended
        unfold resumeClear
        split
        · next overstayed => exact .resumedOverlap hc held cause_ne overstayed
        · next clear => exact .resumedActive hc held cause_ne (by simpa using clear)
  · exact .none

theorem cancelClaim_effect : CommandEffect s (cancelClaim i c s).1 := by
  unfold cancelClaim
  split
  · next queued => exact .cancelled hc (.inl queued)
  · next checking => exact .cancelled hc (.inr checking)
  · exact .none

theorem amendClaim_effect (a : Amendment) : CommandEffect s (amendClaim a i c s).1 := by
  unfold amendClaim
  split
  · exact .none
  · next window =>
    split
    · exact .none
    · next fits =>
      simp only [Bool.or_eq_true, Bool.not_eq_eq_eq_not, Bool.not_true, not_or, Bool.not_eq_false, Option.not_isSome_iff_eq_none] at fits
      split
      · exact .none
      · next room => exact .amended hc (by simpa [emptyWindow] using window) fits.1 fits.2 (by simpa using room)

end

theorem bookOperands_effect (f : Byte) (box : BoxBytes) (start : Word24) (p : Byte) (stop : Word24) (s : State) :
    CommandEffect s (bookOperands f box start p stop s).1 := by
  unfold bookOperands
  dsimp only
  split
  · split
    · exact .none
    · next window =>
      unfold bookClaim
      split
      · exact .none
      · next room =>
        split
        · exact .none
        · next slot => exact .booked (by simpa using room) slot (by simpa [emptyWindow] using window)
  · exact .none

theorem amendOperands_effect (h p : Byte) (e : Word24) (box : BoxBytes) (s : State) :
    CommandEffect s (amendOperands h p e box s).1 := by
  unfold amendOperands
  dsimp only
  split
  · exact .none
  · split
    · exact .none
    · exact onClaim_effect fun i c hc => amendClaim_effect hc _

theorem zoneSetOperands_effect (z : Byte) (box : BoxBytes) (f : Byte) (s : State) :
    CommandEffect s (zoneSetOperands z box f s).1 := by
  unfold zoneSetOperands
  split
  · split
    · exact .none
    · split
      · exact .none
      · next free =>
        split
        · exact .none
        · next room => exact .zoneRequested (by simpa using free) (by simpa using room)
  · exact .none

theorem zoneClearOperands_effect (z : Byte) (s : State) : CommandEffect s (zoneClearOperands z s).1 := by
  unfold zoneClearOperands
  split
  · exact .none
  · split
    · exact .none
    · split
      · exact .none
      · exact .zoneEmptied _

theorem setProtectOperand_effect (m : Byte) (s : State) : CommandEffect s (setProtectOperand m s).1 := by
  unfold setProtectOperand
  split
  · exact .none
  · split
    · exact .none
    · exact .protectSet _

theorem bindOperands_effect (f w : Byte) (s : State) : CommandEffect s (bindOperands f w s).1 := by
  unfold bindOperands
  split
  · split
    · exact .none
    · split
      · split <;> exact .none
      · next unbound =>
        unfold bindWinch
        split
        · exact .none
        · next room =>
          split
          · exact .none
          · split
            · exact .none
            · next no_grant => exact .bound unbound (Nat.not_le.mp room) (by simpa using no_grant)
  · exact .none

theorem unbindOperand_effect (w : Byte) (s : State) : CommandEffect s (unbindOperand w s).1 := by
  unfold unbindOperand
  split
  · exact .none
  · split
    · exact .none
    · split
      · exact .none
      · next is_bound =>
        split
        · exact .none
        · split
          · exact .none
          · next no_grant => exact .unbound is_bound (by simpa using no_grant)

theorem clearBreachOperand_effect (f : Byte) (s : State) : CommandEffect s (clearBreachOperand f s).1 := by
  unfold clearBreachOperand
  split
  · exact .none
  · split
    · exact .breachCleared _
    · exact .none

theorem reopenOperand_effect (c : Byte) (s : State) : CommandEffect s (reopenOperand c s).1 := by
  unfold reopenOperand
  split
  · exact .none
  · split
    · next lost => exact .reopened lost
    · exact .none

theorem releaseFrom_effect (b : Byte) (sel : Select) (s : State) : CommandEffect s (releaseFrom b sel s).1 := by
  unfold releaseFrom
  split
  · exact .none
  · split
    · exact .none
    · split
      · exact .none
      · split
        · exact .none
        · exact .holdReleased _

theorem setClockOperand_effect (v : Word24) (s : State) : CommandEffect s (setClockOperand v s).1 := by
  unfold setClockOperand
  split
  · exact .none
  · next in_range =>
    split
    · exact .none
    · next void => exact .clockLoaded (Nat.not_le.mp in_range) (Classical.not_not.mp void)

theorem setSourceOperand_effect (b : Byte) (s : State) : CommandEffect s (setSourceOperand b s).1 := by
  unfold setSourceOperand
  split
  · exact .none
  · exact .sourceSelected _

theorem skipOperand_effect (d : Word24) (s : State) : CommandEffect s (skipOperand d s).1 := by
  unfold skipOperand
  split
  · exact .none
  · split
    · exact .none
    · next frozen => exact .clockSkipped (Classical.not_not.mp frozen)

theorem loadTemplate_effect (x : Template) (s : State) : CommandEffect s (loadTemplate x s).1 := by
  unfold loadTemplate
  dsimp only
  split
  · next own =>
    exact CommandEffect.templateStored (x := { x with locked := s.templates.sets[cueSet x.cue].lockedAt _ }) (.inl own)
  · next absent _ => exact .templateStored (.inr absent)
  · next absent _ _ => exact .templateEvicted absent
  · exact .none

theorem loadTemplateOperands_effect (cue : Word16) (f : Byte) (box : BoxBytes) (o d : Word16) (s : State) :
    CommandEffect s (loadTemplateOperands cue f box o d s).1 := by
  unfold loadTemplateOperands
  split
  · exact loadTemplate_effect _ s
  · exact .none

/-- A command on a template has the effect it has on the template found in its way. -/
theorem onTemplate_effect {cue : Word16} {act : Fin 16 → Fin 4 → Template → State → State × Transaction} {s : State}
    (h : ∀ k w x, s.templates.sets[k].ways[w] = some x → CommandEffect s (act k w x s).1) :
    CommandEffect s (onTemplate cue act s).1 := by
  unfold onTemplate
  split
  · exact .none
  · split
    · exact .none
    · split
      · exact .none
      · next found => exact h _ _ _ found

theorem dropTemplate_effect (k : Fin 16) (w : Fin 4) (x : Template) (s : State) :
    CommandEffect s (dropTemplate k w x s).1 := by
  unfold dropTemplate
  split
  · exact .none
  · exact .templateDropped k w

/-- The window a template books is not empty: a duration of 0 gives it no end (R147). -/
theorem booking_window (x : Template) (now : Nat) : endedBy (x.booking now).stop (x.booking now).start = false := by
  unfold Template.booking Template.stop endedBy beforeEnd
  by_cases h : x.duration = 0
  · simp [h]
  · have := Nat.pos_of_ne_zero h
    simp [h, this]

theorem fireTemplate_effect (k : Fin 16) (w : Fin 4) (x : Template) (s : State) :
    CommandEffect s (fireTemplate k w x s).1 := by
  unfold fireTemplate
  split
  · exact .none
  · split
    · exact .none
    · split
      · exact .none
      · next room =>
        split
        · exact .none
        · next slot => exact .fired k w (by simpa using room) slot (booking_window x _)

theorem streamFrom_effect {α : Type} (start : Option α) (k : α → ReadKind) (s : State) :
    CommandEffect s (streamFrom start k s).1 := by
  unfold streamFrom
  split <;> exact .none

theorem setAutoclear_effect (b : Byte) (s : State) : CommandEffect s (setAutoclear b s).1 := by
  unfold setAutoclear
  split
  · exact .none
  · exact .autoClear _

/-! ## The events of the port -/

theorem execUnknownCommand_effect (b : Byte) (s : State) : Leads (execUnknownCommand b s) (StepEffect reads s) := by
  unfold execUnknownCommand
  split
  · next sel taking =>
    obtain ⟨runs, is_open⟩ := selectIn_some taking (by simp)
    split
    · exact .next (.answered sel _ runs is_open .none)
    · exact .next (.stay s)
  · exact .next (.stay s)

theorem execCommandByte_effect (b : Byte) (s : State) : Leads (execCommandByte b s) (StepEffect reads s) := by
  unfold execCommandByte
  split
  · next sel c taking _ =>
    obtain ⟨runs, is_open⟩ := selectIn_some taking (by simp)
    split
    · exact .next (.answered sel _ runs is_open .none)
    · exact .next (.stay s)
  · exact .next (.stay s)

theorem execSelectFall_effect (sel : Select) (s : State) : Leads (execSelectFall sel s) (StepEffect reads s) := by
  unfold execSelectFall
  split
  · exact .next (.stay s)
  · next high =>
    split
    · next free =>
      simp only [Bool.and_eq_true, Bool.not_eq_eq_eq_not, Bool.not_true] at free
      exact .next (.opened free.1 (by simpa using high) free.2)
    · exact .next (.fell sel)

theorem execSelectRise_effect (sel : Select) (n : Nat) (s : State) : Leads (execSelectRise sel n s) (StepEffect reads s) := by
  unfold execSelectRise
  split
  · exact .next (.stay s)
  · refine .next (.rose sel ?_)
    by_cases hs : sel = .showSel
    · simp only [if_pos hs]
      split
      · unfold autoClearFlags
        split
        · split
          · exact .inr (.inr ⟨_, rfl⟩)
          · exact .inr (.inl rfl)
        · exact .inr (.inl rfl)
      · exact .inr (.inl rfl)
    · simp [hs]

theorem takeRecord_effect {s : State} {sel : Select} {k : ReadKind} (runs : s.running = true) (is_open : s.tx sel ≠ .idle) :
    StepEffect reads s (takeRecord sel k s) := by
  unfold takeRecord
  refine .answered sel _ runs is_open ?_
  split
  · exact .shown
  · exact .none

theorem execRecordTaken_effect (s : State) : Leads (execRecordTaken s) (StepEffect reads s) := by
  unfold execRecordTaken
  split
  · exact .next (.stay s)
  · next halted =>
    have runs : s.running = true := by simpa using halted
    split
    · next streams => exact .next (takeRecord_effect runs (by simp [State.tx, streams]))
    · split
      · next streams => exact .next (takeRecord_effect runs (by simp [State.tx, streams]))
      · exact .next (.stay s)

/-! ## The events of the channels, the lookup port and the clock -/

/-- An event's outcome. -/
theorem Leads.event {s t : State} (h : EventEffect reads s t) : Leads (.next t) (StepEffect reads s) := .next (.event h)

theorem receiveBytes_effect (ch : Flyer) (bytes : List Byte) (last : Byte) (s : State) :
    Leads (receiveBytes ch bytes last s) (StepEffect reads s) := by
  refine .event ?_
  split
  · next runs => exact .heard ch bytes last runs
  · exact .none

theorem execFrameGap_effect (ch : Flyer) (s : State) : Leads (execFrameGap ch s) (StepEffect reads s) := by
  unfold execFrameGap
  split
  · split
    · exact .event (.unheard ch _)
    · exact .next (.stay s)
  · exact .next (.stay s)

theorem execFramingError_effect (ch : Flyer) (s : State) : Leads (execFramingError ch s) (StepEffect reads s) := by
  unfold execFramingError
  split
  · exact .event (.misheard ch)
  · exact .next (.stay s)

theorem execClosedChannelDiscard_effect (ch : Flyer) (s : State) :
    Leads (execClosedChannelDiscard ch s) (StepEffect reads s) := by
  unfold execClosedChannelDiscard
  split
  case h_1 | h_2 =>
    split
    · exact .event (.discarded ch)
    · exact .next (.stay s)
  all_goals exact .next (.stay s)

theorem execHello_effect (ch : Flyer) (s : State) : Leads (execHello ch s) (StepEffect reads s) := by
  unfold execHello
  split
  case h_1 =>
    split
    · next may =>
      rw [Bool.and_eq_true] at may
      exact .event (.hello ch _ may.2 may.1)
    · exact .next (.stay s)
  all_goals exact .next (.stay s)

theorem execFrameSent_effect (ch : Flyer) (s : State) : Leads (execFrameSent ch s) (StepEffect reads s) := by
  unfold execFrameSent
  split
  · exact .event (.sent ch)
  · exact .next (.stay s)

theorem execLateExpiry_effect (ch : Flyer) (s : State) : Leads (execLateExpiry ch s) (StepEffect reads s) := by
  unfold execLateExpiry
  split
  · next may =>
    simp only [Bool.and_eq_true, decide_eq_true_eq] at may
    exact .event (.late ch _ may.1.2)
  · exact .next (.stay s)

theorem execLostExpiry_effect (ch : Flyer) (s : State) : Leads (execLostExpiry ch s) (StepEffect reads s) := by
  unfold execLostExpiry
  split
  · next may =>
    simp only [Bool.and_eq_true, Bool.or_eq_true, decide_eq_true_eq] at may
    exact .event (.lost ch _ may.1.2)
  · exact .next (.stay s)

theorem execAsk_effect (ch : Flyer) (s : State) : Leads (execAsk ch s) (StepEffect reads s) := by
  unfold execAsk
  split
  case h_1 head =>
    split
    · next granted => exact .event (.asked head granted)
    · exact .next (.stay s)
  all_goals exact .next (.stay s)

theorem execLeaseExpiry_effect (f : Flyer) (s : State) : Leads (execLeaseExpiry f s) (StepEffect reads s) := by
  unfold execLeaseExpiry
  split
  · exact .next (.stay s)
  · split
    · exact .event (.leaseExpired f _)
    · exact .next (.stay s)

theorem execReport_effect (ch : Flyer) (s : State) : Leads (execReport ch s) (StepEffect reads s) := by
  unfold execReport
  split
  case h_1 head =>
    split
    · next granted => exact .event (.reported head granted)
    · exact .next (.stay s)
  all_goals exact .next (.stay s)

theorem execWalkAccess_effect (asked : reads) (s : State) : Leads (execWalkAccess s) (StepEffect reads s) := by
  unfold execWalkAccess
  split
  · next walk =>
    split
    · next pos =>
      split
      · next granted => exact .event (.slotRead asked walk pos granted)
      · exact .next (.stay s)
    · exact .next (.stay s)
  · exact .next (.stay s)

theorem execZonePhaseRead_effect (asked : reads) (s : State) : Leads (execZonePhaseRead s) (StepEffect reads s) := by
  unfold execZonePhaseRead
  split
  · next walk =>
    split
    · next pos =>
      split
      · next runs => exact .event (.zoneRead asked walk pos runs)
      · exact .next (.stay s)
    · exact .next (.stay s)
  · exact .next (.stay s)

theorem execInternalPeriodCompletion_effect (s : State) : Leads (execInternalPeriodCompletion s) (StepEffect reads s) := by
  unfold execInternalPeriodCompletion
  split
  · exact .next (.stay s)
  · split
    · next runs =>
      refine .event ?_
      split
      · exact .tickedPeriod _ runs
      · exact .period _ runs
    · exact .next (.stay s)

theorem execExtTickPulse_effect (s : State) : Leads (execExtTickPulse s) (StepEffect reads s) := by
  unfold execExtTickPulse
  split
  · exact .next (.stay s)
  · next halted =>
    have runs : s.running = true := by simpa using halted
    split
    · next source =>
      have same_source : { s.clock with pulseWatch := some 0 }
          = { s.clock with request := s.clock.request, source := .external, pulseWatch := some 0 } := by rw [← source]
      rw [same_source]
      exact .event (.pulse _ runs)
    · split
      · exact .event (.pulse none runs)
      · exact .next (.stay s)

theorem execPulseWatchExpiry_effect (s : State) : Leads (execPulseWatchExpiry s) (StepEffect reads s) := by
  unfold execPulseWatchExpiry
  split
  · exact .event (.fellBack _)
  · exact .next (.stay s)

theorem execAbandonment_effect (s : State) : Leads (execAbandonment s) (StepEffect reads s) := by
  unfold execAbandonment
  split
  · exact .event (.requestAbandoned _)
  · exact .next (.stay s)

/-! ## The lines and the supplies -/

theorem execStopAssertion_effect (s : State) : Leads (execStopAssertion s) (StepEffect reads s) := by
  unfold execStopAssertion
  split
  · exact .next (.stay s)
  · split
    · next runs => exact .event (.stopped runs)
    · exact .event (.stopLevel true)

theorem execRingAssertion_effect (s : State) : Leads (execRingAssertion s) (StepEffect reads s) := by
  unfold execRingAssertion
  split
  · exact .next (.stay s)
  · split
    · next runs => exact .event (.rung runs)
    · exact .event (.ringLevel true)

theorem execBackupEntry_effect (s : State) : Leads (execBackupEntry s) (StepEffect reads s) := by
  unfold execBackupEntry
  split
  · next may =>
    simp only [Bool.and_eq_true, decide_eq_true_eq] at may
    exact .event (.backupEntry may.1)
  · exact .next (.stay s)

theorem execReturnOfMain_effect (s : State) : Leads (execReturnOfMain s) (StepEffect reads s) := by
  unfold execReturnOfMain
  split
  · next backup => exact .event (.returnOfMain backup)
  · exact .next (.stay s)

theorem execResetAssertion_effect (s : State) : Leads (execResetAssertion s) (StepEffect reads s) := by
  unfold execResetAssertion
  split
  · exact .next (.stay s)
  · next high =>
    split
    · next main => exact .event (.resetAsserted main (by simpa using high))
    · next off_main => exact .event (.resetLevel true off_main)

theorem execResetDeassertion_effect (s : State) : Leads (execResetDeassertion s) (StepEffect reads s) := by
  unfold execResetDeassertion
  split
  · exact .next (.stay s)
  · next low =>
    split
    · next main => exact .event (.resetDeasserted main (by simpa using low))
    · next off_main => exact .event (.resetLevel false off_main)

theorem execColdStart_effect (s : State) : Leads (execColdStart s) (StepEffect reads s) := by
  unfold execColdStart
  split
  · next off =>
    split
    · next low => exact .event (.coldHeld off low)
    · next high => exact .event (.coldStarted off (by simpa using high))
  · exact .next (.stay s)

theorem execMainFallsWithoutBackup_effect (s : State) : Leads (execMainFallsWithoutBackup s) (StepEffect reads s) := by
  unfold execMainFallsWithoutBackup
  split
  · exact .event .poweredOff
  · exact .next (.stay s)

theorem followCell_effect (present : Bool) (s : State) : EventEffect reads s (followCell present s) := by
  unfold followCell
  dsimp only
  split
  · next lost =>
    simp only [Bool.and_eq_true, Bool.not_eq_eq_eq_not, Bool.not_true] at lost
    rw [lost.2]
    exact .cellLost
  · exact .cellFollowed present

/-! ## Every command of the table -/

/-- Every command, in every state, leads to a next state, by one of the effects; two of them alone make the walk read. -/
theorem exec_effect (i : Instr) (s : State) : Leads (exec i s) (StepEffect (i = .walkAccess ∨ i = .zonePhaseRead) s) := by
  cases i with
  | status | readHolds | readAlert | readSupply => exact takeCommand_effect fun _ => .none
  | readClaims | readZones | readFlyers | readTemplates => exact takeCommand_effect fun _ => streamFrom_effect _ _ s
  | book f box start p stop => exact takeCommand_effect fun _ => bookOperands_effect f box start p stop s
  | amend h p e box => exact takeCommand_effect fun _ => amendOperands_effect h p e box s
  | cancel => exact takeCommand_effect fun _ => onClaim_effect fun _ _ => cancelClaim_effect
  | retire => exact takeCommand_effect fun _ => onClaim_effect fun _ _ => retireClaim_effect
  | forceRetire => exact takeCommand_effect fun _ => onClaim_effect fun _ _ => forceRetireClaim_effect
  | holdClaim => exact takeCommand_effect fun _ => onClaim_effect fun _ _ => holdClaim_effect
  | resume => exact takeCommand_effect fun _ => onClaim_effect fun _ _ => resumeClaim_effect
  | dismiss => exact takeCommand_effect fun _ => onClaim_effect fun _ _ => dismissClaim_effect
  | zoneSet z box f => exact takeCommand_effect fun _ => zoneSetOperands_effect z box f s
  | zoneClear z => exact takeCommand_effect fun _ => zoneClearOperands_effect z s
  | setProtect m => exact takeCommand_effect fun _ => setProtectOperand_effect m s
  | bind f w => exact takeCommand_effect fun _ => bindOperands_effect f w s
  | unbind w => exact takeCommand_effect fun _ => unbindOperand_effect w s
  | clearBreach f => exact takeCommand_effect fun _ => clearBreachOperand_effect f s
  | reopen c => exact takeCommand_effect fun _ => reopenOperand_effect c s
  | hold => exact takeCommand_effect fun sel => .holdPushed (holdSourceFrom sel)
  | release b => exact takeCommand_effect fun sel => releaseFrom_effect b sel s
  | setClock v => exact takeCommand_effect fun _ => setClockOperand_effect v s
  | setSource b => exact takeCommand_effect fun _ => setSourceOperand_effect b s
  | skip d => exact takeCommand_effect fun _ => skipOperand_effect d s
  | loadTemplate cue f box o d => exact takeCommand_effect fun _ => loadTemplateOperands_effect cue f box o d s
  | dropTemplate => exact takeCommand_effect fun _ => onTemplate_effect fun k w x _ => dropTemplate_effect k w x s
  | lockTemplate => exact takeCommand_effect fun _ => onTemplate_effect fun _ _ _ found => .templateLocked true found
  | unlockTemplate => exact takeCommand_effect fun _ => onTemplate_effect fun _ _ _ found => .templateLocked false found
  | fire => exact takeCommand_effect fun _ => onTemplate_effect fun k w x _ => fireTemplate_effect k w x s
  | setEnables m => exact takeCommand_effect (owner := fun _ t => (enableFlagSet (flagsOf m) t, answer .ok)) fun _ => .enabled _
  | setAutoclear b => exact takeCommand_effect fun _ => setAutoclear_effect b s
  | clearFlags m => exact takeCommand_effect (owner := fun _ t => (clearFlagSet (flagsOf m) t, answer .ok)) fun _ => .cleared _
  | clearAlert => exact takeCommand_effect (owner := fun _ t => (emptyAlert t, answer .ok)) fun _ => .alertEmptied
  | clearSupply => exact takeCommand_effect (owner := fun _ t => (emptySupply t, answer .ok)) fun _ => .supplyEmptied
  | unknownCommand b => exact execUnknownCommand_effect b s
  | selectFall sel => exact execSelectFall_effect sel s
  | selectRise sel n => exact execSelectRise_effect sel n s
  | recordTaken => exact execRecordTaken_effect s
  | frameTaken ch bytes last => exact receiveBytes_effect ch bytes last s
  | frameGap ch => exact execFrameGap_effect ch s
  | framingError ch => exact execFramingError_effect ch s
  | hello ch => exact execHello_effect ch s
  | report ch => exact execReport_effect ch s
  | ask ch => exact execAsk_effect ch s
  | closedChannelDiscard ch => exact execClosedChannelDiscard_effect ch s
  | frameSent ch => exact execFrameSent_effect ch s
  | lateExpiry ch => exact execLateExpiry_effect ch s
  | lostExpiry ch => exact execLostExpiry_effect ch s
  | leaseExpiry f => exact execLeaseExpiry_effect f s
  | walkAccess => exact execWalkAccess_effect (.inl rfl) s
  | zonePhaseRead => exact execZonePhaseRead_effect (.inr rfl) s
  | internalPeriodCompletion => exact execInternalPeriodCompletion_effect s
  | extTickPulse => exact execExtTickPulse_effect s
  | pulseWatchExpiry => exact execPulseWatchExpiry_effect s
  | abandonment => exact execAbandonment_effect s
  | stopAssertion => exact execStopAssertion_effect s
  | ringAssertion => exact execRingAssertion_effect s
  | stopDeassertion => exact .event (.stopLevel false)
  | ringDeassertion => exact .event (.ringLevel false)
  | rigLockChange v => exact .event (.rigLock v)
  | backupEntry => exact execBackupEntry_effect s
  | returnOfMain => exact execReturnOfMain_effect s
  | resetAssertion => exact execResetAssertion_effect s
  | resetDeassertion => exact execResetDeassertion_effect s
  | coldStart => exact execColdStart_effect s
  | mainFallsWithoutBackup => exact execMainFallsWithoutBackup_effect s
  | cellBecomesAbsent => exact .event (followCell_effect false s)
  | backupPresenceChange present => exact .event (followCell_effect present s)
  | syncByte ch => exact receiveBytes_effect ch [] _ s
  | unknownKind ch kind => exact receiveBytes_effect ch [] kind s
  | commandByte b => exact execCommandByte_effect b s

/-- A step is one of the effects on the state without the command it takes; with no command waiting, real time passes. -/
theorem step_effect {s t : State} (h : step s = .next t) :
    ∃ rest, StepEffect (s.pending.head? = some .walkAccess ∨ s.pending.head? = some .zonePhaseRead)
      { s with pending := rest } t := by
  cases hp : s.pending with
  | nil =>
    refine ⟨s.pending, ?_⟩
    rw [step_nil s hp] at h
    cases h
    exact .event (.time 1)
  | cons c rest =>
    rw [step_cons s c rest hp] at h
    rw [List.head?_cons, Option.some.injEq, Option.some.injEq]
    exact ⟨rest, (exec_effect c _).of_next h⟩

end Sys2Proof.Machine
end

section
/-! PROOF. What no claim, grant or hold touches: the queue of commands, the console port, the input lines, the supply state, the bindings and the templates, under every effect. With it every command completes (O3), and the laws of the bindings and of the templates are kept (O54). -/

namespace Sys2Proof.Machine

/-! ## The port and the store under the shared operations -/

/-- The queue of commands, the console, the input lines and the supply state. -/
def State.portView (s : State) : List Instr × Console × Inputs × SupplyState :=
  (s.pending, s.console, s.inputs, s.supply.state)

/-- From s to t the laws of the bindings and of the templates are kept (R64, R146). -/
def StoreKept (s t : State) : Prop := (BindingLaw s → BindingLaw t) ∧ (TemplateLaw s → TemplateLaw t)

/-- From s to t the port stays as it is, and the laws of the store are kept. -/
def PortStays (s t : State) : Prop := t.portView = s.portView ∧ StoreKept s t

theorem StoreKept.trans {s t u : State} (h : StoreKept s t) (k : StoreKept t u) : StoreKept s u :=
  ⟨k.1 ∘ h.1, k.2 ∘ h.2⟩

theorem PortStays.trans {s t u : State} (h : PortStays s t) (k : PortStays t u) : PortStays s u :=
  ⟨k.1.trans h.1, h.2.trans k.2⟩

theorem StoreKept.of_eq {s t : State} (hb : t.bindings = s.bindings) (ht : t.templates = s.templates) : StoreKept s t := by
  refine ⟨fun law f => ?_, fun law => ?_⟩
  · unfold State.boundWinches
    rw [hb]
    exact law f
  · unfold TemplateLaw
    rw [ht]
    exact law

theorem PortStays.of_eq {s t : State} (hv : t.portView = s.portView) (hb : t.bindings = s.bindings)
    (ht : t.templates = s.templates) : PortStays s t :=
  ⟨hv, .of_eq hb ht⟩

theorem PortStays.refl (s : State) : PortStays s s := .of_eq rfl rfl rfl

theorem HoldFrame.portStays {s t : State} (h : HoldFrame s t) : PortStays s t :=
  .of_eq (by rw [h]; rfl) h.bindings h.templates

theorem GrantFrame.portStays {s t : State} (h : GrantFrame s t) : PortStays s t := h.hold.portStays

theorem ClaimFrame.portStays {s t : State} (h : ClaimFrame s t) : PortStays s t := h.grant.portStays

theorem setClock_portStays (c : Clock) (s : State) : PortStays s (s.setClock c) := .of_eq rfl rfl rfl

theorem endClock_portStays (s : State) : PortStays s (endClock s) := by
  unfold endClock
  split
  · exact .of_eq rfl rfl rfl
  · exact .refl s

theorem selectSource_portStays (src : TickSource) (s : State) : PortStays s (selectSource src s) := by
  unfold selectSource
  split
  case h_2 => exact .refl s
  all_goals exact setClock_portStays _ s

theorem elapse_portStays (d : Nat) (s : State) : PortStays s (elapse d s) := by
  refine .of_eq ?_ (elapse_bindings d s) (elapse_templates d s)
  unfold State.portView
  rw [elapse_pending, elapse_console, elapse_inputs, elapse_supply]

/-! ## Bindings (R64) -/

/-- A property that holds, beyond another, of one entry at most is counted once more at most. -/
theorem countP_le_succ {n : Nat} {p q : Fin n → Bool} {w : Fin n} (h : ∀ v, q v = true → p v = true ∨ v = w) :
    (List.finRange n).countP q ≤ (List.finRange n).countP p + 1 := by
  have at_most : ∀ l : List (Fin n), l.countP q ≤ l.countP p + l.count w := by
    intro l
    induction l with
    | nil => simp
    | cons v l ih =>
      simp only [List.countP_cons, List.count_cons]
      by_cases hq : q v = true
      · rcases h v hq with hp | rfl
        · simp only [hq, hp, if_true]
          omega
        · simp only [hq, if_true, beq_self_eq_true]
          split <;> omega
      · simp only [hq, if_false, Bool.false_eq_true]
        omega
  have once : (List.finRange n).count w ≤ 1 := List.nodup_iff_count.mp (List.nodup_finRange n) w
  exact Nat.le_trans (at_most _) (by omega)

/-- The number of winches bound to a flyer, as a count. -/
theorem boundWinches_length (s : State) (f : Flyer) :
    (s.boundWinches f).length = allWinches.countP (fun w => decide (s.bindings[w] = some f)) :=
  List.countP_eq_length_filter.symm

theorem setBinding_none_law {s : State} (w : Winch) (law : BindingLaw s) : BindingLaw (s.setBinding w none) := by
  intro f
  refine Nat.le_trans ?_ (law f)
  rw [boundWinches_length, boundWinches_length]
  refine List.countP_mono_left fun v _ hv => ?_
  simp only [decide_eq_true_eq, setBinding_get] at hv ⊢
  split at hv
  · exact absurd hv (by simp)
  · exact hv

theorem setBinding_some_law {s : State} {f : Flyer} (w : Winch) (room : (s.boundWinches f).length < Config.bindingRoom)
    (law : BindingLaw s) : BindingLaw (s.setBinding w (some f)) := by
  intro g
  rw [boundWinches_length]
  by_cases hg : f = g
  · subst hg
    rw [boundWinches_length] at room
    refine Nat.le_trans (countP_le_succ (w := w) fun v hv => ?_) room
    simp only [decide_eq_true_eq, setBinding_get] at hv ⊢
    split at hv
    · next same => exact .inr same.symm
    · exact .inl hv
  · refine Nat.le_trans ?_ (law g)
    rw [boundWinches_length]
    refine List.countP_mono_left fun v _ hv => ?_
    simp only [decide_eq_true_eq, setBinding_get] at hv ⊢
    split at hv
    · exact absurd (Option.some.inj hv) hg
    · exact hv

/-! ## Templates (R146, R147) -/

/-- A set that holds only templates of its number, no cue in two ways. -/
def SetLaw (k : Fin 16) (t : TemplateSet) : Prop :=
  ∀ v : Fin 4, (t.ways[v].all (fun x => decide (x.cue % 16 = k.val)) = true) ∧
    ∀ w : Fin 4, v ≠ w → (t.cueAt v).isSome → t.cueAt v ≠ t.cueAt w

theorem templateLaw_iff (s : State) : TemplateLaw s ↔ ∀ k : Fin 16, SetLaw k s.templates.sets[k] := Iff.rfl

theorem setTemplates_law {s : State} {k : Fin 16} {t : TemplateSet} (ht : SetLaw k s.templates.sets[k] → SetLaw k t)
    (law : TemplateLaw s) : TemplateLaw (s.setTemplates k t) := by
  rw [templateLaw_iff] at law ⊢
  intro j
  rw [setTemplates_get]
  split
  · next same => exact same ▸ ht (law k)
  · exact law j

theorem setWay_cueAt (t : TemplateSet) (w v : Fin 4) (x : Option Template) :
    (t.setWay w x).cueAt v = if w = v then x.map (fun y => y.cue) else t.cueAt v := by
  simp only [TemplateSet.cueAt, TemplateSet.setWay, Fin.getElem_fin, Vector.getElem_set, Fin.ext_iff]
  split <;> rfl

/-- A way written with a template of the set's own, whose cue stands in no other way, or invalidated. -/
theorem setWay_law {k : Fin 16} {t : TemplateSet} {w : Fin 4} {x : Option Template} (law : SetLaw k t)
    (own : ∀ y, x = some y → y.cue % 16 = k.val ∧ ∀ v, v ≠ w → t.cueAt v ≠ some y.cue) : SetLaw k (t.setWay w x) := by
  intro v
  constructor
  · simp only [TemplateSet.setWay, Fin.getElem_fin, Vector.getElem_set]
    split
    · rw [Option.all_eq_true]
      exact fun y hy => decide_eq_true (own y hy).1
    · exact (law v).1
  · intro u hvu
    rw [setWay_cueAt, setWay_cueAt]
    split
    · next hv =>
      rintro is_some
      obtain ⟨y, rfl⟩ := Option.isSome_iff_exists.mp (by simpa using is_some)
      rw [if_neg (hv ▸ hvu)]
      exact fun e => (own y rfl).2 u (fun hu => hvu (hv.symm.trans hu.symm)) e.symm
    · next hv =>
      intro is_some
      split
      · rintro e
        cases x with
        | none => rw [e] at is_some; exact absurd is_some (by simp)
        | some y => exact (own y rfl).2 v (Ne.symm hv) e
      · exact (law v).2 u hvu is_some

theorem access_law {k : Fin 16} {t : TemplateSet} (w : Fin 4) (law : SetLaw k t) : SetLaw k (t.access w) := by
  unfold TemplateSet.access
  split <;> exact law

/-- A lookup that finds no way finds the cue in none. -/
theorem find_none_cueAt {t : TemplateSet} {cue : Nat} (h : t.find cue = none) (v : Fin 4) : t.cueAt v ≠ some cue := by
  have absent := List.find?_eq_none.mp h v (List.mem_finRange v)
  intro e
  obtain ⟨o, ho, he⟩ := Option.map_eq_some_iff.mp e
  exact absent (by simp [ho, he])

/-- A lookup finds a way that holds the cue. -/
theorem find_some_cueAt {t : TemplateSet} {cue : Nat} {w : Fin 4} (h : t.find cue = some w) : t.cueAt w = some cue := by
  have found := List.find?_some h
  cases hw : t.ways[w] with
  | none => simp [hw] at found
  | some o =>
    simp only [hw, Option.any_some, decide_eq_true_eq] at found
    simp [TemplateSet.cueAt, hw, found]

theorem load_law {t : TemplateSet} {w : Fin 4} {x : Template}
    (own : t.find x.cue = some w ∨ t.find x.cue = none) (law : SetLaw (cueSet x.cue) t) :
    SetLaw (cueSet x.cue) (t.load w x) := by
  refine access_law w (setWay_law law ?_)
  rintro y ⟨⟩
  refine ⟨rfl, fun v hv e => ?_⟩
  rcases own with found | absent
  · exact (law v).2 w hv (by simp [e]) (e.trans (find_some_cueAt found).symm)
  · exact find_none_cueAt absent v e

theorem lockWay_law {k : Fin 16} {t : TemplateSet} {w : Fin 4} {x : Template} (v : Bool) (hx : t.ways[w] = some x)
    (law : SetLaw k t) : SetLaw k (t.setWay w (some { x with locked := v })) := by
  have cue_at : t.cueAt w = some x.cue := by simp [TemplateSet.cueAt, hx]
  refine setWay_law law ?_
  rintro y ⟨⟩
  refine ⟨?_, fun u hu e => (law u).2 w hu (by simp [e]) (e.trans cue_at.symm)⟩
  have := (law w).1
  rw [hx] at this
  simpa using this

theorem setTemplates_portStays {s : State} {k : Fin 16} {t : TemplateSet}
    (ht : SetLaw k s.templates.sets[k] → SetLaw k t) : PortStays s (s.setTemplates k t) :=
  ⟨rfl, id, setTemplates_law ht⟩

/-! ## The effects of the console commands -/

theorem acceptBooking_frame (i : Slot) (b : Booking) (s : State) : ClaimFrame s (acceptBooking i b s).1 :=
  (setSlot_frame s i _).trans ((setAdmission_frame _ _).trans (closeEvent_frame _ _ _))

theorem acceptAmend_frame (i : Slot) (c : Claim) (a : Amendment) (s : State) : ClaimFrame s (acceptAmend i c a s).1 :=
  (setClaim_frame s i _).trans ((setAdmission_frame _ _).trans (closeEvent_frame _ _ _))

theorem CommandEffect.portStays {s t : State} (h : CommandEffect s t) : PortStays s t := by
  have jumped (c : Clock) : PortStays s (jumpEvent (s.setClock c)) :=
    (setClock_portStays c s).trans (jumpEvent_frame _).portStays
  cases h with
  | none => exact .refl s
  | shown | enabled | cleared | autoClear | alertEmptied | supplyEmptied | protectSet | breachCleared | reopened =>
    exact .of_eq rfl rfl rfl
  | claimFreed => exact ((freeSlot_frame _ s).trans (closeEvent_frame _ _ _)).portStays
  | @claimHeld i c ended =>
    have held : GrantFrame s (commandHold i c ended s).1 := by
      refine GrantFrame.trans ?_ (closeEvent_frame _ _ _).grant
      split
      · exact (moveClaim_frame _ _ s).grant.trans (removeGrant_frame _ _ _)
      · exact (moveClaim_frame _ _ s).grant
    exact held.portStays
  | resumedOverlap =>
    exact ((moveClaim_frame _ _ s).trans ((raiseFlag_frame _ _).trans (closeEvent_frame _ _ _))).portStays
  | resumedActive | resumedOverrun => exact ((moveClaim_frame _ _ s).trans (closeEvent_frame _ _ _)).portStays
  | cancelled =>
    exact ((freeSlot_frame _ s).trans ((withdrawEntry_frame _ _).trans (closeEvent_frame _ _ _))).portStays
  | booked => exact (acceptBooking_frame _ _ s).portStays
  | fired k w =>
    exact (setTemplates_portStays (access_law w)).trans (acceptBooking_frame _ _ _).portStays
  | amended => exact (acceptAmend_frame _ _ _ s).portStays
  | @zoneRequested z area =>
    exact (PortStays.of_eq (t := s.setZone z (requestZone area s.zones[z])) rfl rfl rfl).trans
      ((setAdmission_frame _ _).trans (closeEvent_frame _ _ _)).portStays
  | zoneEmptied z =>
    exact (PortStays.of_eq (t := s.setZone z .empty) rfl rfl rfl).trans
      ((withdrawEntry_frame _ _).trans (closeEvent_frame _ _ _)).portStays
  | bound _ room => exact ⟨rfl, setBinding_some_law _ room, id⟩
  | unbound => exact ⟨rfl, setBinding_none_law _, id⟩
  | holdPushed => exact ((pushHold_frame _ _ s).trans (closeEvent_frame _ _ _).grant.hold).portStays
  | holdReleased => exact (removeHold_frame _ s).portStays
  | clockLoaded => exact jumped _
  | clockSkipped => exact (jumped _).trans (endClock_portStays _)
  | sourceSelected => exact selectSource_portStays _ s
  | templateStored own => exact setTemplates_portStays (load_law own)
  | templateEvicted absent =>
    exact (setTemplates_portStays (load_law (.inr absent))).trans ⟨rfl, id, id⟩
  | templateDropped => exact setTemplates_portStays fun law => setWay_law law (by simp)
  | templateLocked v at_way => exact setTemplates_portStays (lockWay_law v at_way)

/-! ## The events -/

theorem sourceEvent_portStays (s : State) : PortStays s (sourceEvent s) := by
  unfold sourceEvent
  split
  · exact (setClock_portStays _ s).trans ((tickEvent_frame _).portStays.trans (endClock_portStays _))
  · exact .refl s

theorem nextPeriod_portStays (t : Nat) (s : State) : PortStays s (nextPeriod t s) :=
  (elapse_portStays _ s).trans (setClock_portStays _ _)

theorem hearByte_portStays (ch : Flyer) (b : Byte) (s : State) : PortStays s (hearByte ch b s) := by
  unfold hearByte admitFrame
  dsimp only
  split
  · split <;> exact .of_eq rfl rfl rfl
  · exact .of_eq rfl rfl rfl

theorem hearBytes_portStays (ch : Flyer) (bytes : List Byte) (last : Byte) (s : State) :
    PortStays s (hearBytes ch bytes last s) := by
  have heard := foldl_frame PortStays .refl (fun _ _ _ => .trans) (fun t b => hearByte ch b t)
    (fun t b => hearByte_portStays ch b t) bytes
  have met : PortStays s (setReceiver ch (s.channels[ch].rx.before (Config.byteTime * bytes.length)) s) :=
    .of_eq rfl rfl rfl
  exact met.trans ((heard _).trans (hearByte_portStays ch last _))

theorem judgeHello_portStays (ch : Flyer) (id : Byte) (s : State) : PortStays s (judgeHello ch id s) := by
  unfold judgeHello welcomeChannel
  split
  · split <;> exact .of_eq rfl rfl rfl
  · exact .of_eq rfl rfl rfl

theorem recordAlert_portStays (a : AlertCause) (s : State) : PortStays s (recordAlert a s) := .of_eq rfl rfl rfl

theorem handleReport_portStays (ch : Flyer) (cell : Cell) (grounded : Bool) (s : State) :
    PortStays s (handleReport ch cell grounded s) := by
  have stored : PortStays s (storeReport ch cell grounded (channelReport ch s)) := .of_eq rfl rfl rfl
  refine stored.trans ?_
  unfold handleReport reportOutcome
  split
  · next kind _ =>
    have written (u : State) : PortStays u (writeBreach ch kind cell u) := .of_eq rfl rfl rfl
    have alerted (u : State) : PortStays u (recordAlert (breachAlert ch kind)
        (writeBreach ch kind cell (breachClaims ch (removeGrant ch .breach u)))) :=
      ((removeGrant_frame ch .breach u).portStays.trans (breachClaims_frame ch _).portStays).trans
        ((written _).trans (recordAlert_portStays _ _))
    unfold breachResponse
    dsimp only
    split
    · exact (alerted _).trans (pushHold_frame _ _ _).portStays
    · exact alerted _
  · split
    · exact (groundedEvent_frame ch _).portStays
    · exact .refl _

theorem takeStop_portStays (flag : Bool) (s : State) : PortStays s (takeStop flag s) :=
  (pushHold_frame _ _ s).portStays.trans (recordAlert_portStays _ _)

theorem sampleLines_portStays (flag : Bool) (s : State) : PortStays s (sampleLines flag s) := by
  have ring_sampled (t : State) : PortStays t (if t.inputs.ring then takeRing flag t else t) := by
    split
    · exact (pushHold_frame _ _ t).portStays
    · exact .refl t
  refine PortStays.trans ?_ (ring_sampled _)
  split
  · exact takeStop_portStays flag s
  · exact .refl s

theorem placeBooking_frame (i : Slot) (c : Claim) (s : State) : ClaimFrame s (placeBooking i c s) := by
  unfold placeBooking
  split
  · exact setClaim_frame s i _
  · split
    · exact setClaim_frame s i _
    · exact openClaim_frame i s

theorem amendedState_frame (i : Slot) (c : Claim) (a : Amendment) (s : State) : GrantFrame s (amendedState i c a s) := by
  unfold amendedState
  split
  · split
    · exact (moveClaim_frame i _ s).grant.trans (restoreGrant_frame _ _ _)
    · exact .refl s
  · split
    · exact (moveClaim_frame i _ s).grant
    · exact .refl s
  · exact (releaseOverlap_frame i s).grant
  · exact .refl s

theorem amendGrant_frame (i : Slot) (c : Claim) (a : Amendment) (s : State) : GrantFrame s (amendGrant i c a s) := by
  unfold amendGrant
  split
  · split
    · exact removeGrant_frame _ _ s
    · exact .refl s
  · exact .refl s

theorem passAmendment_frame (i : Slot) (c : Claim) (a : Amendment) (s : State) : GrantFrame s (passAmendment i c a s) :=
  (setClaim_frame s i _).grant.trans ((amendedState_frame i c a _).trans (amendGrant_frame i c a _))

/-- A verdict delivered changes nothing outside the grant frame but a zone slot. -/
theorem deliverVerdict_frame (e : Entry) (v : Option Verdict) (s : State) :
    GrantFrame { s with zones := (deliverVerdict e v s).1.zones } (deliverVerdict e v s).1 := by
  have keeps_zones {t : State} (h : GrantFrame s t) : GrantFrame { s with zones := t.zones } t := by
    rw [h.zones]
    exact h
  unfold deliverVerdict
  split
  · split
    · exact .refl s
    · split
      · exact keeps_zones (setClaim_frame s _ _).grant
      · exact keeps_zones (placeBooking_frame _ _ s).grant
  · split
    · exact .refl s
    · split
      · exact keeps_zones (setClaim_frame s _ _).grant
      · exact .refl s
      · split
        · exact keeps_zones (setClaim_frame s _ _).grant
        · exact keeps_zones (passAmendment_frame _ _ _ s)
  · rfl

/-- The completion of a walk changes nothing outside the grant frame but a zone slot. -/
theorem completeWalk_frame (e : Entry) (v : Option Verdict) (s : State) :
    GrantFrame { s with zones := (completeWalk e v s).zones } (completeWalk e v s) := by
  have delivered := deliverVerdict_frame e v (leaveQueue s)
  have closed := (raiseFlag_frame .admitDone _).trans
    (closeEvent_frame (deliverVerdict e v (leaveQueue s)).2 s (raiseFlag .admitDone (deliverVerdict e v (leaveQueue s)).1))
  have zones : (completeWalk e v s).zones = (deliverVerdict e v (leaveQueue s)).1.zones := closed.zones
  rw [zones]
  exact (GrantFrame.trans (s := { s with zones := (deliverVerdict e v (leaveQueue s)).1.zones }) rfl delivered).trans
    closed.grant

theorem GrantFrame.portStays_zones {s t : State} (h : GrantFrame { s with zones := t.zones } t) : PortStays s t :=
  (PortStays.of_eq rfl rfl rfl).trans h.portStays

theorem readSlot_portStays (w : Walk) (i : Slot) (s : State) : PortStays s (readSlot w i s) := by
  unfold readSlot
  split
  · exact (completeWalk_frame _ _ s).portStays_zones
  · split
    · exact .of_eq rfl rfl rfl
    · split
      · exact (completeWalk_frame _ _ s).portStays_zones
      · exact .of_eq rfl rfl rfl

theorem readZone_portStays (w : Walk) (z : Zone) (s : State) : PortStays s (readZone w z s) := by
  unfold readZone
  split
  · exact (completeWalk_frame _ _ s).portStays_zones
  · split
    · exact .of_eq rfl rfl rfl
    · exact (completeWalk_frame _ _ s).portStays_zones

theorem answerAsk_portStays (f : Flyer) (target : Cell) (s : State) : PortStays s (answerAsk f target s) := by
  unfold answerAsk
  split <;> exact .of_eq rfl rfl rfl

/-! ## The console's law under the events (R157, R173) -/

/-- From s to t the queue of commands stays, and the laws of the store and of the console are kept. -/
def EventKept (s t : State) : Prop := t.pending = s.pending ∧ StoreKept s t ∧ (ConsoleLaw s → ConsoleLaw t)

theorem EventKept.trans {s t u : State} (h : EventKept s t) (k : EventKept t u) : EventKept s u :=
  ⟨k.1.trans h.1, h.2.1.trans k.2.1, k.2.2 ∘ h.2.2⟩

theorem PortStays.consoleLaw {s t : State} (h : PortStays s t) (law : ConsoleLaw s) : ConsoleLaw t := by
  obtain ⟨view, -⟩ := h
  simp only [State.portView, Prod.mk.injEq] at view
  obtain ⟨-, console, inputs, supply⟩ := view
  unfold ConsoleLaw State.running at law ⊢
  rw [console, inputs, supply]
  exact law

theorem PortStays.kept {s t : State} (h : PortStays s t) : EventKept s t :=
  ⟨congrArg Prod.fst h.1, h.2, h.consoleLaw⟩

/-- With both transactions discarded the port's law holds. -/
theorem consoleLaw_of_idle {t : State} (h : t.console = { showTx := .idle, crewTx := .idle }) : ConsoleLaw t := by
  unfold ConsoleLaw
  rw [h]
  exact ⟨.inl rfl, fun open_tx => absurd rfl open_tx, fun open_tx => absurd rfl open_tx⟩

/-- A part that does not run has no transaction open (R173). -/
theorem ConsoleLaw.idle_of_halted {s : State} (law : ConsoleLaw s) (halted : s.running = false) :
    s.console = { showTx := .idle, crewTx := .idle } := by
  obtain ⟨-, show_open, crew_open⟩ := law
  have show_idle : s.console.showTx = .idle := by
    refine Classical.byContradiction fun is_open => ?_
    exact Bool.false_ne_true (halted.symm.trans (show_open is_open).2)
  have crew_idle : s.console.crewTx = .idle := by
    refine Classical.byContradiction fun is_open => ?_
    exact Bool.false_ne_true (halted.symm.trans (crew_open is_open).2)
  exact congr (congrArg Console.mk show_idle) crew_idle

theorem PortStays.console {s t : State} (h : PortStays s t) : t.console = s.console := congrArg (fun v => v.2.1) h.1

/-- The halt of the blocks, the RESTART hold not yet pushed. -/
def haltedBlocks (s : State) : State :=
  stopTimers (restartClaims (dropWalk (forgetPositions (discardGrants (dropTransactions s)))))

theorem haltBlocks_eq (s : State) : haltBlocks s = pushHold .restart false (haltedBlocks s) := rfl

/-- The halt, but for the transactions it discards, leaves the port and the store. -/
theorem haltedBlocks_portStays (s : State) : PortStays (dropTransactions s) (haltedBlocks s) := by
  have grants (u : State) : PortStays u (discardGrants u) := .of_eq rfl rfl rfl
  have positions (u : State) : PortStays u (forgetPositions u) := .of_eq rfl rfl rfl
  have walk (u : State) : PortStays u (dropWalk u) := .of_eq rfl rfl rfl
  have claims (u : State) : PortStays u (restartClaims u) := .of_eq rfl rfl rfl
  have timers (u : State) : PortStays u (stopTimers u) := .of_eq rfl rfl rfl
  exact (grants _).trans ((positions _).trans ((walk _).trans ((claims _).trans (timers _))))

theorem haltedBlocks_halts (s : State) : EventKept s (haltedBlocks s) ∧
    (haltedBlocks s).console = { showTx := .idle, crewTx := .idle } := by
  have dropped : EventKept s (dropTransactions s) := ⟨rfl, .of_eq rfl rfl, fun _ => consoleLaw_of_idle rfl⟩
  exact ⟨dropped.trans (haltedBlocks_portStays s).kept, (haltedBlocks_portStays s).console⟩

theorem haltBlocks_halts (s : State) : EventKept s (haltBlocks s) ∧
    (haltBlocks s).console = { showTx := .idle, crewTx := .idle } := by
  obtain ⟨kept, idle⟩ := haltedBlocks_halts s
  have pushed : PortStays (haltedBlocks s) (haltBlocks s) := (pushHold_frame .restart false _).portStays
  exact ⟨kept.trans pushed.kept, pushed.console.trans idle⟩

/-- A halted state goes on, the console idle, whatever then becomes of the supply state and of RESET. -/
theorem EventKept.of_idle {s t u : State} (h : EventKept s t) (idle : t.console = { showTx := .idle, crewTx := .idle })
    (hp : u.pending = t.pending) (hs : StoreKept t u) (hc : u.console = t.console) : EventKept s u :=
  ⟨hp.trans h.1, h.2.1.trans hs, fun _ => consoleLaw_of_idle (hc.trans idle)⟩

theorem startTimers_portStays (s : State) : PortStays s (startTimers s) := setClock_portStays _ s

theorem returnTimers_portStays (s : State) : PortStays s (returnTimers s) := by
  unfold returnTimers
  split
  · exact .refl s
  · exact (startTimers_portStays s).trans (sampleLines_portStays false _)

theorem restartFlags_portStays (s : State) : PortStays s (restartFlags s) :=
  ((clearFlagSet_frame _ s).trans (raiseFlag_frame _ _)).portStays

theorem closeChannels_portStays (s : State) : PortStays s (closeChannels s) := .of_eq rfl rfl rfl

theorem beginRunning_portStays (flag : Bool) (s : State) : PortStays s (beginRunning flag s) :=
  (startTimers_portStays s).trans ((sampleLines_portStays flag _).trans (beginHead_frame _).portStays)

theorem restartBlocks_halts (s : State) : EventKept s (restartBlocks s) ∧
    (restartBlocks s).console = { showTx := .idle, crewTx := .idle } := by
  obtain ⟨kept, idle⟩ := haltBlocks_halts s
  have restarted := (closeChannels_portStays (haltBlocks s)).trans (recordAlert_portStays .restart _)
  exact ⟨kept.trans restarted.kept, restarted.console.trans idle⟩

/-- A cold start binds no winch and holds no template (R75, R156). -/
theorem coldState_store (inputs : Inputs) (present : Bool) (pending : List Instr) :
    BindingLaw (coldState inputs present pending) ∧ TemplateLaw (coldState inputs present pending) := by
  constructor
  · intro f
    have none_bound : (coldState inputs present pending).boundWinches f = [] := by
      simp [coldState, State.boundWinches]
    rw [none_bound]
    exact Nat.zero_le _
  · intro k v
    simp [coldState, coldSet, TemplateSet.cueAt]

theorem coldValues_kept (s : State) : EventKept s (coldValues s) :=
  ⟨rfl, ⟨fun _ => (coldState_store _ _ _).1, fun _ => (coldState_store _ _ _).2⟩, fun _ => consoleLaw_of_idle rfl⟩

theorem powerOff_kept (s : State) : EventKept s (powerOff s) :=
  (coldValues_kept s).of_idle rfl rfl (.of_eq rfl rfl) rfl

theorem driveLines_portStays (s : State) : PortStays s (driveLines s) := .of_eq rfl rfl rfl

theorem EventEffect.kept {reads : Prop} {s t : State} (h : EventEffect reads s t) : EventKept s t := by
  have rx_hunts (ch : Flyer) (u : State) : PortStays u (setReceiver ch .hunting u) := .of_eq rfl rfl rfl
  cases h with
  | none => exact (PortStays.refl s).kept
  | time d => exact (elapse_portStays d s).kept
  | heard ch bytes last => exact (hearBytes_portStays ch bytes last s).kept
  | unheard ch d => exact ((elapse_portStays d s).trans (rx_hunts ch _)).kept
  | misheard ch => exact (rx_hunts ch s).kept
  | discarded | sent => exact (PortStays.of_eq rfl rfl rfl).kept
  | hello ch id =>
    exact ((PortStays.of_eq (t := dropHead ch s) rfl rfl rfl).trans (judgeHello_portStays ch id _)).kept
  | late ch d => exact ((elapse_portStays d s).trans (.of_eq rfl rfl rfl)).kept
  | lost ch d =>
    have fallen (u : State) : PortStays u (u.setChannel ch { u.channels[ch] with state := .lost }) := .of_eq rfl rfl rfl
    exact ((elapse_portStays d s).trans ((fallen _).trans ((recordAlert_portStays _ _).trans
      ((removeGrant_frame _ _ _).trans (closeEvent_frame _ _ _).grant).portStays))).kept
  | leaseExpired f d =>
    exact ((elapse_portStays d s).trans ((removeGrant_frame _ _ _).trans (closeEvent_frame _ _ _).grant).portStays).kept
  | @asked ch x y z =>
    exact ((PortStays.of_eq (t := dropHead ch (serveChannel ch s)) rfl rfl rfl).trans (answerAsk_portStays ch _ _)).kept
  | @reported ch =>
    exact ((PortStays.of_eq (t := dropHead ch (serveChannel ch s)) rfl rfl rfl).trans
      ((handleReport_portStays ch _ _ _).trans (closeEvent_frame _ _ _).portStays)).kept
  | slotRead => exact ((PortStays.of_eq (t := serveWalk s) rfl rfl rfl).trans (readSlot_portStays _ _ _)).kept
  | zoneRead => exact (readZone_portStays _ _ s).kept
  | period t => exact (nextPeriod_portStays t s).kept
  | tickedPeriod t => exact ((nextPeriod_portStays t s).trans (sourceEvent_portStays _)).kept
  | pulse => exact ((setClock_portStays _ s).trans (sourceEvent_portStays _)).kept
  | fellBack d => exact ((elapse_portStays d s).trans (.of_eq rfl rfl rfl)).kept
  | requestAbandoned d => exact ((elapse_portStays d s).trans (.of_eq rfl rfl rfl)).kept
  | stopLevel | ringLevel | rigLock | cellFollowed => exact ⟨rfl, .of_eq rfl rfl, id⟩
  | stopped =>
    have followed : EventKept s (setStopLine true s) := ⟨rfl, .of_eq rfl rfl, id⟩
    exact followed.trans ((takeStop_portStays true _).trans (closeEvent_frame _ _ _).portStays).kept
  | rung =>
    have followed : EventKept s (setRingLine true s) := ⟨rfl, .of_eq rfl rfl, id⟩
    exact followed.trans ((pushHold_frame _ _ _).portStays.trans (closeEvent_frame _ _ _).portStays).kept
  | backupEntry =>
    obtain ⟨kept, idle⟩ := haltBlocks_halts s
    have backed_up (u : State) : EventKept s u → u.console = { showTx := .idle, crewTx := .idle } →
        EventKept s (setSupplyState .backup (recordEntry (quietChannels u))) :=
      fun kept idle => kept.of_idle idle rfl (.of_eq rfl rfl) rfl
    exact backed_up _ kept idle
  | returnOfMain =>
    have returned : EventKept s (setSupplyState .main (recordReturn s)) := by
      refine ⟨rfl, .of_eq rfl rfl, fun law => consoleLaw_of_idle ?_⟩
      exact law.idle_of_halted (by simp [State.running, *])
    obtain ⟨kept, -⟩ := restartBlocks_halts (setSupplyState .main (recordReturn s))
    exact returned.trans (kept.trans ((returnTimers_portStays _).trans
      ((restartFlags_portStays _).trans (beginHead_frame _).portStays)).kept)
  | resetAsserted =>
    obtain ⟨kept, idle⟩ := restartBlocks_halts (setResetLine true s)
    have restarted := restartFlags_portStays (restartBlocks (setResetLine true s))
    exact ⟨(congrArg Prod.fst restarted.1).trans kept.1, (StoreKept.of_eq rfl rfl).trans (kept.2.1.trans restarted.2),
      fun _ => consoleLaw_of_idle (restarted.console.trans idle)⟩
  | resetDeasserted _ low =>
    have released : EventKept s (setResetLine false s) := by
      refine ⟨rfl, .of_eq rfl rfl, fun law => consoleLaw_of_idle ?_⟩
      exact law.idle_of_halted (by simp [State.running, low])
    exact released.trans (beginRunning_portStays true _).kept
  | resetLevel v off_main =>
    refine ⟨rfl, .of_eq rfl rfl, fun law => consoleLaw_of_idle ?_⟩
    exact law.idle_of_halted (by simp [State.running, off_main])
  | coldHeld =>
    exact (coldValues_kept s).trans ((setClock_portStays _ _).trans (driveLines_portStays _)).kept
  | coldStarted =>
    exact (coldValues_kept s).trans ((beginRunning_portStays false _).trans (driveLines_portStays _)).kept
  | poweredOff => exact powerOff_kept s
  | cellLost =>
    have followed : EventKept s { s with supply := { s.supply with backupPresent := false } } :=
      ⟨rfl, .of_eq rfl rfl, id⟩
    exact followed.trans (powerOff_kept _)

/-! ## Every command -/

theorem setTx_kept (sel : Select) (x : Transaction) (s : State) :
    (s.setTx sel x).pending = s.pending ∧ StoreKept s (s.setTx sel x) := by
  cases sel <;> exact ⟨rfl, .of_eq rfl rfl⟩

theorem setSelectLow_kept (sel : Select) (low : Bool) (s : State) :
    (s.setSelectLow sel low).pending = s.pending ∧ StoreKept s (s.setSelectLow sel low) := by
  cases sel <;> exact ⟨rfl, .of_eq rfl rfl⟩

theorem StepEffect.pending_store {reads : Prop} {s t : State} (h : StepEffect reads s t) : t.pending = s.pending ∧ StoreKept s t := by
  cases h with
  | answered sel x _ _ effect =>
    obtain ⟨view, kept⟩ := effect.portStays
    exact ⟨(setTx_kept sel x _).1.trans (congrArg Prod.fst view), kept.trans (setTx_kept sel x _).2⟩
  | @opened sel =>
    have low := setSelectLow_kept sel true s
    have tx := setTx_kept sel .command (s.setSelectLow sel true)
    exact ⟨tx.1.trans low.1, low.2.trans tx.2⟩
  | fell sel => exact setSelectLow_kept sel true s
  | @rose u sel effect =>
    have shown : u.pending = s.pending ∧ StoreKept s u := by
      rcases effect with rfl | rfl | ⟨m, rfl⟩ <;> exact ⟨rfl, .of_eq rfl rfl⟩
    have low := setSelectLow_kept sel false u
    have tx := setTx_kept sel .idle (u.setSelectLow sel false)
    exact ⟨tx.1.trans (low.1.trans shown.1), shown.2.trans (low.2.trans tx.2)⟩
  | event effect => exact ⟨effect.kept.1, effect.kept.2.1⟩

/-- Settles O3: every command leads to a next state by one of the effects, and none of them touches the queue of commands. -/
theorem everyCommandCompletes : Obligations.EveryCommandCompletes := by
  unfold Obligations.EveryCommandCompletes
  intro c s
  obtain ⟨t, next, effect⟩ := exec_effect c s
  exact ⟨t, next, effect.pending_store.1⟩

/-- Settles O54: no effect but a BIND and a template command touches a binding or a template, and these test for room and write the cue's own set. -/
theorem bindingsAndTemplatesKept : Obligations.BindingsAndTemplatesKept := by
  unfold Obligations.BindingsAndTemplatesKept
  refine ⟨fun s t law hs => ?_, fun s t law hs => ?_⟩
  · obtain ⟨rest, effect⟩ := step_effect hs
    exact effect.pending_store.2.1 law
  · obtain ⟨rest, effect⟩ := step_effect hs
    exact effect.pending_store.2.2 law

/-! ## The port's law under every step (R157, R173) -/

/-- The port's law, select by select. -/
theorem consoleLaw_iff (s : State) : ConsoleLaw s ↔
    ∀ sel : Select, s.tx sel ≠ .idle → s.tx sel.other = .idle ∧ s.selectLow sel = true ∧ s.running = true := by
  constructor
  · rintro ⟨one, show_open, crew_open⟩ sel is_open
    cases sel with
    | showSel => exact ⟨one.resolve_left is_open, show_open is_open⟩
    | crewSel => exact ⟨one.resolve_right is_open, crew_open is_open⟩
  · intro law
    refine ⟨?_, fun is_open => (law .showSel is_open).2, fun is_open => (law .crewSel is_open).2⟩
    by_cases is_open : s.console.showTx = .idle
    · exact .inl is_open
    · exact .inr (law .showSel is_open).1

theorem Select.same_or_other (a b : Select) : a = b ∨ a = b.other := by
  cases a <;> cases b <;> simp [Select.other]

theorem Select.other_ne_self (a : Select) : a.other ≠ a := by cases a <;> simp [Select.other]

/-- A transaction written at the select that is served keeps the port's law. -/
theorem setTx_consoleLaw {s : State} {sel : Select} (x : Transaction)
    (served : s.tx sel.other = .idle ∧ s.selectLow sel = true ∧ s.running = true) : ConsoleLaw (s.setTx sel x) := by
  rw [consoleLaw_iff]
  intro a is_open
  have level (b : Select) : (s.setTx sel x).selectLow b = s.selectLow b := by cases sel <;> cases b <;> rfl
  have running : (s.setTx sel x).running = s.running := by cases sel <;> rfl
  rw [setTx_tx] at is_open ⊢
  rw [level, running]
  obtain rfl | rfl := Select.same_or_other a sel
  · rw [if_neg (Select.other_ne_self a).symm]
    exact served
  · rw [if_neg (Select.other_ne_self sel).symm] at is_open
    exact absurd served.1 is_open

/-- A transaction ended, with its select's line high, keeps the port's law. -/
theorem ended_consoleLaw {s : State} (sel : Select) (law : ConsoleLaw s) :
    ConsoleLaw ((s.setSelectLow sel false).setTx sel .idle) := by
  rw [consoleLaw_iff] at law ⊢
  intro a is_open
  obtain rfl | rfl := Select.same_or_other a sel
  · cases a <;> exact absurd rfl is_open
  · have stays := law sel.other (by cases sel <;> exact is_open)
    cases sel <;> exact ⟨rfl, stays.2⟩

/-- A select's fall followed keeps the port's law. -/
theorem fell_consoleLaw {s : State} (sel : Select) (law : ConsoleLaw s) : ConsoleLaw (s.setSelectLow sel true) := by
  rw [consoleLaw_iff] at law ⊢
  intro a is_open
  have stays := law a (by cases sel <;> exact is_open)
  obtain rfl | rfl := Select.same_or_other a sel
  · cases a <;> exact ⟨stays.1, rfl, stays.2.2⟩
  · cases sel <;> exact stays

theorem StepEffect.consoleLaw {reads : Prop} {s t : State} (h : StepEffect reads s t) (law : ConsoleLaw s) : ConsoleLaw t := by
  cases h with
  | @answered u sel x runs is_open effect =>
    have kept := effect.portStays
    have served := (consoleLaw_iff s).mp law sel is_open
    refine setTx_consoleLaw x ?_
    obtain ⟨view, -⟩ := kept
    simp only [State.portView, Prod.mk.injEq] at view
    obtain ⟨-, console, inputs, supply⟩ := view
    cases sel <;> simpa [State.tx, State.selectLow, State.running, Select.other, console, inputs, supply] using served
  | @opened sel runs high other =>
    refine setTx_consoleLaw _ ⟨?_, ?_, ?_⟩
    · have other_high : s.tx sel.other = .idle := by
        refine Classical.byContradiction fun is_open => ?_
        have low := ((consoleLaw_iff s).mp law sel.other is_open).2.1
        exact Bool.false_ne_true (other.symm.trans low)
      cases sel <;> exact other_high
    · cases sel <;> rfl
    · cases sel <;> exact runs
  | fell sel => exact fell_consoleLaw sel law
  | @rose u sel effect =>
    refine ended_consoleLaw sel ?_
    rcases effect with rfl | rfl | ⟨m, rfl⟩ <;> exact law
  | event effect => exact effect.kept.2.2 law

end Sys2Proof.Machine
end

section
/-! PROOF. The hold list holds each source once, and the run state fits the count and the list, under every effect (R117, R133); with it O52. -/

namespace Sys2Proof.Machine

/-! ## The law of the holds and the clock, and what leaves it alone -/

/-- One entry of each source, and a run state in step with the count and the list (R117, R133). -/
def HoldClockLaw (s : State) : Prop := HoldLaw s ∧ ClockLaw s

/-- From s to t the hold list, the count and the run state stay. -/
def HoldClockStays (s t : State) : Prop :=
  t.holds = s.holds ∧ t.clock.count = s.clock.count ∧ t.clock.run = s.clock.run

theorem HoldClockStays.refl (s : State) : HoldClockStays s s := ⟨rfl, rfl, rfl⟩

theorem HoldClockStays.trans {s t u : State} (h : HoldClockStays s t) (k : HoldClockStays t u) : HoldClockStays s u :=
  ⟨k.1.trans h.1, k.2.1.trans h.2.1, k.2.2.trans h.2.2⟩

theorem HoldClockStays.law {s t : State} (h : HoldClockStays s t) (law : HoldClockLaw s) : HoldClockLaw t := by
  obtain ⟨holds, count, run⟩ := h
  unfold HoldClockLaw HoldLaw ClockLaw
  rw [holds, count, run]
  exact law

theorem GrantFrame.holdClock {s t : State} (h : GrantFrame s t) : HoldClockStays s t :=
  ⟨h.holds, by rw [h.clock], by rw [h.clock]⟩

theorem ClaimFrame.holdClock {s t : State} (h : ClaimFrame s t) : HoldClockStays s t := h.grant.holdClock

theorem elapse_holdClock (d : Nat) (s : State) : HoldClockStays s (elapse d s) :=
  ⟨elapse_holds d s, elapse_count d s, elapse_run d s⟩

/-! ## Pushes and releases (R118, R119, R127) -/

theorem freezeClock_holdClock (s : State) :
    (freezeClock s).holds = s.holds ∧ (freezeClock s).clock.count = s.clock.count ∧
    (freezeClock s).clock.run = if s.clock.run = .running then .frozen else s.clock.run := by
  rw [freeze_clock]
  exact ⟨rfl, rfl, rfl⟩

/-- A push on an absent source appends it, and freezes a RUNNING clock where the list was empty. -/
theorem pushHold_holdClock {src : HoldSource} {s : State} (flag : Bool) (absent : s.holding src = false) :
    (pushHold src flag s).holds = s.holds ++ [{ source := src, tick := s.now }] ∧
    (pushHold src flag s).clock.count = s.clock.count ∧
    (pushHold src flag s).clock.run =
      if s.holds.isEmpty = true ∧ s.clock.run = .running then .frozen else s.clock.run := by
  have raised (u : State) : GrantFrame u (if flag then raiseFlag .holdsChanged u else u) := by
    split
    · exact (raiseFlag_frame _ u).grant
    · exact .refl u
  have pushed := raised { s with holds := s.holds ++ [{ source := src, tick := s.now }] }
  unfold pushHold
  rw [if_neg (by simp [absent])]
  dsimp only
  by_cases empty : s.holds.isEmpty = true
  · have removed := pushed.trans (removeAllGrants_frame _)
    obtain ⟨holds, count, run⟩ := removed.holdClock
    obtain ⟨frozen_holds, frozen_count, frozen_run⟩ := freezeClock_holdClock (removeAllGrants _)
    rw [if_pos empty]
    refine ⟨frozen_holds.trans holds, frozen_count.trans count, frozen_run.trans ?_⟩
    rw [run]
    simp [empty]
  · rw [if_neg empty]
    refine ⟨pushed.holds, ?_, ?_⟩ <;> rw [pushed.clock]
    simp [empty]

theorem pushHold_law (src : HoldSource) (flag : Bool) {s : State} (law : HoldClockLaw s) :
    HoldClockLaw (pushHold src flag s) := by
  cases present : s.holding src with
  | true => simpa only [pushHold, present, if_true] using law
  | false =>
    obtain ⟨holds, count, run⟩ := pushHold_holdClock flag present
    obtain ⟨once, void, running, frozen, ended⟩ := law
    refine ⟨?_, ?_⟩
    · unfold HoldLaw
      rw [holds, List.map_append, List.nodup_append]
      refine ⟨once, by simp, ?_⟩
      rintro a ha b hb rfl
      obtain rfl := List.mem_singleton.mp hb
      obtain ⟨h, hm, rfl⟩ := List.mem_map.mp ha
      exact Bool.false_ne_true (present.symm.trans ((holding_iff s _).mpr ⟨h, hm, rfl⟩))
    · unfold ClockLaw
      rw [holds, count, run]
      by_cases freezes : s.holds.isEmpty = true ∧ s.clock.run = .running
      · rw [if_pos freezes]
        exact ⟨by simp, by simp, fun _ => ⟨(running freezes.2).1, by simp⟩, by simp⟩
      · rw [if_neg freezes]
        refine ⟨void, fun runs => ?_, fun freeze => ⟨(frozen freeze).1, by simp⟩, ended⟩
        exact absurd ⟨List.isEmpty_iff.mpr (running runs).2, runs⟩ freezes

theorem removeHold_law (src : HoldSource) {s : State} (law : HoldClockLaw s) : HoldClockLaw (removeHold src s) := by
  obtain ⟨once, void, running, frozen, ended⟩ := law
  have kept_once : ((s.holds.filter (fun h => decide (h.source ≠ src))).map (fun h => h.source)).Nodup :=
    once.sublist (List.filter_sublist.map _)
  rw [removeHold_eq]
  refine ⟨kept_once, ?_⟩
  show (_ → _) ∧ (_ → _) ∧ (_ → _) ∧ (_ → _)
  simp only [driveLines]
  by_cases empties : (∀ h ∈ s.holds, h.source = src) ∧ s.clock.run = .frozen
  · simp only [if_pos empties]
    refine ⟨by simp, fun _ => ⟨(frozen empties.2).1, ?_⟩, by simp, by simp⟩
    simpa using empties.1
  · simp only [if_neg empties]
    refine ⟨void, fun runs => ⟨(running runs).1, by rw [(running runs).2]; rfl⟩,
      fun freeze => ⟨(frozen freeze).1, fun e => empties ⟨?_, freeze⟩⟩, ended⟩
    simpa using e

/-! ## The clock (R132 to R142) -/

/-- A clock ended at the top fits its count. -/
theorem endClock_law {s : State} (once : HoldLaw s) (void : s.clock.run = .void → s.clock.count = 0)
    (running : s.clock.run = .running → s.holds = []) (frozen : s.clock.run = .frozen → s.holds ≠ [])
    (not_ended : s.clock.run ≠ .ended) (le_top : s.clock.count ≤ Config.maxTick) : HoldClockLaw (endClock s) := by
  unfold endClock
  split
  · next top =>
    exact ⟨once, fun e => absurd e RunState.noConfusion, fun e => absurd e RunState.noConfusion,
      fun e => absurd e RunState.noConfusion, fun _ => Nat.le_antisymm le_top top⟩
  · next below =>
    have lt_top := Nat.not_le.mp below
    exact ⟨once, void, fun runs => ⟨lt_top, running runs⟩, fun freeze => ⟨lt_top, frozen freeze⟩,
      fun e => absurd e not_ended⟩

theorem sourceEvent_law {s : State} (law : HoldClockLaw s) : HoldClockLaw (sourceEvent s) := by
  unfold sourceEvent
  split
  · next runs =>
    obtain ⟨once, -, running, -⟩ := law
    obtain ⟨holds, count, run⟩ := (tickEvent_frame (s.setClock { s.clock with count := s.clock.count + 1 })).holdClock
    have still_runs := run.trans runs
    refine endClock_law ?_ ?_ (fun _ => holds.trans (running runs).2) ?_ ?_ ?_
    · unfold HoldLaw
      rw [holds]
      exact once
    · simp [still_runs]
    · simp [still_runs]
    · simp [still_runs]
    · rw [count]
      exact (running runs).1
  · exact law

theorem clockLoaded_law {s : State} {v : Nat} (in_range : v < Config.maxTick) (law : HoldClockLaw s) :
    HoldClockLaw (jumpEvent (s.setClock { s.clock with count := v, run := loadedRun s })) := by
  refine (jumpEvent_frame _).holdClock.law ⟨law.1, ?_⟩
  unfold ClockLaw loadedRun
  simp only [setClock_clock, setClock_holds]
  split
  · next empty =>
    exact ⟨by simp, fun _ => ⟨in_range, List.isEmpty_iff.mp empty⟩, by simp, by simp⟩
  · next not_empty =>
    exact ⟨by simp, by simp, fun _ => ⟨in_range, fun e => not_empty (List.isEmpty_iff.mpr e)⟩, by simp⟩

theorem clockSkipped_law {s : State} {d : Nat} (frozen : s.clock.run = .frozen) (law : HoldClockLaw s) :
    HoldClockLaw (endClock (jumpEvent (s.setClock { s.clock with count := min (s.clock.count + d) Config.maxTick }))) := by
  obtain ⟨holds, count, run⟩ :=
    (jumpEvent_frame (s.setClock { s.clock with count := min (s.clock.count + d) Config.maxTick })).holdClock
  have still_frozen := run.trans frozen
  refine endClock_law ?_ ?_ ?_ (fun _ => ?_) ?_ ?_
  · unfold HoldLaw
    rw [holds]
    exact law.1
  · simp [still_frozen]
  · simp [still_frozen]
  · rw [holds]
    exact (law.2.2.2.1 frozen).2
  · simp [still_frozen]
  · rw [count]
    exact Nat.min_le_right _ _

/-! ## The effects of the console commands -/

theorem CommandEffect.holdClock {s t : State} (h : CommandEffect s t) (law : HoldClockLaw s) : HoldClockLaw t := by
  cases h with
  | none => exact law
  | shown | enabled | cleared | autoClear | alertEmptied | supplyEmptied | protectSet | breachCleared | reopened | bound
  | unbound | templateStored | templateEvicted | templateDropped | templateLocked => exact law
  | claimFreed => exact ((freeSlot_frame _ s).trans (closeEvent_frame _ _ _)).holdClock.law law
  | claimHeld =>
    refine HoldClockStays.law ((?_ : HoldClockStays s _).trans (closeEvent_frame _ _ _).holdClock) law
    split
    · exact ((moveClaim_frame _ _ s).grant.trans (removeGrant_frame _ _ _)).holdClock
    · exact (moveClaim_frame _ _ s).holdClock
  | resumedOverlap =>
    exact ((moveClaim_frame _ _ s).trans ((raiseFlag_frame _ _).trans (closeEvent_frame _ _ _))).holdClock.law law
  | resumedActive | resumedOverrun => exact ((moveClaim_frame _ _ s).trans (closeEvent_frame _ _ _)).holdClock.law law
  | cancelled =>
    exact ((freeSlot_frame _ s).trans ((withdrawEntry_frame _ _).trans (closeEvent_frame _ _ _))).holdClock.law law
  | booked => exact (acceptBooking_frame _ _ s).holdClock.law law
  | fired k w => exact (acceptBooking_frame _ _ (accessWay k w s)).holdClock.law law
  | amended => exact (acceptAmend_frame _ _ _ s).holdClock.law law
  | @zoneRequested z area =>
    exact ((setAdmission_frame (s.setZone z _) _).trans (closeEvent_frame _ _ _)).holdClock.law law
  | zoneEmptied z => exact ((withdrawEntry_frame _ (s.setZone z _)).trans (closeEvent_frame _ _ _)).holdClock.law law
  | holdPushed src => exact (closeEvent_frame _ _ _).holdClock.law (pushHold_law src true law)
  | holdReleased src => exact removeHold_law src law
  | clockLoaded in_range => exact clockLoaded_law in_range law
  | sourceSelected src =>
    unfold selectSource
    split <;> exact law
  | clockSkipped frozen => exact clockSkipped_law frozen law

/-! ## The events -/

theorem takeStop_law (flag : Bool) {s : State} (law : HoldClockLaw s) : HoldClockLaw (takeStop flag s) :=
  pushHold_law .stop flag law

theorem hearBytes_holdClock (ch : Flyer) (bytes : List Byte) (last : Byte) (s : State) :
    HoldClockStays s (hearBytes ch bytes last s) := by
  have one (b : Byte) (t : State) : HoldClockStays t (hearByte ch b t) := by
    unfold hearByte admitFrame
    dsimp only
    split
    · split <;> exact ⟨rfl, rfl, rfl⟩
    · exact ⟨rfl, rfl, rfl⟩
  have heard := foldl_frame HoldClockStays .refl (fun _ _ _ => .trans) (fun t b => hearByte ch b t) (fun t b => one b t) bytes
  have met : HoldClockStays s (setReceiver ch (s.channels[ch].rx.before (Config.byteTime * bytes.length)) s) := ⟨rfl, rfl, rfl⟩
  exact met.trans ((heard _).trans (one last _))

theorem breachNoted_holdClock (f : Flyer) (kind : BreachKind) (cell : Cell) (s : State) :
    HoldClockStays s (recordAlert (breachAlert f kind) (writeBreach f kind cell s)) := ⟨rfl, rfl, rfl⟩

theorem dropHead_holdClock (ch : Flyer) (s : State) : HoldClockStays s (dropHead ch s) := ⟨rfl, rfl, rfl⟩

theorem serveChannel_holdClock (ch : Flyer) (s : State) : HoldClockStays s (serveChannel ch s) := ⟨rfl, rfl, rfl⟩

theorem serveWalk_holdClock (s : State) : HoldClockStays s (serveWalk s) := ⟨rfl, rfl, rfl⟩

theorem judgeHello_holdClock (ch : Flyer) (id : Byte) (s : State) : HoldClockStays s (judgeHello ch id s) := by
  unfold judgeHello welcomeChannel
  split
  · split <;> exact ⟨rfl, rfl, rfl⟩
  · exact ⟨rfl, rfl, rfl⟩

theorem answerAsk_holdClock (f : Flyer) (target : Cell) (s : State) : HoldClockStays s (answerAsk f target s) := by
  unfold answerAsk
  split <;> exact ⟨rfl, rfl, rfl⟩

theorem handleReport_law (ch : Flyer) (cell : Cell) (grounded : Bool) {s : State} (law : HoldClockLaw s) :
    HoldClockLaw (handleReport ch cell grounded s) := by
  have stored : HoldClockLaw (storeReport ch cell grounded (channelReport ch s)) := law
  unfold handleReport reportOutcome
  split
  · next kind _ =>
    have held := ((removeGrant_frame ch .breach _).trans (breachClaims_frame ch _).grant).holdClock.law stored
    have alerted := (breachNoted_holdClock ch kind cell _).law held
    unfold breachResponse
    dsimp only
    split
    · exact pushHold_law _ _ alerted
    · exact alerted
  · split
    · exact (groundedEvent_frame ch _).holdClock.law stored
    · exact stored

theorem GrantFrame.holdClock_zones {s t : State} (h : GrantFrame { s with zones := t.zones } t) : HoldClockStays s t :=
  HoldClockStays.trans (t := { s with zones := t.zones }) ⟨rfl, rfl, rfl⟩ h.holdClock

theorem readSlot_holdClock (w : Walk) (i : Slot) (s : State) : HoldClockStays s (readSlot w i s) := by
  unfold readSlot
  split
  · exact (completeWalk_frame _ _ s).holdClock_zones
  · split
    · exact ⟨rfl, rfl, rfl⟩
    · split
      · exact (completeWalk_frame _ _ s).holdClock_zones
      · exact ⟨rfl, rfl, rfl⟩

theorem readZone_holdClock (w : Walk) (z : Zone) (s : State) : HoldClockStays s (readZone w z s) := by
  unfold readZone
  split
  · exact (completeWalk_frame _ _ s).holdClock_zones
  · split
    · exact ⟨rfl, rfl, rfl⟩
    · exact (completeWalk_frame _ _ s).holdClock_zones

theorem haltedBlocks_holdClock (s : State) : HoldClockStays s (haltedBlocks s) := ⟨rfl, rfl, rfl⟩

theorem haltBlocks_law {s : State} (law : HoldClockLaw s) : HoldClockLaw (haltBlocks s) := by
  rw [haltBlocks_eq]
  exact pushHold_law .restart false ((haltedBlocks_holdClock s).law law)

theorem restartAlerted_holdClock (s : State) : HoldClockStays s (recordAlert .restart (closeChannels s)) :=
  ⟨rfl, rfl, rfl⟩

theorem restartBlocks_law {s : State} (law : HoldClockLaw s) : HoldClockLaw (restartBlocks s) :=
  (restartAlerted_holdClock _).law (haltBlocks_law law)

theorem backupEntered_holdClock (s : State) :
    HoldClockStays s (setSupplyState .backup (recordEntry (quietChannels s))) := ⟨rfl, rfl, rfl⟩

theorem restartFlags_holdClock (s : State) : HoldClockStays s (restartFlags s) :=
  ((clearFlagSet_frame _ s).trans (raiseFlag_frame _ _)).holdClock

theorem sampleLines_law (flag : Bool) {s : State} (law : HoldClockLaw s) : HoldClockLaw (sampleLines flag s) := by
  have ring_sampled (t : State) (ht : HoldClockLaw t) : HoldClockLaw (if t.inputs.ring then takeRing flag t else t) := by
    split
    · exact pushHold_law _ _ ht
    · exact ht
  refine ring_sampled (if s.inputs.stop then takeStop flag s else s) ?_
  split
  · exact takeStop_law flag law
  · exact law

theorem startTimers_law {s : State} (law : HoldClockLaw s) : HoldClockLaw (startTimers s) := law

theorem returnTimers_law {s : State} (law : HoldClockLaw s) : HoldClockLaw (returnTimers s) := by
  unfold returnTimers
  split
  · exact law
  · exact sampleLines_law false (startTimers_law law)

theorem beginRunning_law (flag : Bool) {s : State} (law : HoldClockLaw s) : HoldClockLaw (beginRunning flag s) :=
  (beginHead_frame _).holdClock.law (sampleLines_law flag (startTimers_law law))

theorem coldValues_law (s : State) : HoldClockLaw (coldValues s) := by
  refine ⟨by simp [HoldLaw, coldValues, coldState], ?_⟩
  simp [ClockLaw, coldValues, coldState]

theorem powerOff_law (s : State) : HoldClockLaw (powerOff s) := by
  refine ⟨by simp [HoldLaw, powerOff], ?_⟩
  simp [ClockLaw, powerOff, stopTimers, coldValues, coldState]

theorem EventEffect.holdClock {reads : Prop} {s t : State} (h : EventEffect reads s t) (law : HoldClockLaw s) : HoldClockLaw t := by
  cases h with
  | none => exact law
  | time d | unheard ch d | late ch d | fellBack d | requestAbandoned d => exact (elapse_holdClock d s).law law
  | heard ch bytes last => exact (hearBytes_holdClock ch bytes last s).law law
  | misheard | discarded | sent | stopLevel | ringLevel | rigLock | cellFollowed | resetLevel => exact law
  | hello ch id =>
    exact ((dropHead_holdClock ch s).trans (judgeHello_holdClock ch id _)).law law
  | lost ch d =>
    have passed := (elapse_holdClock d s).law law
    have recorded : HoldClockLaw (recordAlert (.lost ch)
        ((elapse d s).setChannel ch { (elapse d s).channels[ch] with state := .lost })) := passed
    exact ((removeGrant_frame _ _ _).trans (closeEvent_frame _ _ _).grant).holdClock.law recorded
  | leaseExpired f d =>
    exact ((removeGrant_frame _ _ _).trans (closeEvent_frame _ _ _).grant).holdClock.law ((elapse_holdClock d s).law law)
  | asked =>
    exact ((serveChannel_holdClock _ s).trans ((dropHead_holdClock _ _).trans (answerAsk_holdClock _ _ _))).law law
  | @reported ch x y z flags =>
    have dropped := ((serveChannel_holdClock ch s).trans (dropHead_holdClock ch _)).law law
    exact (closeEvent_frame _ _ _).holdClock.law (handleReport_law ch _ _ dropped)
  | slotRead => exact ((serveWalk_holdClock s).trans (readSlot_holdClock _ _ _)).law law
  | zoneRead => exact (readZone_holdClock _ _ s).law law
  | period t => exact (elapse_holdClock _ s).law law
  | tickedPeriod t =>
    have begun : HoldClockLaw (nextPeriod t s) := (elapse_holdClock _ s).law law
    exact sourceEvent_law begun
  | pulse => exact sourceEvent_law law
  | stopped =>
    have followed : HoldClockLaw (setStopLine true s) := law
    exact (closeEvent_frame _ _ _).holdClock.law (takeStop_law true followed)
  | rung =>
    have followed : HoldClockLaw (setRingLine true s) := law
    exact (closeEvent_frame _ _ _).holdClock.law (pushHold_law .ring true followed)
  | backupEntry => exact (backupEntered_holdClock _).law (haltBlocks_law law)
  | returnOfMain =>
    have returned : HoldClockLaw (setSupplyState .main (recordReturn s)) := law
    exact ((restartFlags_holdClock _).trans (beginHead_frame _).holdClock).law (returnTimers_law (restartBlocks_law returned))
  | resetAsserted =>
    have held : HoldClockLaw (setResetLine true s) := law
    exact (restartFlags_holdClock _).law (restartBlocks_law held)
  | resetDeasserted =>
    have released : HoldClockLaw (setResetLine false s) := law
    exact beginRunning_law true released
  | coldHeld => exact coldValues_law s
  | coldStarted => exact beginRunning_law false (coldValues_law s)
  | poweredOff | cellLost => exact powerOff_law _

theorem StepEffect.holdClock {reads : Prop} {s t : State} (h : StepEffect reads s t) (law : HoldClockLaw s) : HoldClockLaw t := by
  cases h with
  | answered sel x _ _ effect =>
    have kept := effect.holdClock law
    cases sel <;> exact kept
  | @opened sel => cases sel <;> exact law
  | fell sel => cases sel <;> exact law
  | @rose u sel effect =>
    have shown : HoldClockLaw u := by
      rcases effect with rfl | rfl | ⟨m, rfl⟩ <;> exact law
    cases sel <;> exact shown
  | event effect => exact effect.holdClock law

/-- Settles O52: the hold list and the run state change together, at a push, a release, a tick, a load and a skip; and an answer goes to the select that is served. -/
theorem holdsClockAndConsoleKept : Obligations.HoldsClockAndConsoleKept := by
  unfold Obligations.HoldsClockAndConsoleKept
  refine ⟨fun s t holds clock hs => ?_, fun s t law hs => ?_⟩
  · obtain ⟨rest, effect⟩ := step_effect hs
    exact effect.holdClock ⟨holds, clock⟩
  · obtain ⟨rest, effect⟩ := step_effect hs
    exact effect.consoleLaw law

end Sys2Proof.Machine
end

section
/-! PROOF. One step, the passing of time, the state after reset, MISO, the protect mode, and the events of the receiver, the channel and the tick source. -/

namespace Sys2Proof.Machine

/-! ## The step (R176, R179) -/

/-- Settles O1, by the equation of a step with a command waiting. -/
theorem stepTakesFront : Obligations.StepTakesFront := by
  unfold Obligations.StepTakesFront
  intro c rest s
  exact step_cons _ c rest rfl

/-- While the part does not run no time passes for it. -/
theorem elapse_halted {s : State} (halted : ¬ Runs s) (d : Nat) : elapse d s = s := by
  rw [runs_iff, Bool.not_eq_true] at halted
  unfold elapse
  rw [halted]
  rfl

theorem elapse_clock {s : State} (runs : Runs s) (d : Nat) : (elapse d s).clock = s.clock.elapse d := by
  unfold elapse
  rw [if_pos ((runs_iff s).mp runs)]

/-- Settles O2: time moves the timers, the receivers and the leases of a running part, and nothing else. -/
theorem stepWithEmptyQueue : Obligations.StepWithEmptyQueue := by
  unfold Obligations.StepWithEmptyQueue
  refine ⟨step_nil, fun s d => ⟨fun halted => elapse_halted halted d, fun runs => ?_⟩⟩
  have running := (runs_iff s).mp runs
  refine ⟨elapse_frame d s, fun c => ?_, fun f => ?_, elapse_clock runs d⟩
  · rw [elapse_channel, if_pos running]
    refine ⟨rfl, fun hunts => ?_, fun body n receives => ?_⟩
    · simp only [Channel.elapse, hunts, Receiver.elapse]
    · simp only [Channel.elapse, receives, Receiver.elapse]
  · rw [elapse_grant, if_pos running]
    rfl

/-! ## MISO (R157, R158, R161) -/

/-- The bytes of a record being shifted out. -/
theorem misoByte_record {k : ReadKind} {r : List Byte} {n : Nat} {b : Byte} (h : r[n]? = some b) :
    (Transaction.stream k (some r)).misoByte n = b := by
  unfold Transaction.misoByte
  simp [Transaction.answerBytes, h]

/-- Settles O7, by the byte each transaction shifts out. -/
theorem misoBytes : Obligations.MisoBytes := by
  unfold Obligations.MisoBytes
  refine ⟨fun s n closed => ?_, fun s sel n runs other => ?_, by decide⟩
  · have undriven : s.misoSelect = none := by
      rcases closed with halted | ⟨show_idle, crew_idle⟩
      · exact misoSelect_halted halted
      · exact misoSelect_closed show_idle crew_idle
    exact ⟨undriven, by rw [State.miso, undriven]; rfl⟩
  · have shifts {x : Transaction} (h : s.tx sel = x) (is_open : x ≠ .idle) (m : Nat) : s.miso m = some (x.misoByte m) := by
      subst h
      exact miso_open runs is_open other m
    refine ⟨fun is_open => misoSelect_open runs is_open other, fun h => shifts h (by simp) n,
      fun c h => shifts h (by simp) n, fun r d h => ⟨shifts h (by simp) 0, ?_, ?_⟩, fun k h => shifts h (by simp) 0,
      fun k r b h at_n => ?_⟩
    · rw [shifts h (by simp) 1]
      cases d <;> rfl
    · rw [shifts h (by simp) (n + 2)]
      cases d <;> rfl
    · rw [shifts h (by simp) n, misoByte_record at_n]

/-! ## SET_PROTECT and RIG LOCK (R58, R60, R62) -/

theorem effective_eq_hard_iff (s : State) : s.effective = .hard ↔ s.protect = .hard ∧ s.inputs.rigLock = true := by
  unfold State.effective
  cases s.protect <;> simp

/-- SET_PROTECT outside the effective HARD protection. -/
theorem setProtectOperand_named {s : State} {b : Byte} {m : Protect} (named : protectOf b = some m) :
    setProtectOperand b s =
      if s.effective = .hard then (s, answer .protected_) else ({ s with protect := m }, answer .ok) := by
  unfold setProtectOperand
  rw [named]
  rfl

/-- Settles O26: privilege, then the operand, then the effective protection. -/
theorem protectionCommands : Obligations.ProtectionCommands := by
  unfold Obligations.ProtectionCommands
  refine ⟨fun s b => ⟨exec_privilege rfl rfl, fun h => ?_⟩, fun s v => ⟨rfl, ?_⟩⟩
  · have answers {t : State} {x : Transaction} (ho : setProtectOperand b s = (t, x)) :
        exec (.setProtect b) s = .next (t.setTx .showSel x) := takeCommand_answers h (.inl rfl) ho
    refine ⟨fun out => answers ?_, fun in_range hard locked => answers ?_, fun free => ?_⟩
    · have unnamed : protectOf b = none := by
        unfold protectOf
        rw [if_neg (by omega), if_neg (by omega), if_neg (by omega)]
      unfold setProtectOperand
      rw [unnamed]
      rfl
    · have named : ∃ m, protectOf b = some m := by
        unfold protectOf
        split
        · exact ⟨_, rfl⟩
        · split
          · exact ⟨_, rfl⟩
          · exact ⟨_, if_pos (by omega)⟩
      obtain ⟨m, named⟩ := named
      rw [setProtectOperand_named named, if_pos ((effective_eq_hard_iff s).mpr ⟨hard, locked⟩)]
      rfl
    · rw [← effective_eq_hard_iff] at free
      have sets {m : Protect} (named : protectOf b = some m) :
          exec (.setProtect b) s = .next { answered s .showSel .ok with protect := m } :=
        answers ((setProtectOperand_named named).trans (if_neg free))
      refine ⟨fun h0 => sets ?_, fun h1 => sets ?_, fun h2 => sets ?_⟩ <;> simp [protectOf, *]
  · unfold State.effective
    refine ⟨fun h => ?_, fun h => ?_, fun h locked => ?_, fun h unlocked => ?_⟩ <;> simp [*]

/-! ## HELLO, the discard at a CLOSED channel, and the frames sent (R77, R82, R83, R90, R91) -/

theorem setChannel_setChannel (s : State) (c : Flyer) (a b : Channel) : (s.setChannel c a).setChannel c b = s.setChannel c b := by
  simp [State.setChannel]

theorem setChannel_self (s : State) (c : Flyer) (r : Channel) : (s.setChannel c r).channels[c] = r :=
  (setChannel_get s c c r).trans (if_pos rfl)

theorem grantsChannel_halted {s : State} (halted : s.running = false) (c : Flyer) : s.grantsChannel c = false := by
  simp [State.grantsChannel, halted]

/-- While the part does not run, no channel handles or sends a frame. -/
theorem channelEvents_halted {s : State} (halted : s.running = false) (c : Flyer) :
    exec (.hello c) s = .next s ∧ exec (.closedChannelDiscard c) s = .next s ∧ exec (.frameSent c) s = .next s ∧
    exec (.report c) s = .next s ∧ exec (.ask c) s = .next s := by
  refine ⟨?_, ?_, ?_, ?_, ?_⟩
  · show execHello c s = _
    unfold execHello
    split <;> simp [halted]
  · show execClosedChannelDiscard c s = _
    unfold execClosedChannelDiscard
    split <;> simp [halted]
  · show execFrameSent c s = _
    simp [execFrameSent, halted]
  · show execReport c s = _
    unfold execReport
    split <;> simp [grantsChannel_halted halted]
  · show execAsk c s = _
    unfold execAsk
    split <;> simp [grantsChannel_halted halted]

section
variable {s : State} {c : Flyer} {id rev : Byte} {rest : List InFrame} (head : s.channels[c].inbound = .hello id rev :: rest)
include head

theorem exec_hello :
    exec (.hello c) s = if s.running && s.channels[c].mayHandle then .next (judgeHello c id (dropHead c s)) else .next s := by
  show execHello c s = _
  unfold execHello
  rw [head]

theorem judgeHello_own (own : id.toNat = flyerNumber c) :
    judgeHello c id (dropHead c s) = s.setChannel c
      { s.channels[c] with
        state := if s.channels[c].state = .closed then .opened else s.channels[c].state
        inbound := rest
        out := s.channels[c].out ++ [.welcome (flyerNumber c)] } := by
  unfold judgeHello welcomeChannel queueFrame dropHead
  rw [if_pos own, head]
  by_cases closed : s.channels[c].state = .closed
  · simp only [setChannel_self, setChannel_setChannel, closed, if_true, List.drop_one, List.tail_cons]
  · simp only [setChannel_self, setChannel_setChannel, closed, if_false, List.drop_one, List.tail_cons]

theorem judgeHello_other (other : id.toNat ≠ flyerNumber c) :
    judgeHello c id (dropHead c s) =
      s.setChannel c { s.channels[c] with inbound := rest, out := s.channels[c].out ++ [.deny .mismatch] } := by
  unfold judgeHello queueFrame dropHead
  rw [if_neg other, head]
  simp only [setChannel_self, setChannel_setChannel, List.drop_one, List.tail_cons]

end

/-- A REPORT or ASK at the head of a CLOSED channel leaves the list. -/
theorem exec_closedChannelDiscard {s : State} {c : Flyer} {f : InFrame} {rest : List InFrame} (runs : s.running = true)
    (head : s.channels[c].inbound = f :: rest) (not_hello : ∀ id rev, f ≠ .hello id rev)
    (closed : s.channels[c].state = .closed) :
    exec (.closedChannelDiscard c) s = .next (s.setChannel c { s.channels[c] with inbound := rest }) := by
  have dropped : dropHead c s = s.setChannel c { s.channels[c] with inbound := rest } := by
    unfold dropHead
    rw [head]
    rfl
  show execClosedChannelDiscard c s = _
  unfold execClosedChannelDiscard
  rw [head, ← dropped]
  cases f with
  | hello id rev => exact absurd rfl (not_hello id rev)
  | report | ask => exact if_pos (by rw [runs, closed]; rfl)

/-- Settles O30: each of the five events at its channel, and none while the part does not run. -/
theorem helloDiscardAndSent : Obligations.HelloDiscardAndSent := by
  unfold Obligations.HelloDiscardAndSent
  simp only [runs_iff, Bool.not_eq_true]
  refine ⟨fun s c halted => channelEvents_halted halted c, fun s c runs => ⟨fun id rev rest head =>
    ⟨fun room => ?_, fun no_room => ?_⟩, fun f rest head not_hello closed => exec_closedChannelDiscard runs head not_hello closed,
    fun o rest first => ?_⟩⟩
  · have may : s.channels[c].mayHandle = true := decide_eq_true room
    have handled : exec (.hello c) s = .next (judgeHello c id (dropHead c s)) := by
      rw [exec_hello head, runs, Bool.true_and, may, if_pos rfl]
    exact ⟨fun own => by rw [handled, judgeHello_own head own], fun other => by rw [handled, judgeHello_other head other]⟩
  · have full : s.channels[c].mayHandle = false := decide_eq_false (Nat.not_le.mpr no_room)
    rw [exec_hello head, full, Bool.and_false, if_neg Bool.false_ne_true]
  · show execFrameSent c s = _
    unfold execFrameSent
    rw [if_pos runs, first]
    rfl

/-! ## The tick source's timers (R137, R139) -/

/-- A flag raised: the attention unit, and the lines that follow it. -/
theorem raiseFlag_eq {f : Flag} {s t : State} (h : t = raiseFlag f s) :
    t = { s with
          attention := raisedBy f.bit s.attention
          lines := { s.lines with attn := attnLevel t, alert := alertLevel s } } := by
  subst h
  rfl

theorem alertLevel_elapse (d : Nat) (s : State) : alertLevel (elapse d s) = alertLevel s := by
  simp only [alertLevel, outputLevel, elapse_supply, elapse_running, elapse_alert]

/-- A flag raised at an expiry, with the clock changed. -/
theorem raiseFlag_elapsed {f : Flag} {s u : State} {k : Clock} {d : Nat} (hu : u = elapse d s) :
    ∃ t, (.next (raiseFlag f (u.setClock k)) : Result) = .next t ∧
      t = { u with
            clock := k
            attention := raisedBy f.bit s.attention
            lines := { s.lines with attn := attnLevel t, alert := alertLevel s } } := by
  refine ⟨_, rfl, (raiseFlag_eq rfl).trans ?_⟩
  have same_level : alertLevel (u.setClock k) = alertLevel s := by
    rw [← alertLevel_elapse d s, ← hu]
    rfl
  rw [same_level, setClock_attention, setClock_lines, hu, elapse_attention, elapse_lines]
  rfl

/-- Settles O42: each timer's expiry, and nothing without its timer or while the part does not run. -/
theorem sourceExpiries : Obligations.SourceExpiries := by
  unfold Obligations.SourceExpiries
  simp only [runs_iff, Bool.not_eq_true]
  have watch (s : State) : exec .pulseWatchExpiry s = execPulseWatchExpiry s := rfl
  have request (s : State) : exec .abandonment s = execAbandonment s := rfl
  simp only [watch, request]
  unfold execPulseWatchExpiry execAbandonment
  refine ⟨fun s halted => by simp [halted], fun s runs => ⟨fun n u source at_n hu => ?_, ?_, fun n u at_n hu => ?_, ?_⟩⟩
  · rw [if_pos (by simp [runs, source, at_n]), at_n]
    have elapsed : elapse (timeLeft Config.pulseTime (some n)) s = u := hu.symm
    rw [elapsed]
    exact raiseFlag_elapsed (f := .clockFallback) hu
  · rintro (internal | unwatched)
    · simp [internal]
    · simp [unwatched]
  · rw [if_pos (by simp [runs, at_n]), at_n]
    have elapsed : elapse (timeLeft Config.requestTime (some n)) s = u := hu.symm
    rw [elapsed]
    exact raiseFlag_elapsed (f := .sourceAbandoned) hu
  · intro unrequested
    simp [unrequested]

/-! ## The receiver (R77 to R82) -/

theorem setReceiver_setReceiver (c : Flyer) (q r : Receiver) (s : State) :
    setReceiver c q (setReceiver c r s) = setReceiver c q s := by
  unfold setReceiver
  rw [setChannel_setChannel, setChannel_self]

theorem setReceiver_rx (c : Flyer) (r : Receiver) (s : State) : (setReceiver c r s).channels[c].rx = r := by
  unfold setReceiver
  rw [setChannel_self]

theorem setReceiver_inbound (c : Flyer) (r : Receiver) (s : State) :
    (setReceiver c r s).channels[c].inbound = s.channels[c].inbound := by
  unfold setReceiver
  rw [setChannel_self]

theorem admitFrame_running (c : Flyer) (f : InFrame) (s : State) : (admitFrame c f s).running = s.running := by
  unfold admitFrame
  split <;> rfl

theorem hearByte_running (c : Flyer) (b : Byte) (s : State) : (hearByte c b s).running = s.running := by
  unfold hearByte
  dsimp only
  split
  · exact admitFrame_running c _ _
  · rfl

theorem knownKind_iff (b : Byte) : knownKind b = true ↔ b = 0x01 ∨ b = 0x02 ∨ b = 0x03 := by
  simp [knownKind, or_assoc]

theorem exec_frameTaken {s : State} (runs : s.running = true) (c : Flyer) (bytes : List Byte) (last : Byte) :
    exec (.frameTaken c bytes last) s = .next (hearBytes c bytes last s) := by
  show (.next (if s.running then _ else _) : Result) = _
  rw [if_pos runs]

section
variable {s : State} {c : Flyer}

/-- A byte heard by a receiver that takes it as the first of a fresh hunt. -/
theorem hearByte_hunting (hunts : s.channels[c].rx.atByte = .hunting) (b : Byte) :
    hearByte c b s = setReceiver c (if b = 0xA5 then .receiving [] 0 else .hunting) s := by
  have none_taken : s.channels[c].rx.atByte.taken b = none := by
    rw [hunts]
    rfl
  rw [hearByte_moves none_taken, hunts]
  rfl

/-- A byte where the kind falls. -/
theorem hearByte_kind (waits : s.channels[c].rx.atByte = .receiving [] n) (b : Byte) :
    hearByte c b s = setReceiver c (if knownKind b then .receiving [b] 0 else .hunting) s := by
  have none_taken : s.channels[c].rx.atByte.taken b = none := by
    rw [waits]
    exact ite_self _
  rw [hearByte_moves none_taken, waits]
  rfl

/-- A byte of the payload. -/
theorem hearByte_payload {k : Byte} {p : List Byte} (waits : s.channels[c].rx.atByte = .receiving (k :: p) n) (b : Byte)
    (short : (k = 0x01 ∧ p.length < 2) ∨ (k = 0x02 ∧ p.length < 4) ∨ (k = 0x03 ∧ p.length < 3)) :
    hearByte c b s = setReceiver c (.receiving (k :: p ++ [b]) 0) s := by
  obtain ⟨goes_on, none_taken⟩ := hear_payload n b short
  rw [← waits] at none_taken
  rw [hearByte_moves none_taken, waits, goes_on]

/-- The byte where the check byte falls, when it agrees and there is room. -/
theorem hearByte_check {f : InFrame} {b : Byte} (waits : s.channels[c].rx.atByte = .receiving f.body n) (agrees : b = f.check)
    (room : s.channels[c].inbound.length < 2) :
    hearByte c b s = s.setChannel c { s.channels[c] with rx := .hunting, inbound := s.channels[c].inbound ++ [f] } := by
  have takes : s.channels[c].rx.atByte.taken b = some f := by rw [waits, taken_body, if_pos agrees]
  rw [hearByte_takes takes, waits, hear_body]
  rw [admitFrame, if_pos (by rw [setReceiver_inbound]; exact room)]
  unfold setReceiver
  rw [setChannel_self, setChannel_setChannel]

/-- The byte where the check byte falls, when it differs or the list is full. -/
theorem hearByte_lost {f : InFrame} {b : Byte} (waits : s.channels[c].rx.atByte = .receiving f.body n)
    (lost : b ≠ f.check ∨ 2 ≤ s.channels[c].inbound.length) : hearByte c b s = setReceiver c .hunting s := by
  by_cases agrees : b = f.check
  · have takes : s.channels[c].rx.atByte.taken b = some f := by rw [waits, taken_body, if_pos agrees]
    have full := lost.resolve_left (Classical.not_not.mpr agrees)
    rw [hearByte_takes takes, waits, hear_body]
    exact if_neg (by rw [setReceiver_inbound]; exact Nat.not_lt.mpr full)
  · have none_taken : s.channels[c].rx.atByte.taken b = none := by rw [waits, taken_body, if_neg agrees]
    rw [hearByte_moves none_taken, waits, hear_body]

end

/-- The payload bytes of a frame, heard one after the other. -/
theorem foldl_payload (c : Flyer) (k : Byte) (s : State) : ∀ q p : List Byte,
    ((k = 0x01 ∧ p.length + q.length ≤ 2) ∨ (k = 0x02 ∧ p.length + q.length ≤ 4) ∨ (k = 0x03 ∧ p.length + q.length ≤ 3)) →
    q.foldl (fun t b => hearByte c b t) (setReceiver c (.receiving (k :: p) 0) s) = setReceiver c (.receiving (k :: p ++ q) 0) s
  | [], p, _ => by rw [List.append_nil]; rfl
  | b :: q, p, fits => by
    rw [List.length_cons] at fits
    have waits : (setReceiver c (.receiving (k :: p) 0) s).channels[c].rx.atByte = .receiving (k :: p) 0 := by
      rw [setReceiver_rx]
      exact atByte_inTime (Nat.zero_le _)
    have short : (k = 0x01 ∧ p.length < 2) ∨ (k = 0x02 ∧ p.length < 4) ∨ (k = 0x03 ∧ p.length < 3) := by
      refine fits.imp (.imp_right fun _ => ?_) (.imp (.imp_right fun _ => ?_) (.imp_right fun _ => ?_)) <;> omega
    have goes_on := foldl_payload c k s q (p ++ [b]) (by simpa [Nat.add_assoc, Nat.add_comm 1] using fits)
    rw [List.foldl_cons, hearByte_payload waits b short, setReceiver_setReceiver, List.cons_append, goes_on,
      List.cons_append, List.cons_append, List.append_assoc, List.singleton_append]

/-- The kind and payload of a frame, heard where the kind falls. -/
theorem foldl_body {s : State} {c : Flyer} {n : Nat} (waits : s.channels[c].rx.atByte = .receiving [] n) (f : InFrame) :
    f.body.foldl (fun t b => hearByte c b t) s = setReceiver c (.receiving f.body 0) s := by
  have heard (k : Byte) (q : List Byte) (known : knownKind k = true)
      (fits : (k = 0x01 ∧ 0 + q.length ≤ 2) ∨ (k = 0x02 ∧ 0 + q.length ≤ 4) ∨ (k = 0x03 ∧ 0 + q.length ≤ 3)) :
      (k :: q).foldl (fun t b => hearByte c b t) s = setReceiver c (.receiving (k :: q) 0) s := by
    rw [List.foldl_cons, hearByte_kind waits, if_pos known]
    exact foldl_payload c k s q [] fits
  cases f with
  | hello id rev => exact heard 0x01 [id, rev] rfl (.inl ⟨rfl, Nat.le_refl _⟩)
  | report x y z flags => exact heard 0x02 [x, y, z, flags] rfl (.inr (.inl ⟨rfl, Nat.le_refl _⟩))
  | ask x y z => exact heard 0x03 [x, y, z] rfl (.inr (.inr ⟨rfl, Nat.le_refl _⟩))

/-- A frame heard back to back, from the sync byte or from the kind, stands at its check byte. -/
theorem hearBytes_frame {s : State} {c : Flyer} {f : InFrame} {bytes : List Byte} (last : Byte)
    (h : (s.channels[c].rx = .hunting ∧ bytes = 0xA5 :: f.body) ∨
      ∃ n, s.channels[c].rx = .receiving [] n ∧ n ≤ 100 + 10 * (bytes.length + 1) ∧ bytes = f.body) :
    hearBytes c bytes last s = hearByte c last (setReceiver c (.receiving f.body 0) s) := by
  unfold hearBytes
  congr 1
  rcases h with ⟨hunts, rfl⟩ | ⟨n, receives, in_time, rfl⟩
  · have fresh : s.channels[c].rx.atByte = .hunting := by rw [hunts]; rfl
    have before : setReceiver c (s.channels[c].rx.before (Config.byteTime * (0xA5 :: f.body).length)) s = s := by
      rw [hunts]
      show setReceiver c .hunting s = s
      rw [← hunts, setReceiver_same]
    rw [before, List.foldl_cons, hearByte_hunting fresh, if_pos rfl,
      foldl_body (n := 0) (by rw [setReceiver_rx]; rfl), setReceiver_setReceiver]
  · rw [receives]
    show f.body.foldl _ (setReceiver c (.receiving [] (n - 10 * f.body.length)) s) = _
    rw [foldl_body (n := n - 10 * f.body.length) (by rw [setReceiver_rx]; exact atByte_inTime (by omega)),
      setReceiver_setReceiver]

/-- The events of the receiver while the part does not run. -/
theorem receiverEvents_halted {s : State} (halted : s.running = false) (c : Flyer) :
    exec (.frameGap c) s = .next s ∧ exec (.framingError c) s = .next s ∧
    (∀ (i : Instr) (b : Byte), HearsByte i c b → exec i s = .next s) ∧
    ∀ (bytes : List Byte) (b : Byte), exec (.frameTaken c bytes b) s = .next s := by
  refine ⟨?_, ?_, fun i b hears => ?_, fun bytes b => ?_⟩
  · show execFrameGap c s = _
    unfold execFrameGap
    split <;> simp [halted]
  · show execFramingError c s = _
    simp [execFramingError, halted]
  · rw [hearsByte_exec hears, halted]
    rfl
  · show (.next (if s.running then _ else _) : Result) = _
    rw [halted]
    rfl

/-- One byte heard while the part runs, by where it falls. -/
theorem receiverByte {s : State} {c : Flyer} {i : Instr} {b : Byte} (runs : s.running = true) (hears : HearsByte i c b) :
    ((s.channels[c].rx = .hunting ∨ ∃ body n, s.channels[c].rx = .receiving body n ∧ 100 + 10 < n) →
      (b = 0xA5 → exec i s = .next (s.withReceiver c (.receiving [] 0))) ∧
      (b ≠ 0xA5 → exec i s = .next (s.withReceiver c .hunting))) ∧
    ∀ (body : List Byte) (n : Nat), s.channels[c].rx = .receiving body n → n ≤ 100 + 10 →
      (body = [] →
        ((b = 0x01 ∨ b = 0x02 ∨ b = 0x03) → exec i s = .next (s.withReceiver c (.receiving [b] 0))) ∧
        (b ≠ 0x01 → b ≠ 0x02 → b ≠ 0x03 → exec i s = .next (s.withReceiver c .hunting))) ∧
      (∀ (k : Byte) (payload : List Byte), body = k :: payload →
        ((k = 0x01 ∧ payload.length < 2) ∨ (k = 0x02 ∧ payload.length < 4) ∨ (k = 0x03 ∧ payload.length < 3)) →
        exec i s = .next (s.withReceiver c (.receiving (body ++ [b]) 0))) ∧
      ∀ f : InFrame, body = f.body →
        (b = f.check → s.channels[c].inbound.length < 2 → exec i s =
          .next (s.setChannel c { s.channels[c] with rx := .hunting, inbound := s.channels[c].inbound ++ [f] })) ∧
        ((b ≠ f.check ∨ 2 ≤ s.channels[c].inbound.length) → exec i s = .next (s.withReceiver c .hunting)) := by
  rw [hearsByte_exec hears, if_pos runs]
  refine ⟨fun fresh => ?_, fun body n receives in_time => ?_⟩
  · have hunts : s.channels[c].rx.atByte = .hunting := by
      rcases fresh with hunts | ⟨body, n, receives, late⟩
      · rw [hunts]
        rfl
      · rw [receives]
        exact atByte_late late
    rw [hearByte_hunting hunts]
    exact ⟨fun sync => by rw [if_pos sync]; rfl, fun other => by rw [if_neg other]; rfl⟩
  · have waits : s.channels[c].rx.atByte = .receiving body n := by
      rw [receives]
      exact atByte_inTime in_time
    refine ⟨?_, ?_, ?_⟩
    · rintro rfl
      rw [hearByte_kind waits]
      refine ⟨fun known => ?_, fun no_hello no_report no_ask => ?_⟩
      · rw [if_pos ((knownKind_iff b).mpr known)]
        rfl
      · rw [if_neg (mt (knownKind_iff b).mp (by simp only [no_hello, no_report, no_ask, or_self, not_false_eq_true]))]
        rfl
    · rintro k payload rfl short
      rw [hearByte_payload waits b short]
      rfl
    · rintro f rfl
      exact ⟨fun agrees room => by rw [hearByte_check waits agrees room], fun lost => by rw [hearByte_lost waits lost]; rfl⟩

/-- Settles O29: the receiver byte by byte, and a whole frame as the bytes it is made of. -/
theorem receiverEvents : Obligations.ReceiverEvents := by
  unfold Obligations.ReceiverEvents
  simp only [runs_iff, Bool.not_eq_true]
  refine ⟨fun s c halted => receiverEvents_halted halted c, fun s c runs => ⟨?_, fun hunts => ?_, ?_⟩,
    fun s c i b runs hears => receiverByte runs hears, fun s t v c b last bytes runs met one => ?_,
    fun s c f bytes last runs whole => ?_⟩
  · show execFramingError c s = _
    rw [execFramingError, if_pos runs]
    rfl
  · show execFrameGap c s = _
    rw [execFrameGap, hunts]
  · rintro body n u receives rfl
    show execFrameGap c s = _
    rw [execFrameGap, receives]
    exact if_pos runs
  · have first_met : setReceiver c (s.channels[c].rx.before (10 * (bytes.length + 1))) s = v := by
      rcases met with ⟨hunts, rfl⟩ | ⟨body, n, receives, rfl⟩
      · rw [hunts]
        show setReceiver c .hunting v = v
        rw [← hunts, setReceiver_same]
      · rw [receives]
        rfl
    have v_runs : v.running = true := by
      rw [← first_met]
      exact runs
    rw [exec_frameTaken v_runs, hearBytes_one] at one
    cases one
    rw [exec_frameTaken runs, exec_frameTaken ((hearByte_running c b v).trans v_runs), hearBytes_cons]
    exact congrArg (fun u => Host.Outcome.next (hearBytes c bytes last (hearByte c b u))) first_met
  · rw [exec_frameTaken runs, hearBytes_frame last whole]
    have waits : (setReceiver c (.receiving f.body 0) s).channels[c].rx.atByte = .receiving f.body 0 := by
      rw [setReceiver_rx]
      exact atByte_inTime (Nat.zero_le _)
    refine ⟨fun agrees room => ?_, fun lost => ?_⟩
    · rw [hearByte_check waits agrees (by rw [setReceiver_inbound]; exact room)]
      unfold setReceiver
      rw [setChannel_self, setChannel_setChannel]
    · rw [hearByte_lost waits (by rw [setReceiver_inbound]; exact lost), setReceiver_setReceiver]
      rfl

/-! ## The state after reset (R75, R92, R156, R180) -/

/-- The tables, records and lines after reset, by computation. -/
theorem reset_laws :
    PermitLaw State.reset ∧ GrantsOnlyFree State.reset ∧ GrantLaw State.reset ∧ LostLaw State.reset ∧
    BindingLaw State.reset ∧ QueueLaw State.reset ∧ WalkLaw State.reset ∧ CheckingLaw State.reset ∧
    WalkSubjectLaw State.reset ∧ HoldLaw State.reset ∧ ClockLaw State.reset ∧ TemplateLaw State.reset ∧
    OverlapLaw State.reset ∧ ChannelLaw State.reset ∧ AttentionLaw State.reset ∧ AlertLaw State.reset ∧
    ArbiterLaw State.reset ∧ ConsoleLaw State.reset ∧ PositionLaw State.reset ∧
    InForceLaw State.reset ∧ ZoneLaw State.reset ∧ WindowLaw State.reset ∧ DisjointLaw State.reset ∧
    CandidateLaw State.reset ∧ ClaimsReadLaw State.reset ∧ ZonesReadLaw State.reset := by
  refine ⟨?_, ?_, ?_, ?_, ?_, ?_, ?_, ?_, ?_, ?_, ?_, ?_, ?_, ?_, ?_, ?_, ?_, ?_, ?_, ?_, ?_, ?_, ?_, ?_, ?_, ?_⟩ <;> decide

/-- Settles O4: every field of the state after reset has its value, and the laws hold of tables that are empty. -/
theorem resetStateAndLaws : Obligations.ResetStateAndLaws := by
  unfold Obligations.ResetStateAndLaws
  refine ⟨by decide, rfl, rfl, by decide, rfl, by decide, by decide, by decide, by decide, rfl, rfl, rfl, rfl, rfl, rfl, rfl,
    by decide, rfl, rfl, rfl, rfl, rfl, rfl, rfl, rfl, rfl, rfl, rfl, rfl, reset_laws⟩

end Sys2Proof.Machine
end

section
/-! PROOF. The records streamed on a read, field by field: their lengths, and the bytes of each (R183, R187). -/

namespace Sys2Proof.Machine

/-! ## The lengths of the fields -/

theorem fieldOr_length {α : Type} {n : Nat} {f : α → List Byte} (h : ∀ v, (f v).length = n) (x : Option α) :
    (fieldOr n f x).length = n := by
  cases x with
  | none => exact List.length_replicate
  | some v => exact h v

theorem tickField_length (n : Nat) : (tickField n).length = 3 := rfl
theorem wordField_length (n : Nat) : (wordField n).length = 2 := rfl
theorem boxField_length (b : Box) : (boxField b).length = 6 := rfl
theorem cellField_length (c : Cell) : (cellField c).length = 3 := rfl
theorem flyerField_length (f : Flyer) : (flyerField f).length = 1 := rfl
theorem fixedBoxField_length (a : FixedBox) : (fixedBoxField a).length = 7 := rfl
theorem breachField_length (b : BreachRec) : (breachField b).length = 16 := rfl

theorem heldPart_length (x : Option (HeldCause × Bool)) :
    (fieldOr 2 (fun p => byteField (heldCauseCode p.1) ++ boolField p.2) x).length = 2 := by cases x <;> rfl

theorem handlePart_length (x : Option Handle) : (fieldOr 1 (fun h => [Handle.byte h]) x).length = 1 := by
  cases x <;> rfl

theorem amendField_length (a : Amendment) : (amendField a).length = 10 := by
  unfold amendField
  rw [List.length_append, List.length_append, fieldOr_length tickField_length, fieldOr_length boxField_length]
  rfl

theorem verdictField_length (v : Verdict) : (verdictField v).length = 2 := by cases v <;> rfl

theorem wayField_length (x : Option Template) : (wayField x).length = 14 := by cases x <;> rfl

theorem alertEventField_length (e : AlertEvent) : (alertEventField e).length = 5 := by
  unfold alertEventField
  rw [List.length_append, List.length_append, fieldOr_length flyerField_length]
  cases e.cause <;> rfl

theorem winchesField_length (ws : List Winch) : (winchesField ws).length = 4 := by
  unfold winchesField
  rw [List.length_take, List.length_append, List.length_replicate]
  omega

/-! ## The lengths of the records -/

theorem claimRecord_length (s : State) (i : Slot) : (claimRecord s i).length = 32 := by
  unfold claimRecord
  split
  · rfl
  · simp only [List.length_append]
    rw [fieldOr_length tickField_length, heldPart_length, fieldOr_length wordField_length, fieldOr_length amendField_length,
      fieldOr_length verdictField_length]
    rfl

theorem zoneRecord_length (s : State) (z : Zone) : (zoneRecord s z).length = 18 := by
  unfold zoneRecord
  dsimp only
  simp only [List.length_append]
  rw [fieldOr_length fixedBoxField_length, fieldOr_length fixedBoxField_length, handlePart_length]
  rfl

theorem flyerRecord_length (s : State) (f : Flyer) : (flyerRecord s f).length = 27 := by
  unfold flyerRecord
  simp only [List.length_append]
  rw [fieldOr_length cellField_length, fieldOr_length breachField_length, winchesField_length]
  rfl

theorem templateRecord_length (s : State) (k : Fin 16) : (templateRecord s k).length = 58 := by
  unfold templateRecord
  simp only [List.length_append, wayField_length]
  rfl

theorem alertRecord_length (s : State) : (alertRecordBytes s).length = 11 := by
  unfold alertRecordBytes
  simp only [List.length_append]
  rw [fieldOr_length alertEventField_length, fieldOr_length alertEventField_length]
  rfl

theorem supplyRecord_length (s : State) : (supplyRecord s).length = 8 := by
  unfold supplyRecord
  simp only [List.length_append]
  rw [fieldOr_length tickField_length, fieldOr_length tickField_length]
  rfl

theorem statusRecord_length (s : State) : (statusRecord s).length = 31 := by
  unfold statusRecord
  simp only [List.length_append]
  rw [fieldOr_length wordField_length]
  rfl

theorem holdRecord_length (s : State) : (holdRecord s).length = 4 * s.holds.length + 1 := by
  unfold holdRecord
  have entry (h : HoldEntry) : (byteField (holdSourceCode h.source) ++ tickField h.tick).length = 4 := rfl
  simp only [List.length_append, List.length_flatMap, entry, List.map_const', List.sum_replicate_nat, List.length_singleton]
  omega

/-! ## A conditional field as its bytes -/

theorem fieldOr_eq {α : Type} {n : Nat} {f g : α → List Byte} (h : ∀ v, f v = g v) (x : Option α) :
    fieldOr n f x = x.elim (List.replicate n 0) g := by
  cases x with
  | none => rfl
  | some v => exact h v

theorem fieldOr_tick (x : Option Nat) : fieldOr 3 tickField x = x.elim [0, 0, 0] threeBytes := fieldOr_eq tickField_eq x

theorem fieldOr_word (x : Option Nat) : fieldOr 2 wordField x = x.elim [0, 0] twoBytes := fieldOr_eq wordField_eq x

/-! ## The claim record -/

/-- The state code of a claim record. -/
theorem claimStateCode_eq {st : ClaimState} {code : Nat}
    (h : (st = .queued ∧ code = 1) ∨ (st = .checking ∧ code = 2) ∨ (st = .booked ∧ code = 3) ∨
      (st = .active ∧ code = 4) ∨ (st.isHeld = true ∧ code = 5) ∨ (st = .overrun ∧ code = 6) ∨
      (st = .refused ∧ code = 7)) : claimStateCode st = code := by
  cases st <;> simp_all [claimStateCode, ClaimState.isHeld]

/-- The held cause and ended mark of a claim record. -/
theorem heldField_eq {st : ClaimState} {held : List Byte}
    (h : (st.isHeld = false ∧ held = [0, 0]) ∨
      (∃ m, st = .held .command m ∧ held = [0, BitVec.ofNat 8 (bitOf m 1)]) ∨
      (∃ m, st = .held .breach m ∧ held = [1, BitVec.ofNat 8 (bitOf m 1)]) ∨
      (∃ m, st = .held .restart m ∧ held = [2, BitVec.ofNat 8 (bitOf m 1)]) ∨
      (∃ m, st = .held .overlap m ∧ held = [3, BitVec.ofNat 8 (bitOf m 1)])) :
    fieldOr 2 (fun p => byteField (heldCauseCode p.1) ++ boolField p.2) (heldFields st) = held := by
  rcases h with ⟨not_held, rfl⟩ | ⟨m, rfl, rfl⟩ | ⟨m, rfl, rfl⟩ | ⟨m, rfl, rfl⟩ | ⟨m, rfl, rfl⟩
  · rw [← heldFields_isSome, Option.isSome_eq_false_iff, Option.isNone_iff_eq_none] at not_held
    rw [not_held]
    rfl
  all_goals exact congrArg (_ :: ·) (boolField_eq m)

/-- The pending amendment of a claim record. -/
theorem amendPart_eq {x : Option Amendment} {amend : List Byte}
    (h : (x = none ∧ amend = List.replicate 10 0) ∨
      (∃ a, x = some a ∧ amend = [BitVec.ofNat 8 (bitOf a.newEnd.isSome 1 + bitOf a.newBox.isSome 2)]
        ++ a.newEnd.elim [0, 0, 0] threeBytes ++ a.newBox.elim (List.replicate 6 0) sixBytes)) :
    fieldOr 10 amendField x = amend := by
  rcases h with ⟨rfl, rfl⟩ | ⟨a, rfl, rfl⟩
  · rfl
  · show amendField a = _
    unfold amendField
    rw [presenceField_two, fieldOr_tick, fieldOr_eq boxField_eq]

/-- The last verdict of a claim record. -/
theorem verdictPart_eq {x : Option Verdict} {verdict : List Byte}
    (h : (x = none ∧ verdict = [0, 0]) ∨
      (∃ h : Handle, x = some (.conflict h) ∧ verdict = [1, BitVec.ofNat 8 (h.slot.val * 8 + h.gen.val)]) ∨
      (∃ z : Zone, x = some (.zone z) ∧ verdict = [2, BitVec.ofNat 8 z.val]) ∨
      (x = some .stale ∧ verdict = [3, 0])) : fieldOr 2 verdictField x = verdict := by
  rcases h with ⟨rfl, rfl⟩ | ⟨h, rfl, rfl⟩ | ⟨z, rfl, rfl⟩ | ⟨rfl, rfl⟩ <;> rfl

theorem claimRecord_none {s : State} {i : Slot} (free : s.claimAt i = none) :
    claimRecord s i = BitVec.ofNat 8 (i.val * 8 + s.slots[i].gen.val) :: List.replicate 31 0 := by
  unfold claimRecord
  rw [free]
  rfl

/-- The record of a claim, its parts given as bytes. -/
theorem claimRecord_some {s : State} {i : Slot} {c : Claim} {code : Nat} {held amend verdict : List Byte}
    (at_slot : s.claimAt i = some c) (hcode : claimStateCode c.state = code)
    (hheld : fieldOr 2 (fun p => byteField (heldCauseCode p.1) ++ boolField p.2) (heldFields c.state) = held)
    (hamend : fieldOr 10 amendField c.amend = amend) (hverdict : fieldOr 2 verdictField c.verdict = verdict) :
    claimRecord s i =
      [BitVec.ofNat 8 (i.val * 8 + s.slots[i].gen.val), BitVec.ofNat 8 code,
       BitVec.ofNat 8 (bitOf c.stop.isSome 1 + bitOf c.state.isHeld 2 + bitOf c.cue.isSome 4 + bitOf c.amend.isSome 8
         + bitOf c.verdict.isSome 16),
       BitVec.ofNat 8 (flyerNumber c.flyer)]
      ++ sixBytes c.box ++ threeBytes c.start ++ c.stop.elim [0, 0, 0] threeBytes ++ held
      ++ c.cue.elim [0, 0] twoBytes ++ amend ++ verdict := by
  unfold claimRecord
  rw [at_slot]
  dsimp only
  rw [hcode, hheld, hamend, hverdict, heldFields_isSome, presenceField_five, boxField_eq, tickField_eq, fieldOr_tick,
    fieldOr_word]
  rfl

/-! ## The other records -/

theorem zoneRecord_eq {s : State} {z : Zone} {x : ZoneSlot} (h : s.zones[z] = x) :
    zoneRecord s z = [BitVec.ofNat 8 z.val, BitVec.ofNat 8 (zoneParts x).1,
        BitVec.ofNat 8 (bitOf (zoneParts x).2.1.isSome 1 + bitOf (zoneParts x).2.2.1.isSome 2
          + bitOf (zoneParts x).2.2.2.isSome 4)]
      ++ (zoneParts x).2.1.elim (List.replicate 7 0) fixedBytes ++ (zoneParts x).2.2.1.elim (List.replicate 7 0) fixedBytes
      ++ [(zoneParts x).2.2.2.elim 0 oneHandle] := by
  subst h
  unfold zoneRecord
  dsimp only
  rw [presenceField_three, fieldOr_eq fixedBoxField_eq, fieldOr_eq fixedBoxField_eq]
  cases (zoneParts s.zones[z]).2.2.2 <;> rfl

/-- An ascending list is determined by its members. -/
theorem ascending_eq {n : Nat} {l m : List (Fin n)} (hl : l.Pairwise (fun v w => v < w)) (hm : m.Pairwise (fun v w => v < w))
    (same : ∀ x, x ∈ l ↔ x ∈ m) : l = m := by
  have nodup {k : List (Fin n)} (hk : k.Pairwise (fun v w => v < w)) : k.Nodup := hk.imp Fin.ne_of_lt
  have perm : l.Perm m := (List.perm_ext_iff_of_nodup (nodup hl) (nodup hm)).mpr same
  exact perm.eq_of_pairwise (fun _ _ _ _ before after => absurd after (Fin.lt_asymm before)) hl hm

/-- The bound winches of a flyer are the one ascending list of them. -/
theorem boundWinches_eq {s : State} {f : Flyer} {ws : List Winch} (ascending : ws.Pairwise (fun v w => v < w))
    (bound : ∀ w : Winch, w ∈ ws ↔ s.bindings[w] = some f) : s.boundWinches f = ws := by
  have sorted : (s.boundWinches f).Pairwise (fun v w => v < w) := (List.pairwise_lt_finRange 16).filter _
  refine ascending_eq sorted ascending fun w => ?_
  rw [bound]
  simp [State.boundWinches, allWinches]

theorem winchesField_eq {ws : List Winch} (h : ws.length ≤ 4) :
    winchesField ws = ws.map (fun w => BitVec.ofNat 8 w.val) ++ List.replicate (4 - ws.length) 0 := by
  have bytes : ws.flatMap (fun (w : Winch) => byteField w.val) = ws.map (fun w => BitVec.ofNat 8 w.val) :=
    List.map_eq_flatMap.symm
  unfold winchesField
  rw [bytes, List.take_append, List.take_of_length_le (by rw [List.length_map]; exact h), List.length_map, List.take_replicate,
    Nat.min_eq_left (Nat.sub_le 4 ws.length)]

theorem breachField_eq (b : BreachRec) : breachField b =
    breachBytes b.first ++ breachBytes b.latest ++ [BitVec.ofNat 8 b.count, BitVec.ofNat 8 (bitOf b.intrusion 1)] := by
  unfold breachField
  rw [breachEventField_eq, breachEventField_eq, boolField_eq, List.append_assoc]
  rfl

theorem flyerRecord_eq {s : State} {f : Flyer} {ws : List Winch} (hws : s.boundWinches f = ws) (few : ws.length ≤ 4) :
    flyerRecord s f =
      [BitVec.ofNat 8 (flyerNumber f), BitVec.ofNat 8 ws.length] ++ ws.map (fun w => BitVec.ofNat 8 w.val)
        ++ List.replicate (4 - ws.length) 0
        ++ [BitVec.ofNat 8 (bitOf s.flyers[f].position.isSome 1 + bitOf s.flyers[f].breach.isSome 2),
            BitVec.ofNat 8 (bitOf s.flyers[f].grounded 1)]
        ++ s.flyers[f].position.elim [0, 0, 0] threeCoords
        ++ s.flyers[f].breach.elim (List.replicate 16 0) (fun b => breachBytes b.first ++ breachBytes b.latest
          ++ [BitVec.ofNat 8 b.count, BitVec.ofNat 8 (bitOf b.intrusion 1)]) := by
  unfold flyerRecord
  rw [hws, winchesField_eq few, presenceField_two, boolField_eq, fieldOr_eq cellField_eq, fieldOr_eq breachField_eq]
  simp only [flyerField, byteField, List.append_assoc, List.cons_append, List.nil_append, List.replicate]

theorem templateRecord_eq (s : State) (k : Fin 16) :
    templateRecord s k =
      [BitVec.ofNat 8 k.val] ++ wayBytes s.templates.sets[k].ways[(0 : Fin 4)] ++ wayBytes s.templates.sets[k].ways[(1 : Fin 4)]
        ++ wayBytes s.templates.sets[k].ways[(2 : Fin 4)] ++ wayBytes s.templates.sets[k].ways[(3 : Fin 4)]
        ++ [BitVec.ofNat 8 ((if s.templates.sets[k].root = .high then 1 else 0) + bitOf s.templates.sets[k].lowChoice 2
          + bitOf s.templates.sets[k].highChoice 4)] := by
  unfold templateRecord
  dsimp only
  simp only [wayField_eq]
  rw [presenceField_three]
  cases s.templates.sets[k].root <;> rfl

theorem holdRecord_eq (s : State) : holdRecord s = s.holds.flatMap holdBytes ++ [0xFF] := by
  unfold holdRecord
  rw [funext holdField_eq]

theorem alertRecord_eq (s : State) : alertRecordBytes s = [BitVec.ofNat 8 s.alert.count]
    ++ s.alert.first.elim (List.replicate 5 0) alertBytes ++ s.alert.latest.elim (List.replicate 5 0) alertBytes := by
  unfold alertRecordBytes
  rw [fieldOr_eq alertEventField_eq, fieldOr_eq alertEventField_eq]
  rfl

theorem supplyRecord_eq (s : State) :
    supplyRecord s = [BitVec.ofNat 8 (bitOf s.supply.firstEntry.isSome 1 + bitOf s.supply.latestReturn.isSome 2)]
      ++ s.supply.firstEntry.elim [0, 0, 0] threeBytes ++ s.supply.latestReturn.elim [0, 0, 0] threeBytes
      ++ [BitVec.ofNat 8 s.supply.count] := by
  unfold supplyRecord
  rw [presenceField_two, fieldOr_tick, fieldOr_tick]
  rfl

/-! ## The status record -/

theorem runStateCode_eq {r : RunState} {n : Nat}
    (h : (r = .void ∧ n = 0) ∨ (r = .running ∧ n = 1) ∨ (r = .frozen ∧ n = 2) ∨ (r = .ended ∧ n = 3)) :
    runStateCode r = n := by
  rcases h with ⟨rfl, rfl⟩ | ⟨rfl, rfl⟩ | ⟨rfl, rfl⟩ | ⟨rfl, rfl⟩ <;> rfl

theorem protectCode_eq {p : Protect} {n : Nat} (h : (p = .opened ∧ n = 0) ∨ (p = .soft ∧ n = 1) ∨ (p = .hard ∧ n = 2)) :
    protectCode p = n := by
  rcases h with ⟨rfl, rfl⟩ | ⟨rfl, rfl⟩ | ⟨rfl, rfl⟩ <;> rfl

theorem channelStateCode_eq {c : ChannelState} {n : Nat}
    (h : (c = .closed ∧ n = 0) ∨ (c = .opened ∧ n = 1) ∨ (c = .live ∧ n = 2) ∨ (c = .late ∧ n = 3) ∨ (c = .lost ∧ n = 4)) :
    channelStateCode c = n := by
  rcases h with ⟨rfl, rfl⟩ | ⟨rfl, rfl⟩ | ⟨rfl, rfl⟩ | ⟨rfl, rfl⟩ | ⟨rfl, rfl⟩ <;> rfl

theorem boolField_not_isEmpty {α : Type} [DecidableEq α] (l : List α) :
    boolField (!l.isEmpty) = [BitVec.ofNat 8 (if l = [] then 0 else 1)] := by
  cases l <;> rfl

theorem statusRecord_eq {s : State} {run mode eff : Nat} {ch : Flyer → Nat} (main : s.supply.state = .main)
    (hrun : runStateCode s.clock.run = run) (hmode : protectCode s.protect = mode) (heff : protectCode s.effective = eff)
    (hch : ∀ c : Flyer, channelStateCode s.channels[c].state = ch c) :
    statusRecord s =
      [1, BitVec.ofNat 8 (bitOf s.supply.backupPresent 1), BitVec.ofNat 8 (bitOf s.admission.walk.isSome 1),
       BitVec.ofNat 8 s.admission.queue.length, BitVec.ofNat 8 (if s.holds = [] then 0 else 1)]
      ++ threeBytes s.clock.count
      ++ [BitVec.ofNat 8 run, BitVec.ofNat 8 (if s.clock.source = .external then 1 else 0),
          BitVec.ofNat 8 (bitOf s.clock.request.isSome 1), BitVec.ofNat 8 mode, BitVec.ofNat 8 (bitOf s.inputs.rigLock 1),
          BitVec.ofNat 8 eff, BitVec.ofNat 8 (ch 0), BitVec.ofNat 8 (ch 1), BitVec.ofNat 8 (ch 2), BitVec.ofNat 8 (ch 3),
          BitVec.ofNat 8 (ch 4), BitVec.ofNat 8 (ch 5), BitVec.ofNat 8 (ch 6), BitVec.ofNat 8 (ch 7),
          BitVec.ofNat 8 (bitOf s.templates.lastEvicted.isSome 1)]
      ++ s.templates.lastEvicted.elim [0, 0] twoBytes ++ twoBytes s.attention.flags.toNat
      ++ twoBytes s.attention.enables.toNat
      ++ [BitVec.ofNat 8 (bitOf s.attention.autoClear 1), BitVec.ofNat 8 s.alert.count] := by
  have channels : allFlyers.flatMap (fun c => byteField (ch c)) =
      [BitVec.ofNat 8 (ch 0), BitVec.ofNat 8 (ch 1), BitVec.ofNat 8 (ch 2), BitVec.ofNat 8 (ch 3),
       BitVec.ofNat 8 (ch 4), BitVec.ofNat 8 (ch 5), BitVec.ofNat 8 (ch 6), BitVec.ofNat 8 (ch 7)] := rfl
  have source : boolField (decide (s.clock.source = .external)) = [BitVec.ofNat 8 (if s.clock.source = .external then 1 else 0)] := by
    cases s.clock.source <;> rfl
  unfold statusRecord flagsField
  rw [boolField_not_isEmpty, source]
  simp only [main, hrun, hmode, heff, hch, channels, boolField_eq, tickField_eq, wordField_eq,
    fieldOr_word]
  simp only [byteField, supplyStateCode, List.append_assoc, List.cons_append, List.nil_append]
  rfl

/-- Settles O6: the length of each record, and its fields in the order of the record's layout. -/
theorem recordLayouts : Obligations.RecordLayouts := by
  unfold Obligations.RecordLayouts
  refine ⟨fun s => ⟨statusRecord_length s, claimRecord_length s, zoneRecord_length s, flyerRecord_length s,
    templateRecord_length s, alertRecord_length s, supplyRecord_length s, holdRecord_length s⟩,
    fun s i => ⟨claimRecord_none, fun c code held amend verdict at_slot hcode hheld hamend hverdict =>
      claimRecord_some at_slot (claimStateCode_eq hcode) (heldField_eq hheld) (amendPart_eq hamend) (verdictPart_eq hverdict)⟩,
    fun s run mode eff ch main hrun hmode heff hch => statusRecord_eq main (runStateCode_eq hrun) (protectCode_eq hmode)
      (protectCode_eq heff) (fun c => channelStateCode_eq (hch c)),
    fun s z => ⟨fun h => zoneRecord_eq h, fun a h => zoneRecord_eq h, fun a r v h => zoneRecord_eq h, fun a v h => zoneRecord_eq h⟩,
    fun s f ws ascending bound few => flyerRecord_eq (boundWinches_eq ascending bound) few,
    ?_, fun s => ⟨holdRecord_eq s, alertRecord_eq s, supplyRecord_eq s⟩⟩
  rintro s k _ rfl
  exact templateRecord_eq s k

end Sys2Proof.Machine
end

section
/-! PROOF. The bytes of the console commands and of the channel frames, written and read back (R78, R183, R185, R186). -/

namespace Sys2Proof.Machine

/-! ## The console commands -/

theorem word16_bytes (w : Word16) : word16 (w.extractLsb' 8 8) (w.extractLsb' 0 8) = w := by
  exact BitVec.extractLsb'_append_extractLsb'

theorem word24_bytes (w : Word24) : word24 (w.extractLsb' 16 8) (w.extractLsb' 8 8) (w.extractLsb' 0 8) = w := by
  unfold word24
  rw [BitVec.extractLsb'_append_extractLsb'_eq_extractLsb' (start₁ := 8) (len₁ := 8) rfl]
  exact BitVec.extractLsb'_append_extractLsb' (w := 16) (len := 8)

/-- The command byte of a command names it. -/
theorem commandOfByte_code (c : Command) : commandOfByte c.code = some c := by cases c <;> rfl

/-- The operand bytes of a command are as many as it has, and spell it. -/
theorem commandOf_command {i : Instr} {c : Command} {ops : List Byte} (h : i.command = some (c, ops)) :
    commandOf c ops = some i ∧ ops.length = c.operandBytes := by
  cases i <;> simp only [Instr.command, reduceCtorEq, Option.some.injEq, Prod.mk.injEq] at h
  all_goals obtain ⟨rfl, rfl⟩ := h
  case book f box start p stop =>
    refine ⟨?_, rfl⟩
    show some (Instr.book f box (word24 _ _ _) p (word24 _ _ _)) = _
    rw [word24_bytes, word24_bytes]
  case amend handle p e box => exact ⟨congrArg (fun w => some (Instr.amend handle p w box)) (word24_bytes e), rfl⟩
  case setClock v => exact ⟨congrArg (fun w => some (Instr.setClock w)) (word24_bytes v), rfl⟩
  case skip d => exact ⟨congrArg (fun w => some (Instr.skip w)) (word24_bytes d), rfl⟩
  case loadTemplate cue f box o d =>
    refine ⟨?_, rfl⟩
    show some (Instr.loadTemplate (word16 _ _) f box (word16 _ _) (word16 _ _)) = _
    rw [word16_bytes, word16_bytes, word16_bytes]
  case dropTemplate cue => exact ⟨congrArg (fun w => some (Instr.dropTemplate w)) (word16_bytes cue), rfl⟩
  case lockTemplate cue => exact ⟨congrArg (fun w => some (Instr.lockTemplate w)) (word16_bytes cue), rfl⟩
  case unlockTemplate cue => exact ⟨congrArg (fun w => some (Instr.unlockTemplate w)) (word16_bytes cue), rfl⟩
  case fire cue => exact ⟨congrArg (fun w => some (Instr.fire w)) (word16_bytes cue), rfl⟩
  case setEnables m => exact ⟨congrArg (fun w => some (Instr.setEnables w)) (word16_bytes m), rfl⟩
  case clearFlags m => exact ⟨congrArg (fun w => some (Instr.clearFlags w)) (word16_bytes m), rfl⟩
  all_goals exact ⟨rfl, rfl⟩

/-- Settles O50: the command byte is read back, then the operands. -/
theorem commandEncoding : Obligations.CommandEncoding := by
  unfold Obligations.CommandEncoding
  intro i bytes h
  obtain ⟨⟨c, ops⟩, hi, rfl⟩ := Option.map_eq_some_iff.mp h
  obtain ⟨decoded, length⟩ := commandOf_command hi
  refine ⟨?_, c, ops, hi, rfl, length⟩
  unfold decodeCommand
  dsimp only
  rw [commandOfByte_code]
  exact decoded

/-! ## The channel frames -/

/-- A bit step of the CRC takes no byte but 0 to 0: with the top bit set, the step's lowest bit is 1. -/
theorem crcBit_eq_zero_iff (x : Byte) : crcBit x = 0 ↔ x = 0 := by
  have shifted : (x <<< 1).toNat = x.toNat * 2 % 256 := by simp [Nat.shiftLeft_eq]
  have lt := x.isLt
  unfold crcBit
  rw [BitVec.msb_eq_decide]
  split
  · next high =>
    rw [decide_eq_true_iff] at high
    have step_ne : (x <<< 1) ^^^ 0x07 ≠ 0 := by
      intro e
      have same := congrArg BitVec.toNat (BitVec.xor_eq_zero_iff.mp e)
      rw [shifted, show (0x07 : Byte).toNat = 7 from rfl] at same
      omega
    refine iff_of_false step_ne ?_
    rintro rfl
    exact absurd high (by decide)
  · next low =>
    rw [decide_eq_true_iff] at low
    rw [← BitVec.toNat_inj, ← BitVec.toNat_inj, shifted]
    simp only [BitVec.ofNat_eq_ofNat, BitVec.toNat_ofNat]
    omega

theorem crcByte_eq_zero_iff (c b : Byte) : crcByte c b = 0 ↔ b = c := by
  unfold crcByte
  simp only [crcBit_eq_zero_iff]
  exact BitVec.xor_eq_zero_iff.trans eq_comm

/-- Settles O51: each kind of frame is read back, and its check byte is the one that brings the CRC to 0. -/
theorem frameEncoding : Obligations.FrameEncoding := by
  unfold Obligations.FrameEncoding
  refine ⟨fun f => ⟨by cases f <;> rfl, fun bytes h => decodeFrame_body h, fun b => ?_⟩, fun o body h => ?_, by decide⟩
  · unfold crc8 InFrame.check crc8
    rw [List.foldl_append]
    exact crcByte_eq_zero_iff _ b
  · rcases h with ⟨id, rfl, rfl⟩ | ⟨seq, target, rfl, rfl⟩ | ⟨seq, target, rfl, rfl⟩ | ⟨reason, rfl, rfl⟩ | ⟨seq, reason, rfl, rfl⟩
    all_goals rfl

end Sys2Proof.Machine
end

section
/-! PROOF. The console port's edges and its judgement of commands (R157 to R160, R169). -/

namespace Sys2Proof.Machine

/-! ## The edges of a select (R157, R159, R169) -/

theorem isStatus_iff (x : Transaction) : x.isStatus = true ↔ ∃ r, x = .stream .status r := by
  cases x with
  | stream k r => cases k <;> simp [Transaction.isStatus]
  | _ => simp [Transaction.isStatus]

/-- The state after auto-clear at the end of the SHOW select's transaction, n bytes of its record shifted out. -/
def showEnded (n : Nat) (s : State) : State := if (s.tx .showSel).isStatus then autoClearFlags n s else s

/-- Auto-clear with a status record shown. -/
theorem showEnded_clears {n : Nat} {s : State} {x : Shown} {r : Option (List Byte)} (on : s.attention.autoClear = true)
    (streams : s.tx .showSel = .stream .status r)
    (shown : (if 27 ≤ n then s.attention.current else s.attention.whole) = some x) :
    showEnded n s = clearFlagSet (x.flags &&& ~~~x.raised) s := by
  unfold showEnded autoClearFlags
  rw [if_pos ((isStatus_iff _).mpr ⟨r, streams⟩), if_pos on, show s.lastShown n = some x from shown]

/-- Auto-clear switched off, at the end of another transaction, or with no status record shown. -/
theorem showEnded_keeps {n : Nat} {s : State}
    (h : s.attention.autoClear = false ∨ (∀ r, s.tx .showSel ≠ .stream .status r) ∨
      (if 27 ≤ n then s.attention.current else s.attention.whole) = none) : showEnded n s = s := by
  unfold showEnded autoClearFlags
  split
  · next status =>
    rcases h with off | other | unshown
    · rw [if_neg (by rw [off]; exact Bool.false_ne_true)]
    · obtain ⟨r, streams⟩ := (isStatus_iff _).mp status
      exact absurd streams (other r)
    · rw [show s.lastShown n = none from unshown]
      exact ite_self s
  · rfl

theorem showEnded_cases (n : Nat) (s : State) : showEnded n s = s ∨ ∃ m, showEnded n s = clearFlagSet m s := by
  by_cases on : s.attention.autoClear = true
  · by_cases streams : ∃ r, s.tx .showSel = .stream .status r
    · cases shown : (if 27 ≤ n then s.attention.current else s.attention.whole) with
      | none => exact .inl (showEnded_keeps (.inr (.inr shown)))
      | some x =>
        obtain ⟨r, streams⟩ := streams
        exact .inr ⟨_, showEnded_clears on streams shown⟩
    · exact .inl (showEnded_keeps (.inr (.inl fun r h => streams ⟨r, h⟩)))
  · exact .inl (showEnded_keeps (.inl (Bool.not_eq_true _ ▸ on)))

theorem exec_showRise {s : State} (low : s.selectLow .showSel = true) (n : Nat) :
    exec (.selectRise .showSel n) s =
      .next (((forgetShown (showEnded n s)).setSelectLow .showSel false).setTx .showSel .idle) := by
  show execSelectRise .showSel n s = _
  unfold execSelectRise showEnded
  rw [low]
  simp

theorem exec_crewRise {s : State} (low : s.selectLow .crewSel = true) (n : Nat) :
    exec (.selectRise .crewSel n) s = .next ((s.setSelectLow .crewSel false).setTx .crewSel .idle) := by
  show execSelectRise .crewSel n s = _
  unfold execSelectRise
  rw [low]
  simp

/-- What a rise of a low select leaves and what it does to the flags. -/
theorem selectRise_ends (s : State) (sel : Select) (n : Nat) (low : s.selectLow sel = true) :
    ∃ t, exec (.selectRise sel n) s = .next t ∧
      t = { (s.setSelectLow sel false).setTx sel .idle with
            attention := { s.attention with flags := t.attention.flags, current := t.attention.current, whole := t.attention.whole }
            lines := { s.lines with attn := t.lines.attn, alert := t.lines.alert } } ∧
      (AttentionLaw s → AttentionLaw t) ∧
      (sel = .crewSel → t.attention = s.attention) ∧
      (sel = .showSel → t.attention.current = none ∧ t.attention.whole = none ∧
        t.attention.flags = (showEnded n s).attention.flags) := by
  cases sel with
  | showSel =>
    rw [exec_showRise low]
    refine ⟨_, rfl, ?_, fun law => ?_, nofun, fun _ => ⟨rfl, rfl, rfl⟩⟩
    · rcases showEnded_cases n s with kept | ⟨m, cleared⟩
      · rw [kept]
        rfl
      · rw [cleared]
        rfl
    · have ended : AttentionLaw (showEnded n s) := by
        rcases showEnded_cases n s with kept | ⟨m, cleared⟩
        · rw [kept]
          exact law
        · rw [cleared]
          exact ⟨rfl, rfl⟩
      exact ended
  | crewSel =>
    rw [exec_crewRise low]
    exact ⟨_, rfl, rfl, fun law => law, fun _ => rfl, nofun⟩

/-- Settles O8: a fall begins a transaction where the port is free, and a rise ends one, with the auto-clear of a SHOW STATUS. -/
theorem selectEdges : Obligations.SelectEdges := by
  unfold Obligations.SelectEdges
  refine ⟨fun s sel => ⟨fun high runs other => ?_, fun high busy => ?_, fun low => ?_⟩, fun s sel n => ⟨fun high => ?_, fun low => ?_⟩⟩
  · show execSelectFall sel s = _
    rw [runs_iff] at runs
    simp [execSelectFall, high, runs, other]
  · show execSelectFall sel s = _
    rw [runs_iff] at busy
    have ignored : (s.running && !s.selectLow sel.other) = false := by
      rcases busy with halted | other
      · rw [Bool.not_eq_true] at halted
        rw [halted, Bool.false_and]
      · rw [other, Bool.not_true, Bool.and_false]
    simp [execSelectFall, high, ignored]
  · show execSelectFall sel s = _
    simp [execSelectFall, low]
  · show execSelectRise sel n s = _
    simp [execSelectRise, high]
  · obtain ⟨t, ht, frame, lines, crew, show_side⟩ := selectRise_ends s sel n low
    refine ⟨t, ht, frame, lines, crew, fun hs => ?_⟩
    obtain ⟨current, whole, flags⟩ := show_side hs
    refine ⟨current, whole, fun x r on streams shown => ?_, fun h => ?_⟩
    · rw [flags, showEnded_clears on streams shown]
      rfl
    · rw [flags, showEnded_keeps h]

/-! ## The judgement of a command (R158, R160) -/

theorem commandOfByte_eq_none {b : Byte} (h : ∀ c : Command, c.code ≠ b) : commandOfByte b = none := by
  unfold commandOfByte
  rw [List.find?_eq_none]
  intro c _
  simpa using h c

/-- The commands the CREW select may issue. -/
theorem crewMay_eq_false {c : Command}
    (h : c ∉ [Command.status, .readClaims, .readZones, .readFlyers, .readTemplates, .readHolds, .readAlert, .readSupply,
      .hold, .holdClaim, .release]) : crewMay c = false := by
  have listed : crewMay c = true → c ∈ [Command.status, .readClaims, .readZones, .readFlyers, .readTemplates, .readHolds,
      .readAlert, .readSupply, .hold, .holdClaim, .release] := by cases c <;> decide
  exact Bool.eq_false_iff.mpr fun may => h (listed may)

/-- A command that no open transaction awaits is not taken. -/
theorem taking_eq_none {s : State} {c : Command} (h : ¬ Runs s ∨ ∀ sel : Select, s.tx sel ≠ awaitedBy c) : s.taking c = none := by
  unfold State.taking State.selectIn
  rcases h with halted | other
  · rw [runs_iff, Bool.not_eq_true] at halted
    rw [halted]
    rfl
  · rw [if_neg (show s.console.showTx ≠ _ from other .showSel), if_neg (show s.console.crewTx ≠ _ from other .crewSel)]
    exact ite_self _

/-- Settles O9: a command byte is looked up, the crew's privilege is tested, and a command nobody awaits is not taken. -/
theorem commandsAreJudged : Obligations.CommandsAreJudged := by
  unfold Obligations.CommandsAreJudged
  refine ⟨fun s sel runs open_command other => ⟨fun c operands => ?_, fun b unknown => ?_⟩,
    fun s i c ops hi awaited not_crew => exec_privilege hi (crewMay_eq_false not_crew) awaited, fun s i c ops hi untaken => ?_⟩
  · show execCommandByte c.code s = _
    unfold execCommandByte
    rw [selectIn_eq runs open_command other (by simp), commandOfByte_code]
    exact if_pos operands
  · show execUnknownCommand b s = _
    unfold execUnknownCommand
    rw [selectIn_eq runs open_command other (by simp), commandOfByte_eq_none unknown]
    rfl
  · obtain ⟨owner, taken⟩ := exec_command hi
    rw [taken]
    exact takeCommand_untaken (taking_eq_none untaken) owner

end Sys2Proof.Machine
end

section
/-! PROOF. The claim commands DISMISS, CANCEL, RETIRE and FORCE_RETIRE: each test, and the claim freed (R10, R18, R19, R33). -/

namespace Sys2Proof.Machine

/-! ## A command on a claim -/

theorem onClaim_none {h : Byte} {s : State} (hr : s.resolve (handleOf h) = none)
    (act : Slot → Claim → State → State × Transaction) : onClaim h act s = (s, answer .noClaim) := by
  unfold onClaim
  rw [hr]

/-- A command on a claim, answered as it acts on the claim named. -/
theorem takeCommand_onClaim {s t : State} {sel : Select} {c : Command} {h : Byte} {d : Claim} {x : Transaction}
    {act : Slot → Claim → State → State × Transaction} (ha : Awaits s sel c) (hp : sel = .showSel ∨ crewMay c = true)
    (hr : s.resolve (handleOf h) = some d) (hact : act (handleOf h).slot d s = (t, x)) :
    takeCommand c (fun _ => onClaim h act) s = .next (t.setTx sel x) :=
  takeCommand_answers ha hp ((onClaim_some hr act).trans hact)

/-- A command on a claim whose handle names none. -/
theorem takeCommand_noClaim {s : State} {sel : Select} {c : Command} {h : Byte} (ha : Awaits s sel c)
    (hp : sel = .showSel ∨ crewMay c = true) (hr : s.resolve (handleOf h) = none)
    (act : Slot → Claim → State → State × Transaction) :
    takeCommand c (fun _ => onClaim h act) s = .next (answered s sel .noClaim) :=
  takeCommand_answers ha hp (onClaim_none hr act)

theorem resolve_eq_none {s : State} {h : Handle} (hn : ∀ c : Claim, s.claimAt h.slot = some c → s.slots[h.slot].gen ≠ h.gen) :
    s.resolve h = none := by
  cases hr : s.resolve h with
  | none => rfl
  | some c =>
    obtain ⟨gen, at_slot⟩ := resolve_eq_some.mp hr
    exact absurd gen (hn c at_slot)

/-! ## An entry that does not wait, and a head that walks -/

/-- Withdrawing an entry that neither waits nor walks changes nothing. -/
theorem withdrawEntry_absent {e : Entry} {s : State} (hq : e ∉ s.admission.queue)
    (hw : ∀ w, s.admission.walk = some w → w.subject ≠ e) : withdrawEntry e s = s := by
  have not_walking : s.admission.walk.any (fun w => decide (w.subject = e)) = false := by
    cases h : s.admission.walk with
    | none => rfl
    | some w => exact decide_eq_false (hw w h)
  unfold withdrawEntry
  rw [not_walking]
  have kept : s.admission.queue.filter (fun x => decide (x ≠ e)) = s.admission.queue := by
    rw [List.filter_eq_self]
    intro x hx
    exact decide_eq_true fun hxe => hq (hxe ▸ hx)
  simp only [Bool.false_eq_true, if_false, kept]
  rfl

/-- The subject of the walk in flight waits in the queue. -/
theorem WalkLaw.subject_mem {s : State} (hl : WalkLaw s) {w : Walk} (hw : s.admission.walk = some w) :
    w.subject ∈ s.admission.queue := List.mem_of_mem_head? (walk_head hw hl)

/-- The walk of the head has begun where R28 holds. -/
theorem beginHead_walked {s t : State} (hl : WalkLaw s) (ha : t.admission = s.admission) (hr : t.running = s.running) :
    beginHead t = t := by
  cases running : s.running with
  | false => exact beginHead_halted (hr.trans running)
  | true =>
    cases hw : s.admission.walk with
    | some w => exact beginHead_walk (by rw [ha, hw]; rfl)
    | none =>
      have empty := (hl.2.2 running).mp hw
      unfold beginHead
      rw [ha, empty]
      exact ite_self t

/-- An entry that waits names a claim in the state its kind asks for. -/
theorem QueueLaw.amend_occupying {s : State} (hq : QueueLaw s) {h : Handle} {c : Claim} (hr : s.resolve h = some c)
    (hm : Entry.amend h ∈ s.admission.queue) : c.state.occupying = true := by
  obtain ⟨d, w, hd, occupying, -⟩ := SubjectsFit.amend hq.2.2 hm
  cases hr.symm.trans hd
  exact occupying

/-! ## DISMISS (R10) -/

/-- A claim that occupies nothing is freed alone: no entry of an amendment of it waits. -/
theorem freeSlot_unoccupying {s : State} {h : Handle} {c : Claim} (hq : QueueLaw s) (hl : WalkLaw s)
    (hr : s.resolve h = some c) (not_occupying : c.state.occupying = false) :
    freeSlot h.slot s = s.setSlot h.slot { s.slots[h.slot] with claim := none } := by
  have absent : Entry.amend h ∉ s.admission.queue := fun hm =>
    Bool.false_ne_true (not_occupying.symm.trans (hq.amend_occupying hr hm))
  unfold freeSlot
  rw [(resolve_eq_some.mp hr).2, handleAt_eq hr]
  dsimp only
  split
  · exact withdrawEntry_absent absent fun w hw hs => absent (hs ▸ hl.subject_mem hw)
  · rfl

/-- The close after a claim that did not overstay was freed alone. -/
theorem closeEvent_freedAlone {s : State} {i : Slot} {c : Claim} (hl : WalkLaw s) (hc : s.claimAt i = some c)
    (not_overstaying : c.state.overstaying = false) :
    closeEvent false s (s.setSlot i { s.slots[i] with claim := none }) = s.setSlot i { s.slots[i] with claim := none } := by
  have quiet : ceasedOverstay s (s.setSlot i { s.slots[i] with claim := none }) = false := by
    rw [ceasedOverstay_eq_false]
    intro j overstays
    have other : i ≠ j := by
      rintro rfl
      rw [State.overstayingAt, hc] at overstays
      exact Bool.false_ne_true (not_overstaying.symm.trans overstays)
    refine ⟨by rw [setSlot_get, if_neg other], ?_⟩
    rw [State.overstayingAt, setSlot_claimAt, if_neg other]
    exact overstays
  rw [closeEvent_quiet quiet]
  exact beginHead_walked hl rfl rfl

theorem dismissClaim_refused {s : State} {h : Handle} {c : Claim} (hq : QueueLaw s) (hl : WalkLaw s)
    (hr : s.resolve h = some c) (refused : c.state = .refused) :
    dismissClaim h.slot c s = (s.setSlot h.slot { s.slots[h.slot] with claim := none }, answer .ok) := by
  unfold dismissClaim freed
  rw [refused]
  dsimp only
  rw [freeSlot_unoccupying hq hl hr (by rw [refused]; rfl),
    closeEvent_freedAlone hl (resolve_eq_some.mp hr).2 (by rw [refused]; rfl)]

theorem dismissClaim_wrongState {c : Claim} (h : c.state ≠ .refused) (i : Slot) (s : State) :
    dismissClaim i c s = (s, answer .wrongState) := by
  unfold dismissClaim
  split
  · next refused => exact absurd refused h
  · rfl

/-! ## CANCEL (R33) -/

/-- The state a cancelled claim leaves, before the close. -/
def withdrawnClaim (h : Handle) (s : State) : State := withdrawEntry (.book h) (freeSlot h.slot s)

theorem cancelClaim_waiting {s : State} {h : Handle} {c : Claim} (hr : s.resolve h = some c)
    (waiting : c.state = .queued ∨ c.state = .checking) :
    cancelClaim h.slot c s = (closeEvent false s (withdrawnClaim h s), answer .ok) := by
  unfold cancelClaim
  rw [handleAt_eq hr]
  rcases waiting with queued | checking
  · rw [queued]
    rfl
  · rw [checking]
    rfl

theorem cancelClaim_wrongState {c : Claim} (h1 : c.state ≠ .queued) (h2 : c.state ≠ .checking) (i : Slot) (s : State) :
    cancelClaim i c s = (s, answer .wrongState) := by
  unfold cancelClaim
  split
  · next queued => exact absurd queued h1
  · next checking => exact absurd checking h2
  · rfl

section
variable {s : State} {h : Handle} {c : Claim} (hq : QueueLaw s) (hr : s.resolve h = some c)
  (waiting : c.state = .queued ∨ c.state = .checking)
include hq hr waiting

theorem amend_absent_of_waiting : Entry.amend h ∉ s.admission.queue := by
  intro hm
  have occupying := hq.amend_occupying hr hm
  rcases waiting with queued | checking
  · rw [queued] at occupying
    exact Bool.false_ne_true occupying
  · rw [checking] at occupying
    exact Bool.false_ne_true occupying

theorem freeSlot_queue_waiting : (freeSlot h.slot s).admission.queue = s.admission.queue := by
  have absent := amend_absent_of_waiting hq hr waiting
  unfold freeSlot
  rw [(resolve_eq_some.mp hr).2, handleAt_eq hr]
  dsimp only
  split
  · rw [withdrawEntry_queue, setSlot_admission, List.filter_eq_self]
    exact fun x hx => decide_eq_true fun e => absent (e ▸ hx)
  · rfl

theorem withdrawnClaim_queue :
    (withdrawnClaim h s).admission.queue = s.admission.queue.filter (fun x => decide (x ≠ .book h)) := by
  unfold withdrawnClaim
  rw [withdrawEntry_queue, freeSlot_queue_waiting hq hr waiting]

/-- Of the entries that wait, the claim's own alone names it no longer. -/
theorem withdrawnClaim_follows :
    (withdrawnClaim h s).admission.queue = s.admission.queue.filter (stillNamed (withdrawnClaim h s)) := by
  have absent := amend_absent_of_waiting hq hr waiting
  rw [withdrawnClaim_queue hq hr waiting]
  refine List.filter_congr fun e he => ?_
  have fits := hq.2.2 e he
  have resolved (k : Handle) : (withdrawnClaim h s).resolve k = if h.slot = k.slot then none else s.resolve k := by
    unfold State.resolve withdrawnClaim
    rw [gen_congr (withdrawEntry_slots _ _), claimAt_congr (withdrawEntry_slots _ _), freeSlot_gen, freeSlot_claimAt]
    split <;> simp
  have same_handle {k : Handle} {d : Claim} (hk : s.resolve k = some d) (hslot : h.slot = k.slot) : h = k := by
    rw [← handleAt_eq hr, ← handleAt_eq hk, hslot]
  cases e with
  | zone z => exact decide_eq_true nofun
  | book k =>
    show decide _ = ((withdrawnClaim h s).resolve k).isSome
    rw [resolved]
    split
    · next hslot =>
      obtain ⟨d, hd, -⟩ := (Option.any_eq_true _ _).mp fits
      rw [same_handle hd hslot]
      exact decide_eq_false (Classical.not_not.mpr rfl)
    · next hslot =>
      rw [show (s.resolve k).isSome = true from stillNamed_of_fits fits]
      exact decide_eq_true fun e => hslot (by cases e; rfl)
  | amend k =>
    show decide _ = ((withdrawnClaim h s).resolve k).isSome
    rw [resolved]
    split
    · next hslot =>
      obtain ⟨d, hd, -⟩ := (Option.any_eq_true _ _).mp fits
      exact absurd (same_handle hd hslot ▸ he) absent
    · exact (decide_eq_true nofun).trans (stillNamed_of_fits fits).symm

/-- The turn after a claim that waits is withdrawn: its BOOK entry leaves, and a walk of an amendment of it is no head's. -/
theorem withdrawnClaim_turn : TurnKept s (withdrawnClaim h s) := by
  have absent := amend_absent_of_waiting hq hr waiting
  have on_slot : TurnMoved (s.setSlot h.slot { s.slots[h.slot] with claim := none }) (withdrawnClaim h s) ∧
      ((∀ w, s.admission.walk = some w → w.subject ≠ .amend h) →
        (freeSlot h.slot s).admission.walk = s.admission.walk ∧ (freeSlot h.slot s).arbiter = s.arbiter) := by
    unfold withdrawnClaim freeSlot
    rw [(resolve_eq_some.mp hr).2, handleAt_eq hr]
    dsimp only
    split
    · exact ⟨(withdrawEntry_turn _ _).trans (withdrawEntry_turn _ _), 
        (withdrawEntry_goes (.amend h) (s.setSlot h.slot { gen := s.slots[h.slot].gen, claim := none })).2⟩
    · exact ⟨withdrawEntry_turn _ _, fun _ => ⟨rfl, rfl⟩⟩
  obtain ⟨moved, untouched⟩ := on_slot
  by_cases amending : ∃ w, s.admission.walk = some w ∧ w.subject = .amend h
  · obtain ⟨w, hw, hs⟩ := amending
    have not_head : s.admission.queue.head? ≠ some w.subject := fun hh => absent (hs ▸ List.mem_of_mem_head? hh)
    refine ⟨moved.1, moved.2, ?_, fun law => absurd (walk_head hw law) not_head⟩
    rintro ⟨v, i, hv, -, head, -⟩
    cases hw.symm.trans hv
    exact absurd head not_head
  · obtain ⟨walk, arbiter⟩ := untouched fun w hw hs => amending ⟨w, hw, hs⟩
    obtain ⟨on, off⟩ := withdrawEntry_goes (.book h) (freeSlot h.slot s)
    rw [walk, arbiter] at on off
    exact .withdrawn (fun w hw hs => (on w hw hs).2) (fun hn => (off hn).2) (withdrawnClaim_queue hq hr waiting)

/-- A claim that waits, cancelled. -/
theorem cancelClaim_freed :
    FreedBy s ((closeEvent false s (withdrawnClaim h s)).setTx .showSel (answer .ok)) .showSel h.slot := by
  refine freedBy_of (((freeSlot_settles h.slot s).trans (withdrawEntry_settles _ _)).headFits hq) (fun j => ?_) (fun j => ?_)
    ((freeSlot_frame h.slot s).trans (withdrawEntry_frame _ _)) ?_ (withdrawnClaim_turn hq hr waiting)
    (withdrawnClaim_follows hq hr waiting)
  · unfold withdrawnClaim
    rw [gen_congr (withdrawEntry_slots _ _), freeSlot_gen]
  · unfold withdrawnClaim
    rw [claimAt_congr (withdrawEntry_slots _ _), freeSlot_claimAt]
  · unfold withdrawnClaim
    rw [withdrawEntry_attention, freeSlot_attention]

end

/-- Settles O11: an unknown handle first, then the claim's state. -/
theorem dismissAndCancel : Obligations.DismissAndCancel := by
  unfold Obligations.DismissAndCancel
  refine ⟨fun s h unnamed => ?_, fun s h c ha hr => ⟨fun refused hq hl => ?_, fun other => ?_⟩,
    fun s h c ha hr => ⟨fun waiting hq => ?_, fun not_queued not_checking => ?_⟩⟩
  · have none_named := resolve_eq_none unnamed
    exact ⟨fun ha => takeCommand_noClaim ha (.inl rfl) none_named _, fun ha => takeCommand_noClaim ha (.inl rfl) none_named _,
      fun ha => takeCommand_noClaim ha (.inl rfl) none_named _, fun sel ha => takeCommand_noClaim ha (.inr rfl) none_named _,
      fun ha => takeCommand_noClaim ha (.inl rfl) none_named _, fun ha => takeCommand_noClaim ha (.inl rfl) none_named _⟩
  · exact takeCommand_onClaim ha (.inl rfl) hr (dismissClaim_refused hq hl hr refused)
  · exact takeCommand_onClaim ha (.inl rfl) hr (dismissClaim_wrongState other _ _)
  · refine ⟨_, takeCommand_onClaim ha (.inl rfl) hr (cancelClaim_waiting hr waiting), cancelClaim_freed hq hr waiting, ?_⟩
    rw [setTx_admission, closeEvent_queue, withdrawnClaim_queue hq hr waiting, List.mem_filter]
    exact fun hm => absurd rfl (of_decide_eq_true hm.2)
  · exact takeCommand_onClaim ha (.inl rfl) hr (cancelClaim_wrongState not_queued not_checking _ _)

/-! ## RETIRE and FORCE_RETIRE (R18, R19) -/

section
variable {s : State} {i : Slot} {c : Claim}

theorem retireClaim_begun (begun : c.state.begun = true) :
    retireClaim i c s =
      if s.flyers[c.flyer].grounded = false then (s, answer .airborne)
      else if s.grantOf c.flyer ≠ none then (s, answer .grantLive) else freed i s := by
  have tests : retireClaim i c s =
      if !s.groundedFlyer c.flyer then refuse .airborne s
      else if (s.grantOf c.flyer).isSome then refuse .grantLive s else freed i s := by
    unfold retireClaim
    cases hc : c.state with
    | active | held | overrun => rfl
    | queued | checking | booked | refused =>
      rw [hc] at begun
      exact absurd begun (by simp [ClaimState.begun])
  rw [tests]
  simp only [State.groundedFlyer, Bool.not_eq_true', Option.isSome_iff_ne_none]
  rfl

theorem retireClaim_waiting (h : c.state = .queued ∨ c.state = .checking ∨ c.state = .refused) :
    retireClaim i c s = (s, answer .wrongState) := by
  unfold retireClaim
  rcases h with h | h | h <;> rw [h] <;> rfl

theorem forceRetireClaim_begun (begun : c.state.begun = true) :
    forceRetireClaim i c s =
      if s.channels[c.flyer].state = .lost ∨ s.channels[c.flyer].state = .closed then freed i s
      else (s, answer .notClear) := by
  have tests : forceRetireClaim i c s =
      match s.channels[c.flyer].state with
      | .lost | .closed => freed i s
      | .opened | .live | .late => refuse .notClear s := by
    unfold forceRetireClaim
    cases hc : c.state with
    | active | held | overrun => rfl
    | queued | checking | booked | refused =>
      rw [hc] at begun
      exact absurd begun (by simp [ClaimState.begun])
  rw [tests]
  cases s.channels[c.flyer].state <;> rfl

theorem forceRetireClaim_not_begun (not_begun : c.state.begun = false) :
    forceRetireClaim i c s = (s, answer .wrongState) := by
  unfold forceRetireClaim
  cases hc : c.state with
  | active | held | overrun =>
    rw [hc] at not_begun
    exact absurd not_begun (by simp [ClaimState.begun])
  | queued | checking | booked | refused => rfl

/-- A claim that has begun does not wait in the queue. -/
theorem begun_not_waiting (begun : c.state.begun = true) : c.state ≠ .queued ∧ c.state ≠ .checking := by
  constructor <;> intro h <;> rw [h] at begun <;> exact Bool.false_ne_true begun

end

/-- A claim that does not wait, freed by a command of the SHOW select. -/
theorem takeCommand_frees {s : State} {c : Command} {h : Byte} {d : Claim} {act : Slot → Claim → State → State × Transaction}
    (ha : Awaits s .showSel c) (hr : s.resolve (handleOf h) = some d) (hq : QueueLaw s)
    (not_waiting : d.state ≠ .queued ∧ d.state ≠ .checking)
    (hact : act (handleOf h).slot d s = freed (handleOf h).slot s) :
    ∃ t, takeCommand c (fun _ => onClaim h act) s = .next t ∧ FreedBy s t .showSel (handleOf h).slot := by
  refine ⟨_, takeCommand_onClaim ha (.inl rfl) hr hact, freed_spec hq fun e he => ?_⟩
  cases (resolve_eq_some.mp hr).2.symm.trans he
  exact not_waiting

/-- Settles O12: RETIRE asks for a settled flyer, FORCE_RETIRE for a channel lost or closed. -/
theorem retireAndForceRetire : Obligations.RetireAndForceRetire := by
  unfold Obligations.RetireAndForceRetire
  refine ⟨fun s h c ha hr => ⟨fun may hq => ?_, fun begun airborne => ?_, fun begun grounded granted => ?_, fun waiting => ?_⟩,
    fun s h c ha hr => ⟨fun begun channel hq => ?_, fun begun not_lost not_closed => ?_, fun not_begun => ?_⟩⟩
  · rcases may with booked | ⟨begun, grounded, ungranted⟩
    · exact takeCommand_frees ha hr hq (by simp [booked]) (by unfold retireClaim; rw [booked])
    · refine takeCommand_frees ha hr hq (begun_not_waiting begun) ?_
      rw [retireClaim_begun begun, if_neg (by rw [grounded]; simp), if_neg (Classical.not_not.mpr ungranted)]
  · exact takeCommand_onClaim ha (.inl rfl) hr ((retireClaim_begun begun).trans (if_pos airborne))
  · refine takeCommand_onClaim ha (.inl rfl) hr ((retireClaim_begun begun).trans ?_)
    rw [if_neg (by rw [grounded]; simp), if_pos granted]
    rfl
  · exact takeCommand_onClaim ha (.inl rfl) hr (retireClaim_waiting waiting)
  · exact takeCommand_frees ha hr hq (begun_not_waiting begun) ((forceRetireClaim_begun begun).trans (if_pos channel))
  · exact takeCommand_onClaim ha (.inl rfl) hr
      ((forceRetireClaim_begun begun).trans (if_neg (not_or.mpr ⟨not_lost, not_closed⟩)))
  · exact takeCommand_onClaim ha (.inl rfl) hr (forceRetireClaim_not_begun not_begun)

end Sys2Proof.Machine
end

section
/-! PROOF. HOLD_CLAIM and RESUME, and the overlap re-check (R13, R20, R21, R22). -/

namespace Sys2Proof.Machine

/-! ## The walk after an event that takes no entry along -/

/-- An event that keeps the queue keeps the head's walk begun, or the head without one while the part does not run. -/
theorem WalkGoes.begun {s u : State} (h : WalkGoes s u) (f : Follows s u) (hq : QueueLaw s) (hl : WalkLaw s)
    (same_queue : u.admission.queue = s.admission.queue) (same_running : u.running = s.running) : beginHead u = u := by
  obtain ⟨unwalked, walked⟩ := h hq.2.2
  cases hw : s.admission.walk with
  | none =>
    cases running : s.running with
    | false => exact beginHead_halted (same_running.trans running)
    | true =>
      have empty := same_queue.trans ((hl.2.2 running).mp hw)
      unfold beginHead
      rw [empty]
      exact ite_self u
  | some w =>
    have waits := hl.subject_mem hw
    obtain ⟨fixed, amended⟩ := walked w hw waits
    cases hs : w.subject with
    | book g => exact beginHead_walk (by rw [(fixed (by rw [hs]; nofun)).1]; rfl)
    | zone z => exact beginHead_walk (by rw [(fixed (by rw [hs]; nofun)).1]; rfl)
    | amend g =>
      rw [hs] at waits
      obtain ⟨c, -, hr, -⟩ := SubjectsFit.amend hq.2.2 waits
      obtain ⟨d, v, hd, -, -, begun, -⟩ := SubjectsFit.amend (f.2.2 hq.2.2).1 (same_queue ▸ waits)
      have walk := ((amended g c hs hr).2 d (resolve_eq_some.mp hd).2).2
      rw [hs, begun] at walk
      refine beginHead_walk ?_
      rw [walk]
      split <;> rfl

/-! ## HOLD_CLAIM (R20) -/

theorem grantNames_iff (s : State) (f : Flyer) (h : Handle) :
    s.grantNames f h = true ↔ ∃ g, s.grantOf f = some g ∧ g.claim = h := by
  unfold State.grantNames
  rw [Option.any_eq_true]
  simp only [decide_eq_true_eq]

/-- The state HOLD_CLAIM makes before the close: the claim HELD, and the grant that names it removed. -/
def commandHeld (h : Handle) (c : Claim) (s : State) : State :=
  let held := moveClaim h.slot (.held .command (decide (c.state = .overrun))) s
  if s.grantNames c.flyer h then removeGrant c.flyer .claimHeld held else held

theorem holdClaim_inForce {s : State} {h : Handle} {c : Claim} (hr : s.resolve h = some c)
    (in_force : c.state = .active ∨ c.state = .overrun) :
    holdClaim h.slot c s = (closeEvent false s (commandHeld h c s), answer .ok) := by
  unfold holdClaim commandHeld
  rcases in_force with active | overrun
  · rw [active]
    dsimp only
    unfold commandHold
    rw [handleAt_eq hr]
    rfl
  · rw [overrun]
    dsimp only
    unfold commandHold
    rw [handleAt_eq hr]
    rfl

theorem holdClaim_wrongState {c : Claim} (h1 : c.state ≠ .active) (h2 : c.state ≠ .overrun) (i : Slot) (s : State) :
    holdClaim i c s = (s, answer .wrongState) := by
  unfold holdClaim
  split
  · next active => exact absurd active h1
  · next overrun => exact absurd overrun h2
  · rfl

theorem held_not_waiting {c : Claim} (in_force : c.state = .active ∨ c.state = .overrun) :
    c.state ≠ .queued ∧ c.state ≠ .checking := by
  rcases in_force with active | overrun
  · simp [active]
  · simp [overrun]

section
variable {s : State} {h : Handle} {c : Claim}

theorem commandHeld_unnamed (hn : ∀ g, s.grantOf c.flyer = some g → g.claim ≠ h) :
    commandHeld h c s = moveClaim h.slot (.held .command (decide (c.state = .overrun))) s :=
  if_neg (mt (grantNames_iff s c.flyer h).mp fun ⟨g, hg, hc⟩ => hn g hg hc)

theorem commandHeld_named {g : Grant} (hg : s.grantOf c.flyer = some g) (hc : g.claim = h) :
    commandHeld h c s = removeGrant c.flyer .claimHeld (moveClaim h.slot (.held .command (decide (c.state = .overrun))) s) :=
  if_pos ((grantNames_iff s c.flyer h).mpr ⟨g, hg, hc⟩)

theorem commandHeld_frame : GrantFrame s (commandHeld h c s) := by
  unfold commandHeld
  dsimp only
  split
  · exact (moveClaim_frame _ _ s).grant.trans (removeGrant_frame _ _ _)
  · exact (moveClaim_frame _ _ s).grant

variable (hr : s.resolve h = some c)
include hr

/-- The held claim, and of the others the flyer's OVERRUN ones gone where its grant went. -/
theorem commandHeld_claimAt (j : Slot) :
    (h.slot = j → (commandHeld h c s).claimAt j = some { c with state := .held .command (decide (c.state = .overrun)) }) ∧
    (h.slot ≠ j → (commandHeld h c s).claimAt j = s.claimAt j ∨
      ((commandHeld h c s).claimAt j = none ∧ ∃ d, s.claimAt j = some d ∧ d.flyer = c.flyer ∧ d.state = .overrun)) := by
  have at_slot := (resolve_eq_some.mp hr).2
  have moved := moveClaim_claimAt h.slot j (.held .command (decide (c.state = .overrun))) s
  rw [at_slot] at moved
  unfold commandHeld
  dsimp only
  split
  · have removed := removeGrant_grounds c.flyer .claimHeld (moveClaim h.slot (.held .command (decide (c.state = .overrun))) s) j
    refine ⟨fun own => ?_, fun other => ?_⟩
    · rw [if_pos own] at moved
      rcases removed with kept | ⟨-, d, hd, -, overrun⟩
      · exact kept.trans moved
      · rw [moved] at hd
        cases hd
        exact absurd overrun (by simp)
    · rw [if_neg other] at moved
      rw [moved] at removed
      exact removed
  · exact ⟨fun own => moved.trans (if_pos own), fun other => .inl (moved.trans (if_neg other))⟩

variable (in_force : c.state = .active ∨ c.state = .overrun)
include in_force

theorem commandHeld_settles : Settles s (commandHeld h c s) := by
  obtain ⟨not_queued, not_checking⟩ := held_not_waiting in_force
  have moved := moveClaim_settles_of (st := .held .command (decide (c.state = .overrun))) (resolve_eq_some.mp hr).2
    not_queued not_checking
  unfold commandHeld
  dsimp only
  split
  · exact moved.trans (removeGrant_settles _ _ _)
  · exact moved

theorem commandHeld_goes : Follows s (commandHeld h c s) ∧ WalkGoes s (commandHeld h c s) := by
  obtain ⟨not_queued, not_checking⟩ := held_not_waiting in_force
  have at_slot := (resolve_eq_some.mp hr).2
  have moved := moveClaim_follows_of (st := .held .command (decide (c.state = .overrun))) at_slot not_queued not_checking rfl
  unfold commandHeld
  dsimp only
  split
  · refine ⟨moved.trans (removeGrant_follows _ _ _),
      moveClaim_goes.trans (removeGrant_goes _ _ _) moved (removeGrant_follows _ _ _) fun j => ?_⟩
    by_cases own : h.slot = j
    · rcases removeGrant_grounds c.flyer .claimHeld (moveClaim h.slot (.held .command (decide (c.state = .overrun))) s) j with
        kept | ⟨-, d, hd, -, overrun⟩
      · exact .inr kept
      · rw [moveClaim_claimAt, if_pos own, at_slot] at hd
        cases hd
        exact absurd overrun (by simp)
    · exact .inl (by rw [moveClaim_claimAt, if_neg own])
  · exact ⟨moved, moveClaim_goes⟩

theorem commandHeld_raised : FlagsRaised 0 s (commandHeld h c s) := by
  have at_slot := (resolve_eq_some.mp hr).2
  have unflagged : movedFlag (some c) (some { c with state := .held .command (decide (c.state = .overrun)) }) = 0 := by
    rcases in_force with active | overrun
    · simp [movedFlag, active]
    · simp [movedFlag, overrun]
  obtain ⟨others, moved⟩ := moveClaim_raised at_slot unflagged
  unfold commandHeld
  dsimp only
  split
  · refine moved.trans (n := 0) (removeGrant_expired _ _ _).1 fun j => ?_
    by_cases own : j = h.slot
    · refine .inr ((removeGrant_grounds _ _ _ j).resolve_right ?_)
      rintro ⟨-, d, hd, -, overrun⟩
      rw [moveClaim_claimAt, if_pos own.symm, at_slot] at hd
      cases hd
      exact absurd overrun (by simp)
    · exact .inl (others j own)
  · exact moved

/-- A claim in force keeps no other claim HELD OVERLAP alone: what the close judges is the claims as they stood. -/
theorem commandHeld_judged (hq : QueueLaw s) (ho : OverlapLaw s) :
    OverlapsJudged none s (closeEvent false s (commandHeld h c s)) := by
  have at_slot := (resolve_eq_some.mp hr).2
  have claims := commandHeld_claimAt hr
  have kept_or_held (j : Slot) (d : Claim) (hd : (commandHeld h c s).claimAt j = some d) :
      s.claimAt j = some d ∨ (h.slot = j ∧ d = { c with state := .held .command (decide (c.state = .overrun)) }) := by
    by_cases own : h.slot = j
    · rw [(claims j).1 own] at hd
      cases hd
      exact .inr ⟨own, rfl⟩
    · rcases (claims j).2 own with kept | ⟨gone, -⟩
      · exact .inl (kept ▸ hd)
      · rw [gone] at hd
        exact absurd hd nofun
  refine closeEvent_judged ho ((commandHeld_settles hr in_force).headFits hq) (fun f => by rw [commandHeld_frame.flyers])
    (fun j d _ hd overlap => ?_) (fun j d hd => ?_) (fun _ overstays => overstays) (fun _ j d e hd _ he _ => ?_)
  · have other : h.slot ≠ j := by
      rintro rfl
      cases at_slot.symm.trans hd
      rcases in_force with active | overrun
      · exact absurd (active.symm.trans overlap) (by simp)
      · exact absurd (overrun.symm.trans overlap) (by simp)
    rcases (claims j).2 other with kept | ⟨-, e, he, -, overrun⟩
    · exact kept.trans hd
    · cases hd.symm.trans he
      exact absurd (overrun.symm.trans overlap) (by simp)
  · rcases kept_or_held j d hd with kept | ⟨-, rfl⟩
    · exact ho.not_ended j d kept
    · simp
  · rcases kept_or_held j e he with kept | ⟨rfl, rfl⟩
    · cases hd.symm.trans kept
      exact ⟨rfl, rfl⟩
    · cases at_slot.symm.trans hd
      exact ⟨rfl, rfl⟩

end

/-- A grant's removal, told from a state with the same grants, channels, bindings and PERMIT lines. -/
theorem GrantRemoved.of_frame {s t u : State} {f : Flyer} {r : Reason} (before : ClaimFrame s t) (h : GrantRemoved t u f r) :
    GrantRemoved s u f r := by
  unfold GrantRemoved State.grantOf at *
  rw [before.grants, before.channels, before.permit, before.bindings] at h
  exact h

/-- A grant's removal, told to a state with the same grants, channels and PERMIT lines. -/
theorem GrantRemoved.to_frame {s t u : State} {f : Flyer} {r : Reason} (h : GrantRemoved s t f r) (after : ClaimFrame t u) :
    GrantRemoved s u f r := by
  unfold GrantRemoved at *
  rw [after.grants, after.channels, after.permit]
  exact h

theorem GrantRemoved.setTx {s t : State} {f : Flyer} {r : Reason} (h : GrantRemoved s t f r) (sel : Select) (x : Transaction) :
    GrantRemoved s (t.setTx sel x) f r := by
  unfold GrantRemoved
  rw [setTx_grants, setTx_channels, setTx_lines]
  exact h

theorem FlagsRaised.setTx {m : FlagSet} {s t : State} (h : FlagsRaised m s t) (sel : Select) (x : Transaction) :
    FlagsRaised m s (t.setTx sel x) := by
  cases sel <;> exact h

theorem OverlapsJudged.setTx {own : Option Slot} {s t : State} (h : OverlapsJudged own s t) (sel : Select) (x : Transaction) :
    OverlapsJudged own s (t.setTx sel x) := by
  cases sel <;> exact h

theorem QueueFollows.setTx {s t : State} (h : QueueFollows s t) (sel : Select) (x : Transaction) :
    QueueFollows s (t.setTx sel x) := by
  cases sel <;> exact h

theorem TurnKept.setTx {s t : State} (h : TurnKept s t) (sel : Select) (x : Transaction) : TurnKept s (t.setTx sel x) := by
  cases sel <;> exact h

theorem OthersClose.setTx {s t : State} {i : Slot} (h : OthersClose s t i) (sel : Select) (x : Transaction) :
    OthersClose s (t.setTx sel x) i := by
  cases sel <;> exact h

section
variable {s : State} {h : Handle} {c : Claim} (hr : s.resolve h = some c) (in_force : c.state = .active ∨ c.state = .overrun)
  (hq : QueueLaw s)
include hr in_force hq

/-- The close of HOLD_CLAIM leaves the held claim as it is. -/
theorem commandHeld_close_own : (closeEvent false s (commandHeld h c s)).claimAt h.slot =
    some { c with state := .held .command (decide (c.state = .overrun)) } := by
  have closed := closeEvent_closes ((commandHeld_settles hr in_force).headFits hq) false s h.slot
  rw [(commandHeld_claimAt hr h.slot).1 rfl] at closed
  exact closed.stays (by simp) (by simp)

theorem commandHeld_close_others (j : Slot) (other : j ≠ h.slot) :
    groundsTo c.flyer (s.claimAt j) ((closeEvent false s (commandHeld h c s)).claimAt j) :=
  .of_close ((commandHeld_claimAt hr j).2 other.symm) (closeEvent_closes ((commandHeld_settles hr in_force).headFits hq) false s j)

theorem commandHeld_close_raised : FlagsRaised 0 s (closeEvent false s (commandHeld h c s)) := by
  have fits := (commandHeld_settles hr in_force).headFits hq
  refine (commandHeld_raised hr in_force).trans (n := 0) (closeEvent_raised fits false s) fun j => ?_
  by_cases own : h.slot = j
  · subst own
    exact .inr ((commandHeld_close_own hr in_force hq).trans ((commandHeld_claimAt hr h.slot).1 rfl).symm)
  · refine ((commandHeld_claimAt hr j).2 own).imp_right fun ⟨gone, _⟩ => ?_
    have closed := closeEvent_closes fits false s j
    rw [gone] at closed
    exact closed.none_left.trans gone.symm

/-- Without a grant that names the claim, no other claim moves. -/
theorem commandHeld_close_unnamed (hl : WalkLaw s) (hn : ∀ g, s.grantOf c.flyer = some g → g.claim ≠ h) (j : Slot)
    (other : j ≠ h.slot) : (closeEvent false s (commandHeld h c s)).claimAt j = s.claimAt j := by
  have quiet : ceasedOverstay s (commandHeld h c s) = false := by
    rw [commandHeld_unnamed hn]
    refine ceased_move (resolve_eq_some.mp hr).2 fun overstays => ?_
    rcases in_force with active | overrun
    · rw [active] at overstays
      exact absurd overstays Bool.false_ne_true
    · simp [ClaimState.overstaying, overrun]
  obtain ⟨follows, goes⟩ := commandHeld_goes hr in_force
  have same_queue : (commandHeld h c s).admission.queue = s.admission.queue := by
    rw [commandHeld_unnamed hn, moveClaim_queue]
  rw [closeEvent_quiet quiet, goes.begun follows hq hl same_queue commandHeld_frame.running, commandHeld_unnamed hn,
    moveClaim_claimAt, if_neg other.symm]

/-- With a grant that names the claim, it is removed, and with it a grounded flyer's other OVERRUN claims. -/
theorem commandHeld_close_named {g : Grant} (hg : s.grantOf c.flyer = some g) (named : g.claim = h) :
    GrantRemoved s (closeEvent false s (commandHeld h c s)) c.flyer .claimHeld ∧
    ∀ (j : Slot) (d : Claim), j ≠ h.slot → s.claimAt j = some d → d.flyer = c.flyer → d.state = .overrun →
      (closeEvent false s (commandHeld h c s)).claimAt j = if s.flyers[c.flyer].grounded = true then none else some d := by
  have fits := (commandHeld_settles hr in_force).headFits hq
  have held := commandHeld_named hg named
  have moved := moveClaim_frame h.slot (.held .command (decide (c.state = .overrun))) s
  refine ⟨?_, fun j d other hd flyer overrun => ?_⟩
  · have removed := removeGrant_removed c.flyer .claimHeld (moveClaim h.slot (.held .command (decide (c.state = .overrun))) s)
    rw [← held] at removed
    exact (removed.of_frame moved).to_frame (closeEvent_frame false s _)
  · have at_j : (commandHeld h c s).claimAt j = if s.flyers[c.flyer].grounded = true then none else some d := by
      have granted : ((moveClaim h.slot (.held .command (decide (c.state = .overrun))) s).grantOf c.flyer).isSome = true := by
        unfold State.grantOf
        rw [moved.grants]
        exact Option.isSome_iff_exists.mpr ⟨g, hg⟩
      rw [held, removeGrant_claimAt, moveClaim_claimAt, if_neg other.symm, hd, granted]
      simp only [State.groundedFlyer, moved.flyers, true_and, Option.filter_some, flyer, overrun, decide_true, Bool.and_self,
        Bool.not_true, Bool.false_eq_true, if_false]
    have closed := closeEvent_closes fits false s j
    rw [at_j] at closed
    split
    · next grounded =>
      rw [if_pos grounded] at closed
      exact closed.none_left
    · next airborne =>
      rw [if_neg airborne] at closed
      exact closed.stays (by simp [overrun]) (by simp [overrun])

end

/-- Settles O13: the claim is held, its grant removed, and the event closed. -/
theorem holdClaimSuspends : Obligations.HoldClaimSuspends := by
  unfold Obligations.HoldClaimSuspends
  refine fun s sel h c ha hr => ⟨fun in_force hq hl => ?_, fun not_active not_overrun =>
    takeCommand_onClaim ha (.inr rfl) hr (holdClaim_wrongState not_active not_overrun _ _)⟩
  obtain ⟨follows, goes⟩ := commandHeld_goes hr in_force
  have closed := closeEvent_frame false s (commandHeld (handleOf h) c s)
  refine ⟨_, takeCommand_onClaim ha (.inr rfl) hr (holdClaim_inForce hr in_force),
    setTx_grantFrame (commandHeld_frame.trans closed.grant) sel _, fun j => ?_, ?_, fun j other => ?_,
    (commandHeld_close_raised hr in_force hq).setTx sel _, fun ho => (commandHeld_judged hr in_force hq ho).setTx sel _,
    ((follows.trans (closeEvent_follows false s _)).queue hq).setTx sel _, ((goes.turn follows hq).close false s).setTx sel _,
    fun unnamed => ?_, fun g hg named => ?_, fun unnamed j other => ?_⟩
  · rw [setTx_gen, closeEvent_gen]
    exact ((commandHeld_settles hr in_force).2 j).1
  · rw [setTx_claimAt]
    exact commandHeld_close_own hr in_force hq
  · rw [setTx_claimAt]
    exact commandHeld_close_others hr in_force hq j other
  · have kept := (moveClaim_frame (handleOf h).slot (.held .command (decide (c.state = .overrun))) s).trans
      (commandHeld_unnamed unnamed ▸ closed)
    rw [setTx_grants, setTx_channels, setTx_lines, commandHeld_unnamed unnamed]
    exact ⟨kept.grants, kept.channels, kept.permit⟩
  · obtain ⟨removed, grounded⟩ := commandHeld_close_named hr in_force hq hg named
    refine ⟨removed.setTx sel _, fun j d other hd flyer overrun => ?_⟩
    rw [setTx_claimAt]
    exact grounded j d other hd flyer overrun
  · rw [setTx_claimAt]
    exact commandHeld_close_unnamed hr in_force hq hl unnamed j other

/-! ## RESUME (R21, R22) -/

theorem overlapsInForce_iff (s : State) (f : Flyer) (region : Box) :
    s.overlapsInForce f region = true ↔ InForceIn s f region := by
  unfold State.overlapsInForce
  rw [anyClaim_iff]
  simp only [Bool.and_eq_true, decide_eq_true_eq, and_assoc]

theorem breached_iff (s : State) (f : Flyer) : s.breached f = true ↔ s.flyers[f].breach ≠ none := Option.isSome_iff_ne_none

theorem settled_iff (s : State) (f : Flyer) : s.settled f = true ↔ s.flyers[f].grounded = true ∧ s.grantOf f = none := by
  unfold State.settled State.groundedFlyer
  rw [Bool.and_eq_true, Option.isNone_iff_eq_none]

section
variable {s : State} {i : Slot} {c : Claim}

theorem resumeClaim_not_held (h : c.state.isHeld = false) : resumeClaim i c s = (s, answer .wrongState) := by
  unfold resumeClaim
  cases hc : c.state with
  | held =>
    rw [hc] at h
    exact absurd h (by simp [ClaimState.isHeld])
  | _ => rfl

theorem resumeClaim_overlap {m : Bool} (h : c.state = .held .overlap m) : resumeClaim i c s = (s, answer .wrongState) := by
  unfold resumeClaim
  rw [h]
  rfl

theorem resumeClaim_held {cause : HeldCause} {ended : Bool} (h : c.state = .held cause ended) (cause_ne : cause ≠ .overlap) :
    resumeClaim i c s =
      if cause = .breach ∧ s.flyers[c.flyer].breach ≠ none then (s, answer .notClear)
      else if ended then resumeEnded i c s else resumeClear i c s := by
  have tests : resumeClaim i c s =
      if decide (cause = .breach) && s.breached c.flyer then refuse .notClear s
      else if ended then resumeEnded i c s else resumeClear i c s := by
    unfold resumeClaim
    rw [h]
    cases cause with
    | overlap => exact absurd rfl cause_ne
    | _ => rfl
  rw [tests]
  simp only [Bool.and_eq_true, decide_eq_true_eq, breached_iff]
  rfl

theorem resumeClaim_judged {cause : HeldCause} {ended : Bool} (h : c.state = .held cause ended) (cause_ne : cause ≠ .overlap)
    (unbreached : cause = .breach → s.flyers[c.flyer].breach = none) :
    resumeClaim i c s = if ended then resumeEnded i c s else resumeClear i c s :=
  (resumeClaim_held h cause_ne).trans (if_neg fun ⟨breach, present⟩ => present (unbreached breach))

end

/-- A HELD claim moved by RESUME, with a flag or without, and the event closed. -/
theorem resumed_closed {s u : State} {i : Slot} {c : Claim} {st : ClaimState} {cause : HeldCause} {ended : Bool} (hq : QueueLaw s)
    (hc : s.claimAt i = some c) (held : c.state = .held cause ended) (overstays : ended = true → st.overstaying = true)
    (hu : u = moveClaim i st s ∨ u = raiseFlag .overlapHeld (moveClaim i st s)) (x : Transaction) :
    ClaimFrame (s.setTx .showSel x) ((closeEvent false s u).setTx .showSel x) ∧
    OthersClose s ((closeEvent false s u).setTx .showSel x) i ∧
    ((closeEvent false s u).setTx .showSel x).admission.queue = s.admission.queue ∧
    ((closeEvent false s u).setTx .showSel x).arbiter = s.arbiter ∧
    ((closeEvent false s u).setTx .showSel x).claimAt i = some { c with state := st } ∧
    ((closeEvent false s u).setTx .showSel x).attention = u.attention := by
  have slots : u.slots = (moveClaim i st s).slots := by rcases hu with rfl | rfl <;> rfl
  have admission : u.admission = (moveClaim i st s).admission := by rcases hu with rfl | rfl <;> rfl
  have arbiter : u.arbiter = (moveClaim i st s).arbiter := by rcases hu with rfl | rfl <;> rfl
  have frame : ClaimFrame s u := by
    rcases hu with rfl | rfl
    · exact moveClaim_frame i st s
    · exact (moveClaim_frame i st s).trans (raiseFlag_frame _ _)
  have marked : c.state.overstaying = true → st.overstaying = true := by
    rw [held]
    cases ended with
    | false => exact fun e => absurd e Bool.false_ne_true
    | true => exact fun _ => overstays rfl
  obtain ⟨own, others, attention⟩ := moved_close hq hc (by simp [held]) (by simp [held]) marked u slots
    (congrArg Admission.queue admission)
  refine ⟨setTx_claimFrame (frame.trans (closeEvent_frame false s u)) .showSel x, others.setTx .showSel x, ?_, ?_, own, attention⟩
  · rw [setTx_admission, closeEvent_queue, admission, moveClaim_queue]
  · rw [setTx_arbiter, closeEvent_arbiter, arbiter, moveClaim_arbiter]

/-- Settles O14: the cause first, then the claims that overstay or are in force. -/
theorem resume : Obligations.Resume := by
  unfold Obligations.Resume
  refine ⟨fun s h c ha hr => ⟨fun not_held => ?_, fun m overlap => ?_, fun m held breached => ?_,
    fun cause held cause_ne unbreached hq => ?_⟩, fun s h c cause ha hr held cause_ne unbreached => ?_⟩
  · exact takeCommand_onClaim ha (.inl rfl) hr (resumeClaim_not_held not_held)
  · exact takeCommand_onClaim ha (.inl rfl) hr (resumeClaim_overlap overlap)
  · exact takeCommand_onClaim ha (.inl rfl) hr ((resumeClaim_held held (by simp)).trans (if_pos ⟨rfl, breached⟩))
  · have at_slot := (resolve_eq_some.mp hr).2
    have clear := (resumeClaim_judged (i := (handleOf h).slot) held cause_ne unbreached).trans (if_neg Bool.false_ne_true)
    unfold resumeClear at clear
    by_cases overstayed : OverstayedIn s c.flyer c.region
    · rw [if_pos ((overlapsOverstayer_iff s _ _).mpr overstayed)] at clear
      obtain ⟨frame, others, queue, arbiter, own, attention⟩ :=
        resumed_closed (st := .held .overlap false) hq at_slot held nofun (.inr rfl) (answer .ok)
      refine ⟨_, takeCommand_onClaim ha (.inl rfl) hr clear, frame, others, queue, arbiter, fun _ => ⟨own, ?_⟩,
        fun not_overstayed => absurd overstayed not_overstayed⟩
      rw [attention, raiseFlag_attention, moveClaim_attention]
      rfl
    · rw [if_neg (mt (overlapsOverstayer_iff s _ _).mp overstayed)] at clear
      obtain ⟨frame, others, queue, arbiter, own, attention⟩ :=
        resumed_closed (st := .active) hq at_slot held nofun (.inl rfl) (answer .ok)
      exact ⟨_, takeCommand_onClaim ha (.inl rfl) hr clear, frame, others, queue, arbiter,
        fun overstays => absurd overstays overstayed, fun _ => ⟨own, attention.trans (moveClaim_attention _ _ _)⟩⟩
  · have at_slot := (resolve_eq_some.mp hr).2
    have ended := (resumeClaim_judged (i := (handleOf h).slot) held cause_ne unbreached).trans (if_pos rfl)
    unfold resumeEnded at ended
    have unsettled (hs : s.flyers[c.flyer].grounded = false ∨ s.grantOf c.flyer ≠ none) : ¬ s.settled c.flyer = true := by
      rw [settled_iff]
      rintro ⟨grounded, ungranted⟩
      rcases hs with airborne | granted
      · exact Bool.false_ne_true (airborne.symm.trans grounded)
      · exact granted ungranted
    refine ⟨fun grounded ungranted hq => ?_, fun hs in_force => ?_, fun hs clear hq => ?_⟩
    · rw [if_pos ((settled_iff s _).mpr ⟨grounded, ungranted⟩)] at ended
      exact takeCommand_frees ha hr hq (by simp [held]) ended
    · rw [if_neg (unsettled hs), if_pos ((overlapsInForce_iff s _ _).mpr in_force)] at ended
      exact takeCommand_onClaim ha (.inl rfl) hr ended
    · rw [if_neg (unsettled hs), if_neg (mt (overlapsInForce_iff s _ _).mp clear)] at ended
      obtain ⟨frame, others, queue, arbiter, own, attention⟩ :=
        resumed_closed (st := .overrun) hq at_slot held (fun _ => rfl) (.inl rfl) (answer .ok)
      exact ⟨_, takeCommand_onClaim ha (.inl rfl) hr ended, frame, others, own, queue, arbiter,
        attention.trans (moveClaim_attention _ _ _)⟩

/-! ## The re-check (R13) -/

/-- Settles O15, slot by slot. -/
theorem recheckReleases : Obligations.RecheckReleases := by
  unfold Obligations.RecheckReleases
  refine ⟨fun s => ⟨recheck_frame s, recheck_raised s, recheck_queue s, recheck_arbiter s⟩, fun s hn i c hc => ?_⟩
  have released := recheck_claimAt hn i
  rw [hc, Option.map_some, rechecked] at released
  have overlapped (h : OverstayedIn s c.flyer c.region) : s.overlapsOverstayer c.flyer c.region = true :=
    (overlapsOverstayer_iff s _ _).mpr h
  refine ⟨fun other => ?_, fun held overstayed => ?_, fun held clear => ?_⟩
  · rw [released, if_neg fun h => other h.1]
  · rw [released, if_neg fun h => Bool.false_ne_true (h.2.symm.trans (overlapped overstayed))]
  · rw [released, if_pos ⟨held, Bool.eq_false_iff.mpr (mt (overlapsOverstayer_iff s _ _).mp clear)⟩]
    unfold State.breached
    cases s.flyers[c.flyer].breach <;> rfl

end Sys2Proof.Machine
end

section
/-! PROOF. BOOK and AMEND, ZONE_SET and ZONE_CLEAR: their tests in order, and the entry that joins or leaves the queue (R29, R31, R32, R53 to R57). -/

namespace Sys2Proof.Machine

/-! ## BOOK (R29) -/

theorem exec_book_answers {s t : State} {f : Byte} {box : BoxBytes} {start : Word24} {p : Byte} {stop : Word24}
    {x : Transaction} (ha : Awaits s .showSel .book) (ho : bookOperands f box start p stop s = (t, x)) :
    exec (.book f box start p stop) s = .next (t.setTx .showSel x) := takeCommand_answers ha (.inl rfl) ho

section
variable {s : State} {fb : Byte} {box : BoxBytes} {start : Word24} {p : Byte} {stop : Word24}

theorem bookOperands_badFlyer (hf : fb.toNat = 0 ∨ 8 < fb.toNat) :
    bookOperands fb box start p stop s = (s, answer .badOperand) := by
  unfold bookOperands
  rw [flyerOf_none hf]
  rfl

theorem bookOperands_badBox (hb : (boxOfBytes box).wf = false) :
    bookOperands fb box start p stop s = (s, answer .badOperand) := by
  unfold bookOperands
  rw [boxOf_none hb]
  cases flyerOf fb <;> rfl

variable {f : Flyer} (hf : fb.toNat = flyerNumber f) (hb : (boxOfBytes box).wf = true)
include hf hb

theorem bookOperands_named :
    bookOperands fb box start p stop s =
      if p.getLsbD 0 = true ∧ stop.toNat ≤ start.toNat then (s, answer .badOperand)
      else bookClaim { flyer := f, box := boxOfBytes box, start := start.toNat
                       stop := if p.getLsbD 0 = true then some stop.toNat else none, cue := none } s := by
  unfold bookOperands
  rw [flyerOf_number hf, boxOf_some hb]
  simp only [emptyWindow_iff]
  rfl

theorem bookOperands_window (hw : p.getLsbD 0 = true → start.toNat < stop.toNat) :
    bookOperands fb box start p stop s =
      bookClaim { flyer := f, box := boxOfBytes box, start := start.toNat
                  stop := if p.getLsbD 0 = true then some stop.toNat else none, cue := none } s :=
  (bookOperands_named hf hb).trans (if_neg fun ⟨present, empty⟩ => Nat.not_lt.mpr empty (hw present))

end

section
variable {s : State} (b : Booking)

theorem bookClaim_queueFull (h : 8 ≤ s.admission.queue.length) : bookClaim b s = (s, answer .queueFull) := by
  unfold bookClaim
  rw [queueFull_true h]
  rfl

theorem bookClaim_tableFull (h : s.admission.queue.length < 8) (full : ∀ i : Slot, s.claimAt i ≠ none) :
    bookClaim b s = (s, answer .tableFull) := by
  unfold bookClaim
  rw [queueFull_false h, freeSlotOf_none full]
  rfl

theorem bookClaim_accepted (h : s.admission.queue.length < 8) {i : Slot} (free : s.claimAt i = none)
    (lowest : ∀ j : Slot, j < i → s.claimAt j ≠ none) : bookClaim b s = acceptBooking i b s := by
  unfold bookClaim
  rw [queueFull_false h, freeSlotOf_lowest free lowest]
  rfl

end

/-- Settles O17: a BOOK that passes its tests is an accepted booking. -/
theorem bookAccepted : Obligations.BookAccepted := by
  unfold Obligations.BookAccepted
  intro s fb f box start p stop e i h ha hq hf hb he hw room free lowest hh
  subst he
  obtain ⟨t, closed, booked, frame, slot, others, queue, walk, attention⟩ := acceptBooking_spec ha.1 hq free hh
    (b := { flyer := f, box := boxOfBytes box, start := start.toNat
            stop := if p.getLsbD 0 = true then some stop.toNat else none, cue := none })
  have arbiter : t.arbiter = s.arbiter := by
    rw [closed]
    exact closeEvent_arbiter false _ _
  have accepted := (bookOperands_window hf hb hw).trans ((bookClaim_accepted _ room free lowest).trans booked)
  exact ⟨_, exec_book_answers ha accepted, setTx_claimFrame frame .showSel _, slot, others, queue, walk, attention, arbiter⟩

/-! ## AMEND (R31, R32) -/

/-- The amendment that AMEND's operands give. -/
def amendmentOf (p : Byte) (e : Word24) (box : BoxBytes) : Amendment :=
  { newEnd := if p.getLsbD 0 = true then some e.toNat else none
    newBox := if p.getLsbD 1 = true then some (boxOfBytes box) else none }

theorem exec_amend_answers {s t : State} {h p : Byte} {e : Word24} {box : BoxBytes} {x : Transaction}
    (ha : Awaits s .showSel .amend) (ho : amendOperands h p e box s = (t, x)) :
    exec (.amend h p e box) s = .next (t.setTx .showSel x) := takeCommand_answers ha (.inl rfl) ho

theorem amendOperands_eq (h p : Byte) (e : Word24) (box : BoxBytes) (s : State) :
    amendOperands h p e box s =
      if (p.getLsbD 0 = false ∧ p.getLsbD 1 = false) ∨ (p.getLsbD 1 = true ∧ (boxOfBytes box).wf = false) then
        (s, answer .badOperand)
      else onClaim h (amendClaim (amendmentOf p e box)) s := by
  unfold amendOperands amendmentOf presenceBit
  generalize p.getLsbD 0 = has_end
  generalize p.getLsbD 1 = has_box
  cases has_box with
  | false => cases has_end <;> simp [fieldIf, refuse]
  | true => cases has_end <;> cases wf : (boxOfBytes box).wf <;> simp [fieldIf, wf, refuse]

section
variable {s : State} {i : Slot} {c : Claim} {a : Amendment}

theorem amendClaim_eq :
    amendClaim a i c s =
      if (∃ e, a.newEnd = some e ∧ e ≤ c.start) then (s, answer .badOperand)
      else if c.state.occupying = false ∨ c.amend ≠ none then (s, answer .wrongState)
      else if 8 ≤ s.admission.queue.length then (s, answer .queueFull) else acceptAmend i c a s := by
  have empty : (emptyWindow c.start a.newEnd = true) = ∃ e, a.newEnd = some e ∧ e ≤ c.start := by
    unfold emptyWindow endedBy
    cases a.newEnd <;> simp [beforeEnd]
  have wrong : ((!c.state.occupying || c.amend.isSome) = true) = (c.state.occupying = false ∨ c.amend ≠ none) := by
    rw [Bool.or_eq_true, Bool.not_eq_true', Option.isSome_iff_ne_none]
  have full : (s.queueFull = true) = (8 ≤ s.admission.queue.length) := decide_eq_true_eq
  unfold amendClaim
  simp only [empty, wrong, full]
  rfl

end

/-- The head of a queue with one more entry, not a BOOK entry, still fits, when no QUEUED or CHECKING claim moved. -/
theorem headFits_append {s u : State} {e : Entry} (hq : QueueLaw s) (queue : u.admission.queue = s.admission.queue ++ [e])
    (not_book : ∀ h, e ≠ .book h)
    (claims : ∀ h c, u.resolve h = some c → ∃ c0, s.resolve h = some c0 ∧
      (c0.state = .queued ∨ c0.state = .checking → c.state = c0.state)) : HeadFits u := by
  intro h c head hc
  rw [queue] at head
  have waits : Entry.book h ∈ s.admission.queue := by
    rcases List.mem_append.mp (List.mem_of_mem_head? head) with old | new
    · exact old
    · exact absurd (List.mem_singleton.mp new).symm (not_book h)
  obtain ⟨c0, hc0, same⟩ := claims h c hc
  have fits := hq.2.2 _ waits
  simp only [subjectFits, hc0, Option.any_some, Bool.or_eq_true, decide_eq_true_eq] at fits
  rw [same fits]
  exact fits

/-- A state with a claim's amendment pending and its entry at the tail. -/
def amendPending (h : Handle) (c : Claim) (a : Amendment) (s : State) : State :=
  appendEntry (.amend h) (s.setClaim h.slot { c with amend := some a })

section
variable {s : State} {h : Handle} {c : Claim} {a : Amendment} (hr : s.resolve h = some c)
include hr

theorem acceptAmend_eq :
    acceptAmend h.slot c a s = (closeEvent false s (amendPending h c a s), .response .queued (some h.byte)) := by
  unfold acceptAmend amendPending
  rw [handleAt_eq hr]

omit hr in
theorem amendPending_claimAt (j : Slot) :
    (amendPending h c a s).claimAt j = if h.slot = j then some { c with amend := some a } else s.claimAt j :=
  setClaim_claimAt s h.slot j _

omit hr in
theorem amendPending_gen (j : Slot) : (amendPending h c a s).slots[j].gen = s.slots[j].gen := setClaim_gen s h.slot j _

theorem amendPending_headFits (hq : QueueLaw s) : HeadFits (amendPending h c a s) := by
  refine headFits_append hq rfl nofun fun k d hd => ?_
  obtain ⟨gen, at_slot⟩ := resolve_eq_some.mp hd
  rw [amendPending_gen] at gen
  rw [amendPending_claimAt] at at_slot
  split at at_slot
  · next same =>
    cases at_slot
    exact ⟨c, resolve_eq_some.mpr ⟨gen, same ▸ (resolve_eq_some.mp hr).2⟩, fun _ => rfl⟩
  · exact ⟨d, resolve_eq_some.mpr ⟨gen, at_slot⟩, fun _ => rfl⟩

theorem amendPending_quiet : ceasedOverstay s (amendPending h c a s) = false := by
  refine ceased_set (resolve_eq_some.mp hr).2 amendPending_gen (fun j other => ?_) fun overstays => ?_
  · rw [amendPending_claimAt, if_neg other.symm]
  · rw [State.overstayingAt, amendPending_claimAt, if_pos rfl]
    exact overstays

/-- The close of AMEND leaves the pending amendment, and closes the others. -/
theorem amendPending_closed (hq : QueueLaw s) (occupying : c.state.occupying = true) :
    (closeEvent false s (amendPending h c a s)).claimAt h.slot = some { c with amend := some a } ∧
    OthersClose s (closeEvent false s (amendPending h c a s)) h.slot := by
  have fits := amendPending_headFits (a := a) hr hq
  have not_waiting : c.state ≠ .queued ∧ c.state ≠ .checking := by
    constructor <;> intro e <;> rw [e] at occupying <;> exact Bool.false_ne_true occupying
  rw [closeEvent_quiet (amendPending_quiet hr)]
  refine ⟨beginHead_stays fits ((amendPending_claimAt h.slot).trans (if_pos rfl)) not_waiting.1 not_waiting.2,
    fun j => (beginHead_gen _ j).trans (amendPending_gen j), fun j other => ?_, fun ho => ?_⟩
  · have closed := beginHead_closes fits j
    rw [amendPending_claimAt, if_neg other.symm] at closed
    exact closed
  · refine quiet_judged (own := some h.slot) ho fits (fun j d not_own hd _ => ?_) fun j d hd overstays => ?_
    · rw [amendPending_claimAt, if_neg fun e => not_own (congrArg some e)]
      exact hd
    · rw [amendPending_claimAt]
      split
      · next own =>
        subst own
        cases (resolve_eq_some.mp hr).2.symm.trans hd
        exact ⟨_, rfl, overstays, rfl, rfl⟩
      · exact ⟨d, hd, overstays, rfl, rfl⟩

end

/-- Settles O18: an AMEND that passes its tests writes the amendment and appends its entry. -/
theorem amendAccepted : Obligations.AmendAccepted := by
  unfold Obligations.AmendAccepted
  intro s h p e box c ha hq some_field wf hr window occupying no_amend room
  have accepted : amendOperands h p e box s =
      (closeEvent false s (amendPending (handleOf h) c (amendmentOf p e box) s), .response .queued (some h)) := by
    rw [amendOperands_eq, if_neg, onClaim_some hr, amendClaim_eq, if_neg, if_neg, if_neg (Nat.not_le.mpr room),
      acceptAmend_eq hr, handleOf_byte]
    · simp [occupying, no_amend]
    · rintro ⟨n, hn, empty⟩
      by_cases present : p.getLsbD 0 = true
      · have new_end : some e.toNat = some n := (if_pos present).symm.trans hn
        cases new_end
        exact Nat.not_lt.mpr empty (window present)
      · exact absurd ((if_neg present).symm.trans hn) nofun
    · rintro (⟨no_end, no_box⟩ | ⟨has_box, bad⟩)
      · rcases some_field with has_end | has_box
        · exact Bool.false_ne_true (no_end.symm.trans has_end)
        · exact Bool.false_ne_true (no_box.symm.trans has_box)
      · exact Bool.false_ne_true (bad.symm.trans (wf has_box))
  obtain ⟨own, others⟩ := amendPending_closed (a := amendmentOf p e box) hr hq occupying
  have pending : ClaimFrame s (amendPending (handleOf h) c (amendmentOf p e box) s) := rfl
  refine ⟨_, exec_amend_answers ha accepted, setTx_claimFrame (pending.trans (closeEvent_frame false s _)) .showSel _,
    others.setTx .showSel _, own, ?_, ?_, ?_⟩
  · rw [setTx_admission, closeEvent_queue]
    rfl
  · rw [setTx_attention, closeEvent_quiet (amendPending_quiet hr), beginHead_attention]
    rfl
  · rw [setTx_arbiter, closeEvent_arbiter]
    rfl

/-- Settles O16: BOOK's and AMEND's tests, each where the earlier ones have passed. -/
theorem admissionRefusals : Obligations.AdmissionRefusals := by
  unfold Obligations.AdmissionRefusals
  refine ⟨fun s f box start p stop ha => ⟨?_, fun hf1 hf8 hb hw => ?_⟩, fun s h p e box ha => ⟨fun bad => ?_, fun some_field wf => ?_⟩⟩
  · intro bad
    by_cases hf : f.toNat = 0 ∨ 8 < f.toNat
    · exact exec_book_answers ha (bookOperands_badFlyer hf)
    · cases hb : (boxOfBytes box).wf with
      | false => exact exec_book_answers ha (bookOperands_badBox hb)
      | true =>
        obtain ⟨g, hg⟩ := exists_flyer (b := f) (by omega) (by omega)
        refine exec_book_answers ha ((bookOperands_named hg hb).trans (if_pos ?_))
        rcases bad with h0 | h8 | hbad | empty
        · exact absurd (.inl h0) hf
        · exact absurd (.inr h8) hf
        · exact absurd (hbad.symm.trans hb) Bool.false_ne_true
        · exact empty
  · obtain ⟨g, hg⟩ := exists_flyer hf1 hf8
    have judged := bookOperands_window (s := s) hg hb hw
    exact ⟨fun full => exec_book_answers ha (judged.trans (bookClaim_queueFull _ full)),
      fun room full => exec_book_answers ha (judged.trans (bookClaim_tableFull _ room full))⟩
  · exact exec_amend_answers ha ((amendOperands_eq h p e box s).trans (if_pos bad))
  · have judged : amendOperands h p e box s = onClaim h (amendClaim (amendmentOf p e box)) s := by
      rw [amendOperands_eq, if_neg]
      rintro (⟨no_end, no_box⟩ | ⟨has_box, bad⟩)
      · rcases some_field with has_end | has_box
        · exact Bool.false_ne_true (no_end.symm.trans has_end)
        · exact Bool.false_ne_true (no_box.symm.trans has_box)
      · exact Bool.false_ne_true (bad.symm.trans (wf has_box))
    refine ⟨fun unnamed => exec_amend_answers ha (judged.trans (onClaim_none unnamed _)), fun c hr => ?_⟩
    have on_claim := judged.trans ((onClaim_some hr _).trans amendClaim_eq)
    refine ⟨fun present empty => ?_, fun window => ?_⟩
    · rw [if_pos ⟨e.toNat, if_pos present, empty⟩] at on_claim
      exact exec_amend_answers ha on_claim
    · rw [if_neg] at on_claim
      · refine ⟨fun wrong => ?_, fun occupying no_amend full => ?_⟩
        · rw [if_pos wrong] at on_claim
          exact exec_amend_answers ha on_claim
        · rw [if_neg (by simp [occupying, no_amend]), if_pos full] at on_claim
          exact exec_amend_answers ha on_claim
      · rintro ⟨n, hn, empty⟩
        by_cases present : p.getLsbD 0 = true
        · have new_end : some e.toNat = some n := (if_pos present).symm.trans hn
          cases new_end
          exact Nat.not_lt.mpr empty (window present)
        · exact absurd ((if_neg present).symm.trans hn) nofun

/-! ## The zone commands (R53 to R57, R59) -/

/-- The protection that refuses a zone command. -/
theorem protects_iff (s : State) (z : Zone) :
    s.protects z = true ↔ s.effective = .hard ∨ (s.effective = .soft ∧ s.zones[z].isFixed = true) := by
  unfold State.protects
  cases s.effective <;> simp

theorem protects_eq_false {s : State} {z : Zone}
    (h : s.effective = .opened ∨ (s.effective = .soft ∧ s.zones[z].isFixed = false)) : s.protects z = false := by
  unfold State.protects
  rcases h with opened | ⟨soft, unfixed⟩
  · rw [opened]
  · rw [soft]
    exact unfixed

theorem awaiting_iff (x : ZoneSlot) : x.awaiting = true ↔ (∃ a, x = .pending a) ∨ ∃ a r v, x = .set a (some r) v := by
  cases x with
  | set a r v => cases r <;> simp [ZoneSlot.awaiting]
  | _ => simp [ZoneSlot.awaiting]

theorem ceasedOverstay_same {s u : State} (h : u.slots = s.slots) : ceasedOverstay s u = false := by
  rw [ceased_congr h, ceasedOverstay_eq_false]
  exact fun i overstays => ⟨rfl, overstays⟩

theorem exec_zoneSet_answers {s t : State} {zb : Byte} {box : BoxBytes} {fb : Byte} {x : Transaction}
    (ha : Awaits s .showSel .zoneSet) (ho : zoneSetOperands zb box fb s = (t, x)) :
    exec (.zoneSet zb box fb) s = .next (t.setTx .showSel x) := takeCommand_answers ha (.inl rfl) ho

theorem exec_zoneClear_answers {s t : State} {zb : Byte} {x : Transaction}
    (ha : Awaits s .showSel .zoneClear) (ho : zoneClearOperands zb s = (t, x)) :
    exec (.zoneClear zb) s = .next (t.setTx .showSel x) := takeCommand_answers ha (.inl rfl) ho

theorem fixedOf_small {b : Byte} (h : b.toNat ≤ 1) : fixedOf b = some (decide (b.toNat = 1)) := by
  unfold fixedOf
  by_cases h0 : b.toNat = 0
  · rw [if_pos h0, h0]
    rfl
  · have h1 : b.toNat = 1 := by omega
    rw [if_neg h0, if_pos h1, h1]
    rfl

theorem fixedOf_none {b : Byte} (h : 1 < b.toNat) : fixedOf b = none := by
  unfold fixedOf
  rw [if_neg (by omega), if_neg (by omega)]

section
variable {s : State} {zb : Byte} {box : BoxBytes} {fb : Byte}

theorem zoneSetOperands_bad (h : 7 < zb.toNat ∨ (boxOfBytes box).wf = false ∨ 1 < fb.toNat) :
    zoneSetOperands zb box fb s = (s, answer .badOperand) := by
  unfold zoneSetOperands
  rcases h with hz | hb | hf
  · rw [zoneOf_none hz]
    rfl
  · rw [boxOf_none hb]
    cases zoneOf zb <;> rfl
  · rw [fixedOf_none hf]
    cases zoneOf zb
    · rfl
    · cases boxOf box <;> rfl

theorem zoneSetOperands_named {z : Zone} {area : FixedBox} (hz : zb.toNat = z.val) (hb : (boxOfBytes box).wf = true)
    (hf : fb.toNat ≤ 1) (harea : area = { box := boxOfBytes box, fixed := decide (fb.toNat = 1) }) :
    zoneSetOperands zb box fb s =
      if s.protects z = true then (s, answer .protected_)
      else if s.zones[z].awaiting = true then (s, answer .wrongState)
      else if s.queueFull = true then (s, answer .queueFull) else acceptZone z area s := by
  unfold zoneSetOperands
  rw [zoneOf_number hz, boxOf_some hb, fixedOf_small hf, harea]
  rfl

theorem zoneClearOperands_bad (hz : 7 < zb.toNat) : zoneClearOperands zb s = (s, answer .badOperand) := by
  unfold zoneClearOperands
  rw [zoneOf_none hz]
  rfl

/-- The state ZONE_CLEAR makes before the close. -/
def zoneEmptied (z : Zone) (s : State) : State := withdrawEntry (.zone z) (s.setZone z .empty)

theorem zoneClearOperands_named {z : Zone} (hz : zb.toNat = z.val) :
    zoneClearOperands zb s =
      if s.protects z = true then (s, answer .protected_)
      else if s.zones[z] = .empty then (s, answer .wrongState)
      else (closeEvent false s (zoneEmptied z s), answer .ok) := by
  unfold zoneClearOperands
  rw [zoneOf_number hz]
  rfl

end

/-- The state ZONE_SET makes before the close. -/
def zoneRequested (z : Zone) (area : FixedBox) (s : State) : State :=
  appendEntry (.zone z) (s.setZone z (requestZone area s.zones[z]))

theorem requestZone_set {x : ZoneSlot} {a : FixedBox} {v : Option Handle} (h : x = .set a none v) (area : FixedBox) :
    requestZone area x = .set a (some area) v := by
  subst h
  rfl

theorem requestZone_other {x : ZoneSlot} (h : ∀ a r v, x ≠ .set a r v) (area : FixedBox) : requestZone area x = .pending area := by
  cases x with
  | set a r v => exact absurd rfl (h a r v)
  | _ => rfl

/-- The event of an entry that joins or leaves with no claim moved, closed. -/
theorem closeEvent_claims {s u : State} (slots : u.slots = s.slots) (fits : HeadFits u) (j : Slot) :
    (closeEvent false s u).slots[j].gen = s.slots[j].gen ∧ closesTo (s.claimAt j) ((closeEvent false s u).claimAt j) := by
  refine ⟨(closeEvent_gen false s u j).trans (gen_congr slots j), ?_⟩
  rw [← claimAt_congr slots j]
  exact closeEvent_closes fits false s j

theorem zoneRequested_headFits {s : State} (hq : QueueLaw s) (z : Zone) (area : FixedBox) : HeadFits (zoneRequested z area s) :=
  headFits_append hq rfl nofun fun _ c hc => ⟨c, hc, fun _ => rfl⟩

/-- Settles O24: the operands, the protection, the zone's state, the room, and the request. -/
theorem zoneSetRequests : Obligations.ZoneSetRequests := by
  unfold Obligations.ZoneSetRequests
  refine fun s zb box fb ha => ⟨fun bad => exec_zoneSet_answers ha (zoneSetOperands_bad bad), fun z area hz hb hf harea => ?_⟩
  have judged := zoneSetOperands_named (s := s) hz hb hf harea
  refine ⟨fun guarded => ?_, fun unguarded => ?_⟩
  · exact exec_zoneSet_answers ha (judged.trans (if_pos ((protects_iff s z).mpr guarded)))
  · rw [protects_eq_false unguarded, if_neg Bool.false_ne_true] at judged
    refine ⟨fun waits => ?_, fun not_pending not_replaced => ⟨fun full => ?_, fun room hq => ?_⟩⟩
    · exact exec_zoneSet_answers ha (judged.trans (if_pos ((awaiting_iff _).mpr waits)))
    all_goals
      have not_awaiting : ¬ s.zones[z].awaiting = true := by
        rw [awaiting_iff]
        rintro (⟨a, pending⟩ | ⟨a, r, v, replaced⟩)
        · exact not_pending a pending
        · exact not_replaced a r v replaced
      rw [if_neg not_awaiting] at judged
    · exact exec_zoneSet_answers ha (judged.trans (if_pos (queueFull_true full)))
    · rw [queueFull_false room, if_neg Bool.false_ne_true] at judged
      have byte_eq : BitVec.ofNat 8 z.val = zb := by rw [← hz, BitVec.ofNat_toNat, BitVec.setWidth_eq]
      unfold acceptZone at judged
      rw [byte_eq] at judged
      have closed := closeEvent_frame false s (zoneRequested z area s)
      have zones : (closeEvent false s (zoneRequested z area s)).zones = s.zones.set z (requestZone area s.zones[z]) := closed.zones
      have requested : ClaimFrame { s with zones := (closeEvent false s (zoneRequested z area s)).zones }
          (zoneRequested z area s) := by
        rw [zones]
        rfl
      refine ⟨_, exec_zoneSet_answers ha judged, setTx_claimFrame (requested.trans closed) .showSel _,
        closeEvent_claims rfl (zoneRequested_headFits hq z area), ?_, ?_, ?_, fun a v set => ?_, fun not_set => ?_⟩
      · rw [setTx_admission, closeEvent_queue]
        rfl
      · have quiet : ceasedOverstay s (zoneRequested z area s) = false := ceasedOverstay_same rfl
        rw [setTx_attention]
        show (closeEvent false s (zoneRequested z area s)).attention = s.attention
        rw [closeEvent_quiet quiet, beginHead_attention]
        rfl
      · rw [setTx_arbiter, closeEvent_arbiter]
        rfl
      · exact zones.trans (by rw [requestZone_set set])
      · have other : ∀ a r v, s.zones[z] ≠ .set a r v := by
          intro a r v set
          cases r with
          | none => exact not_set a v set
          | some r => exact not_replaced a r v set
        exact zones.trans (by rw [requestZone_other other])

/-- The turn after a zone's entry is withdrawn. -/
theorem zoneEmptied_turn (z : Zone) (s : State) : TurnKept s (zoneEmptied z s) := by
  obtain ⟨on, off⟩ := withdrawEntry_goes (.zone z) (s.setZone z .empty)
  exact .withdrawn (e := .zone z) (fun w hw hs => (on w hw hs).2) (fun hn => (off hn).2)
    (withdrawEntry_queue (.zone z) (s.setZone z .empty))

theorem zoneEmptied_headFits {s : State} (hq : QueueLaw s) (z : Zone) : HeadFits (zoneEmptied z s) := by
  have emptied : Settles s (s.setZone z .empty) := .of_eq rfl rfl
  exact (emptied.trans (withdrawEntry_settles _ _)).headFits hq

/-- Settles O25: the operand, the protection, the zone's state, and the zone emptied. -/
theorem zoneClearEmpties : Obligations.ZoneClearEmpties := by
  unfold Obligations.ZoneClearEmpties
  refine fun s zb ha => ⟨fun bad => exec_zoneClear_answers ha (zoneClearOperands_bad bad), fun z hz => ?_⟩
  have judged := zoneClearOperands_named (s := s) hz
  refine ⟨fun guarded => ?_, fun unguarded => ?_⟩
  · exact exec_zoneClear_answers ha (judged.trans (if_pos ((protects_iff s z).mpr guarded)))
  · rw [protects_eq_false unguarded, if_neg Bool.false_ne_true] at judged
    refine ⟨fun empty => exec_zoneClear_answers ha (judged.trans (if_pos empty)), fun not_empty hq => ?_⟩
    rw [if_neg not_empty] at judged
    have slots : (zoneEmptied z s).slots = s.slots := withdrawEntry_slots _ _
    have emptied : ClaimFrame (s.setZone z .empty) (zoneEmptied z s) := withdrawEntry_frame _ _
    refine ⟨_, exec_zoneClear_answers ha judged,
      setTx_claimFrame (emptied.trans (closeEvent_frame false s _)) .showSel _,
      closeEvent_claims slots (zoneEmptied_headFits hq z), ?_, ?_, ((zoneEmptied_turn z s).close false s).setTx .showSel _⟩
    · rw [setTx_admission, closeEvent_queue]
      exact withdrawEntry_queue _ _
    · rw [setTx_attention, closeEvent_quiet (ceasedOverstay_same slots), beginHead_attention]
      exact withdrawEntry_attention _ _

end Sys2Proof.Machine
end

section
/-! PROOF. The turns of the lookup port, and a walk that reads on (O19). -/

namespace Sys2Proof.Machine

/-- How many places after the last served channel the round robin tries a channel. -/
def turnsAfter (last c : Flyer) : Nat := (c.val + 7 - last.val) % 8

theorem turnsAfter_place : ∀ last k : Fin 8, turnsAfter last (last + 1 + k) = k.val := by decide

/-- The round robin finds the first waiting channel in its order (R24). -/
theorem nextChannel_eq_some_iff (s : State) (c : Flyer) : s.nextChannel = some c ↔ s.channels[c].waiting = true ∧
    ∀ d : Flyer, s.channels[d].waiting = true → turnsAfter s.arbiter.lastServed c ≤ turnsAfter s.arbiter.lastServed d := by
  generalize hl : s.arbiter.lastServed = last
  have at_place (d : Flyer) : ∃ k : Fin 8, last + 1 + k = d ∧ turnsAfter last d = k.val := by
    refine ⟨d - (last + 1), flyer_wrap last d, ?_⟩
    rw [← turnsAfter_place last, flyer_wrap]
  have length_eq : (channelsAfter last).length = 8 := by simp [channelsAfter, allFlyers]
  have entry (k : Fin 8) (hk : k.val < (channelsAfter last).length) : (channelsAfter last)[k.val] = last + 1 + k := by
    simp [channelsAfter, allFlyers]
  unfold State.nextChannel
  rw [hl, List.find?_eq_some_iff_getElem]
  refine and_congr_right fun _ => ⟨?_, fun least => ?_⟩
  · rintro ⟨i, hi, rfl, earlier⟩ d waits
    have place : turnsAfter last ((channelsAfter last)[i]) = i := by
      rw [entry ⟨i, length_eq ▸ hi⟩, turnsAfter_place]
    obtain ⟨k, rfl, hk⟩ := at_place d
    rw [place, hk]
    refine Classical.byContradiction fun before => ?_
    have idle := earlier k.val (Nat.lt_of_not_le before)
    rw [entry k, waits] at idle
    exact absurd idle (by decide)
  · obtain ⟨i, rfl, hi⟩ := at_place c
    refine ⟨i.val, by rw [length_eq]; exact i.isLt, entry i _, fun j hj => ?_⟩
    have hj8 : j < 8 := Nat.lt_trans hj i.isLt
    rw [entry ⟨j, hj8⟩, Bool.not_eq_true', Bool.eq_false_iff]
    intro waits
    have := least _ waits
    rw [hi, turnsAfter_place] at this
    exact absurd hj (Nat.not_lt_of_le this)

/-- The walk waits at the port exactly in its claim phase (R23, R36). -/
theorem walkWaiting_iff (s : State) :
    s.walkWaiting = true ↔ ∃ (w : Walk) (i : Slot), s.admission.walk = some w ∧ w.pos = .claims i := by
  unfold State.walkWaiting
  constructor
  · intro h
    split at h
    · rename_i walking
      exact ⟨_, _, walking, rfl⟩
    · exact absurd h Bool.false_ne_true
  · rintro ⟨⟨subject, cand, pos⟩, i, walking, claims⟩
    rw [walking]
    cases claims
    rfl

theorem walkOwed_iff (s : State) : s.walkOwed = true ↔ s.walkWaiting = true ∧ 8 ≤ s.arbiter.walkCount := by
  rw [State.walkOwed, Bool.and_eq_true, decide_eq_true_eq]
  rfl

/-- The walk takes the port when no channel waits, or when it has waited out its turns (R24). -/
theorem grantsWalk_iff {s : State} (runs : Runs s) : s.grantsWalk = true ↔ s.walkWaiting = true ∧
    ((∀ c : Flyer, s.channels[c].waiting = false) ∨ 8 ≤ s.arbiter.walkCount) := by
  rw [State.grantsWalk, (runs_iff s).mp runs, Bool.true_and, Bool.and_eq_true, Bool.or_eq_true, nextChannel_none_iff,
    walkOwed_iff]
  exact and_congr_right fun waits => ⟨fun h => h.symm.imp_right And.right, fun h => h.symm.imp_left fun n => ⟨waits, n⟩⟩

/-- A channel takes the port in the round robin, unless the walk is owed its turn (R24). -/
theorem grantsChannel_iff {s : State} (runs : Runs s) (c : Flyer) : s.grantsChannel c = true ↔ s.channels[c].waiting = true ∧
    (s.walkWaiting = true → s.arbiter.walkCount < 8) ∧ ∀ d : Flyer, s.channels[d].waiting = true →
      turnsAfter s.arbiter.lastServed c ≤ turnsAfter s.arbiter.lastServed d := by
  have owed : (!s.walkOwed) = true ↔ (s.walkWaiting = true → s.arbiter.walkCount < 8) := by
    rw [Bool.not_eq_true', Bool.eq_false_iff, Ne, walkOwed_iff, not_and, Nat.not_le]
  rw [State.grantsChannel, (runs_iff s).mp runs, Bool.true_and, Bool.and_eq_true, decide_eq_true_eq, owed,
    nextChannel_eq_some_iff]
  exact and_left_comm

theorem execWalkAccess_halted {s : State} (halted : ¬ Runs s) : exec .walkAccess s = .next s := by
  have idle : s.grantsWalk = false := by
    rw [State.grantsWalk, Bool.eq_false_iff.mpr (mt (runs_iff s).mpr halted)]
    rfl
  show execWalkAccess s = _
  unfold execWalkAccess
  rw [idle]
  split
  · split <;> rfl
  · rfl

theorem execZonePhaseRead_halted {s : State} (halted : ¬ Runs s) : exec .zonePhaseRead s = .next s := by
  show execZonePhaseRead s = _
  unfold execZonePhaseRead
  rw [Bool.eq_false_iff.mpr (mt (runs_iff s).mpr halted)]
  split
  · split <;> rfl
  · rfl

/-- What a walk reads of a slot is not changed by the serving of its access. -/
theorem slotConflicts_served {s : State} {w : Walk} {i : Slot} (h : ¬ SlotConflict s w i) :
    ¬ (serveWalk s).slotConflicts w i = true := fun conflicts => h ((slotConflicts_iff s w i).mp conflicts)

/-- Settles O19: the walk's reads without a conflict, the halted part, and the round robin. -/
theorem walkReadsOn : Obligations.WalkReadsOn := by
  unfold Obligations.WalkReadsOn
  refine ⟨fun s w hw runs => ⟨fun i hp grants clear => ⟨fun j hj => ?_, fun last not_zone => ?_⟩, fun z y hp hy clear => ?_⟩,
    fun s halted => ⟨execWalkAccess_halted halted, execZonePhaseRead_halted halted⟩,
    fun s runs => ⟨grantsWalk_iff runs, walkWaiting_iff s, grantsChannel_iff runs⟩⟩
  · have below : i.val < 31 := by omega
    have next : i + 1 = j := Fin.ext (by rw [Fin.val_add, hj]; exact Nat.mod_eq_of_lt (by omega))
    rw [walkAccess_exec hw hp grants, readSlot, if_neg (slotConflicts_served clear), if_pos below, next]
    rfl
  · rw [walkAccess_exec hw hp grants, readSlot, if_neg (slotConflicts_served clear), if_neg (by omega),
      if_neg (by
        show ¬ w.subject.isZone = true
        rw [not_zone]
        exact Bool.false_ne_true)]
    rfl
  · have below : z.val < 7 := by omega
    have next : z + 1 = y := Fin.ext (by rw [Fin.val_add, hy]; exact Nat.mod_eq_of_lt (by omega))
    rw [zoneRead_exec hw hp runs, readZone, if_neg (mt (zoneConflicts_iff s w z).mp clear), if_pos below, next]
    rfl

end Sys2Proof.Machine
end

section
/-! PROOF. A walk's completion: a conflict found, a zone settled, a booking placed (O20, O21). -/

namespace Sys2Proof.Machine

/-! ## The subject of the head (R27) -/

theorem QueueLaw.book_named {s : State} (hq : QueueLaw s) {h : Handle} (hm : Entry.book h ∈ s.admission.queue) :
    ∃ c, s.resolve h = some c ∧ (c.state = .queued ∨ c.state = .checking) := by
  have fits := hq.2.2 _ hm
  simpa [subjectFits, Option.any_eq_true] using fits

theorem QueueLaw.amend_named {s : State} (hq : QueueLaw s) {h : Handle} (hm : Entry.amend h ∈ s.admission.queue) :
    ∃ c a, s.resolve h = some c ∧ c.state.occupying = true ∧ c.amend = some a := by
  obtain ⟨c, -, hr, occupying, pending, -⟩ := SubjectsFit.amend hq.2.2 hm
  obtain ⟨a, ha⟩ := Option.isSome_iff_exists.mp pending
  exact ⟨c, a, hr, occupying, ha⟩

/-- The entry of the walk in flight waits at the head of the queue. -/
theorem WalkLaw.subject_waits {s : State} (hl : WalkLaw s) {w : Walk} (hw : s.admission.walk = some w) {e : Entry}
    (he : w.subject = e) : s.admission.queue.head? = some e ∧ e ∈ s.admission.queue := by
  have head := he ▸ walk_head hw hl
  exact ⟨head, List.mem_of_mem_head? head⟩

theorem occupying_not_waiting {c : Claim} (occupying : c.state.occupying = true) : c.state ≠ .queued ∧ c.state ≠ .checking := by
  constructor
  all_goals
    intro waits
    rw [waits] at occupying
    exact Bool.false_ne_true occupying

theorem waiting_not_overstaying {c : Claim} (waits : c.state = .queued ∨ c.state = .checking) : ¬ c.state.overstaying = true := by
  rcases waits with waits | waits
  all_goals
    rw [waits]
    exact Bool.false_ne_true

/-! ## The verdict delivered (R39) -/

section
variable {s : State} {h : Handle} {c : Claim} (hr : s.resolve h = some c)
include hr

theorem deliverVerdict_book_refused (v : Verdict) :
    deliverVerdict (.book h) (some v) s = (s.setClaim h.slot { c with state := .refused, verdict := some v }, false) := by
  unfold deliverVerdict
  dsimp only
  rw [hr]
  rfl

theorem deliverVerdict_book_passed : deliverVerdict (.book h) none s = (placeBooking h.slot c s, false) := by
  unfold deliverVerdict
  dsimp only
  rw [hr]

theorem deliverVerdict_amend_refused (v : Verdict) :
    deliverVerdict (.amend h) (some v) s = (s.setClaim h.slot { c with amend := none, verdict := some v }, false) := by
  unfold deliverVerdict
  dsimp only
  rw [hr]
  rfl

theorem deliverVerdict_amend_stale {a : Amendment} (ha : c.amend = some a) (past : endedBy (amendedEnd c a) s.now = true) :
    deliverVerdict (.amend h) none s = (s.setClaim h.slot { c with amend := none, verdict := some .stale }, false) := by
  unfold deliverVerdict
  dsimp only
  rw [hr]
  dsimp only
  rw [ha]
  exact if_pos past

theorem deliverVerdict_amend_passed {a : Amendment} (ha : c.amend = some a) (ahead : ¬ endedBy (amendedEnd c a) s.now = true) :
    deliverVerdict (.amend h) none s = (passAmendment h.slot c a s, asksRecheck c a) := by
  unfold deliverVerdict
  dsimp only
  rw [hr]
  dsimp only
  rw [ha]
  exact if_neg ahead

end

theorem completeWalk_arbiter (e : Entry) (v : Option Verdict) (s : State) :
    (completeWalk e v s).arbiter = (deliverVerdict e v (leaveQueue s)).1.arbiter := by
  unfold completeWalk
  dsimp only
  rw [closeEvent_arbiter]
  rfl

theorem ClaimFrame.zoned {s t : State} (h : ClaimFrame s t) : ClaimFrame { s with zones := t.zones } t := by
  have same : ({ s with zones := t.zones } : State) = s := by rw [h.zones]
  exact same.symm ▸ h

/-- The completion of a zone's walk: the zone settled, the entry gone, ADMIT_DONE raised, and no claim moved but by the close (R39, R56). -/
theorem completeWalk_zone {s : State} {z : Zone} (v : Option Verdict) (hq : QueueLaw s)
    (hw : s.admission.queue.head? = some (.zone z)) : ∃ t, completeWalk (.zone z) v s = t ∧
      t.zones = s.zones.set z (settleZone (v.bind Verdict.handle?) s.zones[z]) ∧
      ClaimFrame { s with zones := t.zones } t ∧ t.arbiter = s.arbiter ∧ t.admission.queue = s.admission.queue.drop 1 ∧
      t.attention = raisedBy 0x001 s.attention ∧
      ∀ j : Slot, t.slots[j].gen = s.slots[j].gen ∧ closesTo (s.claimAt j) (t.claimAt j) := by
  generalize hu : raiseFlag .admitDone ((leaveQueue s).setZone z (settleZone (v.bind Verdict.handle?) s.zones[z])) = u
  have slots : u.slots = s.slots := by rw [← hu]; rfl
  have queue : u.admission.queue = s.admission.queue.drop 1 := by rw [← hu]; rfl
  have zones : u.zones = s.zones.set z (settleZone (v.bind Verdict.handle?) s.zones[z]) := by rw [← hu]; rfl
  have arbiter : u.arbiter = s.arbiter := by rw [← hu]; rfl
  have attention : u.attention = raisedBy 0x001 s.attention := by rw [← hu]; rfl
  have settled : ClaimFrame { s with zones := s.zones.set z (settleZone (v.bind Verdict.handle?) s.zones[z]) } u := by
    rw [← hu]
    rfl
  have fits : HeadFits u := headFits_next hq hw queue (gen_congr slots) fun j _ x hx => claimAt_congr slots j ▸ hx
  have closed : completeWalk (.zone z) v s = closeEvent false s u := by rw [← hu]; rfl
  have frame := closeEvent_frame false s u
  refine ⟨_, closed, frame.zones.trans zones, ?_, (closeEvent_arbiter ..).trans arbiter, (closeEvent_queue ..).trans queue, ?_,
    closeEvent_claims slots fits⟩
  · rw [frame.zones, zones]
    exact settled.trans frame
  · rw [closeEvent_quiet (ceasedOverstay_same slots), beginHead_attention, attention]

/-- The completion of a served walk that writes its subject's claim alone (R24, R39). -/
theorem completeWalk_served {s : State} {e : Entry} {v : Option Verdict} {h : Slot} {c c' : Claim} (hq : QueueLaw s)
    (hw : s.admission.queue.head? = some e) (he : e.slot? = some h) (hc : s.claimAt h = some c)
    (hd : deliverVerdict e v (leaveQueue (serveWalk s)) = ((leaveQueue (serveWalk s)).setClaim h c', false))
    (ho : c.state.overstaying = true → c'.state.overstaying = true ∧ c'.flyer = c.flyer ∧ c'.region = c.region)
    (h1 : c'.state ≠ .queued) (h2 : c'.state ≠ .checking) : ∃ t, completeWalk e v (serveWalk s) = t ∧ ClaimFrame s t ∧
      t.arbiter = { s.arbiter with walkCount := 0 } ∧ t.admission.queue = s.admission.queue.drop 1 ∧
      t.attention = raisedBy 0x001 s.attention ∧ (∀ j : Slot, t.slots[j].gen = s.slots[j].gen) ∧
      t.claimAt h = some c' ∧ ∀ j : Slot, j ≠ h → closesTo (s.claimAt j) (t.claimAt j) := by
  obtain ⟨t, ht, frame, own, ⟨gen, others, -⟩, queue, attention⟩ :=
    completeWalk_write (S := serveWalk s) hq hw he hc hd ho h1 h2
  refine ⟨t, ht, (setArbiter_frame s _).trans frame, ?_, queue, attention, gen, own, others⟩
  rw [← ht, completeWalk_arbiter, hd]
  rfl

theorem readSlot_conflict {s : State} {w : Walk} {i : Slot} (conflict : SlotConflict s w i) :
    readSlot w i (serveWalk s) = completeWalk w.subject (some (.conflict (s.handleAt i))) (serveWalk s) :=
  if_pos ((slotConflicts_iff s w i).mpr conflict)

theorem readSlot_last_zone {s : State} {w : Walk} (clear : ¬ SlotConflict s w 31) (zone : w.subject.isZone = true) :
    readSlot w 31 (serveWalk s) = completeWalk w.subject none (serveWalk s) := by
  rw [readSlot, if_neg (slotConflicts_served clear), if_neg (by decide), if_pos zone]

/-- Settles O20: a conflict refuses the subject of any kind, and a zone that met none is settled. -/
theorem claimPhaseEnds : Obligations.ClaimPhaseEnds := by
  unfold Obligations.ClaimPhaseEnds
  refine ⟨fun s w i hw hp runs grants hq hl conflict => ?_, fun s w z hw hp hz runs grants hq hl clear => ?_⟩
  · rw [walkAccess_exec hw hp grants, readSlot_conflict conflict]
    generalize he : w.subject = e
    obtain ⟨head, waits⟩ := hl.subject_waits hw he
    cases e with
    | book h =>
      obtain ⟨c, hr, waiting⟩ := hq.book_named waits
      obtain ⟨t, ht, frame, arbiter, queue, attention, gen, own, others⟩ := completeWalk_served hq head rfl
        (resolve_eq_some.mp hr).2 (deliverVerdict_book_refused (s := leaveQueue (serveWalk s)) hr (.conflict (s.handleAt i)))
        (fun stays => absurd stays (waiting_not_overstaying waiting)) nofun nofun
      refine ⟨t, congrArg _ ht, frame.zoned, arbiter, queue, attention, gen, fun k d hk hd => ?_,
        fun _ _ other => absurd other nofun, fun _ other => absurd other nofun⟩
      cases hk
      cases hr.symm.trans hd
      exact ⟨frame.zones, own, others⟩
    | amend h =>
      obtain ⟨c, a, hr, occupying, -⟩ := hq.amend_named waits
      obtain ⟨t, ht, frame, arbiter, queue, attention, gen, own, others⟩ := completeWalk_served hq head rfl
        (resolve_eq_some.mp hr).2 (deliverVerdict_amend_refused (s := leaveQueue (serveWalk s)) hr (.conflict (s.handleAt i)))
        (fun stays => ⟨stays, rfl, rfl⟩)
        (occupying_not_waiting occupying).1 (occupying_not_waiting occupying).2
      refine ⟨t, congrArg _ ht, frame.zoned, arbiter, queue, attention, gen, fun _ _ other => absurd other nofun,
        fun k d hk hd => ?_, fun _ other => absurd other nofun⟩
      cases hk
      cases hr.symm.trans hd
      exact ⟨frame.zones, own, others⟩
    | zone z =>
      obtain ⟨t, ht, zones, frame, arbiter, queue, attention, claims⟩ :=
        completeWalk_zone (s := serveWalk s) (some (.conflict (s.handleAt i))) hq head
      refine ⟨t, congrArg _ ht, (setArbiter_frame { s with zones := t.zones } _).trans frame, arbiter, queue, attention,
        fun j => (claims j).1, fun _ _ other => absurd other nofun, fun _ _ other => absurd other nofun, fun y hy => ?_⟩
      cases hy
      refine ⟨fun j => (claims j).2, fun area pending => zones.trans ?_, fun area r v requested => zones.trans ?_⟩
      · show s.zones.set z (settleZone _ s.zones[z]) = _
        rw [pending]
        rfl
      · show s.zones.set z (settleZone _ s.zones[z]) = _
        rw [requested]
        rfl
  · obtain ⟨head, waits⟩ := hl.subject_waits hw hz
    rw [walkAccess_exec hw hp grants, readSlot_last_zone clear (by rw [hz]; rfl), hz]
    obtain ⟨t, ht, zones, frame, arbiter, queue, attention, claims⟩ := completeWalk_zone (s := serveWalk s) none hq head
    refine ⟨t, congrArg _ ht, (setArbiter_frame { s with zones := t.zones } _).trans frame, arbiter, queue, attention, claims,
      fun area pending => zones.trans ?_, fun area r v requested => zones.trans ?_⟩
    · show s.zones.set z (settleZone _ s.zones[z]) = _
      rw [pending]
      rfl
    · show s.zones.set z (settleZone _ s.zones[z]) = _
      rw [requested]
      rfl

/-! ## A booking placed (R8, R39) -/

theorem endedBy_iff (x : Option Nat) (n : Nat) : endedBy x n = true ↔ ∃ e, x = some e ∧ e ≤ n := by
  cases x with
  | none => simp [endedBy, beforeEnd]
  | some e => simp [endedBy, beforeEnd]

theorem not_endedBy {x : Option Nat} {n : Nat} (ahead : ∀ e, x = some e → n < e) : ¬ endedBy x n = true := by
  rw [endedBy_iff]
  rintro ⟨e, he, past⟩
  exact absurd past (Nat.not_le_of_lt (ahead e he))

/-- The flag the opening test raises (R12). -/
def openedFlags (s : State) (c : Claim) : FlagSet :=
  if s.breached c.flyer = true then 0 else if s.overlapsOverstayer c.flyer c.region = true then 0x010 else 0x002

/-- What a passed booking becomes (R8, R39). -/
def placedClaim (s : State) (c : Claim) : Claim :=
  if endedBy c.stop s.now = true then { c with state := .refused, verdict := some .stale }
  else if s.now < c.start then { c with state := .booked }
  else openedClaim s c

/-- The flag a placing raises. -/
def placedFlags (s : State) (c : Claim) : FlagSet :=
  if endedBy c.stop s.now = true then 0 else if s.now < c.start then 0 else openedFlags s c

/-- From s to u the claim of one slot was written and the flags of a set were raised; nothing else of the claims, the queue or the arbiter. -/
structure Written (h : Slot) (c' : Claim) (m : FlagSet) (s u : State) : Prop where
  slots : u.slots = (s.setClaim h c').slots
  frame : ClaimFrame s u
  admission : u.admission = s.admission
  arbiter : u.arbiter = s.arbiter
  attention : u.attention = raisedBy m s.attention

theorem Written.setClaim (s : State) (h : Slot) (c' : Claim) : Written h c' 0 s (s.setClaim h c') :=
  ⟨rfl, setClaim_frame s h c', rfl, rfl, (raisedBy_zero s.attention).symm⟩

theorem Written.raise (s : State) (h : Slot) (c' : Claim) (f : Flag) : Written h c' f.bit s (raiseFlag f (s.setClaim h c')) :=
  ⟨rfl, (setClaim_frame s h c').trans (raiseFlag_frame f _), rfl, rfl, raiseFlag_attention f _⟩

section
variable {s : State} {h : Slot} {c : Claim} (hc : s.claimAt h = some c) (hw : s.admission.walk = none)
include hc hw

/-- With no walk in flight, the opening test writes the claim's state and raises the flag of where it goes (R12). -/
theorem openClaim_written : Written h (openedClaim s c) (openedFlags s c) s (openClaim h s) := by
  unfold openClaim openedClaim openedFlags
  rw [hc]
  dsimp only
  rw [moveClaim_nowalk hc hw, moveClaim_nowalk hc hw, moveClaim_nowalk hc hw]
  split
  · exact .setClaim ..
  · split
    · exact .raise s h _ .overlapHeld
    · exact .raise s h _ .windowOpened

theorem placeBooking_written : Written h (placedClaim s c) (placedFlags s c) s (placeBooking h c s) := by
  unfold placeBooking placedClaim placedFlags
  split
  · exact .setClaim ..
  · split
    · exact .setClaim ..
    · exact openClaim_written hc hw

end

theorem placedClaim_settled (s : State) (c : Claim) : (placedClaim s c).state ≠ .queued ∧ (placedClaim s c).state ≠ .checking := by
  unfold placedClaim openedClaim
  split
  · exact ⟨nofun, nofun⟩
  · split
    · exact ⟨nofun, nofun⟩
    · dsimp only
      split
      · exact ⟨nofun, nofun⟩
      · split <;> exact ⟨nofun, nofun⟩

/-- A booking's walk completes by one write of its claim, with the flags its placing raises. -/
theorem completeWalk_booking {s D : State} {v : Option Verdict} {h : Handle} {c c' : Claim} {m : FlagSet} (hq : QueueLaw s)
    (hw : s.admission.queue.head? = some (.book h)) (hr : s.resolve h = some c) (waits : c.state = .queued ∨ c.state = .checking)
    (hd : deliverVerdict (.book h) v (leaveQueue s) = (D, false)) (written : Written h.slot c' m (leaveQueue s) D)
    (settled : c'.state ≠ .queued ∧ c'.state ≠ .checking) :
    ∃ t, completeWalk (.book h) v s = t ∧ ClaimFrame s t ∧ OthersClose s t h.slot ∧ t.arbiter = s.arbiter ∧
      t.admission.queue = s.admission.queue.drop 1 ∧ t.claimAt h.slot = some c' ∧
      t.attention = raisedBy (m ||| 0x001) s.attention := by
  have left : ClaimFrame s (leaveQueue s) := setAdmission_frame s _
  obtain ⟨t, ht, framed, own, others, queue, raised⟩ := completeWalk_spec hq hw rfl (resolve_eq_some.mp hr).2 hd
    (fun j => (claimAt_congr written.slots j).trans (setClaim_claimAt (leaveQueue s) ..))
    (fun j => (gen_congr written.slots j).trans (setClaim_gen (leaveQueue s) ..))
    (left.trans written.frame) (congrArg Admission.queue written.admission) written.attention
    (fun stays => absurd stays (waiting_not_overstaying waits)) settled.1 settled.2
  refine ⟨t, ht, framed, others, ?_, queue, own, raised⟩
  rw [← ht, completeWalk_arbiter, hd]
  exact written.arbiter

theorem readZone_conflict {s : State} {w : Walk} {z : Zone} (conflict : ZoneConflict s w z) :
    readZone w z s = completeWalk w.subject (some (.zone z)) s :=
  if_pos ((zoneConflicts_iff s w z).mpr conflict)

theorem readZone_last {s : State} {w : Walk} {z : Zone} (clear : ¬ ZoneConflict s w z) (last : z.val = 7) :
    readZone w z s = completeWalk w.subject none s := by
  rw [readZone, if_neg (mt (zoneConflicts_iff s w z).mp clear), if_neg (by omega)]

/-- Settles O21: the branches of the placing, each one write of the claim. -/
theorem zonePhaseSettlesBooking : Obligations.ZonePhaseSettlesBooking := by
  unfold Obligations.ZonePhaseSettlesBooking
  intro s w z h c hw hp hsub hr runs hq hl ends
  obtain ⟨head, waits⟩ := hl.subject_waits hw hsub
  obtain ⟨d, hd, waiting⟩ := hq.book_named waits
  cases hr.symm.trans hd
  rw [zoneRead_exec hw hp runs]
  by_cases conflict : ZoneConflict s w z
  · rw [readZone_conflict conflict, hsub]
    obtain ⟨t, ht, frame, others, arbiter, queue, own, attention⟩ := completeWalk_booking hq head hr waiting
      (deliverVerdict_book_refused (s := leaveQueue s) hr _) (.setClaim ..) ⟨nofun, nofun⟩
    exact ⟨t, congrArg _ ht, frame, others, arbiter, queue, fun _ => ⟨attention, own⟩, fun clear => absurd conflict clear⟩
  · rw [readZone_last conflict (ends.resolve_right conflict), hsub]
    obtain ⟨t, ht, frame, others, arbiter, queue, own, attention⟩ := completeWalk_booking hq head hr waiting
      (deliverVerdict_book_passed (s := leaveQueue s) hr)
      (placeBooking_written (s := leaveQueue s) (resolve_eq_some.mp hr).2 rfl) (placedClaim_settled ..)
    have same_claim : placedClaim (leaveQueue s) c = placedClaim s c := rfl
    have same_flags : placedFlags (leaveQueue s) c = placedFlags s c := rfl
    rw [same_claim, placedClaim] at own
    rw [same_flags, placedFlags] at attention
    refine ⟨t, congrArg _ ht, frame, others, arbiter, queue, fun hz => absurd hz conflict, fun _ => ⟨fun e he past => ?_,
      fun ahead => ?_⟩⟩
    · rw [if_pos ((endedBy_iff _ _).mpr ⟨e, he, past⟩)] at own attention
      exact ⟨attention, own⟩
    · rw [if_neg (not_endedBy ahead)] at own attention
      refine ⟨fun later => ?_, fun begun breached => ?_, fun begun unbreached overstayed => ?_,
        fun begun unbreached clear => ?_⟩
      · rw [if_pos later] at own attention
        exact ⟨attention, own⟩
      all_goals
        rw [if_neg (Nat.not_lt_of_le begun)] at own attention
        rw [openedClaim] at own
        rw [openedFlags] at attention
      · rw [if_pos ((breached_iff s _).mpr breached)] at own attention
        exact ⟨attention, own⟩
      all_goals rw [if_neg (mt (breached_iff s _).mp (not_not_intro unbreached))] at own attention
      · rw [if_pos ((overlapsOverstayer_iff s _ _).mpr overstayed)] at own attention
        exact ⟨attention, own⟩
      · rw [if_neg (mt (overlapsOverstayer_iff s _ _).mp clear)] at own attention
        exact ⟨attention, own⟩

end Sys2Proof.Machine
end

section
/-! PROOF. An amendment's walk completed: the claim in its new shape and state, its grant, and the close (O22, O23). -/

namespace Sys2Proof.Machine

/-! ## The claim reshaped as its entry leaves (R28, R40, R42) -/

/-- The head's entry gone, and the claim it names in another shape. -/
def reshaped (h : Handle) (d : Claim) (s : State) : State := (leaveQueue s).setClaim h.slot d

section
variable {s : State} {h : Handle} {c : Claim} (d : Claim)

theorem reshaped_frame : ClaimFrame s (reshaped h d s) :=
  ClaimFrame.trans (t := leaveQueue s) (setAdmission_frame s _) (setClaim_frame (leaveQueue s) h.slot d)

theorem reshaped_claimAt (j : Slot) : (reshaped h d s).claimAt j = if h.slot = j then some d else s.claimAt j :=
  setClaim_claimAt (leaveQueue s) h.slot j d

theorem reshaped_gen (j : Slot) : (reshaped h d s).slots[j].gen = s.slots[j].gen := setClaim_gen (leaveQueue s) h.slot j d

theorem reshaped_resolve (hr : s.resolve h = some c) {g : Handle} (other : g ≠ h) (named : stillNamed s (.book g) = true) :
    (reshaped h d s).resolve g = s.resolve g := by
  obtain ⟨x, hx⟩ := Option.isSome_iff_exists.mp named
  have slot_ne : h.slot ≠ g.slot := fun same => other (by rw [← handleAt_eq hr, ← handleAt_eq hx, same])
  rw [hx, resolve_eq_some, reshaped_gen, reshaped_claimAt, if_neg slot_ne]
  exact resolve_eq_some.mp hx

/-- The entries that stay are those of other subjects. -/
theorem reshaped_queueLaw (hq : QueueLaw s) (head : s.admission.queue.head? = some (.amend h)) (hr : s.resolve h = some c) :
    QueueLaw (reshaped h d s) := by
  obtain ⟨room, distinct, fits⟩ := hq
  have queue : (reshaped h d s).admission.queue = s.admission.queue.drop 1 := rfl
  have tail : ∀ e ∈ s.admission.queue.drop 1, e ∈ s.admission.queue := fun e he => List.mem_of_mem_drop he
  have other : ∀ e ∈ s.admission.queue.drop 1, sameSubject (.amend h) e = false := by
    cases hl : s.admission.queue with
    | nil => exact fun e he => absurd he nofun
    | cons x l =>
      rw [hl] at head distinct
      cases head
      exact (List.pairwise_cons.mp distinct).1
  unfold QueueLaw
  rw [queue]
  refine ⟨?_, distinct.sublist (List.drop_sublist 1 _), fun e he => ?_⟩
  · rw [List.length_drop]
    exact Nat.le_trans (Nat.sub_le _ _) room
  · have fit := fits e (tail e he)
    have named := stillNamed_of_fits fit
    have distinct := other e he
    cases e with
    | book g => exact fits_book (reshaped_resolve d hr (fun same => by simp [sameSubject, same] at distinct) named) fit
    | amend g => exact fits_amend (reshaped_resolve d hr (fun same => by simp [sameSubject, same] at distinct) named) fit
    | zone z => exact fits_zone rfl fit

end

/-! ## The claim moved (R40) -/

/-- From s to u the claim d of one slot went to a state; the queue, the walk and the flags follow, and no frame or PERMIT line moved. -/
structure Moves (i : Slot) (d : Claim) (st : ClaimState) (s u : State) : Prop where
  own : u.claimAt i = some { d with state := st }
  occupying : st.occupying = true
  still : st = d.state ∨ st ≠ .overrun ∧ ∀ m, st ≠ .held .overlap m
  goes : GoesAt i s u
  raised : FlagsRaised 0 s u
  settles : Settles s u
  frame : GrantFrame s u
  channels : u.channels = s.channels
  permit : u.lines.permit = s.lines.permit

section
variable {s : State} {i : Slot} {d : Claim} (hd : s.claimAt i = some d) (occupies : d.state.occupying = true)
include hd occupies

theorem Moves.stay : Moves i d d.state s s :=
  ⟨hd, occupies, .inl rfl, .refl i s, .refl s, .refl s, .refl s, rfl, rfl⟩

theorem Moves.move {st : ClaimState} (occupying : st.occupying = true) (not_overrun : st ≠ .overrun)
    (not_overlap : ∀ m, st ≠ .held .overlap m) (unflagged : movedFlag (some d) (some { d with state := st }) = 0) :
    Moves i d st s (moveClaim i st s) := by
  obtain ⟨h1, h2⟩ := occupying_not_waiting occupies
  have frame := moveClaim_frame i st s
  refine ⟨?_, occupying, .inr ⟨not_overrun, not_overlap⟩, moveClaim_goesAt hd h1 h2 occupying, (moveClaim_raised hd unflagged).2,
    moveClaim_settles_of hd h1 h2, frame.grant, frame.channels, frame.permit⟩
  rw [moveClaim_claimAt, if_pos rfl, hd]
  rfl

end

theorem Moves.restore {i : Slot} {d : Claim} {st : ClaimState} {s u : State} (h : Moves i d st s u) (f : Flyer) (k : Handle) :
    Moves i d st s (restoreGrant f k u) := by
  unfold restoreGrant
  split
  · exact h
  · split
    · exact ⟨h.own, h.occupying, h.still, h.goes.then_eq rfl rfl rfl rfl, h.raised, h.settles,
        h.frame.trans (setGrant_frame _ _ _), h.channels, h.permit⟩
    · exact h

/-- Where the release takes a HELD OVERLAP claim (R13, R26). -/
def releasedState (s : State) (d : Claim) : ClaimState :=
  if s.overlapsOverstayer d.flyer d.region = true then .held .overlap false
  else if s.breached d.flyer = true then .held .breach false else .active

theorem Moves.release {s : State} {i : Slot} {d : Claim} (hd : s.claimAt i = some d) (held : d.state = .held .overlap false) :
    Moves i d (releasedState s d) s (releaseOverlap i s) := by
  have released := releaseOverlap_of_held hd held
  have occupies : d.state.occupying = true := by rw [held]; rfl
  have frame := releaseOverlap_frame i s
  have own : (releaseOverlap i s).claimAt i = some { d with state := releasedState s d } := by
    rw [released, releasedState]
    split
    · rw [hd, ← held]
    · split
      · rw [moveClaim_claimAt, if_pos rfl, hd]
        rfl
      · show (moveClaim i .active s).claimAt i = _
        rw [moveClaim_claimAt, if_pos rfl, hd]
        rfl
  have settles : Settles s (releaseOverlap i s) := by
    obtain ⟨h1, h2⟩ := occupying_not_waiting occupies
    rw [released]
    split
    · exact .refl s
    · split
      · exact moveClaim_settles_of hd h1 h2
      · exact (moveClaim_settles_of hd h1 h2).trans (raiseFlag_settles _ _)
  refine ⟨own, ?_, ?_, releaseOverlap_goesAt i s, (releaseOverlap_raised i s).2, settles, frame.grant, frame.channels,
    frame.permit⟩
  · unfold releasedState
    split
    · rfl
    · split <;> rfl
  · unfold releasedState
    split
    · exact .inl held.symm
    · split <;> exact .inr ⟨nofun, nofun⟩

/-! ## The grant taken, and ADMIT_DONE (R39, R41) -/

/-- ADMIT_DONE raised, after the flyer's grant went where it had to. -/
def ungranted (gone : Bool) (f : Flyer) (u : State) : State :=
  raiseFlag .admitDone (if gone = true then removeGrant f .amended u else u)

section
variable (gone : Bool) (f : Flyer) (u : State)

theorem ungranted_frame : GrantFrame u (ungranted gone f u) := by
  unfold ungranted
  split
  · exact (removeGrant_frame f .amended u).trans (raiseFlag_frame _ _).grant
  · exact (raiseFlag_frame _ _).grant

theorem ungranted_settles : Settles u (ungranted gone f u) := by
  unfold ungranted
  split
  · exact (removeGrant_settles f .amended u).trans (raiseFlag_settles _ _)
  · exact raiseFlag_settles _ _

theorem ungranted_follows : Follows u (ungranted gone f u) := by
  unfold ungranted
  split
  · exact (removeGrant_follows f .amended u).trans (raiseFlag_follows _ _)
  · exact raiseFlag_follows _ _

theorem ungranted_grounds (j : Slot) : (ungranted gone f u).claimAt j = u.claimAt j ∨
    ((ungranted gone f u).claimAt j = none ∧ ∃ d, u.claimAt j = some d ∧ d.flyer = f ∧ d.state = .overrun) := by
  unfold ungranted
  split
  · exact removeGrant_grounds f .amended u j
  · exact .inl rfl

theorem ungranted_raised : FlagsRaised 0x001 u (ungranted gone f u) := by
  have raised (v : State) : FlagsRaised 0x001 v (raiseFlag .admitDone v) := by
    unfold FlagsRaised
    rw [movedFlags_slots (s := v) (t := raiseFlag .admitDone v) rfl]
    rfl
  unfold ungranted
  split
  · exact (removeGrant_expired f .amended u).1.trans (raised _) fun j => .inr rfl
  · exact raised u

/-- No walk being in flight, none is lost, and the turn stays. -/
theorem ungranted_idle (fits : SubjectsFit u) (idle : u.admission.walk = none) :
    (ungranted gone f u).arbiter = u.arbiter := by
  unfold ungranted
  split
  · exact ((removeGrant_goes f .amended u fits).1 idle).2
  · rfl

theorem ungranted_kept (kept : gone = false) : ungranted gone f u = raiseFlag .admitDone u := by
  unfold ungranted
  rw [if_neg (by simp [kept])]

theorem ungranted_removed (taken : gone = true) : GrantRemoved u (ungranted gone f u) f .amended := by
  unfold ungranted
  rw [if_pos taken]
  exact (removeGrant_removed f .amended u).to_frame (raiseFlag_frame _ _)

/-- An OVERRUN claim of the flyer stays until its grant goes while it is grounded. -/
theorem ungranted_overrun {j : Slot} {d : Claim} (hd : u.claimAt j = some d) (flyer : d.flyer = f) (overrun : d.state = .overrun) :
    (ungranted gone f u).claimAt j =
      if gone = true ∧ (u.grantOf f).isSome = true ∧ u.flyers[f].grounded = true then none else some d := by
  unfold ungranted
  show State.claimAt (if gone = true then removeGrant f .amended u else u) j = _
  by_cases taken : gone = true
  · rw [if_pos taken, removeGrant_claimAt, hd]
    by_cases grounded : (u.grantOf f).isSome = true ∧ u.groundedFlyer f = true
    · have all : gone = true ∧ (u.grantOf f).isSome = true ∧ u.flyers[f].grounded = true := ⟨taken, grounded⟩
      rw [if_pos grounded, if_pos all, Option.filter_some, flyer, overrun]
      simp
    · have none_all : ¬ (gone = true ∧ (u.grantOf f).isSome = true ∧ u.flyers[f].grounded = true) := fun all => grounded all.2
      rw [if_neg grounded, if_neg none_all]
  · rw [if_neg taken, if_neg (fun all => taken all.1 : ¬ (gone = true ∧ _)), hd]

end

/-! ## The close of the completion (R39) -/

/-- The flag that a change calls for is told by the states. -/
theorem movedFlag_of_state {a b : Claim} (same : a.state = b.state) (x : Option Claim) :
    movedFlag (some a) x = movedFlag (some b) x := by
  cases x with
  | none => rfl
  | some x =>
    unfold movedFlag
    dsimp only
    rw [same]

/-- A HELD OVERLAP claim beside an overstaying one stays through the close (R13, R26). -/
theorem closeEvent_overlap_stays {u : State} {i : Slot} {c : Claim} (fits : HeadFits u)
    (unended : ∀ (j : Slot) (x : Claim), u.claimAt j = some x → x.state ≠ .held .overlap true) (hc : u.claimAt i = some c)
    (beside : OverstayedIn u c.flyer c.region) (asked : Bool) (r : State) (waits : c.state ≠ .queued ∧ c.state ≠ .checking) :
    (closeEvent asked r u).claimAt i = some c := by
  have rechecks : (recheck u).claimAt i = some c := by
    rw [recheck_claimAt unended, hc, Option.map_some, rechecked, if_neg]
    rintro ⟨-, clear⟩
    exact Bool.false_ne_true (clear.symm.trans ((overlapsOverstayer_iff u _ _).mpr beside))
  unfold closeEvent
  split
  · exact beginHead_stays (recheck_headFits fits) rechecks waits.1 waits.2
  · exact beginHead_stays fits hc waits.1 waits.2

section
variable {s u : State} {h : Handle} {c d : Claim} {st : ClaimState} (gone asked : Bool) (hq : QueueLaw s)
  (head : s.admission.queue.head? = some (.amend h)) (hr : s.resolve h = some c) (moves : Moves h.slot d st (reshaped h d s) u)

/-- The state at the completion's end. -/
def amendmentClosed (gone asked : Bool) (f : Flyer) (s u : State) : State := closeEvent asked s (ungranted gone f u)

include moves

theorem amended_frame (f : Flyer) : GrantFrame s (amendmentClosed gone asked f s u) :=
  (reshaped_frame d).grant.trans (moves.frame.trans ((ungranted_frame gone f u).trans (closeEvent_frame asked s _).grant))

theorem amended_follows (f : Flyer) : Follows (reshaped h d s) (amendmentClosed gone asked f s u) :=
  moves.goes.2.1.trans ((ungranted_follows gone f u).trans (closeEvent_follows asked s _))

theorem amended_gen (f : Flyer) (j : Slot) : (amendmentClosed gone asked f s u).slots[j].gen = s.slots[j].gen :=
  ((amended_follows gone asked moves f).1 j).1.trans (reshaped_gen d j)

theorem amended_others (j : Slot) (other : j ≠ h.slot) : u.claimAt j = s.claimAt j := by
  rw [moves.goes.1 j other, reshaped_claimAt, if_neg other.symm]

include hq head hr

theorem amended_fits (f : Flyer) : HeadFits (ungranted gone f u) :=
  (moves.settles.trans (ungranted_settles gone f u)).headFits (reshaped_queueLaw d hq head hr)

theorem amended_queue (f : Flyer) : (amendmentClosed gone asked f s u).admission.queue =
    (s.admission.queue.drop 1).filter (stillNamed (amendmentClosed gone asked f s u)) :=
  (amended_follows gone asked moves f).queue (reshaped_queueLaw d hq head hr)

theorem amended_arbiter (f : Flyer) : (amendmentClosed gone asked f s u).arbiter = s.arbiter := by
  have fits := (reshaped_queueLaw d hq head hr).2.2
  obtain ⟨idle, arbiter⟩ := (moves.goes.2.2 fits).1 rfl
  calc (amendmentClosed gone asked f s u).arbiter
      = (ungranted gone f u).arbiter := closeEvent_arbiter asked s _
    _ = u.arbiter := ungranted_idle gone f u (moves.goes.2.1.2.2 fits).1 idle
    _ = s.arbiter := arbiter

/-- A walk that has left the lookup port gives up no turn. -/
theorem amended_turn {w : Walk} {z : Zone} (hw : s.admission.walk = some w) (hp : w.pos = .zones z) (f : Flyer) :
    TurnKept s (amendmentClosed gone asked f s u) := by
  have arbiter := amended_arbiter gone asked hq head hr moves f
  have not_withdrawn : ¬ WalkWithdrawn s (amendmentClosed gone asked f s u) := by
    rintro ⟨w', i, hw', hp', -⟩
    cases hw.symm.trans hw'
    exact absurd (hp.symm.trans hp') nofun
  unfold TurnKept CountKept
  rw [arbiter]
  exact ⟨rfl, .inl rfl, fun withdrawn => absurd withdrawn not_withdrawn, fun _ _ => rfl⟩

theorem amended_grounds (j : Slot) (other : j ≠ h.slot) (f : Flyer) :
    groundsTo f (s.claimAt j) ((amendmentClosed gone asked f s u).claimAt j) := by
  have grounds := ungranted_grounds gone f u j
  rw [amended_others moves j other] at grounds
  exact .of_close grounds (closeEvent_closes (amended_fits gone hq head hr moves f) asked s j)

/-- Another OVERRUN claim stays until its flyer's grant goes while the flyer is grounded. -/
theorem amended_overrun {j : Slot} {o : Claim} (other : j ≠ h.slot) (ho : s.claimAt j = some o) (overrun : o.state = .overrun)
    (f : Flyer) : (o.flyer ≠ f ∨ gone = false → (amendmentClosed gone asked f s u).claimAt j = some o) ∧
      (o.flyer = f → gone = true → (u.grantOf f).isSome = true →
        (amendmentClosed gone asked f s u).claimAt j = if s.flyers[f].grounded = true then none else some o) := by
  have at_j := (amended_others moves j other).trans ho
  have closed := closeEvent_closes (amended_fits gone hq head hr moves f) asked s j
  refine ⟨fun spared => ?_, fun flyer taken granted => ?_⟩
  · rcases ungranted_grounds gone f u j with kept | ⟨lost, x, hx, flyer, -⟩
    · rw [kept, at_j] at closed
      exact closed.stays (by simp [overrun]) (by simp [overrun])
    · cases at_j.symm.trans hx
      have kept : gone = false := spared.resolve_left (not_not_intro flyer)
      rw [ungranted_kept gone f u kept] at lost
      exact absurd (at_j.symm.trans lost) nofun
  · have same : u.flyers = s.flyers := moves.frame.flyers
    rw [ungranted_overrun gone f u at_j flyer overrun, same] at closed
    by_cases grounded : s.flyers[f].grounded = true
    · rw [if_pos ⟨taken, granted, grounded⟩] at closed
      rw [if_pos grounded]
      exact closed.none_left
    · rw [if_neg fun all => grounded all.2.2] at closed
      rw [if_neg grounded]
      exact closed.stays (by simp [overrun]) (by simp [overrun])

/-- The amended claim, OVERRUN still, is freed with the grant of its grounded flyer. -/
theorem amended_own_freed (overrun : st = .overrun) (taken : gone = true) (granted : (u.grantOf d.flyer).isSome = true)
    (grounded : s.flyers[d.flyer].grounded = true) : (amendmentClosed gone asked d.flyer s u).claimAt h.slot = none := by
  have closed := closeEvent_closes (amended_fits gone hq head hr moves d.flyer) asked s h.slot
  have same : u.flyers = s.flyers := moves.frame.flyers
  rw [ungranted_overrun gone d.flyer u moves.own rfl overrun, same, if_pos ⟨taken, granted, grounded⟩] at closed
  exact closed.none_left

/-- The amended claim stays in its new state but for the freeing; one that stays HELD OVERLAP is told apart. -/
theorem amended_own_kept (spared : st = .overrun → gone = false ∨ s.flyers[d.flyer].grounded = false) :
    (ungranted gone d.flyer u).claimAt h.slot = some { d with state := st } ∧
    ((∀ m, st ≠ .held .overlap m) → (amendmentClosed gone asked d.flyer s u).claimAt h.slot = some { d with state := st }) := by
  have kept : (ungranted gone d.flyer u).claimAt h.slot = some { d with state := st } := by
    rcases ungranted_grounds gone d.flyer u h.slot with kept | ⟨lost, x, hx, -, overrun⟩
    · exact kept.trans moves.own
    · cases moves.own.symm.trans hx
      rcases spared overrun with kept | airborne
      · rw [ungranted_kept gone d.flyer u kept]
        exact moves.own
      · have same : u.flyers = s.flyers := moves.frame.flyers
        rw [ungranted_overrun gone d.flyer u moves.own rfl overrun, same, if_neg]
        rintro ⟨-, -, grounded⟩
        exact Bool.false_ne_true (airborne.symm.trans grounded)
  have closed := closeEvent_closes (amended_fits gone hq head hr moves d.flyer) asked s h.slot
  rw [kept] at closed
  exact ⟨kept, closed.stays (occupying_not_waiting (c := { d with state := st }) moves.occupying).1⟩

/-- Exactly ADMIT_DONE was raised, with the flags that the claims' changes call for. -/
theorem amended_raised (same : d.state = c.state) : FlagsRaised 0x001 s (amendmentClosed gone asked d.flyer s u) := by
  have fits := amended_fits gone hq head hr moves d.flyer
  have removal := ungranted_raised gone d.flyer u
  have grounds := ungranted_grounds gone d.flyer u
  have closing := closeEvent_raised fits asked s
  have after_removal : FlagsRaised 0x001 u (amendmentClosed gone asked d.flyer s u) := by
    refine removal.trans (n := 0) closing fun j => (grounds j).imp_right fun ⟨lost, _⟩ => ?_
    have closed := closeEvent_closes fits asked s j
    rw [lost] at closed
    exact closed.none_left.trans lost.symm
  have from_reshaped : FlagsRaised 0x001 (reshaped h d s) (amendmentClosed gone asked d.flyer s u) := by
    refine moves.raised.trans (m := 0) after_removal fun j => ?_
    by_cases own : j = h.slot
    · subst own
      rcases moves.still with stays | ⟨not_overrun, not_overlap⟩
      · refine .inl (moves.own.trans ?_)
        rw [reshaped_claimAt, if_pos rfl, stays]
      · exact .inr (((amended_own_kept gone asked hq head hr moves fun overrun => absurd overrun not_overrun).2 not_overlap).trans
          moves.own.symm)
    · exact .inl (moves.goes.1 j own)
  have attention : (reshaped h d s).attention = s.attention := rfl
  have flags : movedFlags (reshaped h d s) (amendmentClosed gone asked d.flyer s u) =
      movedFlags s (amendmentClosed gone asked d.flyer s u) := by
    refine movedFlags_congr fun j => ?_
    rw [reshaped_claimAt]
    split
    · next own =>
      rw [← own, (resolve_eq_some.mp hr).2]
      exact movedFlag_of_state same _
    · rfl
  unfold FlagsRaised at from_reshaped ⊢
  rw [from_reshaped, attention, flags]

variable (ho : OverlapLaw s) (flyer : d.flyer = c.flyer) (unended : st ≠ .held .overlap true)
include ho

omit hq head hr in
include unended in
theorem amended_not_ended (j : Slot) (x : Claim) (hx : (ungranted gone d.flyer u).claimAt j = some x) :
    x.state ≠ .held .overlap true := by
  rcases ungranted_grounds gone d.flyer u j with kept | ⟨lost, -⟩
  · rw [kept] at hx
    by_cases own : j = h.slot
    · subst own
      cases moves.own.symm.trans hx
      exact unended
    · rw [amended_others moves j own] at hx
      exact ho.not_ended j x hx
  · exact absurd (lost.symm.trans hx) nofun

include flyer unended in
/-- An amended claim HELD OVERLAP stays so while an overstaying claim of another flyer lies beside it. -/
theorem amended_own_held (held : st = .held .overlap false) (overstayed : OverstayedIn s d.flyer d.region) :
    (amendmentClosed gone asked d.flyer s u).claimAt h.slot = some { d with state := st } := by
  have kept := (amended_own_kept gone asked hq head hr moves fun overrun => absurd (held.symm.trans overrun) nofun).1
  have beside : OverstayedIn (ungranted gone d.flyer u) d.flyer d.region := by
    obtain ⟨j, x, hx, overstaying, another, overlaps⟩ := overstayed
    refine ⟨j, x, ?_, overstaying, another, overlaps⟩
    have other : j ≠ h.slot := by
      rintro rfl
      cases (resolve_eq_some.mp hr).2.symm.trans hx
      exact another flyer.symm
    have at_j := (amended_others moves j other).trans hx
    rcases ungranted_grounds gone d.flyer u j with same | ⟨-, y, hy, own_flyer, -⟩
    · exact same.trans at_j
    · cases at_j.symm.trans hy
      exact absurd own_flyer another
  exact closeEvent_overlap_stays (amended_fits gone hq head hr moves d.flyer)
    (amended_not_ended gone moves ho unended) kept beside asked s
    (occupying_not_waiting (c := { d with state := st }) moves.occupying)

include flyer unended in
/-- The close judges the other HELD OVERLAP claims: a re-check is asked for where an overstaying claim's box is new. -/
theorem amended_judged (boxes : asked = false → c.state.overstaying = true → d.region = c.region) :
    OverlapsJudged (some h.slot) s (amendmentClosed gone asked d.flyer s u) := by
  refine closeEvent_judged ho (amended_fits gone hq head hr moves d.flyer)
    (fun f => by rw [(ungranted_frame gone d.flyer u).flyers, moves.frame.flyers]; rfl) (fun j x own hx overlap => ?_)
    (amended_not_ended gone moves ho unended) (fun _ overstays => overstays)
    (fun quiet j x y hx overstaying hy _ => ?_)
  · have at_j := (amended_others moves j fun same => own (congrArg some same.symm)).trans hx
    rcases ungranted_grounds gone d.flyer u j with same | ⟨-, z, hz, -, overrun⟩
    · exact same.trans at_j
    · cases at_j.symm.trans hz
      exact absurd (overlap.symm.trans overrun) nofun
  · rcases ungranted_grounds gone d.flyer u j with same | ⟨lost, -⟩
    · rw [same] at hy
      by_cases own : j = h.slot
      · subst own
        cases (resolve_eq_some.mp hr).2.symm.trans hx
        cases moves.own.symm.trans hy
        exact ⟨flyer, boxes quiet overstaying⟩
      · cases ((amended_others moves j own).trans hx).symm.trans hy
        exact ⟨rfl, rfl⟩
    · exact absurd (lost.symm.trans hy) nofun

end

end Sys2Proof.Machine
end

section
/-! PROOF. An amendment that passes: its claim's state, its flyer's grant, and the statements of an amendment's completion (O22, O23). -/

namespace Sys2Proof.Machine

/-! ## The grant of an amended claim (R41) -/

/-- Whether the flyer's grant names the amended claim and lies outside its new box. -/
def grantOutside (s : State) (h : Handle) (f : Flyer) (box : Option Box) : Bool :=
  (s.grantOf f).any fun g => box.any fun b => decide (g.claim = h) && !b.contains g.segment

theorem grantOutside_iff (s : State) (h : Handle) (f : Flyer) (box : Option Box) : grantOutside s h f box = true ↔
    ∃ g b, s.grantOf f = some g ∧ g.claim = h ∧ box = some b ∧ b.contains g.segment = false := by
  unfold grantOutside
  rw [Option.any_eq_true]
  simp only [Option.any_eq_true, Bool.and_eq_true, decide_eq_true_eq, Bool.not_eq_true']
  constructor
  · rintro ⟨g, hg, b, hb, named, outside⟩
    exact ⟨g, b, hg, named, hb, outside⟩
  · rintro ⟨g, b, hg, named, hb, outside⟩
    exact ⟨g, hg, b, hb, named, outside⟩

theorem amendGrant_eq (i : Slot) (c : Claim) (a : Amendment) (s : State) : amendGrant i c a s =
    if grantOutside s (s.handleAt i) c.flyer a.newBox = true then removeGrant c.flyer .amended s else s := by
  unfold amendGrant grantOutside
  cases a.newBox with
  | none => cases s.grantOf c.flyer <;> rfl
  | some b =>
    cases s.grantOf c.flyer with
    | none => rfl
    | some g => rfl

section
variable {s : State} {f : Flyer} {h : Handle} {g : Grant} (hg : s.grantOf f = some g)
include hg

theorem restoreGrant_named (named : g.claim = h) :
    restoreGrant f h s = s.setGrant f { s.grants[f] with live := some { g with kind := g.issued } } := by
  unfold restoreGrant
  rw [hg]
  exact if_pos named

theorem restoreGrant_other (other : g.claim ≠ h) : restoreGrant f h s = s := by
  unfold restoreGrant
  rw [hg]
  exact if_neg other

end

theorem restoreGrant_none {s : State} {f : Flyer} (hg : s.grantOf f = none) (h : Handle) : restoreGrant f h s = s := by
  unfold restoreGrant
  rw [hg]

/-- From s to u the flyer's grant, if any, kept all but its kind. -/
structure GrantLike (f : Flyer) (s u : State) : Prop where
  bindings : u.bindings = s.bindings
  channels : u.channels = s.channels
  permit : u.lines.permit = s.lines.permit
  grants : u.grants = s.grants ∨ ∃ g kind, s.grantOf f = some g ∧
    u.grants = s.grants.set f { s.grants[f] with live := some { g with kind := kind } }

theorem ClaimFrame.grantLike {s u : State} (h : ClaimFrame s u) (f : Flyer) : GrantLike f s u :=
  ⟨h.bindings, h.channels, h.permit, .inl h.grants⟩

theorem restoreGrant_like {s u : State} (before : ClaimFrame s u) (f : Flyer) (h : Handle) :
    GrantLike f s (restoreGrant f h u) := by
  cases hg : u.grantOf f with
  | none =>
    rw [restoreGrant_none hg]
    exact before.grantLike f
  | some g =>
    by_cases named : g.claim = h
    · rw [restoreGrant_named hg named]
      refine ⟨before.bindings, before.channels, before.permit, .inr ⟨g, g.issued, ?_, ?_⟩⟩
      · unfold State.grantOf at hg ⊢
        rw [← before.grants]
        exact hg
      · rw [setGrant_grants, before.grants]
    · rw [restoreGrant_other hg named]
      exact before.grantLike f

section
variable {s u : State} {f : Flyer} (like : GrantLike f s u)
include like

/-- The grant of u is that of s but for its kind. -/
theorem GrantLike.grantOf : (s.grantOf f = none → u.grantOf f = none) ∧
    ∀ g, s.grantOf f = some g → ∃ kind, u.grantOf f = some { g with kind := kind } := by
  obtain ⟨-, -, -, same | ⟨g, kind, hg, set⟩⟩ := like
  · unfold State.grantOf
    rw [same]
    exact ⟨id, fun g hg => ⟨g.kind, hg⟩⟩
  · refine ⟨fun none => absurd (hg.symm.trans none) nofun, fun g' hg' => ?_⟩
    cases hg.symm.trans hg'
    refine ⟨kind, ?_⟩
    unfold State.grantOf
    rw [set]
    exact congrArg GrantRec.live (Vector.getElem_set_self f.isLt)

theorem GrantLike.isSome : (u.grantOf f).isSome = (s.grantOf f).isSome := by
  cases hg : s.grantOf f with
  | none => rw [like.grantOf.1 hg]
  | some g =>
    obtain ⟨kind, granted⟩ := like.grantOf.2 g hg
    rw [granted]
    rfl

theorem GrantLike.outside (h : Handle) (box : Option Box) : grantOutside u h f box = grantOutside s h f box := by
  unfold grantOutside
  cases hg : s.grantOf f with
  | none => rw [like.grantOf.1 hg]
  | some g =>
    obtain ⟨kind, granted⟩ := like.grantOf.2 g hg
    rw [granted]
    rfl

/-- A grant's removal does not ask for its kind. -/
theorem GrantLike.removed {t : State} {r : Reason} (removed : GrantRemoved u t f r) (granted : (s.grantOf f).isSome = true) :
    GrantRemoved s t f r := by
  refine ⟨fun none => by rw [none] at granted; exact absurd granted Bool.false_ne_true, fun g hg => ?_⟩
  obtain ⟨kind, hu⟩ := like.grantOf.2 g hg
  obtain ⟨grants, channels, permit⟩ := removed.2 _ hu
  rw [like.bindings, like.permit] at permit
  rw [like.channels] at channels
  refine ⟨?_, channels, permit⟩
  obtain ⟨-, -, -, same | ⟨g', kind', hg', set⟩⟩ := like
  · rw [grants, same]
  · rw [grants, set]
    have at_f : (s.grants.set f { s.grants[f] with live := some { g' with kind := kind' } })[f] =
        { s.grants[f] with live := some { g' with kind := kind' } } := Vector.getElem_set_self f.isLt
    rw [at_f, Vector.set_set]

end

theorem GrantLike.of_frame {s t u : State} {f : Flyer} (before : ClaimFrame s t) (like : GrantLike f t u) : GrantLike f s u := by
  obtain ⟨bindings, channels, permit, grants⟩ := like
  refine ⟨bindings.trans before.bindings, channels.trans before.channels, permit.trans before.permit, ?_⟩
  unfold State.grantOf at grants ⊢
  rw [before.grants] at grants
  exact grants

/-! ## The state of an amended claim (R40) -/

/-- The state a passing amendment gives the claim d, which was c before it was reshaped. -/
def amendedStateOf (s : State) (c : Claim) (a : Amendment) (d : Claim) : ClaimState :=
  match c.state with
  | .overrun => if a.newEnd.isSome then .active else .overrun
  | .held cause true => if a.newEnd.isSome then .held cause false else .held cause true
  | .held .overlap false => releasedState s d
  | st => st

section
variable (s : State) (i : Slot) {c : Claim} (a : Amendment) (d : Claim)

theorem amendedState_overrun (h : c.state = .overrun) : amendedState i c a s =
      (if a.newEnd.isSome then restoreGrant c.flyer (s.handleAt i) (moveClaim i .active s) else s) ∧
    amendedStateOf s c a d = if a.newEnd.isSome then .active else .overrun := by
  unfold amendedState amendedStateOf
  rw [h]
  exact ⟨rfl, rfl⟩

theorem amendedState_ended {cause : HeldCause} (h : c.state = .held cause true) : amendedState i c a s =
      (if a.newEnd.isSome then moveClaim i (.held cause false) s else s) ∧
    amendedStateOf s c a d = if a.newEnd.isSome then .held cause false else .held cause true := by
  unfold amendedState amendedStateOf
  rw [h]
  exact ⟨rfl, rfl⟩

theorem amendedState_overlap (h : c.state = .held .overlap false) :
    amendedState i c a s = releaseOverlap i s ∧ amendedStateOf s c a d = releasedState s d := by
  unfold amendedState amendedStateOf
  rw [h]
  exact ⟨rfl, rfl⟩

theorem amendedState_plain (h1 : c.state ≠ .overrun) (h2 : ∀ cause, c.state ≠ .held cause true)
    (h3 : c.state ≠ .held .overlap false) : amendedState i c a s = s ∧ amendedStateOf s c a d = c.state := by
  unfold amendedState amendedStateOf
  constructor
  all_goals
    split
    · next overrun => exact absurd overrun h1
    · next cause held => exact absurd held (h2 cause)
    · next held => exact absurd held h3
    · rfl

end

section
variable {s : State} {i : Slot} {c d : Claim} {a : Amendment} (hd : s.claimAt i = some d)
  (occupies : c.state.occupying = true) (same : d.state = c.state) (unended : c.state ≠ .held .overlap true)
include hd occupies same unended

theorem amendedState_moves : Moves i d (amendedStateOf s c a d) s (amendedState i c a s) := by
  have occupying : d.state.occupying = true := same ▸ occupies
  by_cases overrun : c.state = .overrun
  · obtain ⟨state, becomes⟩ := amendedState_overrun s i a d overrun
    rw [state, becomes]
    rw [overrun] at same
    by_cases ends : a.newEnd.isSome = true
    · rw [if_pos ends, if_pos ends]
      exact (Moves.move (st := .active) hd occupying rfl nofun nofun (by simp [movedFlag, same])).restore _ _
    · rw [if_neg ends, if_neg ends, ← same]
      exact .stay hd occupying
  · by_cases ended : ∃ cause, c.state = .held cause true
    · obtain ⟨cause, held⟩ := ended
      obtain ⟨state, becomes⟩ := amendedState_ended s i a d held
      rw [state, becomes]
      rw [held] at same unended
      by_cases ends : a.newEnd.isSome = true
      · rw [if_pos ends, if_pos ends]
        refine .move hd occupying rfl nofun (fun m overlap => ?_) (by simp [movedFlag, same])
        cases overlap
        exact unended rfl
      · rw [if_neg ends, if_neg ends, ← same]
        exact .stay hd occupying
    · by_cases overlap : c.state = .held .overlap false
      · obtain ⟨state, becomes⟩ := amendedState_overlap s i a d overlap
        rw [state, becomes]
        exact .release hd (same.trans overlap)
      · obtain ⟨state, becomes⟩ := amendedState_plain s i a d overrun (fun cause held => ended ⟨cause, held⟩) overlap
        rw [state, becomes, ← same]
        exact .stay hd occupying

omit hd occupies same unended in
theorem amendedState_like (i : Slot) (c : Claim) (a : Amendment) (s : State) : GrantLike c.flyer s (amendedState i c a s) := by
  unfold amendedState
  split
  · split
    · exact restoreGrant_like (moveClaim_frame i .active s) c.flyer _
    · exact (ClaimFrame.refl s).grantLike _
  · split
    · exact (moveClaim_frame i _ s).grantLike _
    · exact (ClaimFrame.refl s).grantLike _
  · exact (releaseOverlap_frame i s).grantLike _
  · exact (ClaimFrame.refl s).grantLike _

end

/-! ## The completion (R39 to R42) -/

theorem amendedEnd_eq (c : Claim) (a : Amendment) : amendedEnd c a =
    if a.newEnd = none then (if c.state.overstaying = true then none else c.stop) else a.newEnd := by
  unfold amendedEnd
  cases a.newEnd with
  | none => rfl
  | some e => rfl

theorem amendedClaim_eq (c : Claim) (a : Amendment) : amendedClaim c a =
    { c with box := a.newBox.getD c.box, stop := if a.newEnd = none then c.stop else a.newEnd, amend := none, verdict := none } := by
  unfold amendedClaim
  cases a.newEnd <;> rfl

/-- The claim of a refused amendment (R42). -/
def staleClaim (c : Claim) : Claim := { c with amend := none, verdict := some .stale }

section
variable {s : State} {h : Handle} {c d : Claim} (hr : s.resolve h = some c)
include hr

theorem reshaped_at (d : Claim) : (reshaped h d s).resolve h = some d := by
  rw [resolve_eq_some, reshaped_gen, reshaped_claimAt, if_pos rfl]
  exact ⟨(resolve_eq_some.mp hr).1, rfl⟩

theorem reshaped_handleAt (d : Claim) : (reshaped h d s).handleAt h.slot = h := handleAt_eq (reshaped_at hr d)

/-- The reshaped claim is no claim of another flyer. -/
theorem reshaped_overstayed (same : d.flyer = c.flyer) (region : Box) :
    OverstayedIn (reshaped h d s) c.flyer region ↔ OverstayedIn s c.flyer region := by
  have at_slot := (resolve_eq_some.mp hr).2
  have agree (j : Slot) (x : Claim) (another : x.flyer ≠ c.flyer) :
      (reshaped h d s).claimAt j = some x ↔ s.claimAt j = some x := by
    rw [reshaped_claimAt]
    by_cases own : h.slot = j
    · subst own
      rw [if_pos rfl, at_slot, Option.some_inj, Option.some_inj]
      exact ⟨fun e => absurd (e ▸ same) another, fun e => absurd (e ▸ rfl) another⟩
    · rw [if_neg own]
  exact exists_congr fun j => exists_congr fun x =>
    ⟨fun ⟨hx, v, another, o⟩ => ⟨(agree j x another).mp hx, v, another, o⟩,
      fun ⟨hx, v, another, o⟩ => ⟨(agree j x another).mpr hx, v, another, o⟩⟩

/-- With no grant that names the claim, or no return to ACTIVE, the grants stay (R41). -/
theorem amendedState_grants_kept (d : Claim) (a : Amendment)
    (kept : c.state ≠ .overrun ∨ a.newEnd = none ∨ ∀ g, s.grantOf c.flyer = some g → g.claim ≠ h) :
    (amendedState h.slot c a (reshaped h d s)).grants = s.grants := by
  have same : (reshaped h d s).grants = s.grants := (reshaped_frame d).grants
  unfold amendedState
  split
  · next overrun =>
    split
    · next ends =>
      have moved := (moveClaim_frame h.slot .active (reshaped h d s)).grants
      have other := (kept.resolve_left (not_not_intro overrun)).resolve_left fun none => by simp [none] at ends
      rw [reshaped_handleAt hr]
      cases hg : s.grantOf c.flyer with
      | none =>
        rw [restoreGrant_none (by unfold State.grantOf at hg ⊢; rw [moved, same]; exact hg), moved, same]
      | some g =>
        rw [restoreGrant_other (g := g) (by unfold State.grantOf at hg ⊢; rw [moved, same]; exact hg) (other g hg), moved, same]
    · exact same
  · split
    · exact (moveClaim_frame h.slot _ _).grants.trans same
    · exact same
  · exact (releaseOverlap_frame h.slot _).grants.trans same
  · exact same

/-- The claim returning to ACTIVE, the kind of the grant that names it is its issued kind again (R41). -/
theorem amendedState_grants_restored (d : Claim) {a : Amendment} {g : Grant} (hg : s.grantOf c.flyer = some g)
    (named : g.claim = h) (overrun : c.state = .overrun) (ends : a.newEnd ≠ none) :
    (amendedState h.slot c a (reshaped h d s)).grants =
      s.grants.set c.flyer { s.grants[c.flyer] with live := some { g with kind := g.issued } } := by
  have same : (reshaped h d s).grants = s.grants := (reshaped_frame d).grants
  have moved := (moveClaim_frame h.slot .active (reshaped h d s)).grants.trans same
  rw [(amendedState_overrun (reshaped h d s) h.slot a d overrun).1, if_pos (Option.isSome_iff_ne_none.mpr ends),
    reshaped_handleAt hr, restoreGrant_named (g := g) (by unfold State.grantOf at hg ⊢; rw [moved]; exact hg) named,
    setGrant_grants, moved]

end

section
variable {s : State} {h : Handle} {c : Claim} {a : Amendment} (hr : s.resolve h = some c) (ha : c.amend = some a)
include hr ha

theorem completeWalk_amend_stale (past : endedBy (amendedEnd c a) s.now = true) :
    completeWalk (.amend h) none s = amendmentClosed false false c.flyer s (reshaped h (staleClaim c) s) := by
  unfold completeWalk amendmentClosed ungranted
  rw [deliverVerdict_amend_stale (s := leaveQueue s) hr ha past, if_neg Bool.false_ne_true]
  rfl

omit hr ha in
/-- The grant is as it was but for its kind. -/
theorem passed_like (h : Handle) (c : Claim) (a : Amendment) (s : State) : GrantLike c.flyer s (amendedState h.slot c a (reshaped h (amendedClaim c a) s)) :=
  .of_frame (reshaped_frame _) (amendedState_like h.slot c a _)

variable (occupies : c.state.occupying = true) (unended : c.state ≠ .held .overlap true)
include occupies unended

omit ha in
theorem passed_moves : Moves h.slot (amendedClaim c a) (amendedStateOf (reshaped h (amendedClaim c a) s) c a (amendedClaim c a))
    (reshaped h (amendedClaim c a) s) (amendedState h.slot c a (reshaped h (amendedClaim c a) s)) :=
  amendedState_moves (resolve_eq_some.mp (reshaped_at hr _)).2 occupies rfl unended

theorem completeWalk_amend_passed (ahead : ¬ endedBy (amendedEnd c a) s.now = true) : completeWalk (.amend h) none s =
    amendmentClosed (grantOutside s h c.flyer a.newBox) (asksRecheck c a) c.flyer s
      (amendedState h.slot c a (reshaped h (amendedClaim c a) s)) := by
  have handle : (amendedState h.slot c a (reshaped h (amendedClaim c a) s)).handleAt h.slot = h := by
    refine Eq.trans ?_ (reshaped_handleAt hr (amendedClaim c a))
    unfold State.handleAt
    rw [((passed_moves hr occupies unended).goes.2.1.1 h.slot).1]
  have passed : passAmendment h.slot c a (leaveQueue s) =
      amendGrant h.slot c a (amendedState h.slot c a (reshaped h (amendedClaim c a) s)) := rfl
  unfold completeWalk amendmentClosed ungranted
  rw [deliverVerdict_amend_passed (s := leaveQueue s) hr ha ahead, passed, amendGrant_eq, handle,
    (passed_like h c a s).outside h a.newBox]

end

end Sys2Proof.Machine
end

section
/-! PROOF. What the completion of an amendment's walk makes of a state (O22, O23). -/

namespace Sys2Proof.Machine

/-- What every completion of an amendment's walk does: the frame, the entry gone, ADMIT_DONE, the turn, and the claims that a removal and the close free or move. -/
structure AmendmentDone (s t : State) (h : Handle) (f : Flyer) : Prop where
  frame : GrantFrame s t
  gen : ∀ j : Slot, t.slots[j].gen = s.slots[j].gen
  queue : t.admission.queue = (s.admission.queue.drop 1).filter (stillNamed t)
  flags : FlagsRaised 0x001 s t
  turn : TurnKept s t
  grounds : ∀ j : Slot, j ≠ h.slot → groundsTo f (s.claimAt j) (t.claimAt j)

/-- The grants, the channels and the PERMIT lines stay, and every other OVERRUN claim. -/
structure GrantStays (s t : State) (h : Handle) : Prop where
  channels : t.channels = s.channels
  permit : t.lines.permit = s.lines.permit
  overrun : ∀ (j : Slot) (o : Claim), j ≠ h.slot → s.claimAt j = some o → o.state = .overrun → t.claimAt j = some o

section
variable {s : State} {w : Walk} {z : Zone} {h : Handle} {c : Claim} {a : Amendment} (hw : s.admission.walk = some w)
  (hp : w.pos = .zones z) (head : s.admission.queue.head? = some (.amend h)) (hq : QueueLaw s) (hr : s.resolve h = some c)

section
variable {d : Claim} {st : ClaimState} {u : State} (gone asked : Bool) (moves : Moves h.slot d st (reshaped h d s) u)
include hw hp head hq hr moves

theorem amended_done (same : d.state = c.state) : AmendmentDone s (amendmentClosed gone asked d.flyer s u) h d.flyer where
  frame := amended_frame gone asked moves d.flyer
  gen := amended_gen gone asked moves d.flyer
  queue := amended_queue gone asked hq head hr moves d.flyer
  flags := amended_raised gone asked hq head hr moves same
  turn := amended_turn gone asked hq head hr moves hw hp d.flyer
  grounds := fun j other => amended_grounds gone asked hq head hr moves j other d.flyer

omit hw hp in
theorem amended_stays (kept : gone = false) : GrantStays s (amendmentClosed gone asked d.flyer s u) h ∧
    (amendmentClosed gone asked d.flyer s u).grants = u.grants := by
  have closed : ClaimFrame u (amendmentClosed gone asked d.flyer s u) := by
    unfold amendmentClosed
    rw [ungranted_kept gone d.flyer u kept]
    exact (raiseFlag_frame _ _).trans (closeEvent_frame asked s _)
  exact ⟨⟨closed.channels.trans (moves.channels.trans (reshaped_frame d).channels),
    closed.permit.trans (moves.permit.trans (reshaped_frame d).permit),
    fun j o other ho overrun => (amended_overrun gone asked hq head hr moves other ho overrun d.flyer).1 (.inr kept)⟩, closed.grants⟩

end

include hw hp head hq hr in
/-- A refused amendment: all but the claim's amendment and verdict stays, with what the close makes of the others. -/
theorem amendment_stale (ha : c.amend = some a) (occupies : c.state.occupying = true)
    (past : endedBy (amendedEnd c a) s.now = true) (law : OverlapLaw s ∨ ∀ m, c.state ≠ .held .overlap m) :
    ∃ t, completeWalk (.amend h) none s = t ∧ AmendmentDone s t h c.flyer ∧ t.claimAt h.slot = some (staleClaim c) ∧
      t.grants = s.grants ∧ GrantStays s t h ∧ (OverlapLaw s → OverlapsJudged (some h.slot) s t) := by
  have at_slot := (resolve_eq_some.mp hr).2
  have moves : Moves h.slot (staleClaim c) c.state (reshaped h (staleClaim c) s) (reshaped h (staleClaim c) s) :=
    .stay (resolve_eq_some.mp (reshaped_at hr (staleClaim c))).2 occupies
  obtain ⟨stays, grants⟩ := amended_stays head hq hr false false moves rfl
  refine ⟨_, completeWalk_amend_stale hr ha past, amended_done (d := staleClaim c) hw hp head hq hr false false moves rfl, ?_,
    grants.trans (reshaped_frame _).grants, stays, fun ho => ?_⟩
  · by_cases overlap : ∃ m, c.state = .held .overlap m
    · obtain ⟨m, held⟩ := overlap
      have ho := law.resolve_right fun none => none m held
      obtain ⟨unended, beside⟩ := ho.held at_slot held
      subst unended
      exact amended_own_held (d := staleClaim c) false false hq head hr moves ho rfl (by rw [held]; nofun) held beside
    · exact (amended_own_kept (d := staleClaim c) false false hq head hr moves fun _ => .inl rfl).2 fun m held => overlap ⟨m, held⟩
  · exact amended_judged (d := staleClaim c) false false hq head hr moves ho rfl (ho.not_ended _ _ at_slot) fun _ _ => rfl

/-- The state in which a passed amendment's walk ends. -/
def amendmentPassed (h : Handle) (c : Claim) (a : Amendment) (s : State) : State :=
  amendmentClosed (grantOutside s h c.flyer a.newBox) (asksRecheck c a) c.flyer s
    (amendedState h.slot c a (reshaped h (amendedClaim c a) s))

/-- The state of the claim of a passed amendment. -/
def passedState (h : Handle) (c : Claim) (a : Amendment) (s : State) : ClaimState :=
  amendedStateOf (reshaped h (amendedClaim c a) s) c a (amendedClaim c a)

variable (occupies : c.state.occupying = true) (unended : c.state ≠ .held .overlap true)
include head hq hr occupies unended

theorem passed_stays (kept : grantOutside s h c.flyer a.newBox = false) : GrantStays s (amendmentPassed h c a s) h ∧
    (amendmentPassed h c a s).grants = (amendedState h.slot c a (reshaped h (amendedClaim c a) s)).grants :=
  amended_stays (d := amendedClaim c a) head hq hr _ _ (passed_moves hr occupies unended) kept

theorem passed_removed (gone : grantOutside s h c.flyer a.newBox = true) :
    GrantRemoved s (amendmentPassed h c a s) c.flyer .amended ∧
    ∀ (j : Slot) (o : Claim), j ≠ h.slot → s.claimAt j = some o → o.flyer = c.flyer → o.state = .overrun →
      (amendmentPassed h c a s).claimAt j = if s.flyers[c.flyer].grounded = true then none else some o := by
  have moves := passed_moves (a := a) hr occupies unended
  have like := passed_like h c a s
  obtain ⟨g, -, hg, -⟩ := (grantOutside_iff s h c.flyer a.newBox).mp gone
  have granted : (s.grantOf c.flyer).isSome = true := by rw [hg]; rfl
  refine ⟨like.removed ((ungranted_removed _ c.flyer _ gone).to_frame (closeEvent_frame _ s _)) granted,
    fun j o other ho flyer overrun => ?_⟩
  exact (amended_overrun _ _ hq head hr moves other ho overrun c.flyer).2 flyer gone (like.isSome.trans granted)

theorem passed_own (spared : passedState h c a s = .overrun →
      grantOutside s h c.flyer a.newBox = false ∨ s.flyers[c.flyer].grounded = false)
    (not_overlap : ∀ m, passedState h c a s ≠ .held .overlap m) :
    (amendmentPassed h c a s).claimAt h.slot = some { amendedClaim c a with state := passedState h c a s } :=
  (amended_own_kept (d := amendedClaim c a) _ _ hq head hr (passed_moves hr occupies unended) spared).2 not_overlap

theorem passed_own_freed (overrun : passedState h c a s = .overrun) (gone : grantOutside s h c.flyer a.newBox = true)
    (grounded : s.flyers[c.flyer].grounded = true) : (amendmentPassed h c a s).claimAt h.slot = none := by
  obtain ⟨g, -, hg, -⟩ := (grantOutside_iff s h c.flyer a.newBox).mp gone
  have granted : (s.grantOf c.flyer).isSome = true := by rw [hg]; rfl
  exact amended_own_freed (d := amendedClaim c a) _ _ hq head hr (passed_moves hr occupies unended) overrun gone
    ((passed_like h c a s).isSome.trans granted) grounded

theorem passed_own_held (ho : OverlapLaw s) (held : passedState h c a s = .held .overlap false)
    (beside : OverstayedIn s c.flyer (amendedClaim c a).region) :
    (amendmentPassed h c a s).claimAt h.slot = some { amendedClaim c a with state := passedState h c a s } :=
  amended_own_held (d := amendedClaim c a) _ _ hq head hr (passed_moves hr occupies unended) ho rfl
    (by
      show passedState h c a s ≠ _
      rw [held]
      nofun) held beside

theorem passed_judged (ho : OverlapLaw s) (not_ended : passedState h c a s ≠ .held .overlap true) :
    OverlapsJudged (some h.slot) s (amendmentPassed h c a s) := by
  refine amended_judged (d := amendedClaim c a) _ _ hq head hr (passed_moves hr occupies unended) ho rfl not_ended
    fun quiet overstaying => ?_
  have same_box : a.newBox = none := by
    unfold asksRecheck at quiet
    rw [overstaying, Bool.and_true] at quiet
    exact Option.not_isSome_iff_eq_none.mp (by simp [quiet])
  unfold amendedClaim Claim.region
  rw [same_box]
  rfl

include hw hp

theorem passed_done : AmendmentDone s (amendmentPassed h c a s) h c.flyer :=
  amended_done (d := amendedClaim c a) hw hp head hq hr _ _ (passed_moves hr occupies unended) rfl

end

/-- Settles O22: BOOKED or ACTIVE, the claim keeps its state; its grant alone may go. -/
theorem amendmentOfBookedOrActive : Obligations.AmendmentOfBookedOrActive := by
  unfold Obligations.AmendmentOfBookedOrActive
  intro s w h c a hw hp hsub hr ha states runs hq hl clear
  obtain ⟨head, -⟩ := hl.subject_waits hw hsub
  have plain : c.state.occupying = true ∧ c.state.overstaying = false ∧ c.state ≠ .overrun ∧ ∀ cause m, c.state ≠ .held cause m := by
    rcases states with state | state
    all_goals
      rw [state]
      exact ⟨rfl, rfl, nofun, nofun⟩
  obtain ⟨occupies, not_overstaying, not_overrun, not_held⟩ := plain
  have ends : (if a.newEnd = none then c.stop else a.newEnd) = amendedEnd c a := by
    rw [amendedEnd_eq, not_overstaying, if_neg Bool.false_ne_true]
  rw [zoneRead_exec hw hp runs, readZone_last clear rfl, hsub, ends]
  by_cases past : endedBy (amendedEnd c a) s.now = true
  · obtain ⟨t, ht, ⟨frame, gen, queue, flags, turn, grounds⟩, own, grants, ⟨channels, permit, overrun⟩, judged⟩ :=
      amendment_stale hw hp head hq hr ha occupies past (.inr fun m => not_held _ m)
    refine ⟨t, congrArg _ ht, frame, gen, queue, flags, turn, grounds, fun _ _ _ => ⟨own, grants, channels, permit, overrun⟩,
      fun ahead => absurd past (not_endedBy ahead), judged⟩
  · obtain ⟨frame, gen, queue, flags, turn, grounds⟩ := passed_done (a := a) hw hp head hq hr occupies (not_held _ _)
    have plain := amendedState_plain (reshaped h (amendedClaim c a) s) h.slot a (amendedClaim c a) not_overrun
      (fun cause => not_held cause true) (not_held _ _)
    have state : passedState h c a s = c.state := plain.2
    refine ⟨amendmentPassed h c a s, congrArg _ (completeWalk_amend_passed hr ha occupies (not_held _ _) past), frame, gen, queue,
      flags, turn, grounds, fun e he le => absurd ((endedBy_iff _ _).mpr ⟨e, he, le⟩) past, fun _ => ⟨?_, fun gone => ?_, fun inside => ?_⟩,
      fun ho => passed_judged head hq hr occupies (not_held _ _) ho (by rw [state]; exact not_held _ _)⟩
    · have own := passed_own (a := a) head hq hr occupies (not_held _ _) (fun overrun => absurd (state.symm.trans overrun) not_overrun)
        fun m => by rw [state]; exact not_held _ m
      rw [state, amendedClaim_eq, ends] at own
      exact own
    · exact passed_removed head hq hr occupies (not_held _ _) ((grantOutside_iff s h c.flyer a.newBox).mpr gone)
    · have kept : grantOutside s h c.flyer a.newBox = false := by
        rw [Bool.eq_false_iff, Ne, grantOutside_iff]
        rintro ⟨g, b, hg, named, hb, outside⟩
        exact Bool.false_ne_true (outside.symm.trans (inside g b hg named hb))
      obtain ⟨⟨channels, permit, overrun⟩, grants⟩ := passed_stays head hq hr occupies (not_held _ _) kept
      exact ⟨grants.trans (amendedState_grants_kept hr _ a (.inl not_overrun)), channels, permit, overrun⟩

/-! ### OVERRUN and HELD claims -/

/-- A zone's conflict refuses an amendment: the claim's amendment and verdict alone are written (R42). -/
theorem completeWalk_amend_conflict {s : State} {h : Handle} {c : Claim} (v : Verdict) (hq : QueueLaw s)
    (head : s.admission.queue.head? = some (.amend h)) (hr : s.resolve h = some c) (occupies : c.state.occupying = true) :
    ∃ t, completeWalk (.amend h) (some v) s = t ∧ ClaimFrame s t ∧ OthersClose s t h.slot ∧ t.arbiter = s.arbiter ∧
      t.admission.queue = s.admission.queue.drop 1 ∧ t.attention = raisedBy 0x001 s.attention ∧
      t.claimAt h.slot = some { c with amend := none, verdict := some v } := by
  have delivered := deliverVerdict_amend_refused (s := leaveQueue s) hr v
  obtain ⟨not_queued, not_checking⟩ := occupying_not_waiting occupies
  obtain ⟨t, ht, frame, own, others, queue, attention⟩ := completeWalk_write hq head rfl (resolve_eq_some.mp hr).2 delivered
    (fun stays => ⟨stays, rfl, rfl⟩) not_queued not_checking
  refine ⟨t, ht, frame, others, ?_, queue, attention, own⟩
  rw [← ht, completeWalk_arbiter, delivered]
  rfl

section
variable {s : State} {h : Handle} {c : Claim} {a : Amendment}

theorem passedState_overrun (overrun : c.state = .overrun) :
    (a.newEnd ≠ none → passedState h c a s = .active) ∧ (a.newEnd = none → passedState h c a s = c.state) := by
  have state := (amendedState_overrun (reshaped h (amendedClaim c a) s) h.slot a (amendedClaim c a) overrun).2
  refine ⟨fun ends => state.trans (if_pos (Option.isSome_iff_ne_none.mpr ends)), fun none => state.trans ?_⟩
  rw [none, overrun]
  rfl

theorem passedState_ended {cause : HeldCause} (held : c.state = .held cause true) :
    (a.newEnd ≠ none → passedState h c a s = .held cause false) ∧ (a.newEnd = none → passedState h c a s = c.state) := by
  have state := (amendedState_ended (reshaped h (amendedClaim c a) s) h.slot a (amendedClaim c a) held).2
  refine ⟨fun ends => state.trans (if_pos (Option.isSome_iff_ne_none.mpr ends)), fun none => state.trans ?_⟩
  rw [none, held]
  rfl

theorem passedState_held {cause : HeldCause} (held : c.state = .held cause false) (other : cause ≠ .overlap) :
    passedState h c a s = c.state := by
  refine (amendedState_plain (reshaped h (amendedClaim c a) s) h.slot a (amendedClaim c a) ?_ (fun _ ended => ?_) ?_).2
  · rw [held]
    nofun
  · exact absurd (held.symm.trans ended) (by simp)
  · rw [held]
    intro overlap
    cases overlap
    exact other rfl

theorem passedState_overlap (hr : s.resolve h = some c) (held : c.state = .held .overlap false) :
    (OverstayedIn s c.flyer (amendedClaim c a).region → passedState h c a s = c.state) ∧
    (¬ OverstayedIn s c.flyer (amendedClaim c a).region → passedState h c a s =
      if s.flyers[c.flyer].breach = none then .active else .held .breach false) := by
  have state := (amendedState_overlap (reshaped h (amendedClaim c a) s) h.slot a (amendedClaim c a) held).2
  have beside := (overlapsOverstayer_iff (reshaped h (amendedClaim c a) s) c.flyer (amendedClaim c a).region).trans
    (reshaped_overstayed (d := amendedClaim c a) hr rfl _)
  have breached : (reshaped h (amendedClaim c a) s).breached c.flyer = true ↔ s.flyers[c.flyer].breach ≠ none := breached_iff s c.flyer
  refine ⟨fun overstayed => state.trans ?_, fun clear => state.trans ?_⟩
  · rw [held]
    exact if_pos (beside.mpr overstayed)
  · refine (if_neg (mt beside.mp clear)).trans ?_
    by_cases unbreached : s.flyers[c.flyer].breach = none
    · exact (if_neg (mt breached.mp (not_not_intro unbreached))).trans (if_pos unbreached).symm
    · exact (if_pos (breached.mpr unbreached)).trans (if_neg unbreached).symm

end

/-- Settles O23: the zone's conflict, the end that has come, and the states an amendment passes to. -/
theorem amendmentOfOverrunOrHeld : Obligations.AmendmentOfOverrunOrHeld := by
  unfold Obligations.AmendmentOfOverrunOrHeld
  refine ⟨fun s w z h c hw hp hsub hr runs hq hl conflict => ?_,
    fun s w h c d a gone hw hp hsub hr ha states runs hq hl ho clear hd hgone => ?_⟩
  · obtain ⟨head, waits⟩ := hl.subject_waits hw hsub
    rw [zoneRead_exec hw hp runs, readZone_conflict conflict, hsub]
    obtain ⟨t, ht, rest⟩ := completeWalk_amend_conflict (.zone z) hq head hr (hq.amend_occupying hr waits)
    exact ⟨t, congrArg _ ht, rest⟩
  · obtain ⟨head, waits⟩ := hl.subject_waits hw hsub
    have at_slot := (resolve_eq_some.mp hr).2
    have occupies := hq.amend_occupying hr waits
    have unended := ho.not_ended _ _ at_slot
    rw [zoneRead_exec hw hp runs, readZone_last clear rfl, hsub, ← amendedEnd_eq]
    by_cases past : endedBy (amendedEnd c a) s.now = true
    · obtain ⟨t, ht, ⟨frame, gen, queue, flags, turn, grounds⟩, own, grants, ⟨channels, permit, overrun⟩, judged⟩ :=
        amendment_stale hw hp head hq hr ha occupies past (.inl ho)
      exact ⟨t, congrArg _ ht, frame, gen, queue, flags, turn, grounds, judged ho,
        fun _ _ _ => ⟨own, grants, channels, permit, overrun⟩, fun ahead => absurd past (not_endedBy ahead)⟩
    · obtain ⟨frame, gen, queue, flags, turn, grounds⟩ := passed_done (a := a) hw hp head hq hr occupies unended
      have shape : amendedClaim c a = d := (amendedClaim_eq c a).trans hd.symm
      have outside : gone ↔ grantOutside s h c.flyer a.newBox = true := hgone.trans (grantOutside_iff s h c.flyer a.newBox).symm
      have kept (stays : ¬ gone) : grantOutside s h c.flyer a.newBox = false := Bool.eq_false_iff.mpr (mt outside.mpr stays)
      have not_ended : passedState h c a s ≠ .held .overlap true :=
        (passed_moves hr occupies unended).still.elim (fun same ended => unended (same.symm.trans ended)) fun moved => moved.2 true
      have owns {st : ClaimState} (state : passedState h c a s = st) (spared : st = .overrun → ¬ gone ∨ s.flyers[c.flyer].grounded = false)
          (not_overlap : st ≠ .held .overlap false) : (amendmentPassed h c a s).claimAt h.slot = some { d with state := st } := by
        subst state
        rw [← shape]
        refine passed_own head hq hr occupies unended (fun overrun => (spared overrun).imp_left kept) fun m => ?_
        cases m with
        | false => exact not_overlap
        | true => exact not_ended
      have owns_same (state : passedState h c a s = c.state) (spared : c.state = .overrun → ¬ gone ∨ s.flyers[c.flyer].grounded = false)
          (not_overlap : c.state ≠ .held .overlap false) : (amendmentPassed h c a s).claimAt h.slot = some d := by
        rw [owns state spared not_overlap, ← shape]
        rfl
      refine ⟨amendmentPassed h c a s, congrArg _ (completeWalk_amend_passed hr ha occupies unended past), frame, gen, queue,
        flags, turn, grounds, passed_judged head hq hr occupies unended ho not_ended,
        fun e he le => absurd ((endedBy_iff _ _).mpr ⟨e, he, le⟩) past, fun _ => ⟨fun overrun ends => ?_, fun overrun none left grounded => ?_,
        fun overrun none spared => ?_, fun cause held ends => ?_, fun cause held none => ?_, fun cause held other => ?_,
        fun held beside => ?_, fun held clear => ?_, fun left => ?_, fun stays => ?_, fun stays => ?_⟩⟩
      · exact owns ((passedState_overrun overrun).1 ends) nofun nofun
      · exact passed_own_freed head hq hr occupies unended (((passedState_overrun overrun).2 none).trans overrun) (outside.mp left) grounded
      · exact owns_same ((passedState_overrun overrun).2 none) (fun _ => spared) (by rw [overrun]; nofun)
      · refine owns ((passedState_ended held).1 ends) nofun fun overlap => ?_
        cases overlap
        exact unended held
      · refine owns_same ((passedState_ended held).2 none) (fun overrun => absurd (held.symm.trans overrun) nofun) fun overlap => ?_
        exact absurd (held.symm.trans overlap) (by simp)
      · refine owns_same (passedState_held held other) (fun overrun => absurd (held.symm.trans overrun) nofun) fun overlap => ?_
        cases held.symm.trans overlap
        exact other rfl
      · rw [← shape] at beside
        have state := (passedState_overlap hr held).1 beside
        rw [passed_own_held head hq hr occupies unended ho (state.trans held) beside, state, ← shape]
        rfl
      · rw [← shape] at clear
        refine owns ((passedState_overlap hr held).2 clear) (fun overrun => ?_) ?_
        · split at overrun <;> exact absurd overrun nofun
        · split <;> nofun
      · exact passed_removed head hq hr occupies unended (outside.mp left)
      · exact (passed_stays head hq hr occupies unended (kept stays)).1.overrun
      · obtain ⟨⟨channels, permit, -⟩, grants⟩ := passed_stays head hq hr occupies unended (kept stays)
        exact ⟨channels, permit, fun g hg named overrun ends => grants.trans (amendedState_grants_restored hr _ hg named overrun ends),
          fun same => grants.trans (amendedState_grants_kept hr _ a same)⟩

end Sys2Proof.Machine
end

section
/-! PROOF. An event that frees a grounded flyer's OVERRUN claims, and its close: an expired lease, a lost channel, a lawful report (O31, O32, O36). -/

namespace Sys2Proof.Machine

/-! ## OVERRUN claims freed, and the close (R13, R15) -/

/-- From s to u no claim went but OVERRUN ones of f, with their entries and their flags. -/
structure Freeing (f : Flyer) (s u : State) : Prop where
  settles : Settles s u
  follows : Follows s u
  goes : WalkGoes s u
  expired : OnlyExpired s u
  grounds : ∀ j : Slot, u.claimAt j = s.claimAt j ∨
    (u.claimAt j = none ∧ ∃ d : Claim, s.claimAt j = some d ∧ d.flyer = f ∧ d.state = .overrun)
  flyers : u.flyers = s.flyers

theorem Freeing.refl (f : Flyer) (s : State) : Freeing f s s :=
  ⟨.refl s, .refl s, .refl s, .refl s, fun _ => .inl rfl, rfl⟩

theorem removeGrant_freeing (f : Flyer) (r : Reason) (s : State) : Freeing f s (removeGrant f r s) :=
  ⟨removeGrant_settles f r s, removeGrant_follows f r s, removeGrant_goes f r s, removeGrant_expired f r s,
    removeGrant_grounds f r s, (removeGrant_frame f r s).flyers⟩

theorem groundedEvent_freeing (f : Flyer) (s : State) : Freeing f s (groundedEvent f s) := by
  refine ⟨groundedEvent_settles f s, groundedEvent_follows f s, groundedEvent_goes f s, groundedEvent_expired f s, fun j => ?_,
    (groundedEvent_frame f s).flyers⟩
  rw [groundedEvent_claimAt]
  cases hc : s.claimAt j with
  | none => exact .inl rfl
  | some d =>
    rw [Option.filter_some]
    by_cases spared : (decide (d.flyer = f) && decide (d.state = .overrun) && !s.grantNames f (s.handleAt j)) = true
    · refine .inr ⟨if_neg (by simp [spared]), d, rfl, ?_⟩
      simp only [Bool.and_eq_true, decide_eq_true_eq] at spared
      exact spared.1
    · exact .inl (if_pos (by simp [Bool.eq_false_iff.mpr spared]))

/-- From s to t, what an event with such freeings and its close do. -/
structure Freed (f : Flyer) (s t : State) : Prop where
  flags : FlagsRaised 0 s t
  judged : OverlapLaw s → OverlapsJudged none s t
  queue : QueueFollows s t
  turn : TurnKept s t
  claims : ∀ j : Slot, t.slots[j].gen = s.slots[j].gen ∧ groundsTo f (s.claimAt j) (t.claimAt j)

section
variable {f : Flyer} {s u r : State} (free : Freeing f s u) (hq : QueueLaw s)
include free hq

theorem Freeing.closed (slots : r.slots = s.slots) : Freed f s (closeEvent false r u) where
  flags := by
    refine free.expired.1.trans (n := 0) (closeEvent_raised (free.settles.headFits hq) false r) fun j => ?_
    refine (free.grounds j).imp_right fun ⟨gone, _⟩ => ?_
    have closed := closeEvent_closes (free.settles.headFits hq) false r j
    rw [gone] at closed
    exact closed.none_left.trans gone.symm
  judged := fun ho => by
    have claims (j : Slot) (d : Claim) (hd : u.claimAt j = some d) : s.claimAt j = some d := by
      rcases free.grounds j with kept | ⟨gone, -⟩
      · exact kept ▸ hd
      · exact absurd (gone.symm.trans hd) nofun
    refine closeEvent_judged ho (free.settles.headFits hq) (fun f => by rw [free.flyers]) (fun j d _ hd overlap => ?_)
      (fun j d hd => ho.not_ended j d (claims j d hd)) (fun i overstays => ?_) (fun _ j d e hd _ he _ => ?_)
    · rcases free.grounds j with kept | ⟨-, x, hx, -, overrun⟩
      · exact kept.trans hd
      · cases hd.symm.trans hx
        exact absurd (overlap.symm.trans overrun) nofun
    · unfold State.overstayingAt at overstays ⊢
      rw [claimAt_congr slots]
      exact overstays
    · cases hd.symm.trans (claims j e he)
      exact ⟨rfl, rfl⟩
  queue := (free.follows.trans (closeEvent_follows false r u)).queue hq
  turn := (free.goes.turn free.follows hq).close false r
  claims := fun j => ⟨(closeEvent_gen false r u j).trans (free.follows.1 j).1,
    .of_close (free.grounds j) (closeEvent_closes (free.settles.headFits hq) false r j)⟩

/-- The close neither moves an OVERRUN claim nor brings a freed one back. -/
theorem Freeing.overrun_closed {j : Slot} {d : Claim} (hd : s.claimAt j = some d) (overrun : d.state = .overrun) :
    (closeEvent false r u).claimAt j = u.claimAt j := by
  have closed := closeEvent_closes (free.settles.headFits hq) false r j
  rcases free.grounds j with kept | ⟨gone, -⟩
  · rw [kept, hd] at closed ⊢
    exact closed.stays (by simp [overrun]) (by simp [overrun])
  · rw [gone] at closed ⊢
    exact closed.none_left

end

/-- Two states alike in all that such an event and its close are told by. -/
structure FreedAlike (s v : State) : Prop where
  slots : v.slots = s.slots
  admission : v.admission = s.admission
  arbiter : v.arbiter = s.arbiter
  attention : v.attention = s.attention
  flyers : v.flyers = s.flyers
  running : v.running = s.running

/-- The judgement reads the claims and the breach records alone. -/
theorem OverlapsJudged.of_alike {own : Option Slot} {s v t : State} (slots : v.slots = s.slots)
    (breach : ∀ f : Flyer, v.flyers[f].breach = s.flyers[f].breach) (judged : OverlapLaw v → OverlapsJudged own v t) :
    OverlapLaw s → OverlapsJudged own s t := by
  intro ho
  have claim (j : Slot) : v.claimAt j = s.claimAt j := claimAt_congr slots j
  have beside (f : Flyer) (region : Box) : v.overlapsOverstayer f region = s.overlapsOverstayer f region :=
    overlapsOverstayer_congr (fun j c _ => by rw [claim]) f region
  have law : OverlapLaw v := by
    unfold OverlapLaw at ho ⊢
    simp only [claim, beside]
    exact ho
  intro j c own hc overlap
  rw [← breach]
  exact judged law j c own ((claim j).trans hc) overlap

theorem Freed.of_alike {f : Flyer} {s v t : State} (alike : FreedAlike s v) (h : Freed f v t) : Freed f s t := by
  obtain ⟨slots, admission, arbiter, attention, flyers, running⟩ := alike
  obtain ⟨flags, judged, queue, turn, claims⟩ := h
  have claim (j : Slot) : v.claimAt j = s.claimAt j := claimAt_congr slots j
  refine ⟨?_, OverlapsJudged.of_alike slots (fun f => by rw [flyers]) judged, ?_, ?_, fun j => ?_⟩
  · unfold FlagsRaised at flags ⊢
    have same : movedFlags v t = movedFlags s t := movedFlags_congr fun j => by rw [claim]
    rw [flags, attention, same]
  · unfold QueueFollows at queue ⊢
    rw [queue, admission]
  · unfold TurnKept CountKept WalkWithdrawn WalkLaw at turn ⊢
    rw [admission, arbiter, running] at turn
    exact turn
  · rw [← claim, ← gen_congr slots j]
    exact claims j

theorem elapse_alike (d : Nat) (s : State) : FreedAlike s (elapse d s) :=
  ⟨elapse_slots d s, elapse_admission d s, elapse_arbiter d s, elapse_attention d s, elapse_flyers d s, elapse_running d s⟩

/-! ## A lease runs out (R108) -/

/-- Settles O32: the grant removed, and the event closed. -/
theorem leaseExpiry : Obligations.LeaseExpiry := by
  unfold Obligations.LeaseExpiry
  have expiry (f : Flyer) (s : State) : exec (.leaseExpiry f) s = execLeaseExpiry f s := rfl
  refine ⟨fun s f halted => ?_, fun s f runs => ⟨fun g u hg hu hq => ?_, fun none => ?_⟩⟩
  · rw [expiry, execLeaseExpiry, Bool.eq_false_iff.mpr (mt (runs_iff s).mpr halted)]
    split <;> rfl
  · have taken : exec (.leaseExpiry f) s = .next (expireGrant f u) := by
      rw [expiry, execLeaseExpiry, hg, hu]
      exact if_pos ((runs_iff s).mp runs)
    have alike : FreedAlike s u := hu ▸ elapse_alike g.lease s
    have law : QueueLaw u := hu ▸ elapse_queueLaw g.lease hq
    have free := removeGrant_freeing f .expired u
    obtain ⟨flags, judged, queue, turn, claims⟩ := Freed.of_alike alike (free.closed law rfl)
    have granted : (u.grantOf f).isSome = true := by
      rw [hu, elapse_grantOf_isSome, hg]
      rfl
    refine ⟨_, taken, (removeGrant_frame f .expired u).trans (closeEvent_frame false u _).grant,
      (removeGrant_removed f .expired u).to_frame (closeEvent_frame false u _), flags, judged, queue, turn, claims,
      fun j d hd flyer overrun => ?_⟩
    have at_u : u.claimAt j = some d := (claimAt_congr alike.slots j).trans hd
    have after := free.overrun_closed (r := u) law at_u overrun
    rw [removeGrant_claimAt, at_u, granted] at after
    have grounds : u.groundedFlyer f = s.flyers[f].grounded := by rw [State.groundedFlyer, alike.flyers]
    rw [grounds] at after
    refine ⟨fun grounded => after.trans ?_, fun airborne => after.trans ?_⟩
    · rw [if_pos ⟨rfl, grounded⟩]
      simp [flyer, overrun]
    · rw [airborne, if_neg fun all => Bool.false_ne_true all.2]
  · rw [expiry, execLeaseExpiry, none]

/-! ## A channel falls silent (R88, R89) -/

/-- The state a lost channel leaves before its grant goes: LOST, and the alert recorded. -/
def lostRecorded (c : Flyer) (u : State) : State := recordAlert (.lost c) (u.setChannel c { u.channels[c] with state := .lost })

theorem awaitSilence_eq {s : State} {c : Flyer} {n : Nat} (at_n : s.channels[c].timer = some n) (t : Nat) :
    awaitSilence c t s = elapse (t - n) s := by
  unfold awaitSilence
  rw [at_n]
  rfl

theorem execLateExpiry_idle {s : State} {c : Flyer} (h : ¬ Runs s ∨ s.channels[c].state ≠ .live) :
    exec (.lateExpiry c) s = .next s := by
  refine if_neg fun all => ?_
  rw [Bool.and_eq_true, Bool.and_eq_true, decide_eq_true_eq] at all
  obtain ⟨⟨running, live⟩, -⟩ := all
  exact h.elim (fun halted => halted ((runs_iff s).mpr running)) fun other => other live

theorem execLostExpiry_idle {s : State} {c : Flyer} (h : ¬ Runs s ∨ s.channels[c].state ≠ .live ∧ s.channels[c].state ≠ .late) :
    exec (.lostExpiry c) s = .next s := by
  refine if_neg fun all => ?_
  rw [Bool.and_eq_true, Bool.and_eq_true, Bool.or_eq_true, decide_eq_true_eq, decide_eq_true_eq] at all
  obtain ⟨⟨running, silent⟩, -⟩ := all
  exact h.elim (fun halted => halted ((runs_iff s).mpr running)) fun other => silent.elim other.1 other.2

section
variable (c : Flyer) (u : State)

theorem lostRecorded_frame : GrantFrame { u with alert := (lostRecorded c u).alert } (lostRecorded c u) := rfl

theorem lostRecorded_alert : (lostRecorded c u).alert = alertAfter u.alert { cause := .lost c, tick := u.now } := rfl

theorem lostRecorded_alike : FreedAlike u (lostRecorded c u) := ⟨rfl, rfl, rfl, rfl, rfl, rfl⟩

/-- What a removal leaves of the other channels, and of the flyer's state and report timer. -/
theorem GrantRemoved.channels {s t : State} {f : Flyer} {r : Reason} (h : GrantRemoved s t f r) :
    t.channels[f].state = s.channels[f].state ∧ t.channels[f].timer = s.channels[f].timer ∧
      ∀ d : Flyer, d ≠ f → t.channels[d] = s.channels[d] := by
  cases hg : s.grantOf f with
  | none => rw [(h.1 hg).2.1]; exact ⟨rfl, rfl, fun _ _ => rfl⟩
  | some g =>
    have set : ∀ d : Flyer, t.channels[d] = if f = d then { s.channels[f] with out := s.channels[f].out ++ [.revoke g.seq r] }
        else s.channels[d] := fun d => by
      rw [(h.2 g hg).2.1]
      exact setChannel_get s f d _
    rw [set f, if_pos rfl]
    exact ⟨rfl, rfl, fun d other => (set d).trans (if_neg other.symm)⟩

end

/-- Settles O31: the two expiries of the report timer, and nothing in another state or while the part does not run. -/
theorem reportTimerExpiries : Obligations.ReportTimerExpiries := by
  unfold Obligations.ReportTimerExpiries
  refine ⟨fun s c runs => ⟨fun n u live at_n hu => ?_, fun other => execLateExpiry_idle (.inr other)⟩,
    fun s c runs => ⟨fun n u silent at_n hu hq => ?_, fun h1 h2 => execLostExpiry_idle (.inr ⟨h1, h2⟩)⟩,
    fun s c halted => ⟨execLateExpiry_idle (.inl halted), execLostExpiry_idle (.inl halted)⟩⟩
  · have taken : exec (.lateExpiry c) s = .next (lateChannel c u) := by
      refine (if_pos (by rw [(runs_iff s).mp runs, live, at_n]; rfl)).trans ?_
      rw [awaitSilence_eq at_n, hu]
      rfl
    have alike : FreedAlike s u := hu ▸ elapse_alike (30000 - n) s
    have level : alertLevel (u.setChannel c { u.channels[c] with state := .late }) = alertLevel s := by
      rw [← alertLevel_elapse (30000 - n) s, ← hu]
      rfl
    refine ⟨_, taken, raiseFlag_frame .channelLate (u.setChannel c { u.channels[c] with state := .late }), alike.slots,
      alike.admission, alike.arbiter, ?_, rfl, level⟩
    exact (raiseFlag_attention .channelLate (u.setChannel c _)).trans (congrArg (raisedBy 0x020) alike.attention)
  · have taken : exec (.lostExpiry c) s = .next (loseChannel c u) := by
      refine (if_pos (by rw [(runs_iff s).mp runs, at_n]; rcases silent with state | state <;> rw [state] <;> rfl)).trans ?_
      rw [awaitSilence_eq at_n, hu]
      rfl
    have alike : FreedAlike s u := hu ▸ elapse_alike (60000 - n) s
    have law : QueueLaw (lostRecorded c u) := show QueueLaw u from hu ▸ elapse_queueLaw (60000 - n) hq
    have free := removeGrant_freeing c .lost (lostRecorded c u)
    have freed := free.closed (r := u) law rfl
    obtain ⟨flags, judged, queue, turn, claims⟩ := Freed.of_alike alike (freed.of_alike (lostRecorded_alike c u))
    have frame : GrantFrame (lostRecorded c u) (loseChannel c u) :=
      (removeGrant_frame c .lost (lostRecorded c u)).trans (closeEvent_frame false u _).grant
    have alert : (loseChannel c u).alert = alertAfter s.alert { cause := .lost c, tick := s.now } := by
      rw [frame.alert, lostRecorded_alert, hu, elapse_alert, elapse_now]
    have removed : GrantRemoved (lostRecorded c u) (loseChannel c u) c .lost :=
      (removeGrant_removed c .lost (lostRecorded c u)).to_frame (closeEvent_frame false u _)
    have recorded (d : Flyer) : (lostRecorded c u).channels[d] =
        if c = d then { u.channels[c] with state := .lost } else u.channels[d] := setChannel_get u c d _
    obtain ⟨state, timer, others⟩ := removed.channels
    rw [recorded, if_pos rfl] at state timer
    refine ⟨_, taken, ?_, state, timer, fun d other => (others d other).trans ((recorded d).trans (if_neg other.symm)), ?_, ?_, ?_,
      removed, flags, judged, queue, turn, claims, fun j d hd flyer overrun => ?_⟩
    · rw [frame.alert]
      exact (lostRecorded_frame c u).trans frame
    · rw [alert]
    · rw [alert]
    · rw [alert]
    · have at_u : (lostRecorded c u).claimAt j = some d := (claimAt_congr alike.slots j).trans hd
      have after : (loseChannel c u).claimAt j = _ := free.overrun_closed (r := u) law at_u overrun
      have granted : ((lostRecorded c u).grantOf c).isSome = (s.grantOf c).isSome := by
        show (u.grantOf c).isSome = _
        rw [hu, elapse_grantOf_isSome]
      have grounds : (lostRecorded c u).groundedFlyer c = s.flyers[c].grounded := by
        show u.flyers[c].grounded = _
        rw [alike.flyers]
      rw [removeGrant_claimAt, at_u, granted, grounds] at after
      refine ⟨fun grounded held => after.trans ?_, fun spared => after.trans (if_neg ?_)⟩
      · rw [if_pos ⟨Option.isSome_iff_ne_none.mpr held, grounded⟩]
        simp [flyer, overrun]
      · rintro ⟨held, grounded⟩
        rcases spared with airborne | none
        · exact Bool.false_ne_true (airborne.symm.trans grounded)
        · rw [none] at held
          exact absurd held Bool.false_ne_true

end Sys2Proof.Machine
end

section
/-! PROOF. A lawful report at its service (O36). -/

namespace Sys2Proof.Machine

/-- The state a lawful report leaves before a grounded event: the turn served, the frame taken, the channel live again, the flyer's record stored. -/
def reported (c : Flyer) (rest : List InFrame) (cell : Cell) (grounded : Bool) (s : State) : State :=
  { s with
    arbiter := { lastServed := c, walkCount := if s.walkWaiting = true then s.arbiter.walkCount + 1 else 0 }
    channels := s.channels.set c
      { s.channels[c] with
        state := if s.channels[c].state = .lost then .lost else .live
        timer := some 0
        inbound := rest }
    flyers := s.flyers.set c { s.flyers[c] with position := some cell, grounded := grounded } }

theorem channelReport_setChannel (c : Flyer) (r : Channel) (s : State) : channelReport c (s.setChannel c r) =
    s.setChannel c { r with state := if r.state = .lost then .lost else .live, timer := some 0 } := by
  unfold channelReport
  rw [setChannel_self, setChannel_setChannel]

section
variable {s : State} {c : Flyer} {x y z fl : Byte} {rest : List InFrame}
  (hi : s.channels[c].inbound = .report x y z fl :: rest)
include hi

theorem dropHead_serveChannel_report :
    dropHead c (serveChannel c s) = (serveChannel c s).setChannel c { s.channels[c] with inbound := rest } := by
  show (serveChannel c s).setChannel c { s.channels[c] with inbound := s.channels[c].inbound.drop 1 } = _
  rw [hi, List.drop_one, List.tail_cons]

theorem storeReport_served (cell : Cell) (grounded : Bool) :
    storeReport c cell grounded (channelReport c (dropHead c (serveChannel c s))) = reported c rest cell grounded s := by
  rw [dropHead_serveChannel_report hi, channelReport_setChannel]
  rfl

theorem judgeReport_served (cell : Cell) (grounded : Bool) :
    judgeReport c cell grounded (dropHead c (serveChannel c s)) = judgeReport c cell grounded s := by
  rw [dropHead_serveChannel_report hi]
  exact judgeReport_congr c cell grounded rfl rfl rfl rfl

theorem report_exec_lawful (hg : s.grantsChannel c = true)
    (lawful : judgeReport c (cellOf x y z) (fl.getLsbD 0) s = none) : exec (.report c) s = .next (closeEvent false s
      (if fl.getLsbD 0 = true then groundedEvent c (reported c rest (cellOf x y z) (fl.getLsbD 0) s)
        else reported c rest (cellOf x y z) (fl.getLsbD 0) s)) := by
  rw [report_exec hi hg]
  unfold handleReport
  rw [judgeReport_served hi, lawful, storeReport_served hi]
  rfl

end

/-- Settles O36: the report stored, the grounded event where it tells of one, and the close. -/
theorem lawfulReport : Obligations.LawfulReport := by
  unfold Obligations.LawfulReport
  intro s c x y z fl rest runs hq hl hi hg lawful
  rw [report_exec_lawful hi hg lawful]
  have served (grounded : Bool) : ClaimFrame { s with
      channels := s.channels.set c
        { s.channels[c] with
          state := if s.channels[c].state = .lost then .lost else .live
          timer := some 0
          inbound := rest }
      flyers := s.flyers.set c { s.flyers[c] with position := some (cellOf x y z), grounded := grounded } }
      (reported c rest (cellOf x y z) grounded s) := rfl
  have law (grounded : Bool) : QueueLaw (reported c rest (cellOf x y z) grounded s) := hq
  have breach (grounded : Bool) (f : Flyer) :
      (reported c rest (cellOf x y z) grounded s).flyers[f].breach = s.flyers[f].breach := by
    refine (congrArg FlyerRec.breach (setFlyer_get s c f _)).trans ?_
    split
    · next own => rw [own]
    · rfl
  cases fl.getLsbD 0 with
  | false =>
    have quiet : ceasedOverstay s (reported c rest (cellOf x y z) false s) = false := ceasedOverstay_same rfl
    have walked : beginHead (reported c rest (cellOf x y z) false s) = reported c rest (cellOf x y z) false s :=
      beginHead_walked hl rfl rfl
    have stays := (closeEvent_quiet quiet).trans walked
    have freed := (Freeing.refl c (reported c rest (cellOf x y z) false s)).closed (r := s) (law false) rfl
    rw [if_neg Bool.false_ne_true]
    rw [stays] at freed ⊢
    exact ⟨_, rfl, served false, rfl, freed.turn.2, freed.flags,
      .of_alike (v := reported c rest (cellOf x y z) false s) rfl (breach false) freed.judged, freed.queue, fun j => (freed.claims j).1,
      fun _ => ⟨rfl, rfl, rfl, rfl, rfl⟩,
      fun grounded => absurd grounded Bool.false_ne_true⟩
  | true =>
    have free := groundedEvent_freeing c (reported c rest (cellOf x y z) true s)
    have freed := free.closed (r := s) (law true) rfl
    rw [if_pos rfl]
    refine ⟨_, rfl, (served true).trans ((groundedEvent_frame c _).trans (closeEvent_frame false s _)), freed.turn.1, freed.turn.2,
      freed.flags,
      .of_alike (v := reported c rest (cellOf x y z) true s) rfl (breach true) freed.judged, freed.queue, fun j => (freed.claims j).1, fun airborne => absurd airborne.symm Bool.false_ne_true, fun _ j => ⟨(freed.claims j).2,
        fun d hd flyer overrun => ?_⟩⟩
    have after := free.overrun_closed (r := s) (law true) hd overrun
    have names : (reported c rest (cellOf x y z) true s).grantNames c (s.handleAt j) = true ↔
        ∃ g, s.grantOf c = some g ∧ g.claim = s.handleAt j := grantNames_iff _ c _
    have handle : (reported c rest (cellOf x y z) true s).handleAt j = s.handleAt j := rfl
    have at_j : (reported c rest (cellOf x y z) true s).claimAt j = some d := hd
    rw [groundedEvent_claimAt, at_j, handle, Option.filter_some, flyer, overrun, decide_eq_true rfl,
      decide_eq_true rfl] at after
    refine ⟨fun named => after.trans ?_, fun unnamed => after.trans ?_⟩
    · rw [names.mpr named]
      rfl
    · rw [Bool.eq_false_iff.mpr (mt names.mp fun ⟨g, hg, named⟩ => unnamed g hg named)]
      rfl

end Sys2Proof.Machine
end

section
/-! PROOF. The pushes of a hold: HOLD, the STOP line and the RING line (O38). -/

namespace Sys2Proof.Machine

/-! ## The alert record written before or after the close (R171) -/

/-- The alert record in another state, and the lines that follow it. -/
def alerted (a : AlertRecord) (s : State) : State := driveLines { s with alert := a }

section
variable (a : AlertRecord)

theorem moveClaim_alerted (i : Slot) (st : ClaimState) (s : State) :
    moveClaim i st (alerted a s) = alerted a (moveClaim i st s) := by
  have claim : (alerted a s).claimAt i = s.claimAt i := rfl
  have walk : (alerted a s).admission.walk = s.admission.walk := rfl
  have handle : (alerted a s).handleAt i = s.handleAt i := rfl
  unfold moveClaim
  rw [claim, walk, handle]
  cases s.claimAt i with
  | none => rfl
  | some c =>
    dsimp only
    split <;> rfl

theorem releaseOverlap_alerted (i : Slot) (s : State) : releaseOverlap i (alerted a s) = alerted a (releaseOverlap i s) := by
  have claim : (alerted a s).claimAt i = s.claimAt i := rfl
  have beside (f : Flyer) (b : Box) : (alerted a s).overlapsOverstayer f b = s.overlapsOverstayer f b := rfl
  have breached (f : Flyer) : (alerted a s).breached f = s.breached f := rfl
  unfold releaseOverlap
  simp only [claim, beside, breached, moveClaim_alerted]
  cases s.claimAt i with
  | none => rfl
  | some c =>
    dsimp only
    split
    · split
      · rfl
      · split <;> rfl
    · rfl

theorem recheck_alerted (s : State) : recheck (alerted a s) = alerted a (recheck s) := by
  unfold recheck
  generalize allSlots = slots
  induction slots generalizing s with
  | nil => rfl
  | cons i slots ih => rw [List.foldl_cons, List.foldl_cons, releaseOverlap_alerted, ih]

theorem beginHead_alerted (s : State) : beginHead (alerted a s) = alerted a (beginHead s) := by
  have running : (alerted a s).running = s.running := rfl
  have admission : (alerted a s).admission = s.admission := rfl
  unfold beginHead
  rw [running, admission]
  split
  · cases s.admission.queue with
    | nil => rfl
    | cons e l =>
      cases e with
      | book h =>
        have named : (formWalk (.book h) (alerted a s)).resolve h = (formWalk (.book h) s).resolve h := rfl
        dsimp only [checkSubject]
        rw [named]
        cases (formWalk (.book h) s).resolve h <;> rfl
      | amend h => rfl
      | zone z => rfl
  · rfl

theorem closeEvent_alerted (asked : Bool) (r s : State) : closeEvent asked r (alerted a s) = alerted a (closeEvent asked r s) := by
  have ceased : ceasedOverstay r (alerted a s) = ceasedOverstay r s := rfl
  unfold closeEvent
  rw [ceased, recheck_alerted]
  split <;> exact beginHead_alerted a _

/-- A push does not ask for the alert record, nor does it write it. -/
theorem Pushed.alerted {u t : State} {src : HoldSource} (h : Pushed u t src) : Pushed (alerted a u) (alerted a t) src := by
  obtain ⟨present, absent⟩ := h
  refine ⟨fun held => congrArg (Machine.alerted a) (present held), fun free => ?_⟩
  obtain ⟨frame, pushes⟩ := absent free
  have framed (x : State) : HoldFrame (Machine.alerted a u) (Machine.alerted a (u.withHoldsOf x)) := rfl
  have alerted_frame := framed t
  rw [← frame] at alerted_frame
  exact ⟨alerted_frame, pushes⟩

end

theorem recordAlert_eq (cause : AlertCause) (s : State) :
    recordAlert cause s = alerted (alertAfter s.alert { cause := cause, tick := s.now }) s := rfl

theorem freezeClock_now (s : State) : (freezeClock s).now = s.now := by
  unfold freezeClock
  split
  · next running =>
    unfold State.now
    rw [running]
    rfl
  · rfl

theorem pushHold_now (src : HoldSource) (flag : Bool) (s : State) : (pushHold src flag s).now = s.now := by
  unfold pushHold
  split
  · rfl
  · dsimp only
    split
    · rw [freezeClock_now, (removeAllGrants_frame _).now]
      split <;> rfl
    · split <;> rfl

theorem takeStop_eq (s : State) : takeStop true s =
    alerted (alertAfter s.alert { cause := .stop, tick := s.now }) (pushHold .stop true s) := by
  unfold takeStop
  rw [recordAlert_eq, (pushHold_frame .stop true s).alert, pushHold_now]

/-- An alert of a running part whose lines stand as they should drives the ALERT line high, and that alone. -/
theorem alerted_of_law {s : State} (running : s.running = true) (attends : AttentionLaw s) (cause : AlertCause) :
    alerted (alertAfter s.alert { cause := cause, tick := s.now }) s =
      { s with
        alert := alertAfter s.alert { cause := cause, tick := s.now }
        lines := { s.lines with alert := .high } } := by
  have recorded : 0 < (alertAfter s.alert { cause := cause, tick := s.now }).count := by
    show 0 < if s.alert.count < 255 then s.alert.count + 1 else s.alert.count
    split <;> omega
  have attn : attnLevel { s with alert := alertAfter s.alert { cause := cause, tick := s.now } } = s.lines.attn := attends.1.symm
  have powered : s.supply.state ≠ .off := by
    intro off
    unfold State.running at running
    rw [off] at running
    exact absurd running (by simp)
  have high : alertLevel { s with alert := alertAfter s.alert { cause := cause, tick := s.now } } = .high := by
    unfold alertLevel outputLevel
    refine (if_neg powered).trans (if_pos ?_)
    rw [Bool.and_eq_true, decide_eq_true_eq]
    exact ⟨running, recorded⟩
  unfold alerted driveLines
  rw [attn, high]

/-- An answer written after a push and its close. -/
theorem Pushed.setTx {u t : State} {src : HoldSource} (h : Pushed u t src) (sel : Select) (a : Transaction) :
    Pushed (u.setTx sel a) (t.setTx sel a) src := by
  obtain ⟨present, absent⟩ := h
  refine ⟨fun held => congrArg (State.setTx · sel a) (present (by cases sel <;> exact held)), fun free => ?_⟩
  obtain ⟨frame, pushes⟩ := absent (by cases sel <;> exact free)
  have framed (x : State) : HoldFrame (u.setTx sel a) ((u.withHoldsOf x).setTx sel a) := by cases sel <;> rfl
  have answered_frame := framed t
  rw [← frame] at answered_frame
  exact ⟨answered_frame, by cases sel <;> exact pushes⟩

/-- Settles O38: each push is the shared one, from the state in which the line, the alert or the answer stands. -/
theorem holdsArePushed : Obligations.HoldsArePushed := by
  unfold Obligations.HoldsArePushed
  have hold (s : State) : exec .hold s = takeCommand .hold holdFrom s := rfl
  have stop (s : State) : exec .stopAssertion s = execStopAssertion s := rfl
  have ring (s : State) : exec .ringAssertion s = execRingAssertion s := rfl
  refine fun s => ⟨fun runs hq hl attends => ⟨fun sel awaits => ?_, fun clear => ?_, fun clear => ?_⟩, fun asserted => ?_,
    fun asserted => ?_, fun halted => ⟨?_, ?_⟩, rfl, rfl⟩
  · refine ⟨_, (hold s).trans (takeCommand_delivered awaits ?_ _), ?_⟩
    · cases sel with
      | showSel => exact .inl rfl
      | crewSel => exact .inr rfl
    · have pushed : Pushed s (closeEvent false s (pushHold (holdSourceFrom sel) true s)) (holdSourceFrom sel) :=
        pushHold_closed hq hl (ceasedOverstay_same rfl) (fun _ overstays => overstays) rfl
      have answers := pushed.setTx sel (answer .ok)
      cases sel <;> exact answers
  · have pushed : Pushed (setStopLine true s) (closeEvent false s (pushHold .stop true (setStopLine true s))) .stop :=
      pushHold_closed hq hl (ceasedOverstay_same rfl) (fun _ overstays => overstays) rfl
    have alert := pushed.alerted (alertAfter s.alert { cause := .stop, tick := s.now })
    refine ⟨_, ?_, alerted_of_law (s := setStopLine true s) ((runs_iff s).mp runs) attends .stop ▸ alert⟩
    rw [stop, execStopAssertion, clear, if_neg Bool.false_ne_true, if_pos ((runs_iff s).mp runs), takeStop_eq, closeEvent_alerted]
    rfl
  · have pushed : Pushed (setRingLine true s) (closeEvent false s (pushHold .ring true (setRingLine true s))) .ring :=
      pushHold_closed hq hl (ceasedOverstay_same rfl) (fun _ overstays => overstays) rfl
    refine ⟨_, ?_, pushed⟩
    rw [ring, execRingAssertion, clear, if_neg Bool.false_ne_true, if_pos ((runs_iff s).mp runs)]
    rfl
  · rw [stop, execStopAssertion, if_pos asserted]
  · rw [ring, execRingAssertion, if_pos asserted]
  · rw [stop, execStopAssertion]
    split
    · next asserted => rw [← asserted]
    · rw [if_neg (mt (runs_iff s).mpr halted)]
      rfl
  · rw [ring, execRingAssertion]
    split
    · next asserted => rw [← asserted]
    · rw [if_neg (mt (runs_iff s).mpr halted)]
      rfl

end Sys2Proof.Machine
end

section
/-! PROOF. A report that is a breach (O37). -/

namespace Sys2Proof.Machine

/-! ## The removal of an airborne flyer's grant, and its claims held (R16, R103) -/

/-- An airborne flyer's grant goes with nothing of the claims: no grounded event comes. -/
theorem removeGrant_airborne {f : Flyer} {s : State} (airborne : s.groundedFlyer f = false) (r : Reason) :
    ∃ permit, removeGrant f r s = { s with
      grants := s.grants.set f { s.grants[f] with live := none }
      channels := s.channels.set f
        { s.channels[f] with out := s.channels[f].out ++ ((s.grantOf f).map fun g => OutFrame.revoke g.seq r).toList }
      lines := { s.lines with permit := permit } } := by
  unfold removeGrant
  cases hg : s.grantOf f with
  | none =>
    refine ⟨s.lines.permit, ?_⟩
    have grant : ({ s.grants[f] with live := none } : GrantRec) = s.grants[f] := by rw [← hg]; rfl
    have same_grants : s.grants.set f { s.grants[f] with live := none } = s.grants := by rw [grant]; exact Vector.set_getElem_self f.isLt
    have same_channels : s.channels.set f { s.channels[f] with out := s.channels[f].out ++ [] } = s.channels := by
      rw [List.append_nil]
      exact Vector.set_getElem_self f.isLt
    show s = _
    rw [same_grants]
    exact congrArg (fun x => { s with channels := x }) same_channels.symm
  | some g =>
    refine ⟨tabulate (fun w => if s.bindings[w] = some f then .low else s.lines.permit[w]), ?_⟩
    refine (if_neg ?_).trans rfl
    show ¬ s.groundedFlyer f = true
    rw [airborne]
    exact Bool.false_ne_true

/-- From s to t the slots and the walk alone may differ. -/
def WalkFrame (s t : State) : Prop := ∃ slots walk, t = { s with slots := slots, admission := { s.admission with walk := walk } }

theorem WalkFrame.refl (s : State) : WalkFrame s s := ⟨s.slots, s.admission.walk, rfl⟩

theorem WalkFrame.trans {s t u : State} (h : WalkFrame s t) (k : WalkFrame t u) : WalkFrame s u := by
  obtain ⟨slots, walk, rfl⟩ := h
  obtain ⟨slots', walk', rfl⟩ := k
  exact ⟨slots', walk', rfl⟩

theorem moveClaim_walkFrame (i : Slot) (st : ClaimState) (s : State) : WalkFrame s (moveClaim i st s) := by
  unfold moveClaim
  cases s.claimAt i with
  | none => exact .refl s
  | some c =>
    dsimp only
    split
    · exact ⟨_, _, rfl⟩
    · exact ⟨_, s.admission.walk, rfl⟩

theorem breachClaims_walkFrame (f : Flyer) (s : State) : WalkFrame s (breachClaims f s) := by
  refine foldl_frame WalkFrame .refl (fun _ _ _ => .trans) _ (fun t i => ?_) allSlots s
  unfold breachClaim
  split
  · exact .refl t
  · split
    · split
      · exact moveClaim_walkFrame i _ t
      · exact moveClaim_walkFrame i _ t
      · exact .refl t
    · exact .refl t

/-- What a breach makes of one claim (R16). -/
def breachedClaim (f : Flyer) (c : Claim) : Claim :=
  if c.flyer = f ∧ c.state = .active then { c with state := .held .breach false }
  else if c.flyer = f ∧ c.state = .overrun then { c with state := .held .breach true } else c

section
variable {f : Flyer} {c : Claim}

theorem breachedClaim_active (flyer : c.flyer = f) (active : c.state = .active) :
    breachedClaim f c = { c with state := .held .breach false } := if_pos ⟨flyer, active⟩

theorem breachedClaim_overrun (flyer : c.flyer = f) (overrun : c.state = .overrun) :
    breachedClaim f c = { c with state := .held .breach true } := by
  unfold breachedClaim
  rw [if_neg (by rw [overrun]; exact fun h => absurd h.2 nofun), if_pos ⟨flyer, overrun⟩]

theorem breachedClaim_other (h : c.flyer ≠ f ∨ c.state.inForce = false) : breachedClaim f c = c := by
  unfold breachedClaim
  rw [if_neg, if_neg]
  all_goals
    rintro ⟨flyer, state⟩
    rw [state] at h
    exact h.elim (fun other => other flyer) fun idle => absurd idle nofun

theorem breachedClaim_overstaying (f : Flyer) (c : Claim) :
    (breachedClaim f c).state.overstaying = c.state.overstaying := by
  unfold breachedClaim
  split
  · next active => rw [active.2]; rfl
  · split
    · next overrun => rw [overrun.2]; rfl
    · rfl

end

section
variable {f : Flyer} {s : State} (hq : QueueLaw s)

theorem breachClaims_at (f : Flyer) (s : State) (j : Slot) :
    (breachClaims f s).claimAt j = (s.claimAt j).map (breachedClaim f) := breachClaims_claimAt f s j

theorem breachClaims_resolve (f : Flyer) (s : State) (h : Handle) :
    (breachClaims f s).resolve h = (s.resolve h).map (breachedClaim f) := by
  unfold State.resolve
  rw [((breachClaims_follows f s).1 h.slot).1, breachClaims_at]
  split <;> rfl

include hq

/-- A walk goes on, or is begun again where its subject is held. -/
theorem breachClaims_walk {w : Walk} (hw : s.admission.walk = some w) (waits : w.subject ∈ s.admission.queue) :
    (∀ (h : Handle) (d : Claim), w.subject = .amend h → s.resolve h = some d → d.flyer = f → d.state.inForce = true →
      ∃ cand, (breachClaims f s).candidateOf w.subject = some cand ∧
        (breachClaims f s).admission.walk = some { subject := w.subject, cand := cand, pos := .claims 0 }) ∧
    ((∀ (h : Handle) (d : Claim), w.subject = .amend h → s.resolve h = some d → d.flyer = f → d.state.inForce = false) →
      (breachClaims f s).admission.walk = some w) := by
  obtain ⟨fixed, amended⟩ := (breachClaims_goes f s hq.2.2).2 w hw waits
  refine ⟨fun h d subject hr flyer in_force => ?_, fun idle => ?_⟩
  · have at_slot : (breachClaims f s).claimAt h.slot = some (breachedClaim f d) := by
      rw [breachClaims_at, (resolve_eq_some.mp hr).2]
      rfl
    have moved : d.state.sameButCause (breachedClaim f d).state = false := by
      cases state : d.state with
      | active => rw [breachedClaim_active flyer state]; rfl
      | overrun => rw [breachedClaim_overrun flyer state]; rfl
      | _ => rw [state] at in_force; exact absurd in_force Bool.false_ne_true
    have begun := ((amended h d subject hr).2 _ at_slot).2
    rw [moved, if_neg Bool.false_ne_true, subject] at begun
    rw [subject] at waits ⊢
    have named : stillNamed (breachClaims f s) (.amend h) = true := by
      show ((breachClaims f s).resolve h).isSome = true
      rw [breachClaims_resolve, hr]
      rfl
    have follows := breachClaims_follows f s
    obtain ⟨-, v, -, -, -, formed, -⟩ := SubjectsFit.amend (follows.2.2 hq.2.2).1 ((follows.mem hq.2.2 waits).mpr named)
    unfold walkBegun at begun formed
    cases hc : (breachClaims f s).candidateOf (.amend h) with
    | none =>
      rw [hc] at formed
      exact absurd formed nofun
    | some cand => exact ⟨cand, rfl, begun.trans (by rw [hc]; rfl)⟩
  · cases subject : w.subject with
    | book g => exact (fixed (by rw [subject]; nofun)).1
    | zone z => exact (fixed (by rw [subject]; nofun)).1
    | amend h =>
      rw [subject] at waits
      obtain ⟨d, -, hr, -⟩ := hq.amend_named waits
      have at_slot : (breachClaims f s).claimAt h.slot = some d := by
        rw [breachClaims_at, (resolve_eq_some.mp hr).2, Option.map_some]
        refine congrArg some (breachedClaim_other ?_)
        by_cases flyer : d.flyer = f
        · exact .inr (idle h d subject hr flyer)
        · exact .inl flyer
      have goes_on := ((amended h d subject hr).2 d at_slot).2
      rw [sameButCause_refl, if_pos rfl] at goes_on
      exact goes_on

end

/-! ## Laws carried over -/

theorem resolve_congr {s t : State} (slots : t.slots = s.slots) (h : Handle) : t.resolve h = s.resolve h := by
  unfold State.resolve State.claimAt
  rw [slots]

theorem QueueLaw.of_same {s t : State} (slots : t.slots = s.slots) (queue : t.admission.queue = s.admission.queue)
    (zones : t.zones = s.zones) (hq : QueueLaw s) : QueueLaw t := by
  unfold QueueLaw at hq ⊢
  rw [queue]
  refine ⟨hq.1, hq.2.1, fun e he => ?_⟩
  have fits := hq.2.2 e he
  cases e with
  | book h => exact fits_book (resolve_congr slots h) fits
  | amend h => exact fits_amend (resolve_congr slots h) fits
  | zone z => exact fits_zone zones fits

theorem WalkLaw.of_same {s t : State} (walk : t.admission.walk = s.admission.walk)
    (queue : t.admission.queue = s.admission.queue) (running : t.running = s.running) (hl : WalkLaw s) : WalkLaw t := by
  unfold WalkLaw at hl ⊢
  rw [walk, queue, running]
  exact hl

/-! ## The response to a breach (R112, R115) -/

/-- The grant and the claims of a breach's flyer, before its record and its alert. -/
def breachStopped (f : Flyer) (s : State) : State := breachClaims f (removeGrant f .breach s)

/-- The state a breach leaves before an intrusion's push. -/
def breachRecorded (f : Flyer) (e : BreachEvent) (s : State) : State :=
  recordAlert (breachAlert f e.kind) (writeBreach f e.kind e.cell (breachStopped f s))

section
variable {s : State} {c : Flyer} {x y z fl : Byte} {rest : List InFrame} {kind : BreachKind}
  (hi : s.channels[c].inbound = .report x y z fl :: rest) (hg : s.grantsChannel c = true)
  (breaches : judgeReport c (cellOf x y z) (fl.getLsbD 0) s = some kind)
include breaches

/-- Only an airborne flyer's report is judged a breach (R69). -/
theorem breach_airborne : fl.getLsbD 0 = false := by
  cases grounded : fl.getLsbD 0 with
  | false => rfl
  | true =>
    rw [grounded] at breaches
    exact absurd breaches nofun

include hi hg

theorem report_exec_breach : exec (.report c) s = .next (closeEvent false s
    (if kind = .intrude then
        pushHold .breach true (breachRecorded c { kind := kind, tick := s.now, cell := cellOf x y z } (reported c rest (cellOf x y z) false s))
      else breachRecorded c { kind := kind, tick := s.now, cell := cellOf x y z } (reported c rest (cellOf x y z) false s))) := by
  rw [report_exec hi hg]
  unfold handleReport
  rw [judgeReport_served hi, breaches, breach_airborne breaches, storeReport_served hi]
  rfl

end

/-- The record of a breach with one more (R69). -/
def breachAfter (e : BreachEvent) (b : Option BreachRec) : BreachRec :=
  match b with
  | none => { first := e, latest := e, count := 1, intrusion := decide (e.kind = .intrude) }
  | some b => { first := b.first, latest := e, count := if b.count < 255 then b.count + 1 else b.count
                intrusion := b.intrusion || decide (e.kind = .intrude) }

theorem breachRecordAfter_eq (e : BreachEvent) (b : Option BreachRec) : breachRecordAfter e b = breachAfter e b := by
  cases b <;> rfl

theorem breachAlert_eq (f : Flyer) (kind : BreachKind) :
    breachAlert f kind = if kind = .intrude then .intrude f else .breach f := by
  cases kind <;> rfl

section
variable (s : State) (c : Flyer) (rest : List InFrame) (e : BreachEvent)

/-- The channel's record after the report and the removal. -/
def breachChannel : Channel :=
  { s.channels[c] with
    state := if s.channels[c].state = .lost then .lost else .live
    timer := some 0
    inbound := rest
    out := s.channels[c].out ++ ((s.grantOf c).map (fun g => OutFrame.revoke g.seq .breach)).toList }

/-- The report's flyer is airborne, so the response stops its grant and its claims alone. -/
theorem breachStopped_eq : ∃ slots walk permit, breachStopped c (reported c rest e.cell false s) =
    { s with
      arbiter := { lastServed := c, walkCount := if s.walkWaiting = true then s.arbiter.walkCount + 1 else 0 }
      channels := s.channels.set c (breachChannel s c rest)
      flyers := s.flyers.set c { s.flyers[c] with position := some e.cell, grounded := false }
      grants := s.grants.set c { s.grants[c] with live := none }
      slots := slots
      admission := { s.admission with walk := walk }
      lines := { s.lines with permit := permit } } := by
  have airborne : (reported c rest e.cell false s).groundedFlyer c = false := by
    show ((s.setFlyer c { s.flyers[c] with position := some e.cell, grounded := false }).flyers[c]).grounded = false
    rw [setFlyer_get, if_pos rfl]
  obtain ⟨permit, removed⟩ := removeGrant_airborne airborne .breach
  obtain ⟨slots, walk, stopped⟩ := breachClaims_walkFrame c (removeGrant c .breach (reported c rest e.cell false s))
  refine ⟨slots, walk, permit, ?_⟩
  have grant : (reported c rest e.cell false s).grantOf c = s.grantOf c := rfl
  have channel : (reported c rest e.cell false s).channels.set c
      { (reported c rest e.cell false s).channels[c] with
        out := (reported c rest e.cell false s).channels[c].out ++
          ((s.grantOf c).map (fun g => OutFrame.revoke g.seq .breach)).toList } = s.channels.set c (breachChannel s c rest) := by
    generalize hr : ({ s.channels[c] with
      state := if s.channels[c].state = .lost then .lost else .live
      timer := some 0
      inbound := rest } : Channel) = r
    have set : (reported c rest e.cell false s).channels = s.channels.set c r := by rw [← hr]; rfl
    have at_c : (s.channels.set c r)[c] = r := Vector.getElem_set_self c.isLt
    rw [set, at_c, Vector.set_set, ← hr]
    rfl
  unfold breachStopped
  rw [stopped, removed, grant, channel]
  rfl

/-- The whole response, told from the state before the report. -/
theorem breachRecorded_eq (attends : AttentionLaw s) (running : s.running = true) (tick : e.tick = s.now) :
    ∃ slots walk permit, breachRecorded c e (reported c rest e.cell false s) =
      { s with
        arbiter := { lastServed := c, walkCount := if s.walkWaiting = true then s.arbiter.walkCount + 1 else 0 }
        channels := s.channels.set c (breachChannel s c rest)
        flyers := s.flyers.set c { position := some e.cell, grounded := false, breach := some (breachAfter e s.flyers[c].breach) }
        grants := s.grants.set c { s.grants[c] with live := none }
        slots := slots
        admission := { s.admission with walk := walk }
        alert := alertAfter s.alert { cause := if e.kind = .intrude then .intrude c else .breach c, tick := e.tick }
        lines := { permit := permit, attn := s.lines.attn, alert := .high } } ∧
      (breachStopped c (reported c rest e.cell false s)).slots = slots ∧
      (breachStopped c (reported c rest e.cell false s)).admission.walk = walk ∧
      (breachStopped c (reported c rest e.cell false s)).lines.permit = permit := by
  obtain ⟨slots, walk, permit, stopped⟩ := breachStopped_eq s c rest e
  refine ⟨slots, walk, permit, ?_, by rw [stopped], by rw [stopped], by rw [stopped]⟩
  have at_c : (s.flyers.set c { s.flyers[c] with position := some e.cell, grounded := false })[c] =
      { s.flyers[c] with position := some e.cell, grounded := false } := Vector.getElem_set_self c.isLt
  generalize hw : writeBreach c e.kind e.cell (breachStopped c (reported c rest e.cell false s)) = v
  have written : v = { s with
      arbiter := { lastServed := c, walkCount := if s.walkWaiting = true then s.arbiter.walkCount + 1 else 0 }
      channels := s.channels.set c (breachChannel s c rest)
      flyers := s.flyers.set c { position := some e.cell, grounded := false, breach := some (breachAfter e s.flyers[c].breach) }
      grants := s.grants.set c { s.grants[c] with live := none }
      slots := slots
      admission := { s.admission with walk := walk }
      lines := { s.lines with permit := permit } } := by
    rw [← hw, stopped]
    unfold writeBreach State.setFlyer
    dsimp only
    rw [at_c, Vector.set_set, breachRecordAfter_eq]
    obtain ⟨kind, now, cell⟩ := e
    cases tick
    rfl
  have lines : AttentionLaw v := by rw [written]; exact attends
  have runs : v.running = true := by rw [written]; exact running
  unfold breachRecorded
  rw [hw, recordAlert_eq, alerted_of_law runs lines, written, breachAlert_eq, tick]
  rfl

end

section
variable (s : State) (c : Flyer) (rest : List InFrame) (cell : Cell)

/-- The claims and the queue before they are held are those before the report. -/
theorem breachStopped_from : ∃ a, breachStopped c (reported c rest cell false s) = breachClaims c a ∧ a.slots = s.slots ∧
    a.admission = s.admission ∧ a.zones = s.zones ∧ a.running = s.running ∧
    (QueueLaw s → QueueLaw a) ∧ (WalkLaw s → WalkLaw a) ∧
    ∀ w : Winch, a.lines.permit[w] = if s.bindings[w] = some c ∧ s.grantOf c ≠ none then .low else s.lines.permit[w] := by
  have airborne : (reported c rest cell false s).groundedFlyer c = false := by
    show ((s.setFlyer c { s.flyers[c] with position := some cell, grounded := false }).flyers[c]).grounded = false
    rw [setFlyer_get, if_pos rfl]
  have permits := removeGrant_permit c .breach (reported c rest cell false s)
  obtain ⟨permit, removed⟩ := removeGrant_airborne airborne .breach
  refine ⟨removeGrant c .breach (reported c rest cell false s), rfl, by rw [removed]; rfl, by rw [removed]; rfl, by rw [removed]; rfl, by rw [removed]; rfl,
    fun hq => by rw [removed]; exact hq, fun hl => by rw [removed]; exact hl, fun w => ?_⟩
  rw [permits]
  have grant : (reported c rest cell false s).grantOf c = s.grantOf c := rfl
  rw [grant]
  cases s.grantOf c with
  | none => exact (if_neg fun h => h.2 rfl).symm
  | some g =>
    rw [tabulate_get]
    by_cases bound : s.bindings[w] = some c
    · exact (if_pos bound).trans (if_pos ⟨bound, nofun⟩).symm
    · exact (if_neg bound).trans (if_neg fun h => bound h.1).symm

variable {s} (hq : QueueLaw s) (hl : WalkLaw s)
include hq hl

/-- After the response the queue still fits its subjects, and the head's walk is in flight as before. -/
theorem breachClaims_laws : QueueLaw (breachClaims c s) ∧ WalkLaw (breachClaims c s) := by
  have follows := breachClaims_follows c s
  have frame := (breachClaims_frame c s).running
  have queue : (breachClaims c s).admission.queue = s.admission.queue := by
    obtain ⟨slots, walk, same⟩ := breachClaims_walkFrame c s
    rw [same]
  have law : QueueLaw (breachClaims c s) := by
    obtain ⟨room, distinct, fits⟩ := hq
    have fits_after := (follows.2.2 fits).1
    unfold SubjectsFit at fits_after
    unfold QueueLaw
    rw [queue] at fits_after ⊢
    exact ⟨room, distinct, fits_after⟩
  refine ⟨law, ?_⟩
  have walk : (breachClaims c s).admission.walk = s.admission.walk ∨
      ∃ w v, s.admission.walk = some w ∧ (breachClaims c s).admission.walk = some v ∧ v.subject = w.subject := by
    cases hw : s.admission.walk with
    | none => exact .inl ((breachClaims_goes c s hq.2.2).1 hw).1
    | some w =>
      obtain ⟨begun, goes_on⟩ := breachClaims_walk (f := c) hq hw (hl.subject_mem hw)
      by_cases held : ∃ (h : Handle) (d : Claim), w.subject = .amend h ∧ s.resolve h = some d ∧ d.flyer = c ∧ d.state.inForce = true
      · obtain ⟨h, d, subject, hr, flyer, in_force⟩ := held
        obtain ⟨cand, -, begins⟩ := begun h d subject hr flyer in_force
        exact .inr ⟨w, _, rfl, begins, rfl⟩
      · exact .inl (goes_on fun h d subject hr flyer =>
          Bool.eq_false_iff.mpr fun in_force => held ⟨h, d, subject, hr, flyer, in_force⟩)
  unfold WalkLaw at hl ⊢
  rw [queue, frame]
  rcases walk with same | ⟨w, v, hw, hv, subject⟩
  · rw [same]
    exact hl
  · rw [hw] at hl
    rw [hv]
    simp only [Option.all_some, subject, Option.isSome_some, reduceCtorEq] at hl ⊢
    exact hl

end

/-- Settles O37: the response written out, its claims and its walk, and the close or the push. -/
theorem breachResponse_holds : Obligations.BreachResponse := by
  unfold Obligations.BreachResponse
  intro s c x y z fl rest kind runs hq hl attends hi hg breaches
  rw [report_exec_breach hi hg breaches]
  generalize he : ({ kind := kind, tick := s.now, cell := cellOf x y z } : BreachEvent) = e
  have cell : cellOf x y z = e.cell := by rw [← he]
  have kind_eq : kind = e.kind := by rw [← he]
  rw [cell, kind_eq]
  obtain ⟨slots, walk, permit, recorded, at_slots, at_walk, at_permit⟩ :=
    breachRecorded_eq s c rest e attends ((runs_iff s).mp runs) (by rw [← he])
  obtain ⟨a, stopped, a_slots, a_admission, a_zones, a_running, a_queue, a_walk, a_permit⟩ := breachStopped_from s c rest e.cell
  rw [stopped] at at_slots at_walk at_permit
  generalize breachRecorded c e (reported c rest e.cell false s) = u at recorded ⊢
  have claim (j : Slot) : u.claimAt j = (s.claimAt j).map (breachedClaim c) := by
    have same : u.slots = (breachClaims c a).slots := by rw [recorded, at_slots]
    rw [claimAt_congr same, breachClaims_at, claimAt_congr a_slots]
  have gen (j : Slot) : u.slots[j].gen = s.slots[j].gen := by
    have same : u.slots = (breachClaims c a).slots := by rw [recorded, at_slots]
    rw [gen_congr same, ((breachClaims_follows c a).1 j).1, gen_congr a_slots]
  obtain ⟨stopped_queue, stopped_walk⟩ := breachClaims_laws c (a_queue hq) (a_walk hl)
  have u_slots : u.slots = (breachClaims c a).slots := by rw [recorded, at_slots]
  have queue_eq : u.admission.queue = (breachClaims c a).admission.queue := by
    obtain ⟨_, _, held⟩ := breachClaims_walkFrame c a
    rw [recorded, held, ← a_admission]
  have zones_eq : u.zones = (breachClaims c a).zones := by rw [(breachClaims_frame c a).zones, a_zones, recorded]
  have running_eq : u.running = (breachClaims c a).running := by
    rw [(breachClaims_frame c a).running, a_running, recorded]
    rfl
  have walk_eq : u.admission.walk = (breachClaims c a).admission.walk := by rw [recorded, at_walk]
  have breached : BreachedFrom s u c rest e := by
    refine ⟨by rw [recorded]; rfl, fun w => ?_, fun j => ⟨gen j, fun none => by rw [claim, none]; rfl, fun d hd => ?_⟩,
      fun w h d hw subject hr flyer in_force => ?_, fun idle => ?_⟩
    · have permit_eq : u.lines.permit = (breachClaims c a).lines.permit := by rw [recorded, at_permit]
      rw [permit_eq, (breachClaims_frame c a).permit]
      exact a_permit w
    · rw [claim, hd, Option.map_some]
      exact ⟨fun flyer active => by rw [breachedClaim_active flyer active],
        fun flyer overrun => by rw [breachedClaim_overrun flyer overrun], fun other => by rw [breachedClaim_other other]⟩
    · rw [← a_admission] at hw
      obtain ⟨cand, formed, begun⟩ := (breachClaims_walk (f := c) (a_queue hq) hw ((a_walk hl).subject_mem hw)).1 h d subject
        ((resolve_congr a_slots h).trans hr) flyer in_force
      refine ⟨cand, ?_, walk_eq.trans begun⟩
      rw [subject] at formed ⊢
      rw [candidateOf_amend (resolve_congr u_slots h)]
      exact formed
    · cases hw : s.admission.walk with
      | none =>
        rw [← a_admission] at hw
        exact walk_eq.trans ((breachClaims_goes c a (a_queue hq).2.2).1 hw).1
      | some w =>
        have hw' := hw
        rw [← a_admission] at hw'
        exact walk_eq.trans ((breachClaims_walk (f := c) (a_queue hq) hw' ((a_walk hl).subject_mem hw')).2
          fun h d subject hr flyer => idle w h d hw subject ((resolve_congr a_slots h).symm.trans hr) flyer)
  have law : QueueLaw u := .of_same u_slots queue_eq zones_eq stopped_queue
  have walks : WalkLaw u := .of_same walk_eq queue_eq running_eq stopped_walk
  have walked : beginHead u = u := beginHead_walked walks rfl rfl
  have overstays (j : Slot) : u.overstayingAt j = s.overstayingAt j := by
    unfold State.overstayingAt
    rw [claim]
    cases s.claimAt j with
    | none => rfl
    | some d => exact breachedClaim_overstaying c d
  have quiet : ceasedOverstay s u = false := by
    rw [ceasedOverstay_eq_false]
    exact fun j before => ⟨gen j, (overstays j).trans before⟩
  refine ⟨u, _, rfl, breached, fun other => ?_, fun intrusion => ?_⟩
  · rw [if_neg other, closeEvent_quiet quiet, walked]
  · rw [if_pos intrusion]
    exact pushHold_closed law walks quiet (fun j after => (overstays j).symm.trans after) rfl

end Sys2Proof.Machine
end

section
/-! PROOF. The show clock's events: ticks, a load and a skip (O40, O43). -/

namespace Sys2Proof.Machine

/-! ## A tick or a jump and what it makes of the clock (R134, R142) -/

theorem OverlapLaw.of_slots {s t : State} (slots : t.slots = s.slots) (ho : OverlapLaw s) : OverlapLaw t := by
  have beside (f : Flyer) (region : Box) : t.overlapsOverstayer f region = s.overlapsOverstayer f region :=
    overlapsOverstayer_congr (fun j c _ => by rw [claimAt_congr slots]) f region
  unfold OverlapLaw at ho ⊢
  simp only [claimAt_congr slots, beside]
  exact ho

/-- A clock written on both sides keeps the frame. -/
theorem GrantFrame.setClock {s t : State} (h : GrantFrame s t) (k : Clock) : GrantFrame (s.setClock k) (t.setClock k) := by
  have framed (x : State) : GrantFrame (s.setClock k) ((s.withGrantsOf x).setClock k) := rfl
  have at_t := framed t
  rw [← h] at at_t
  exact at_t

theorem endClock_eq (s : State) : endClock s =
    s.setClock { s.clock with run := if 16777215 ≤ s.clock.count then .ended else s.clock.run } := by
  unfold endClock
  split
  · next top => rw [if_pos (show 16777215 ≤ s.clock.count from top)]
  · next below => rw [if_neg (show ¬ 16777215 ≤ s.clock.count from below)]; rfl

/-- A window event at a count, with the run state its clock then takes. -/
theorem endClock_moved {jump : Bool} {v : State} (hq : QueueLaw v) (ho : OverlapLaw v) :
    (endClock (windowEvent jump v)).clock = { v.clock with run := if 16777215 ≤ v.clock.count then .ended else v.clock.run } ∧
    GrantFrame { v with clock := (endClock (windowEvent jump v)).clock } (endClock (windowEvent jump v)) ∧
    WindowsMoved jump v (endClock (windowEvent jump v)) := by
  have frame : GrantFrame v (windowEvent jump v) := by
    cases jump with
    | false => exact tickEvent_frame v
    | true => exact jumpEvent_frame v
  have moved := windowEvent_moved (jump := jump) hq ho
  rw [endClock_eq, frame.clock]
  exact ⟨rfl, frame.setClock _, moved⟩

/-- A tick source event on a RUNNING clock is a tick (R134). -/
theorem sourceEvent_running {u : State} (running : u.clock.run = .running) (hq : QueueLaw u) (ho : OverlapLaw u) :
    GrantFrame { u with clock := (sourceEvent u).clock } (sourceEvent u) ∧
    (sourceEvent u).clock = { u.clock with count := u.clock.count + 1
                                           run := if 16777215 ≤ u.clock.count + 1 then .ended else .running } ∧
    WindowsMoved false { u with clock := { u.clock with count := u.clock.count + 1 } } (sourceEvent u) := by
  obtain ⟨clock, frame, moved⟩ :=
    endClock_moved (jump := false) (v := u.setClock { u.clock with count := u.clock.count + 1 }) hq (ho.of_slots rfl)
  have ticks : sourceEvent u = endClock (windowEvent false (u.setClock { u.clock with count := u.clock.count + 1 })) :=
    if_pos running
  rw [ticks]
  refine ⟨frame, clock.trans ?_, moved⟩
  rw [← running]
  rfl

theorem sourceEvent_idle {u : State} (idle : u.clock.run ≠ .running) : sourceEvent u = u := if_neg idle

/-- Settles O40: the source events, on a clock that runs and on one that does not. -/
theorem tickSourceEvents : Obligations.TickSourceEvents := by
  unfold Obligations.TickSourceEvents
  have period (s : State) : exec .internalPeriodCompletion s = execInternalPeriodCompletion s := rfl
  have pulse (s : State) : exec .extTickPulse s = execExtTickPulse s := rfl
  refine ⟨fun s halted => ⟨?_, ?_⟩, fun s u i runs => ⟨fun event => ?_, fun n at_n external hu => ?_, fun internal none => ?_⟩⟩
  · rw [period, execInternalPeriodCompletion, Bool.eq_false_iff.mpr (mt (runs_iff s).mpr halted)]
    split <;> rfl
  · rw [pulse, execExtTickPulse, Bool.eq_false_iff.mpr (mt (runs_iff s).mpr halted)]
    rfl
  · have running := (runs_iff s).mp runs
    have taken : exec i s = .next (sourceEvent u) ∧ u.slots = s.slots ∧ u.admission = s.admission ∧ u.zones = s.zones ∧
        u.clock.run = s.clock.run ∧ u.clock.count = s.clock.count := by
      rcases event with ⟨n, rfl, at_n, internal, rfl⟩ | ⟨rfl, external, rfl⟩ | ⟨rfl, internal, requested, rfl⟩
      · refine ⟨?_, elapse_slots _ s, elapse_admission _ s, elapse_zones _ s, elapse_run _ s, elapse_count _ s⟩
        rw [period, execInternalPeriodCompletion, at_n, running, internal]
        rfl
      · refine ⟨?_, rfl, rfl, rfl, rfl, rfl⟩
        rw [pulse, execExtTickPulse, running, external]
        rfl
      · refine ⟨?_, rfl, rfl, rfl, rfl, rfl⟩
        rw [pulse, execExtTickPulse, running, internal]
        exact if_pos (Option.isSome_iff_ne_none.mpr requested)
    obtain ⟨taken, slots, admission, zones, run, count⟩ := taken
    rw [taken]
    refine ⟨fun idle => by rw [sourceEvent_idle (run ▸ idle)], fun runs hq ho => ⟨_, rfl, ?_⟩⟩
    have ticked := sourceEvent_running (run.trans runs) (hq.of_same slots (by rw [admission]) zones) (ho.of_slots slots)
    rw [count] at ticked
    exact ticked
  · rw [period, execInternalPeriodCompletion, at_n, (runs_iff s).mp runs, external, hu]
    rfl
  · rw [pulse, execExtTickPulse, (runs_iff s).mp runs, internal, none]
    rfl

/-! ## SET_CLOCK and SKIP (R140, R142) -/

theorem loadedRun_eq (s : State) : loadedRun s = if s.holds = [] then .running else .frozen := by
  unfold loadedRun
  cases s.holds <;> rfl

theorem skipOut {v : Word24} : (v.toNat = 0 || decide (Config.maxSkip < v.toNat)) = true ↔ v.toNat = 0 ∨ 360000 < v.toNat := by
  rw [Bool.or_eq_true, decide_eq_true_eq, decide_eq_true_eq]
  rfl

/-- Settles O43: the operand and the run state, then the load's or the jump's event. -/
theorem loadAndSkip : Obligations.LoadAndSkip := by
  unfold Obligations.LoadAndSkip
  refine fun s v => ⟨fun awaits => ⟨fun large => ?_, fun small loaded => ?_, fun small void hq ho => ?_⟩,
    fun awaits => ⟨fun out => ?_, fun pos le other => ?_, fun pos le frozen hq ho => ?_⟩⟩
  · exact takeCommand_answers awaits (.inl rfl) (if_pos large)
  · exact takeCommand_answers awaits (.inl rfl) ((if_neg (Nat.not_le_of_lt small)).trans (if_pos loaded))
  · have taken : setClockOperand v s = (jumpEvent (s.setClock { s.clock with count := v.toNat, run := loadedRun s }), answer .ok) :=
      (if_neg (Nat.not_le_of_lt small)).trans (if_neg (not_not_intro void))
    generalize hk : ({ s.clock with count := v.toNat, run := loadedRun s } : Clock) = k at taken
    have frame := jumpEvent_frame (s.setClock k)
    have moved : WindowsMoved true (s.setClock k) (jumpEvent (s.setClock k)) :=
      windowEvent_moved (s := s.setClock k) hq (ho.of_slots rfl)
    have clock : ((jumpEvent (s.setClock k)).setTx .showSel (answer .ok)).clock = k := frame.clock
    refine ⟨_, takeCommand_answers awaits (.inl rfl) taken, ?_, ?_, ?_⟩
    · rw [clock]
      exact setTx_grantFrame frame .showSel (answer .ok)
    · rw [clock, ← hk, loadedRun_eq]
    · rw [clock]
      exact moved
  · exact takeCommand_answers awaits (.inl rfl) (if_pos (skipOut.mpr out))
  · refine takeCommand_answers awaits (.inl rfl) ((if_neg (mt skipOut.mp ?_)).trans (if_pos other))
    omega
  · have inside : ¬ (v.toNat = 0 || decide (Config.maxSkip < v.toNat)) = true := mt skipOut.mp (by omega)
    generalize hk : ({ s.clock with count := min (s.clock.count + v.toNat) Config.maxTick } : Clock) = k
    have taken : skipOperand v s = (endClock (jumpEvent (s.setClock k)), answer .ok) := by
      rw [← hk]
      exact (if_neg inside).trans (if_neg (not_not_intro frozen))
    obtain ⟨clock, frame, moved⟩ := endClock_moved (jump := true) (v := s.setClock k) hq (ho.of_slots rfl)
    generalize ht : endClock (windowEvent true (s.setClock k)) = t at clock frame moved
    have taken_clock : (t.setTx .showSel (answer .ok)).clock = t.clock := rfl
    refine ⟨t.setTx .showSel (answer .ok), takeCommand_answers awaits (.inl rfl) (taken.trans (by rw [← ht]; rfl)), ?_, ?_, ?_⟩
    · rw [taken_clock]
      exact setTx_grantFrame frame .showSel (answer .ok)
    · have top : (16777215 ≤ min (s.clock.count + v.toNat) Config.maxTick) = (16777215 ≤ s.clock.count + v.toNat) :=
        propext (Nat.le_min.trans (and_iff_left (Nat.le_refl 16777215)))
      rw [taken_clock, clock, ← hk, ← frozen]
      simp only [State.setClock, top]
      rfl
    · rw [taken_clock, clock, ← hk]
      rw [← hk] at moved
      exact moved

end Sys2Proof.Machine
end

section
/-! PROOF. The loading of a template (O44). -/

namespace Sys2Proof.Machine

section
variable {t : TemplateSet}

theorem emptyWay_lowest {w : Fin 4} (empty : t.ways[w] = none) (full : ∀ v : Fin 4, v < w → t.ways[v] ≠ none) :
    t.emptyWay = some w := by
  refine find_lowest _ w (by rw [empty]; rfl) fun v hv => ?_
  rw [← Bool.not_eq_true, Option.isNone_iff_eq_none]
  exact full v hv

theorem emptyWay_none (full : ∀ v : Fin 4, t.ways[v] ≠ none) : t.emptyWay = none := by
  unfold TemplateSet.emptyWay
  rw [List.find?_eq_none]
  intro v _
  rw [Option.isNone_iff_eq_none]
  exact full v

/-- The ways in the order a displacement tries them (R149). -/
theorem displaced_eq : t.displaced = ((List.finRange 4).find? fun n => t.unlocked (t.victim + n)).map (t.victim + ·) := by
  have order : ∀ v : Fin 4, [v, v + 1, v + 2, v + 3] = (List.finRange 4).map (v + ·) := by decide
  unfold TemplateSet.displaced
  rw [order, List.find?_map]
  rfl

theorem unlocked_iff (w : Fin 4) : t.unlocked w = true ↔ ∃ o, t.ways[w] = some o ∧ o.locked = false := by
  rw [TemplateSet.unlocked, Option.any_eq_true]
  simp only [Bool.not_eq_true']

theorem not_unlocked {w : Fin 4} (locked : ∀ o, t.ways[w] = some o → o.locked = true) : t.unlocked w = false := by
  rw [← Bool.not_eq_true, unlocked_iff]
  rintro ⟨o, ho, free⟩
  exact Bool.false_ne_true (free.symm.trans (locked o ho))

theorem displaced_none (locked : ∀ (v : Fin 4) (o : Template), t.ways[v] = some o → o.locked = true) : t.displaced = none := by
  have none_found : ((List.finRange 4).find? fun n => t.unlocked (t.victim + n)) = none := by
    rw [List.find?_eq_none]
    intro n _
    rw [not_unlocked (locked _)]
    exact Bool.false_ne_true
  rw [displaced_eq, none_found]
  rfl

theorem displaced_first {n w : Fin 4} {old : Template} (hw : w = t.victim + n) (hold : t.ways[w] = some old)
    (free : old.locked = false)
    (locked : ∀ m : Fin 4, m < n → ∀ o, t.ways[t.victim + m] = some o → o.locked = true) : t.displaced = some w := by
  have found : ((List.finRange 4).find? fun n => t.unlocked (t.victim + n)) = some n :=
    find_lowest _ n ((unlocked_iff _).mpr ⟨old, hw ▸ hold, free⟩) fun m hm => not_unlocked (locked m hm)
  rw [displaced_eq, found, hw]
  rfl

/-- An access turns the tree away from the way (R148). -/
theorem access_tree (w : Fin 4) : (t.access w).ways = t.ways ∧ (t.access w).root = (if w.val < 2 then .high else .low) ∧
    (t.access w).lowChoice = (if w.val < 2 then decide (w.val = 0) else t.lowChoice) ∧
    (t.access w).highChoice = (if w.val < 2 then t.highChoice else decide (w.val = 2)) := by
  match w with
  | 0 => exact ⟨rfl, rfl, rfl, rfl⟩
  | 1 => exact ⟨rfl, rfl, rfl, rfl⟩
  | 2 => exact ⟨rfl, rfl, rfl, rfl⟩
  | 3 => exact ⟨rfl, rfl, rfl, rfl⟩

/-- The victim lies in the pair the root points at (R148). -/
theorem victim_pair (t : TemplateSet) : t.victim.val / 2 = if t.root = .low then 0 else 1 := by
  unfold TemplateSet.victim
  cases t.root with
  | low =>
    dsimp only
    split <;> rfl
  | high =>
    dsimp only
    split <;> rfl

theorem access_victim (w : Fin 4) : (t.access w).victim.val / 2 ≠ w.val / 2 := by
  rw [victim_pair, (access_tree w).2.1]
  by_cases low : w.val < 2
  · rw [if_pos low, if_neg nofun]
    omega
  · rw [if_neg low, if_pos rfl]
    omega

end

section
variable {s : State} {cue : Word16} {fb : Byte} {box : BoxBytes} {off dur : Word16}

theorem exec_loadTemplate_answers {t : State} {x : Transaction} (ha : Awaits s .showSel .loadTemplate)
    (ho : loadTemplateOperands cue fb box off dur s = (t, x)) :
    exec (.loadTemplate cue fb box off dur) s = .next (t.setTx .showSel x) := takeCommand_answers ha (.inl rfl) ho

theorem loadTemplateOperands_bad (h : 4095 < cue.toNat ∨ fb.toNat = 0 ∨ 8 < fb.toNat ∨ (boxOfBytes box).wf = false) :
    loadTemplateOperands cue fb box off dur s = (s, answer .badOperand) := by
  unfold loadTemplateOperands
  rcases h with out | zero | high | unformed
  · rw [cueOf_none out]
    rfl
  · rw [flyerOf_none (.inl zero)]
    cases cueOf cue <;> rfl
  · rw [flyerOf_none (.inr high)]
    cases cueOf cue <;> rfl
  · rw [boxOf_none unformed]
    cases cueOf cue with
    | none => rfl
    | some c => cases flyerOf fb <;> rfl

theorem loadTemplateOperands_named {f : Flyer} (hc : cue.toNat ≤ 4095) (hf : fb.toNat = flyerNumber f)
    (hb : (boxOfBytes box).wf = true) : loadTemplateOperands cue fb box off dur s = loadTemplate
      { cue := cue.toNat, flyer := f, box := boxOfBytes box, offset := off.toNat, duration := dur.toNat, locked := false } s := by
  unfold loadTemplateOperands
  rw [cueOf_some hc, flyerOf_number hf, boxOf_some hb]

end

/-- Settles O44: the operands, then the way a load takes: its cue's, an empty one, or the displaced one. -/
theorem loadTemplate_holds : Obligations.LoadTemplate := by
  unfold Obligations.LoadTemplate
  refine ⟨fun s cue fb box off dur ha => ⟨fun bad => exec_loadTemplate_answers ha (loadTemplateOperands_bad bad),
    fun f k set x hc hf hb hk hset hx => ?_⟩, fun set w => ?_⟩
  · have operands := loadTemplateOperands_named (s := s) (off := off) (dur := dur) hc hf hb
    rw [← hx] at operands
    have cue_x : x.cue = cue.toNat := by rw [hx]
    have chosen := operands.trans (loadTemplate_of_set (x := x) (k := k) (by rw [cue_x]; exact cueSet_eq hk) s)
    rw [← hset] at chosen
    refine ⟨fun w old hold hcue lowest => ?_, fun missing => ⟨fun w empty full => ?_, fun full => ⟨fun locked => ?_,
      fun n w old hw hold free locked => ?_⟩⟩⟩
    · rw [find_hit (cue := x.cue) hold (hcue.trans cue_x.symm) (cue_x.symm ▸ lowest)] at chosen
      have kept : set.lockedAt w = old.locked := by
        unfold TemplateSet.lockedAt
        rw [hold]
        rfl
      dsimp only at chosen
      rw [kept] at chosen
      exact exec_loadTemplate_answers ha chosen
    all_goals rw [find_miss (cue := x.cue) (cue_x.symm ▸ missing)] at chosen
    · rw [emptyWay_lowest empty full] at chosen
      exact exec_loadTemplate_answers ha chosen
    all_goals rw [emptyWay_none full] at chosen
    · rw [displaced_none locked] at chosen
      exact exec_loadTemplate_answers ha chosen
    · rw [displaced_first hw hold free locked] at chosen
      have evicted : set.cueAt w = some old.cue := by
        unfold TemplateSet.cueAt
        rw [hold]
        rfl
      dsimp only at chosen
      rw [evicted] at chosen
      exact ⟨_, exec_loadTemplate_answers ha chosen, rfl⟩
  · obtain ⟨ways, root, low, high⟩ := access_tree (t := set) w
    exact ⟨ways, root, low, high, access_victim w⟩

end Sys2Proof.Machine
end

section
/-! PROOF. A push of a hold while no grant is live, the sampling of STOP and RING, and the walk of the head begun (R49, R118, R119, R123). -/

namespace Sys2Proof.Machine

/-! ## Pushes while no grant is live -/

theorem removeGrant_none {f : Flyer} {s : State} (none : s.grantOf f = none) (r : Reason) : removeGrant f r s = s := by
  unfold removeGrant
  rw [none]

theorem removeAllGrants_ungranted {s : State} (free : ∀ f : Flyer, s.grantOf f = none) : removeAllGrants s = s := by
  unfold removeAllGrants
  generalize allFlyers = flyers
  induction flyers with
  | nil => rfl
  | cons f flyers ih => rw [List.foldl_cons, removeGrant_none (free f), ih]

/-- From s to t the hold list took some entries: a RUNNING clock froze if the list was empty, HOLDS_CHANGED was raised where the pushes raise it, and the alert record and its lines may have moved. -/
def TookHolds (entries : List HoldEntry) (flag : Bool) (s t : State) : Prop :=
  ∃ alert attn level, t = { s with
    holds := s.holds ++ entries
    clock := { s.clock with run := if s.clock.run = .running ∧ s.holds = [] ∧ entries ≠ [] then .frozen else s.clock.run }
    attention := if flag = true ∧ entries ≠ [] then raisedBy 0x040 s.attention else s.attention
    alert := alert
    lines := { s.lines with attn := attn, alert := level } }

theorem TookHolds.none {flag : Bool} {s : State} (alert : AlertRecord) (attn level : Level) :
    TookHolds [] flag s { s with alert := alert, lines := { s.lines with attn := attn, alert := level } } := by
  refine ⟨alert, attn, level, ?_⟩
  rw [List.append_nil, if_neg (fun h => h.2.2 rfl), if_neg (fun h => h.2 rfl)]

theorem TookHolds.trans {as bs : List HoldEntry} {flag : Bool} {s t u : State} (h : TookHolds as flag s t)
    (k : TookHolds bs flag t u) : TookHolds (as ++ bs) flag s u := by
  obtain ⟨_, _, _, rfl⟩ := h
  obtain ⟨alert, attn, level, rfl⟩ := k
  refine ⟨alert, attn, level, ?_⟩
  have run : (if (if s.clock.run = .running ∧ s.holds = [] ∧ as ≠ [] then RunState.frozen else s.clock.run) = .running ∧
        s.holds ++ as = [] ∧ bs ≠ [] then RunState.frozen
      else if s.clock.run = .running ∧ s.holds = [] ∧ as ≠ [] then RunState.frozen else s.clock.run) =
      if s.clock.run = .running ∧ s.holds = [] ∧ as ++ bs ≠ [] then .frozen else s.clock.run := by
    cases as with
    | nil => simp
    | cons a as => simp
  have attention : (if flag = true ∧ bs ≠ [] then
        raisedBy 0x040 (if flag = true ∧ as ≠ [] then raisedBy 0x040 s.attention else s.attention)
      else if flag = true ∧ as ≠ [] then raisedBy 0x040 s.attention else s.attention) =
      if flag = true ∧ as ++ bs ≠ [] then raisedBy 0x040 s.attention else s.attention := by
    cases flag with
    | false => simp
    | true =>
      cases as with
      | nil => simp
      | cons a as =>
        by_cases empty : bs = []
        · simp [empty]
        · simp [empty, raisedBy_raisedBy]
  dsimp only
  rw [run, attention, List.append_assoc]

theorem raiseFlag_driven (f : Flag) (s : State) : ∃ attn level, raiseFlag f s = { s with
    attention := raisedBy f.bit s.attention
    lines := { s.lines with attn := attn, alert := level } } := ⟨_, _, raiseFlag_eq rfl⟩

/-- A push while no grant is live takes its entry if the source has none (R118, R119). -/
theorem pushHold_took {src : HoldSource} {flag : Bool} {s : State} (free : ∀ f : Flyer, s.grantOf f = none) :
    TookHolds (if s.holding src = true then [] else [{ source := src, tick := s.now }]) flag s (pushHold src flag s) := by
  unfold pushHold
  split
  · exact TookHolds.none s.alert s.lines.attn s.lines.alert
  · dsimp only
    have ungranted : ∀ u : State, u.grants = s.grants → removeAllGrants u = u := fun u same =>
      removeAllGrants_ungranted fun f => by
        unfold State.grantOf
        rw [same]
        exact free f
    rw [ungranted _ (by split <;> rfl)]
    obtain ⟨attn, level, raised⟩ :=
      raiseFlag_driven .holdsChanged { s with holds := s.holds ++ [{ source := src, tick := s.now }] }
    rw [raised]
    by_cases empty : s.holds = []
    · have run : (if s.clock.run = .running then RunState.frozen else s.clock.run) = if s.clock.run = .running ∧ s.holds = [] ∧
          ([{ source := src, tick := s.now }] : List HoldEntry) ≠ [] then .frozen else s.clock.run := by simp [empty]
      rw [if_pos (by rw [empty]; rfl), freeze_clock]
      cases flag with
      | false =>
        refine ⟨s.alert, s.lines.attn, s.lines.alert, ?_⟩
        rw [← run]
        rfl
      | true =>
        refine ⟨s.alert, attn, level, ?_⟩
        rw [← run]
        rfl
    · have run : s.clock.run = if s.clock.run = .running ∧ s.holds = [] ∧
          ([{ source := src, tick := s.now }] : List HoldEntry) ≠ [] then .frozen else s.clock.run := by simp [empty]
      rw [if_neg (by rw [List.isEmpty_iff]; exact empty)]
      cases flag with
      | false =>
        refine ⟨s.alert, s.lines.attn, s.lines.alert, ?_⟩
        rw [← run]
        rfl
      | true =>
        refine ⟨s.alert, attn, level, ?_⟩
        rw [← run]
        rfl

theorem TookHolds.alerted {entries : List HoldEntry} {flag : Bool} {s t : State} (h : TookHolds entries flag s t)
    (a : AlertRecord) : TookHolds entries flag s (alerted a t) := by
  obtain ⟨_, _, _, rfl⟩ := h
  exact ⟨a, _, _, rfl⟩

theorem TookHolds.ungranted {entries : List HoldEntry} {flag : Bool} {s t : State} (h : TookHolds entries flag s t)
    (free : ∀ f : Flyer, s.grantOf f = .none) (f : Flyer) : t.grantOf f = .none := by
  obtain ⟨_, _, _, rfl⟩ := h
  exact free f

theorem TookHolds.holding {src : HoldSource} {entries : List HoldEntry} {flag : Bool} {s t : State}
    (h : TookHolds entries flag s t) (other : ∀ e ∈ entries, e.source ≠ src) : t.holding src = s.holding src := by
  obtain ⟨_, _, _, rfl⟩ := h
  have none : entries.any (fun e => decide (e.source = src)) = false := by
    rw [List.any_eq_false]
    intro e he
    simpa using other e he
  unfold State.holding
  dsimp only
  rw [List.any_append, none, Bool.or_false]

theorem takeStop_alerted (flag : Bool) (s : State) : takeStop flag s =
    alerted (alertAfter s.alert { cause := .stop, tick := s.now }) (pushHold .stop flag s) := by
  unfold takeStop
  rw [recordAlert_eq, (pushHold_frame .stop flag s).alert, pushHold_now]

/-- The first part of the sampling: STOP's alert is recorded each time it stands asserted, its entry taken once (R123, R172). -/
def stopSampled (flag : Bool) (s : State) : State := if s.inputs.stop then takeStop flag s else s

theorem stopSampled_took {flag : Bool} {s : State} (free : ∀ f : Flyer, s.grantOf f = none) :
    TookHolds (if s.inputs.stop = true ∧ s.holding .stop = false then [{ source := .stop, tick := s.now }] else []) flag s
        (stopSampled flag s) ∧
      (stopSampled flag s).alert =
        (if s.inputs.stop = true then alertAfter s.alert { cause := .stop, tick := s.now } else s.alert) ∧
      (stopSampled flag s).now = s.now := by
  unfold stopSampled
  cases stop : s.inputs.stop with
  | false => exact ⟨TookHolds.none s.alert s.lines.attn s.lines.alert, rfl, rfl⟩
  | true =>
    rw [if_pos rfl, if_pos rfl, takeStop_alerted]
    refine ⟨?_, rfl, pushHold_now .stop flag s⟩
    have took := (pushHold_took (src := .stop) (flag := flag) free).alerted
      (alertAfter s.alert { cause := .stop, tick := s.now })
    cases held : s.holding .stop with
    | true =>
      rw [held, if_pos rfl] at took
      rw [if_neg (fun h => absurd h.2 nofun)]
      exact took
    | false =>
      rw [held, if_neg Bool.false_ne_true] at took
      rw [if_pos (c := true = true ∧ false = false) ⟨rfl, rfl⟩]
      exact took

/-- What STOP and RING find when they are sampled while no grant is live (R123, R172). -/
theorem sampleLines_took {flag : Bool} {s : State} (free : ∀ f : Flyer, s.grantOf f = none) :
    TookHolds (sampledHolds s) flag s (sampleLines flag s) ∧ (sampleLines flag s).alert =
      if s.inputs.stop = true then alertAfter s.alert { cause := .stop, tick := s.now } else s.alert := by
  obtain ⟨stopped, alert, now⟩ := stopSampled_took (flag := flag) free
  have inputs : (stopSampled flag s).inputs = s.inputs := by
    obtain ⟨_, _, _, h⟩ := stopped
    rw [h]
  have ring : (stopSampled flag s).holding .ring = s.holding .ring := stopped.holding fun e he => by
    split at he
    · rw [List.mem_singleton.mp he]
      exact fun h => nomatch h
    · exact absurd he List.not_mem_nil
  have unfolded : sampleLines flag s =
      if (stopSampled flag s).inputs.ring then takeRing flag (stopSampled flag s) else stopSampled flag s := rfl
  rw [unfolded, inputs]
  cases line : s.inputs.ring with
  | false =>
    rw [if_neg Bool.false_ne_true]
    refine ⟨?_, alert⟩
    unfold sampledHolds
    rw [line, if_neg (c := false = true ∧ s.holding .ring = false) (fun h => absurd h.1 Bool.false_ne_true), List.append_nil]
    exact stopped
  | true =>
    rw [if_pos rfl]
    refine ⟨?_, ((pushHold_frame .ring flag _).alert).trans alert⟩
    have rung := pushHold_took (src := .ring) (flag := flag) (stopped.ungranted free)
    rw [ring, now] at rung
    have both := stopped.trans rung
    unfold sampledHolds
    cases held : s.holding .ring with
    | true =>
      rw [held, if_pos rfl] at both
      rw [if_neg (c := s.inputs.ring = true ∧ true = false) (fun h => absurd h.2 nofun)]
      exact both
    | false =>
      rw [held, if_neg Bool.false_ne_true] at both
      rw [line, if_pos (c := true = true ∧ false = false) ⟨rfl, rfl⟩]
      exact both

/-! ## The head's walk begun (R49) -/

/-- A subject that fits its entry gives a candidate (R34, R35, R38). -/
theorem candidateOf_fits {s : State} {e : Entry} (fits : subjectFits s e = true) : ∃ cand, s.candidateOf e = some cand := by
  cases e with
  | book h =>
    obtain ⟨c, hr, -⟩ := Option.any_eq_true _ _ |>.mp fits
    exact ⟨_, congrArg (Option.map _) hr⟩
  | amend h =>
    obtain ⟨c, hr, pending⟩ := Option.any_eq_true _ _ |>.mp fits
    rw [Bool.and_eq_true] at pending
    obtain ⟨a, ha⟩ := Option.isSome_iff_exists.mp pending.2
    refine ⟨amendCandidate c a, ?_⟩
    unfold State.candidateOf
    dsimp only
    rw [hr, Option.bind_some, ha]
    rfl
  | zone z =>
    unfold State.candidateOf
    unfold subjectFits at fits
    dsimp only at fits ⊢
    cases hz : s.zones[z] with
    | pending area => exact ⟨_, rfl⟩
    | set area r v =>
      rw [hz] at fits
      cases r with
      | none => exact absurd fits Bool.false_ne_true
      | some r => exact ⟨_, rfl⟩
    | empty => rw [hz] at fits; exact absurd fits Bool.false_ne_true
    | refused area h => rw [hz] at fits; exact absurd fits Bool.false_ne_true

theorem formed_claimAt (e : Entry) (s : State) (j : Slot) : (formWalk e s).claimAt j = s.claimAt j := rfl

theorem formed_handleAt (e : Entry) (s : State) (j : Slot) : (formWalk e s).handleAt j = s.handleAt j := rfl

theorem checkSubject_book_claimAt (h : Handle) (s : State) (j : Slot) : (checkSubject (.book h) s).claimAt j =
    if s.handleAt j = h then (s.claimAt j).map fun c => { c with state := .checking } else s.claimAt j := by
  unfold checkSubject
  dsimp only
  cases hr : s.resolve h with
  | none =>
    dsimp only
    split
    · next same =>
      subst same
      have free : s.claimAt j = none := by
        rw [← hr]
        exact (if_pos rfl).symm
      rw [free]
      rfl
    · rfl
  | some c =>
    obtain ⟨gen, claim⟩ := resolve_eq_some.mp hr
    dsimp only
    rw [setClaim_claimAt]
    by_cases at_slot : h.slot = j
    · subst at_slot
      rw [if_pos rfl, if_pos (handleAt_eq hr), claim]
      rfl
    · rw [if_neg at_slot, if_neg]
      intro same
      exact at_slot (by rw [← same]; rfl)

/-- The candidate of an entry reads nothing of its subject that CHECKING changes (R34). -/
theorem checkSubject_candidateOf (e : Entry) (s : State) : (checkSubject e s).candidateOf e = s.candidateOf e := by
  cases e with
  | book h =>
    unfold checkSubject
    dsimp only
    cases hr : s.resolve h with
    | none => rfl
    | some c =>
      have resolved : (s.setClaim h.slot { c with state := .checking }).resolve h = some { c with state := .checking } :=
        resolve_eq_some.mpr ⟨(setClaim_gen _ _ _ _).trans (resolve_eq_some.mp hr).1, by rw [setClaim_claimAt, if_pos rfl]⟩
      unfold State.candidateOf
      dsimp only
      rw [resolved, hr]
      rfl
  | amend h => rfl
  | zone z => rfl

/-- The head's walk begun moves the claim table and the admission record alone. -/
theorem beginHead_moved (s : State) : ∃ slots admission, beginHead s = { s with slots := slots, admission := admission } := by
  have checked (e : Entry) (u : State) : ∃ slots, checkSubject e u = { u with slots := slots } := by
    unfold checkSubject
    cases e with
    | book h =>
      dsimp only
      cases u.resolve h with
      | none => exact ⟨u.slots, rfl⟩
      | some c => exact ⟨_, rfl⟩
    | amend h => exact ⟨u.slots, rfl⟩
    | zone z => exact ⟨u.slots, rfl⟩
  unfold beginHead
  split
  · split
    · exact ⟨s.slots, s.admission, rfl⟩
    · next e _ _ =>
      obtain ⟨slots, moved⟩ := checked e (formWalk e s)
      exact ⟨slots, _, moved⟩
  · exact ⟨s.slots, s.admission, rfl⟩

section
variable {s : State} (running : s.running = true) (idle : s.admission.walk = none)
include running idle

theorem beginHead_head {e : Entry} (head : s.admission.queue.head? = some e) : beginHead s = checkSubject e (formWalk e s) := by
  unfold beginHead
  rw [if_pos (by rw [running, idle]; rfl)]
  cases hq : s.admission.queue with
  | nil =>
    rw [hq] at head
    exact absurd head nofun
  | cons x l =>
    rw [hq] at head
    cases head
    rfl

theorem beginHead_empty (empty : s.admission.queue = []) : beginHead s = s := by
  unfold beginHead
  rw [if_pos (by rw [running, idle]; rfl), empty]

/-- The head's BOOK claim goes CHECKING; no other claim moves (R7). -/
theorem beginHead_claimAt (j : Slot) : (beginHead s).claimAt j =
    if s.admission.queue.head? = some (.book (s.handleAt j)) then (s.claimAt j).map fun c => { c with state := .checking }
    else s.claimAt j := by
  cases hq : s.admission.queue with
  | nil =>
    rw [beginHead_empty running idle hq]
    exact (if_neg nofun).symm
  | cons e l =>
    rw [beginHead_head running idle (by rw [hq]; rfl), List.head?_cons]
    cases e with
    | book h =>
      exact (checkSubject_book_claimAt h (formWalk (.book h) s) j).trans (by simp only [formed_claimAt, formed_handleAt, Option.some.injEq, Entry.book.injEq, eq_comm])
    | amend h => exact (if_neg (fun same => nomatch same)).symm
    | zone z => exact (if_neg (fun same => nomatch same)).symm

/-- After the head's walk begins it stands at its beginning, with its subject's candidate (R28, R34, R35). -/
theorem beginHead_headWalked (fits : SubjectsFit s) : HeadWalked (beginHead s) := by
  refine ⟨fun empty => ?_, fun e head => ?_⟩
  · rw [beginHead_queue] at empty
    rw [beginHead_empty running idle empty]
    exact idle
  · rw [beginHead_queue] at head
    have mem : e ∈ s.admission.queue := List.mem_of_mem_head? head
    obtain ⟨cand, formed⟩ := candidateOf_fits (fits e mem)
    rw [beginHead_head running idle head]
    refine ⟨cand, ?_, ?_⟩
    · rw [← formed]
      exact (checkSubject_candidateOf e (formWalk e s)).trans rfl
    · rw [checkSubject_admission]
      unfold formWalk
      rw [setAdmission_admission, formed]
      rfl

end

end Sys2Proof.Machine
end

section
/-! PROOF. What a backup entry and a restart make of every block, and the restart's run of the part again (R17, R24, R49, R75, R106, R123, R124, R173, R177). -/

namespace Sys2Proof.Machine

/-! ## The halt of every block -/

theorem restartClaims_claimAt (s : State) (j : Slot) :
    (restartClaims s).claimAt j = (s.claimAt j).map fun c => { c with state := c.state.restarted } := by
  unfold restartClaims State.claimAt
  dsimp only
  rw [tabulate_get]

theorem restartClaims_gen (s : State) (j : Slot) : (restartClaims s).slots[j].gen = s.slots[j].gen := by
  unfold restartClaims
  dsimp only
  rw [tabulate_get]

theorem haltedBlocks_claimAt (s : State) (j : Slot) :
    (haltedBlocks s).claimAt j = (s.claimAt j).map fun c => { c with state := c.state.restarted } :=
  restartClaims_claimAt (dropWalk (forgetPositions (discardGrants (dropTransactions s)))) j

theorem haltedBlocks_gen (s : State) (j : Slot) : (haltedBlocks s).slots[j].gen = s.slots[j].gen :=
  restartClaims_gen (dropWalk (forgetPositions (discardGrants (dropTransactions s)))) j

theorem haltedBlocks_grants (s : State) (f : Flyer) : (haltedBlocks s).grants[f] = { seq := s.grants[f].seq, live := none } :=
  tabulate_get (fun f => ({ seq := s.grants[f].seq, live := none } : GrantRec)) f

theorem haltedBlocks_flyers (s : State) (f : Flyer) :
    (haltedBlocks s).flyers[f] = { position := none, grounded := true, breach := s.flyers[f].breach } :=
  tabulate_get (fun f => ({ position := none, grounded := true, breach := s.flyers[f].breach } : FlyerRec)) f

theorem haltedBlocks_holding (src : HoldSource) (s : State) : (haltedBlocks s).holding src = s.holding src := rfl

theorem haltedBlocks_now (s : State) : (haltedBlocks s).now = s.now := rfl

theorem haltedBlocks_ungranted (s : State) (f : Flyer) : (haltedBlocks s).grantOf f = none :=
  congrArg GrantRec.live (haltedBlocks_grants s f)

/-- RESTART is pushed on a halted part, whose list then is not empty (R118, R124). -/
theorem haltBlocks_took (s : State) :
    TookHolds (if s.holding .restart = true then [] else [{ source := .restart, tick := s.now }]) false
      (haltedBlocks s) (haltBlocks s) := by
  have took := pushHold_took (src := .restart) (flag := false) (haltedBlocks_ungranted s)
  rw [haltedBlocks_holding, haltedBlocks_now] at took
  rw [haltBlocks_eq]
  exact took

/-- A halt leaves what the channels, the alert unit, the supply and the inputs hold, and stops the timers (R145). -/
structure Halted (s t : State) : Prop where
  halt : HaltedFrom false s t
  channels : t.channels = s.channels
  supply : t.supply = s.supply
  inputs : t.inputs = s.inputs
  alert : t.alert = s.alert
  flags : t.attention.flags = s.attention.flags
  pulse : t.clock.pulseWatch = none
  period : t.clock.period = none
  now : t.now = s.now

/-- What R17 makes of each claim. -/
theorem haltedBlocks_claims (s : State) (j : Slot) : (s.claimAt j = none → (haltedBlocks s).claimAt j = none) ∧
    ∀ c, s.claimAt j = some c →
      (c.state = .active → (haltedBlocks s).claimAt j = some { c with state := .held .restart false }) ∧
      (c.state = .overrun → (haltedBlocks s).claimAt j = some { c with state := .held .restart true }) ∧
      ((c.state = .queued ∨ c.state = .checking) → (haltedBlocks s).claimAt j = some { c with state := .queued }) ∧
      (c.state.isHeld = true ∨ c.state = .booked ∨ c.state = .refused → (haltedBlocks s).claimAt j = some c) := by
  rw [haltedBlocks_claimAt]
  refine ⟨fun free => by rw [free]; rfl, fun c hc => ?_⟩
  rw [hc]
  obtain ⟨flyer, region, start, stop, state⟩ := c
  cases state <;> simp [ClaimState.restarted, ClaimState.isHeld]

theorem haltedBlocks_frame (s : State) : ∃ slots grants flyers, haltedBlocks s = { s with
    slots := slots
    grants := grants
    flyers := flyers
    admission := { s.admission with walk := none }
    arbiter := { lastServed := 7, walkCount := 0 }
    console := { showTx := .idle, crewTx := .idle }
    attention := { s.attention with current := none, whole := none }
    clock := { s.clock with request := none, pulseWatch := none, period := none }
    lines := { s.lines with permit := Vector.replicate 16 .low } } := by
  unfold haltedBlocks stopTimers restartClaims dropWalk forgetPositions discardGrants dropTransactions forgetShown
  exact ⟨_, _, _, rfl⟩

theorem haltBlocks_halted (s : State) : Halted s (haltBlocks s) := by
  have took := haltBlocks_took s
  have claims := haltedBlocks_claims s
  have gens := haltedBlocks_gen s
  have grants := haltedBlocks_grants s
  have flyers := haltedBlocks_flyers s
  have now : (haltBlocks s).now = s.now := pushHold_now .restart false (haltedBlocks s)
  have alert : (haltBlocks s).alert = s.alert := (pushHold_frame .restart false (haltedBlocks s)).alert
  obtain ⟨slots, table, records, frame⟩ := haltedBlocks_frame s
  generalize haltBlocks s = t at *
  generalize haltedBlocks s = u at *
  subst frame
  obtain ⟨_, attn, level, rfl⟩ := took
  cases alert
  have pushed (h : s.holds = []) : s.holding .restart = false := by
    unfold State.holding
    rw [h]
    rfl
  have run : (if s.clock.run = .running ∧ s.holds = [] ∧
        (if s.holding .restart = true then [] else [({ source := .restart, tick := s.now } : HoldEntry)]) ≠ [] then RunState.frozen
      else s.clock.run) = if s.clock.run = .running ∧ s.holds = [] then .frozen else s.clock.run := by
    by_cases none : s.holds = []
    · rw [pushed none]
      simp [none]
    · simp [none]
  refine ⟨⟨rfl, fun f => ⟨grants f, flyers f⟩, fun j => ?_, rfl, fun _ => rfl, fun on => absurd on Bool.false_ne_true,
    rfl, rfl, rfl, rfl, ?_, run, rfl, rfl, rfl, rfl, rfl, rfl, rfl, rfl, rfl, fun w => ?_⟩, rfl, rfl, rfl, rfl, rfl, rfl, rfl, now⟩
  · obtain ⟨free, states⟩ := claims j
    refine ⟨gens j, free, fun c hc => ?_⟩
    obtain ⟨active, overrun, waiting, stays⟩ := states c hc
    exact ⟨active, overrun, waiting, stays⟩
  · exact (List.append_nil _).symm
  · exact Vector.getElem_replicate _

end Sys2Proof.Machine
end

section
/-! PROOF. The backup entry, the return of main and the RESET line, from what the halt makes of every block (R17, R49, R75, R93, R106, R123, R145, R170, R172 to R181). -/

namespace Sys2Proof.Machine

/-! ## Outputs -/

theorem levels_halted {s : State} (powered : s.supply.state ≠ .off) (halted : s.running = false) (asserted : Bool) :
    outputLevel s asserted = .low := by
  unfold outputLevel
  rw [if_neg powered, halted]
  rfl

theorem levels_running {s : State} (running : s.running = true) (asserted : Bool) :
    outputLevel s asserted = if asserted = true then .high else .low := by
  have powered : s.supply.state ≠ .off := fun off => by
    rw [((runs_iff s).mpr running).1] at off
    cases off
  unfold outputLevel
  rw [if_neg powered, running, Bool.true_and]

/-! ## The backup entry (R175) -/

section
variable {s u : State} (h : Halted s u)
include h

theorem Halted.backup : HaltedFrom false s (setSupplyState .backup (recordEntry (quietChannels u))) := h.halt

theorem Halted.quiet (c : Flyer) : (setSupplyState .backup (recordEntry (quietChannels u))).channels[c] =
    { state := s.channels[c].state, timer := none, inbound := [], out := [], rx := .hunting } := by
  have quiet : (setSupplyState .backup (recordEntry (quietChannels u))).channels[c] = quietChannel u.channels[c].state :=
    tabulate_get (fun c => quietChannel u.channels[c].state) c
  rw [quiet, h.channels]
  rfl

theorem Halted.entryRecord : (setSupplyState .backup (recordEntry (quietChannels u))).supply =
    { s.supply with
      state := .backup
      firstEntry := if s.supply.firstEntry = none then some s.now else s.supply.firstEntry
      count := if s.supply.count < 255 then s.supply.count + 1 else s.supply.count } := by
  have record : (setSupplyState .backup (recordEntry (quietChannels u))).supply =
      { u.supply with
        state := .backup
        firstEntry := match u.supply.firstEntry with
          | some t => some t
          | none => some u.now
        count := bumpCount u.supply.count } := rfl
  rw [record, h.supply, h.now]
  cases s.supply.firstEntry <;> rfl

end

/-- What BACKUP_ENTRY makes of the state (R17, R24, R49, R75, R93, R106, R124, R145, R173, R175, R181). -/
theorem backup_entered {s : State} (main : s.supply.state = .main) (present : s.supply.backupPresent = true) :
    ∃ t, exec .backupEntry s = .next t ∧
      HaltedFrom false s t ∧
      (∀ c : Flyer, t.channels[c] =
        { state := s.channels[c].state, timer := none, inbound := [], out := [], rx := .hunting }) ∧
      t.clock.pulseWatch = none ∧ t.clock.period = none ∧
      t.attention.flags = s.attention.flags ∧ t.alert = s.alert ∧ t.inputs = s.inputs ∧
      t.lines.attn = .low ∧ t.lines.alert = .low ∧
      t.supply = { s.supply with state := .backup
                                 firstEntry := if s.supply.firstEntry = none then some s.now else s.supply.firstEntry
                                 count := if s.supply.count < 255 then s.supply.count + 1 else s.supply.count } := by
  have entered : exec .backupEntry s = .next (setSupplyState .backup (recordEntry (quietChannels (haltBlocks s)))) :=
    if_pos (by rw [main, present]; rfl)
  have halted := haltBlocks_halted s
  generalize haltBlocks s = u at *
  exact ⟨_, entered, halted.backup, halted.quiet, halted.pulse, halted.period, halted.flags, halted.alert, halted.inputs,
    rfl, rfl, halted.entryRecord⟩

/-! ## The restart of every block (R93, R172, R177, R179) -/

/-- From s to t every block restarted: halted, the channels CLOSED, the RESTART alert recorded. -/
structure Restarted (s t : State) : Prop where
  halt : HaltedFrom false s t
  channels : ∀ c : Flyer, t.channels[c] = { state := .closed, timer := none, inbound := [], out := [], rx := .hunting }
  supply : t.supply = s.supply
  inputs : t.inputs = s.inputs
  alert : t.alert = alertAfter s.alert { cause := .restart, tick := s.now }
  pulse : t.clock.pulseWatch = none
  period : t.clock.period = none
  now : t.now = s.now

theorem Halted.restart {s u : State} (h : Halted s u) : Restarted s (recordAlert .restart (closeChannels u)) where
  halt := h.halt
  channels := fun c => Vector.getElem_replicate _
  supply := h.supply
  inputs := h.inputs
  alert := by
    rw [← h.alert, ← h.now]
    rfl
  pulse := h.pulse
  period := h.period
  now := h.now

theorem restartBlocks_restarted (s : State) : Restarted s (restartBlocks s) := (haltBlocks_halted s).restart

/-- The flags of a restart are set in a part that shows no status record (R170, R173). -/
theorem restartFlags_eq {s t : State} (h : t = restartFlags s) (current : s.attention.current = none)
    (whole : s.attention.whole = none) : t = { s with
      attention := { s.attention with flags := 0x400 }
      lines := { s.lines with attn := attnLevel t, alert := alertLevel s } } := by
  have flags : ∀ m : FlagSet, (m &&& ~~~BitVec.allOnes 11) ||| Flag.supplyReturned.bit = 0x400 := fun m => by
    rw [BitVec.not_allOnes, BitVec.and_zero]
    rfl
  have attention : { s.attention with
      flags := (s.attention.flags &&& ~~~BitVec.allOnes 11) ||| Flag.supplyReturned.bit
      current := s.attention.current.map (Shown.note Flag.supplyReturned.bit)
      whole := s.attention.whole.map (Shown.note Flag.supplyReturned.bit) } = { s.attention with flags := 0x400 } := by
    rw [flags, Attention.mk.injEq, current, whole]
    exact ⟨rfl, rfl, rfl, rfl, rfl⟩
  have raised : t = { s with
      attention := { s.attention with
        flags := (s.attention.flags &&& ~~~BitVec.allOnes 11) ||| Flag.supplyReturned.bit
        current := s.attention.current.map (Shown.note Flag.supplyReturned.bit)
        whole := s.attention.whole.map (Shown.note Flag.supplyReturned.bit) }
      lines := { s.lines with attn := attnLevel t, alert := alertLevel s } } := by
    subst h
    rfl
  exact raised.trans (congrArg
    (fun a => { s with attention := a, lines := { s.lines with attn := attnLevel t, alert := alertLevel s } }) attention)

/-- Nothing that a halt says of the state reads the flags, ATTN or ALERT. -/
theorem HaltedFrom.flagged {on : Bool} {s u : State} (h : HaltedFrom on s u) (flags : FlagSet) (attn level : Level) :
    HaltedFrom on s { u with
      attention := { u.attention with flags := flags }
      lines := { u.lines with attn := attn, alert := level } } := h

theorem restarted_shows {on : Bool} {s u : State} (h : HaltedFrom on s u) :
    u.attention.current = none ∧ u.attention.whole = none := by
  obtain ⟨-, -, -, -, -, -, -, -, current, whole, -⟩ := h
  exact ⟨current, whole⟩

/-- What a restart leaves where the part does not run in the event (R93, R170, R172, R176). -/
theorem Restarted.held {s u : State} (h : Restarted s u) (powered : s.supply.state ≠ .off) (halted : s.running = false) :
    HaltedFrom false s (restartFlags u) ∧
      (∀ c : Flyer, (restartFlags u).channels[c] = { state := .closed, timer := none, inbound := [], out := [], rx := .hunting }) ∧
      (restartFlags u).clock.pulseWatch = none ∧ (restartFlags u).clock.period = none ∧
      (restartFlags u).attention.flags = 0x400 ∧
      (restartFlags u).alert = alertAfter s.alert { cause := .restart, tick := s.now } ∧
      (restartFlags u).inputs = s.inputs ∧ (restartFlags u).supply = s.supply ∧
      (restartFlags u).lines.attn = .low ∧ (restartFlags u).lines.alert = .low := by
  obtain ⟨current, whole⟩ := restarted_shows h.halt
  have flagged := restartFlags_eq (s := u) rfl current whole
  have halted_level : ∀ b, outputLevel u b = .low := levels_halted (by rw [h.supply]; exact powered)
    (by unfold State.running; rw [h.supply, h.inputs]; exact halted)
  have attn : attnLevel (restartFlags u) = .low := halted_level _
  have level : alertLevel u = .low := halted_level _
  rw [attn, level] at flagged
  rw [flagged]
  exact ⟨h.halt.flagged _ _ _, h.channels, h.pulse, h.period, rfl, h.alert, h.inputs, h.supply, rfl, rfl⟩

/-! ## The restart's run of the part again (R49, R123, R145, R177) -/

/-- The state of a restarted part once its timers run and STOP and RING are sampled. -/
theorem Restarted.sampled {s u : State} (h : Restarted s u) :
    ∃ attn level, sampleLines false (startTimers u) = { u with
      clock := { u.clock with period := some 0, pulseWatch := if s.clock.source = .external then some 0 else none }
      holds := u.holds ++ sampledHolds s
      alert := if s.inputs.stop = true
        then alertAfter (alertAfter s.alert { cause := .restart, tick := s.now }) { cause := .stop, tick := s.now }
        else alertAfter s.alert { cause := .restart, tick := s.now }
      lines := { u.lines with attn := attn, alert := level } } := by
  obtain ⟨-, tables, -, -, -, -, -, -, -, -, list, -, -, source, -⟩ := h.halt
  have free : ∀ f : Flyer, (startTimers u).grantOf f = none := fun f => congrArg GrantRec.live (tables f).1
  obtain ⟨took, recorded⟩ := sampleLines_took (flag := false) free
  rw [if_neg Bool.false_ne_true, List.append_nil] at list
  have others (src : HoldSource) (other : src ≠ .restart) : (startTimers u).holding src = s.holding src := by
    have held : (startTimers u).holding src = u.holds.any (fun e => decide (e.source = src)) := rfl
    rw [held, list, List.any_append]
    have none : (if s.holding .restart = true then [] else [({ source := .restart, tick := s.now } : HoldEntry)]).any
        (fun e => decide (e.source = src)) = false := by
      split
      · rfl
      · simpa using Ne.symm other
    rw [none, Bool.or_false]
    rfl
  have filled : (startTimers u).holds ≠ [] := by
    have same : (startTimers u).holds = u.holds := rfl
    rw [same, list]
    intro empty
    obtain ⟨none, pushed⟩ := List.append_eq_nil_iff.mp empty
    have absent : s.holding .restart = false := by
      unfold State.holding
      rw [none]
      rfl
    rw [absent] at pushed
    exact absurd pushed nofun
  have entries : sampledHolds (startTimers u) = sampledHolds s := by
    have inputs : (startTimers u).inputs = s.inputs := h.inputs
    have now : (startTimers u).now = s.now := h.now
    unfold sampledHolds
    rw [inputs, now, others .stop nofun, others .ring nofun]
  have alert : (startTimers u).alert = alertAfter s.alert { cause := .restart, tick := s.now } := h.alert
  have inputs : (startTimers u).inputs = s.inputs := h.inputs
  have now : (startTimers u).now = s.now := h.now
  rw [alert, inputs, now] at recorded
  rw [entries] at took
  obtain ⟨_, attn, level, at_sample⟩ := took
  rw [if_neg (fun moved => filled moved.2.1), if_neg (fun moved => absurd moved.1 Bool.false_ne_true)] at at_sample
  rw [at_sample] at recorded
  cases recorded
  refine ⟨attn, level, at_sample.trans ?_⟩
  rw [← source]
  rfl

/-- Every entry fits its subject after a halt: a walked claim is QUEUED again, an occupying one still occupies (R17, R27). -/
theorem halted_fits {s u : State} (h : HaltedFrom false s u) (fits : SubjectsFit s) : SubjectsFit u := by
  obtain ⟨-, -, claims, queue, -, -, -, -, -, -, -, -, -, -, -, zones, -⟩ := h
  have resolved {g : Handle} {c : Claim} (hr : s.resolve g = some c) :
      ∃ d, u.resolve g = some d ∧ d.amend = c.amend ∧
        (c.state = .queued ∨ c.state = .checking → d.state = .queued) ∧ (c.state.occupying = true → d.state.occupying = true) := by
    obtain ⟨gen, claim⟩ := resolve_eq_some.mp hr
    obtain ⟨gens, -, states⟩ := claims g.slot
    obtain ⟨active, overrun, waiting, stays⟩ := states c claim
    have found {d : Claim} (hd : u.claimAt g.slot = some d) : u.resolve g = some d := resolve_eq_some.mpr ⟨gens.trans gen, hd⟩
    have requeued (waits : c.state = .queued ∨ c.state = .checking) :
        u.claimAt g.slot = some { c with state := .queued } := by
      rw [waiting waits, if_neg (fun on => absurd on.1 Bool.false_ne_true)]
    cases hc : c.state with
    | queued => exact ⟨_, found (requeued (Or.inl hc)), rfl, fun _ => rfl, fun other => absurd other Bool.false_ne_true⟩
    | checking => exact ⟨_, found (requeued (Or.inr hc)), rfl, fun _ => rfl, fun other => absurd other Bool.false_ne_true⟩
    | active => exact ⟨_, found (active hc), rfl, nofun, fun _ => rfl⟩
    | overrun => exact ⟨_, found (overrun hc), rfl, nofun, fun _ => rfl⟩
    | booked => exact ⟨c, found (stays (Or.inr (Or.inl hc))), rfl, nofun, fun _ => by rw [hc]; rfl⟩
    | held cause ended => exact ⟨c, found (stays (Or.inl (by rw [hc]; rfl))), rfl, nofun, fun _ => by rw [hc]; rfl⟩
    | refused => exact ⟨c, found (stays (Or.inr (Or.inr hc))), rfl, nofun, nofun⟩
  intro e mem
  rw [queue] at mem
  have fit := fits e mem
  cases e with
  | book g =>
    obtain ⟨c, hr, waiting⟩ := (Option.any_eq_true _ _).mp fit
    rw [Bool.or_eq_true, decide_eq_true_eq, decide_eq_true_eq] at waiting
    obtain ⟨d, hd, -, queued, -⟩ := resolved hr
    exact (Option.any_eq_true _ _).mpr ⟨d, hd, by rw [queued waiting]; rfl⟩
  | amend g =>
    obtain ⟨c, hr, pending⟩ := (Option.any_eq_true _ _).mp fit
    rw [Bool.and_eq_true] at pending
    obtain ⟨d, hd, amend, -, occupying⟩ := resolved hr
    exact (Option.any_eq_true _ _).mpr ⟨d, hd, by rw [occupying pending.1, amend, pending.2]; rfl⟩
  | zone z =>
    unfold subjectFits at fit ⊢
    dsimp only at fit ⊢
    rw [zones]
    exact fit

/-- The claims after the walk of the head begins in a halted part (R7, R17, R49). -/
theorem halted_walked {s u v : State} (h : HaltedFrom false s u) (fits : SubjectsFit s) (running : v.running = true)
    (slots : v.slots = u.slots) (admission : v.admission = u.admission) (j : Slot) :
    (beginHead v).slots[j].gen = s.slots[j].gen ∧ (s.claimAt j = none → (beginHead v).claimAt j = none) ∧
    ∀ c, s.claimAt j = some c →
      (c.state = .active → (beginHead v).claimAt j = some { c with state := .held .restart false }) ∧
      (c.state = .overrun → (beginHead v).claimAt j = some { c with state := .held .restart true }) ∧
      ((c.state = .queued ∨ c.state = .checking) →
        (beginHead v).claimAt j = some { c with state := if true = true ∧ s.admission.queue.head? = some (.book (s.handleAt j))
                                                         then .checking else .queued }) ∧
      (c.state.isHeld = true ∨ c.state = .booked ∨ c.state = .refused → (beginHead v).claimAt j = some c) := by
  obtain ⟨-, -, claims, queue, walk, -⟩ := h
  obtain ⟨gen, free, states⟩ := claims j
  have handle : v.handleAt j = s.handleAt j := by
    unfold State.handleAt
    rw [slots, gen]
  have moved := beginHead_claimAt running (by rw [admission]; exact walk rfl) j
  rw [claimAt_congr slots j, admission, queue, handle] at moved
  rw [beginHead_gen, slots]
  refine ⟨gen, fun none => ?_, fun c hc => ?_⟩
  · rw [moved, free none]
    exact ite_self _
  · obtain ⟨active, overrun, waiting, stays⟩ := states c hc
    have head (named : s.admission.queue.head? = some (.book (s.handleAt j))) : c.state = .queued ∨ c.state = .checking := by
      obtain ⟨d, hd, waits⟩ := (Option.any_eq_true _ _).mp (fits _ (List.mem_of_mem_head? named))
      have same : d = c := Option.some.inj ((resolve_eq_some.mp hd).2.symm.trans hc)
      rw [Bool.or_eq_true, decide_eq_true_eq, decide_eq_true_eq] at waits
      rw [← same]
      exact waits
    by_cases named : s.admission.queue.head? = some (.book (s.handleAt j))
    · rw [if_pos named] at moved
      have waits := head named
      rw [waiting waits] at moved
      rw [moved]
      refine ⟨fun hs => absurd (hs ▸ waits) nofun, fun hs => absurd (hs ▸ waits) nofun, fun _ => ?_, fun hs => ?_⟩
      · rw [if_pos (c := true = true ∧ _) ⟨rfl, named⟩]
        rfl
      · rcases waits with at_rest | at_rest
        · rw [at_rest] at hs
          exact absurd hs (by decide)
        · rw [at_rest] at hs
          exact absurd hs (by decide)
    · rw [if_neg named] at moved
      rw [moved]
      refine ⟨active, overrun, fun hs => ?_, stays⟩
      rw [waiting hs, if_neg (fun on => absurd on.1 Bool.false_ne_true), if_neg (fun on => named on.2)]

theorem alertAfter_recorded (a : AlertRecord) (e : AlertEvent) : 0 < (alertAfter a e).count := by
  unfold alertAfter
  dsimp only
  split <;> omega

theorem Restarted.enables {s u : State} (h : Restarted s u) : u.attention.enables = s.attention.enables := by
  obtain ⟨-, -, -, -, -, -, -, -, -, -, -, -, -, -, -, -, -, -, -, enables, -⟩ := h.halt
  exact enables

/-- SUPPLY_RETURNED alone is set: an enabled flag is set exactly where it is enabled (R168, R170). -/
theorem returned_enabled (enables : FlagSet) : ((0x400 : FlagSet) &&& enables ≠ 0) ↔ enables.getLsbD 10 = true := by
  have power : (0x400 : FlagSet) = BitVec.twoPow 11 10 := rfl
  rw [power, BitVec.and_comm, BitVec.and_twoPow]
  cases enables.getLsbD 10 with
  | true => exact ⟨fun _ => rfl, fun _ => by decide⟩
  | false => exact ⟨fun h => absurd rfl h, nofun⟩

/-- What a restart leaves where the part runs in the event (R49, R93, R123, R145, R170, R172, R177). -/
theorem Restarted.runs {s u : State} (h : Restarted s u) (running : s.running = true) (fits : SubjectsFit s) :
    ∃ t, t = beginHead (restartFlags (sampleLines false (startTimers u))) ∧
      HaltedFrom true s t ∧
      (∀ c : Flyer, t.channels[c] = { state := .closed, timer := none, inbound := [], out := [], rx := .hunting }) ∧
      t.attention.flags = 0x400 ∧ t.inputs = s.inputs ∧ t.supply = s.supply ∧ t.clock.period = some 0 ∧
      t.clock.pulseWatch = (if s.clock.source = .external then some 0 else none) ∧
      t.alert = (if s.inputs.stop = true
        then alertAfter (alertAfter s.alert { cause := .restart, tick := s.now }) { cause := .stop, tick := s.now }
        else alertAfter s.alert { cause := .restart, tick := s.now }) ∧
      (t.lines.attn = .high ↔ s.attention.enables.getLsbD 10 = true) ∧ t.lines.alert = .high := by
  obtain ⟨attn, level, sampled⟩ := h.sampled
  obtain ⟨current, whole⟩ := restarted_shows h.halt
  rw [sampled]
  generalize ha : (if s.inputs.stop = true
        then alertAfter (alertAfter s.alert { cause := .restart, tick := s.now }) { cause := .stop, tick := s.now }
        else alertAfter s.alert { cause := .restart, tick := s.now }) = alert at *
  have recorded : 0 < alert.count := by
    rw [← ha]
    split
    · exact alertAfter_recorded _ _
    · exact alertAfter_recorded _ _
  generalize hx : ({ u with
      clock := { u.clock with period := some 0, pulseWatch := if s.clock.source = .external then some 0 else none }
      holds := u.holds ++ sampledHolds s
      alert := alert
      lines := { u.lines with attn := attn, alert := level } } : State) = x
  have flagged : restartFlags x = _ := restartFlags_eq (s := x) rfl (by rw [← hx]; exact current) (by rw [← hx]; exact whole)
  have runs : x.running = true := by
    rw [← hx]
    unfold State.running
    dsimp only
    rw [h.supply, h.inputs]
    exact running
  have alert_level : alertLevel x = .high := by
    have asserted : alertLevel x = outputLevel x (decide (0 < alert.count)) := by
      rw [← hx]
      rfl
    rw [asserted, levels_running runs, decide_eq_true recorded]
    rfl
  have attn_level : (attnLevel (restartFlags x) = .high ↔ s.attention.enables.getLsbD 10 = true) := by
    have flags : (restartFlags x).attention.flags = 0x400 := by rw [flagged]
    have enables : (restartFlags x).attention.enables = s.attention.enables := by
      rw [flagged, ← hx]
      exact h.enables
    have runs_v : (restartFlags x).running = true := by
      rw [flagged]
      exact runs
    have asserted : attnLevel (restartFlags x) =
        outputLevel (restartFlags x) (decide ((restartFlags x).attention.flags &&& (restartFlags x).attention.enables ≠ 0)) := rfl
    rw [asserted, levels_running runs_v, flags, enables, ← returned_enabled]
    simp
  rw [alert_level] at flagged
  generalize attnLevel (restartFlags x) = a at *
  generalize hv : restartFlags x = v at *
  subst hx
  have running_v : v.running = true := by
    rw [flagged]
    exact runs
  have fits_v : SubjectsFit v := by
    have fits_u := halted_fits h.halt fits
    rw [flagged]
    exact fits_u
  have claims := halted_walked h.halt fits running_v (by rw [flagged]) (by rw [flagged])
  obtain ⟨pending, tables, -, queue, walk, -, arbiter, console, -, -, list, run, count, source, request, zones, protect, bindings,
    templates, enables, autoClear, permits⟩ := h.halt
  have walked := beginHead_headWalked running_v (by rw [flagged]; exact walk rfl) fits_v
  have queue_v : (beginHead v).admission.queue = s.admission.queue := by
    rw [beginHead_queue, flagged]
    exact queue
  have arbiter_v : (beginHead v).arbiter = { lastServed := 7, walkCount := 0 } := by
    rw [beginHead_arbiter, flagged]
    exact arbiter
  obtain ⟨slots, admission, moved⟩ := beginHead_moved v
  generalize beginHead v = t at *
  have console_t : t.console = { showTx := .idle, crewTx := .idle } := by
    rw [moved, flagged]
    exact console
  have shows : t.attention.current = none ∧ t.attention.whole = none := by
    rw [moved, flagged]
    exact ⟨current, whole⟩
  rw [if_neg Bool.false_ne_true, List.append_nil] at list
  have list_t : t.holds = s.holds ++ (if s.holding .restart = true then [] else [{ source := .restart, tick := s.now }])
      ++ sampledHolds s := by
    rw [moved, flagged, ← list]
  refine ⟨t, rfl, ⟨?_, ?_, claims, queue_v, fun off => absurd off nofun, fun _ => walked, arbiter_v, console_t, shows.1, shows.2,
    list_t, ?_⟩, ?_⟩
  · rw [moved, flagged]
    exact pending
  · rw [moved, flagged]
    exact tables
  · rw [moved, flagged]
    exact ⟨run, count, source, request, zones, protect, bindings, templates, enables, autoClear, permits⟩
  · rw [moved, flagged]
    exact ⟨h.channels, rfl, h.inputs, h.supply, rfl, rfl, rfl, attn_level, rfl⟩

/-- What RETURN_OF_MAIN makes of the state (R17, R49, R93, R123, R145, R170, R172, R175, R177, R181). -/
theorem main_returned {s : State} (backup : s.supply.state = .backup) (fits : SubjectsFit s) :
    ∃ t, exec .returnOfMain s = .next t ∧
      HaltedFrom (!s.inputs.reset) s t ∧
      (∀ c : Flyer, t.channels[c] = { state := .closed, timer := none, inbound := [], out := [], rx := .hunting }) ∧
      t.attention.flags = 0x400 ∧ t.inputs = s.inputs ∧
      t.supply = { s.supply with state := .main, latestReturn := some s.now } ∧
      (s.inputs.reset = true → t.clock.period = none ∧ t.clock.pulseWatch = none ∧
        t.alert = alertAfter s.alert { cause := .restart, tick := s.now } ∧ t.lines.attn = .low ∧ t.lines.alert = .low) ∧
      (s.inputs.reset = false → t.clock.period = some 0 ∧
        t.clock.pulseWatch = (if s.clock.source = .external then some 0 else none) ∧
        t.alert = (if s.inputs.stop = true
          then alertAfter (alertAfter s.alert { cause := .restart, tick := s.now }) { cause := .stop, tick := s.now }
          else alertAfter s.alert { cause := .restart, tick := s.now }) ∧
        (t.lines.attn = .high ↔ s.attention.enables.getLsbD 10 = true) ∧ t.lines.alert = .high) := by
  have returned : exec .returnOfMain s =
      .next (beginHead (restartFlags (returnTimers (restartBlocks (setSupplyState .main (recordReturn s)))))) := if_pos backup
  have restarted := restartBlocks_restarted (setSupplyState .main (recordReturn s))
  obtain ⟨attn, level, main⟩ : ∃ attn level, setSupplyState .main (recordReturn s) = { s with
      supply := { s.supply with state := .main, latestReturn := some s.now }
      lines := { s.lines with attn := attn, alert := level } } := ⟨_, _, rfl⟩
  rw [returned]
  generalize restartBlocks (setSupplyState .main (recordReturn s)) = u at *
  rw [main] at restarted
  unfold returnTimers
  rw [restarted.inputs]
  cases reset : s.inputs.reset with
  | true =>
    have held : ∀ x : State, x.inputs = s.inputs → x.running = false := fun x same => by
      unfold State.running
      rw [same, reset]
      exact Bool.and_false _
    obtain ⟨halt, channels, pulse, period, flags, alert, inputs, supply, attn_low, alert_low⟩ :=
      restarted.held nofun (held _ rfl)
    dsimp only
    rw [if_pos rfl, beginHead_halted (held _ inputs)]
    exact ⟨_, rfl, halt, channels, flags, inputs, supply, fun _ => ⟨period, pulse, alert, attn_low, alert_low⟩,
      fun off => absurd off nofun⟩
  | false =>
    have runs : ({ s with
        supply := { s.supply with state := .main, latestReturn := some s.now }
        lines := { s.lines with attn := attn, alert := level } } : State).running = true := by
      unfold State.running
      dsimp only
      rw [reset]
      rfl
    obtain ⟨t, at_return, halt, channels, flags, inputs, supply, period, pulse, alert, attn_high, alert_high⟩ :=
      restarted.runs runs fits
    dsimp only
    rw [if_neg Bool.false_ne_true, ← at_return]
    exact ⟨t, rfl, halt, channels, flags, inputs, supply, fun on => absurd on nofun,
      fun _ => ⟨period, pulse, alert, attn_high, alert_high⟩⟩

/-- Settles O47: a halt of every block, and, at a return with RESET deasserted, the run begun on the halted part. -/
theorem backupAndReturn : Obligations.BackupAndReturn := by
  unfold Obligations.BackupAndReturn
  exact fun s queue => ⟨fun main present => backup_entered main present, fun backup => main_returned backup queue.2.2⟩

end Sys2Proof.Machine
end

section
/-! PROOF. The RESET line's changes: the restart at its assertion, the run begun at its deassertion, the level alone off main (R49, R123, R145, R176, R177, R179). -/

namespace Sys2Proof.Machine

/-! ## Off main, and where the line stands so already -/

theorem resetLine_off_main {s : State} (off : s.supply.state ≠ .main) (attends : AttentionLaw s) (v : Bool) :
    setResetLine v s = { s with inputs := { s.inputs with reset := v } } := by
  have halted : ∀ x : State, x.supply = s.supply → x.running = false := fun x same => by
    unfold State.running
    rw [same, decide_eq_false off]
    rfl
  have level : ∀ b, outputLevel { s with inputs := { s.inputs with reset := v } } b = outputLevel s b := fun b => by
    unfold outputLevel
    rw [halted s rfl, halted { s with inputs := { s.inputs with reset := v } } rfl]
  have attn : attnLevel { s with inputs := { s.inputs with reset := v } } = s.lines.attn := (level _).trans attends.1.symm
  have alert : alertLevel { s with inputs := { s.inputs with reset := v } } = s.lines.alert := (level _).trans attends.2.symm
  unfold setResetLine driveLines
  rw [attn, alert]

/-! ## The run begun at the deassertion (R177, R179) -/

/-- The state of a held part once RESET is deasserted, its timers run and STOP and RING are sampled. -/
theorem released_sampled {s : State} (free : ∀ f : Flyer, s.grantOf f = none) :
    ∃ attn level, sampleLines true (startTimers (setResetLine false s)) = { s with
      inputs := { s.inputs with reset := false }
      clock := { s.clock with
        run := if s.clock.run = .running ∧ s.holds = [] ∧ sampledHolds s ≠ [] then .frozen else s.clock.run
        period := some 0
        pulseWatch := if s.clock.source = .external then some 0 else none }
      holds := s.holds ++ sampledHolds s
      attention := if true = true ∧ sampledHolds s ≠ [] then raisedBy 0x040 s.attention else s.attention
      alert := if s.inputs.stop = true then alertAfter s.alert { cause := .stop, tick := s.now } else s.alert
      lines := { s.lines with attn := attn, alert := level } } := by
  obtain ⟨attn, level, released⟩ : ∃ attn level, startTimers (setResetLine false s) = { s with
      inputs := { s.inputs with reset := false }
      clock := { s.clock with period := some 0, pulseWatch := if s.clock.source = .external then some 0 else none }
      lines := { s.lines with attn := attn, alert := level } } := ⟨_, _, rfl⟩
  rw [released]
  have both := sampleLines_took (flag := true) (s := { s with
      inputs := { s.inputs with reset := false }
      clock := { s.clock with period := some 0, pulseWatch := if s.clock.source = .external then some 0 else none }
      lines := { s.lines with attn := attn, alert := level } }) free
  obtain ⟨⟨_, attn, level, sampled⟩, alert⟩ := both
  rw [sampled] at alert
  cases alert
  exact ⟨attn, level, sampled⟩

theorem reset_released {s : State} (main : s.supply.state = .main) (reset : s.inputs.reset = true) (queue : QueueLaw s)
    (walks : WalkLaw s) (grants : GrantsOnlyFree s) :
    ∃ t, exec .resetDeassertion s = .next t ∧
      ClaimFrame
        { s with
          inputs := { s.inputs with reset := false }
          holds := t.holds
          alert := t.alert
          clock := { s.clock with run := t.clock.run, period := some 0
                                  pulseWatch := if s.clock.source = .external then some 0 else none } } t ∧
      t.clock.run = (if s.clock.run = .running ∧ s.holds = [] ∧ t.holds ≠ [] then .frozen else s.clock.run) ∧
      (∀ j : Slot, t.slots[j].gen = s.slots[j].gen ∧
        ((s.admission.queue.head? ≠ some (.book (s.handleAt j)) ∨ s.claimAt j = none) → t.claimAt j = s.claimAt j) ∧
        ∀ c, s.admission.queue.head? = some (.book (s.handleAt j)) → s.claimAt j = some c →
          t.claimAt j = some { c with state := .checking }) ∧
      t.admission.queue = s.admission.queue ∧ HeadWalked t ∧ t.arbiter = s.arbiter ∧
      t.holds = s.holds ++ sampledHolds s ∧
      t.alert = (if s.inputs.stop = true then alertAfter s.alert { cause := .stop, tick := s.now } else s.alert) ∧
      (t.attention = s.attention ∨ (t.holds ≠ s.holds ∧ t.attention = raisedBy 0x040 s.attention)) := by
  have halted : s.running = false := by
    unfold State.running
    rw [reset]
    exact Bool.and_false _
  have idle : s.admission.walk = none := by
    refine Classical.byContradiction fun walk => ?_
    exact absurd (halted.symm.trans (walks.2.1 (Option.isSome_iff_ne_none.mpr walk))) nofun
  have free : ∀ f : Flyer, s.grantOf f = none := fun f => by
    refine Classical.byContradiction fun live => ?_
    exact absurd (halted.symm.trans (grants f (Option.isSome_iff_ne_none.mpr live)).1) nofun
  have released : exec .resetDeassertion s = .next (beginHead (sampleLines true (startTimers (setResetLine false s)))) := by
    have arm : exec .resetDeassertion s = execResetDeassertion s := rfl
    rw [arm, execResetDeassertion, if_neg (by rw [reset]; exact Bool.false_ne_true), if_pos main]
    rfl
  obtain ⟨attn, level, sampled⟩ := released_sampled free
  generalize sampleLines true (startTimers (setResetLine false s)) = v at *
  have runs : v.running = true := by
    rw [sampled]
    unfold State.running
    dsimp only
    rw [main]
    rfl
  have idle_v : v.admission.walk = none := by
    rw [sampled]
    exact idle
  have fits : SubjectsFit v := by
    have fits_s : SubjectsFit s := queue.2.2
    rw [sampled]
    exact fits_s
  have claims : ∀ j : Slot, _ := beginHead_claimAt runs idle_v
  have walked := beginHead_headWalked runs idle_v fits
  have gen : ∀ j : Slot, (beginHead v).slots[j].gen = s.slots[j].gen := fun j => by
    rw [beginHead_gen, sampled]
  have queue_v : (beginHead v).admission.queue = s.admission.queue := by
    rw [beginHead_queue, sampled]
  have arbiter : (beginHead v).arbiter = s.arbiter := by
    rw [beginHead_arbiter, sampled]
  have before : ∀ j : Slot, v.claimAt j = s.claimAt j ∧ v.handleAt j = s.handleAt j := fun j => by
    rw [sampled]
    exact ⟨rfl, rfl⟩
  have before_queue : v.admission.queue = s.admission.queue := by rw [sampled]
  obtain ⟨slots, admission, moved⟩ := beginHead_moved v
  generalize beginHead v = t at *
  have holds : t.holds = s.holds ++ sampledHolds s := by rw [moved, sampled]
  refine ⟨t, released, ?_, ?_, fun j => ⟨gen j, ?_, ?_⟩, queue_v, walked, arbiter, holds, ?_, ?_⟩
  · rw [moved, sampled]
    by_cases pushed : sampledHolds s ≠ []
    · rw [if_pos (c := true = true ∧ sampledHolds s ≠ []) ⟨rfl, pushed⟩]
    · rw [if_neg (c := true = true ∧ sampledHolds s ≠ []) (fun on => pushed on.2)]
  · have grown : (s.clock.run = .running ∧ s.holds = [] ∧ s.holds ++ sampledHolds s ≠ []) ↔
        (s.clock.run = .running ∧ s.holds = [] ∧ sampledHolds s ≠ []) := by
      refine and_congr_right fun _ => and_congr_right fun empty => ?_
      rw [empty, List.nil_append]
    rw [holds, moved, sampled]
    simp only [grown]
  · obtain ⟨claim, handle⟩ := before j
    rw [claims j, before_queue, handle, claim]
    rintro (other | none)
    · exact if_neg other
    · rw [none]
      exact ite_self _
  · intro c named hc
    obtain ⟨claim, handle⟩ := before j
    rw [claims j, before_queue, handle, claim, if_pos named, hc]
    rfl
  · rw [moved, sampled]
  · rw [holds, moved, sampled]
    by_cases pushed : sampledHolds s ≠ []
    · right
      exact ⟨fun same => pushed (List.append_right_eq_self.mp same), if_pos ⟨rfl, pushed⟩⟩
    · left
      exact if_neg fun on => pushed on.2

/-! ## The restart at the assertion (R176, R179) -/

theorem reset_asserted {s : State} (main : s.supply.state = .main) (clear : s.inputs.reset = false) :
    ∃ t, exec .resetAssertion s = .next t ∧
      HaltedFrom false s t ∧
      (∀ c : Flyer, t.channels[c] = { state := .closed, timer := none, inbound := [], out := [], rx := .hunting }) ∧
      t.clock.pulseWatch = none ∧ t.clock.period = none ∧ t.attention.flags = 0x400 ∧
      t.alert = alertAfter s.alert { cause := .restart, tick := s.now } ∧
      t.inputs = { s.inputs with reset := true } ∧ t.supply = s.supply ∧ t.lines.attn = .low ∧ t.lines.alert = .low := by
  have asserted : exec .resetAssertion s = .next (restartFlags (restartBlocks (setResetLine true s))) := by
    have arm : exec .resetAssertion s = execResetAssertion s := rfl
    rw [arm, execResetAssertion, if_neg (by rw [clear]; exact Bool.false_ne_true), if_pos main]
  have restarted := restartBlocks_restarted (setResetLine true s)
  obtain ⟨attn, level, held⟩ : ∃ attn level, setResetLine true s = { s with
      inputs := { s.inputs with reset := true }
      lines := { s.lines with attn := attn, alert := level } } := ⟨_, _, rfl⟩
  generalize restartBlocks (setResetLine true s) = u at *
  rw [held] at restarted
  have powered : s.supply.state ≠ .off := fun off => by
    rw [main] at off
    cases off
  obtain ⟨halt, channels, pulse, period, flags, alert, inputs, supply, attn_low, alert_low⟩ :=
    restarted.held powered (Bool.and_false _)
  exact ⟨_, asserted, halt, channels, pulse, period, flags, alert, inputs, supply, attn_low, alert_low⟩

/-- Settles O48: with the line as it stands already nothing changes, off main the level alone does, and on main the part restarts at the assertion and runs at the deassertion. -/
theorem resetHolds : Obligations.ResetHolds := by
  unfold Obligations.ResetHolds
  refine fun s => ⟨fun on => if_pos on, fun off => if_pos (by rw [off]; rfl), fun off_main attends => ⟨?_, ?_⟩,
    fun main clear _ => reset_asserted main clear, fun main on queue walks grants => reset_released main on queue walks grants⟩
  · have arm : exec .resetAssertion s = execResetAssertion s := rfl
    rw [arm, execResetAssertion, if_neg off_main, resetLine_off_main off_main attends]
    by_cases on : s.inputs.reset = true
    · rw [if_pos on, ← on]
    · rw [if_neg on]
  · have arm : exec .resetDeassertion s = execResetDeassertion s := rfl
    rw [arm, execResetDeassertion, if_neg off_main, resetLine_off_main off_main attends]
    by_cases off : s.inputs.reset = false
    · have there : (!s.inputs.reset) = true := by rw [off]; rfl
      rw [if_pos there, ← off]
    · rw [if_neg (by simpa using off)]

end Sys2Proof.Machine
end

section
/-! PROOF. The cold start and the loss of every supply (R123, R174, R178, R180). -/

namespace Sys2Proof.Machine

/-! ## The cold start (R180) -/

/-- The cold start values once its timers run and STOP and RING are sampled. -/
theorem cold_sampled (inputs : Inputs) (present : Bool) (pending : List Instr) :
    ∃ attn level, sampleLines false (startTimers (coldState inputs present pending)) = { coldState inputs present pending with
      holds := [{ source := .restart, tick := 0 }]
        ++ ((if inputs.stop = true then [{ source := .stop, tick := 0 }] else [])
          ++ (if inputs.ring = true then [{ source := .ring, tick := 0 }] else []))
      alert := if inputs.stop = true then alertAfter coldAlert { cause := .stop, tick := 0 } else coldAlert
      lines := { permit := Vector.replicate 16 .low, attn := attn, alert := level } } := by
  have free : ∀ f : Flyer, (startTimers (coldState inputs present pending)).grantOf f = none := fun f =>
    congrArg GrantRec.live (Vector.getElem_replicate _)
  obtain ⟨⟨alert, attn, level, sampled⟩, recorded⟩ := sampleLines_took (flag := false) free
  have now : (startTimers (coldState inputs present pending)).now = 0 := rfl
  have lines : (startTimers (coldState inputs present pending)).inputs = inputs := rfl
  have quiet : (startTimers (coldState inputs present pending)).alert = coldAlert := rfl
  have entries : sampledHolds (startTimers (coldState inputs present pending)) =
      (if inputs.stop = true then [{ source := .stop, tick := 0 }] else [])
        ++ (if inputs.ring = true then [{ source := .ring, tick := 0 }] else []) := by
    have stop : (startTimers (coldState inputs present pending)).holding .stop = false := rfl
    have ring : (startTimers (coldState inputs present pending)).holding .ring = false := rfl
    unfold sampledHolds
    rw [now, stop, ring, lines]
    simp only [and_true]
  rw [quiet, now, lines, sampled] at recorded
  cases recorded
  refine ⟨attn, level, sampled.trans ?_⟩
  have void : (if (startTimers (coldState inputs present pending)).clock.run = .running ∧
      (startTimers (coldState inputs present pending)).holds = [] ∧
      sampledHolds (startTimers (coldState inputs present pending)) ≠ [] then RunState.frozen
    else (startTimers (coldState inputs present pending)).clock.run) = .void := if_neg fun on => absurd on.1 nofun
  rw [void, entries, if_neg (c := false = true ∧ _) (fun on => absurd on.1 Bool.false_ne_true)]
  rfl

/-- No entry waits at a cold start: no walk begins. -/
theorem cold_started {s : State} (off : s.supply.state = .off) :
    ∃ t, exec .coldStart s = .next t ∧
      t = { coldState s.inputs s.supply.backupPresent s.pending with
        clock := { (coldState s.inputs s.supply.backupPresent s.pending).clock with
          period := if s.inputs.reset = true then none else some 0 }
        holds := [{ source := .restart, tick := 0 }]
          ++ ((if s.inputs.reset = false ∧ s.inputs.stop = true then [{ source := .stop, tick := 0 }] else [])
            ++ (if s.inputs.reset = false ∧ s.inputs.ring = true then [{ source := .ring, tick := 0 }] else []))
        alert := if s.inputs.reset = false ∧ s.inputs.stop = true
          then alertAfter coldAlert { cause := .stop, tick := 0 } else coldAlert
        lines := { permit := Vector.replicate 16 .low, attn := .low, alert := if s.inputs.reset = true then .low else .high } } := by
  have arm : exec .coldStart s = execColdStart s := rfl
  rw [arm, execColdStart, if_pos off]
  unfold coldValues
  obtain ⟨attn, level, sampled⟩ := cold_sampled s.inputs s.supply.backupPresent s.pending
  cases reset : s.inputs.reset with
  | true =>
    have halted : (stopTimers (coldState s.inputs s.supply.backupPresent s.pending)).running = false :=
      (congrArg (fun r => true && !r) reset :)
    have low := levels_halted (s := stopTimers (coldState s.inputs s.supply.backupPresent s.pending)) nofun halted
    have attn_low : attnLevel (stopTimers (coldState s.inputs s.supply.backupPresent s.pending)) = .low := low _
    have alert_low : alertLevel (stopTimers (coldState s.inputs s.supply.backupPresent s.pending)) = .low := low _
    refine ⟨_, if_pos rfl, ?_⟩
    unfold driveLines
    rw [attn_low, alert_low, if_pos rfl, if_pos rfl, if_neg (fun on => absurd on.1 nofun), if_neg (fun on => absurd on.1 nofun),
      if_neg (fun on => absurd on.1 nofun)]
    rfl
  | false =>
    have begun : beginRunning false (coldState s.inputs s.supply.backupPresent s.pending) =
        beginHead (sampleLines false (startTimers (coldState s.inputs s.supply.backupPresent s.pending))) := rfl
    rw [begun]
    generalize sampleLines false (startTimers (coldState s.inputs s.supply.backupPresent s.pending)) = x at *
    have runs : x.running = true := by
      rw [sampled]
      exact (congrArg (fun r => true && !r) reset :)
    rw [beginHead_empty runs (by rw [sampled]; rfl) (by rw [sampled]; rfl)]
    have clear : attnLevel x = .low := by
      have none : x.attention.flags &&& x.attention.enables = 0 := by
        rw [sampled]
        exact BitVec.zero_and
      have asserted : attnLevel x = outputLevel x (decide (x.attention.flags &&& x.attention.enables ≠ 0)) := rfl
      rw [asserted, levels_running runs, decide_eq_false (not_not_intro none)]
      rfl
    have recorded : alertLevel x = .high := by
      have counted : 0 < x.alert.count := by
        rw [sampled]
        dsimp only
        split
        · exact alertAfter_recorded _ _
        · exact Nat.one_pos
      have asserted : alertLevel x = outputLevel x (decide (0 < x.alert.count)) := rfl
      rw [asserted, levels_running runs, decide_eq_true counted]
      rfl
    refine ⟨_, if_neg Bool.false_ne_true, ?_⟩
    unfold driveLines
    rw [clear, recorded, sampled]
    simp only [true_and, Bool.false_eq_true, if_false]
    rfl

/-! ## Every supply lost (R174, R178) -/

/-- A cold start reads the levels of the lines, the cell's presence and the commands yet to come, and nothing else. -/
theorem coldStart_congr {s t : State} (off : s.supply.state = .off) (off' : t.supply.state = .off) (inputs : t.inputs = s.inputs)
    (present : t.supply.backupPresent = s.supply.backupPresent) (pending : t.pending = s.pending) :
    exec .coldStart t = exec .coldStart s := by
  have arm (x : State) : exec .coldStart x = execColdStart x := rfl
  have values : coldValues t = coldValues s := by
    unfold coldValues
    rw [inputs, present, pending]
  rw [arm, arm, execColdStart, execColdStart, if_pos off, if_pos off', inputs, values]

/-- What powerOff makes of a state whose cell is absent (R174, R178). -/
theorem poweredOff {s : State} (absent : s.supply.backupPresent = false) :
    (powerOff s).supply.state = .off ∧ (powerOff s).supply.backupPresent = false ∧
      (powerOff s).lines = { permit := Vector.replicate 16 .unpowered, attn := .unpowered, alert := .unpowered } ∧
      (powerOff s).inputs = s.inputs ∧ (powerOff s).pending = s.pending ∧
      exec .coldStart (powerOff s) = exec .coldStart { s with supply := { s.supply with state := .off, backupPresent := false } } :=
  ⟨rfl, absent, rfl, rfl, rfl, coldStart_congr rfl rfl rfl absent rfl⟩

theorem cell_lost {s : State} (backup : s.supply.state = .backup) :
    followCell false s = powerOff { s with supply := { s.supply with backupPresent := false } } := by
  unfold followCell
  dsimp only
  rw [backup]
  rfl

theorem cell_followed {s : State} {present : Bool} (other : s.supply.state ≠ .backup ∨ present = true) :
    followCell present s = { s with supply := { s.supply with backupPresent := present } } := by
  unfold followCell
  dsimp only
  rcases other with off_backup | rfl
  · rw [decide_eq_false off_backup]
    rfl
  · rw [Bool.not_true, Bool.and_false]
    rfl

/-- Settles O49: the cold start's values with what the sampling adds, and the part OFF, whose next cold start forgets all but the world. -/
theorem powerLossAndColdStart : Obligations.PowerLossAndColdStart := by
  unfold Obligations.PowerLossAndColdStart
  intro s
  have becomes : exec .cellBecomesAbsent s = .next (followCell false s) := rfl
  have changes (present : Bool) : exec (.backupPresenceChange present) s = .next (followCell present s) := rfl
  refine ⟨fun off => ?_, fun i falls => ?_, fun off_backup => ?_, ?_⟩
  · obtain ⟨t, started, cold⟩ := cold_started off
    refine ⟨t, started, ?_⟩
    have holds : t.holds = [{ source := .restart, tick := 0 }]
        ++ ((if s.inputs.reset = false ∧ s.inputs.stop = true then [{ source := .stop, tick := 0 }] else [])
          ++ (if s.inputs.reset = false ∧ s.inputs.ring = true then [{ source := .ring, tick := 0 }] else [])) := by rw [cold]
    have alert : t.alert = if s.inputs.reset = false ∧ s.inputs.stop = true
        then alertAfter coldAlert { cause := .stop, tick := 0 } else coldAlert := by rw [cold]
    have lines : t.lines =
        { permit := Vector.replicate 16 .low, attn := .low, alert := if s.inputs.reset = true then .low else .high } := by rw [cold]
    have clock : t.clock = { (coldState s.inputs s.supply.backupPresent s.pending).clock with
        period := if s.inputs.reset = true then none else some 0 } := by rw [cold]
    refine ⟨?_, clock, fun w => ?_, ?_, ?_, ?_, ?_, fun stopped => ?_, fun other => ?_⟩
    · rw [holds, alert, lines, clock]
      exact cold
    · rw [lines]
      exact Vector.getElem_replicate _
    · rw [lines]
    · rw [lines]
      cases s.inputs.reset <;> simp
    · rw [holds, List.append_assoc]
    · rw [alert]
      split <;> rfl
    · rw [alert, if_pos stopped]
      exact ⟨rfl, rfl⟩
    · rw [alert, if_neg (fun on => by rcases other with h | h <;> simp [h] at on)]
      exact ⟨rfl, rfl⟩
  · rcases falls with ⟨rfl, main, absent⟩ | ⟨rfl | rfl, backup⟩
    · have off : exec .mainFallsWithoutBackup s = .next (powerOff s) := if_pos (by rw [main, absent]; rfl)
      exact ⟨_, off, poweredOff absent⟩
    · rw [becomes, cell_lost backup]
      exact ⟨_, rfl, poweredOff (s := { s with supply := { s.supply with backupPresent := false } }) rfl⟩
    · rw [changes, cell_lost backup]
      exact ⟨_, rfl, poweredOff (s := { s with supply := { s.supply with backupPresent := false } }) rfl⟩
  · rw [becomes, changes, cell_followed (Or.inl off_backup)]
    exact ⟨rfl, rfl⟩
  · rw [changes, cell_followed (Or.inr rfl)]

end Sys2Proof.Machine
end

section
/-! PROOF. What an operation that issues no grant makes of the grants, the PERMIT lines and the channels: grants go, each with its lines low and its REVOKE queued (R73, R74, R90, R103, R120). -/

namespace Sys2Proof.Machine

/-! ## No grant begins -/

/-- The room a channel's outgoing queue has taken, a live grant counting for the REVOKE that will end it (R90). -/
def outLoad (s : State) (c : Flyer) : Nat := s.channels[c].out.length + if (s.grantOf c).isSome then 1 else 0

/-- From s to t no grant begins: the laws of grants and lines are kept, and the channels are as they were but for the REVOKEs that ended grants queued. -/
structure Dwindles (s t : State) : Prop where
  permits : PermitLaw s → PermitLaw t
  free : GrantsOnlyFree s → GrantsOnlyFree t
  fewer : ∀ f : Flyer, (t.grantOf f).isSome = true → (s.grantOf f).isSome = true
  channel : ∀ c : Flyer, t.channels[c].state = s.channels[c].state ∧ t.channels[c].inbound = s.channels[c].inbound ∧
    t.channels[c].timer = s.channels[c].timer ∧ t.channels[c].rx = s.channels[c].rx
  load : ∀ c : Flyer, outLoad t c = outLoad s c

theorem Dwindles.refl (s : State) : Dwindles s s := ⟨id, id, fun _ => id, fun _ => ⟨rfl, rfl, rfl, rfl⟩, fun _ => rfl⟩

theorem Dwindles.trans {s t u : State} (h : Dwindles s t) (k : Dwindles t u) : Dwindles s u where
  permits := k.permits ∘ h.permits
  free := k.free ∘ h.free
  fewer := fun f => h.fewer f ∘ k.fewer f
  channel := fun c => by
    obtain ⟨state, inbound, timer, rx⟩ := h.channel c
    obtain ⟨state', inbound', timer', rx'⟩ := k.channel c
    exact ⟨state'.trans state, inbound'.trans inbound, timer'.trans timer, rx'.trans rx⟩
  load := fun c => (k.load c).trans (h.load c)

/-- Where the lines, the bindings, the channels and which grants are live are as they were, no grant begins. -/
theorem Dwindles.of_same {s t : State} (live : ∀ f : Flyer, (t.grantOf f).isSome = (s.grantOf f).isSome)
    (permit : t.lines.permit = s.lines.permit) (bindings : t.bindings = s.bindings) (channels : t.channels = s.channels)
    (running : t.running = s.running) (holds : t.holds = s.holds) : Dwindles s t where
  permits := fun law w => by
    rw [permit, bindings]
    simp only [live]
    exact law w
  free := fun law f on => by
    rw [live] at on
    rw [running, holds]
    exact law f on
  fewer := fun f on => by rwa [live] at on
  channel := fun c => by
    rw [channels]
    exact ⟨rfl, rfl, rfl, rfl⟩
  load := fun c => by
    unfold outLoad
    rw [channels, live]

theorem grantOf_congr {s t : State} (h : t.grants = s.grants) (f : Flyer) : t.grantOf f = s.grantOf f := by
  unfold State.grantOf
  rw [h]

theorem ClaimFrame.dwindles {s t : State} (h : ClaimFrame s t) : Dwindles s t :=
  .of_same (fun f => by rw [grantOf_congr h.grants f]) h.permit h.bindings h.channels h.running h.holds

/-- A grant removed: its lines go low, and its REVOKE takes the room it counted for (R74, R103). -/
theorem removeGrant_dwindles (f : Flyer) (r : Reason) (s : State) : Dwindles s (removeGrant f r s) := by
  have frame := removeGrant_frame f r s
  cases live : s.grantOf f with
  | none =>
    rw [removeGrant_none live r]
    exact .refl s
  | some g =>
    have after := fun k : Flyer => removeGrant_grantOf f k r s
    have permit := removeGrant_permit f r s
    have channels := removeGrant_channels f r s
    rw [live] at permit channels
    dsimp only at permit channels
    have gone (k : Flyer) (on : ((removeGrant f r s).grantOf k).isSome = true) :
        k ≠ f ∧ (s.grantOf k).isSome = true := by
      rw [after] at on
      split at on
      · exact absurd on Bool.false_ne_true
      · next other => exact ⟨fun same => other same.symm, on⟩
    have channel (c : Flyer) : (removeGrant f r s).channels[c] =
        if f = c then { s.channels[f] with out := s.channels[f].out ++ [.revoke g.seq r] } else s.channels[c] := by
      rw [channels]
      exact setChannel_get s f c _
    refine ⟨fun law w => ?_, fun law k on => ?_, fun k on => (gone k on).2, fun c => ?_, fun c => ?_⟩
    · rw [permit, tabulate_get, frame.bindings]
      split
      · next bound =>
        refine ⟨fun low => absurd low nofun, ?_⟩
        rintro ⟨k, own, on⟩
        rw [bound] at own
        exact absurd (Option.some.inj own).symm (gone k on).1
      · next unbound =>
        refine (law w).trans (exists_congr fun k => and_congr_right fun own => ?_)
        have other : f ≠ k := fun same => unbound (own.trans (congrArg some same.symm))
        rw [after, if_neg other]
    · rw [frame.running, frame.holds]
      exact law k (gone k on).2
    · rw [channel]
      split
      · next same => exact same ▸ ⟨rfl, rfl, rfl, rfl⟩
      · exact ⟨rfl, rfl, rfl, rfl⟩
    · unfold outLoad
      rw [channel, after]
      split
      · next same =>
        subst same
        rw [live]
        exact List.length_append
      · rfl

theorem removeAllGrants_dwindles (s : State) : Dwindles s (removeAllGrants s) :=
  foldl_frame Dwindles .refl (fun _ _ _ => .trans) _ (fun t f => removeGrant_dwindles f .hold t) allFlyers s

theorem freezeClock_dwindles (s : State) : Dwindles s (freezeClock s) := by
  have frame := freezeClock_frame s
  rw [freeze_clock] at frame ⊢
  exact .of_same (fun _ => rfl) rfl rfl rfl rfl rfl

/-- A push leaves no grant: its first entry removes them all, and on a list with entries there were none (R119, R120). -/
theorem pushHold_dwindles (src : HoldSource) (flag : Bool) (s : State) : Dwindles s (pushHold src flag s) := by
  unfold pushHold
  split
  · exact .refl s
  · have raised (u : State) : Dwindles u (if flag then raiseFlag .holdsChanged u else u) := by
      split
      · exact (raiseFlag_frame _ u).dwindles
      · exact .refl u
    have appended := raised { s with holds := s.holds ++ [{ source := src, tick := s.now }] }
    dsimp only
    split
    · have emptied := removeAllGrants_grants
        (if flag then raiseFlag .holdsChanged { s with holds := s.holds ++ [{ source := src, tick := s.now }] }
          else { s with holds := s.holds ++ [{ source := src, tick := s.now }] })
      have removed := (appended.trans (removeAllGrants_dwindles _)).trans (freezeClock_dwindles _)
      have gone := (freezeClock_dwindles (removeAllGrants
        (if flag then raiseFlag .holdsChanged { s with holds := s.holds ++ [{ source := src, tick := s.now }] }
          else { s with holds := s.holds ++ [{ source := src, tick := s.now }] }))).fewer
      refine ⟨removed.permits, fun _ f on => ?_, removed.fewer, removed.channel, removed.load⟩
      have live := gone f on
      unfold State.grantOf at live
      rw [emptied] at live
      exact absurd live Bool.false_ne_true
    · next filled =>
      refine ⟨appended.permits, fun law f on => ?_, appended.fewer, appended.channel, appended.load⟩
      exact absurd (law f (appended.fewer f on)).2 fun empty => filled (List.isEmpty_iff.mpr empty)

/-! ## The windows (R11, R105) -/

theorem descendGrant_dwindles (f : Flyer) (h : Handle) (s : State) : Dwindles s (descendGrant f h s) := by
  have frame := descendGrant_frame f h s
  obtain ⟨channels, permit⟩ := descendGrant_still f h s
  obtain ⟨-, -, none_live⟩ := descendGrant_ending f h s
  refine .of_same (fun k => ?_) permit frame.bindings channels frame.running frame.holds
  rw [← Option.not_isNone, ← Option.not_isNone, none_live]

theorem endings_dwindles (s : State) : Dwindles s (endings s) := by
  have step (t : State) (i : Slot) : Dwindles t (endClaim i t) := by
    unfold endClaim
    split
    · exact .refl t
    · split
      · split
        · split
          · exact (expireSlot_frame i t).dwindles
          · exact ((moveClaim_frame _ _ t).trans (raiseFlag_frame _ _)).dwindles.trans (descendGrant_dwindles _ _ _)
        · exact (expireSlot_frame i t).dwindles
        · exact (moveClaim_frame _ _ t).dwindles
        · exact .refl t
      · exact .refl t
  exact foldl_frame Dwindles .refl (fun _ _ _ => .trans) _ step allSlots s

theorem tickEvent_dwindles (s : State) : Dwindles s (tickEvent s) :=
  (endings_dwindles s).trans ((openings_frame _).trans (closeEvent_frame _ _ _)).dwindles

theorem jumpEvent_dwindles (s : State) : Dwindles s (jumpEvent s) :=
  (endings_dwindles s).trans ((jumpOpenings_frame _).trans (closeEvent_frame _ _ _)).dwindles

theorem setClock_dwindles (k : Clock) (s : State) : Dwindles s (s.setClock k) := .of_same (fun _ => rfl) rfl rfl rfl rfl rfl

theorem endClock_dwindles (s : State) : Dwindles s (endClock s) := by
  unfold endClock
  split
  · exact setClock_dwindles _ s
  · exact .refl s

theorem sourceEvent_dwindles (s : State) : Dwindles s (sourceEvent s) := by
  unfold sourceEvent
  split
  · exact (setClock_dwindles _ s).trans ((tickEvent_dwindles _).trans (endClock_dwindles _))
  · exact .refl s

/-! ## The completion of a walk (R40, R41) -/

theorem restoreGrant_dwindles (f : Flyer) (h : Handle) (s : State) : Dwindles s (restoreGrant f h s) := by
  unfold restoreGrant
  split
  · exact .refl s
  · next g live =>
    split
    · have kept := setGrant_frame s f { s.grants[f] with live := some { g with kind := g.issued } }
      refine .of_same (fun k => ?_) rfl rfl rfl rfl rfl
      have got : (s.setGrant f { s.grants[f] with live := some { g with kind := g.issued } }).grantOf k =
          if f = k then some { g with kind := g.issued } else s.grantOf k := by
        unfold State.grantOf
        rw [setGrant_get]
        split <;> rfl
      rw [got]
      split
      · next same => rw [← same, live]; rfl
      · rfl
    · exact .refl s

theorem amendedState_dwindles (i : Slot) (c : Claim) (a : Amendment) (s : State) : Dwindles s (amendedState i c a s) := by
  unfold amendedState
  split
  · split
    · exact (moveClaim_frame _ _ s).dwindles.trans (restoreGrant_dwindles _ _ _)
    · exact .refl s
  · split
    · exact (moveClaim_frame _ _ s).dwindles
    · exact .refl s
  · exact (releaseOverlap_frame i s).dwindles
  · exact .refl s

theorem amendGrant_dwindles (i : Slot) (c : Claim) (a : Amendment) (s : State) : Dwindles s (amendGrant i c a s) := by
  unfold amendGrant
  split
  · split
    · exact removeGrant_dwindles _ _ s
    · exact .refl s
  · exact .refl s

theorem deliverVerdict_dwindles (e : Entry) (v : Option Verdict) (s : State) : Dwindles s (deliverVerdict e v s).1 := by
  unfold deliverVerdict
  split
  · split
    · exact .refl s
    · split
      · exact (setClaim_frame s _ _).dwindles
      · unfold placeBooking
        split
        · exact (setClaim_frame s _ _).dwindles
        · split
          · exact (setClaim_frame s _ _).dwindles
          · exact (openClaim_frame _ s).dwindles
  · split
    · exact .refl s
    · split
      · exact (setClaim_frame s _ _).dwindles
      · exact .refl s
      · split
        · exact (setClaim_frame s _ _).dwindles
        · exact (setClaim_frame s _ _).dwindles.trans ((amendedState_dwindles _ _ _ _).trans (amendGrant_dwindles _ _ _ _))
  · exact .of_same (fun _ => rfl) rfl rfl rfl rfl rfl

theorem completeWalk_dwindles (e : Entry) (v : Option Verdict) (s : State) : Dwindles s (completeWalk e v s) :=
  (setAdmission_frame s _).dwindles.trans ((deliverVerdict_dwindles e v _).trans
    ((raiseFlag_frame _ _).trans (closeEvent_frame _ _ _)).dwindles)

theorem readSlot_dwindles (w : Walk) (i : Slot) (s : State) : Dwindles s (readSlot w i s) := by
  unfold readSlot
  split
  · exact completeWalk_dwindles _ _ s
  · split
    · exact (setAdmission_frame s _).dwindles
    · split
      · exact completeWalk_dwindles _ _ s
      · exact (setAdmission_frame s _).dwindles

theorem readZone_dwindles (w : Walk) (z : Zone) (s : State) : Dwindles s (readZone w z s) := by
  unfold readZone
  split
  · exact completeWalk_dwindles _ _ s
  · split
    · exact (setAdmission_frame s _).dwindles
    · exact completeWalk_dwindles _ _ s

end Sys2Proof.Machine
end

section
/-! PROOF. Each PERMIT line high exactly under a live grant, and grants only on a free rig, under every effect (R73, R120): O55. -/

namespace Sys2Proof.Machine

/-- Grants are live only while the part runs on an empty hold list, and, where the lines are asked for, they follow the grants (R73, R120). -/
def PermitsLaw (lines : Prop) (s : State) : Prop := (lines → PermitLaw s) ∧ GrantsOnlyFree s

section
variable {lines : Prop}

theorem Dwindles.law {s t : State} (h : Dwindles s t) (law : PermitsLaw lines s) : PermitsLaw lines t := ⟨h.permits ∘ law.1, h.free law.2⟩

theorem ClaimFrame.permitsLaw {s t : State} (h : ClaimFrame s t) (law : PermitsLaw lines s) : PermitsLaw lines t := h.dwindles.law law

/-- The lines low, or not driven, and no grant live. -/
theorem permitsLaw_of_none {s : State} (none : ∀ f : Flyer, s.grantOf f = none) (low : lines → ∀ w : Winch, s.lines.permit[w] ≠ .high) :
    PermitsLaw lines s := by
  refine ⟨fun asked w => ⟨fun high => absurd high (low asked w), ?_⟩, fun f on => ?_⟩
  · rintro ⟨f, -, on⟩
    rw [none] at on
    exact absurd on Bool.false_ne_true
  · rw [none] at on
    exact absurd on Bool.false_ne_true

theorem elapse_permitsLaw (d : Nat) {s : State} (law : PermitsLaw lines s) : PermitsLaw lines (elapse d s) := by
  refine ⟨elapse_permitLaw d ∘ law.1, fun f on => ?_⟩
  rw [elapse_grantOf_isSome] at on
  rw [elapse_running, elapse_holds]
  exact law.2 f on

/-! ## The console commands -/

theorem bound_permitsLaw {s : State} {f : Flyer} {w : Winch} (unbound : s.bindings[w] = none) (no_grant : s.grantOf f = none)
    (law : PermitsLaw lines s) : PermitsLaw lines (s.setBinding w (some f)) := by
  refine ⟨fun asked v => ?_, law.2⟩
  have bindings : (s.setBinding w (some f)).bindings[v] = if w = v then some f else s.bindings[v] := setBinding_get s w v _
  rw [bindings]
  refine (law.1 asked v).trans ?_
  split
  · next same =>
    subst same
    refine ⟨?_, ?_⟩
    · rintro ⟨g, own, -⟩
      rw [unbound] at own
      cases own
    · rintro ⟨g, own, on⟩
      cases own
      have gone : (s.setBinding w (some f)).grantOf f = none := no_grant
      rw [gone] at on
      exact absurd on Bool.false_ne_true
  · exact Iff.rfl

theorem unbound_permitsLaw {s : State} {f : Flyer} {w : Winch} (is_bound : s.bindings[w] = some f) (no_grant : s.grantOf f = none)
    (law : PermitsLaw lines s) : PermitsLaw lines (s.setBinding w none) := by
  refine ⟨fun asked v => ?_, law.2⟩
  have bindings : (s.setBinding w none).bindings[v] = if w = v then none else s.bindings[v] := setBinding_get s w v _
  rw [bindings]
  refine (law.1 asked v).trans ?_
  split
  · next same =>
    subst same
    refine ⟨?_, ?_⟩
    · rintro ⟨g, own, on⟩
      rw [is_bound] at own
      cases own
      rw [no_grant] at on
      exact absurd on Bool.false_ne_true
    · rintro ⟨g, own, -⟩
      cases own
  · exact Iff.rfl

theorem removeHold_permitsLaw (src : HoldSource) {s : State} (law : PermitsLaw lines s) : PermitsLaw lines (removeHold src s) := by
  rw [removeHold_eq]
  refine ⟨law.1, fun f on => ?_⟩
  obtain ⟨running, empty⟩ := law.2 f on
  refine ⟨running, ?_⟩
  show s.holds.filter _ = []
  rw [empty]
  rfl

theorem commandHold_permitsLaw (i : Slot) (c : Claim) (ended : Bool) {s : State} (law : PermitsLaw lines s) :
    PermitsLaw lines (commandHold i c ended s).1 := by
  refine (closeEvent_frame _ _ _).permitsLaw ?_
  have moved := (moveClaim_frame i (.held .command ended) s).permitsLaw law
  split
  · exact (removeGrant_dwindles _ _ _).law moved
  · exact moved

theorem CommandEffect.permitsLaw {s t : State} (h : CommandEffect s t) (law : PermitsLaw lines s) : PermitsLaw lines t := by
  cases h with
  | none => exact law
  | shown | enabled | cleared | autoClear | alertEmptied | supplyEmptied | protectSet | breachCleared
  | templateStored | templateEvicted | templateDropped | templateLocked => exact law
  | bound unbound _ no_grant => exact bound_permitsLaw unbound no_grant law
  | unbound is_bound no_grant => exact unbound_permitsLaw is_bound no_grant law
  | reopened => exact law
  | claimFreed => exact ((freeSlot_frame _ s).trans (closeEvent_frame _ _ _)).permitsLaw law
  | claimHeld => exact commandHold_permitsLaw _ _ _ law
  | resumedOverlap =>
    exact ((moveClaim_frame _ _ s).trans ((raiseFlag_frame _ _).trans (closeEvent_frame _ _ _))).permitsLaw law
  | resumedActive | resumedOverrun => exact ((moveClaim_frame _ _ s).trans (closeEvent_frame _ _ _)).permitsLaw law
  | cancelled =>
    exact ((freeSlot_frame _ s).trans ((withdrawEntry_frame _ _).trans (closeEvent_frame _ _ _))).permitsLaw law
  | booked => exact (acceptBooking_frame _ _ s).permitsLaw law
  | fired k w => exact (acceptBooking_frame _ _ (accessWay k w s)).permitsLaw law
  | amended => exact (acceptAmend_frame _ _ _ s).permitsLaw law
  | @zoneRequested z area =>
    exact ((setAdmission_frame (s.setZone z _) _).trans (closeEvent_frame _ _ _)).permitsLaw law
  | zoneEmptied z => exact ((withdrawEntry_frame _ (s.setZone z _)).trans (closeEvent_frame _ _ _)).permitsLaw law
  | holdPushed src => exact (closeEvent_frame _ _ _).permitsLaw ((pushHold_dwindles src true s).law law)
  | holdReleased src => exact removeHold_permitsLaw src law
  | clockLoaded => exact (jumpEvent_dwindles _).law law
  | sourceSelected src =>
    unfold selectSource
    split <;> exact law
  | clockSkipped => exact ((jumpEvent_dwindles _).trans (endClock_dwindles _)).law law

/-! ## The events -/

theorem hearBytes_permitsLaw (ch : Flyer) (bytes : List Byte) (last : Byte) {s : State} (law : PermitsLaw lines s) :
    PermitsLaw lines (hearBytes ch bytes last s) := by
  have one (b : Byte) (t : State) (ht : PermitsLaw lines t) : PermitsLaw lines (hearByte ch b t) := by
    unfold hearByte admitFrame
    dsimp only
    split
    · split <;> exact ht
    · exact ht
  have met : PermitsLaw lines (setReceiver ch (s.channels[ch].rx.before (Config.byteTime * bytes.length)) s) := law
  exact one last _ (foldl_frame (fun t u => PermitsLaw lines t → PermitsLaw lines u) (fun _ => id) (fun _ _ _ h k => k ∘ h)
    (fun t b => hearByte ch b t) (fun t b => one b t) bytes _ met)

theorem breachResponse_dwindles (f : Flyer) (kind : BreachKind) (cell : Cell) (s : State) :
    Dwindles s (breachResponse f kind cell s) := by
  have written (u : State) : Dwindles u (recordAlert (breachAlert f kind) (writeBreach f kind cell u)) :=
    .of_same (fun _ => rfl) rfl rfl rfl rfl rfl
  have recorded := ((removeGrant_dwindles f .breach s).trans (breachClaims_frame f _).dwindles).trans (written _)
  unfold breachResponse
  dsimp only
  split
  · exact recorded.trans (pushHold_dwindles _ _ _)
  · exact recorded

theorem reportOutcome_dwindles (f : Flyer) (cell : Cell) (grounded : Bool) (v : Option BreachKind) (s : State) :
    Dwindles s (reportOutcome f cell grounded v s) := by
  unfold reportOutcome
  split
  · exact breachResponse_dwindles _ _ _ s
  · split
    · exact (groundedEvent_frame f s).dwindles
    · exact .refl s

theorem issueGrant_grantOf (f : Flyer) (kind : GrantKind) (origin target : Cell) (i : Slot) (s : State) (k : Flyer) :
    (issueGrant f kind origin target i s).grantOf k =
      if f = k then some (issuedGrant f kind origin target i s) else s.grantOf k := by
  have table : (issueGrant f kind origin target i s).grants[k] =
      if f = k then { seq := (issuedGrant f kind origin target i s).seq, live := some (issuedGrant f kind origin target i s) }
      else s.grants[k] := setGrant_get s f k _
  unfold State.grantOf
  rw [table]
  split <;> rfl

/-- A grant issued: the flyer's lines rise with it, on a running part and an empty hold list (R96, R98). -/
theorem issueGrant_permitsLaw {f : Flyer} {kind : GrantKind} {origin target : Cell} {i : Slot} {s : State}
    (running : s.running = true) (empty : s.holds = []) (law : PermitsLaw lines s) :
    PermitsLaw lines (issueGrant f kind origin target i s) := by
  have got := issueGrant_grantOf f kind origin target i s
  have permit (w : Winch) : (issueGrant f kind origin target i s).lines.permit[w] =
      if s.bindings[w] = some f then .high else s.lines.permit[w] :=
    tabulate_get (fun w => if s.bindings[w] = some f then Level.high else s.lines.permit[w]) w
  have bindings : (issueGrant f kind origin target i s).bindings = s.bindings := rfl
  refine ⟨fun asked w => ?_, fun _ _ => ⟨running, empty⟩⟩
  rw [permit, bindings]
  split
  · next own =>
    refine ⟨fun _ => ⟨f, own, ?_⟩, fun _ => rfl⟩
    rw [got, if_pos rfl]
    rfl
  · next other =>
    refine (law.1 asked w).trans (exists_congr fun k => and_congr_right fun own => ?_)
    have apart : f ≠ k := fun same => other (own.trans (congrArg some same.symm))
    rw [got, if_neg apart]

/-- A grant is the answer on an empty hold list alone (R96). -/
theorem judgeAsk_granted {f : Flyer} {target : Cell} {s : State} {kind : GrantKind} {origin : Cell} {i : Slot}
    (granted : judgeAsk f target s = .grant kind origin i) : s.holds = [] := by
  refine Classical.byContradiction fun filled => ?_
  unfold judgeAsk at granted
  split at granted
  · cases granted
  · have held : (!s.holds.isEmpty) = true := by simpa using filled
    rw [if_pos held] at granted
    cases granted

theorem answerAsk_permitsLaw (f : Flyer) (target : Cell) {s : State} (running : s.running = true) (law : PermitsLaw lines s) :
    PermitsLaw lines (answerAsk f target s) := by
  unfold answerAsk
  split
  · next granted => exact issueGrant_permitsLaw running (judgeAsk_granted granted) law
  · exact law

theorem haltBlocks_permitsLaw (s : State) : (∀ f : Flyer, (haltBlocks s).grantOf f = none) ∧
    ∀ w : Winch, (haltBlocks s).lines.permit[w] ≠ .high := by
  obtain ⟨-, tables, -, -, -, -, -, -, -, -, -, -, -, -, -, -, -, -, -, -, -, low⟩ := (haltBlocks_halted s).halt
  refine ⟨fun f => ?_, fun w high => ?_⟩
  · unfold State.grantOf
    rw [(tables f).1]
  · rw [low w] at high
    cases high

theorem restartBlocks_permitsLaw (s : State) : PermitsLaw lines (restartBlocks s) := by
  obtain ⟨none, low⟩ := haltBlocks_permitsLaw s
  exact permitsLaw_of_none (s := restartBlocks s) none fun _ => low

theorem sampleLines_permitsLaw (flag : Bool) {s : State} (law : PermitsLaw lines s) : PermitsLaw lines (sampleLines flag s) := by
  have ring_sampled (t : State) (ht : PermitsLaw lines t) : PermitsLaw lines (if t.inputs.ring then takeRing flag t else t) := by
    split
    · exact (pushHold_dwindles _ _ t).law ht
    · exact ht
  refine ring_sampled (if s.inputs.stop then takeStop flag s else s) ?_
  split
  · have pushed := (pushHold_dwindles .stop flag s).law law
    exact pushed
  · exact law

theorem coldValues_permitsLaw (s : State) : PermitsLaw lines (coldValues s) :=
  permitsLaw_of_none (fun _ => congrArg GrantRec.live (Vector.getElem_replicate _))
    fun _ w high => by
      have low : (coldValues s).lines.permit[w] = .low := Vector.getElem_replicate _
      rw [low] at high
      cases high

theorem powerOff_permitsLaw (s : State) : PermitsLaw lines (powerOff s) :=
  permitsLaw_of_none (fun _ => congrArg GrantRec.live (Vector.getElem_replicate _))
    fun _ w high => by
      have unpowered : (powerOff s).lines.permit[w] = .unpowered := Vector.getElem_replicate _
      rw [unpowered] at high
      cases high

/-- Grants are live while the part runs alone: a change of what decides that, with none live, keeps the law. -/
theorem PermitsLaw.halted {s : State} (law : PermitsLaw lines s) (halted : s.running = false) (f : Flyer) : s.grantOf f = none := by
  refine Classical.byContradiction fun live => ?_
  exact absurd (halted.symm.trans (law.2 f (Option.isSome_iff_ne_none.mpr live)).1) nofun

theorem PermitsLaw.of_halted {s t : State} (law : PermitsLaw lines s) (halted : s.running = false) (grants : t.grants = s.grants)
    (permit : t.lines.permit = s.lines.permit) : PermitsLaw lines t := by
  refine permitsLaw_of_none (fun f => (grantOf_congr grants f).trans (law.halted halted f)) fun asked w high => ?_
  rw [permit] at high
  obtain ⟨f, -, on⟩ := (law.1 asked w).mp high
  rw [law.halted halted f] at on
  exact absurd on Bool.false_ne_true

theorem EventEffect.permitsLaw {reads : Prop} {s t : State} (h : EventEffect reads s t) (law : PermitsLaw lines s) : PermitsLaw lines t := by
  cases h with
  | none => exact law
  | time d | unheard ch d | late ch d | fellBack d | requestAbandoned d => exact elapse_permitsLaw d law
  | heard ch bytes last => exact hearBytes_permitsLaw ch bytes last law
  | misheard | discarded | sent | stopLevel | ringLevel | rigLock => exact law
  | cellFollowed => exact law
  | resetLevel v off_main =>
    exact law.of_halted (by unfold State.running; rw [decide_eq_false off_main]; rfl) rfl rfl
  | hello ch id =>
    unfold judgeHello welcomeChannel
    split
    · split <;> exact law
    · exact law
  | lost ch d =>
    have recorded : PermitsLaw lines (recordAlert (.lost ch)
        ((elapse d s).setChannel ch { (elapse d s).channels[ch] with state := .lost })) := elapse_permitsLaw d law
    exact (closeEvent_frame _ _ _).permitsLaw ((removeGrant_dwindles _ _ _).law recorded)
  | leaseExpired f d =>
    exact (closeEvent_frame _ _ _).permitsLaw ((removeGrant_dwindles _ _ _).law (elapse_permitsLaw d law))
  | @asked ch x y z rest head granted =>
    have running : s.running = true := by
      unfold State.grantsChannel at granted
      simp only [Bool.and_eq_true] at granted
      exact granted.1.1
    exact answerAsk_permitsLaw ch _ (s := dropHead ch (serveChannel ch s)) running law
  | @reported ch x y z flags =>
    exact (closeEvent_frame _ _ _).permitsLaw ((reportOutcome_dwindles ch _ _ _ _).law law)
  | slotRead => exact (readSlot_dwindles _ _ (serveWalk s)).law law
  | zoneRead => exact (readZone_dwindles _ _ s).law law
  | period t => exact elapse_permitsLaw _ law
  | tickedPeriod t =>
    have begun : PermitsLaw lines (nextPeriod t s) := elapse_permitsLaw _ law
    exact (sourceEvent_dwindles _).law begun
  | pulse => exact (sourceEvent_dwindles _).law law
  | stopped =>
    have pushed := (pushHold_dwindles .stop true (setStopLine true s)).law law
    exact (closeEvent_frame _ _ _).permitsLaw (t := closeEvent false s (takeStop true (setStopLine true s))) pushed
  | rung => exact (closeEvent_frame _ _ _).permitsLaw ((pushHold_dwindles .ring true (setRingLine true s)).law law)
  | backupEntry =>
    obtain ⟨none, low⟩ := haltBlocks_permitsLaw s
    exact permitsLaw_of_none (s := setSupplyState .backup (recordEntry (quietChannels (haltBlocks s)))) none fun _ => low
  | returnOfMain =>
    have restarted : PermitsLaw lines _ := restartBlocks_permitsLaw (setSupplyState .main (recordReturn s))
    have timed : PermitsLaw lines (returnTimers (restartBlocks (setSupplyState .main (recordReturn s)))) := by
      unfold returnTimers
      split
      · exact restarted
      · exact sampleLines_permitsLaw false restarted
    exact ((clearFlagSet_frame _ _).trans ((raiseFlag_frame _ _).trans (beginHead_frame _))).permitsLaw timed
  | resetAsserted =>
    exact ((clearFlagSet_frame _ _).trans (raiseFlag_frame _ _)).permitsLaw (restartBlocks_permitsLaw (setResetLine true s))
  | resetDeasserted main low =>
    have released : PermitsLaw lines (setResetLine false s) :=
      law.of_halted (by unfold State.running; rw [low]; exact Bool.and_false _) rfl rfl
    exact (beginHead_frame _).permitsLaw (sampleLines_permitsLaw true (s := startTimers (setResetLine false s)) released)
  | coldHeld => exact coldValues_permitsLaw s
  | coldStarted =>
    exact (beginHead_frame _).permitsLaw (sampleLines_permitsLaw false (s := startTimers (coldValues s)) (coldValues_permitsLaw s))
  | poweredOff | cellLost => exact powerOff_permitsLaw _

theorem StepEffect.permitsLaw {reads : Prop} {s t : State} (h : StepEffect reads s t) (law : PermitsLaw lines s) : PermitsLaw lines t := by
  cases h with
  | answered sel x _ _ effect =>
    have kept := effect.permitsLaw law
    cases sel <;> exact kept
  | @opened sel => cases sel <;> exact law
  | fell sel => cases sel <;> exact law
  | @rose u sel effect =>
    have shown : PermitsLaw lines u := by
      rcases effect with rfl | rfl | ⟨m, rfl⟩ <;> exact law
    cases sel <;> exact shown
  | event effect => exact effect.permitsLaw law

/-- Settles O55: a grant begins at an ASK alone, with its lines, and each thing that ends the freedom of the rig ends the grants with theirs. -/
theorem permitsKept : Obligations.PermitsKept := by
  unfold Obligations.PermitsKept
  intro s t permits free hs
  obtain ⟨rest, effect⟩ := step_effect hs
  obtain ⟨lines, empty⟩ := effect.permitsLaw (lines := True) ⟨fun _ => permits, free⟩
  exact ⟨lines trivial, empty⟩

end

end Sys2Proof.Machine
end

section
/-! PROOF. The channels' lists in their bounds, the timers with their states, the receivers with part of a frame, and the walk count at most 8, under every effect (R24, R79, R80, R82, R86, R90, R91). -/

namespace Sys2Proof.Machine

/-! ## The walk count (R24) -/

/-- From s to t the walk count stays, or falls to 0 (R24, R46). -/
def CountFalls (s t : State) : Prop := t.arbiter.walkCount = s.arbiter.walkCount ∨ t.arbiter.walkCount = 0

theorem CountFalls.of_eq {s t : State} (h : t.arbiter = s.arbiter) : CountFalls s t := .inl (by rw [h])

theorem CountFalls.trans {s t u : State} (h : CountFalls s t) (k : CountFalls t u) : CountFalls s u := by
  rcases k with k | k
  · exact h.imp k.trans k.trans
  · exact .inr k

theorem freeSlot_count (i : Slot) (s : State) : CountFalls s (freeSlot i s) := by
  unfold freeSlot
  split
  · exact .of_eq rfl
  · dsimp only
    split
    · exact (withdrawEntry_turn _ (s.setSlot i _)).2
    · exact .of_eq rfl

theorem openClaim_arbiter (i : Slot) (s : State) : (openClaim i s).arbiter = s.arbiter := by
  unfold openClaim
  split
  · rfl
  · split
    · exact moveClaim_arbiter _ _ s
    · split <;> exact moveClaim_arbiter _ _ s

theorem freezeClock_arbiter (s : State) : (freezeClock s).arbiter = s.arbiter := by
  unfold freezeClock
  split <;> rfl

theorem pushHold_count (src : HoldSource) (flag : Bool) (s : State) : CountFalls s (pushHold src flag s) := by
  unfold pushHold
  split
  · exact .of_eq rfl
  · have raised (u : State) : CountFalls u (if flag then raiseFlag .holdsChanged u else u) := by
      split <;> exact .of_eq rfl
    have appended := raised { s with holds := s.holds ++ [{ source := src, tick := s.now }] }
    dsimp only
    split
    · have emptied (u : State) (h : CountFalls s u) : CountFalls s (freezeClock (removeAllGrants u)) :=
        (h.trans (removeAllGrants_follows u).2.1.2).trans (.of_eq (freezeClock_arbiter _))
      exact emptied _ appended
    · exact appended

theorem deliverVerdict_count (e : Entry) (v : Option Verdict) (s : State) : CountFalls s (deliverVerdict e v s).1 := by
  unfold deliverVerdict
  split
  · split
    · exact .of_eq rfl
    · split
      · exact .of_eq rfl
      · unfold placeBooking
        split
        · exact .of_eq rfl
        · split
          · exact .of_eq rfl
          · exact .of_eq (openClaim_arbiter _ s)
  · split
    · exact .of_eq rfl
    · split
      · exact .of_eq rfl
      · exact .of_eq rfl
      · next h _ c _ _ _ a _ =>
        split
        · exact .of_eq rfl
        · have shaped : CountFalls s (amendedState h.slot c a (s.setClaim h.slot (amendedClaim c a))) := by
            refine .of_eq ?_
            unfold amendedState restoreGrant
            split
            · split
              · split
                · exact moveClaim_arbiter _ _ _
                · split <;> exact moveClaim_arbiter _ _ _
              · rfl
            · split
              · exact moveClaim_arbiter _ _ _
              · rfl
            · exact releaseOverlap_arbiter _ _
            · rfl
          refine shaped.trans ?_
          unfold passAmendment amendGrant
          dsimp only
          split
          · split
            · exact (removeGrant_follows _ _ _).2.1.2
            · exact .of_eq rfl
          · exact .of_eq rfl
  · exact .of_eq rfl

theorem completeWalk_count (e : Entry) (v : Option Verdict) (s : State) : CountFalls s (completeWalk e v s) := by
  have delivered : CountFalls s (deliverVerdict e v (leaveQueue s)).1 :=
    CountFalls.trans (t := leaveQueue s) (.of_eq rfl) (deliverVerdict_count e v _)
  exact delivered.trans (.of_eq (completeWalk_arbiter e v s))

/-! ## No grant begins, and the count does not grow -/

/-- From s to t no grant begins, and the walk count stays or falls to 0. -/
def Calm (s t : State) : Prop := Dwindles s t ∧ CountFalls s t

theorem Calm.refl (s : State) : Calm s s := ⟨.refl s, .of_eq rfl⟩

theorem Calm.trans {s t u : State} (h : Calm s t) (k : Calm t u) : Calm s u := ⟨h.1.trans k.1, h.2.trans k.2⟩

theorem ClaimFrame.calm {s t : State} (h : ClaimFrame s t) (count : CountFalls s t) : Calm s t := ⟨h.dwindles, count⟩

theorem closeEvent_calm (asked : Bool) (s t : State) : Calm t (closeEvent asked s t) :=
  (closeEvent_frame asked s t).calm (.of_eq (closeEvent_arbiter asked s t))

theorem freeSlot_calm (i : Slot) (s : State) : Calm s (freeSlot i s) := (freeSlot_frame i s).calm (freeSlot_count i s)

theorem withdrawEntry_calm (e : Entry) (s : State) : Calm s (withdrawEntry e s) :=
  (withdrawEntry_frame e s).calm (withdrawEntry_turn e s).2

theorem moveClaim_calm (i : Slot) (st : ClaimState) (s : State) : Calm s (moveClaim i st s) :=
  (moveClaim_frame i st s).calm (.of_eq (moveClaim_arbiter i st s))

theorem beginHead_calm (s : State) : Calm s (beginHead s) := (beginHead_frame s).calm (.of_eq (beginHead_arbiter s))

theorem removeGrant_calm (f : Flyer) (r : Reason) (s : State) : Calm s (removeGrant f r s) :=
  ⟨removeGrant_dwindles f r s, (removeGrant_follows f r s).2.1.2⟩

theorem pushHold_calm (src : HoldSource) (flag : Bool) (s : State) : Calm s (pushHold src flag s) :=
  ⟨pushHold_dwindles src flag s, pushHold_count src flag s⟩

theorem tickEvent_calm (s : State) : Calm s (tickEvent s) := ⟨tickEvent_dwindles s, (tickEvent_follows s).2.1.2⟩

theorem jumpEvent_calm (s : State) : Calm s (jumpEvent s) := ⟨jumpEvent_dwindles s, (jumpEvent_follows s).2.1.2⟩

theorem readSlot_calm (w : Walk) (i : Slot) (s : State) : Calm s (readSlot w i s) := by
  refine ⟨readSlot_dwindles w i s, ?_⟩
  unfold readSlot
  split
  · exact completeWalk_count _ _ s
  · split
    · exact .of_eq rfl
    · split
      · exact completeWalk_count _ _ s
      · exact .of_eq rfl

theorem readZone_calm (w : Walk) (z : Zone) (s : State) : Calm s (readZone w z s) := by
  refine ⟨readZone_dwindles w z s, ?_⟩
  unfold readZone
  split
  · exact completeWalk_count _ _ s
  · split
    · exact .of_eq rfl
    · exact completeWalk_count _ _ s

/-! ## The law of a channel (R79, R80, R82, R86, R90) -/

/-- A channel's lists in their bounds, its timer with its state, its receiver with part of a frame. -/
def channelFits (ch : Channel) (live : Bool) : Prop :=
  ch.inbound.length ≤ Config.inboundRoom ∧ ch.out.length + (if live then 1 else 0) ≤ 4 ∧
    ((ch.state = .closed ∨ ch.state = .opened) → ch.timer = none) ∧ receiverFits ch.rx = true

/-- The channels and the arbiter's count (R24, R79, R80, R82, R86, R90, R91). -/
def WireLaw (s : State) : Prop := (∀ c : Flyer, channelFits s.channels[c] (s.grantOf c).isSome) ∧ ArbiterLaw s

theorem CountFalls.law {s t : State} (h : CountFalls s t) (law : ArbiterLaw s) : ArbiterLaw t := by
  unfold ArbiterLaw at law ⊢
  rcases h with h | h
  · rw [h]
    exact law
  · rw [h]
    exact Nat.zero_le _

theorem Calm.wireLaw {s t : State} (h : Calm s t) (law : WireLaw s) : WireLaw t := by
  refine ⟨fun c => ?_, h.2.law law.2⟩
  obtain ⟨state, inbound, timer, rx⟩ := h.1.channel c
  obtain ⟨room, load, armed, fits⟩ := law.1 c
  refine ⟨by rw [inbound]; exact room, ?_, by rw [state, timer]; exact armed, by rw [rx]; exact fits⟩
  have same : outLoad t c = outLoad s c := h.1.load c
  exact Nat.le_trans (Nat.le_of_eq same) load

/-- A channel written leaves the others, and the law needs the new one to fit. -/
theorem wireLaw_setChannel {s : State} {c : Flyer} {r : Channel} (law : WireLaw s) (fits : channelFits r (s.grantOf c).isSome) :
    WireLaw (s.setChannel c r) := by
  refine ⟨fun d => ?_, law.2⟩
  rw [setChannel_get]
  split
  · next same =>
    subst same
    exact fits
  · exact law.1 d

/-! ## What the events of a channel make of it -/

theorem hearByte_wireLaw (ch : Flyer) (b : Byte) {s : State} (law : WireLaw s) : WireLaw (hearByte ch b s) := by
  obtain ⟨room, load, armed, fits⟩ := law.1 ch
  have heard : WireLaw (setReceiver ch (s.channels[ch].rx.atByte.hear b) s) :=
    wireLaw_setChannel law ⟨room, load, armed, hear_fits _ b fits⟩
  unfold hearByte
  dsimp only
  split
  · unfold admitFrame
    split
    · next has_room =>
      obtain ⟨-, load, armed, fits⟩ := heard.1 ch
      refine wireLaw_setChannel heard ⟨?_, load, armed, fits⟩
      rw [List.length_append]
      exact has_room
    · exact heard
  · exact heard

theorem hearBytes_wireLaw (ch : Flyer) (bytes : List Byte) (last : Byte) {s : State} (law : WireLaw s) :
    WireLaw (hearBytes ch bytes last s) := by
  obtain ⟨room, load, armed, fits⟩ := law.1 ch
  have met : WireLaw (setReceiver ch (s.channels[ch].rx.before (Config.byteTime * bytes.length)) s) := by
    refine wireLaw_setChannel law ⟨room, load, armed, ?_⟩
    cases hr : s.channels[ch].rx with
    | hunting => rfl
    | receiving body since =>
      rw [hr] at fits
      cases body <;> exact fits
  exact hearByte_wireLaw ch last (foldl_frame (fun t u => WireLaw t → WireLaw u) (fun _ => id) (fun _ _ _ h k => k ∘ h)
    (fun t b => hearByte ch b t) (fun t b => hearByte_wireLaw ch b) bytes _ met)

theorem elapse_wireLaw (d : Nat) {s : State} (law : WireLaw s) : WireLaw (elapse d s) := by
  refine ⟨fun c => ?_, ?_⟩
  · obtain ⟨room, load, armed, fits⟩ := law.1 c
    rw [elapse_grantOf_isSome]
    rw [elapse_channel]
    split
    · refine ⟨room, load, fun state => ?_, (elapse_fits d _).trans fits⟩
      show tickTimer d s.channels[c].timer = none
      rw [armed state]
      rfl
    · exact ⟨room, load, armed, fits⟩
  · unfold ArbiterLaw
    rw [elapse_arbiter]
    exact law.2

theorem dropHead_wireLaw (ch : Flyer) {s : State} (law : WireLaw s) : WireLaw (dropHead ch s) := by
  obtain ⟨room, load, armed, fits⟩ := law.1 ch
  refine wireLaw_setChannel law ⟨?_, load, armed, fits⟩
  rw [List.length_drop]
  exact Nat.le_trans (Nat.sub_le _ _) room

/-- A frame queued on a channel that has room beside the REVOKE a live grant may need (R90, R91). -/
theorem queueFrame_wireLaw {ch : Flyer} {o : OutFrame} {s : State} (law : WireLaw s)
    (room : s.channels[ch].out.length ≤ 2) : WireLaw (queueFrame ch o s) := by
  obtain ⟨inbound, -, armed, fits⟩ := law.1 ch
  refine wireLaw_setChannel law ⟨inbound, ?_, armed, fits⟩
  rw [List.length_append, List.length_singleton]
  split <;> omega

theorem mayHandle_iff (ch : Channel) : ch.mayHandle = true ↔ ch.out.length ≤ 2 := decide_eq_true_iff

theorem judgeHello_wireLaw (ch : Flyer) (id : Byte) {s : State} (law : WireLaw s) (room : s.channels[ch].out.length ≤ 2) :
    WireLaw (judgeHello ch id s) := by
  unfold judgeHello
  split
  · have welcomed : WireLaw (welcomeChannel ch s) ∧ (welcomeChannel ch s).channels[ch].out = s.channels[ch].out := by
      unfold welcomeChannel
      split
      · next closed =>
        obtain ⟨inbound, load, armed, fits⟩ := law.1 ch
        refine ⟨wireLaw_setChannel law ⟨inbound, load, fun _ => armed (.inl closed), fits⟩, ?_⟩
        rw [setChannel_get, if_pos rfl]
      · exact ⟨law, rfl⟩
    exact queueFrame_wireLaw welcomed.1 (by rw [welcomed.2]; exact room)
  · exact queueFrame_wireLaw law room

theorem answerAsk_wireLaw (f : Flyer) (target : Cell) {s : State} (law : WireLaw s) (room : s.channels[f].out.length ≤ 2) :
    WireLaw (answerAsk f target s) := by
  unfold answerAsk
  split
  · next kind origin i _ =>
    have got (k : Flyer) : (issueGrant f kind origin target i s).grantOf k =
        if f = k then some (issuedGrant f kind origin target i s) else s.grantOf k := issueGrant_grantOf f kind origin target i s k
    have channel (k : Flyer) : (issueGrant f kind origin target i s).channels[k] =
        if f = k then { s.channels[f] with
          out := s.channels[f].out ++ [.grant (issuedGrant f kind origin target i s).seq target kind] }
        else s.channels[k] := setChannel_get _ f k _
    refine ⟨fun k => ?_, law.2⟩
    rw [got, channel]
    split
    · obtain ⟨inbound, -, armed, fits⟩ := law.1 f
      refine ⟨inbound, ?_, armed, fits⟩
      rw [List.length_append, List.length_singleton, Option.isSome_some, if_pos rfl]
      omega
    · exact law.1 k
  · exact queueFrame_wireLaw law room

/-- A channel's access served: the walk is not owed a turn, so that its count has room (R24). -/
theorem serveChannel_wireLaw {ch : Flyer} {s : State} (granted : s.grantsChannel ch = true) (law : WireLaw s) :
    WireLaw (serveChannel ch s) := by
  refine ⟨law.1, ?_⟩
  unfold State.grantsChannel at granted
  rw [Bool.and_eq_true, Bool.and_eq_true, Bool.not_eq_true', Bool.eq_false_iff, Ne, walkOwed_iff] at granted
  obtain ⟨⟨-, not_owed⟩, -⟩ := granted
  show (if s.walkWaiting = true then s.arbiter.walkCount + 1 else 0) ≤ 8
  split
  · next waiting =>
    have below : ¬ 8 ≤ s.arbiter.walkCount := fun many => not_owed ⟨waiting, many⟩
    omega
  · exact Nat.zero_le _

theorem served_room {ch : Flyer} {s : State} (granted : s.grantsChannel ch = true) : s.channels[ch].out.length ≤ 2 := by
  unfold State.grantsChannel at granted
  rw [Bool.and_eq_true, decide_eq_true_eq] at granted
  have waits : s.channels[ch].waiting = true :=
    List.find?_some (p := fun c : Flyer => s.channels[c].waiting) granted.2
  unfold Channel.waiting at waits
  split at waits
  · exact (mayHandle_iff _).mp (Bool.and_eq_true _ _ |>.mp waits).2
  · exact (mayHandle_iff _).mp (Bool.and_eq_true _ _ |>.mp waits).2
  · exact absurd waits Bool.false_ne_true
  · exact absurd waits Bool.false_ne_true

/-- A quiet channel fits whatever its state (R93). -/
theorem quiet_fits (st : ChannelState) : channelFits (quietChannel st) false :=
  ⟨Nat.zero_le _, Nat.zero_le _, fun _ => rfl, rfl⟩

theorem wireLaw_of_quiet {s : State} (quiet : ∀ c : Flyer, ∃ st, s.channels[c] = quietChannel st)
    (none : ∀ f : Flyer, s.grantOf f = .none) (count : s.arbiter.walkCount = 0) : WireLaw s := by
  refine ⟨fun c => ?_, ?_⟩
  · obtain ⟨st, hc⟩ := quiet c
    rw [hc, none]
    exact quiet_fits st
  · unfold ArbiterLaw
    rw [count]
    exact Nat.zero_le _

end Sys2Proof.Machine
end

section
/-! PROOF. The channels, the arbiter and the positions under every effect (R24, R63, R80, R82, R84, R86, R90, R91): O56. -/

namespace Sys2Proof.Machine

/-- From s to t the law of the channels and the arbiter is kept, and the law of the positions. -/
def AirKept (s t : State) : Prop := (WireLaw s → WireLaw t) ∧ (PositionLaw s → PositionLaw t)

theorem AirKept.refl (s : State) : AirKept s s := ⟨id, id⟩

theorem AirKept.trans {s t u : State} (h : AirKept s t) (k : AirKept t u) : AirKept s u := ⟨k.1 ∘ h.1, k.2 ∘ h.2⟩

/-- The positions read the flyers' records, the channels' states and the supply. -/
theorem positionLaw_of_same {s t : State} (law : PositionLaw s)
    (flyer : ∀ f : Flyer, t.flyers[f].position = s.flyers[f].position ∧ t.flyers[f].grounded = s.flyers[f].grounded)
    (channel : ∀ f : Flyer, t.channels[f].state = s.channels[f].state) (supply : t.supply.state = s.supply.state) :
    PositionLaw t := by
  intro f
  obtain ⟨position, grounded⟩ := flyer f
  rw [position, grounded, channel, supply]
  exact law f

theorem Calm.airKept {s t : State} (h : Calm s t) (flyers : t.flyers = s.flyers) (supply : t.supply = s.supply) : AirKept s t :=
  ⟨h.wireLaw, fun law => positionLaw_of_same law (fun f => by rw [flyers]; exact ⟨rfl, rfl⟩) (fun f => (h.1.channel f).1)
    (by rw [supply])⟩

/-- A channel written that keeps its state keeps the positions' law. -/
theorem positionLaw_setChannel {s : State} {c : Flyer} {r : Channel} (law : PositionLaw s)
    (state : (r.state = .live ∨ r.state = .late) → s.channels[c].state = .live ∨ s.channels[c].state = .late) :
    PositionLaw (s.setChannel c r) := by
  refine fun f => ⟨(law f).1, fun main up => ?_⟩
  rw [setChannel_get] at up
  split at up
  · next same =>
    subst same
    exact (law c).2 main (state up)
  · exact (law f).2 main up

/-! ## The console commands -/

theorem closeEvent_airKept (asked : Bool) (s t : State) : AirKept t (closeEvent asked s t) :=
  (closeEvent_calm asked s t).airKept (closeEvent_frame asked s t).flyers (closeEvent_frame asked s t).supply

theorem moveClaim_airKept (i : Slot) (st : ClaimState) (s : State) : AirKept s (moveClaim i st s) :=
  (moveClaim_calm i st s).airKept (moveClaim_frame i st s).flyers (moveClaim_frame i st s).supply

theorem removeGrant_airKept (f : Flyer) (r : Reason) (s : State) : AirKept s (removeGrant f r s) :=
  (removeGrant_calm f r s).airKept (removeGrant_frame f r s).flyers (removeGrant_frame f r s).supply

theorem pushHold_airKept (src : HoldSource) (flag : Bool) (s : State) : AirKept s (pushHold src flag s) :=
  (pushHold_calm src flag s).airKept (pushHold_frame src flag s).flyers (pushHold_frame src flag s).supply

theorem freeSlot_airKept (i : Slot) (s : State) : AirKept s (freeSlot i s) :=
  (freeSlot_calm i s).airKept (freeSlot_frame i s).flyers (freeSlot_frame i s).supply

theorem withdrawEntry_airKept (e : Entry) (s : State) : AirKept s (withdrawEntry e s) :=
  (withdrawEntry_calm e s).airKept (withdrawEntry_frame e s).flyers (withdrawEntry_frame e s).supply

theorem endClock_airKept (s : State) : AirKept s (endClock s) := by
  unfold endClock
  split <;> exact ⟨id, id⟩

theorem jumpEvent_airKept (s : State) : AirKept s (jumpEvent s) :=
  (jumpEvent_calm s).airKept (jumpEvent_frame s).flyers (jumpEvent_frame s).supply

theorem sourceEvent_airKept (s : State) : AirKept s (sourceEvent s) := by
  unfold sourceEvent
  split
  · have ticked (u : State) : AirKept u (tickEvent u) :=
      (tickEvent_calm u).airKept (tickEvent_frame u).flyers (tickEvent_frame u).supply
    have counted : AirKept s (s.setClock { s.clock with count := s.clock.count + 1 }) := ⟨id, id⟩
    exact counted.trans ((ticked _).trans (endClock_airKept _))
  · exact .refl s

theorem CommandEffect.airKept {s t : State} (h : CommandEffect s t) : AirKept s t := by
  cases h with
  | none => exact .refl s
  | shown | enabled | cleared | autoClear | alertEmptied | supplyEmptied | protectSet
  | templateStored | templateEvicted | templateDropped | templateLocked | bound | unbound => exact ⟨id, id⟩
  | breachCleared f =>
    refine ⟨id, fun law => positionLaw_of_same law (fun k => ?_) (fun _ => rfl) rfl⟩
    rw [setFlyer_get]
    split
    · next same => exact same ▸ ⟨rfl, rfl⟩
    · exact ⟨rfl, rfl⟩
  | @reopened c lost =>
    refine ⟨fun law => ?_, fun law => positionLaw_setChannel law fun up => ?_⟩
    · obtain ⟨room, load, -, fits⟩ := law.1 c
      exact wireLaw_setChannel law ⟨room, load, fun _ => rfl, fits⟩
    · rcases up with up | up <;> cases up
  | claimFreed => exact (freeSlot_airKept _ s).trans (closeEvent_airKept _ _ _)
  | claimHeld =>
    refine AirKept.trans ?_ (closeEvent_airKept _ _ _)
    split
    · exact (moveClaim_airKept _ _ s).trans (removeGrant_airKept _ _ _)
    · exact moveClaim_airKept _ _ s
  | resumedOverlap =>
    have raised (u : State) : AirKept u (raiseFlag .overlapHeld u) := ⟨id, id⟩
    exact (moveClaim_airKept _ _ s).trans ((raised _).trans (closeEvent_airKept _ _ _))
  | resumedActive | resumedOverrun => exact (moveClaim_airKept _ _ s).trans (closeEvent_airKept _ _ _)
  | cancelled => exact (freeSlot_airKept _ s).trans ((withdrawEntry_airKept _ _).trans (closeEvent_airKept _ _ _))
  | @booked i b =>
    have written : AirKept s (appendEntry (.book ((takeSlot i b s).handleAt i)) (takeSlot i b s)) := ⟨id, id⟩
    exact written.trans (closeEvent_airKept _ _ _)
  | @fired i b k w =>
    have written : AirKept s (appendEntry (.book ((takeSlot i b (accessWay k w s)).handleAt i)) (takeSlot i b (accessWay k w s))) :=
      ⟨id, id⟩
    exact written.trans (closeEvent_airKept _ _ _)
  | @amended i c a =>
    have written : AirKept s (appendEntry (.amend (s.handleAt i)) (s.setClaim i { c with amend := some a })) := ⟨id, id⟩
    exact written.trans (closeEvent_airKept _ _ _)
  | @zoneRequested z area =>
    have written : AirKept s (appendEntry (.zone z) (s.setZone z (requestZone area s.zones[z]))) := ⟨id, id⟩
    exact written.trans (closeEvent_airKept _ _ _)
  | zoneEmptied z =>
    have emptied : AirKept s (s.setZone z .empty) := ⟨id, id⟩
    exact emptied.trans ((withdrawEntry_airKept _ _).trans (closeEvent_airKept _ _ _))
  | holdPushed src => exact (pushHold_airKept src true s).trans (closeEvent_airKept _ _ _)
  | holdReleased src =>
    rw [removeHold_eq]
    exact ⟨id, id⟩
  | @clockLoaded v =>
    have loaded : AirKept s (s.setClock { s.clock with count := v, run := loadedRun s }) := ⟨id, id⟩
    exact loaded.trans (jumpEvent_airKept _)
  | sourceSelected src =>
    unfold selectSource
    split <;> exact ⟨id, id⟩
  | @clockSkipped d =>
    have skipped : AirKept s (s.setClock { s.clock with count := min (s.clock.count + d) Config.maxTick }) := ⟨id, id⟩
    exact skipped.trans ((jumpEvent_airKept _).trans (endClock_airKept _))

/-! ## The events -/

theorem elapse_airKept (d : Nat) (s : State) : AirKept s (elapse d s) :=
  ⟨elapse_wireLaw d, fun law => positionLaw_of_same law (fun f => by rw [elapse_flyers]; exact ⟨rfl, rfl⟩)
    (elapse_channelState d s) (by rw [elapse_supply])⟩

/-- A channel written with its state kept. -/
theorem setChannel_airKept {s : State} {c : Flyer} {r : Channel} (state : r.state = s.channels[c].state)
    (fits : channelFits s.channels[c] (s.grantOf c).isSome → channelFits r (s.grantOf c).isSome) : AirKept s (s.setChannel c r) :=
  ⟨fun law => wireLaw_setChannel law (fits (law.1 c)), fun law => positionLaw_setChannel law fun up => by rwa [state] at up⟩

theorem hunt_airKept (ch : Flyer) (s : State) : AirKept s (setReceiver ch .hunting s) :=
  setChannel_airKept rfl fun ⟨room, load, armed, _⟩ => ⟨room, load, armed, rfl⟩

theorem hearBytes_positionLaw (ch : Flyer) (bytes : List Byte) (last : Byte) {s : State} (law : PositionLaw s) :
    PositionLaw (hearBytes ch bytes last s) := by
  have received (r : Receiver) (t : State) (ht : PositionLaw t) : PositionLaw (setReceiver ch r t) :=
    positionLaw_setChannel ht id
  have one (b : Byte) (t : State) (ht : PositionLaw t) : PositionLaw (hearByte ch b t) := by
    unfold hearByte admitFrame
    dsimp only
    split
    · split
      · exact positionLaw_setChannel (received _ t ht) id
      · exact received _ t ht
    · exact received _ t ht
  exact one last _ (foldl_frame (fun t u => PositionLaw t → PositionLaw u) (fun _ => id) (fun _ _ _ h k => k ∘ h)
    (fun t b => hearByte ch b t) (fun t b => one b t) bytes _ (received _ s law))

theorem positionLaw_queueFrame {ch : Flyer} {o : OutFrame} {s : State} (law : PositionLaw s) : PositionLaw (queueFrame ch o s) :=
  positionLaw_setChannel law id

theorem judgeHello_positionLaw (ch : Flyer) (id : Byte) {s : State} (law : PositionLaw s) : PositionLaw (judgeHello ch id s) := by
  have welcomed : PositionLaw (welcomeChannel ch s) := by
    unfold welcomeChannel
    split
    · exact positionLaw_setChannel law fun up => by rcases up with up | up <;> cases up
    · exact law
  unfold judgeHello
  split
  · exact positionLaw_queueFrame welcomed
  · exact positionLaw_queueFrame law

theorem answerAsk_positionLaw (f : Flyer) (target : Cell) {s : State} (law : PositionLaw s) : PositionLaw (answerAsk f target s) := by
  unfold answerAsk
  split
  · next kind origin i _ =>
    have granted : PositionLaw (drivePermits f .high (s.setGrant f
        { seq := (issuedGrant f kind origin target i s).seq, live := some (issuedGrant f kind origin target i s) })) := law
    exact positionLaw_queueFrame granted
  · exact positionLaw_queueFrame law

/-- A REPORT leaves a position, whatever state it brings the channel to (R69, R84). -/
theorem storedReport_airKept (ch : Flyer) (cell : Cell) (grounded : Bool) (s : State) :
    AirKept s (storeReport ch cell grounded (channelReport ch s)) := by
  refine ⟨fun law => ?_, fun law f => ?_⟩
  · obtain ⟨room, load, -, fits⟩ := law.1 ch
    have reported : WireLaw (channelReport ch s) := by
      refine wireLaw_setChannel law ⟨room, load, fun state => ?_, fits⟩
      dsimp only at state
      split at state
      · rcases state with state | state <;> cases state
      · rcases state with state | state <;> cases state
    exact reported
  · have flyer : (storeReport ch cell grounded (channelReport ch s)).flyers[f] =
        if ch = f then { s.flyers[ch] with position := some cell, grounded := grounded } else s.flyers[f] := setFlyer_get _ ch f _
    have channel : (storeReport ch cell grounded (channelReport ch s)).channels[f] =
        if ch = f then { s.channels[ch] with
          state := if s.channels[ch].state = .lost then .lost else .live
          timer := some 0 } else s.channels[f] := setChannel_get s ch f _
    rw [flyer, channel]
    split
    · exact ⟨fun absent => absurd absent nofun, fun _ _ => rfl⟩
    · exact law f

/-- The breach record's writing moves no position (R115). -/
theorem breachNoted_airKept (f : Flyer) (kind : BreachKind) (cell : Cell) (s : State) :
    AirKept s (recordAlert (breachAlert f kind) (writeBreach f kind cell s)) := by
  refine ⟨id, fun law => positionLaw_of_same law (fun k => ?_) (fun _ => rfl) rfl⟩
  have written : (writeBreach f kind cell s).flyers[k] = if f = k then
      { s.flyers[f] with breach := some (breachRecordAfter { kind := kind, tick := s.now, cell := cell } s.flyers[f].breach) }
    else s.flyers[k] := setFlyer_get s f k _
  have alerted : (recordAlert (breachAlert f kind) (writeBreach f kind cell s)).flyers = (writeBreach f kind cell s).flyers := rfl
  rw [alerted, written]
  split
  · next same => exact same ▸ ⟨rfl, rfl⟩
  · exact ⟨rfl, rfl⟩

theorem breachClaims_airKept (f : Flyer) (s : State) : AirKept s (breachClaims f s) :=
  ((breachClaims_frame f s).calm (breachClaims_follows f s).2.1.2).airKept (breachClaims_frame f s).flyers
    (breachClaims_frame f s).supply

theorem reportOutcome_airKept (f : Flyer) (cell : Cell) (grounded : Bool) (v : Option BreachKind) (s : State) :
    AirKept s (reportOutcome f cell grounded v s) := by
  unfold reportOutcome
  split
  · next kind =>
    have recorded := ((removeGrant_airKept f .breach s).trans (breachClaims_airKept f _)).trans (breachNoted_airKept f kind cell _)
    unfold breachResponse
    dsimp only
    split
    · exact recorded.trans (pushHold_airKept _ _ _)
    · exact recorded
  · split
    · exact ((groundedEvent_frame f s).calm (groundedEvent_follows f s).2.1.2).airKept (groundedEvent_frame f s).flyers
        (groundedEvent_frame f s).supply
    · exact .refl s

theorem readSlot_airKept (w : Walk) (i : Slot) (s : State) : AirKept s (readSlot w i s) := by
  refine (readSlot_calm w i s).airKept ?_ ?_
  · unfold readSlot
    split
    · exact (completeWalk_frame _ _ s).flyers
    · split
      · rfl
      · split
        · exact (completeWalk_frame _ _ s).flyers
        · rfl
  · unfold readSlot
    split
    · exact (completeWalk_frame _ _ s).supply
    · split
      · rfl
      · split
        · exact (completeWalk_frame _ _ s).supply
        · rfl

theorem readZone_airKept (w : Walk) (z : Zone) (s : State) : AirKept s (readZone w z s) := by
  refine (readZone_calm w z s).airKept ?_ ?_
  · unfold readZone
    split
    · exact (completeWalk_frame _ _ s).flyers
    · split
      · rfl
      · exact (completeWalk_frame _ _ s).flyers
  · unfold readZone
    split
    · exact (completeWalk_frame _ _ s).supply
    · split
      · rfl
      · exact (completeWalk_frame _ _ s).supply

/-! ## The supplies -/

/-- The channels, the grants and the positions as a halt leaves them, but for the channels' closing (R75, R93, R106). -/
theorem haltBlocks_air (s : State) : (∀ f : Flyer, (haltBlocks s).grantOf f = none) ∧ (haltBlocks s).arbiter.walkCount = 0 ∧
    ∀ f : Flyer, (haltBlocks s).flyers[f].grounded = true := by
  obtain ⟨-, tables, -, -, -, -, arbiter, -⟩ := (haltBlocks_halted s).halt
  refine ⟨fun f => ?_, by rw [arbiter], fun f => by rw [(tables f).2]⟩
  unfold State.grantOf
  rw [(tables f).1]

/-- A restart's channels are CLOSED and quiet, its flyers grounded. -/
theorem restartBlocks_air (s : State) : WireLaw (restartBlocks s) ∧ PositionLaw (restartBlocks s) := by
  obtain ⟨none, count, grounded⟩ := haltBlocks_air s
  have closed : ∀ c : Flyer, (restartBlocks s).channels[c] = quietChannel .closed := fun c => Vector.getElem_replicate _
  refine ⟨wireLaw_of_quiet (fun c => ⟨_, closed c⟩) none count, fun f => ⟨fun _ => grounded f, fun _ up => ?_⟩⟩
  rw [closed] at up
  rcases up with up | up <;> cases up

theorem sampleLines_airKept (flag : Bool) (s : State) : AirKept s (sampleLines flag s) := by
  have alerted (u : State) : AirKept u (recordAlert .stop u) := ⟨id, id⟩
  have stopped : AirKept s (stopSampled flag s) := by
    unfold stopSampled
    split
    · exact (pushHold_airKept .stop flag s).trans (alerted _)
    · exact .refl s
  have unfolded : sampleLines flag s =
      if (stopSampled flag s).inputs.ring then takeRing flag (stopSampled flag s) else stopSampled flag s := rfl
  rw [unfolded]
  split
  · exact stopped.trans (pushHold_airKept .ring flag _)
  · exact stopped

theorem beginHead_airKept (s : State) : AirKept s (beginHead s) :=
  (beginHead_calm s).airKept (beginHead_frame s).flyers (beginHead_frame s).supply

theorem coldValues_air (s : State) : WireLaw (coldValues s) ∧ PositionLaw (coldValues s) := by
  have closed : ∀ c : Flyer, (coldValues s).channels[c] = quietChannel .closed := fun c => Vector.getElem_replicate _
  have cold : ∀ f : Flyer, (coldValues s).flyers[f] = coldFlyer := fun f => Vector.getElem_replicate _
  refine ⟨wireLaw_of_quiet (fun c => ⟨_, closed c⟩) (fun _ => congrArg GrantRec.live (Vector.getElem_replicate _)) rfl,
    fun f => ⟨fun _ => by rw [cold]; rfl, fun _ up => ?_⟩⟩
  rw [closed] at up
  rcases up with up | up <;> cases up

/-- The part OFF keeps the cold start's channels and flyers. -/
theorem powerOff_air (s : State) : WireLaw (powerOff s) ∧ PositionLaw (powerOff s) := by
  obtain ⟨wires, positions⟩ := coldValues_air s
  exact ⟨wires, positionLaw_of_same (s := { coldValues s with supply := (powerOff s).supply })
    (fun f => ⟨(positions f).1, fun main => by cases main⟩) (fun _ => ⟨rfl, rfl⟩) (fun _ => rfl) rfl⟩

/-- Timers started, outputs driven and flags set leave the channels, the arbiter and the positions. -/
theorem startTimers_airKept (s : State) : AirKept s (startTimers s) := ⟨id, id⟩

theorem driveLines_airKept (s : State) : AirKept s (driveLines s) := ⟨id, id⟩

theorem restartFlags_airKept (s : State) : AirKept s (restartFlags s) := ⟨id, id⟩

theorem recordAlert_airKept (cause : AlertCause) (s : State) : AirKept s (recordAlert cause s) := ⟨id, id⟩

theorem raiseFlag_airKept (f : Flag) (s : State) : AirKept s (raiseFlag f s) := ⟨id, id⟩

theorem setClock_airKept (k : Clock) (s : State) : AirKept s (s.setClock k) := ⟨id, id⟩

theorem beginRunning_airKept (flag : Bool) (s : State) : AirKept s (beginRunning flag s) :=
  (startTimers_airKept s).trans ((sampleLines_airKept flag _).trans (beginHead_airKept _))

theorem backupEntered_airKept (s : State) : AirKept s (setSupplyState .backup (recordEntry (quietChannels (haltBlocks s)))) := by
  obtain ⟨none, count, grounded⟩ := haltBlocks_air s
  have quiet : ∀ c : Flyer, (setSupplyState .backup (recordEntry (quietChannels (haltBlocks s)))).channels[c] =
      quietChannel (haltBlocks s).channels[c].state :=
    fun c => tabulate_get (fun c => quietChannel (haltBlocks s).channels[c].state) c
  exact ⟨fun _ => wireLaw_of_quiet (fun c => ⟨_, quiet c⟩) none count,
    fun _ f => ⟨fun _ => grounded f, fun main => absurd main nofun⟩⟩

theorem mainReturned_airKept (s : State) :
    AirKept s (beginHead (restartFlags (returnTimers (restartBlocks (setSupplyState .main (recordReturn s)))))) := by
  obtain ⟨wires, positions⟩ := restartBlocks_air (setSupplyState .main (recordReturn s))
  generalize restartBlocks (setSupplyState .main (recordReturn s)) = u at *
  have timed : AirKept u (returnTimers u) := by
    unfold returnTimers
    split
    · exact .refl u
    · exact (startTimers_airKept u).trans (sampleLines_airKept false _)
  have run := timed.trans ((restartFlags_airKept _).trans (beginHead_airKept _))
  exact ⟨fun _ => run.1 wires, fun _ => run.2 positions⟩

theorem coldStarted_airKept (s : State) : AirKept s (driveLines (beginRunning false (coldValues s))) := by
  obtain ⟨wires, positions⟩ := coldValues_air s
  generalize coldValues s = u at *
  have run := (beginRunning_airKept false u).trans (driveLines_airKept _)
  exact ⟨fun _ => run.1 wires, fun _ => run.2 positions⟩

theorem coldHeld_airKept (s : State) : AirKept s (driveLines (stopTimers (coldValues s))) := by
  obtain ⟨wires, positions⟩ := coldValues_air s
  generalize coldValues s = u at *
  have run : AirKept u (driveLines (stopTimers u)) := (setClock_airKept _ u).trans (driveLines_airKept _)
  exact ⟨fun _ => run.1 wires, fun _ => run.2 positions⟩

theorem EventEffect.airKept {reads : Prop} {s t : State} (h : EventEffect reads s t) : AirKept s t := by
  cases h with
  | none => exact .refl s
  | time d => exact elapse_airKept d s
  | unheard ch d => exact (elapse_airKept d s).trans (hunt_airKept ch _)
  | late ch d live =>
    have late_state (u : State) (hu : u.channels[ch].state = .live) :
        AirKept u (u.setChannel ch { u.channels[ch] with state := .late }) := by
      refine ⟨fun law => ?_, fun law => positionLaw_setChannel law fun _ => .inl hu⟩
      obtain ⟨room, load, -, fits⟩ := law.1 ch
      exact wireLaw_setChannel law ⟨room, load, fun state => absurd state nofun, fits⟩
    exact (elapse_airKept d s).trans ((late_state _ ((elapse_channelState d s ch).trans live)).trans (raiseFlag_airKept _ _))
  | fellBack d | requestAbandoned d =>
    exact (elapse_airKept d s).trans ((setClock_airKept _ _).trans (raiseFlag_airKept _ _))
  | heard ch bytes last => exact ⟨hearBytes_wireLaw ch bytes last, hearBytes_positionLaw ch bytes last⟩
  | misheard ch => exact hunt_airKept ch s
  | discarded ch => exact ⟨dropHead_wireLaw ch, fun law => positionLaw_setChannel law id⟩
  | sent ch =>
    refine setChannel_airKept rfl fun ⟨room, load, armed, fits⟩ => ⟨room, ?_, armed, fits⟩
    rw [List.length_drop]
    split at load <;> split <;> omega
  | stopLevel | ringLevel | rigLock | cellFollowed | resetLevel => exact ⟨id, id⟩
  | hello ch id room =>
    have short : (dropHead ch s).channels[ch].out.length ≤ 2 := by
      have kept : (dropHead ch s).channels[ch] = { s.channels[ch] with inbound := s.channels[ch].inbound.drop 1 } := by
        unfold dropHead
        rw [setChannel_get, if_pos rfl]
      rw [kept]
      exact (mayHandle_iff _).mp room
    exact ⟨fun law => judgeHello_wireLaw ch id (dropHead_wireLaw ch law) short,
      fun law => judgeHello_positionLaw ch id (positionLaw_setChannel law fun up => up)⟩
  | lost ch d =>
    have fallen (u : State) : AirKept u (u.setChannel ch { u.channels[ch] with state := .lost }) := by
      refine ⟨fun law => ?_, fun law => positionLaw_setChannel law fun up => absurd up nofun⟩
      obtain ⟨room, load, -, fits⟩ := law.1 ch
      exact wireLaw_setChannel law ⟨room, load, fun state => absurd state nofun, fits⟩
    exact (elapse_airKept d s).trans ((fallen _).trans ((recordAlert_airKept _ _).trans
      ((removeGrant_airKept _ _ _).trans (closeEvent_airKept _ _ _))))
  | leaseExpired f d => exact (elapse_airKept d s).trans ((removeGrant_airKept _ _ _).trans (closeEvent_airKept _ _ _))
  | @asked ch x y z rest head granted =>
    have short : (dropHead ch (serveChannel ch s)).channels[ch].out.length ≤ 2 := by
      have kept : (dropHead ch (serveChannel ch s)).channels[ch] =
          { s.channels[ch] with inbound := s.channels[ch].inbound.drop 1 } := by
        unfold dropHead
        rw [setChannel_get, if_pos rfl]
        rfl
      rw [kept]
      exact served_room granted
    exact ⟨fun law => answerAsk_wireLaw ch _ (dropHead_wireLaw ch (serveChannel_wireLaw granted law)) short,
      fun law => answerAsk_positionLaw ch _ (positionLaw_setChannel (s := serveChannel ch s) law fun up => up)⟩
  | @reported ch x y z flags rest head granted =>
    have dropped : AirKept s (dropHead ch (serveChannel ch s)) :=
      ⟨fun law => dropHead_wireLaw ch (serveChannel_wireLaw granted law),
        fun law => positionLaw_setChannel (s := serveChannel ch s) law fun up => up⟩
    exact dropped.trans ((storedReport_airKept ch _ _ _).trans ((reportOutcome_airKept ch _ _ _ _).trans (closeEvent_airKept _ _ _)))
  | slotRead =>
    have served : AirKept s (serveWalk s) := ⟨fun law => ⟨law.1, Nat.zero_le _⟩, id⟩
    exact served.trans (readSlot_airKept _ _ _)
  | zoneRead => exact readZone_airKept _ _ s
  | period t => exact (elapse_airKept _ s).trans (setClock_airKept _ _)
  | tickedPeriod t =>
    have begun : AirKept s (nextPeriod t s) := (elapse_airKept _ s).trans (setClock_airKept _ _)
    exact begun.trans (sourceEvent_airKept _)
  | pulse request => exact (setClock_airKept _ s).trans (sourceEvent_airKept _)
  | stopped =>
    have followed : AirKept s (setStopLine true s) := ⟨id, id⟩
    exact followed.trans ((pushHold_airKept _ _ _).trans ((recordAlert_airKept _ _).trans (closeEvent_airKept _ _ _)))
  | rung =>
    have followed : AirKept s (setRingLine true s) := ⟨id, id⟩
    exact followed.trans ((pushHold_airKept _ _ _).trans (closeEvent_airKept _ _ _))
  | backupEntry => exact backupEntered_airKept s
  | returnOfMain => exact mainReturned_airKept s
  | resetAsserted =>
    obtain ⟨wires, positions⟩ := restartBlocks_air (setResetLine true s)
    have flagged := restartFlags_airKept (restartBlocks (setResetLine true s))
    exact ⟨fun _ => flagged.1 wires, fun _ => flagged.2 positions⟩
  | resetDeasserted =>
    have released : AirKept s (setResetLine false s) := ⟨id, id⟩
    exact released.trans (beginRunning_airKept true _)
  | coldHeld => exact coldHeld_airKept s
  | coldStarted => exact coldStarted_airKept s
  | poweredOff | cellLost =>
    exact ⟨fun _ => (powerOff_air _).1, fun _ => (powerOff_air _).2⟩

theorem StepEffect.airKept {reads : Prop} {s t : State} (h : StepEffect reads s t) : AirKept s t := by
  cases h with
  | @answered u sel x _ _ effect =>
    have answered : AirKept u (u.setTx sel x) := by cases sel <;> exact ⟨id, id⟩
    exact effect.airKept.trans answered
  | @opened sel => cases sel <;> exact ⟨id, id⟩
  | fell sel => cases sel <;> exact ⟨id, id⟩
  | @rose u sel effect =>
    have shown : AirKept s u := by
      rcases effect with rfl | rfl | ⟨m, rfl⟩ <;> exact ⟨id, id⟩
    have closed : AirKept u ((u.setSelectLow sel false).setTx sel .idle) := by cases sel <;> exact ⟨id, id⟩
    exact shown.trans closed
  | event effect => exact effect.airKept

/-- Settles O56: a frame joins a list where there is room for it, a REVOKE takes its grant's room, and a REPORT that brings a channel up leaves a position. -/
theorem channelsAndPositionsKept : Obligations.ChannelsAndPositionsKept := by
  unfold Obligations.ChannelsAndPositionsKept
  refine ⟨fun s t channels arbiter hs => ?_, fun s t law hs => ?_⟩
  · obtain ⟨rest, effect⟩ := step_effect hs
    exact effect.airKept.1 ⟨channels, arbiter⟩
  · obtain ⟨rest, effect⟩ := step_effect hs
    exact effect.airKept.2 law

end Sys2Proof.Machine
end

section
/-! PROOF. What the events that book nothing make of a claim before their close: it stays, it is freed, or its state alone moves among the occupying ones; one that waits or was refused stays, and a HELD OVERLAP one stays or is freed (R7, R9, R11 to R17). -/

namespace Sys2Proof.Machine

/-! ## One slot -/

/-- What becomes of a slot's claim. -/
structure evolves (a b : Option Claim) : Prop where
  waits : ∀ c, a = some c → c.state.occupying = false → b = some c
  overlap : ∀ c m, a = some c → c.state = .held .overlap m → b = some c ∨ b = none
  came : ∀ d, b = some d → a = some d ∨ ∃ c, a = some c ∧ d = { c with state := d.state } ∧ c.state.occupying = true ∧
    d.state.occupying = true ∧ d.state ≠ .booked ∧ ∀ m, d.state = .held .overlap m → c.state = .booked

theorem evolves.refl (a : Option Claim) : evolves a a := ⟨fun _ h _ => h, fun _ _ h _ => .inl h, fun _ h => .inl h⟩

theorem evolves.trans {a b e : Option Claim} (h : evolves a b) (k : evolves b e) : evolves a e where
  waits := fun c hc waits => k.waits c (h.waits c hc waits) waits
  overlap := fun c m hc held => by
    rcases h.overlap c m hc held with stays | gone
    · exact k.overlap c m stays held
    · right
      cases he : e with
      | none => rfl
      | some d =>
        rcases k.came d he with same | ⟨x, hx, -⟩
        · rw [gone] at same
          cases same
        · rw [gone] at hx
          cases hx
  came := fun d hd => by
    rcases k.came d hd with same | ⟨x, hx, shape, from_occupying, occupying, not_booked, overlap⟩
    · exact h.came d same
    · right
      rcases h.came x hx with first | ⟨c, hc, shape', from_occupying', -, not_booked', -⟩
      · exact ⟨x, first, shape, from_occupying, occupying, not_booked, overlap⟩
      · refine ⟨c, hc, ?_, from_occupying', occupying, not_booked, fun m held => absurd (overlap m held) not_booked'⟩
        rw [shape, shape']

/-- A claim freed that neither waits nor was refused. -/
theorem evolves.freed {c : Claim} (occupying : c.state.occupying = true) : evolves (some c) none where
  waits := fun d hd waits => by
    cases hd
    rw [occupying] at waits
    cases waits
  overlap := fun _ _ _ _ => .inr rfl
  came := fun _ hd => nomatch hd

/-- A claim's state moved among the occupying ones; to HELD OVERLAP from BOOKED alone, and from HELD OVERLAP never. -/
theorem evolves.moved {c : Claim} {st : ClaimState} (from_occupying : c.state.occupying = true) (occupying : st.occupying = true)
    (not_booked : st ≠ .booked) (into : ∀ m, st = .held .overlap m → c.state = .booked)
    (out : ∀ m, c.state ≠ .held .overlap m) : evolves (some c) (some { c with state := st }) where
  waits := fun d hd waits => by
    cases hd
    rw [from_occupying] at waits
    cases waits
  overlap := fun d m hd held => by
    cases hd
    exact absurd held (out m)
  came := fun d hd => by
    cases hd
    exact .inr ⟨c, rfl, rfl, from_occupying, occupying, not_booked, into⟩

/-! ## Every slot -/

/-- From s to t every slot's claim evolves as the events that book nothing have it before their close. -/
def Evolves (s t : State) : Prop := ∀ j : Slot, evolves (s.claimAt j) (t.claimAt j)

theorem Evolves.refl (s : State) : Evolves s s := fun _ => .refl _

theorem Evolves.trans {s t u : State} (h : Evolves s t) (k : Evolves t u) : Evolves s u := fun j => (h j).trans (k j)

theorem Evolves.of_slots {s t : State} (h : t.slots = s.slots) : Evolves s t := fun j => by
  rw [claimAt_congr h j]
  exact .refl _

theorem freeSlot_evolves {i : Slot} {s : State} {c : Claim} (hc : s.claimAt i = some c) (occupying : c.state.occupying = true) :
    Evolves s (freeSlot i s) := fun j => by
  rw [freeSlot_claimAt]
  split
  · next same =>
    subst same
    rw [hc]
    exact .freed occupying
  · exact .refl _

theorem expireSlot_evolves {i : Slot} {s : State} {c : Claim} (hc : s.claimAt i = some c) (occupying : c.state.occupying = true) :
    Evolves s (expireSlot i s) := (freeSlot_evolves hc occupying).trans (.of_slots rfl)

theorem moveClaim_evolves {i : Slot} {st : ClaimState} {s : State} {c : Claim} (hc : s.claimAt i = some c)
    (from_occupying : c.state.occupying = true) (occupying : st.occupying = true) (not_booked : st ≠ .booked)
    (into : ∀ m, st = .held .overlap m → c.state = .booked) (out : ∀ m, c.state ≠ .held .overlap m) :
    Evolves s (moveClaim i st s) := fun j => by
  rw [moveClaim_claimAt]
  split
  · next same =>
    subst same
    rw [hc]
    exact .moved from_occupying occupying not_booked into out
  · exact .refl _

theorem foldSlots_evolves (f : State → Slot → State) (h : ∀ t i, Evolves t (f t i)) (s : State) : Evolves s (allSlots.foldl f s) :=
  foldl_frame Evolves .refl (fun _ _ _ => .trans) f h allSlots s

theorem groundedEvent_evolves (f : Flyer) (s : State) : Evolves s (groundedEvent f s) := by
  unfold groundedEvent
  refine foldSlots_evolves _ (fun t i => ?_) s
  split
  · next c hc =>
    split
    · next ends =>
      simp only [Bool.and_eq_true, decide_eq_true_eq] at ends
      exact expireSlot_evolves hc (by rw [ends.1.2]; rfl)
    · exact .refl t
  · exact .refl t

theorem removeGrant_evolves (f : Flyer) (r : Reason) (s : State) : Evolves s (removeGrant f r s) := by
  unfold removeGrant
  split
  · exact .refl s
  · next g _ =>
    have quiet : Evolves s (queueFrame f (.revoke g.seq r) (drivePermits f .low (s.setGrant f { s.grants[f] with live := none }))) :=
      .of_slots rfl
    dsimp only
    split
    · exact quiet.trans (groundedEvent_evolves f _)
    · exact quiet

theorem removeAllGrants_evolves (s : State) : Evolves s (removeAllGrants s) :=
  foldl_frame Evolves .refl (fun _ _ _ => .trans) _ (fun t f => removeGrant_evolves f .hold t) allFlyers s

theorem pushHold_evolves (src : HoldSource) (flag : Bool) (s : State) : Evolves s (pushHold src flag s) := by
  unfold pushHold
  split
  · exact .refl s
  · have raised (u : State) : Evolves u (if flag then raiseFlag .holdsChanged u else u) := by
      split <;> exact .of_slots rfl
    have appended : Evolves s (if flag then raiseFlag .holdsChanged { s with holds := s.holds ++ [{ source := src, tick := s.now }] }
        else { s with holds := s.holds ++ [{ source := src, tick := s.now }] }) :=
      Evolves.trans (t := { s with holds := s.holds ++ [{ source := src, tick := s.now }] }) (.of_slots rfl) (raised _)
    have frozen (u : State) : Evolves u (freezeClock u) := by
      rw [freeze_clock]
      exact .of_slots rfl
    dsimp only
    split
    · exact appended.trans ((removeAllGrants_evolves _).trans (frozen _))
    · exact appended

theorem breachClaims_evolves (f : Flyer) (s : State) : Evolves s (breachClaims f s) := by
  unfold breachClaims
  refine foldSlots_evolves _ (fun t i => ?_) s
  unfold breachClaim
  split
  · exact .refl t
  · next c hc =>
    split
    · split
      · next state => exact moveClaim_evolves hc (by rw [state]; rfl) rfl nofun (fun _ h => nomatch h) (by rw [state]; nofun)
      · next state => exact moveClaim_evolves hc (by rw [state]; rfl) rfl nofun (fun _ h => nomatch h) (by rw [state]; nofun)
      · exact .refl t
    · exact .refl t

theorem endings_evolves (s : State) : Evolves s (endings s) := by
  unfold endings
  refine foldSlots_evolves _ (fun t i => ?_) s
  unfold endClaim
  split
  · exact .refl t
  · next c hc =>
    split
    · split
      · next state =>
        split
        · exact expireSlot_evolves hc (by rw [state]; rfl)
        · have overran := moveClaim_evolves (st := .overrun) hc (by rw [state]; rfl) rfl nofun (fun _ h => nomatch h) (by rw [state]; nofun)
          obtain ⟨slots, -⟩ := descendGrant_goes c.flyer (t.handleAt i) (raiseFlag .overrun (moveClaim i .overrun t))
          exact overran.trans (.of_slots slots)
      · next state => exact expireSlot_evolves hc (by rw [state]; rfl)
      · next cause not_overlap state =>
        refine moveClaim_evolves hc (by rw [state]; rfl) rfl nofun (fun _ h => ?_) (fun m h => ?_)
        · cases h
          exact (not_overlap rfl).elim
        · rw [state] at h
          cases h
          exact (not_overlap rfl).elim
      · exact .refl t
    · exact .refl t

theorem openBooked_evolves (i : Slot) (s : State) : Evolves s (openBooked i s) := by
  unfold openBooked
  split
  · exact .refl s
  · next c hc =>
    split
    · next starts =>
      simp only [Bool.and_eq_true, decide_eq_true_eq] at starts
      have moved (st : ClaimState) (occupying : st.occupying = true) (not_booked : st ≠ .booked) : Evolves s (moveClaim i st s) :=
        moveClaim_evolves hc (by rw [starts.1]; rfl) occupying not_booked (fun _ _ => starts.1) (by rw [starts.1]; nofun)
      unfold openClaim
      rw [hc]
      dsimp only
      split
      · exact moved _ rfl nofun
      · split
        · exact (moved (.held .overlap false) rfl nofun).trans (.of_slots rfl)
        · exact (moved .active rfl nofun).trans (.of_slots rfl)
    · exact .refl s

theorem openings_evolves (s : State) : Evolves s (openings s) := foldSlots_evolves _ (fun t i => openBooked_evolves i t) s

theorem jumpOpenings_evolves (s : State) : Evolves s (jumpOpenings s) := by
  unfold jumpOpenings
  refine foldSlots_evolves _ (fun t i => ?_) s
  unfold jumpBooked
  split
  · exact .refl t
  · next c hc =>
    split
    · next past =>
      simp only [Bool.and_eq_true, decide_eq_true_eq] at past
      exact expireSlot_evolves hc (by rw [past.1]; rfl)
    · exact openBooked_evolves i t

end Sys2Proof.Machine
end

section
/-! PROOF. The admission's laws across a close: the queue, the walk on its head, the claim in CHECKING under it (R7, R27, R28, R34, R44 to R49). -/

namespace Sys2Proof.Machine

/-! ## The walk past the re-check -/

/-- From s to u no ACTIVE claim was put in HELD OVERLAP. -/
def NoActiveHeld (s u : State) : Prop :=
  ∀ (j : Slot) (c d : Claim) (m : Bool), s.claimAt j = some c → u.claimAt j = some d → d.state = .held .overlap m → c.state ≠ .active

theorem Evolves.noActiveHeld {s u : State} (h : Evolves s u) : NoActiveHeld s u := by
  intro j c d m hc hd held active
  rcases (h j).came d hd with same | ⟨x, hx, -, -, -, -, from_booked⟩
  · rw [hc] at same
    cases same
    rw [active] at held
    cases held
  · rw [hc] at hx
    cases hx
    rw [from_booked m held] at active
    cases active

/-- The candidate of an amendment reads of the state whether it overstays (R35). -/
theorem amendCandidate_state {c : Claim} {st : ClaimState} (same : st.overstaying = c.state.overstaying) (a : Amendment) :
    amendCandidate { c with state := st } a = amendCandidate c a := by
  unfold amendCandidate
  dsimp only
  rw [same]

theorem sameButCause_overlap (st : ClaimState) (m : Bool) :
    st.sameButCause (.held .breach m) = st.sameButCause (.held .overlap m) := by
  cases st <;> rfl

/-- What a re-check makes of the claim of an occupying subject. -/
theorem recheck_occupying {u : State} {j : Slot} {d e : Claim} (hd : u.claimAt j = some d) (occupying : d.state.occupying = true)
    (he : (recheck u).claimAt j = some e) : e = d ∨ ∃ m, d.state = .held .overlap m ∧
      (e = { d with state := .active } ∨ e = { d with state := .held .breach m }) := by
  have closes := recheck_closes u j
  rw [hd, he] at closes
  rcases closes with same | ⟨c, st, hc, hst, moved⟩
  · exact .inl (Option.some.inj same)
  · cases hc
    rw [Option.some.inj hst]
    rcases moved with ⟨queued, -⟩ | ⟨m, held, st_is⟩
    · rw [queued] at occupying
      cases occupying
    · right
      rcases st_is with rfl | rfl
      · exact ⟨m, held, .inl rfl⟩
      · exact ⟨m, held, .inr rfl⟩

/-- The walk of an amendment begun from a claim in another state that overstays alike. -/
theorem walkBegun_state {u t : State} {g : Handle} {d : Claim} {st : ClaimState} (hu : u.resolve g = some d)
    (ht : t.resolve g = some { d with state := st }) (same : st.overstaying = d.state.overstaying) :
    walkBegun (.amend g) t = walkBegun (.amend g) u := by
  unfold walkBegun State.candidateOf
  dsimp only
  have candidates : amendCandidate { d with state := st } = amendCandidate d := funext (amendCandidate_state same)
  rw [hu, ht, Option.bind_some, Option.bind_some, candidates]

theorem sameButCause_active {st : ClaimState} (same : st.sameButCause .active = true) : st = .active := by
  cases st with
  | active => rfl
  | _ => exact absurd same (by simp [ClaimState.sameButCause])

/-- The walk in flight past the pre-close part of an event and its re-check: begun again where its subject moved by the two together (R44, R45). -/
theorem WalkGoes.rechecked {s u : State} (h : WalkGoes s u) (f : Follows s u) (fresh : NoActiveHeld s u) :
    WalkGoes s (recheck u) := by
  intro hf
  have fits := (f.2.2 hf).1
  obtain ⟨idle, walks⟩ := h hf
  obtain ⟨idle', walks'⟩ := recheck_goes u fits
  have arbiter := recheck_arbiter u
  refine ⟨fun none => ?_, fun w hw hm => ⟨fun other => ?_, fun g c hs hr => ?_⟩⟩
  · obtain ⟨still, turn⟩ := idle none
    exact ⟨(idle' still).1, arbiter.trans turn⟩
  · obtain ⟨still, turn, waits⟩ := (walks w hw hm).1 other
    obtain ⟨still', turn', waits'⟩ := (walks' w still waits).1 other
    exact ⟨still', turn'.trans turn, waits'⟩
  obtain ⟨gone, moves⟩ := (walks w hw hm).2 g c hs hr
  obtain ⟨gen, claim⟩ := resolve_eq_some.mp hr
  cases hd : u.claimAt g.slot with
  | none =>
    obtain ⟨still, turn⟩ := gone hd
    refine ⟨fun _ => ⟨(idle' still).1, arbiter.trans turn⟩, fun e he => ?_⟩
    rw [recheck_none hd] at he
    cases he
  | some d =>
    have resolved : u.resolve g = some d := resolve_eq_some.mpr ⟨((f.1 g.slot).1).trans gen, hd⟩
    have waits : Entry.amend g ∈ u.admission.queue := by
      rw [← hs, f.mem hf hm, hs]
      simp only [stillNamed, resolved, Option.isSome_some]
    obtain ⟨d', begun, hd', occupying, -, formed, subject⟩ := fits.amend waits
    obtain rfl : d = d' := Option.some.inj (resolved.symm.trans hd')
    obtain ⟨turn, walk⟩ := moves d hd
    obtain ⟨w', hw', subject', same, anew⟩ : ∃ w', u.admission.walk = some w' ∧ w'.subject = .amend g ∧
        (c.state.sameButCause d.state = true → w' = w) ∧
        (c.state.sameButCause d.state = false → walkBegun (.amend g) u = some w') := by
      cases alike : c.state.sameButCause d.state with
      | true =>
        rw [alike, if_pos rfl] at walk
        exact ⟨w, walk, hs, fun _ => rfl, nofun⟩
      | false =>
        rw [alike, if_neg Bool.false_ne_true, hs, formed] at walk
        exact ⟨begun, walk, subject, nofun, fun _ => formed⟩
    obtain ⟨gone', moves'⟩ := (walks' w' hw' (subject' ▸ waits)).2 g d subject' resolved
    refine ⟨fun none => ?_, fun e he => ⟨arbiter.trans turn, ?_⟩⟩
    · have closes := recheck_closes u g.slot
      rw [hd, none] at closes
      rcases closes with same | ⟨_, _, -, nothing, -⟩
      · cases same
      · cases nothing
    · obtain ⟨-, after⟩ := moves' e he
      have resolved' : (recheck u).resolve g = some e :=
        resolve_eq_some.mpr ⟨(recheck_gen u g.slot).trans (((f.1 g.slot).1).trans gen), he⟩
      rw [after, hs, subject']
      rcases recheck_occupying hd occupying he with rfl | ⟨m, held, rfl | rfl⟩
      · rw [if_pos (sameButCause_refl _)]
        cases alike : c.state.sameButCause e.state with
        | true => rw [if_pos rfl, same alike]
        | false => rw [if_neg Bool.false_ne_true, ← anew alike, walkBegun_amend (resolved'.trans resolved.symm)]
      · have left : d.state.sameButCause .active = false := by
          rw [held]
          rfl
        have apart : c.state.sameButCause .active = false := by
          rw [Bool.eq_false_iff]
          exact fun alike => fresh g.slot c d m claim hd held (sameButCause_active alike)
        dsimp only
        rw [left, apart]
        rfl
      · have stays : d.state.sameButCause (.held .breach m) = true := by
          rw [held]
          exact decide_eq_true rfl
        have overstays : (ClaimState.held .breach m).overstaying = d.state.overstaying := by
          rw [held]
          cases m <;> rfl
        dsimp only
        rw [stays, if_pos rfl, sameButCause_overlap, ← held]
        cases alike : c.state.sameButCause d.state with
        | true => rw [if_pos rfl, same alike]
        | false => rw [if_neg Bool.false_ne_true, ← anew alike, walkBegun_state resolved resolved' overstays]

end Sys2Proof.Machine
end

section
/-! PROOF. The admission's laws before the close of an event and past it: the queue, the walk of its head, and the claim in CHECKING under it (R7, R27, R28, R34, R49). -/

namespace Sys2Proof.Machine

/-! ## Before the close -/

/-- The admission's laws as they stand before an event's close, where the head may still wait for its walk. -/
structure Waits (s : State) : Prop where
  queue : QueueLaw s
  head : ∀ w, s.admission.walk = some w → s.admission.queue.head? = some w.subject
  runs : ∀ w, s.admission.walk = some w → s.running = true
  checking : ∀ (i : Slot) (c : Claim), s.claimAt i = some c → c.state = .checking →
    ∃ w, s.admission.walk = some w ∧ w.subject = .book (s.handleAt i)
  subject : ∀ (w : Walk) (h : Handle), s.admission.walk = some w → w.subject = .book h →
    ∃ c, s.resolve h = some c ∧ c.state = .checking

/-- The admission's laws between events (R7, R27, R28, R34, R49). -/
def AdmissionLaw (s : State) : Prop := QueueLaw s ∧ WalkLaw s ∧ CheckingLaw s ∧ WalkSubjectLaw s

theorem AdmissionLaw.waits {s : State} (h : AdmissionLaw s) : Waits s := by
  obtain ⟨queue, ⟨head, runs, -⟩, checking, subject⟩ := h
  refine ⟨queue, fun w hw => ?_, fun w hw => runs (by rw [hw]; rfl), fun i c hc checks => ?_, fun w h hw book => ?_⟩
  · rw [hw] at head
    simpa using head
  · have walked := checking i (by rw [hc]; simpa using checks)
    obtain ⟨w, hw, book⟩ := Option.any_eq_true _ _ |>.mp walked
    exact ⟨w, hw, of_decide_eq_true book⟩
  · unfold WalkSubjectLaw at subject
    rw [hw, Option.all_some, book] at subject
    obtain ⟨c, hc, checks⟩ := Option.any_eq_true _ _ |>.mp subject
    exact ⟨c, hc, of_decide_eq_true checks⟩

/-- The laws hold between events once the head has its walk (R28, R49). -/
theorem Waits.law {s : State} (h : Waits s) (begun : s.running = true → s.admission.walk = none → s.admission.queue = []) :
    AdmissionLaw s := by
  refine ⟨h.queue, ⟨?_, fun walked => ?_, fun running => ⟨begun running, fun empty => ?_⟩⟩, fun i checks => ?_, ?_⟩
  · cases hw : s.admission.walk with
    | none => rfl
    | some w => exact decide_eq_true (h.head w hw)
  · obtain ⟨w, hw⟩ := Option.isSome_iff_exists.mp walked
    exact h.runs w hw
  · cases hw : s.admission.walk with
    | none => rfl
    | some w =>
      have head := h.head w hw
      rw [empty] at head
      cases head
  · obtain ⟨c, hc, checking⟩ := Option.any_eq_true _ _ |>.mp checks
    obtain ⟨w, hw, book⟩ := h.checking i c hc (of_decide_eq_true checking)
    rw [hw]
    exact decide_eq_true book
  · unfold WalkSubjectLaw
    cases hw : s.admission.walk with
    | none => rfl
    | some w =>
      rw [Option.all_some]
      cases book : w.subject with
      | book k =>
        obtain ⟨c, hc, checks⟩ := h.subject w k hw book
        dsimp only
        rw [hc]
        exact decide_eq_true checks
      | amend k => rfl
      | zone z => rfl

/-! ## Past an event that books nothing -/

theorem QueueLaw.onward {s u : State} (h : QueueLaw s) (f : Follows s u) : QueueLaw u := by
  obtain ⟨room, apart, fits⟩ := h
  obtain ⟨fits', kept⟩ := f.2.2 fits
  refine ⟨?_, ?_, fits'⟩
  · rw [kept]
    exact Nat.le_trans (List.length_filter_le _ _) room
  · rw [kept]
    exact apart.filter _

/-- A walk in flight past such an event was in flight before it, of the same entry, which is still the head. -/
theorem WalkGoes.origin {s u : State} (g : WalkGoes s u) (f : Follows s u) (h : Waits s) {w : Walk} (hw : u.admission.walk = some w) :
    u.admission.queue.head? = some w.subject ∧ ∃ w₀, s.admission.walk = some w₀ ∧ w₀.subject = w.subject := by
  have fits := h.queue.2.2
  obtain ⟨idle, walks⟩ := g fits
  cases hs : s.admission.walk with
  | none =>
    rw [(idle hs).1] at hw
    cases hw
  | some w₀ =>
    have head := h.head w₀ hs
    have mem := List.mem_of_mem_head? head
    have still (stays : w₀.subject ∈ u.admission.queue) : u.admission.queue.head? = some w₀.subject := by
      have named := (f.mem fits mem).mp stays
      obtain ⟨l, hl⟩ := List.head?_eq_some_iff.mp head
      rw [(f.2.2 fits).2, hl, List.filter_cons_of_pos named]
      rfl
    by_cases amends : ∃ k, w₀.subject = .amend k
    · obtain ⟨k, hk⟩ := amends
      obtain ⟨c, -, hr, -⟩ := SubjectsFit.amend fits (hk ▸ mem)
      obtain ⟨gone, moves⟩ := (walks w₀ hs mem).2 k c hk hr
      cases hd : u.claimAt k.slot with
      | none =>
        rw [(gone hd).1] at hw
        cases hw
      | some d =>
        have resolved : u.resolve k = some d :=
          resolve_eq_some.mpr ⟨((f.1 k.slot).1).trans (resolve_eq_some.mp hr).1, hd⟩
        have stays : w₀.subject ∈ u.admission.queue := by
          rw [f.mem fits mem, hk]
          simp only [stillNamed, resolved, Option.isSome_some]
        have same : w₀.subject = w.subject := by
          obtain ⟨-, walk⟩ := moves d hd
          rw [hw] at walk
          split at walk
          · cases walk
            rfl
          · obtain ⟨cand, -, rfl⟩ := Option.map_eq_some_iff.mp walk.symm
            rfl
        exact ⟨same ▸ still stays, w₀, rfl, same⟩
    · obtain ⟨walk, -, stays⟩ := (walks w₀ hs mem).1 fun k hk => amends ⟨k, hk⟩
      cases hw.symm.trans walk
      exact ⟨still stays, w, rfl, rfl⟩

/-- The claims in CHECKING are the same ones. -/
def SameChecking (s u : State) : Prop :=
  ∀ (j : Slot) (c : Claim), c.state = .checking → (u.claimAt j = some c ↔ s.claimAt j = some c)

theorem Evolves.sameChecking {s u : State} (h : Evolves s u) : SameChecking s u := by
  intro j c checks
  refine ⟨fun hc => ?_, fun hc => (h j).waits c hc (by rw [checks]; rfl)⟩
  rcases (h j).came c hc with same | ⟨x, -, -, -, occupying, -⟩
  · exact same
  · rw [checks] at occupying
    cases occupying

/-- The admission's laws before the close, past an event that books nothing and puts no claim into or out of CHECKING. -/
theorem Waits.onward {s u : State} (h : Waits s) (f : Follows s u) (g : WalkGoes s u) (same : SameChecking s u)
    (running : u.running = s.running) : Waits u where
  queue := h.queue.onward f
  head := fun w hw => (g.origin f h hw).1
  runs := fun w hw => by
    obtain ⟨-, w₀, hs, -⟩ := g.origin f h hw
    exact running.trans (h.runs w₀ hs)
  checking := fun i c hc checks => by
    obtain ⟨w, hw, book⟩ := h.checking i c ((same i c checks).mp hc) checks
    have mem := List.mem_of_mem_head? (h.head w hw)
    have handle : u.handleAt i = s.handleAt i := by
      unfold State.handleAt
      rw [(f.1 i).1]
    rw [handle]
    exact ⟨w, (((g h.queue.2.2).2 w hw mem).1 (by rw [book]; nofun)).1, book⟩
  subject := fun w k hw book => by
    obtain ⟨-, w₀, hs, origin⟩ := g.origin f h hw
    obtain ⟨c, hc, checks⟩ := h.subject w₀ k hs (origin.trans book)
    obtain ⟨gen, claim⟩ := resolve_eq_some.mp hc
    exact ⟨c, resolve_eq_some.mpr ⟨((f.1 k.slot).1).trans gen, (same k.slot c checks).mpr claim⟩, checks⟩

/-! ## Past the close -/

theorem SameChecking.refl (s : State) : SameChecking s s := fun _ _ _ => Iff.rfl

theorem SameChecking.trans {s t u : State} (h : SameChecking s t) (k : SameChecking t u) : SameChecking s u :=
  fun j c checks => (k j c checks).trans (h j c checks)

theorem SameChecking.of_slots {s u : State} (h : u.slots = s.slots) : SameChecking s u := fun j c _ => by rw [claimAt_congr h]

/-- A claim moved out of and into other states than CHECKING. -/
theorem moveClaim_sameChecking {i : Slot} {st : ClaimState} {s : State} {c : Claim} (hc : s.claimAt i = some c)
    (out : c.state ≠ .checking) (into : st ≠ .checking) : SameChecking s (moveClaim i st s) := by
  intro j d checks
  rw [moveClaim_claimAt]
  split
  · next same =>
    subst same
    rw [hc, Option.map_some]
    constructor
    · rintro ⟨⟩
      exact absurd checks into
    · rintro ⟨⟩
      exact absurd checks out
  · exact Iff.rfl

/-- A claim freed that is not in CHECKING. -/
theorem freeSlot_sameChecking {i : Slot} {s : State} (out : ∀ c, s.claimAt i = some c → c.state ≠ .checking) :
    SameChecking s (freeSlot i s) := by
  intro j d checks
  rw [freeSlot_claimAt]
  split
  · next same =>
    subst same
    exact ⟨fun absent => absurd absent nofun, fun hd => absurd checks (out d hd)⟩
  · exact Iff.rfl

theorem releaseOverlap_sameChecking (i : Slot) (s : State) : SameChecking s (releaseOverlap i s) := by
  unfold releaseOverlap
  split
  · exact .refl s
  · next c hc =>
    split
    · next ended held =>
      have out : c.state ≠ .checking := by rw [held]; nofun
      split
      · exact .refl s
      · split
        · exact moveClaim_sameChecking hc out nofun
        · exact (moveClaim_sameChecking hc out (st := .active) nofun).trans (.of_slots rfl)
    · exact .refl s

theorem recheck_sameChecking (s : State) : SameChecking s (recheck s) :=
  foldl_frame SameChecking .refl (fun _ _ _ => .trans) _ (fun t i => releaseOverlap_sameChecking i t) allSlots s

/-- The beginning of the head's walk keeps the laws, and makes them whole. -/
theorem Waits.begun {s : State} (h : Waits s) : AdmissionLaw (beginHead s) := by
  cases running : s.running with
  | false =>
    rw [beginHead_halted running]
    exact h.law fun runs => absurd (running.symm.trans runs) Bool.false_ne_true
  | true =>
    cases idle : s.admission.walk with
    | some w =>
      have walked : s.admission.walk.isSome = true := by rw [idle]; rfl
      rw [beginHead_walk walked]
      exact h.law fun _ none => nomatch idle.symm.trans none
    | none =>
      have fits := h.queue.2.2
      obtain ⟨unwalked, walked⟩ := beginHead_headWalked running idle fits
      have walk_of_head {e : Entry} (head : s.admission.queue.head? = some e) : ∃ w, (beginHead s).admission.walk = some w ∧ w.subject = e := by
        obtain ⟨cand, -, walk⟩ := walked e (by rw [beginHead_queue]; exact head)
        exact ⟨_, walk, rfl⟩
      have head_of_walk {w : Walk} (hw : (beginHead s).admission.walk = some w) : s.admission.queue.head? = some w.subject := by
        cases head : s.admission.queue.head? with
        | none =>
          rw [unwalked (by rw [beginHead_queue]; exact List.head?_eq_none_iff.mp head)] at hw
          cases hw
        | some e =>
          obtain ⟨w', hw', subject⟩ := walk_of_head head
          cases hw.symm.trans hw'
          rw [subject]
      have handle (i : Slot) : (beginHead s).handleAt i = s.handleAt i := by
        unfold State.handleAt
        rw [beginHead_gen]
      have waits : Waits (beginHead s) := {
        queue := h.queue.onward (beginHead_follows s)
        head := fun w hw => by
          rw [beginHead_queue]
          exact head_of_walk hw
        runs := fun _ _ => (beginHead_frame s).running.trans running
        checking := fun i c hc checks => by
          rw [handle]
          rw [beginHead_claimAt running idle] at hc
          split at hc
          · next head => exact walk_of_head head
          · obtain ⟨w, hw, -⟩ := h.checking i c hc checks
            cases idle.symm.trans hw
        subject := fun w k hw book => by
          have head := head_of_walk hw
          rw [book] at head
          obtain ⟨c, hc, -⟩ := Option.any_eq_true _ _ |>.mp (fits _ (List.mem_of_mem_head? head))
          obtain ⟨gen, claim⟩ := resolve_eq_some.mp hc
          refine ⟨{ c with state := .checking }, resolve_eq_some.mpr ⟨(beginHead_gen s k.slot).trans gen, ?_⟩, rfl⟩
          rw [beginHead_claimAt running idle, handleAt_eq hc, if_pos head, claim]
          rfl }
      refine waits.law fun _ none => ?_
      cases head : s.admission.queue.head? with
      | none =>
        rw [beginHead_queue]
        exact List.head?_eq_none_iff.mp head
      | some e =>
        obtain ⟨w, hw, -⟩ := walk_of_head head
        cases none.symm.trans hw

theorem Waits.rechecked {s : State} (h : Waits s) : Waits (recheck s) :=
  h.onward (recheck_follows s) (recheck_goes s) (recheck_sameChecking s) (recheck_frame s).running

/-- The close of an event makes the laws whole (R28). -/
theorem Waits.closed {s : State} (h : Waits s) (asked : Bool) (r : State) : AdmissionLaw (closeEvent asked r s) := by
  unfold closeEvent
  split
  · exact h.rechecked.begun
  · exact h.begun

end Sys2Proof.Machine
end

section
/-! PROOF. What a step keeps of the admission and the grants, with the walk it begins or carries on: the statement O58 makes of one step, and how the close of an event comes to it (R28, R44, R45, R107). -/

namespace Sys2Proof.Machine

/-! ## The grants past a close (R107) -/

/-- Where every live grant is one of before, or of its fit, the law of the grants is kept. -/
theorem grantLaw_of {s t : State} (law : GrantLaw s)
    (fit : ∀ (f : Flyer) (g : Grant), t.grantOf f = some g → ∃ g₀, s.grantOf f = some g₀ ∧ (grantFits s f g₀ = true → grantFits t f g = true)) :
    GrantLaw t := by
  intro f
  cases hg : t.grantOf f with
  | none => rfl
  | some g =>
    obtain ⟨g₀, hg₀, fits⟩ := fit f g hg
    have before := law f
    rw [hg₀] at before
    exact fits before

/-- What a live grant that fits lies in. -/
theorem grantFits_iff {s : State} {f : Flyer} {g : Grant} : grantFits s f g = true ↔
    ∃ c, s.resolve g.claim = some c ∧ c.flyer = f ∧ c.state.inForce = true ∧ c.box.contains g.segment = true ∧
      (c.state ≠ .overrun ∨ g.kind = .descent) := by
  unfold grantFits
  rw [Option.any_eq_true]
  simp only [Bool.and_eq_true, Bool.or_eq_true, decide_eq_true_eq, and_assoc]

theorem GrantLaw.fits {s : State} (law : GrantLaw s) {f : Flyer} {g : Grant} (hg : s.grantOf f = some g) : grantFits s f g = true := by
  have fits := law f
  rw [hg] at fits
  exact fits

/-- Claims that no live grant names may change. -/
theorem grantLaw_of_named {s t : State} (law : GrantLaw s)
    (named : ∀ (f : Flyer) (g : Grant), t.grantOf f = some g → s.grantOf f = some g ∧
      ∀ c, s.resolve g.claim = some c → c.flyer = f → c.state.inForce = true → t.resolve g.claim = some c) : GrantLaw t :=
  grantLaw_of law fun f g hg => by
    obtain ⟨hg₀, stays⟩ := named f g hg
    refine ⟨g, hg₀, fun fits => ?_⟩
    obtain ⟨c, hr, flyer, in_force, box, kind⟩ := grantFits_iff.mp fits
    exact grantFits_iff.mpr ⟨c, stays c hr flyer in_force, flyer, in_force, box, kind⟩

/-- A claim moved that is not in force is named by no grant. -/
theorem moveClaim_grantLaw {i : Slot} {st : ClaimState} {s : State} (law : GrantLaw s)
    (not_in_force : ∀ c, s.claimAt i = some c → c.state.inForce = false) : GrantLaw (moveClaim i st s) := by
  refine grantLaw_of_named law fun f g hg => ⟨(grantOf_congr (moveClaim_frame i st s).grants f).symm.trans hg, fun c hc flyer in_force => ?_⟩
  obtain ⟨gen, claim⟩ := resolve_eq_some.mp hc
  refine resolve_eq_some.mpr ⟨(moveClaim_gen i _ st s).trans gen, ?_⟩
  rw [moveClaim_claimAt, if_neg]
  · exact claim
  · rintro rfl
    rw [not_in_force c claim] at in_force
    cases in_force

theorem raiseFlag_grantLaw (f : Flag) {s : State} (law : GrantLaw s) : GrantLaw (raiseFlag f s) := law

theorem releaseOverlap_grantLaw (i : Slot) {s : State} (law : GrantLaw s) : GrantLaw (releaseOverlap i s) := by
  unfold releaseOverlap
  split
  · exact law
  · next c hc =>
    split
    · next ended held =>
      have not_in_force (d : Claim) (hd : s.claimAt i = some d) : d.state.inForce = false := by
        cases hc.symm.trans hd
        rw [held]
        rfl
      split
      · exact law
      · split
        · exact moveClaim_grantLaw law not_in_force
        · exact raiseFlag_grantLaw .windowOpened (moveClaim_grantLaw (st := .active) law not_in_force)
    · exact law

theorem recheck_grantLaw {s : State} (law : GrantLaw s) : GrantLaw (recheck s) :=
  foldl_frame (fun t u => GrantLaw t → GrantLaw u) (fun _ => id) (fun _ _ _ h k => k ∘ h) _
    (fun t i => releaseOverlap_grantLaw i (s := t)) allSlots s law

/-- The claim of the head's booking waits, and no grant names it (R7). -/
theorem beginHead_grantLaw {s : State} (fits : SubjectsFit s) (law : GrantLaw s) : GrantLaw (beginHead s) := by
  refine grantLaw_of_named law fun f g hg => ⟨(grantOf_congr (beginHead_frame s).grants f).symm.trans hg, fun c hc flyer in_force => ?_⟩
  obtain ⟨gen, claim⟩ := resolve_eq_some.mp hc
  refine resolve_eq_some.mpr ⟨(beginHead_gen s _).trans gen, ?_⟩
  rcases beginHead_cases s g.claim.slot with stays | ⟨h, x, head, slot, hx, -⟩
  · exact stays.trans claim
  · have waiting := fits _ (List.mem_of_mem_head? head)
    obtain ⟨y, hy, waits⟩ := Option.any_eq_true _ _ |>.mp waiting
    have same := (resolve_eq_some.mp hy).2
    rw [slot, claim] at same
    cases same
    simp only [Bool.or_eq_true, decide_eq_true_eq] at waits
    rcases waits with waits | waits <;> rw [waits] at in_force <;> cases in_force

theorem closeEvent_grantLaw {asked : Bool} {r s : State} (fits : SubjectsFit s) (law : GrantLaw s) : GrantLaw (closeEvent asked r s) := by
  unfold closeEvent
  split
  · exact beginHead_grantLaw ((recheck_follows s).2.2 fits).1 (recheck_grantLaw law)
  · exact beginHead_grantLaw fits law

/-! ## What a step keeps -/

/-- From s to t the laws of the admission and of the grants are whole again, a head that is new or newly runs has its walk at its beginning, and, but for the walk's own reads, a walk in flight goes on. -/
structure Admits (reads : Prop) (s t : State) : Prop where
  kept : AdmissionLaw t
  grants : GrantLaw t
  headWalked : Runs t → (t.admission.queue.head? ≠ s.admission.queue.head? ∨ ¬ Runs s) → HeadWalked t
  goesOn : Runs t → ¬ reads → WalkGoesOn s t

variable {reads : Prop}

/-- A state before the close of an event that began in s. -/
structure Closing (s u : State) : Prop where
  waits : Waits u
  origin : ∀ w, u.admission.walk = some w → s.admission.queue.head? = some w.subject ∧ s.running = true
  running : u.running = s.running
  grants : GrantLaw u

/-- The walk in flight is of the head as it was, or the head's walk begins. -/
theorem Waits.headWalked {s u : State} (h : Waits u) (origin : ∀ w, u.admission.walk = some w → s.admission.queue.head? = some w.subject ∧ s.running = true)
    (runs : u.running = true) (moved : u.admission.queue.head? ≠ s.admission.queue.head? ∨ ¬ Runs s) : HeadWalked (beginHead u) := by
  cases idle : u.admission.walk with
  | none => exact beginHead_headWalked runs idle h.queue.2.2
  | some w =>
    obtain ⟨head, running⟩ := origin w idle
    rcases moved with moved | halted
    · exact absurd ((h.head w idle).trans head.symm) moved
    · exact absurd ((runs_iff s).mpr running) halted

theorem Closing.rechecked {s u : State} (h : Closing s u) : Closing s (recheck u) where
  waits := h.waits.rechecked
  origin := fun w hw => by
    obtain ⟨-, w₀, hw₀, same⟩ := (recheck_goes u).origin (recheck_follows u) h.waits hw
    rw [← same]
    exact h.origin w₀ hw₀
  running := (recheck_frame u).running.trans h.running
  grants := recheck_grantLaw h.grants

/-- An event closed, where the walk in flight goes on. -/
theorem Closing.admits {s u : State} (h : Closing s u) {asked : Bool} {r : State} (goesOn : ¬ reads → WalkGoesOn s (closeEvent asked r u)) :
    Admits reads s (closeEvent asked r u) where
  kept := h.waits.closed asked r
  grants := closeEvent_grantLaw h.waits.queue.2.2 h.grants
  headWalked := fun runs moved => by
    have running := (closeEvent_frame asked r u).running.symm.trans ((runs_iff _).mp runs)
    rw [closeEvent_queue] at moved
    unfold closeEvent
    split
    · exact h.rechecked.waits.headWalked h.rechecked.origin ((recheck_frame u).running.trans running)
        (by rw [recheck_queue]; exact moved)
    · exact h.waits.headWalked h.origin running moved
  goesOn := fun _ => goesOn

/-- An event that books nothing, before its close. -/
theorem Closing.onward {s u : State} (law : AdmissionLaw s) (f : Follows s u) (g : WalkGoes s u) (same : SameChecking s u)
    (running : u.running = s.running) (grants : GrantLaw u) : Closing s u where
  waits := law.waits.onward f g same running
  origin := fun w hw => by
    obtain ⟨-, w₀, hs, subject⟩ := g.origin f law.waits hw
    rw [← subject]
    exact ⟨law.waits.head w₀ hs, law.waits.runs w₀ hs⟩
  running := running
  grants := grants

/-- An event that books nothing, closed. -/
theorem admits_onward {s u : State} (law : AdmissionLaw s) (f : Follows s u) (g : WalkGoes s u) (same : SameChecking s u)
    (fresh : NoActiveHeld s u) (running : u.running = s.running) (grants : GrantLaw u) (asked : Bool) (r : State) :
    Admits reads s (closeEvent asked r u) := by
  refine (Closing.onward law f g same running grants).admits fun _ => ?_
  obtain ⟨queue, walk, -⟩ := law
  unfold closeEvent
  split
  · exact (g.rechecked f fresh).goesOn (f.trans (recheck_follows u)) queue walk
  · exact g.goesOn f queue walk

/-- An event whose claims evolve, closed. -/
theorem Evolves.admits {s u : State} (h : Evolves s u) (law : AdmissionLaw s) (f : Follows s u) (g : WalkGoes s u)
    (running : u.running = s.running) (grants : GrantLaw u) (asked : Bool) (r : State) : Admits reads s (closeEvent asked r u) :=
  admits_onward law f g h.sameChecking h.noActiveHeld running grants asked r

/-! ## What does not touch the admission -/

/-- From s to t the tables the admission reads are the same, and the grants still fit. -/
structure Untouched (s t : State) : Prop where
  slots : t.slots = s.slots
  zones : t.zones = s.zones
  admission : t.admission = s.admission
  running : t.running = s.running
  grants : GrantLaw s → GrantLaw t

theorem Untouched.trans {s t u : State} (h : Untouched s t) (k : Untouched t u) : Untouched s u :=
  ⟨k.slots.trans h.slots, k.zones.trans h.zones, k.admission.trans h.admission, k.running.trans h.running, k.grants ∘ h.grants⟩

theorem subjectFits_congr {s t : State} (slots : t.slots = s.slots) (zones : t.zones = s.zones) (e : Entry) :
    subjectFits t e = subjectFits s e := by
  cases e with
  | book h | amend h => simp only [subjectFits, resolve_congr slots]
  | zone z => simp only [subjectFits, zones]

theorem candidateOf_congr {s t : State} (slots : t.slots = s.slots) (zones : t.zones = s.zones) (e : Entry) :
    t.candidateOf e = s.candidateOf e := by
  cases e with
  | book h | amend h => simp only [State.candidateOf, resolve_congr slots]
  | zone z => simp only [State.candidateOf, zones]

theorem handleAt_congr {s t : State} (slots : t.slots = s.slots) (i : Slot) : t.handleAt i = s.handleAt i := by
  unfold State.handleAt
  rw [gen_congr slots]

section
variable {s t : State} (h : Untouched s t)
include h

theorem Untouched.law (law : AdmissionLaw s) : AdmissionLaw t := by
  obtain ⟨⟨room, apart, fits⟩, ⟨head, runs, begun⟩, checking, subject⟩ := law
  refine ⟨⟨?_, ?_, ?_⟩, ⟨?_, ?_, ?_⟩, ?_, ?_⟩
  · rwa [h.admission]
  · rwa [h.admission]
  · rw [h.admission]
    intro e he
    rw [subjectFits_congr h.slots h.zones]
    exact fits e he
  · rwa [h.admission]
  · rwa [h.admission, h.running]
  · rwa [h.admission, h.running]
  · intro i checks
    rw [claimAt_congr h.slots] at checks
    rw [h.admission, handleAt_congr h.slots]
    exact checking i checks
  · have resolve := resolve_congr h.slots
    unfold WalkSubjectLaw at subject ⊢
    rw [h.admission]
    simp only [resolve]
    exact subject

theorem Untouched.runs : Runs t ↔ Runs s := by rw [runs_iff, runs_iff, h.running]

theorem Untouched.headWalked (k : HeadWalked s) : HeadWalked t := by
  obtain ⟨none, some⟩ := k
  refine ⟨by rwa [h.admission], fun e head => ?_⟩
  rw [h.admission] at head ⊢
  rw [candidateOf_congr h.slots h.zones]
  exact some e head

theorem Untouched.goesOn {r : State} (k : WalkGoesOn r s) : WalkGoesOn r t := by
  intro w hw head
  rw [h.admission] at head ⊢
  obtain ⟨stays, moves⟩ := k w hw head
  have same : SubjectMoved r t w.subject ↔ SubjectMoved r s w.subject := by
    cases w.subject with
    | amend g => simp only [SubjectMoved, resolve_congr h.slots]
    | book | zone => rfl
  rw [same, candidateOf_congr h.slots h.zones]
  exact ⟨stays, moves⟩

theorem Admits.after {r : State} (k : Admits reads r s) : Admits reads r t where
  kept := h.law k.kept
  grants := h.grants k.grants
  headWalked := fun runs moved => by
    rw [h.admission] at moved
    exact h.headWalked (k.headWalked (h.runs.mp runs) moved)
  goesOn := fun runs asked => h.goesOn (k.goesOn (h.runs.mp runs) asked)

theorem Admits.before {u : State} (k : Admits reads t u) : Admits reads s u where
  kept := k.kept
  grants := k.grants
  headWalked := fun runs moved => k.headWalked runs (by rw [h.admission, h.runs]; exact moved)
  goesOn := fun runs asked w hw head => by
    have same : SubjectMoved t u w.subject ↔ SubjectMoved s u w.subject := by
      cases w.subject with
      | amend g => simp only [SubjectMoved, resolve_congr h.slots]
      | book | zone => rfl
    rw [← same]
    exact k.goesOn runs asked w (by rw [h.admission]; exact hw) head

end

/-- A walk left as it is goes on, where no claim it may be of changes its state. -/
theorem walkGoesOn_of_same {s t : State} (walk : ∀ w, s.admission.walk = some w → t.admission.queue.head? = some w.subject → t.admission.walk = some w)
    (states : ∀ (w : Walk) (h : Handle) (c d : Claim), s.admission.walk = some w → t.admission.queue.head? = some w.subject → w.subject = .amend h → s.resolve h = some c →
      t.resolve h = some d → d.state = c.state) :
    WalkGoesOn s t := by
  intro w hw head
  refine ⟨fun _ => walk w hw head, fun moved => ?_⟩
  cases hs : w.subject with
  | amend h =>
    rw [hs] at moved
    obtain ⟨c, d, hc, hd, changed, -⟩ := moved
    exact absurd (states w h c d hw head hs hc hd).symm changed
  | book h | zone z =>
    rw [hs] at moved
    exact moved.elim

theorem Admits.refl {s : State} (law : AdmissionLaw s) (grants : GrantLaw s) : Admits reads s s where
  kept := law
  grants := grants
  headWalked := fun runs moved => moved.elim (absurd rfl) (absurd runs)
  goesOn := fun _ _ => walkGoesOn_of_same (fun _ hw _ => hw) fun _ _ c d _ _ _ hc hd => by
    cases hc.symm.trans hd
    rfl

theorem Untouched.admits {s t : State} (h : Untouched s t) (law : AdmissionLaw s) (grants : GrantLaw s) : Admits reads s t :=
  Admits.after h (.refl law grants)

end Sys2Proof.Machine
end

section
/-! PROOF. Every live grant in a claim that holds it, under the operations on claims, grants and holds (R11, R15, R16, R20, R103, R107, R119). -/

namespace Sys2Proof.Machine

/-! ## One claim -/

/-- A claim freed that no grant of its flyer names while it is in force. -/
theorem freeSlot_grantLaw {i : Slot} {s : State} (law : GrantLaw s)
    (unnamed : ∀ (c : Claim) (g : Grant), s.claimAt i = some c → c.state.inForce = true → s.grantOf c.flyer = some g → g.claim ≠ s.handleAt i) :
    GrantLaw (freeSlot i s) := by
  refine grantLaw_of_named law fun f g hg => ?_
  have live : s.grantOf f = some g := (grantOf_congr (freeSlot_frame i s).grants f).symm.trans hg
  refine ⟨live, fun c hc flyer in_force => ?_⟩
  obtain ⟨gen, claim⟩ := resolve_eq_some.mp hc
  refine resolve_eq_some.mpr ⟨(freeSlot_gen i _ s).trans gen, ?_⟩
  rw [freeSlot_claimAt, if_neg]
  · exact claim
  · rintro rfl
    rw [← flyer] at live
    exact unnamed c g claim in_force live (handleAt_eq hc).symm

theorem expireSlot_grantLaw {i : Slot} {s : State} (law : GrantLaw s)
    (unnamed : ∀ (c : Claim) (g : Grant), s.claimAt i = some c → c.state.inForce = true → s.grantOf c.flyer = some g → g.claim ≠ s.handleAt i) :
    GrantLaw (expireSlot i s) := raiseFlag_grantLaw .expired (freeSlot_grantLaw law unnamed)

/-- Every live grant but one flyer's lies in a claim as R107 requires. -/
def GrantLawBut (f : Flyer) (s : State) : Prop := ∀ k : Flyer, k ≠ f → (s.grantOf k).all (grantFits s k) = true

theorem GrantLaw.but {s : State} (law : GrantLaw s) (f : Flyer) : GrantLawBut f s := fun k _ => law k

theorem GrantLawBut.law {f : Flyer} {s : State} (law : GrantLawBut f s) (none : s.grantOf f = none) : GrantLaw s := by
  intro k
  by_cases same : k = f
  · rw [same, none]
    rfl
  · exact law k same

/-- Claims of one flyer may change where its own grant is left out. -/
theorem GrantLawBut.of_others {f : Flyer} {s t : State} (law : GrantLawBut f s) (live : ∀ k, k ≠ f → t.grantOf k = s.grantOf k)
    (others : ∀ (h : Handle) (c : Claim), s.resolve h = some c → c.flyer ≠ f → c.state.inForce = true → t.resolve h = some c) : GrantLawBut f t := by
  intro k other
  rw [live k other]
  cases hg : s.grantOf k with
  | none => rfl
  | some g =>
    have fits := law k other
    rw [hg] at fits
    obtain ⟨c, hr, flyer, in_force, box, kind⟩ := grantFits_iff.mp fits
    exact grantFits_iff.mpr ⟨c, others _ c hr (flyer ▸ other) in_force, flyer, in_force, box, kind⟩

/-- A claim of the flyer moved. -/
theorem GrantLawBut.moveClaim {f : Flyer} {i : Slot} {st : ClaimState} {s : State} (law : GrantLawBut f s)
    (own : ∀ c, s.claimAt i = some c → c.flyer = f) : GrantLawBut f (moveClaim i st s) := by
  refine law.of_others (fun k _ => grantOf_congr (moveClaim_frame i st s).grants k) fun h c hc other _ => ?_
  obtain ⟨gen, claim⟩ := resolve_eq_some.mp hc
  refine resolve_eq_some.mpr ⟨(moveClaim_gen i _ st s).trans gen, ?_⟩
  rw [moveClaim_claimAt, if_neg]
  · exact claim
  · rintro rfl
    exact other (own c claim)

/-! ## Grants removed (R15, R103) -/

/-- The grounded event leaves the claim a grant names (R15). -/
theorem groundedEvent_grantLaw (f : Flyer) {s : State} (law : GrantLaw s) : GrantLaw (groundedEvent f s) := by
  refine grantLaw_of_named law fun k g hg => ?_
  have live : s.grantOf k = some g := (grantOf_congr (groundedEvent_grants f s) k).symm.trans hg
  refine ⟨live, fun c hc flyer _ => ?_⟩
  obtain ⟨gen, claim⟩ := resolve_eq_some.mp hc
  refine resolve_eq_some.mpr ⟨(groundedEvent_gen f s _).trans gen, ?_⟩
  rw [groundedEvent_claimAt, claim, Option.filter_some, if_pos]
  cases same : decide (c.flyer = f) with
  | false => rfl
  | true =>
    have named : s.grantNames f (s.handleAt g.claim.slot) = true :=
      (grantNames_iff s f _).mpr ⟨g, by rw [← of_decide_eq_true same, flyer]; exact live, (handleAt_eq hc).symm⟩
    rw [named]
    simp

theorem removeGrant_grantLaw_but (f : Flyer) (r : Reason) {s : State} (law : GrantLawBut f s) : GrantLaw (removeGrant f r s) := by
  unfold removeGrant
  split
  · next none => exact law.law none
  · next g _ =>
    have live (k : Flyer) : (s.setGrant f { s.grants[f] with live := none }).grantOf k = if f = k then none else s.grantOf k := by
      unfold State.grantOf
      rw [setGrant_get]
      split <;> rfl
    have ungranted : GrantLaw (s.setGrant f { s.grants[f] with live := none }) := by
      refine GrantLawBut.law (f := f) (law.of_others (fun k other => ?_) fun _ _ hc _ _ => hc) ?_
      · rw [live, if_neg fun same => other same.symm]
      · rw [live, if_pos rfl]
    have quiet : GrantLaw (queueFrame f (.revoke g.seq r) (drivePermits f .low (s.setGrant f { s.grants[f] with live := none }))) := ungranted
    dsimp only
    split
    · exact groundedEvent_grantLaw f quiet
    · exact quiet

theorem removeGrant_grantLaw (f : Flyer) (r : Reason) {s : State} (law : GrantLaw s) : GrantLaw (removeGrant f r s) :=
  removeGrant_grantLaw_but f r (law.but f)

theorem removeAllGrants_grantLaw {s : State} (law : GrantLaw s) : GrantLaw (removeAllGrants s) :=
  foldl_frame (fun t u => GrantLaw t → GrantLaw u) (fun _ => id) (fun _ _ _ h k => k ∘ h) _
    (fun t f => removeGrant_grantLaw f .hold (s := t)) allFlyers s law

theorem freezeClock_grantLaw {s : State} (law : GrantLaw s) : GrantLaw (freezeClock s) := by
  rw [freeze_clock]
  exact law

theorem pushHold_grantLaw (src : HoldSource) (flag : Bool) {s : State} (law : GrantLaw s) : GrantLaw (pushHold src flag s) := by
  unfold pushHold
  split
  · exact law
  · have raised (u : State) (hu : GrantLaw u) : GrantLaw (if flag then raiseFlag .holdsChanged u else u) := by
      split <;> exact hu
    have appended := raised { s with holds := s.holds ++ [{ source := src, tick := s.now }] } law
    dsimp only
    split
    · exact freezeClock_grantLaw (removeAllGrants_grantLaw appended)
    · exact appended

/-- A claim in force put in HELD COMMAND takes the grant that names it along (R20). -/
theorem commandHeld_grantLaw {s : State} {h : Handle} {c : Claim} (hr : s.resolve h = some c) (law : GrantLaw s) :
    GrantLaw (commandHeld h c s) := by
  have own (d : Claim) (hd : s.claimAt h.slot = some d) : d.flyer = c.flyer := by
    cases (resolve_eq_some.mp hr).2.symm.trans hd
    rfl
  unfold commandHeld
  dsimp only
  split
  · exact removeGrant_grantLaw_but _ _ ((law.but c.flyer).moveClaim own)
  · next unnamed =>
    refine grantLaw_of_named law fun k g hg => ?_
    have live : s.grantOf k = some g := (grantOf_congr (moveClaim_frame _ _ s).grants k).symm.trans hg
    refine ⟨live, fun d hd flyer _ => ?_⟩
    obtain ⟨gen, claim⟩ := resolve_eq_some.mp hd
    refine resolve_eq_some.mpr ⟨(moveClaim_gen _ _ _ s).trans gen, ?_⟩
    rw [moveClaim_claimAt, if_neg]
    · exact claim
    · intro same
      have handle : g.claim = h := by rw [← handleAt_eq hd, ← same, handleAt_eq hr]
      rw [← same] at claim
      exact unnamed ((grantNames_iff s _ _).mpr ⟨g, by rw [← own d claim, flyer]; exact live, handle⟩)

/-- The flyer's claims held for breach once its grant is gone (R16, R112). -/
theorem breachClaims_grantLaw (f : Flyer) {s : State} (law : GrantLaw s) (none : s.grantOf f = none) : GrantLaw (breachClaims f s) := by
  have step (t : State) (i : Slot) (ht : GrantLawBut f t) : GrantLawBut f (breachClaim f i t) := by
    unfold breachClaim
    split
    · exact ht
    · next c hc =>
      split
      · next flyer =>
        have own (d : Claim) (hd : t.claimAt i = some d) : d.flyer = f := by
          cases hc.symm.trans hd
          exact flyer
        split
        · exact ht.moveClaim own
        · exact ht.moveClaim own
        · exact ht
      · exact ht
  have held : GrantLawBut f (breachClaims f s) :=
    foldl_frame (fun t u => GrantLawBut f t → GrantLawBut f u) (fun _ => id) (fun _ _ _ h k => k ∘ h) _ step allSlots s (law.but f)
  exact held.law ((grantOf_congr (breachClaims_frame f s).grants f).trans none)

theorem breachResponse_grantLaw (f : Flyer) (kind : BreachKind) (cell : Cell) {s : State} (law : GrantLaw s) :
    GrantLaw (breachResponse f kind cell s) := by
  have none : (removeGrant f .breach s).grantOf f = none := by rw [removeGrant_grantOf, if_pos rfl]
  have held := breachClaims_grantLaw f (removeGrant_grantLaw f .breach law) none
  have written (u : State) (hu : GrantLaw u) : GrantLaw (recordAlert (breachAlert f kind) (writeBreach f kind cell u)) := hu
  have recorded := written _ held
  unfold breachResponse
  dsimp only
  split
  · exact pushHold_grantLaw _ _ recorded
  · exact recorded

theorem reportOutcome_grantLaw (f : Flyer) (cell : Cell) (grounded : Bool) (v : Option BreachKind) {s : State} (law : GrantLaw s) :
    GrantLaw (reportOutcome f cell grounded v s) := by
  unfold reportOutcome
  split
  · exact breachResponse_grantLaw _ _ _ law
  · split
    · exact groundedEvent_grantLaw f law
    · exact law

/-! ## Windows ending and opening (R11, R12, R14, R105) -/

theorem descendGrant_grantOf (f : Flyer) (h : Handle) (s : State) (k : Flyer) : (descendGrant f h s).grantOf k =
    (s.grantOf k).map fun g => if k = f ∧ g.claim = h then { g with kind := .descent } else g := by
  unfold descendGrant
  cases hg : s.grantOf f with
  | none =>
    dsimp only
    cases hk : s.grantOf k with
    | none => rfl
    | some g =>
      have other : ¬ (k = f ∧ g.claim = h) := by
        rintro ⟨rfl, -⟩
        cases hg.symm.trans hk
      rw [Option.map_some, if_neg other]
  | some g =>
    dsimp only
    split
    · next named =>
      have got : (s.setGrant f { s.grants[f] with live := some { g with kind := .descent } }).grantOf k =
          if f = k then some { g with kind := .descent } else s.grantOf k := by
        unfold State.grantOf
        rw [setGrant_get]
        split <;> rfl
      rw [got]
      split
      · next same =>
        subst same
        rw [hg, Option.map_some, if_pos ⟨rfl, named⟩]
      · next other =>
        cases hk : s.grantOf k with
        | none => rfl
        | some x => rw [Option.map_some, if_neg fun both => other both.1.symm]
    · next unnamed =>
      cases hk : s.grantOf k with
      | none => rfl
      | some x =>
        have other : ¬ (k = f ∧ x.claim = h) := by
          rintro ⟨rfl, named⟩
          cases hg.symm.trans hk
          exact unnamed named
        rw [Option.map_some, if_neg other]

/-- An ACTIVE claim gone OVERRUN turns the grant that names it to DESCENT (R11, R105). -/
theorem overran_grantLaw {i : Slot} {s : State} {c : Claim} (hc : s.claimAt i = some c) (law : GrantLaw s) :
    GrantLaw (descendGrant c.flyer (s.handleAt i) (raiseFlag .overrun (moveClaim i .overrun s))) := by
  obtain ⟨slots, -⟩ := descendGrant_goes c.flyer (s.handleAt i) (raiseFlag .overrun (moveClaim i .overrun s))
  have claims (j : Slot) : (descendGrant c.flyer (s.handleAt i) (raiseFlag .overrun (moveClaim i .overrun s))).claimAt j =
      if i = j then some { c with state := .overrun } else s.claimAt j := by
    rw [claimAt_congr slots]
    refine (moveClaim_claimAt i j .overrun s).trans ?_
    rw [hc]
    rfl
  have gens (j : Slot) : (descendGrant c.flyer (s.handleAt i) (raiseFlag .overrun (moveClaim i .overrun s))).slots[j].gen = s.slots[j].gen :=
    (gen_congr slots j).trans (moveClaim_gen i j .overrun s)
  refine grantLaw_of law fun k g hg => ?_
  rw [descendGrant_grantOf] at hg
  obtain ⟨g₀, hg₀, descends⟩ := Option.map_eq_some_iff.mp hg
  have live : s.grantOf k = some g₀ := (grantOf_congr (moveClaim_frame i .overrun s).grants k).symm.trans hg₀
  refine ⟨g₀, live, fun fits => ?_⟩
  obtain ⟨d, hd, flyer, in_force, box, kind⟩ := grantFits_iff.mp fits
  obtain ⟨gen, claim⟩ := resolve_eq_some.mp hd
  by_cases own : i = g₀.claim.slot
  · rw [own] at hc
    cases hc.symm.trans claim
    have named : k = c.flyer ∧ g₀.claim = s.handleAt i := ⟨flyer.symm, by rw [own, handleAt_eq hd]⟩
    rw [if_pos named] at descends
    subst descends
    refine grantFits_iff.mpr ⟨{ c with state := .overrun }, resolve_eq_some.mpr ⟨(gens _).trans gen, ?_⟩, flyer, rfl, box, .inr rfl⟩
    rw [claims, if_pos own]
  · have unnamed : ¬ (k = c.flyer ∧ g₀.claim = s.handleAt i) := fun both => own (congrArg Handle.slot both.2).symm
    rw [if_neg unnamed] at descends
    subst descends
    refine grantFits_iff.mpr ⟨d, resolve_eq_some.mpr ⟨(gens _).trans gen, ?_⟩, flyer, in_force, box, kind⟩
    rw [claims, if_neg own]
    exact claim

theorem endClaim_grantLaw (i : Slot) {s : State} (law : GrantLaw s) : GrantLaw (endClaim i s) := by
  unfold endClaim
  split
  · exact law
  · next c hc =>
    have idle (st : ClaimState) (state : c.state = st) (out : st.inForce = false) (d : Claim) (hd : s.claimAt i = some d) :
        d.state.inForce = false := by
      cases hc.symm.trans hd
      rw [state]
      exact out
    split
    · split
      · next =>
        split
        · next settled =>
          refine expireSlot_grantLaw law fun d g hd _ live => ?_
          cases hc.symm.trans hd
          unfold State.settled at settled
          rw [live] at settled
          simp at settled
        · exact overran_grantLaw hc law
      · next held =>
        exact expireSlot_grantLaw law fun d g hd in_force => absurd ((idle _ held rfl d hd).symm.trans in_force) Bool.false_ne_true
      · next held => exact moveClaim_grantLaw law (idle _ held rfl)
      · exact law
    · exact law

theorem endings_grantLaw {s : State} (law : GrantLaw s) : GrantLaw (endings s) :=
  foldl_frame (fun t u => GrantLaw t → GrantLaw u) (fun _ => id) (fun _ _ _ h k => k ∘ h) _
    (fun t i => endClaim_grantLaw i (s := t)) allSlots s law

theorem openClaim_grantLaw {i : Slot} {s : State} (law : GrantLaw s)
    (not_in_force : ∀ c, s.claimAt i = some c → c.state.inForce = false) : GrantLaw (openClaim i s) := by
  unfold openClaim
  split
  · exact law
  · split
    · exact moveClaim_grantLaw law not_in_force
    · split
      · exact raiseFlag_grantLaw .overlapHeld (moveClaim_grantLaw (st := .held .overlap false) law not_in_force)
      · exact raiseFlag_grantLaw .windowOpened (moveClaim_grantLaw (st := .active) law not_in_force)

theorem openBooked_grantLaw (i : Slot) {s : State} (law : GrantLaw s) : GrantLaw (openBooked i s) := by
  unfold openBooked
  split
  · exact law
  · next c hc =>
    split
    · next starts =>
      simp only [Bool.and_eq_true, decide_eq_true_eq] at starts
      refine openClaim_grantLaw law fun d hd => ?_
      cases hc.symm.trans hd
      rw [starts.1]
      rfl
    · exact law

theorem bookedPart_grantLaw (jump : Bool) (i : Slot) {s : State} (law : GrantLaw s) : GrantLaw (bookedPart jump i s) := by
  cases jump with
  | false => exact openBooked_grantLaw i law
  | true =>
    show GrantLaw (jumpBooked i s)
    unfold jumpBooked
    split
    · exact law
    · next c hc =>
      split
      · next past =>
        simp only [Bool.and_eq_true, decide_eq_true_eq] at past
        refine expireSlot_grantLaw law fun d g hd in_force => ?_
        cases hc.symm.trans hd
        rw [past.1] at in_force
        cases in_force
      · exact openBooked_grantLaw i law

theorem windowPart_grantLaw (jump : Bool) {s : State} (law : GrantLaw s) :
    GrantLaw (allSlots.foldl (fun t i => bookedPart jump i t) (endings s)) :=
  foldl_frame (fun t u => GrantLaw t → GrantLaw u) (fun _ => id) (fun _ _ _ h k => k ∘ h) _
    (fun t i => bookedPart_grantLaw jump i (s := t)) allSlots _ (endings_grantLaw law)

end Sys2Proof.Machine
end

section
/-! PROOF. Entries that join the queue and entries that leave it by a command: BOOK, FIRE, AMEND, ZONE_SET, CANCEL and ZONE_CLEAR, on the admission's laws (R6, R27, R28, R32, R33, R46, R54, R57). -/

namespace Sys2Proof.Machine

variable {reads : Prop}

/-! ## An entry appended -/

/-- From s to u an entry joins the tail, whose subject no other entry has; the claims in CHECKING and the walk stay. -/
structure Appends (e : Entry) (s u : State) : Prop where
  queue : u.admission.queue = s.admission.queue ++ [e]
  walk : u.admission.walk = s.admission.walk
  room : s.admission.queue.length < Config.queueRoom
  apart : ∀ x ∈ s.admission.queue, sameSubject x e = false
  fits : ∀ x ∈ s.admission.queue, subjectFits u x = true
  fit : subjectFits u e = true
  gen : ∀ (j : Slot) (c : Claim), s.claimAt j = some c → u.slots[j].gen = s.slots[j].gen
  checking : SameChecking s u
  states : ∀ (h : Handle) (c d : Claim), s.resolve h = some c → u.resolve h = some d → d.state = c.state
  overstays : ∀ j : Slot, s.overstayingAt j = true → u.overstayingAt j = true
  running : u.running = s.running
  grants : GrantLaw s → GrantLaw u

section
variable {e : Entry} {s u : State} (h : Appends e s u)
include h

theorem Appends.handleAt {j : Slot} {c : Claim} (hc : s.claimAt j = some c) : u.handleAt j = s.handleAt j := by
  unfold State.handleAt
  rw [h.gen j c hc]

theorem Appends.quiet : ceasedOverstay s u = false := by
  rw [ceasedOverstay_eq_false]
  intro j overstays
  obtain ⟨c, hc, -⟩ := Option.any_eq_true _ _ |>.mp overstays
  exact ⟨h.gen j c hc, h.overstays j overstays⟩

theorem Appends.closing (law : AdmissionLaw s) (grants : GrantLaw s) : Closing s u := by
  have waits := law.waits
  obtain ⟨-, apart, -⟩ := waits.queue
  refine ⟨⟨⟨?_, ?_, ?_⟩, fun w hw => ?_, fun w hw => ?_, fun j c hc checks => ?_, fun w k hw book => ?_⟩, fun w hw => ?_, h.running, h.grants grants⟩
  · rw [h.queue, List.length_append]
    exact h.room
  · rw [h.queue, List.pairwise_append]
    refine ⟨apart, List.pairwise_singleton _ _, fun x hx y hy => ?_⟩
    rw [List.mem_singleton.mp hy]
    exact h.apart x hx
  · intro x hx
    rw [h.queue] at hx
    rcases List.mem_append.mp hx with old | new
    · exact h.fits x old
    · rw [List.mem_singleton.mp new]
      exact h.fit
  · rw [h.walk] at hw
    obtain ⟨l, hl⟩ := List.head?_eq_some_iff.mp (waits.head w hw)
    rw [h.queue, hl]
    rfl
  · rw [h.walk] at hw
    exact h.running.trans (waits.runs w hw)
  · have before := (h.checking j c checks).mp hc
    rw [h.walk, h.handleAt before]
    exact waits.checking j c before checks
  · rw [h.walk] at hw
    obtain ⟨c, hc, checks⟩ := waits.subject w k hw book
    obtain ⟨gen, claim⟩ := resolve_eq_some.mp hc
    exact ⟨c, resolve_eq_some.mpr ⟨(h.gen k.slot c claim).trans gen, (h.checking k.slot c checks).mpr claim⟩, checks⟩
  · rw [h.walk] at hw
    exact ⟨waits.head w hw, waits.runs w hw⟩

/-- The walk in flight goes on past an entry that joins. -/
theorem Appends.admits (law : AdmissionLaw s) (grants : GrantLaw s) : Admits reads s (closeEvent false s u) := by
  refine (h.closing law grants).admits fun _ => ?_
  rw [closeEvent_quiet h.quiet]
  have still (w : Walk) (hw : s.admission.walk = some w) : beginHead u = u := beginHead_walk (by rw [h.walk, hw]; rfl)
  refine walkGoesOn_of_same (fun w hw _ => ?_) fun w k c d hw _ _ hc hd => ?_
  · rw [still w hw, h.walk, hw]
  · rw [still w hw] at hd
    exact h.states k c d hc hd

end

/-- An entry of another claim stays as it fits. -/
theorem subjectFits_of_resolve {s u : State} {e : Entry} (fits : subjectFits s e = true)
    (resolves : ∀ (h : Handle) (c : Claim), e = .book h ∨ e = .amend h → s.resolve h = some c → u.resolve h = some c)
    (zones : ∀ z, e = .zone z → u.zones[z] = s.zones[z]) : subjectFits u e = true := by
  cases e with
  | book h | amend h =>
    obtain ⟨c, hc, fit⟩ := Option.any_eq_true _ _ |>.mp fits
    have stays := resolves h c (by simp) hc
    simp only [subjectFits, stays, Option.any_some]
    exact fit
  | zone z =>
    simp only [subjectFits, zones z rfl]
    exact fits

/-! ## BOOK and FIRE (R6) -/

/-- The state an accepted booking makes before the close. -/
def bookingMade (i : Slot) (b : Booking) (s : State) : State :=
  appendEntry (.book ((takeSlot i b s).handleAt i)) (takeSlot i b s)

theorem bookingMade_slot (i : Slot) (b : Booking) (s : State) (j : Slot) :
    (bookingMade i b s).slots[j] = if i = j then { gen := s.slots[i].gen + 1, claim := some b.claim } else s.slots[j] := setSlot_get s i j _

theorem freeSlotOf_free {s : State} {i : Slot} (h : s.freeSlotOf = some i) : s.claimAt i = none := by
  have free := List.find?_some (p := fun i => (s.claimAt i).isNone) h
  exact Option.isNone_iff_eq_none.mp free

theorem queueFull_room {s : State} (h : s.queueFull = false) : s.admission.queue.length < Config.queueRoom := by
  unfold State.queueFull at h
  exact Nat.lt_of_not_le (of_decide_eq_false h)

theorem bookingMade_appends {i : Slot} {b : Booking} {s : State} (law : QueueLaw s) (room : s.queueFull = false)
    (free : s.claimAt i = none) : Appends (.book { slot := i, gen := s.slots[i].gen + 1 }) s (bookingMade i b s) := by
  have slot := bookingMade_slot i b s
  have claims (j : Slot) : (bookingMade i b s).claimAt j = if i = j then some b.claim else s.claimAt j := by
    unfold State.claimAt
    rw [slot]
    split <;> rfl
  have taken {j : Slot} {c : Claim} (hc : s.claimAt j = some c) : i ≠ j := by
    rintro rfl
    cases free.symm.trans hc
  have gen (j : Slot) (c : Claim) (hc : s.claimAt j = some c) : (bookingMade i b s).slots[j].gen = s.slots[j].gen := by
    rw [slot, if_neg (taken hc)]
  have resolves (h : Handle) (c : Claim) (hc : s.resolve h = some c) : (bookingMade i b s).resolve h = some c := by
    obtain ⟨same, claim⟩ := resolve_eq_some.mp hc
    refine resolve_eq_some.mpr ⟨(gen h.slot c claim).trans same, ?_⟩
    rw [claims, if_neg (taken claim)]
    exact claim
  have handle : (takeSlot i b s).handleAt i = { slot := i, gen := s.slots[i].gen + 1 } := by
    unfold State.handleAt takeSlot
    rw [setSlot_get, if_pos rfl]
  refine { queue := ?_, walk := rfl, room := queueFull_room room, apart := fun x hx => ?_, fits := fun x hx => ?_, fit := ?_, gen := gen, checking := fun j c checks => ?_, states := fun h c d hc hd => ?_, overstays := fun j overstays => ?_, running := rfl, grants := fun grants => ?_ }
  · show s.admission.queue ++ [Entry.book ((takeSlot i b s).handleAt i)] = _
    rw [handle]
  · have waits := law.2.2 x hx
    have other (h : Handle) (c : Claim) (hc : s.resolve h = some c) : h ≠ { slot := i, gen := s.slots[i].gen + 1 } := by
      rintro rfl
      exact taken (resolve_eq_some.mp hc).2 rfl
    cases x with
    | book h | amend h =>
      obtain ⟨c, hc, -⟩ := Option.any_eq_true _ _ |>.mp waits
      exact decide_eq_false (other h c hc)
    | zone z => rfl
  · exact subjectFits_of_resolve (law.2.2 x hx) (fun h c _ => resolves h c) fun _ _ => rfl
  · have resolved : (bookingMade i b s).resolve { slot := i, gen := s.slots[i].gen + 1 } = some b.claim := by
      refine resolve_eq_some.mpr ⟨?_, ?_⟩
      · rw [slot, if_pos rfl]
      · rw [claims, if_pos rfl]
    simp only [subjectFits, resolved, Option.any_some]
    rfl
  · rw [claims]
    split
    · next same =>
      subst same
      rw [free]
      constructor
      · rintro ⟨⟩
        cases checks
      · nofun
    · exact Iff.rfl
  · cases (resolves h c hc).symm.trans hd
    rfl
  · obtain ⟨c, hc, -⟩ := Option.any_eq_true _ _ |>.mp overstays
    unfold State.overstayingAt at overstays ⊢
    rw [claims, if_neg (taken hc)]
    exact overstays
  · exact grantLaw_of_named grants fun f g hg => ⟨hg, fun c hc _ _ => resolves _ c hc⟩

/-! ## AMEND (R32) -/

theorem amendPending_appends {s : State} {h : Handle} {c : Claim} (a : Amendment) (law : QueueLaw s) (room : s.queueFull = false)
    (hr : s.resolve h = some c) (occupying : c.state.occupying = true) (no_amend : c.amend = none) :
    Appends (.amend h) s (amendPending h c a s) := by
  obtain ⟨gen, claim⟩ := resolve_eq_some.mp hr
  have claims (j : Slot) : (amendPending h c a s).claimAt j = if h.slot = j then some { c with amend := some a } else s.claimAt j :=
    amendPending_claimAt j
  have gens (j : Slot) : (amendPending h c a s).slots[j].gen = s.slots[j].gen := amendPending_gen j
  have resolves (k : Handle) (d : Claim) (hd : s.resolve k = some d) :
      (amendPending h c a s).resolve k = some (if k = h then { c with amend := some a } else d) := by
    obtain ⟨same, there⟩ := resolve_eq_some.mp hd
    refine resolve_eq_some.mpr ⟨(gens k.slot).trans same, ?_⟩
    rw [claims]
    by_cases slot : h.slot = k.slot
    · have own : k = h := by rw [← handleAt_eq hd, ← slot, handleAt_eq hr]
      rw [if_pos slot, if_pos own]
    · have other : k ≠ h := fun own => slot (congrArg Handle.slot own).symm
      rw [if_neg slot, if_neg other]
      exact there
  have apart (x : Entry) (hx : x ∈ s.admission.queue) : x ≠ .book h ∧ x ≠ .amend h := by
    have waits := law.2.2 x hx
    constructor
    · rintro rfl
      rw [subjectFits, hr, Option.any_some, Bool.or_eq_true, decide_eq_true_eq, decide_eq_true_eq] at waits
      rcases waits with waits | waits <;> rw [waits] at occupying <;> cases occupying
    · rintro rfl
      rw [subjectFits, hr, Option.any_some, no_amend, Bool.and_eq_true] at waits
      cases waits.2
  refine { queue := rfl, walk := rfl, room := queueFull_room room, apart := fun x hx => ?_, fits := fun x hx => ?_, fit := ?_, gen := fun j _ _ => gens j, checking := fun j d checks => ?_, states := fun k d d' hd hd' => ?_, overstays := fun j overstays => ?_, running := rfl, grants := fun grants => ?_ }
  · obtain ⟨not_book, not_amend⟩ := apart x hx
    cases x with
    | book k => exact decide_eq_false fun same => not_book (congrArg Entry.book same)
    | amend k => exact decide_eq_false fun same => not_amend (congrArg Entry.amend same)
    | zone z => rfl
  · obtain ⟨not_book, not_amend⟩ := apart x hx
    refine subjectFits_of_resolve (law.2.2 x hx) (fun k d named hd => ?_) fun _ _ => rfl
    have other : k ≠ h := by
      rintro rfl
      exact named.elim not_book not_amend
    rw [resolves k d hd, if_neg other]
  · have resolved := resolves h c hr
    rw [if_pos rfl] at resolved
    simp only [subjectFits, resolved, Option.any_some, occupying]
    rfl
  · rw [claims]
    split
    · next same =>
      subst same
      rw [claim]
      constructor
      · rintro ⟨⟩
        rw [show c.state = .checking from checks] at occupying
        cases occupying
      · rintro ⟨⟩
        rw [checks] at occupying
        cases occupying
    · exact Iff.rfl
  · rw [resolves k d hd] at hd'
    split at hd'
    · next same =>
      subst same
      cases hr.symm.trans hd
      cases hd'
      rfl
    · cases hd'
      rfl
  · unfold State.overstayingAt at overstays ⊢
    rw [claims]
    split
    · next same =>
      rw [← same, claim] at overstays
      exact overstays
    · exact overstays
  · refine grantLaw_of grants fun f g hg => ⟨g, hg, fun fits => ?_⟩
    obtain ⟨d, hd, flyer, in_force, box, kind⟩ := grantFits_iff.mp fits
    have stays := resolves g.claim d hd
    split at stays
    · next same =>
      rw [same] at hd
      cases hr.symm.trans hd
      exact grantFits_iff.mpr ⟨_, stays, flyer, in_force, box, kind⟩
    · exact grantFits_iff.mpr ⟨d, stays, flyer, in_force, box, kind⟩

/-! ## ZONE_SET (R54, R55) -/

theorem zoneRequested_appends {s : State} (z : Zone) (area : FixedBox) (law : QueueLaw s) (room : s.queueFull = false)
    (free : s.zones[z].awaiting = false) : Appends (.zone z) s (zoneRequested z area s) := by
  have zone (y : Zone) : (zoneRequested z area s).zones[y] = if z = y then requestZone area s.zones[z] else s.zones[y] := setZone_get s z y _
  have apart (y : Zone) (hy : Entry.zone y ∈ s.admission.queue) : y ≠ z := by
    rintro rfl
    have waits := law.2.2 _ hy
    unfold ZoneSlot.awaiting at free
    simp only [subjectFits] at waits
    cases hz : s.zones[y] with
    | pending | set =>
      rw [hz] at free waits
      exact Bool.false_ne_true (free.symm.trans waits)
    | empty | refused =>
      rw [hz] at waits
      cases waits
  refine { queue := rfl, walk := rfl, room := queueFull_room room, apart := fun x hx => ?_, fits := fun x hx => ?_, fit := ?_, gen := fun _ _ _ => rfl, checking := fun _ _ _ => Iff.rfl, states := fun k c d hc hd => ?_, overstays := fun _ => id, running := rfl, grants := id }
  · cases x with
    | book k | amend k => rfl
    | zone y => exact decide_eq_false (apart y hx)
  · refine subjectFits_of_resolve (law.2.2 x hx) (fun _ _ _ => id) fun y own => ?_
    subst own
    rw [zone, if_neg fun same => apart y hx same.symm]
  · have requested := zone z
    rw [if_pos rfl] at requested
    simp only [subjectFits, requested]
    unfold ZoneSlot.awaiting at free
    unfold requestZone
    cases s.zones[z] <;> rfl
  · cases (show s.resolve k = some d from hd).symm.trans hc
    rfl

end Sys2Proof.Machine
end

section
/-! PROOF. What every console command keeps of the admission and the grants (R6, R9, R20 to R22, R28, R46, R107, R119). -/

namespace Sys2Proof.Machine

variable {reads : Prop}

/-! ## An entry withdrawn (R28, R33, R46, R57) -/

/-- From s to u one entry leaves the queue with its subject, and a walk of it with it; the others stay as they fit. -/
structure Withdraws (e : Entry) (s u : State) : Prop where
  queue : u.admission.queue = s.admission.queue.filter (fun x => decide (x ≠ e))
  gone : ∀ w, s.admission.walk = some w → w.subject = e → u.admission.walk = none
  stays : (∀ w, s.admission.walk = some w → w.subject ≠ e) → u.admission.walk = s.admission.walk
  fits : ∀ x ∈ s.admission.queue, x ≠ e → subjectFits u x = true
  gen : ∀ j : Slot, u.slots[j].gen = s.slots[j].gen
  claims : ∀ j : Slot, u.claimAt j = s.claimAt j ∨ u.claimAt j = none ∧ e = .book (s.handleAt j) ∧ s.overstayingAt j = false
  freed : ∀ j : Slot, e = .book (s.handleAt j) → u.claimAt j = none
  running : u.running = s.running
  grants : GrantLaw s → GrantLaw u

section
variable {e : Entry} {s u : State} (h : Withdraws e s u)
include h

theorem Withdraws.handleAt (j : Slot) : u.handleAt j = s.handleAt j := by
  unfold State.handleAt
  rw [h.gen]

theorem Withdraws.came {j : Slot} {c : Claim} (hc : u.claimAt j = some c) : s.claimAt j = some c := by
  rcases h.claims j with same | ⟨gone, -⟩
  · exact same.symm.trans hc
  · rw [gone] at hc
    cases hc

theorem Withdraws.quiet : ceasedOverstay s u = false := by
  rw [ceasedOverstay_eq_false]
  intro j overstays
  refine ⟨h.gen j, ?_⟩
  rcases h.claims j with same | ⟨-, -, not_overstaying⟩
  · unfold State.overstayingAt at overstays ⊢
    rw [same]
    exact overstays
  · exact absurd (not_overstaying.symm.trans overstays) Bool.false_ne_true

/-- A walk still in flight is of another entry. -/
theorem Withdraws.walk {w : Walk} (hw : u.admission.walk = some w) : s.admission.walk = some w ∧ w.subject ≠ e := by
  have other (w' : Walk) (hw' : s.admission.walk = some w') : w'.subject ≠ e := fun own => by
    rw [h.gone w' hw' own] at hw
    cases hw
  have before := (h.stays other).symm.trans hw
  exact ⟨before, other w before⟩

theorem Withdraws.closing (law : AdmissionLaw s) (grants : GrantLaw s) : Closing s u := by
  have waits := law.waits
  obtain ⟨room, apart, -⟩ := waits.queue
  refine ⟨⟨⟨?_, ?_, fun x hx => ?_⟩, fun w hw => ?_, fun w hw => ?_, fun j c hc checks => ?_, fun w k hw book => ?_⟩, fun w hw => ?_, h.running, h.grants grants⟩
  · rw [h.queue]
    exact Nat.le_trans (List.length_filter_le _ _) room
  · rw [h.queue]
    exact apart.filter _
  · rw [h.queue, List.mem_filter, decide_eq_true_eq] at hx
    exact h.fits x hx.1 hx.2
  · obtain ⟨before, other⟩ := h.walk hw
    obtain ⟨l, hl⟩ := List.head?_eq_some_iff.mp (waits.head w before)
    have kept : decide (w.subject ≠ e) = true := decide_eq_true other
    rw [h.queue, hl, List.filter_cons, if_pos kept]
    rfl
  · exact h.running.trans (waits.runs w (h.walk hw).1)
  · obtain ⟨w, hw, book⟩ := waits.checking j c (h.came hc) checks
    have other (w' : Walk) (hw' : s.admission.walk = some w') : w'.subject ≠ e := by
      rintro rfl
      cases hw.symm.trans hw'
      rw [h.freed j book] at hc
      cases hc
    rw [h.handleAt]
    exact ⟨w, (h.stays other).trans hw, book⟩
  · obtain ⟨before, other⟩ := h.walk hw
    obtain ⟨c, hc, checks⟩ := waits.subject w k before book
    obtain ⟨gen, claim⟩ := resolve_eq_some.mp hc
    refine ⟨c, resolve_eq_some.mpr ⟨(h.gen k.slot).trans gen, ?_⟩, checks⟩
    rcases h.claims k.slot with same | ⟨-, own, -⟩
    · exact same.trans claim
    · rw [handleAt_eq hc, ← book] at own
      exact absurd own.symm other
  · have before := (h.walk hw).1
    exact ⟨waits.head w before, waits.runs w before⟩

/-- A walk of another entry goes on. -/
theorem Withdraws.admits (law : AdmissionLaw s) (grants : GrantLaw s) : Admits reads s (closeEvent false s u) := by
  refine (h.closing law grants).admits fun _ => ?_
  rw [closeEvent_quiet h.quiet]
  have still {w : Walk} (hw : s.admission.walk = some w) (head : (beginHead u).admission.queue.head? = some w.subject) :
      beginHead u = u ∧ u.admission.walk = some w := by
    have mem := List.mem_of_mem_head? head
    rw [beginHead_queue, h.queue, List.mem_filter, decide_eq_true_eq] at mem
    have walk := (h.stays fun w' hw' => by
      cases hw.symm.trans hw'
      exact mem.2).trans hw
    exact ⟨beginHead_walk (by rw [walk]; rfl), walk⟩
  refine walkGoesOn_of_same (fun w hw head => ?_) fun w k c d hw head _ hc hd => ?_
  · obtain ⟨same, walk⟩ := still hw head
    rw [same]
    exact walk
  · rw [(still hw head).1] at hd
    obtain ⟨-, claim⟩ := resolve_eq_some.mp hc
    cases claim.symm.trans (h.came (resolve_eq_some.mp hd).2)
    rfl

end

/-! ### CANCEL and ZONE_CLEAR -/

theorem withdrawnClaim_withdraws {s : State} {h : Handle} {c : Claim} (law : AdmissionLaw s) (hr : s.resolve h = some c)
    (waiting : c.state = .queued ∨ c.state = .checking) : Withdraws (.book h) s (withdrawnClaim h s) := by
  obtain ⟨queue, walk, -⟩ := law
  obtain ⟨gen, claim⟩ := resolve_eq_some.mp hr
  have not_occupying : c.state.occupying = false := by rcases waiting with state | state <;> rw [state] <;> rfl
  have not_in_force : c.state.inForce = false := by rcases waiting with state | state <;> rw [state] <;> rfl
  have not_overstaying : c.state.overstaying = false := by rcases waiting with state | state <;> rw [state] <;> rfl
  have freed := freeSlot_unoccupying queue walk hr not_occupying
  obtain ⟨on, off⟩ := withdrawEntry_goes (.book h) (freeSlot h.slot s)
  have walk_same : (freeSlot h.slot s).admission.walk = s.admission.walk := by rw [freed]; rfl
  have gens (j : Slot) : (withdrawnClaim h s).slots[j].gen = s.slots[j].gen := by
    unfold withdrawnClaim
    rw [gen_congr (withdrawEntry_slots _ _), freeSlot_gen]
  have claims (j : Slot) : (withdrawnClaim h s).claimAt j = if h.slot = j then none else s.claimAt j := by
    unfold withdrawnClaim
    rw [claimAt_congr (withdrawEntry_slots _ _), freeSlot_claimAt]
  have handles : s.handleAt h.slot = h := handleAt_eq hr
  refine { queue := withdrawnClaim_queue queue hr waiting, gone := fun w hw own => (on w (walk_same.trans hw) own).1, stays := fun other => ?_, fits := fun x hx other => ?_, gen := gens, claims := fun j => ?_, freed := fun j own => ?_, running := ?_, grants := fun grants => ?_ }
  · exact (off fun w hw => other w (walk_same.symm.trans hw)).1.trans walk_same
  · refine subjectFits_of_resolve (queue.2.2 x hx) (fun k d named hd => ?_) fun z _ => ?_
    · obtain ⟨same, there⟩ := resolve_eq_some.mp hd
      refine resolve_eq_some.mpr ⟨(gens k.slot).trans same, ?_⟩
      rw [claims, if_neg]
      · exact there
      · intro slot
        have own : k = h := by rw [← handleAt_eq hd, ← slot, handles]
        subst own
        rcases named with rfl | rfl
        · exact other rfl
        · exact amend_absent_of_waiting queue hr waiting hx
    · exact congrArg (fun zones => zones[z]) ((withdrawEntry_frame _ _).zones.trans (freeSlot_frame h.slot s).zones)
  · rw [claims]
    split
    · next slot =>
      subst slot
      refine .inr ⟨rfl, congrArg Entry.book handles.symm, ?_⟩
      unfold State.overstayingAt
      rw [claim]
      exact not_overstaying
    · exact .inl rfl
  · have slot : h.slot = j := by rw [Entry.book.inj own]; rfl
    rw [claims, if_pos slot]
  · exact (withdrawEntry_frame _ _).running.trans (freeSlot_frame h.slot s).running
  · have freed_law : GrantLaw (freeSlot h.slot s) := freeSlot_grantLaw grants fun d g hd in_force => by
      cases claim.symm.trans hd
      exact absurd (not_in_force.symm.trans in_force) Bool.false_ne_true
    refine grantLaw_of_named freed_law fun f g hg => ⟨?_, fun d hd _ _ => ?_⟩
    · exact (grantOf_congr (withdrawEntry_frame (.book h) (freeSlot h.slot s)).grants f).symm.trans hg
    · exact (resolve_congr (withdrawEntry_slots _ _) _).trans hd

theorem zoneEmptied_withdraws {s : State} (z : Zone) (law : QueueLaw s) : Withdraws (.zone z) s (zoneEmptied z s) := by
  obtain ⟨on, off⟩ := withdrawEntry_goes (.zone z) (s.setZone z .empty)
  have slots : (zoneEmptied z s).slots = s.slots := withdrawEntry_slots _ _
  refine { queue := withdrawEntry_queue _ _, gone := fun w hw own => (on w hw own).1, stays := fun other => (off other).1, fits := fun x hx other => ?_, gen := gen_congr slots, claims := fun j => .inl (claimAt_congr slots j), freed := nofun, running := (withdrawEntry_frame _ _).running, grants := fun grants => ?_ }
  · refine subjectFits_of_resolve (law.2.2 x hx) (fun k d _ hd => (resolve_congr slots k).trans hd) fun y own => ?_
    subst own
    have zones : (zoneEmptied z s).zones = (s.setZone z .empty).zones := (withdrawEntry_frame _ _).zones
    have apart : z ≠ y := fun same => other (congrArg Entry.zone same.symm)
    rw [zones, setZone_get, if_neg apart]
  · refine grantLaw_of_named grants fun f g hg => ⟨?_, fun d hd _ _ => (resolve_congr slots _).trans hd⟩
    exact (grantOf_congr (withdrawEntry_frame (.zone z) (s.setZone z .empty)).grants f).symm.trans hg

end Sys2Proof.Machine
end

section
/-! PROOF. What every console command keeps of the admission and the grants (R9, R20 to R22, R28, R107, R119, R140, R142). -/

namespace Sys2Proof.Machine

variable {reads : Prop}

/-! ## Holds and windows -/

theorem Untouched.frees {s t : State} (slots : t.slots = s.slots) (zones : t.zones = s.zones) (admission : t.admission = s.admission)
    (arbiter : t.arbiter = s.arbiter) : FreesAlone s t :=
  ⟨.of_eq slots zones (by rw [admission]) arbiter, .of_eq slots admission arbiter, fun j => .inl (claimAt_congr slots j)⟩

theorem removeAllGrants_frees (s : State) : FreesAlone s (removeAllGrants s) :=
  foldl_frame FreesAlone (fun s => ⟨.refl s, .refl s, fun _ => .inl rfl⟩) (fun _ _ _ h k => h.trans k) _
    (fun t f => ⟨removeGrant_follows f .hold t, removeGrant_goes f .hold t, (removeGrant_expired f .hold t).2⟩) allFlyers s

/-- A push frees claims alone, those of the grounded flyers whose grants it removes (R15, R119). -/
theorem pushHold_frees (src : HoldSource) (flag : Bool) (s : State) : FreesAlone s (pushHold src flag s) := by
  unfold pushHold
  split
  · exact ⟨.refl s, .refl s, fun _ => .inl rfl⟩
  · have raised (u : State) (hu : FreesAlone s u) : FreesAlone s (if flag then raiseFlag .holdsChanged u else u) := by
      split
      · exact hu.trans (Untouched.frees rfl rfl rfl rfl)
      · exact hu
    have appended := raised { s with holds := s.holds ++ [{ source := src, tick := s.now }] } (Untouched.frees rfl rfl rfl rfl)
    have frozen (u : State) : FreesAlone u (freezeClock u) := by
      rw [freeze_clock]
      exact Untouched.frees rfl rfl rfl rfl
    dsimp only
    split
    · exact appended.trans ((removeAllGrants_frees _).trans (frozen _))
    · exact appended

theorem pushHold_running (src : HoldSource) (flag : Bool) (s : State) : (pushHold src flag s).running = s.running :=
  (pushHold_frame src flag s).running

/-- A push, closed. -/
theorem pushHold_admits (src : HoldSource) (flag : Bool) {s : State} (law : AdmissionLaw s) (grants : GrantLaw s) (r : State) :
    Admits reads s (closeEvent false r (pushHold src flag s)) := by
  obtain ⟨follows, goes, -⟩ := pushHold_frees src flag s
  exact (pushHold_evolves src flag s).admits law follows goes (pushHold_running src flag s) (pushHold_grantLaw src flag grants) false r

theorem windowPart_evolves (jump : Bool) (s : State) : Evolves s (allSlots.foldl (fun t i => bookedPart jump i t) (endings s)) := by
  refine (endings_evolves s).trans ?_
  cases jump
  · exact openings_evolves _
  · exact jumpOpenings_evolves _

theorem windowEvent_admits (jump : Bool) {s : State} (law : AdmissionLaw s) (grants : GrantLaw s) : Admits reads s (windowEvent jump s) := by
  obtain ⟨goes, follows⟩ := windowPart_goes jump s
  exact (windowPart_evolves jump s).admits law follows goes ((bookedParts_frame jump _).running.trans (endings_frame s).running)
    (windowPart_grantLaw jump grants) false s

/-! ## Claims freed and moved by command -/

theorem freed_admits {i : Slot} {s : State} {c : Claim} (law : AdmissionLaw s) (grants : GrantLaw s) (lost : LostLaw s)
    (at_slot : s.claimAt i = some c) (not_queued : c.state ≠ .queued) (not_checking : c.state ≠ .checking)
    (no_grant : c.state.inForce = true → s.grantOf c.flyer = none ∨ s.channels[c.flyer].state = .closed ∨ s.channels[c.flyer].state = .lost) :
    Admits reads s (closeEvent false s (freeSlot i s)) := by
  have own (d : Claim) (hd : s.claimAt i = some d) : d = c := Option.some.inj (hd.symm.trans at_slot)
  have waits (d : Claim) (hd : s.claimAt i = some d) : d.state ≠ .queued ∧ d.state ≠ .checking := by
    rw [own d hd]
    exact ⟨not_queued, not_checking⟩
  refine admits_onward law (freeSlot_follows waits) (freeSlot_goes waits) (freeSlot_sameChecking fun d hd => (waits d hd).2) ?_
    (freeSlot_frame i s).running (freeSlot_grantLaw grants fun d g hd in_force live => ?_) false s
  · intro j d e m hd he held
    rw [freeSlot_claimAt] at he
    split at he
    · cases he
    · cases hd.symm.trans he
      rw [held]
      nofun
  · rw [own d hd] at in_force live
    rcases no_grant in_force with none | down
    · cases none.symm.trans live
    · cases (lost c.flyer down).symm.trans live

/-- A claim moved by RESUME, from HELD of another cause than OVERLAP. -/
theorem resumed_admits {i : Slot} {s u : State} {c : Claim} {cause : HeldCause} {ended : Bool} {st : ClaimState} (law : AdmissionLaw s)
    (grants : GrantLaw s) (at_slot : s.claimAt i = some c) (held : c.state = .held cause ended) (occupying : st.occupying = true)
    (same : Untouched (moveClaim i st s) u) (arbiter : u.arbiter = (moveClaim i st s).arbiter) : Admits reads s (closeEvent false s u) := by
  have follows := moveClaim_follows_of (st := st) at_slot (by rw [held]; nofun) (by rw [held]; nofun) occupying
  have after : Follows (moveClaim i st s) u := .of_eq same.slots same.zones (by rw [same.admission]) arbiter
  have goes : WalkGoes (moveClaim i st s) u := .of_eq same.slots same.admission arbiter
  have moved : SameChecking s (moveClaim i st s) := by
    refine moveClaim_sameChecking at_slot (by rw [held]; nofun) ?_
    rintro rfl
    cases occupying
  have law' : GrantLaw (moveClaim i st s) := moveClaim_grantLaw grants fun d hd => by
    cases at_slot.symm.trans hd
    rw [held]
    rfl
  refine admits_onward law (follows.trans after) (moveClaim_goes.trans goes follows after fun j => .inr (claimAt_congr same.slots j))
    (moved.trans (.of_slots same.slots)) ?_ (same.running.trans (moveClaim_frame i st s).running) (same.grants law') false s
  intro j d e m hd he overlap
  rw [claimAt_congr same.slots, moveClaim_claimAt] at he
  split at he
  · next own =>
    subst own
    cases at_slot.symm.trans hd
    rw [held]
    nofun
  · cases hd.symm.trans he
    rw [overlap]
    nofun

theorem commandHold_closed {i : Slot} {c : Claim} {ended : Bool} {s : State}
    (in_force : (c.state = .active ∧ ended = false) ∨ (c.state = .overrun ∧ ended = true)) :
    (commandHold i c ended s).1 = closeEvent false s (commandHeld (s.handleAt i) c s) := by
  unfold commandHold commandHeld
  rcases in_force with ⟨active, rfl⟩ | ⟨overrun, rfl⟩
  · rw [active]
    rfl
  · rw [overrun]
    rfl

theorem commandHold_admits {i : Slot} {c : Claim} {ended : Bool} {s : State} (law : AdmissionLaw s) (grants : GrantLaw s)
    (at_slot : s.claimAt i = some c) (in_force : (c.state = .active ∧ ended = false) ∨ (c.state = .overrun ∧ ended = true)) :
    Admits reads s (commandHold i c ended s).1 := by
  rw [commandHold_closed in_force]
  have begun : c.state = .active ∨ c.state = .overrun := in_force.imp And.left And.left
  have resolved : s.resolve (s.handleAt i) = some c := resolve_eq_some.mpr ⟨rfl, at_slot⟩
  have claims := commandHeld_claimAt resolved
  obtain ⟨follows, goes⟩ := commandHeld_goes resolved begun
  refine admits_onward law follows goes (fun j d checks => ?_) ?_ commandHeld_frame.running (commandHeld_grantLaw resolved grants) false s
  · obtain ⟨own, others⟩ := claims j
    by_cases same : i = j
    · rw [own same, ← same, at_slot]
      constructor
      · rintro ⟨⟩
        cases checks
      · rintro ⟨⟩
        rw [checks] at begun
        rcases begun with begun | begun <;> cases begun
    · rcases others same with kept | ⟨gone, x, hx, -, overrun⟩
      · rw [kept]
      · rw [gone, hx]
        constructor
        · nofun
        · rintro ⟨⟩
          cases overrun.symm.trans checks
  · intro j d e m hd he overlap
    obtain ⟨own, others⟩ := claims j
    by_cases same : i = j
    · cases (own same).symm.trans he
      cases overlap
    · rcases others same with kept | ⟨gone, -⟩
      · cases (kept.symm.trans he).symm.trans hd
        rw [overlap]
        nofun
      · rw [gone] at he
        cases he

/-! ## Every command -/

theorem CommandEffect.admits {s t : State} (h : CommandEffect s t) (law : AdmissionLaw s) (grants : GrantLaw s) (lost : LostLaw s) :
    Admits reads s t := by
  have quiet {u : State} (same : Untouched s u) : Admits reads s u := same.admits law grants
  cases h with
  | none => exact .refl law grants
  | shown | enabled | cleared | autoClear | alertEmptied | supplyEmptied | protectSet | bound | unbound | breachCleared
  | templateStored | templateEvicted | templateDropped | templateLocked | reopened => exact quiet ⟨rfl, rfl, rfl, rfl, id⟩
  | claimFreed at_slot not_queued not_checking no_grant => exact freed_admits law grants lost at_slot not_queued not_checking no_grant
  | claimHeld at_slot in_force => exact commandHold_admits law grants at_slot in_force
  | resumedOverlap at_slot held => exact resumed_admits law grants at_slot held rfl ⟨rfl, rfl, rfl, rfl, id⟩ rfl
  | resumedActive at_slot held | resumedOverrun at_slot held => exact resumed_admits law grants at_slot held rfl ⟨rfl, rfl, rfl, rfl, id⟩ rfl
  | @cancelled i c at_slot waiting =>
    exact (withdrawnClaim_withdraws law (resolve_eq_some.mpr ⟨rfl, at_slot⟩ : s.resolve (s.handleAt i) = some c) waiting).admits law grants
  | @booked i b room slot => exact (bookingMade_appends law.1 room (freeSlotOf_free slot)).admits law grants
  | @fired i b k w room slot =>
    have accessed : Untouched s (accessWay k w s) := ⟨rfl, rfl, rfl, rfl, id⟩
    exact Admits.before accessed ((bookingMade_appends (s := accessWay k w s) law.1 room (freeSlotOf_free slot)).admits
      (accessed.law law) grants)
  | @amended i c a at_slot _ occupying no_amend room =>
    exact (amendPending_appends a law.1 room (resolve_eq_some.mpr ⟨rfl, at_slot⟩ : s.resolve (s.handleAt i) = some c) occupying no_amend).admits
      law grants
  | @zoneRequested z area free room => exact (zoneRequested_appends z area law.1 room free).admits law grants
  | zoneEmptied z => exact (zoneEmptied_withdraws z law.1).admits law grants
  | holdPushed src => exact pushHold_admits src true law grants s
  | holdReleased src =>
    rw [removeHold_eq]
    exact quiet ⟨rfl, rfl, rfl, rfl, id⟩
  | @clockLoaded v =>
    have loaded : Untouched s (s.setClock { s.clock with count := v, run := loadedRun s }) := ⟨rfl, rfl, rfl, rfl, id⟩
    exact Admits.before loaded (windowEvent_admits true (loaded.law law) grants)
  | sourceSelected src =>
    unfold selectSource
    split <;> exact quiet ⟨rfl, rfl, rfl, rfl, id⟩
  | @clockSkipped d =>
    have counted : Untouched s (s.setClock { s.clock with count := min (s.clock.count + d) Config.maxTick }) := ⟨rfl, rfl, rfl, rfl, id⟩
    have ended (u : State) : Untouched u (endClock u) := by
      unfold endClock
      split <;> exact ⟨rfl, rfl, rfl, rfl, id⟩
    exact Admits.after (ended _) (Admits.before counted (windowEvent_admits true (counted.law law) grants))

end Sys2Proof.Machine
end

section
/-! PROOF. What the completion of a walk keeps of the admission and the grants: the head leaves with its verdict, and the next head's walk begins (R8, R28, R39 to R43, R56). -/

namespace Sys2Proof.Machine

variable {reads : Prop}

/-! ## The head gone -/

/-- From s to u the head's entry left the queue with its walk; its subject alone was written, and waits no longer. -/
structure Leaves (e : Entry) (s u : State) : Prop where
  queue : u.admission.queue = s.admission.queue.drop 1
  walk : u.admission.walk = none
  gen : ∀ j : Slot, u.slots[j].gen = s.slots[j].gen
  others : ∀ j : Slot, e.slot? ≠ some j → u.claimAt j = s.claimAt j
  own : ∀ (j : Slot) (c : Claim), e.slot? = some j → u.claimAt j = some c → c.state ≠ .checking
  zones : ∀ z : Zone, e ≠ .zone z → u.zones[z] = s.zones[z]
  running : u.running = s.running

section
variable {e : Entry} {s u : State} (h : Leaves e s u) (law : AdmissionLaw s) {w : Walk} (hw : s.admission.walk = some w) (subject : w.subject = e)
include h law hw subject

/-- The entries behind the head fit as they did: their subjects are others. -/
theorem Leaves.queueLaw : QueueLaw u := by
  obtain ⟨room, apart, fits⟩ := law.1
  obtain ⟨l, hl⟩ := List.head?_eq_some_iff.mp (law.waits.head w hw)
  have tail : u.admission.queue = l := by rw [h.queue, hl]; rfl
  rw [hl, List.pairwise_cons] at apart
  obtain ⟨first, rest⟩ := apart
  have mem {x : Entry} (hx : x ∈ l) : x ∈ s.admission.queue := by
    rw [hl]
    exact List.mem_cons_of_mem _ hx
  have head_fits : subjectFits s e = true := by
    rw [← subject]
    exact fits _ (by rw [hl]; exact List.mem_cons_self)
  refine ⟨?_, tail ▸ rest, fun x hx => ?_⟩
  · rw [h.queue]
    rw [List.length_drop]
    exact Nat.le_trans (Nat.sub_le _ _) room
  · rw [tail] at hx
    have other := subject ▸ first x hx
    have named (k : Handle) (d : Claim) (of : x = .book k ∨ x = .amend k) (hd : s.resolve k = some d) : u.resolve k = some d := by
      obtain ⟨same, there⟩ := resolve_eq_some.mp hd
      refine resolve_eq_some.mpr ⟨(h.gen k.slot).trans same, (h.others k.slot fun own => ?_).trans there⟩
      have of_same (g : Handle) (hg : e = .book g ∨ e = .amend g) : False := by
        have slot : g.slot = k.slot := by rcases hg with rfl | rfl <;> exact Option.some.inj own
        obtain ⟨c, hc⟩ : ∃ c, s.resolve g = some c := by
          rcases hg with rfl | rfl
          all_goals
            obtain ⟨c, hc, -⟩ := Option.any_eq_true _ _ |>.mp head_fits
            exact ⟨c, hc⟩
        have handle : g = k := by rw [← handleAt_eq hc, slot, handleAt_eq hd]
        subst handle
        have apart : sameSubject e x = true := by
          rcases hg with rfl | rfl <;> rcases of with rfl | rfl <;> exact decide_eq_true rfl
        exact Bool.false_ne_true (other.symm.trans apart)
      cases e with
      | book g => exact of_same g (.inl rfl)
      | amend g => exact of_same g (.inr rfl)
      | zone z => cases own
    refine subjectFits_of_resolve (fits x (mem hx)) named fun z of => h.zones z ?_
    rintro rfl
    subst of
    exact absurd (other.symm.trans (decide_eq_true rfl)) Bool.false_ne_true

theorem Leaves.waits : Waits u where
  queue := h.queueLaw law hw subject
  head := fun _ hw' => nomatch h.walk.symm.trans hw'
  runs := fun _ hw' => nomatch h.walk.symm.trans hw'
  subject := fun _ _ hw' => nomatch h.walk.symm.trans hw'
  checking := fun j c hc checks => by
    exfalso
    by_cases own : e.slot? = some j
    · exact h.own j c own hc checks
    · rw [h.others j own] at hc
      obtain ⟨w', hw', book⟩ := law.waits.checking j c hc checks
      cases hw.symm.trans hw'
      rw [← subject, book] at own
      exact own rfl

/-- The state before the completion's close. -/
theorem Leaves.closing (grants : GrantLaw u) : Closing s u where
  waits := h.waits law hw subject
  origin := fun _ hw' => nomatch h.walk.symm.trans hw'
  running := h.running
  grants := grants

end

/-- With no walk in flight none begins. -/
theorem WalkGoes.trans_idle {s t u : State} (idle : s.admission.walk = none) (h : WalkGoes s t) (k : WalkGoes t u) (f : Follows s t) :
    WalkGoes s u := by
  intro fits
  obtain ⟨still, turn⟩ := (h fits).1 idle
  obtain ⟨still', turn'⟩ := (k (f.2.2 fits).1).1 still
  exact ⟨fun _ => ⟨still', turn'.trans turn⟩, fun w hw => nomatch idle.symm.trans hw⟩

/-- An operation on a state with no walk in flight, before the close. -/
theorem Closing.onto {s u v : State} (waits : Waits u) (idle : u.admission.walk = none) (f : Follows u v) (g : WalkGoes u v)
    (same : SameChecking u v) (running : v.running = u.running) (runs : u.running = s.running) (grants : GrantLaw v) : Closing s v where
  waits := waits.onward f g same running
  origin := fun _ hw => nomatch ((g waits.queue.2.2).1 idle).1.symm.trans hw
  running := running.trans runs
  grants := grants

/-! ## The verdicts that write the subject alone (R8, R39, R42, R56) -/

theorem Leaves.raised {e : Entry} {s u : State} (h : Leaves e s u) (f : Flag) : Leaves e s (raiseFlag f u) :=
  ⟨h.queue, h.walk, h.gen, h.others, h.own, h.zones, h.running⟩

theorem Leaves.zone (z : Zone) (x : ZoneSlot) (s : State) : Leaves (.zone z) s ((leaveQueue s).setZone z x) where
  queue := rfl
  walk := rfl
  gen := fun _ => rfl
  others := fun _ _ => rfl
  own := fun _ _ own => by cases own
  zones := fun y other => by
    have apart : z ≠ y := fun same => other (congrArg Entry.zone same)
    exact (setZone_get (leaveQueue s) z y x).trans (if_neg apart)
  running := rfl

section
variable {s D : State} {e : Entry} {h : Slot} {c' : Claim} {m : FlagSet} (wrote : Written h c' m (leaveQueue s) D)
include wrote

theorem written_claimAt (j : Slot) : D.claimAt j = if h = j then some c' else s.claimAt j :=
  (claimAt_congr wrote.slots j).trans (setClaim_claimAt (leaveQueue s) h j c')

theorem written_gen (j : Slot) : D.slots[j].gen = s.slots[j].gen :=
  (gen_congr wrote.slots j).trans (setClaim_gen (leaveQueue s) h j c')

theorem Leaves.written (slot : e.slot? = some h) (settled : c'.state ≠ .checking) : Leaves e s D where
  queue := congrArg Admission.queue wrote.admission
  walk := congrArg Admission.walk wrote.admission
  gen := written_gen wrote
  others := fun j other => by
    refine (written_claimAt wrote j).trans (if_neg ?_)
    rintro rfl
    exact other slot
  own := fun j c own hc => by
    cases slot.symm.trans own
    have at_slot := (written_claimAt wrote h).symm.trans hc
    rw [if_pos rfl] at at_slot
    cases at_slot
    exact settled
  zones := fun z _ => congrArg (fun zones => zones[z]) wrote.frame.zones
  running := wrote.frame.running

theorem written_grantLaw {c : Claim} (grants : GrantLaw s) (hc : s.claimAt h = some c)
    (kept : c.state.inForce = true → c'.flyer = c.flyer ∧ c'.state = c.state ∧ c'.box = c.box) : GrantLaw (raiseFlag .admitDone D) := by
  refine raiseFlag_grantLaw .admitDone (grantLaw_of grants fun f g hg => ⟨g, ?_, fun fits => ?_⟩)
  · exact (grantOf_congr wrote.frame.grants f).symm.trans hg
  · obtain ⟨d, hd, flyer, in_force, box, kind⟩ := grantFits_iff.mp fits
    obtain ⟨gen, claim⟩ := resolve_eq_some.mp hd
    have claims := written_claimAt wrote g.claim.slot
    by_cases own : h = g.claim.slot
    · rw [← own, hc] at claim
      cases claim
      obtain ⟨flyer', state', box'⟩ := kept in_force
      rw [if_pos own] at claims
      exact grantFits_iff.mpr ⟨c', resolve_eq_some.mpr ⟨(written_gen wrote _).trans gen, claims⟩, flyer'.trans flyer,
        state' ▸ in_force, box' ▸ box, state' ▸ kind⟩
    · rw [if_neg own, claim] at claims
      exact grantFits_iff.mpr ⟨d, resolve_eq_some.mpr ⟨(written_gen wrote _).trans gen, claims⟩, flyer, in_force, box, kind⟩

end

/-- A booking's verdict writes its claim alone (R8, R39). -/
theorem deliverVerdict_book_written {s : State} {h : Handle} {c : Claim} (v : Option Verdict) (hr : s.resolve h = some c) :
    ∃ c' m D, deliverVerdict (.book h) v (leaveQueue s) = (D, false) ∧ Written h.slot c' m (leaveQueue s) D ∧ c'.state ≠ .checking := by
  cases v with
  | some v => exact ⟨_, _, _, deliverVerdict_book_refused (s := leaveQueue s) hr v, .setClaim _ _ _, nofun⟩
  | none =>
    exact ⟨_, _, _, deliverVerdict_book_passed (s := leaveQueue s) hr, placeBooking_written (resolve_eq_some.mp hr).2 rfl,
      (placedClaim_settled (leaveQueue s) c).2⟩

/-- An amendment's verdict that refuses it writes its claim's amendment and verdict alone; another passes it (R39, R42). -/
theorem deliverVerdict_amend_cases {s : State} {h : Handle} {c : Claim} {a : Amendment} (v : Option Verdict) (hr : s.resolve h = some c)
    (ha : c.amend = some a) : (∃ r, deliverVerdict (.amend h) v (leaveQueue s) =
        ((leaveQueue s).setClaim h.slot { c with amend := none, verdict := some r }, false)) ∨
      deliverVerdict (.amend h) v (leaveQueue s) = (passAmendment h.slot c a (leaveQueue s), asksRecheck c a) := by
  cases v with
  | some v => exact .inl ⟨v, deliverVerdict_amend_refused (s := leaveQueue s) hr v⟩
  | none =>
    by_cases past : endedBy (amendedEnd c a) s.now = true
    · exact .inl ⟨.stale, deliverVerdict_amend_stale (s := leaveQueue s) hr ha past⟩
    · exact .inr (deliverVerdict_amend_passed (s := leaveQueue s) hr ha past)

/-! ## An amendment that passes (R40, R41) -/

/-- An operation on one claim of the flyer whose grants alone may not fit. -/
structure Amends (f : Flyer) (s u : State) : Prop where
  follows : Follows s u
  goes : WalkGoes s u
  checking : SameChecking s u
  running : u.running = s.running
  grants : GrantLawBut f s → GrantLawBut f u

theorem Amends.refl (f : Flyer) (s : State) : Amends f s s := ⟨.refl s, .refl s, .refl s, rfl, id⟩

theorem Amends.move {s : State} {i : Slot} {d : Claim} {st : ClaimState} (hd : s.claimAt i = some d) (from_occupying : d.state.occupying = true)
    (occupying : st.occupying = true) : Amends d.flyer s (moveClaim i st s) := by
  obtain ⟨not_queued, not_checking⟩ := occupying_not_waiting from_occupying
  have into : st ≠ .checking := by
    rintro rfl
    cases occupying
  refine ⟨moveClaim_follows_of hd not_queued not_checking occupying, moveClaim_goes, moveClaim_sameChecking hd not_checking into,
    (moveClaim_frame i st s).running, fun law => law.moveClaim fun c hc => ?_⟩
  cases hd.symm.trans hc
  rfl

theorem Amends.untouched {f : Flyer} {s u v : State} (h : Amends f s u) (slots : v.slots = u.slots) (zones : v.zones = u.zones)
    (admission : v.admission = u.admission) (arbiter : v.arbiter = u.arbiter) (running : v.running = u.running)
    (grants : ∀ k, k ≠ f → v.grantOf k = u.grantOf k) : Amends f s v := by
  have after : Follows u v := .of_eq slots zones (by rw [admission]) arbiter
  exact ⟨h.follows.trans after, h.goes.trans (.of_eq slots admission arbiter) h.follows after fun j => .inr (claimAt_congr slots j),
    h.checking.trans (.of_slots slots), running.trans h.running,
    fun law => (h.grants law).of_others grants fun k c hc _ _ => (resolve_congr slots k).trans hc⟩

theorem Amends.restore {f : Flyer} {s u : State} (h : Amends f s u) (k : Handle) : Amends f s (restoreGrant f k u) := by
  unfold restoreGrant
  split
  · exact h
  · split
    · refine h.untouched rfl rfl rfl rfl rfl fun j other => ?_
      unfold State.grantOf
      rw [setGrant_get, if_neg fun same => other same.symm]
    · exact h

theorem Amends.release {s : State} {i : Slot} {d : Claim} (hd : s.claimAt i = some d) : Amends d.flyer s (releaseOverlap i s) := by
  unfold releaseOverlap
  rw [hd]
  dsimp only
  split
  · next ended held =>
    have occupying : d.state.occupying = true := by rw [held]; rfl
    split
    · exact .refl _ s
    · split
      · exact .move hd occupying rfl
      · exact (Amends.move (st := .active) hd occupying rfl).untouched rfl rfl rfl rfl rfl fun _ _ => rfl
  · exact .refl _ s

theorem amendedState_amends {s : State} {i : Slot} {c d : Claim} (a : Amendment) (hd : s.claimAt i = some d) (flyer : d.flyer = c.flyer)
    (occupying : d.state.occupying = true) : Amends c.flyer s (amendedState i c a s) := by
  rw [← flyer]
  unfold amendedState
  split
  · split
    · rw [← flyer]
      exact (Amends.move (st := .active) hd occupying rfl).restore _
    · exact .refl _ s
  · split
    · exact .move hd occupying rfl
    · exact .refl _ s
  · exact .release hd
  · exact .refl _ s

end Sys2Proof.Machine
end

section
/-! PROOF. What the walk's reads keep of the admission and the grants, with the amendment that passes (R36 to R43, R107). -/

namespace Sys2Proof.Machine

variable {reads : Prop}

/-! ## The grant of an amended claim (R41, R107) -/

theorem restoreGrant_slots (f : Flyer) (h : Handle) (s : State) : (restoreGrant f h s).slots = s.slots := by
  unfold restoreGrant
  split
  · rfl
  · split <;> rfl

theorem amendedState_others (i : Slot) (c : Claim) (a : Amendment) (s : State) {j : Slot} (other : j ≠ i) :
    (amendedState i c a s).claimAt j = s.claimAt j := by
  have moved (st : ClaimState) : (moveClaim i st s).claimAt j = s.claimAt j := by
    rw [moveClaim_claimAt, if_neg fun same => other same.symm]
  unfold amendedState
  split
  · split
    · exact (claimAt_congr (restoreGrant_slots _ _ _) j).trans (moved _)
    · rfl
  · split
    · exact moved _
    · rfl
  · exact (releaseOverlap_goesAt i s).1 j other
  · rfl

section
variable {s : State} {h : Handle} {c : Claim} {a : Amendment} (hr : s.resolve h = some c)
include hr

/-- The amended claim in force, and the grant that names it: ACTIVE again with the kind it was issued with, or as they were. -/
theorem amended_inForce (in_force : c.state.inForce = true) (d : Claim) (same : d.state = c.state) {g : Grant}
    (hg : s.grantOf c.flyer = some g) (named : g.claim = h) (kind : c.state ≠ .overrun ∨ g.kind = .descent) :
    ∃ st kind', (amendedState h.slot c a (reshaped h d s)).claimAt h.slot = some { d with state := st } ∧ st.inForce = true ∧
      (amendedState h.slot c a (reshaped h d s)).grantOf c.flyer = some { g with kind := kind' } ∧ (st ≠ .overrun ∨ kind' = .descent) := by
  have own := (resolve_eq_some.mp (reshaped_at hr d)).2
  have plain (stays : amendedState h.slot c a (reshaped h d s) = reshaped h d s) :
      ∃ st kind', (amendedState h.slot c a (reshaped h d s)).claimAt h.slot = some { d with state := st } ∧ st.inForce = true ∧
      (amendedState h.slot c a (reshaped h d s)).grantOf c.flyer = some { g with kind := kind' } ∧ (st ≠ .overrun ∨ kind' = .descent) := by
    rw [stays]
    exact ⟨d.state, g.kind, own, same ▸ in_force, (grantOf_congr (reshaped_frame d).grants c.flyer).trans hg, same ▸ kind⟩
  by_cases overrun : c.state = .overrun
  · obtain ⟨becomes, -⟩ := amendedState_overrun (reshaped h d s) h.slot a d overrun
    by_cases ends : a.newEnd = none
    · exact plain (by rw [becomes, ends]; rfl)
    · have grants := amendedState_grants_restored hr d hg named overrun ends
      refine ⟨.active, g.issued, ?_, rfl, ?_, .inl nofun⟩
      · rw [becomes, if_pos (Option.isSome_iff_ne_none.mpr ends), claimAt_congr (restoreGrant_slots _ _ _), moveClaim_claimAt,
          if_pos rfl, own]
        rfl
      · unfold State.grantOf
        rw [grants]
        exact congrArg GrantRec.live (Vector.getElem_set_self c.flyer.isLt)
  · refine plain (amendedState_plain (reshaped h d s) h.slot a d overrun (fun cause held => ?_) fun held => ?_).1
    all_goals
      rw [held] at in_force
      cases in_force

/-- The claim reshaped is of its flyer, and the grants of the others stay in theirs. -/
theorem reshaped_grantLawBut (d : Claim) (grants : GrantLaw s) : GrantLawBut c.flyer (reshaped h d s) := by
  refine (grants.but c.flyer).of_others (fun k _ => grantOf_congr (reshaped_frame d).grants k) fun k x hx other _ => ?_
  obtain ⟨gen, claim⟩ := resolve_eq_some.mp hx
  refine resolve_eq_some.mpr ⟨(reshaped_gen d k.slot).trans gen, ?_⟩
  rw [reshaped_claimAt, if_neg]
  · exact claim
  · intro slot
    rw [← slot] at claim
    cases (resolve_eq_some.mp hr).2.symm.trans claim
    exact other rfl

/-- A grant that stays lies in the claim as it is amended (R41). -/
theorem amended_grantLaw (occupies : c.state.occupying = true) (grants : GrantLaw s) (inside : grantOutside s h c.flyer a.newBox = false) :
    GrantLaw (amendedState h.slot c a (reshaped h (amendedClaim c a) s)) := by
  have amends := amendedState_amends (s := reshaped h (amendedClaim c a) s) (c := c) (d := amendedClaim c a) a
    (resolve_eq_some.mp (reshaped_at hr _)).2 rfl occupies
  have but := amends.grants (reshaped_grantLawBut hr (amendedClaim c a) grants)
  intro k
  by_cases own : k = c.flyer
  · subst own
    have gens (j : Slot) : (amendedState h.slot c a (reshaped h (amendedClaim c a) s)).slots[j].gen = s.slots[j].gen :=
      (amends.follows.1 j).1.trans (reshaped_gen _ j)
    cases hg₀ : s.grantOf c.flyer with
    | none =>
      rw [(passed_like h c a s).grantOf.1 hg₀]
      rfl
    | some g₀ =>
      obtain ⟨x, hx, flyer, in_force, box, kind⟩ := grantFits_iff.mp (grants.fits hg₀)
      obtain ⟨gen, claim⟩ := resolve_eq_some.mp hx
      by_cases named : g₀.claim = h
      · subst named
        cases hr.symm.trans hx
        obtain ⟨st, kind', own_claim, in_force', live, kind⟩ := amended_inForce (a := a) hr in_force (amendedClaim c a) rfl hg₀ rfl kind
        have inside_box : (amendedClaim c a).box.contains g₀.segment = true := by
          unfold amendedClaim
          dsimp only
          cases hb : a.newBox with
          | none => exact box
          | some b =>
            refine Classical.byContradiction fun outside => ?_
            refine Bool.false_ne_true (inside.symm.trans ((grantOutside_iff s g₀.claim c.flyer a.newBox).mpr ⟨g₀, b, hg₀, rfl, hb, ?_⟩))
            rw [← Bool.not_eq_true]
            exact outside
        rw [live, Option.all_some, grantFits_iff]
        exact ⟨{ amendedClaim c a with state := st }, resolve_eq_some.mpr ⟨(gens _).trans gen, own_claim⟩, rfl, in_force', inside_box, kind⟩
      · have kept : (amendedState h.slot c a (reshaped h (amendedClaim c a) s)).grants = s.grants :=
          amendedState_grants_kept hr _ a (.inr (.inr fun g hg => by
            cases hg₀.symm.trans hg
            exact named))
        have other : g₀.claim.slot ≠ h.slot := fun slot => named (by rw [← handleAt_eq hx, slot, handleAt_eq hr])
        rw [grantOf_congr kept, hg₀, Option.all_some, grantFits_iff]
        refine ⟨x, resolve_eq_some.mpr ⟨(gens _).trans gen, ?_⟩, flyer, in_force, box, kind⟩
        rw [amendedState_others _ _ _ _ other, reshaped_claimAt, if_neg fun same => other same.symm]
        exact claim
  · exact but k own

end

/-- The state before the close of the completion of a passed amendment's walk. -/
theorem passed_closing {s : State} {w : Walk} {h : Handle} {c : Claim} (a : Amendment) (law : AdmissionLaw s) (grants : GrantLaw s)
    (hw : s.admission.walk = some w) (subject : w.subject = .amend h) (hr : s.resolve h = some c) (occupies : c.state.occupying = true) :
    Closing s (raiseFlag .admitDone (passAmendment h.slot c a (leaveQueue s))) := by
  have leaves : Leaves (.amend h) s (reshaped h (amendedClaim c a) s) := {
    queue := rfl
    walk := rfl
    gen := reshaped_gen _
    others := fun j other => by
      rw [reshaped_claimAt, if_neg]
      rintro rfl
      exact other rfl
    own := fun j x own hx => by
      cases own
      rw [reshaped_claimAt, if_pos rfl] at hx
      cases hx
      exact (occupying_not_waiting (c := amendedClaim c a) occupies).2
    zones := fun _ _ => rfl
    running := rfl }
  have waits := leaves.waits law hw subject
  have idle : (reshaped h (amendedClaim c a) s).admission.walk = none := rfl
  have amends := amendedState_amends (s := reshaped h (amendedClaim c a) s) (c := c) (d := amendedClaim c a) a
    (resolve_eq_some.mp (reshaped_at hr _)).2 rfl occupies
  have but := amends.grants (reshaped_grantLawBut hr (amendedClaim c a) grants)
  have kept (inside : grantOutside s h c.flyer a.newBox = false) := amended_grantLaw hr occupies grants inside
  have outside := (passed_like h c a s).outside h a.newBox
  have handle : (amendedState h.slot c a (reshaped h (amendedClaim c a) s)).handleAt h.slot = h := by
    refine Eq.trans ?_ (reshaped_handleAt hr (amendedClaim c a))
    unfold State.handleAt
    rw [(amends.follows.1 h.slot).1]
  have passed : passAmendment h.slot c a (leaveQueue s) =
      amendGrant h.slot c a (amendedState h.slot c a (reshaped h (amendedClaim c a) s)) := rfl
  have runs : (reshaped h (amendedClaim c a) s).running = s.running := rfl
  rw [passed, amendGrant_eq, handle, outside]
  generalize amendedState h.slot c a (reshaped h (amendedClaim c a) s) = u at *
  generalize reshaped h (amendedClaim c a) s = r at *
  obtain ⟨follows, goes, checking, running, -⟩ := amends
  have raised (v : State) (f : Follows r v) (g : WalkGoes r v) (same : SameChecking r v) (run : v.running = r.running) (law : GrantLaw v) :
      Closing s (raiseFlag .admitDone v) :=
    .onto waits idle (f.trans (raiseFlag_follows _ v)) (.trans_idle idle g (.of_eq rfl rfl rfl) f) (same.trans (.of_slots rfl))
      run runs (raiseFlag_grantLaw .admitDone law)
  by_cases gone : grantOutside s h c.flyer a.newBox = true
  · rw [if_pos gone]
    exact raised _ (follows.trans (removeGrant_follows _ _ u)) (.trans_idle idle goes (removeGrant_goes _ _ u) follows)
      (checking.trans (removeGrant_evolves _ _ u).sameChecking) ((removeGrant_frame _ _ u).running.trans running)
      (removeGrant_grantLaw_but _ _ but)
  · rw [if_neg gone]
    exact raised u follows goes checking running (kept (Bool.eq_false_iff.mpr gone))

/-! ## The reads (R36, R37, R39) -/

theorem delivered_closing {s : State} {w : Walk} (v : Option Verdict) (law : AdmissionLaw s) (grants : GrantLaw s)
    (hw : s.admission.walk = some w) : Closing s (raiseFlag .admitDone (deliverVerdict w.subject v (leaveQueue s)).1) := by
  have waits := law.waits
  have mem := List.mem_of_mem_head? (waits.head w hw)
  cases subject : w.subject with
  | zone z =>
    exact ((Leaves.zone z _ s).raised .admitDone).closing law hw subject grants
  | book h =>
    obtain ⟨c, hr, checks⟩ := waits.subject w h hw subject
    obtain ⟨c', m, D, delivered, wrote, settled⟩ := deliverVerdict_book_written v hr
    rw [delivered]
    refine ((Leaves.written wrote rfl settled).raised .admitDone).closing law hw subject
      (written_grantLaw wrote grants (resolve_eq_some.mp hr).2 fun in_force => ?_)
    rw [checks] at in_force
    cases in_force
  | amend h =>
    rw [subject] at mem
    obtain ⟨c, a, hr, occupying, ha⟩ := law.1.amend_named mem
    rcases deliverVerdict_amend_cases v hr ha with ⟨r, refused⟩ | passed
    · rw [refused]
      have wrote := Written.setClaim (leaveQueue s) h.slot { c with amend := none, verdict := some r }
      exact ((Leaves.written wrote rfl (occupying_not_waiting occupying).2).raised .admitDone).closing law hw subject
        (written_grantLaw wrote grants (resolve_eq_some.mp hr).2 fun _ => ⟨rfl, rfl, rfl⟩)
    · rw [passed]
      exact passed_closing a law grants hw subject hr occupying

theorem completeWalk_admits {s : State} {w : Walk} (v : Option Verdict) (asked : reads) (law : AdmissionLaw s) (grants : GrantLaw s)
    (hw : s.admission.walk = some w) : Admits reads s (completeWalk w.subject v s) :=
  (delivered_closing v law grants hw).admits fun silent => absurd asked silent

/-- The walk a place further. -/
theorem setWalkPos_admits {s : State} {w : Walk} (p : WalkPos) (asked : reads) (law : AdmissionLaw s) (grants : GrantLaw s)
    (hw : s.admission.walk = some w) : Admits reads s (setWalkPos w p s) := by
  have waits := law.waits
  have running := waits.runs w hw
  refine ⟨Waits.law ⟨waits.queue, ?_, ?_, ?_, ?_⟩ ?_, grants, fun _ moved => ?_, fun _ silent => absurd asked silent⟩
  · rintro w' ⟨⟩
    exact waits.head w hw
  · exact fun _ _ => running
  · intro i c hc checks
    obtain ⟨w', hw', book⟩ := waits.checking i c hc checks
    cases hw.symm.trans hw'
    exact ⟨_, rfl, book⟩
  · rintro w' h ⟨⟩ book
    exact waits.subject w h hw book
  · nofun
  · exact moved.elim (absurd rfl) (absurd ((runs_iff s).mpr running))

theorem readSlot_admits {s : State} {w : Walk} (i : Slot) (asked : reads) (law : AdmissionLaw s) (grants : GrantLaw s)
    (hw : s.admission.walk = some w) : Admits reads s (readSlot w i s) := by
  unfold readSlot
  split
  · exact completeWalk_admits _ asked law grants hw
  · split
    · exact setWalkPos_admits _ asked law grants hw
    · split
      · exact completeWalk_admits _ asked law grants hw
      · exact setWalkPos_admits _ asked law grants hw

theorem readZone_admits {s : State} {w : Walk} (z : Zone) (asked : reads) (law : AdmissionLaw s) (grants : GrantLaw s)
    (hw : s.admission.walk = some w) : Admits reads s (readZone w z s) := by
  unfold readZone
  split
  · exact completeWalk_admits _ asked law grants hw
  · split
    · exact setWalkPos_admits _ asked law grants hw
    · exact completeWalk_admits _ asked law grants hw

end Sys2Proof.Machine
end

section
/-! PROOF. No grant of a CLOSED or LOST channel, under every effect (R19, R88, R96). -/

namespace Sys2Proof.Machine

/-! ## Channels as they were, and no grant begun -/

/-- From s to t the channels keep their states, and no grant begins. -/
structure Fades (s t : State) : Prop where
  state : ∀ c : Flyer, t.channels[c].state = s.channels[c].state
  fewer : ∀ f : Flyer, (t.grantOf f).isSome = true → (s.grantOf f).isSome = true

theorem Fades.refl (s : State) : Fades s s := ⟨fun _ => rfl, fun _ => id⟩

theorem Fades.trans {s t u : State} (h : Fades s t) (k : Fades t u) : Fades s u :=
  ⟨fun c => (k.state c).trans (h.state c), fun f => h.fewer f ∘ k.fewer f⟩

theorem Dwindles.fades {s t : State} (h : Dwindles s t) : Fades s t := ⟨fun c => (h.channel c).1, h.fewer⟩

theorem ClaimFrame.fades {s t : State} (h : ClaimFrame s t) : Fades s t := h.dwindles.fades

theorem Fades.law {s t : State} (h : Fades s t) (law : LostLaw s) : LostLaw t := by
  intro f down
  rw [h.state] at down
  refine Classical.byContradiction fun live => ?_
  have before := h.fewer f (Option.isSome_iff_ne_none.mpr live)
  rw [law f down] at before
  cases before

/-- A channel written in a state of its own. -/
theorem lostLaw_setChannel {s : State} {c : Flyer} {r : Channel} (law : LostLaw s)
    (fits : (r.state = .closed ∨ r.state = .lost) → s.grantOf c = none) : LostLaw (s.setChannel c r) := by
  intro f down
  rw [setChannel_get] at down
  split at down
  · next same =>
    subst same
    exact fits down
  · exact law f down

theorem lostLaw_of_none {s : State} (none : ∀ f : Flyer, s.grantOf f = .none) : LostLaw s := fun f _ => none f

theorem CommandEffect.lostLaw {s t : State} (h : CommandEffect s t) (law : LostLaw s) : LostLaw t := by
  cases h with
  | none => exact law
  | shown | enabled | cleared | autoClear | alertEmptied | supplyEmptied | protectSet | breachCleared | bound | unbound
  | templateStored | templateEvicted | templateDropped | templateLocked => exact law
  | reopened => exact lostLaw_setChannel law fun down => by rcases down with down | down <;> cases down
  | claimFreed => exact ((freeSlot_frame _ s).trans (closeEvent_frame _ _ _)).fades.law law
  | @claimHeld i c ended =>
    refine Fades.law ?_ law
    refine Fades.trans ?_ (closeEvent_frame _ _ _).fades
    split
    · exact (moveClaim_frame _ _ s).fades.trans (removeGrant_dwindles _ _ _).fades
    · exact (moveClaim_frame _ _ s).fades
  | resumedOverlap => exact ((moveClaim_frame _ _ s).trans ((raiseFlag_frame _ _).trans (closeEvent_frame _ _ _))).fades.law law
  | resumedActive | resumedOverrun => exact ((moveClaim_frame _ _ s).trans (closeEvent_frame _ _ _)).fades.law law
  | cancelled => exact ((freeSlot_frame _ s).trans ((withdrawEntry_frame _ _).trans (closeEvent_frame _ _ _))).fades.law law
  | booked => exact (acceptBooking_frame _ _ s).fades.law law
  | fired k w => exact (acceptBooking_frame _ _ (accessWay k w s)).fades.law law
  | amended => exact (acceptAmend_frame _ _ _ s).fades.law law
  | @zoneRequested z area => exact ((setAdmission_frame (s.setZone z _) _).trans (closeEvent_frame _ _ _)).fades.law law
  | zoneEmptied z => exact ((withdrawEntry_frame _ (s.setZone z _)).trans (closeEvent_frame _ _ _)).fades.law law
  | holdPushed src => exact ((pushHold_dwindles src true s).fades.trans (closeEvent_frame _ _ _).fades).law law
  | holdReleased src =>
    rw [removeHold_eq]
    exact law
  | clockLoaded => exact (jumpEvent_dwindles _).fades.law law
  | sourceSelected src =>
    unfold selectSource
    split <;> exact law
  | clockSkipped => exact ((jumpEvent_dwindles _).trans (endClock_dwindles _)).fades.law law

/-! ## The events -/

/-- From s to t the channels alone changed, and not in their states. -/
def ChannelsHeard (s t : State) : Prop := ∃ channels, t = { s with channels := channels } ∧ ∀ c : Flyer, channels[c].state = s.channels[c].state

theorem ChannelsHeard.refl (s : State) : ChannelsHeard s s := ⟨s.channels, rfl, fun _ => rfl⟩

theorem ChannelsHeard.trans {s t u : State} (h : ChannelsHeard s t) (k : ChannelsHeard t u) : ChannelsHeard s u := by
  obtain ⟨_, rfl, states⟩ := h
  obtain ⟨channels, rfl, states'⟩ := k
  exact ⟨channels, rfl, fun c => (states' c).trans (states c)⟩

theorem setChannel_heard {s : State} {ch : Flyer} {r : Channel} (state : r.state = s.channels[ch].state) : ChannelsHeard s (s.setChannel ch r) := by
  refine ⟨(s.setChannel ch r).channels, rfl, fun c => ?_⟩
  rw [setChannel_get]
  split
  · next same => exact same ▸ state
  · rfl

theorem hearByte_heard (ch : Flyer) (b : Byte) (s : State) : ChannelsHeard s (hearByte ch b s) := by
  have heard : ChannelsHeard s (setReceiver ch (s.channels[ch].rx.atByte.hear b) s) := setChannel_heard rfl
  unfold hearByte
  dsimp only
  split
  · refine heard.trans ?_
    unfold admitFrame
    split
    · exact setChannel_heard rfl
    · exact .refl _
  · exact heard

/-- Bytes heard leave all but the channels, and of those the states (R80, R82). -/
theorem hearBytes_heard (ch : Flyer) (bytes : List Byte) (last : Byte) (s : State) : ChannelsHeard s (hearBytes ch bytes last s) := by
  have met : ChannelsHeard s (setReceiver ch (s.channels[ch].rx.before (Config.byteTime * bytes.length)) s) := setChannel_heard rfl
  exact (met.trans (foldl_frame ChannelsHeard .refl (fun _ _ _ => .trans) (fun t b => hearByte ch b t) (fun t b => hearByte_heard ch b t)
    bytes _)).trans (hearByte_heard ch last _)

theorem elapse_fades (d : Nat) (s : State) : Fades s (elapse d s) :=
  ⟨elapse_channelState d s, fun f => by rw [elapse_grantOf_isSome]; exact id⟩

theorem sampleLines_fades (flag : Bool) (s : State) : Fades s (sampleLines flag s) := by
  have ring_sampled (t : State) : Fades t (if t.inputs.ring then takeRing flag t else t) := by
    split
    · exact (pushHold_dwindles _ _ t).fades
    · exact .refl t
  have stop_sampled : Fades s (if s.inputs.stop then takeStop flag s else s) := by
    split
    · have alerted (u : State) : Fades u (recordAlert .stop u) := ⟨fun _ => rfl, fun _ => id⟩
      exact (pushHold_dwindles .stop flag s).fades.trans (alerted _)
    · exact .refl s
  exact stop_sampled.trans (ring_sampled _)

/-- An ASK granted is of a channel that is neither CLOSED nor LOST (R82, R96). -/
theorem answerAsk_lostLaw {ch : Flyer} {target : Cell} {s : State} (not_closed : s.channels[ch].state ≠ .closed) (law : LostLaw s) :
    LostLaw (answerAsk ch target s) := by
  unfold answerAsk
  split
  · next kind origin i granted =>
    have not_lost : s.channels[ch].state ≠ .lost := by
      intro lost
      unfold judgeAsk at granted
      rw [lost] at granted
      split at granted
      · cases granted
      · split at granted <;> cases granted
    intro f down
    have state : (issueGrant ch kind origin target i s).channels[f].state = s.channels[f].state := by
      have channel : (issueGrant ch kind origin target i s).channels[f] = if ch = f then
          { s.channels[ch] with out := s.channels[ch].out ++ [.grant (issuedGrant ch kind origin target i s).seq target kind] }
        else s.channels[f] := setChannel_get _ ch f _
      rw [channel]
      split
      · next same => exact same ▸ rfl
      · rfl
    rw [state] at down
    rw [issueGrant_grantOf, if_neg]
    · exact law f down
    · rintro rfl
      exact down.elim not_closed not_lost
  · next r _ => exact lostLaw_setChannel law fun down => law ch down

theorem served_not_closed {ch : Flyer} {s : State} (granted : s.grantsChannel ch = true) : s.channels[ch].state ≠ .closed := by
  unfold State.grantsChannel at granted
  rw [Bool.and_eq_true, decide_eq_true_eq] at granted
  have waits : s.channels[ch].waiting = true := List.find?_some (p := fun c : Flyer => s.channels[c].waiting) granted.2
  unfold Channel.waiting at waits
  split at waits
  · exact of_decide_eq_true ((Bool.and_eq_true _ _ |>.mp waits).1)
  · exact of_decide_eq_true ((Bool.and_eq_true _ _ |>.mp waits).1)
  · cases waits
  · cases waits

theorem restartBlocks_ungranted (s : State) (f : Flyer) : (restartBlocks s).grantOf f = none := (haltBlocks_permitsLaw s).1 f

theorem EventEffect.lostLaw {reads : Prop} {s t : State} (h : EventEffect reads s t) (law : LostLaw s) : LostLaw t := by
  cases h with
  | none => exact law
  | time d | fellBack d | requestAbandoned d => exact (elapse_fades d s).law law
  | unheard ch d =>
    have timed := (elapse_fades d s).law law
    exact lostLaw_setChannel timed fun down => timed ch down
  | late ch d =>
    exact lostLaw_setChannel ((elapse_fades d s).law law) fun down => by rcases down with down | down <;> cases down
  | heard ch bytes last =>
    obtain ⟨channels, heard, states⟩ := hearBytes_heard ch bytes last s
    rw [heard]
    exact Fades.law (s := s) ⟨states, fun _ => id⟩ law
  | misheard ch | discarded ch | sent ch => exact lostLaw_setChannel law fun down => law ch down
  | stopLevel | ringLevel | rigLock | cellFollowed | resetLevel => exact law
  | hello ch id =>
    have dropped : LostLaw (dropHead ch s) := lostLaw_setChannel law fun down => law ch down
    have queued {u : State} (o : OutFrame) (hu : LostLaw u) : LostLaw (queueFrame ch o u) := lostLaw_setChannel hu fun down => hu ch down
    unfold judgeHello
    split
    · refine queued _ ?_
      unfold welcomeChannel
      split
      · exact lostLaw_setChannel dropped fun down => by rcases down with down | down <;> cases down
      · exact dropped
    · exact queued _ dropped
  | lost ch d =>
    have timed := (elapse_fades d s).law law
    refine (closeEvent_frame _ _ _).fades.law fun f down => ?_
    have recorded : LostLaw (elapse d s) := timed
    by_cases same : ch = f
    · rw [removeGrant_grantOf, if_pos same]
    · rw [removeGrant_grantOf, if_neg same]
      refine recorded f ?_
      rw [((removeGrant_dwindles ch .lost _).channel f).1] at down
      have kept : (recordAlert (.lost ch) ((elapse d s).setChannel ch { (elapse d s).channels[ch] with state := .lost })).channels[f] =
          (elapse d s).channels[f] := (setChannel_get _ ch f _).trans (if_neg same)
      rw [kept] at down
      exact down
  | leaseExpired f d =>
    exact (closeEvent_frame _ _ _).fades.law ((removeGrant_dwindles _ _ _).fades.law ((elapse_fades d s).law law))
  | @asked ch x y z rest head granted =>
    have dropped : LostLaw (dropHead ch (serveChannel ch s)) := lostLaw_setChannel law fun down => law ch down
    refine answerAsk_lostLaw ?_ dropped
    have kept : (dropHead ch (serveChannel ch s)).channels[ch] = { s.channels[ch] with inbound := s.channels[ch].inbound.drop 1 } :=
      (setChannel_get _ ch ch _).trans (if_pos rfl)
    rw [kept]
    exact served_not_closed granted
  | @reported ch x y z flags rest head granted =>
    have dropped : LostLaw (dropHead ch (serveChannel ch s)) := lostLaw_setChannel law fun down => law ch down
    refine (closeEvent_frame _ _ _).fades.law ((reportOutcome_dwindles ch _ _ _ _).fades.law ?_)
    have spoken : LostLaw (channelReport ch (dropHead ch (serveChannel ch s))) := by
      refine lostLaw_setChannel dropped fun down => ?_
      dsimp only at down
      split at down
      · next lost => exact dropped ch (.inr lost)
      · rcases down with down | down <;> cases down
    exact spoken
  | slotRead => exact (readSlot_dwindles _ _ (serveWalk s)).fades.law law
  | zoneRead => exact (readZone_dwindles _ _ s).fades.law law
  | period t => exact (elapse_fades _ s).law law
  | tickedPeriod t =>
    have begun : LostLaw (nextPeriod t s) := (elapse_fades _ s).law law
    exact (sourceEvent_dwindles _).fades.law begun
  | pulse => exact (sourceEvent_dwindles _).fades.law law
  | stopped =>
    have pushed := (pushHold_dwindles .stop true (setStopLine true s)).fades.law law
    exact (closeEvent_frame _ _ _).fades.law (t := closeEvent false s (takeStop true (setStopLine true s))) pushed
  | rung => exact (closeEvent_frame _ _ _).fades.law ((pushHold_dwindles .ring true (setRingLine true s)).fades.law law)
  | backupEntry =>
    exact lostLaw_of_none (s := setSupplyState .backup (recordEntry (quietChannels (haltBlocks s)))) (haltBlocks_permitsLaw s).1
  | returnOfMain =>
    have restarted : LostLaw _ := lostLaw_of_none (restartBlocks_ungranted (setSupplyState .main (recordReturn s)))
    have timed : LostLaw (returnTimers (restartBlocks (setSupplyState .main (recordReturn s)))) := by
      unfold returnTimers
      split
      · exact restarted
      · exact (sampleLines_fades false _).law restarted
    exact ((clearFlagSet_frame _ _).trans ((raiseFlag_frame _ _).trans (beginHead_frame _))).fades.law timed
  | resetAsserted =>
    exact ((clearFlagSet_frame _ _).trans (raiseFlag_frame _ _)).fades.law
      (lostLaw_of_none (restartBlocks_ungranted (setResetLine true s)))
  | resetDeasserted =>
    exact (beginHead_frame _).fades.law ((sampleLines_fades true (startTimers (setResetLine false s))).law law)
  | coldHeld => exact lostLaw_of_none (s := coldValues s) fun _ => congrArg GrantRec.live (Vector.getElem_replicate _)
  | coldStarted =>
    have cold : LostLaw (coldValues s) := lostLaw_of_none fun _ => congrArg GrantRec.live (Vector.getElem_replicate _)
    exact (beginHead_frame _).fades.law ((sampleLines_fades false (startTimers (coldValues s))).law cold)
  | poweredOff | cellLost => exact lostLaw_of_none fun _ => congrArg GrantRec.live (Vector.getElem_replicate _)

theorem StepEffect.lostLaw {reads : Prop} {s t : State} (h : StepEffect reads s t) (law : LostLaw s) : LostLaw t := by
  cases h with
  | answered sel x _ _ effect =>
    have kept := effect.lostLaw law
    cases sel <;> exact kept
  | @opened sel => cases sel <;> exact law
  | fell sel => cases sel <;> exact law
  | @rose u sel effect =>
    have shown : LostLaw u := by
      rcases effect with rfl | rfl | ⟨m, rfl⟩ <;> exact law
    cases sel <;> exact shown
  | event effect => exact effect.lostLaw law

end Sys2Proof.Machine
end

section
/-! PROOF. What the halts, the restarts and the cold start keep of the admission: the walk dropped with its entry kept, and the head's walk begun when the part runs again (R17, R49, R177, R179, R180). -/

namespace Sys2Proof.Machine

variable {reads : Prop}

/-! ## States with no walk in flight -/

/-- The tables as they were, and no walk in flight before or after. -/
theorem Waits.idle_same {s t : State} (h : Waits s) (idle : s.admission.walk = none) (slots : t.slots = s.slots) (zones : t.zones = s.zones)
    (admission : t.admission = s.admission) : Waits t where
  queue := by
    obtain ⟨room, apart, fits⟩ := h.queue
    refine ⟨by rwa [admission], by rwa [admission], fun e he => ?_⟩
    rw [admission] at he
    rw [subjectFits_congr slots zones]
    exact fits e he
  head := fun _ hw => nomatch (congrArg Admission.walk admission |>.trans idle).symm.trans hw
  runs := fun _ hw => nomatch (congrArg Admission.walk admission |>.trans idle).symm.trans hw
  subject := fun _ _ hw => nomatch (congrArg Admission.walk admission |>.trans idle).symm.trans hw
  checking := fun i c hc checks => by
    rw [claimAt_congr slots] at hc
    obtain ⟨w, hw, -⟩ := h.checking i c hc checks
    cases idle.symm.trans hw

theorem grantLaw_of_none {s : State} (none : ∀ f : Flyer, s.grantOf f = .none) : GrantLaw s := fun f => by
  rw [none f]
  rfl

/-- The part that ran no walk begins the head's. -/
theorem Waits.begins {s u : State} (h : Waits u) (idle : u.admission.walk = none) (idle_before : s.admission.walk = none)
    (none : ∀ f : Flyer, u.grantOf f = .none) : Admits reads s (beginHead u) where
  kept := h.begun
  grants := beginHead_grantLaw h.queue.2.2 (grantLaw_of_none none)
  headWalked := fun runs _ => by
    have running := (beginHead_frame u).running.symm.trans ((runs_iff _).mp runs)
    exact beginHead_headWalked running idle h.queue.2.2
  goesOn := fun _ _ _ hw => nomatch idle_before.symm.trans hw

/-- The part does not run. -/
theorem Waits.halts {s u : State} (h : Waits u) (halted : u.running = false) (none : ∀ f : Flyer, u.grantOf f = .none) : Admits reads s u where
  kept := h.law fun runs => absurd (halted.symm.trans runs) Bool.false_ne_true
  grants := grantLaw_of_none none
  headWalked := fun runs => absurd (halted.symm.trans ((runs_iff _).mp runs)) Bool.false_ne_true
  goesOn := fun runs => absurd (halted.symm.trans ((runs_iff _).mp runs)) Bool.false_ne_true

theorem AdmissionLaw.idle {s : State} (law : AdmissionLaw s) (halted : s.running = false) : s.admission.walk = none := by
  cases hw : s.admission.walk with
  | none => rfl
  | some w => exact absurd (halted.symm.trans (law.waits.runs w hw)) Bool.false_ne_true

theorem GrantsOnlyFree.none {s : State} (free : GrantsOnlyFree s) (halted : s.running = false) (f : Flyer) : s.grantOf f = none := by
  refine Classical.byContradiction fun live => ?_
  exact absurd (halted.symm.trans (free f (Option.isSome_iff_ne_none.mpr live)).1) Bool.false_ne_true

/-! ## A halt (R17, R49) -/

theorem haltBlocks_idle (s : State) : (haltBlocks s).admission.walk = none ∧ ∀ f : Flyer, (haltBlocks s).grantOf f = none := by
  obtain ⟨-, -, -, -, walk, -⟩ := (haltBlocks_halted s).halt
  exact ⟨walk rfl, (haltBlocks_permitsLaw s).1⟩

theorem haltBlocks_slots (s : State) : (haltBlocks s).slots = (haltedBlocks s).slots := by
  obtain ⟨_, _, _, took⟩ := haltBlocks_took s
  rw [took]

/-- What a halt makes of a slot's claim (R17). -/
theorem haltBlocks_claimAt (s : State) (j : Slot) :
    (haltBlocks s).claimAt j = (s.claimAt j).map fun c => { c with state := c.state.restarted } :=
  (claimAt_congr (haltBlocks_slots s) j).trans (haltedBlocks_claimAt s j)

theorem haltBlocks_resolve {s : State} {h : Handle} {c : Claim} (hc : s.resolve h = some c) :
    (haltBlocks s).resolve h = some { c with state := c.state.restarted } := by
  obtain ⟨gen, claim⟩ := resolve_eq_some.mp hc
  refine resolve_eq_some.mpr ⟨(gen_congr (haltBlocks_slots s) _).trans ((haltedBlocks_gen s _).trans gen), ?_⟩
  rw [haltBlocks_claimAt, claim]
  rfl

/-- A halt keeps every entry with its subject: what waited is QUEUED, and what occupied still does. -/
theorem haltBlocks_waits {s : State} (law : QueueLaw s) : Waits (haltBlocks s) := by
  obtain ⟨-, -, -, queue, walk, -, -, -, -, -, -, -, -, -, -, zones, -⟩ := (haltBlocks_halted s).halt
  have idle := walk rfl
  obtain ⟨room, apart, fits⟩ := law
  have unwalked {w : Walk} (hw : (haltBlocks s).admission.walk = some w) : False := by
    rw [idle] at hw
    cases hw
  refine ⟨⟨by rwa [queue], by rwa [queue], fun e he => ?_⟩, fun _ hw => (unwalked hw).elim, fun _ hw => (unwalked hw).elim,
    fun i c hc checks => ?_, fun _ _ hw => (unwalked hw).elim⟩
  · rw [queue] at he
    have fit := fits e he
    cases e with
    | book h =>
      obtain ⟨c, hc, waits⟩ := Option.any_eq_true _ _ |>.mp fit
      simp only [Bool.or_eq_true, decide_eq_true_eq] at waits
      have queued : c.state.restarted = .queued := by rcases waits with state | state <;> rw [state] <;> rfl
      simp only [subjectFits, haltBlocks_resolve hc, Option.any_some, queued]
      rfl
    | amend h =>
      obtain ⟨c, hc, pending⟩ := Option.any_eq_true _ _ |>.mp fit
      rw [Bool.and_eq_true] at pending
      have occupying : c.state.restarted.occupying = true := by
        have before := pending.1
        cases state : c.state with
        | active | overrun => rfl
        | booked | held | queued | checking | refused =>
          rw [state] at before
          exact before
      simp only [subjectFits, haltBlocks_resolve hc, Option.any_some, occupying, Bool.true_and]
      exact pending.2
    | zone z =>
      simp only [subjectFits, zones]
      exact fit
  · exfalso
    rw [haltBlocks_claimAt] at hc
    obtain ⟨d, -, rfl⟩ := Option.map_eq_some_iff.mp hc
    have never : d.state.restarted ≠ .checking := by
      cases d.state <;> nofun
    exact never checks

/-! ## The sampling of the lines (R123) -/

/-- With no grant live, the sampling leaves the tables. -/
theorem sampleLines_idle (flag : Bool) {s : State} (none : ∀ f : Flyer, s.grantOf f = .none) : (sampleLines flag s).slots = s.slots ∧
    (sampleLines flag s).zones = s.zones ∧ (sampleLines flag s).admission = s.admission ∧ ∀ f : Flyer, (sampleLines flag s).grantOf f = .none := by
  obtain ⟨⟨_, _, _, took⟩, -⟩ := sampleLines_took (flag := flag) none
  rw [took]
  exact ⟨rfl, rfl, rfl, none⟩

/-- The run begun from a state with no walk and no grant. -/
theorem sampled_begins {s u : State} (flag : Bool) (h : Waits u) (idle : u.admission.walk = none) (idle_before : s.admission.walk = none)
    (none : ∀ f : Flyer, u.grantOf f = .none) : Admits reads s (beginHead (sampleLines flag u)) := by
  obtain ⟨slots, zones, admission, ungranted⟩ := sampleLines_idle flag none
  exact (h.idle_same idle slots zones admission).begins (by rw [admission, idle]) idle_before ungranted

/-! ## The supplies -/

theorem restartBlocks_same (s : State) : (restartBlocks s).slots = (haltBlocks s).slots ∧ (restartBlocks s).zones = (haltBlocks s).zones ∧
    (restartBlocks s).admission = (haltBlocks s).admission ∧ ∀ f : Flyer, (restartBlocks s).grantOf f = (haltBlocks s).grantOf f := by
  unfold restartBlocks
  generalize haltBlocks s = u
  exact ⟨rfl, rfl, rfl, fun _ => rfl⟩

theorem restartBlocks_idle {s : State} (law : QueueLaw s) : Waits (restartBlocks s) ∧ (restartBlocks s).admission.walk = none ∧
    ∀ f : Flyer, (restartBlocks s).grantOf f = none := by
  obtain ⟨idle, none⟩ := haltBlocks_idle s
  obtain ⟨slots, zones, admission, grants⟩ := restartBlocks_same s
  refine ⟨(haltBlocks_waits law).idle_same idle slots zones admission, ?_, fun f => (grants f).trans (none f)⟩
  rw [admission, idle]

theorem restartFlags_same (s : State) : (restartFlags s).slots = s.slots ∧ (restartFlags s).zones = s.zones ∧
    (restartFlags s).admission = s.admission ∧ (restartFlags s).running = s.running ∧ ∀ f : Flyer, (restartFlags s).grantOf f = s.grantOf f :=
  ⟨rfl, rfl, rfl, rfl, fun _ => rfl⟩

theorem backupEntry_same (u : State) : (setSupplyState .backup (recordEntry (quietChannels u))).slots = u.slots ∧
    (setSupplyState .backup (recordEntry (quietChannels u))).zones = u.zones ∧
    (setSupplyState .backup (recordEntry (quietChannels u))).admission = u.admission ∧
    (setSupplyState .backup (recordEntry (quietChannels u))).running = false ∧
    ∀ f : Flyer, (setSupplyState .backup (recordEntry (quietChannels u))).grantOf f = u.grantOf f :=
  ⟨rfl, rfl, rfl, rfl, fun _ => rfl⟩

theorem backupEntered_admits {s : State} (law : AdmissionLaw s) :
    Admits reads s (setSupplyState .backup (recordEntry (quietChannels (haltBlocks s)))) := by
  obtain ⟨idle, none⟩ := haltBlocks_idle s
  have waits := haltBlocks_waits law.1
  generalize haltBlocks s = u at *
  obtain ⟨slots, zones, admission, halted, grants⟩ := backupEntry_same u
  exact (waits.idle_same idle slots zones admission).halts halted fun f => (grants f).trans (none f)

theorem returnTimers_idle {s : State} (none : ∀ f : Flyer, s.grantOf f = .none) : (returnTimers s).slots = s.slots ∧
    (returnTimers s).zones = s.zones ∧ (returnTimers s).admission = s.admission ∧ ∀ f : Flyer, (returnTimers s).grantOf f = .none := by
  unfold returnTimers
  split
  · exact ⟨rfl, rfl, rfl, none⟩
  · have started : (startTimers s).slots = s.slots ∧ (startTimers s).zones = s.zones ∧ (startTimers s).admission = s.admission ∧
        ∀ f : Flyer, (startTimers s).grantOf f = .none := ⟨rfl, rfl, rfl, none⟩
    obtain ⟨slots, zones, admission, ungranted⟩ := started
    obtain ⟨slots', zones', admission', ungranted'⟩ := sampleLines_idle false ungranted
    exact ⟨slots'.trans slots, zones'.trans zones, admission'.trans admission, ungranted'⟩

/-- The run begun again at the return of MAIN: the timers start, the flags are raised, and the head's walk begins (R49, R182). -/
theorem returned_begins {s r : State} (waits : Waits r) (idle : r.admission.walk = none) (none : ∀ f : Flyer, r.grantOf f = .none)
    (idle_before : s.admission.walk = .none) : Admits reads s (beginHead (restartFlags (returnTimers r))) := by
  obtain ⟨slots, zones, admission, ungranted⟩ := returnTimers_idle none
  generalize returnTimers r = u at *
  obtain ⟨slots', zones', admission', -, grants'⟩ := restartFlags_same u
  generalize restartFlags u = v at *
  refine (waits.idle_same idle (slots'.trans slots) (zones'.trans zones) (admission'.trans admission)).begins ?_ idle_before
    fun f => (grants' f).trans (ungranted f)
  rw [admission', admission, idle]

theorem mainReturned_admits {s : State} (law : AdmissionLaw s) (backup : s.supply.state = .backup) :
    Admits reads s (beginHead (restartFlags (returnTimers (restartBlocks (setSupplyState .main (recordReturn s)))))) := by
  have halted : s.running = false := by
    unfold State.running
    rw [backup]
    rfl
  have recorded : QueueLaw (setSupplyState .main (recordReturn s)) := law.1
  obtain ⟨waits, idle, none⟩ := restartBlocks_idle recorded
  exact returned_begins waits idle none (law.idle halted)

theorem resetAsserted_admits {s : State} (law : AdmissionLaw s) : Admits reads s (restartFlags (restartBlocks (setResetLine true s))) := by
  obtain ⟨waits, idle, none⟩ := restartBlocks_idle (s := setResetLine true s) law.1
  have reset : (restartBlocks (setResetLine true s)).inputs.reset = true :=
    congrArg Inputs.reset (haltBlocks_halted (setResetLine true s)).inputs
  generalize restartBlocks (setResetLine true s) = r at *
  obtain ⟨slots, zones, admission, running, grants⟩ := restartFlags_same r
  refine (waits.idle_same idle slots zones admission).halts (running.trans ?_) fun f => (grants f).trans (none f)
  unfold State.running
  rw [reset]
  exact Bool.and_false _

theorem resetDeasserted_admits {s : State} (law : AdmissionLaw s) (free : GrantsOnlyFree s) (low : s.inputs.reset = true) :
    Admits reads s (beginRunning true (setResetLine false s)) := by
  have halted : s.running = false := by
    unfold State.running
    rw [low]
    exact Bool.and_false _
  have idle := law.idle halted
  exact sampled_begins true (u := startTimers (setResetLine false s)) (law.waits.idle_same idle rfl rfl rfl) idle idle (free.none halted)

theorem coldValues_waits (s : State) : Waits (coldValues s) ∧ (coldValues s).admission.walk = none ∧ ∀ f : Flyer, (coldValues s).grantOf f = none := by
  have free (i : Slot) : (coldValues s).claimAt i = none := congrArg SlotRec.claim (Vector.getElem_replicate _)
  refine ⟨⟨⟨Nat.zero_le _, List.Pairwise.nil, fun _ he => absurd he List.not_mem_nil⟩, fun _ hw => absurd hw nofun, fun _ hw => absurd hw nofun,
    fun i c hc => absurd ((free i).symm.trans hc) nofun, fun _ _ hw => absurd hw nofun⟩, rfl, fun f => ?_⟩
  exact congrArg GrantRec.live (Vector.getElem_replicate _)

theorem driveLines_untouched (s : State) : Untouched s (driveLines s) := ⟨rfl, rfl, rfl, rfl, id⟩

theorem coldStarted_admits {s : State} (law : AdmissionLaw s) (off : s.supply.state = .off) :
    Admits reads s (driveLines (beginRunning false (coldValues s))) := by
  have halted : s.running = false := by
    unfold State.running
    rw [off]
    rfl
  obtain ⟨waits, idle, none⟩ := coldValues_waits s
  refine Admits.after (driveLines_untouched _) ?_
  exact sampled_begins false (u := startTimers (coldValues s)) (waits.idle_same idle rfl rfl rfl) idle (law.idle halted) none

theorem coldHeld_admits {s : State} (low : s.inputs.reset = true) : Admits reads s (driveLines (stopTimers (coldValues s))) := by
  obtain ⟨waits, idle, none⟩ := coldValues_waits s
  refine (waits.idle_same (t := driveLines (stopTimers (coldValues s))) idle rfl rfl rfl).halts ?_ none
  have running : (driveLines (stopTimers (coldValues s))).running = (coldValues s).running := rfl
  rw [running]
  unfold State.running
  have reset : (coldValues s).inputs.reset = true := low
  rw [reset]
  exact Bool.and_false _

theorem powerOff_admits (s u : State) : Admits reads s (powerOff u) := by
  obtain ⟨waits, idle, none⟩ := coldValues_waits u
  exact (waits.idle_same (t := powerOff u) idle rfl rfl rfl).halts rfl none

end Sys2Proof.Machine
end

section
/-! PROOF. What every event keeps of the admission and the grants, and with the commands every step: O58. -/

namespace Sys2Proof.Machine

variable {reads : Prop}

/-! ## Real time and the channels -/

theorem elapse_untouched (d : Nat) (s : State) : Untouched s (elapse d s) where
  slots := elapse_slots d s
  zones := elapse_zones d s
  admission := elapse_admission d s
  running := elapse_running d s
  grants := fun law => by
    refine grantLaw_of law fun f g hg => ?_
    rw [elapse_grantOf] at hg
    have same {g₀ : Grant} (kept : g.claim = g₀.claim ∧ g.segment = g₀.segment ∧ g.kind = g₀.kind) (fits : grantFits s f g₀ = true) :
        grantFits (elapse d s) f g = true := by
      obtain ⟨claim, segment, kind⟩ := kept
      rw [grantFits_iff] at fits ⊢
      rw [resolve_congr (elapse_slots d s), claim, segment, kind]
      exact fits
    split at hg
    · obtain ⟨g₀, hg₀, rfl⟩ := Option.map_eq_some_iff.mp hg
      exact ⟨g₀, hg₀, same ⟨rfl, rfl, rfl⟩⟩
    · exact ⟨g, hg, same ⟨rfl, rfl, rfl⟩⟩

theorem setChannel_untouched (c : Flyer) (r : Channel) (s : State) : Untouched s (s.setChannel c r) := ⟨rfl, rfl, rfl, rfl, id⟩

theorem hearBytes_untouched (ch : Flyer) (bytes : List Byte) (last : Byte) (s : State) : Untouched s (hearBytes ch bytes last s) := by
  obtain ⟨channels, heard, -⟩ := hearBytes_heard ch bytes last s
  rw [heard]
  exact ⟨rfl, rfl, rfl, rfl, id⟩

theorem judgeHello_untouched (ch : Flyer) (id : Byte) (s : State) : Untouched s (judgeHello ch id s) := by
  unfold judgeHello welcomeChannel
  split
  · split
    · exact (setChannel_untouched _ _ s).trans (setChannel_untouched _ _ _)
    · exact setChannel_untouched _ _ s
  · exact setChannel_untouched _ _ s

/-! ## ASK (R97, R98, R107) -/

theorem segmentSlot_holds {s : State} {f : Flyer} {st : ClaimState} {seg : Box} {i : Slot} (found : s.segmentSlot f st seg = some i) :
    ∃ c, s.claimAt i = some c ∧ c.flyer = f ∧ c.state = st ∧ c.box.contains seg = true := by
  have holds := List.find?_some (p := fun i => (s.claimAt i).any (holdsSegment f st seg)) found
  obtain ⟨c, hc, fits⟩ := Option.any_eq_true _ _ |>.mp holds
  unfold holdsSegment at fits
  simp only [Bool.and_eq_true, decide_eq_true_eq] at fits
  exact ⟨c, hc, fits.1.1, fits.1.2, fits.2⟩

/-- A grant judged lies in an ACTIVE claim of its flyer, or is a DESCENT in an OVERRUN one (R97). -/
theorem judgeAsk_fits {f : Flyer} {target : Cell} {s : State} {kind : GrantKind} {origin : Cell} {i : Slot}
    (granted : judgeAsk f target s = .grant kind origin i) : ∃ c, s.claimAt i = some c ∧ c.flyer = f ∧ c.state.inForce = true ∧
      c.box.contains (segmentBox origin target) = true ∧ (c.state ≠ .overrun ∨ kind = .descent) := by
  have judged : judgeSegment f target s = .grant kind origin i := by
    unfold judgeAsk at granted
    split at granted
    · cases granted
    · split at granted
      · cases granted
      · split at granted
        · cases granted
        · split at granted
          · cases granted
          · split at granted
            · cases granted
            · exact granted
  unfold judgeSegment at judged
  split at judged
  · cases judged
  · split at judged
    · next found =>
      cases judged
      obtain ⟨c, hc, flyer, state, box⟩ := segmentSlot_holds found
      exact ⟨c, hc, flyer, by rw [state]; rfl, box, .inl (by rw [state]; nofun)⟩
    · next found =>
      split at judged
      · cases judged
        obtain ⟨c, hc, flyer, state, box⟩ := segmentSlot_holds found
        exact ⟨c, hc, flyer, by rw [state]; rfl, box, .inr rfl⟩
      · cases judged
    · cases judged

theorem answerAsk_untouched (f : Flyer) (target : Cell) (s : State) : Untouched s (answerAsk f target s) := by
  unfold answerAsk
  split
  · next kind origin i granted =>
    refine ⟨rfl, rfl, rfl, rfl, fun law k => ?_⟩
    rw [issueGrant_grantOf]
    split
    · next same =>
      subst same
      obtain ⟨c, hc, flyer, in_force, box, descends⟩ := judgeAsk_fits granted
      rw [Option.all_some, grantFits_iff]
      exact ⟨c, resolve_eq_some.mpr ⟨rfl, hc⟩, flyer, in_force, box, descends⟩
    · exact law k
  · exact setChannel_untouched _ _ s

/-! ## REPORT (R15, R16, R112) -/

/-- What a push frees was OVERRUN (R15). -/
theorem pushHold_grounds (src : HoldSource) (flag : Bool) (s : State) (j : Slot) : (pushHold src flag s).claimAt j = s.claimAt j ∨
    ((pushHold src flag s).claimAt j = none ∧ ∃ d, s.claimAt j = some d ∧ d.state = .overrun) := by
  have emptied (u : State) : (removeAllGrants u).claimAt j = u.claimAt j ∨
      ((removeAllGrants u).claimAt j = none ∧ ∃ d, u.claimAt j = some d ∧ d.state = .overrun) :=
    foldl_frame (fun a b => b.claimAt j = a.claimAt j ∨ (b.claimAt j = none ∧ ∃ d, a.claimAt j = some d ∧ d.state = .overrun))
      (fun _ => .inl rfl)
      (fun a b c h k => by
        rcases h with h | ⟨gone, freed⟩
        · rw [← h]
          exact k
        · rcases k with k | ⟨gone', -⟩
          · exact .inr ⟨k.trans gone, freed⟩
          · exact .inr ⟨gone', freed⟩)
      _ (fun t f => (removeGrant_grounds f .hold t j).imp_right fun ⟨gone, d, hd, _, overrun⟩ => ⟨gone, d, hd, overrun⟩) allFlyers u
  unfold pushHold
  split
  · exact .inl rfl
  · have frozen (u : State) : (freezeClock u).claimAt j = u.claimAt j := by
      rw [freeze_clock]
      rfl
    have raised : (if flag then raiseFlag .holdsChanged { s with holds := s.holds ++ [{ source := src, tick := s.now }] }
        else { s with holds := s.holds ++ [{ source := src, tick := s.now }] }).claimAt j = s.claimAt j := by
      split <;> rfl
    dsimp only
    split
    · rw [frozen, ← raised]
      exact emptied _
    · exact .inl raised

/-- What the breach response leaves OVERRUN it did not change (R112). -/
theorem breachStopped_overrun {f : Flyer} {s : State} {j : Slot} {d : Claim} (hd : (breachStopped f s).claimAt j = some d)
    (overrun : d.state = .overrun) : (breachStopped f s).claimAt j = s.claimAt j := by
  have breached : (breachStopped f s).claimAt j = ((removeGrant f .breach s).claimAt j).map (breachedClaim f) := breachClaims_at f _ j
  obtain ⟨x, hx, claim⟩ := Option.map_eq_some_iff.mp (breached.symm.trans hd)
  have unmoved : breachedClaim f x = x := by
    unfold breachedClaim at claim ⊢
    split at claim
    · subst claim
      cases overrun
    · next not_active =>
      split at claim
      · subst claim
        cases overrun
      · next not_overrun => rw [if_neg not_active, if_neg not_overrun]
  rcases removeGrant_grounds f .breach s j with same | ⟨gone, -⟩
  · rw [breached, ← same, hx, Option.map_some, unmoved]
  · rw [gone] at hx
    cases hx

/-- What the breach response is, but for the hold of an intrusion. -/
def breachNoted (f : Flyer) (kind : BreachKind) (cell : Cell) (s : State) : State :=
  recordAlert (breachAlert f kind) (writeBreach f kind cell (breachStopped f s))

section
variable (f : Flyer) (kind : BreachKind) (cell : Cell) (s : State)

theorem breachNoted_claimAt (j : Slot) : (breachNoted f kind cell s).claimAt j = (breachStopped f s).claimAt j := by
  unfold breachNoted
  generalize breachStopped f s = u
  rfl

theorem breachNoted_goes :
    Follows s (breachNoted f kind cell s) ∧ WalkGoes s (breachNoted f kind cell s) ∧ Evolves s (breachNoted f kind cell s) := by
  have stopped_follows : Follows s (breachStopped f s) := (removeGrant_follows f .breach s).trans (breachClaims_follows f _)
  have stopped_goes : WalkGoes s (breachStopped f s) :=
    (removeGrant_goes f .breach s).trans (breachClaims_goes f _) (removeGrant_follows f .breach s) (breachClaims_follows f _) fun j => by
      rcases removeGrant_grounds f .breach s j with same | ⟨gone, -⟩
      · exact .inl same
      · right
        have breached : (breachStopped f s).claimAt j = ((removeGrant f .breach s).claimAt j).map (breachedClaim f) := breachClaims_at f _ j
        rw [breached, gone]
        rfl
  have stopped_evolves : Evolves s (breachStopped f s) := (removeGrant_evolves f .breach s).trans (breachClaims_evolves f _)
  have noted (u : State) : Follows u (recordAlert (breachAlert f kind) (writeBreach f kind cell u)) ∧
      WalkGoes u (recordAlert (breachAlert f kind) (writeBreach f kind cell u)) ∧
      Evolves u (recordAlert (breachAlert f kind) (writeBreach f kind cell u)) :=
    ⟨.of_eq rfl rfl rfl rfl, .of_eq rfl rfl rfl, .of_slots rfl⟩
  obtain ⟨noted_follows, noted_goes, noted_evolves⟩ := noted (breachStopped f s)
  exact ⟨stopped_follows.trans noted_follows,
    stopped_goes.trans noted_goes stopped_follows noted_follows fun j => .inr (breachNoted_claimAt f kind cell s j),
    stopped_evolves.trans noted_evolves⟩

/-- The breach response books nothing, and changes each slot's claim at one of its steps at most. -/
theorem breachResponse_goes :
    Follows s (breachResponse f kind cell s) ∧ WalkGoes s (breachResponse f kind cell s) ∧ Evolves s (breachResponse f kind cell s) := by
  obtain ⟨follows, goes, evolves⟩ := breachNoted_goes f kind cell s
  have response : breachResponse f kind cell s =
      if kind = .intrude then pushHold .breach true (breachNoted f kind cell s) else breachNoted f kind cell s := rfl
  rw [response]
  split
  · obtain ⟨push_follows, push_goes, -⟩ := pushHold_frees .breach true (breachNoted f kind cell s)
    refine ⟨follows.trans push_follows, goes.trans push_goes follows push_follows fun j => ?_, evolves.trans (pushHold_evolves _ _ _)⟩
    rcases pushHold_grounds .breach true (breachNoted f kind cell s) j with same | ⟨-, d, hd, overrun⟩
    · exact .inr same
    · left
      rw [breachNoted_claimAt] at hd ⊢
      exact breachStopped_overrun hd overrun
  · exact ⟨follows, goes, evolves⟩

end

theorem breachResponse_running (f : Flyer) (kind : BreachKind) (cell : Cell) (s : State) :
    (breachResponse f kind cell s).running = s.running := by
  have noted (u : State) : (recordAlert (breachAlert f kind) (writeBreach f kind cell u)).running = u.running := rfl
  have stopped : (breachNoted f kind cell s).running = s.running :=
    (noted _).trans ((breachClaims_frame f _).running.trans (removeGrant_frame f .breach s).running)
  have response : breachResponse f kind cell s =
      if kind = .intrude then pushHold .breach true (breachNoted f kind cell s) else breachNoted f kind cell s := rfl
  rw [response]
  split
  · exact (pushHold_running _ _ _).trans stopped
  · exact stopped

/-- What a stored report sets off, closed. -/
theorem reportOutcome_admits (f : Flyer) (cell : Cell) (grounded : Bool) (v : Option BreachKind) {s : State} (law : AdmissionLaw s)
    (grants : GrantLaw s) (r : State) : Admits reads s (closeEvent false r (reportOutcome f cell grounded v s)) := by
  have kept := reportOutcome_grantLaw f cell grounded v grants
  unfold reportOutcome at kept ⊢
  cases v with
  | some kind =>
    obtain ⟨follows, goes, evolves⟩ := breachResponse_goes f kind cell s
    exact evolves.admits law follows goes (breachResponse_running f kind cell s) kept false r
  | none =>
    cases grounded with
    | true =>
      exact (groundedEvent_evolves f s).admits law (groundedEvent_follows f s) (groundedEvent_goes f s) (groundedEvent_frame f s).running kept
        false r
    | false => exact (Evolves.refl s).admits law (.refl s) (.refl s) rfl kept false r

theorem handleReport_admits (ch : Flyer) (cell : Cell) (grounded : Bool) {s : State} (law : AdmissionLaw s) (grants : GrantLaw s) (r : State) :
    Admits reads s (closeEvent false r (handleReport ch cell grounded s)) := by
  have stored : Untouched s (storeReport ch cell grounded (channelReport ch s)) := ⟨rfl, rfl, rfl, rfl, id⟩
  exact Admits.before stored (reportOutcome_admits ch cell grounded _ (stored.law law) (stored.grants grants) r)

/-! ## A lost channel, a lease run out, the show clock -/

/-- A grant removed, closed (R88, R101). -/
theorem removeGrant_admits (f : Flyer) (why : Reason) {s : State} (law : AdmissionLaw s) (grants : GrantLaw s) (r : State) :
    Admits reads s (closeEvent false r (removeGrant f why s)) :=
  (removeGrant_evolves f why s).admits law (removeGrant_follows f why s) (removeGrant_goes f why s) (removeGrant_frame f why s).running
    (removeGrant_grantLaw f why grants) false r

theorem loseChannel_admits (ch : Flyer) {s : State} (law : AdmissionLaw s) (grants : GrantLaw s) : Admits reads s (loseChannel ch s) := by
  have alerted (u : State) : Untouched u (recordAlert (.lost ch) (u.setChannel ch { u.channels[ch] with state := .lost })) :=
    ⟨rfl, rfl, rfl, rfl, id⟩
  exact Admits.before (alerted s) (removeGrant_admits ch .lost ((alerted s).law law) ((alerted s).grants grants) s)

theorem endClock_untouched (s : State) : Untouched s (endClock s) := by
  unfold endClock
  split <;> exact ⟨rfl, rfl, rfl, rfl, id⟩

theorem sourceEvent_admits {s : State} (law : AdmissionLaw s) (grants : GrantLaw s) : Admits reads s (sourceEvent s) := by
  unfold sourceEvent
  split
  · have counted : Untouched s (s.setClock { s.clock with count := s.clock.count + 1 }) := ⟨rfl, rfl, rfl, rfl, id⟩
    exact Admits.after (endClock_untouched _) (Admits.before counted (windowEvent_admits false (counted.law law) (counted.grants grants)))
  · exact .refl law grants

theorem nextPeriod_untouched (t : Nat) (s : State) : Untouched s (nextPeriod t s) :=
  (elapse_untouched _ s).trans ⟨rfl, rfl, rfl, rfl, id⟩

/-! ## Every event -/

theorem EventEffect.admits {s t : State} (h : EventEffect reads s t) (law : AdmissionLaw s) (grants : GrantLaw s) (free : GrantsOnlyFree s) :
    Admits reads s t := by
  have quiet {u : State} (same : Untouched s u) : Admits reads s u := same.admits law grants
  have elapsed (d : Nat) := elapse_untouched d s
  cases h with
  | none => exact .refl law grants
  | time d => exact quiet (elapsed d)
  | heard ch bytes last => exact quiet (hearBytes_untouched ch bytes last s)
  | unheard ch d => exact quiet ((elapsed d).trans (setChannel_untouched _ _ _))
  | misheard | discarded | sent => exact quiet (setChannel_untouched _ _ _)
  | hello ch id => exact quiet (Untouched.trans (setChannel_untouched _ _ s) (judgeHello_untouched ch id _))
  | late ch d =>
    have late (u : State) : Untouched u (lateChannel ch u) := ⟨rfl, rfl, rfl, rfl, id⟩
    exact quiet ((elapsed d).trans (late _))
  | lost ch d => exact Admits.before (elapsed d) (loseChannel_admits ch ((elapsed d).law law) ((elapsed d).grants grants))
  | leaseExpired f d => exact Admits.before (elapsed d) (removeGrant_admits f .expired ((elapsed d).law law) ((elapsed d).grants grants) _)
  | @asked ch x y z =>
    have taken : Untouched s (dropHead ch (serveChannel ch s)) := ⟨rfl, rfl, rfl, rfl, id⟩
    exact quiet (taken.trans (answerAsk_untouched ch _ _))
  | @reported ch x y z flags =>
    have taken : Untouched s (dropHead ch (serveChannel ch s)) := ⟨rfl, rfl, rfl, rfl, id⟩
    exact Admits.before taken (handleReport_admits ch _ _ (taken.law law) (taken.grants grants) s)
  | @slotRead w i asked walk =>
    have served : Untouched s (serveWalk s) := ⟨rfl, rfl, rfl, rfl, id⟩
    exact Admits.before served (readSlot_admits i asked (served.law law) (served.grants grants) walk)
  | @zoneRead w z asked walk => exact readZone_admits z asked law grants walk
  | period t => exact quiet (nextPeriod_untouched t s)
  | tickedPeriod t =>
    have next := nextPeriod_untouched t s
    exact Admits.before next (sourceEvent_admits (next.law law) (next.grants grants))
  | pulse request =>
    have pulsed : Untouched s (s.setClock { s.clock with request := request, source := .external, pulseWatch := some 0 }) :=
      ⟨rfl, rfl, rfl, rfl, id⟩
    exact Admits.before pulsed (sourceEvent_admits (pulsed.law law) (pulsed.grants grants))
  | fellBack d =>
    have fell (u : State) : Untouched u (fallBack u) := ⟨rfl, rfl, rfl, rfl, id⟩
    exact quiet ((elapsed d).trans (fell _))
  | requestAbandoned d =>
    have gone (u : State) : Untouched u (abandonRequest u) := ⟨rfl, rfl, rfl, rfl, id⟩
    exact quiet ((elapsed d).trans (gone _))
  | stopLevel | ringLevel | rigLock | cellFollowed => exact quiet ⟨rfl, rfl, rfl, rfl, id⟩
  | stopped =>
    have lined : Untouched s (setStopLine true s) := ⟨rfl, rfl, rfl, rfl, id⟩
    have noted (a : AlertRecord) (u : State) : Untouched u (alerted a u) := ⟨rfl, rfl, rfl, rfl, id⟩
    rw [takeStop_eq, closeEvent_alerted]
    exact Admits.after (noted _ _) (Admits.before lined (pushHold_admits .stop true (lined.law law) (lined.grants grants) s))
  | rung =>
    have lined : Untouched s (setRingLine true s) := ⟨rfl, rfl, rfl, rfl, id⟩
    exact Admits.before lined (pushHold_admits .ring true (lined.law law) (lined.grants grants) s)
  | backupEntry => exact backupEntered_admits law
  | returnOfMain backup => exact mainReturned_admits law backup
  | resetAsserted => exact resetAsserted_admits law
  | resetDeasserted _ low => exact resetDeasserted_admits law free low
  | resetLevel v off_main =>
    have halted (u : State) (supply : u.supply = s.supply) : u.running = false := by
      unfold State.running
      rw [supply, decide_eq_false off_main]
      rfl
    exact quiet ⟨rfl, rfl, rfl, (halted (setResetLine v s) rfl).trans (halted s rfl).symm, id⟩
  | coldHeld _ low => exact coldHeld_admits low
  | coldStarted off => exact coldStarted_admits law off
  | poweredOff => exact powerOff_admits s s
  | cellLost => exact powerOff_admits s _

theorem StepEffect.admits {s t : State} (h : StepEffect reads s t) (law : AdmissionLaw s) (grants : GrantLaw s) (free : GrantsOnlyFree s)
    (lost : LostLaw s) : Admits reads s t := by
  have port (u : State) (sel : Select) (x : Transaction) : Untouched u (u.setTx sel x) := by
    cases sel <;> exact ⟨rfl, rfl, rfl, rfl, id⟩
  have line (u : State) (sel : Select) (v : Bool) : Untouched u (u.setSelectLow sel v) := by
    cases sel <;> exact ⟨rfl, rfl, rfl, rfl, id⟩
  cases h with
  | answered sel x _ _ effect => exact Admits.after (port _ sel x) (effect.admits law grants lost)
  | @opened sel => exact ((line s sel true).trans (port _ sel .command)).admits law grants
  | fell sel => exact (line s sel true).admits law grants
  | @rose u sel effect =>
    have shown : Untouched s u := by
      rcases effect with rfl | rfl | ⟨m, rfl⟩ <;> exact ⟨rfl, rfl, rfl, rfl, id⟩
    exact (shown.trans ((line u sel false).trans (port _ sel .idle))).admits law grants
  | event effect => exact effect.admits law grants free

/-- Settles O58: every step keeps the laws of the admission and the grants, a head new or newly run has its walk at the beginning, and a walk goes on but for its own reads. -/
theorem queueAndGrantsKept : Obligations.QueueAndGrantsKept := by
  unfold Obligations.QueueAndGrantsKept
  intro s t queue walk checking subject grants free lost hs
  obtain ⟨rest, effect⟩ := step_effect hs
  have unfed : Untouched s { s with pending := rest } := ⟨rfl, rfl, rfl, rfl, id⟩
  obtain ⟨⟨queue', walk', checking', subject'⟩, grants', headWalked, goesOn⟩ :=
    Admits.before unfed (effect.admits (unfed.law ⟨queue, walk, checking, subject⟩) grants free lost)
  exact ⟨queue', walk', checking', subject', grants', (effect.permitsLaw (lines := False) ⟨False.elim, free⟩).2, effect.lostLaw lost, headWalked,
    fun runs no_walk no_zone => goesOn runs fun reading => reading.elim no_walk no_zone⟩

end Sys2Proof.Machine
end

section
/-! PROOF. What the close of an event makes of R26's law: a claim left HELD OVERLAP lies beside an overstaying one, and one that came out of OVERLAP lies beside none (R13, R26). -/

namespace Sys2Proof.Machine

/-! ## What a step keeps -/

/-- In t every HELD OVERLAP claim lies beside an overstaying one, and no claim that was HELD OVERLAP in s is ACTIVE beside one. -/
structure OverlapKept (s t : State) : Prop where
  law : OverlapLaw t
  released : ∀ (j : Slot) (c d : Claim), s.claimAt j = some c → c.state = .held .overlap false → t.claimAt j = some d →
    d.state = .active → ¬ OverstayedIn t d.flyer d.region

theorem overlapLaw_of {t : State} (h : ∀ (j : Slot) (c : Claim) (m : Bool), t.claimAt j = some c → c.state = .held .overlap m →
    m = false ∧ OverstayedIn t c.flyer c.region) : OverlapLaw t := by
  intro j
  cases hc : t.claimAt j with
  | none => rfl
  | some c =>
    rw [Option.all_some]
    split
    · next m held =>
      obtain ⟨unended, beside⟩ := h j c m hc held
      rw [unended, (overlapsOverstayer_iff _ _ _).mpr beside]
      rfl
    · rfl

theorem overstayedIn_congr {s t : State} (slots : t.slots = s.slots) (f : Flyer) (r : Box) : OverstayedIn t f r ↔ OverstayedIn s f r := by
  simp only [OverstayedIn, claimAt_congr slots]

theorem OverlapLaw.congr {s t : State} (law : OverlapLaw s) (slots : t.slots = s.slots) : OverlapLaw t :=
  overlapLaw_of fun j c m hc held => by
    rw [claimAt_congr slots] at hc
    rw [overstayedIn_congr slots]
    exact law.held hc held

theorem OverlapKept.before {s s' t : State} (h : OverlapKept s' t) (slots : s'.slots = s.slots) : OverlapKept s t :=
  ⟨h.law, fun j c d hc held => h.released j c d ((claimAt_congr slots j).trans hc) held⟩

theorem OverlapKept.after {s t t' : State} (h : OverlapKept s t) (slots : t'.slots = t.slots) : OverlapKept s t' where
  law := h.law.congr slots
  released := fun j c d hc held hd active => by
    rw [claimAt_congr slots] at hd
    rw [overstayedIn_congr slots]
    exact h.released j c d hc held hd active

theorem OverlapKept.refl {s : State} (law : OverlapLaw s) : OverlapKept s s :=
  ⟨law, fun j c d hc held hd active => by
    cases hc.symm.trans hd
    rw [held] at active
    cases active⟩

/-- An empty table keeps the law. -/
theorem overlapKept_of_none {s t : State} (none : ∀ j : Slot, t.claimAt j = .none) : OverlapKept s t :=
  ⟨overlapLaw_of fun j _ _ hc => absurd ((none j).symm.trans hc) nofun, fun j _ _ _ _ hd => absurd ((none j).symm.trans hd) nofun⟩

/-! ## Before the close -/

/-- From s to u a HELD OVERLAP claim is one of before or lies beside an overstaying claim, an overstaying one keeps its flyer and region unless the re-check is asked for, and one that came out of OVERLAP lies beside none. -/
structure Overlapping (asked : Bool) (s u : State) : Prop where
  came : ∀ (j : Slot) (c : Claim) (m : Bool), u.claimAt j = some c → c.state = .held .overlap m →
    (m = false ∧ OverstayedIn u c.flyer c.region) ∨ ∃ x, s.claimAt j = some x ∧ x.state = .held .overlap m ∧ x.flyer = c.flyer ∧ x.region = c.region
  shapes : asked = false → ∀ (i : Slot) (c d : Claim), s.claimAt i = some c → c.state.overstaying = true → u.claimAt i = some d →
    d.state.overstaying = true → d.flyer = c.flyer ∧ d.region = c.region
  released : ∀ (j : Slot) (c d : Claim), s.claimAt j = some c → c.state = .held .overlap false → u.claimAt j = some d →
    d.state = .active → ¬ OverstayedIn u d.flyer d.region

/-- What the walk of the next head leaves of a claim's state. -/
theorem claimAt_of_beginHead {u : State} {j : Slot} {c : Claim} (hc : (beginHead u).claimAt j = some c) (settled : c.state ≠ .checking) :
    u.claimAt j = some c := by
  rcases beginHead_cases u j with same | ⟨h, x, -, -, -, checks⟩
  · exact same.symm.trans hc
  · cases checks.symm.trans hc
    exact absurd rfl settled

theorem OverlapKept.begun {s u : State} (h : OverlapKept s u) (fits : HeadFits u) : OverlapKept s (beginHead u) where
  law := overlapLaw_of fun j c m hc held => by
    rw [OverstayedIn.beginHead_iff fits]
    exact h.law.held (claimAt_of_beginHead hc (by rw [held]; nofun)) held
  released := fun j c d hc held hd active => by
    rw [OverstayedIn.beginHead_iff fits]
    exact h.released j c d hc held (claimAt_of_beginHead hd (by rw [active]; nofun)) active

section
variable {asked : Bool} {s u : State} (h : Overlapping asked s u) (law : OverlapLaw s)
include h

theorem Overlapping.congr {v : State} (slots : v.slots = u.slots) : Overlapping asked s v where
  came := fun j c m hc held => by
    rw [claimAt_congr slots] at hc
    rw [overstayedIn_congr slots]
    exact h.came j c m hc held
  shapes := fun quiet i c d hc stays hd => by
    rw [claimAt_congr slots] at hd
    exact h.shapes quiet i c d hc stays hd
  released := fun j c d hc held hd active => by
    rw [claimAt_congr slots] at hd
    rw [overstayedIn_congr slots]
    exact h.released j c d hc held hd active

include law

theorem Overlapping.not_ended (i : Slot) (c : Claim) (hc : u.claimAt i = some c) : c.state ≠ .held .overlap true := by
  intro held
  rcases h.came i c true hc held with ⟨unended, -⟩ | ⟨x, hx, ended, -⟩
  · cases unended
  · exact law.not_ended i x hx ended

/-- With every overstaying claim in its place, what was HELD OVERLAP lies beside it yet. -/
theorem Overlapping.still (quiet : asked = false)
    (stay : ∀ (i : Slot) (c : Claim), s.claimAt i = some c → c.state.overstaying = true → ∃ d, u.claimAt i = some d ∧ d.state.overstaying = true) :
    OverlapKept s u where
  law := overlapLaw_of fun j c m hc held => by
    rcases h.came j c m hc held with beside | ⟨x, hx, held', flyer, region⟩
    · exact beside
    · obtain ⟨unended, i, e, he, overstays, other, overlaps⟩ := law.held hx held'
      obtain ⟨d, hd, overstays'⟩ := stay i e he overstays
      obtain ⟨same_flyer, same_region⟩ := h.shapes quiet i e d he overstays hd overstays'
      exact ⟨unended, i, d, hd, overstays', by rw [same_flyer, ← flyer]; exact other, by rw [same_region, ← region]; exact overlaps⟩
  released := h.released

/-- The re-check leaves HELD OVERLAP what lies beside an overstaying claim, and that alone. -/
theorem Overlapping.rechecked : OverlapKept s (recheck u) := by
  have unended := h.not_ended law
  have came {j : Slot} {c : Claim} (hc : (recheck u).claimAt j = some c) : ∃ x, u.claimAt j = some x ∧ Machine.rechecked u x = c := by
    rw [recheck_claimAt unended] at hc
    exact Option.map_eq_some_iff.mp hc
  refine ⟨overlapLaw_of fun j c m hc held => ?_, fun j c d hc held hd active => ?_⟩
  · obtain ⟨x, hx, same⟩ := came hc
    rw [OverstayedIn.recheck_iff unended, ← overlapsOverstayer_iff]
    unfold Machine.rechecked at same
    split at same
    · subst same
      dsimp only at held
      split at held <;> cases held
    · next stays =>
      subst same
      cases m with
      | true => exact absurd held (unended j x hx)
      | false =>
        refine ⟨rfl, ?_⟩
        refine Classical.byContradiction fun clear => ?_
        exact stays ⟨held, Bool.eq_false_iff.mpr clear⟩
  · obtain ⟨x, hx, same⟩ := came hd
    rw [OverstayedIn.recheck_iff unended]
    unfold Machine.rechecked at same
    split at same
    · next freed =>
      subst same
      rw [← overlapsOverstayer_iff]
      exact Bool.eq_false_iff.mp freed.2
    · subst same
      exact h.released j c x hc held hx active

/-- The close of an event keeps R26's law. -/
theorem Overlapping.closed (fits : HeadFits u) {r : State} (slots : r.slots = s.slots) : OverlapKept s (closeEvent asked r u) := by
  unfold closeEvent
  split
  · exact (h.rechecked law).begun (recheck_headFits fits)
  · next quiet =>
    rw [Bool.or_eq_true, not_or, Bool.not_eq_true, Bool.not_eq_true, ceasedOverstay_eq_false] at quiet
    refine (h.still law quiet.1 fun i c hc overstays => ?_).begun fits
    have before : r.overstayingAt i = true := by
      unfold State.overstayingAt
      rw [claimAt_congr slots, hc]
      exact overstays
    exact (Option.any_eq_true _ _).mp (quiet.2 i before).2

end

/-- What overstays occupies (R4). -/
theorem occupying_of_overstaying {st : ClaimState} (overstays : st.overstaying = true) : st.occupying = true := by
  cases st with
  | overrun | held => rfl
  | queued | checking | refused | booked | active => cases overstays

/-! ## Claims that move apart from OVERLAP -/

/-- A slot's claim is one of before, moved at most from an occupying state other than HELD OVERLAP to another such one, or it occupies nothing. -/
def apart (a b : Option Claim) : Prop := ∀ d, b = some d → d.state.occupying = false ∨ ∃ x, a = some x ∧ x.flyer = d.flyer ∧ x.box = d.box ∧
  (x.state = d.state ∨ x.state.occupying = true ∧ (∀ m, x.state ≠ .held .overlap m) ∧ ∀ m, d.state ≠ .held .overlap m)

theorem apart.refl (a : Option Claim) : apart a a := fun d hd => .inr ⟨d, hd, rfl, rfl, .inl rfl⟩

theorem apart.of_kept {a b : Option Claim} (h : b = a ∨ b = none) : apart a b := by
  rcases h with rfl | rfl
  · exact .refl _
  · nofun

theorem apart.trans {a b e : Option Claim} (h : apart a b) (k : apart b e) : apart a e := by
  intro d hd
  rcases k d hd with idle | ⟨x, hx, flyer, box, moves⟩
  · exact .inl idle
  · rcases h x hx with idle | ⟨y, hy, flyer', box', moves'⟩
    · rcases moves with same | ⟨occupying, -⟩
      · exact .inl (same ▸ idle)
      · exact absurd (idle.symm.trans occupying) Bool.false_ne_true
    · refine .inr ⟨y, hy, flyer'.trans flyer, box'.trans box, ?_⟩
      rcases moves with same | ⟨occupying, out, into⟩
      · rw [← same]
        exact moves'
      · rcases moves' with same | ⟨occupying, out', -⟩
        · exact .inr ⟨same ▸ occupying, same ▸ out, into⟩
        · exact .inr ⟨occupying, out', into⟩

/-- Every slot's claim moves apart from OVERLAP. -/
def Apart (s u : State) : Prop := ∀ j : Slot, apart (s.claimAt j) (u.claimAt j)

theorem Apart.refl (s : State) : Apart s s := fun _ => .refl _

theorem Apart.trans {s t u : State} (h : Apart s t) (k : Apart t u) : Apart s u := fun j => (h j).trans (k j)

theorem Apart.of_slots {s u : State} (h : u.slots = s.slots) : Apart s u := fun j => by
  rw [claimAt_congr h j]
  exact .refl _

theorem Apart.of_kept {s u : State} (h : ∀ j : Slot, u.claimAt j = s.claimAt j ∨ u.claimAt j = none) : Apart s u := fun j => .of_kept (h j)

theorem Apart.overlapping {s u : State} (h : Apart s u) (asked : Bool) : Overlapping asked s u where
  came := fun j c m hc held => by
    rcases h j c hc with idle | ⟨x, hx, flyer, box, same | ⟨-, -, into⟩⟩
    · rw [held] at idle
      cases idle
    · exact .inr ⟨x, hx, same.trans held, flyer, congrArg Box.region box⟩
    · exact absurd held (into m)
  shapes := fun _ i c d hc _ hd overstays => by
    rcases h i d hd with idle | ⟨x, hx, flyer, box, -⟩
    · exact absurd (idle.symm.trans (occupying_of_overstaying overstays)) Bool.false_ne_true
    · cases hc.symm.trans hx
      exact ⟨flyer.symm, congrArg Box.region box.symm⟩
  released := fun j c d hc held hd active => by
    rcases h j d hd with idle | ⟨x, hx, -, -, same | ⟨-, out, -⟩⟩
    · rw [active] at idle
      cases idle
    · cases hc.symm.trans hx
      rw [held, active] at same
      cases same
    · cases hc.symm.trans hx
      exact absurd held (out false)

end Sys2Proof.Machine
end

section
/-! PROOF. R26's law through the commands and the events that book nothing (R13, R15, R16, R26). -/

namespace Sys2Proof.Machine

/-! ## The head of the queue before the close -/

theorem headFits_of_subjects {s : State} (fits : SubjectsFit s) : HeadFits s := by
  intro h c head hc
  have fit := fits _ (List.mem_of_mem_head? head)
  simp only [subjectFits, hc, Option.any_some, Bool.or_eq_true, decide_eq_true_eq] at fit
  exact fit

theorem Follows.headFits {s u : State} (f : Follows s u) (queue : QueueLaw s) : HeadFits u :=
  headFits_of_subjects (f.2.2 queue.2.2).1

theorem Appends.headFits {e : Entry} {s u : State} (h : Appends e s u) : HeadFits u :=
  headFits_of_subjects fun x hx => by
    rw [h.queue, List.mem_append, List.mem_singleton] at hx
    rcases hx with old | rfl
    · exact h.fits x old
    · exact h.fit

theorem withdrawnClaim_headFits {s : State} {h : Handle} {c : Claim} (queue : QueueLaw s) (hr : s.resolve h = some c)
    (waiting : c.state = .queued ∨ c.state = .checking) : HeadFits (withdrawnClaim h s) := by
  refine headFits_of queue (fun e he => ?_) fun k d hd => ?_
  · rw [withdrawnClaim_queue queue hr waiting] at he
    exact (List.mem_filter.mp he).1
  · obtain ⟨gen, claim⟩ := resolve_eq_some.mp hd
    have slots : (withdrawnClaim h s).slots = (freeSlot h.slot s).slots := withdrawEntry_slots _ _
    rw [claimAt_congr slots, freeSlot_claimAt] at claim
    rw [gen_congr slots, freeSlot_gen] at gen
    split at claim
    · cases claim
    · exact ⟨d, resolve_eq_some.mpr ⟨gen, claim⟩, fun _ => rfl⟩

/-! ## Operations that move claims apart from OVERLAP -/

/-- An operation that moves claims apart from OVERLAP, closed. -/
theorem Apart.kept {s u : State} (h : Apart s u) (law : OverlapLaw s) (fits : HeadFits u) {asked : Bool} {r : State} (slots : r.slots = s.slots) :
    OverlapKept s (closeEvent asked r u) := (h.overlapping asked).closed law fits slots

theorem apart.moved {c : Claim} {st : ClaimState} (occupying : c.state.occupying = true) (out : ∀ m, c.state ≠ .held .overlap m)
    (into : ∀ m, st ≠ .held .overlap m) : apart (some c) (some { c with state := st }) := by
  rintro d ⟨⟩
  exact .inr ⟨c, rfl, rfl, rfl, .inr ⟨occupying, out, into⟩⟩

theorem freeSlot_apart (i : Slot) (s : State) : Apart s (freeSlot i s) := .of_kept fun j => by
  rw [freeSlot_claimAt]
  split
  · exact .inr rfl
  · exact .inl rfl

theorem moveClaim_apart {i : Slot} {st : ClaimState} {s : State} {c : Claim} (hc : s.claimAt i = some c) (occupying : c.state.occupying = true)
    (out : ∀ m, c.state ≠ .held .overlap m) (into : ∀ m, st ≠ .held .overlap m) : Apart s (moveClaim i st s) := fun j => by
  rw [moveClaim_claimAt]
  split
  · next same =>
    subst same
    rw [hc]
    exact .moved occupying out into
  · exact .refl _

theorem removeGrant_apart (f : Flyer) (why : Reason) (s : State) : Apart s (removeGrant f why s) :=
  .of_kept fun j => (removeGrant_grounds f why s j).imp_right And.left

theorem pushHold_apart (src : HoldSource) (flag : Bool) (s : State) : Apart s (pushHold src flag s) :=
  .of_kept fun j => (pushHold_grounds src flag s j).imp_right And.left

theorem groundedEvent_apart (f : Flyer) (s : State) : Apart s (groundedEvent f s) := .of_kept fun j => by
  rw [groundedEvent_claimAt]
  cases s.claimAt j with
  | none => exact .inl rfl
  | some c =>
    rw [Option.filter_some]
    split
    · exact .inl rfl
    · exact .inr rfl

theorem breachClaims_apart (f : Flyer) (s : State) : Apart s (breachClaims f s) := fun j => by
  rw [breachClaims_at]
  cases hc : s.claimAt j with
  | none => nofun
  | some c =>
    rw [Option.map_some]
    unfold breachedClaim
    split
    · next active => exact .moved (by rw [active.2]; rfl) (by rw [active.2]; nofun) nofun
    · split
      · next overrun => exact .moved (by rw [overrun.2]; rfl) (by rw [overrun.2]; nofun) nofun
      · exact .refl _

theorem breachResponse_apart (f : Flyer) (kind : BreachKind) (cell : Cell) (s : State) : Apart s (breachResponse f kind cell s) := by
  have stopped : Apart s (breachStopped f s) := (removeGrant_apart f .breach s).trans (breachClaims_apart f _)
  have noted : Apart s (breachNoted f kind cell s) := fun j => by
    rw [breachNoted_claimAt]
    exact stopped j
  have response : breachResponse f kind cell s =
      if kind = .intrude then pushHold .breach true (breachNoted f kind cell s) else breachNoted f kind cell s := rfl
  rw [response]
  split
  · exact noted.trans (pushHold_apart _ _ _)
  · exact noted

theorem commandHeld_apart {h : Handle} {c : Claim} {s : State} (hr : s.resolve h = some c) (begun : c.state = .active ∨ c.state = .overrun) :
    Apart s (commandHeld h c s) := fun j => by
  obtain ⟨own, others⟩ := commandHeld_claimAt hr j
  by_cases same : h.slot = j
  · rw [own same, ← same, (resolve_eq_some.mp hr).2]
    exact .moved (by rcases begun with state | state <;> rw [state] <;> rfl) (by rcases begun with state | state <;> rw [state] <;> nofun) nofun
  · exact .of_kept ((others same).imp_right And.left)

theorem withdrawnClaim_apart (h : Handle) (s : State) : Apart s (withdrawnClaim h s) :=
  (freeSlot_apart h.slot s).trans (.of_slots (withdrawEntry_slots _ _))

theorem bookingMade_apart (i : Slot) (b : Booking) (s : State) : Apart s (bookingMade i b s) := fun j d hd => by
  unfold State.claimAt at hd
  rw [bookingMade_slot] at hd
  split at hd
  · cases hd
    exact .inl rfl
  · exact .inr ⟨d, hd, rfl, rfl, .inl rfl⟩

theorem amendPending_apart {h : Handle} {c : Claim} (a : Amendment) {s : State} (hr : s.resolve h = some c) : Apart s (amendPending h c a s) :=
  fun j d hd => by
    rw [amendPending_claimAt] at hd
    split at hd
    · next same =>
      cases hd
      exact .inr ⟨c, same ▸ (resolve_eq_some.mp hr).2, rfl, rfl, .inl rfl⟩
    · exact .inr ⟨d, hd, rfl, rfl, .inl rfl⟩

/-! ## The windows (R11, R12, R14) -/

/-- The endings leave no claim HELD OVERLAP that was not so before (R12). -/
theorem endedClaim_overlap {s : State} {c d : Claim} {m : Bool} (ended : endedClaim s c = some d) (held : d.state = .held .overlap m) : d = c := by
  unfold endedClaim at ended
  split at ended
  · split at ended
    · split at ended
      · cases ended
      · cases ended
        cases held
    · cases ended
    · next cause not_overlap _ =>
      cases ended
      cases held
      exact (not_overlap rfl).elim
    · exact (Option.some.inj ended).symm
  · exact (Option.some.inj ended).symm

/-- A claim opened HELD OVERLAP lies beside an overstaying one (R11). -/
theorem openedClaim_overlap {s : State} {c : Claim} {m : Bool} (held : (openedClaim s c).state = .held .overlap m) :
    m = false ∧ s.overlapsOverstayer c.flyer c.region = true := by
  unfold openedClaim at held
  dsimp only at held
  split at held
  · cases held
  · split at held
    · next overlaps =>
      cases held
      exact ⟨rfl, overlaps⟩
    · cases held

/-- What lies beside an overstaying claim as the windows open lies beside it still. -/
theorem windowPart_overlapping (jump : Bool) (s : State) :
    Overlapping false s (allSlots.foldl (fun t i => bookedPart jump i t) (endings s)) := by
  have evolves := windowPart_evolves jump s
  have opened (j : Slot) : (allSlots.foldl (fun t i => bookedPart jump i t) (endings s)).claimAt j =
      ((endings s).claimAt j).bind (begunClaim jump (endings s)) := bookedParts_claimAt jump (endings s) j
  obtain ⟨-, -, overstayers⟩ := bookedParts_opening jump (endings s)
  have beside := overlapsOverstayer_congr overstayers
  have ended := endings_claimAt s
  generalize allSlots.foldl (fun t i => bookedPart jump i t) (endings s) = u at *
  generalize endings s = e at *
  refine ⟨fun j c m hc held => ?_, fun _ i c d hc overstays hd overstays' => ?_, fun j c d hc held hd active => ?_⟩
  · rw [opened] at hc
    obtain ⟨x, hx, begun⟩ := Option.bind_eq_some_iff.mp hc
    have same (h : x = c) : (m = false ∧ OverstayedIn u c.flyer c.region) ∨
        ∃ y, s.claimAt j = some y ∧ y.state = .held .overlap m ∧ y.flyer = c.flyer ∧ y.region = c.region := by
      subst h
      rw [ended] at hx
      obtain ⟨y, hy, ends⟩ := Option.bind_eq_some_iff.mp hx
      cases endedClaim_overlap ends held
      exact .inr ⟨x, hy, held, rfl, rfl⟩
    unfold begunClaim at begun
    split at begun
    · split at begun
      · cases begun
      · split at begun
        · cases begun
          obtain ⟨unended, overlaps⟩ := openedClaim_overlap held
          refine .inl ⟨unended, (overlapsOverstayer_iff _ _ _).mp ?_⟩
          exact (beside _ _).trans overlaps
        · exact same (Option.some.inj begun)
    · exact same (Option.some.inj begun)
  · rcases (evolves i).came d hd with same | ⟨x, hx, shape, -⟩
    · cases hc.symm.trans same
      exact ⟨rfl, rfl⟩
    · cases hc.symm.trans hx
      rw [shape]
      exact ⟨rfl, rfl⟩
  · rcases (evolves j).overlap c false hc held with stays | gone
    · cases stays.symm.trans hd
      rw [held] at active
      cases active
    · rw [gone] at hd
      cases hd

theorem windowEvent_overlapKept (jump : Bool) {s : State} (law : OverlapLaw s) (queue : QueueLaw s) : OverlapKept s (windowEvent jump s) :=
  (windowPart_overlapping jump s).closed law ((windowPart_settles jump s).headFits queue) rfl

/-! ## Every command -/

theorem holdPushed_overlapKept (src : HoldSource) (flag : Bool) {s : State} (law : OverlapLaw s) (queue : QueueLaw s) {r : State}
    (slots : r.slots = s.slots) : OverlapKept s (closeEvent false r (pushHold src flag s)) :=
  (pushHold_apart src flag s).kept law ((pushHold_frees src flag s).1.headFits queue) slots

/-- A claim resumed beside an overstaying one is HELD OVERLAP beside it (R22). -/
theorem resumed_overlapping {i : Slot} {s : State} {c : Claim} {cause : HeldCause} (at_slot : s.claimAt i = some c)
    (held : c.state = .held cause false) (overlaps : s.overlapsOverstayer c.flyer c.region = true) :
    Overlapping false s (moveClaim i (.held .overlap false) s) := by
  have moved (j : Slot) : (moveClaim i (.held .overlap false) s).claimAt j =
      if i = j then (s.claimAt i).map fun c => { c with state := .held .overlap false } else s.claimAt j :=
    moveClaim_claimAt i j _ s
  rw [at_slot, Option.map_some] at moved
  refine ⟨fun j d m hd overlap => ?_, fun _ j d e hd overstays he _ => ?_, fun j d e hd overlap he active => ?_⟩
  · rw [moved] at hd
    split at hd
    · cases hd
      cases overlap
      obtain ⟨k, e, he, overstays, other, region⟩ := (overlapsOverstayer_iff _ _ _).mp overlaps
      refine .inl ⟨rfl, k, e, ?_, overstays, other, region⟩
      rw [moved, if_neg]
      · exact he
      · rintro rfl
        cases at_slot.symm.trans he
        rw [held] at overstays
        cases overstays
    · exact .inr ⟨d, hd, overlap, rfl, rfl⟩
  · rw [moved] at he
    split at he
    · next same =>
      subst same
      cases at_slot.symm.trans hd
      cases he
      exact ⟨rfl, rfl⟩
    · cases hd.symm.trans he
      exact ⟨rfl, rfl⟩
  · rw [moved] at he
    split at he
    · cases he
      cases active
    · cases hd.symm.trans he
      rw [overlap] at active
      cases active

theorem CommandEffect.overlapKept {s t : State} (h : CommandEffect s t) (law : OverlapLaw s) (queue : QueueLaw s) : OverlapKept s t := by
  have quiet {u : State} (same : u.slots = s.slots) : OverlapKept s u := (OverlapKept.refl law).after same
  have resumed {i : Slot} {c : Claim} {cause : HeldCause} {ended : Bool} {st : ClaimState} (at_slot : s.claimAt i = some c)
      (held : c.state = .held cause ended) (cause_ne : cause ≠ .overlap) (occupying : st.occupying = true) (into : ∀ m, st ≠ .held .overlap m) :
      OverlapKept s (closeEvent false s (moveClaim i st s)) := by
    refine (moveClaim_apart at_slot (by rw [held]; rfl) ?_ into).kept law
      ((moveClaim_follows_of at_slot (by rw [held]; nofun) (by rw [held]; nofun) occupying).headFits queue) rfl
    rintro m own
    cases held.symm.trans own
    exact cause_ne rfl
  cases h with
  | none => exact .refl law
  | shown | enabled | cleared | autoClear | alertEmptied | supplyEmptied | protectSet | bound | unbound | breachCleared
  | templateStored | templateEvicted | templateDropped | templateLocked | reopened => exact quiet rfl
  | @claimFreed i c at_slot not_queued not_checking no_grant =>
    exact (freeSlot_apart i s).kept law (freeSlot_headFits queue) rfl
  | @claimHeld i c ended at_slot in_force =>
    have resolved : s.resolve (s.handleAt i) = some c := resolve_eq_some.mpr ⟨rfl, at_slot⟩
    have begun : c.state = .active ∨ c.state = .overrun := in_force.imp And.left And.left
    rw [commandHold_closed in_force]
    exact (commandHeld_apart resolved begun).kept law ((commandHeld_goes resolved begun).1.headFits queue) rfl
  | @resumedOverlap i c cause at_slot held cause_ne overstayed =>
    have fits := (moveClaim_follows_of (st := .held .overlap false) at_slot (by rw [held]; nofun) (by rw [held]; nofun) rfl).headFits queue
    exact ((resumed_overlapping at_slot held overstayed).congr (v := raiseFlag .overlapHeld (moveClaim i (.held .overlap false) s)) rfl).closed
      law fits rfl
  | resumedActive at_slot held cause_ne => exact resumed at_slot held cause_ne rfl nofun
  | resumedOverrun at_slot held cause_ne => exact resumed at_slot held cause_ne rfl nofun
  | @cancelled i c at_slot waiting =>
    exact (withdrawnClaim_apart (s.handleAt i) s).kept law (withdrawnClaim_headFits queue (resolve_eq_some.mpr ⟨rfl, at_slot⟩) waiting) rfl
  | @booked i b room slot =>
    exact (bookingMade_apart i b s).kept law (bookingMade_appends queue room (freeSlotOf_free slot)).headFits rfl
  | @fired i b k w room slot =>
    have accessed : (accessWay k w s).slots = s.slots := rfl
    have fits := (bookingMade_appends (i := i) (b := b) (s := accessWay k w s) queue room (freeSlotOf_free slot)).headFits
    exact (bookingMade_apart i b (accessWay k w s)).kept (law.congr accessed) fits rfl |>.before accessed
  | @amended i c a at_slot _ occupying no_amend room =>
    have resolved : s.resolve (s.handleAt i) = some c := resolve_eq_some.mpr ⟨rfl, at_slot⟩
    exact (amendPending_apart a resolved).kept law (amendPending_headFits resolved queue) rfl
  | @zoneRequested z area free room => 
    have same : (Machine.zoneRequested z area s).slots = s.slots := rfl
    exact (Apart.of_slots same).kept law (zoneRequested_headFits queue z area) rfl
  | zoneEmptied z => 
    have same : (Machine.zoneEmptied z s).slots = s.slots := withdrawEntry_slots _ _
    exact (Apart.of_slots same).kept law (zoneEmptied_headFits queue z) rfl
  | holdPushed src => exact holdPushed_overlapKept src true law queue rfl
  | holdReleased src =>
    rw [removeHold_eq]
    exact quiet rfl
  | @clockLoaded v =>
    exact (windowEvent_overlapKept true (s := s.setClock { s.clock with count := v, run := loadedRun s }) law queue).before rfl
  | sourceSelected src =>
    unfold selectSource
    split <;> exact quiet rfl
  | @clockSkipped d =>
    have counted : (s.setClock { s.clock with count := min (s.clock.count + d) Config.maxTick }).slots = s.slots := rfl
    have moved := windowEvent_overlapKept true (s := s.setClock { s.clock with count := min (s.clock.count + d) Config.maxTick }) law queue
    exact (moved.after (endClock_untouched _).slots).before counted

end Sys2Proof.Machine
end

section
/-! PROOF. R26's law through the completions of the walks, the events and the supplies, and so through every step: O57 (R13, R39, R40, R26). -/

namespace Sys2Proof.Machine

variable {reads : Prop}

/-! ## The completion of a booking (R8, R39) -/

/-- A flyer's claims lie beside the same overstaying claims where those of the other flyers stay. -/
theorem overstayedIn_of_others {s u : State} {f : Flyer} (same : ∀ (j : Slot) (d : Claim), d.state.overstaying = true → d.flyer ≠ f →
    (u.claimAt j = some d ↔ s.claimAt j = some d)) (r : Box) : OverstayedIn u f r ↔ OverstayedIn s f r := by
  constructor
  · rintro ⟨j, d, hd, overstays, other, overlaps⟩
    exact ⟨j, d, (same j d overstays other).mp hd, overstays, other, overlaps⟩
  · rintro ⟨j, d, hd, overstays, other, overlaps⟩
    exact ⟨j, d, (same j d overstays other).mpr hd, overstays, other, overlaps⟩

theorem placedClaim_flyer (s : State) (c : Claim) : (placedClaim s c).flyer = c.flyer ∧ (placedClaim s c).region = c.region := by
  unfold placedClaim openedClaim
  split
  · exact ⟨rfl, rfl⟩
  · split <;> exact ⟨rfl, rfl⟩

/-- A claim placed HELD OVERLAP lies beside an overstaying one. -/
theorem placedClaim_overlap {s : State} {c : Claim} {m : Bool} (held : (placedClaim s c).state = .held .overlap m) :
    m = false ∧ s.overlapsOverstayer c.flyer c.region = true := by
  unfold placedClaim at held
  split at held
  · cases held
  · split at held
    · cases held
    · exact openedClaim_overlap held

theorem placedClaim_not_overstaying (s : State) (c : Claim) : (placedClaim s c).state.overstaying = false := by
  unfold placedClaim openedClaim
  split
  · rfl
  · split
    · rfl
    · dsimp only
      split
      · rfl
      · split <;> rfl

section
variable {s D : State} {h : Slot} {c' : Claim} {m : FlagSet}

/-- A subject written alone, its flyer, region and state as they were or occupying nothing, moves apart from OVERLAP. -/
theorem written_apart (wrote : Written h c' m (leaveQueue s) D) {c : Claim} (hc : s.claimAt h = some c)
    (settled : c'.state.occupying = false ∨ c'.flyer = c.flyer ∧ c'.box = c.box ∧ c'.state = c.state) : Apart s D := fun j d hd => by
  rw [written_claimAt wrote] at hd
  split at hd
  · next own =>
    cases hd
    exact settled.imp id fun ⟨flyer, box, state⟩ => ⟨c, own ▸ hc, flyer.symm, box.symm, .inl state.symm⟩
  · exact .inr ⟨d, hd, rfl, rfl, .inl rfl⟩

theorem written_headFits {e : Entry} (wrote : Written h c' m (leaveQueue s) D) (queue : QueueLaw s) (head : s.admission.queue.head? = some e)
    (slot : e.slot? = some h) : HeadFits D := by
  refine headFits_next queue head (congrArg Admission.queue wrote.admission) (written_gen wrote) fun j other x hx => ?_
  rw [written_claimAt wrote, if_neg] at hx
  · exact hx
  · rintro rfl
    exact other slot

/-- A CHECKING claim placed. -/
theorem placed_overlapping {c : Claim} (wrote : Written h (placedClaim (leaveQueue s) c) m (leaveQueue s) D) (hc : s.claimAt h = some c)
    (checks : c.state = .checking) : Overlapping false s D := by
  have claims := written_claimAt wrote
  have beside : OverstayedIn D c.flyer c.region ↔ OverstayedIn s c.flyer c.region := overstayedIn_of_others (fun j d overstays _ => by
    rw [claims]
    split
    · next own =>
      subst own
      rw [hc]
      constructor
      · rintro ⟨⟩
        exact absurd ((placedClaim_not_overstaying (leaveQueue s) c).symm.trans overstays) Bool.false_ne_true
      · rintro ⟨⟩
        rw [checks] at overstays
        cases overstays
    · rfl) _
  obtain ⟨flyer, region⟩ := placedClaim_flyer (leaveQueue s) c
  refine ⟨fun j d n hd held => ?_, fun _ i d e hd overstays he _ => ?_, fun j d e hd held he active => ?_⟩
  · rw [claims] at hd
    split at hd
    · cases hd
      obtain ⟨unended, overlaps⟩ := placedClaim_overlap held
      rw [flyer, region, beside, ← overlapsOverstayer_iff]
      exact .inl ⟨unended, overlaps⟩
    · exact .inr ⟨d, hd, held, rfl, rfl⟩
  · rw [claims] at he
    split at he
    · next own =>
      subst own
      cases hc.symm.trans hd
      rw [checks] at overstays
      cases overstays
    · cases hd.symm.trans he
      exact ⟨rfl, rfl⟩
  · rw [claims] at he
    split at he
    · next own =>
      subst own
      cases hc.symm.trans hd
      rw [checks] at held
      cases held
    · cases hd.symm.trans he
      rw [held] at active
      cases active

end

/-! ## The completion of an amendment (R39 to R41) -/

section
variable {s : State} {h : Handle} {c : Claim} (a : Amendment)

/-- Where a passing amendment leaves the claim HELD OVERLAP. -/
theorem amendedStateOf_overlap {r : State} {d : Claim} {m : Bool} (unended : c.state ≠ .held .overlap true)
    (held : amendedStateOf r c a d = .held .overlap m) : c.state = .held .overlap false ∧ releasedState r d = .held .overlap m := by
  unfold amendedStateOf at held
  split at held
  · split at held <;> cases held
  · next cause state =>
    split at held
    all_goals
      cases held
      exact absurd state unended
  · next state => exact ⟨state, held⟩
  · next not_overrun not_ended not_overlap =>
    rw [held] at unended not_overlap
    cases m with
    | true => exact absurd rfl unended
    | false => exact absurd rfl not_overlap

theorem releasedState_overlap {r : State} {d : Claim} {m : Bool} (held : releasedState r d = .held .overlap m) :
    m = false ∧ r.overlapsOverstayer d.flyer d.region = true := by
  unfold releasedState at held
  split at held
  · next overlaps =>
    cases held
    exact ⟨rfl, overlaps⟩
  · split at held <;> cases held

theorem releasedState_active {r : State} {d : Claim} (active : releasedState r d = .active) :
    ¬ r.overlapsOverstayer d.flyer d.region = true := by
  unfold releasedState at active
  split at active
  · cases active
  · next clear => exact clear

/-- A passed amendment, before the close. -/
theorem passed_overlapping (hr : s.resolve h = some c)
    (occupies : c.state.occupying = true) (law : OverlapLaw s) :
    Overlapping (asksRecheck c a) s (ungranted (grantOutside s h c.flyer a.newBox) c.flyer
      (amendedState h.slot c a (reshaped h (amendedClaim c a) s))) := by
  have at_slot := (resolve_eq_some.mp hr).2
  have unended := law.not_ended _ _ at_slot
  have moves := passed_moves (a := a) hr occupies unended
  have others := amended_others moves
  have own := moves.own
  have plain := reshaped_claimAt (s := s) (h := h) (amendedClaim c a)
  have grounds := ungranted_grounds (grantOutside s h c.flyer a.newBox) c.flyer (amendedState h.slot c a (reshaped h (amendedClaim c a) s))
  have beside : OverstayedIn (ungranted (grantOutside s h c.flyer a.newBox) c.flyer
      (amendedState h.slot c a (reshaped h (amendedClaim c a) s))) c.flyer (amendedClaim c a).region ↔
        OverstayedIn (reshaped h (amendedClaim c a) s) c.flyer (amendedClaim c a).region := overstayedIn_of_others (fun j d _ other => by
    rw [plain]
    by_cases slot : h.slot = j
    · subst slot
      rw [if_pos rfl]
      constructor
      · intro hd
        rcases grounds h.slot with same | ⟨gone, -⟩
        · cases own.symm.trans (same.symm.trans hd)
          exact absurd rfl other
        · cases gone.symm.trans hd
      · rintro ⟨⟩
        exact absurd rfl other
    · rw [if_neg slot, ← others j (Ne.symm slot)]
      rcases grounds j with same | ⟨gone, x, hx, flyer, -⟩
      · rw [same]
      · rw [gone, hx]
        constructor
        · nofun
        · rintro ⟨⟩
          exact absurd flyer other) _
  have came {j : Slot} {d : Claim} (hd : (ungranted (grantOutside s h c.flyer a.newBox) c.flyer
      (amendedState h.slot c a (reshaped h (amendedClaim c a) s))).claimAt j = some d) : (h.slot ≠ j ∧ s.claimAt j = some d) ∨
        h.slot = j ∧ d = { amendedClaim c a with state := amendedStateOf (reshaped h (amendedClaim c a) s) c a (amendedClaim c a) } := by
    have there : (amendedState h.slot c a (reshaped h (amendedClaim c a) s)).claimAt j = some d := by
      rcases grounds j with same | ⟨gone, -⟩
      · exact same.symm.trans hd
      · cases gone.symm.trans hd
    by_cases slot : h.slot = j
    · subst slot
      exact .inr ⟨rfl, Option.some.inj (there.symm.trans own)⟩
    · exact .inl ⟨slot, (others j (Ne.symm slot)).symm.trans there⟩
  generalize ungranted (grantOutside s h c.flyer a.newBox) c.flyer (amendedState h.slot c a (reshaped h (amendedClaim c a) s)) = v at *
  refine ⟨fun j d m hd held => ?_, fun quiet i d e hd overstays he overstays' => ?_, fun j d e hd held he active => ?_⟩
  · rcases came hd with ⟨-, same⟩ | ⟨-, rfl⟩
    · exact .inr ⟨d, same, held, rfl, rfl⟩
    · obtain ⟨unended', overlaps⟩ := releasedState_overlap (amendedStateOf_overlap a unended held).2
      exact .inl ⟨unended', beside.mpr ((overlapsOverstayer_iff _ _ _).mp overlaps)⟩
  · rcases came he with ⟨-, same⟩ | ⟨rfl, rfl⟩
    · cases hd.symm.trans same
      exact ⟨rfl, rfl⟩
    · cases at_slot.symm.trans hd
      have same_box : a.newBox = none := by
        unfold asksRecheck at quiet
        rw [overstays, Bool.and_true] at quiet
        exact Option.isNone_iff_eq_none.mp (by simpa using quiet)
      unfold amendedClaim Claim.region
      rw [same_box]
      exact ⟨rfl, rfl⟩
  · rcases came he with ⟨-, same⟩ | ⟨rfl, rfl⟩
    · cases hd.symm.trans same
      rw [held] at active
      cases active
    · cases at_slot.symm.trans hd
      have released : releasedState (reshaped h (amendedClaim c a) s) (amendedClaim c a) = .active := by
        rw [← (amendedState_overlap _ h.slot a _ held).2]
        exact active
      intro overlaps
      exact releasedState_active released ((overlapsOverstayer_iff _ _ _).mpr (beside.mp overlaps))

end

/-! ## The reads (R36, R37, R39) -/

theorem completeWalk_delivered {s D : State} {e : Entry} {v : Option Verdict} {asked : Bool} (h : deliverVerdict e v (leaveQueue s) = (D, asked)) :
    completeWalk e v s = closeEvent asked s (raiseFlag .admitDone D) := by
  unfold completeWalk
  rw [h]

/-- A verdict delivered, closed. -/
theorem delivered_overlapKept {s D : State} {e : Entry} {v : Option Verdict} {asked : Bool} (law : OverlapLaw s)
    (delivered : deliverVerdict e v (leaveQueue s) = (D, asked)) (h : Overlapping asked s D) (fits : HeadFits D) :
    OverlapKept s (completeWalk e v s) := by
  rw [completeWalk_delivered delivered]
  exact (h.congr (v := raiseFlag .admitDone D) rfl).closed law fits rfl

theorem WalkSubjectLaw.checks {s : State} (law : WalkSubjectLaw s) {w : Walk} {h : Handle} (hw : s.admission.walk = some w)
    (subject : w.subject = .book h) : ∃ c, s.resolve h = some c ∧ c.state = .checking := by
  unfold WalkSubjectLaw at law
  simp only [hw, Option.all_some, subject] at law
  obtain ⟨c, hr, checks⟩ := (Option.any_eq_true _ _).mp law
  exact ⟨c, hr, of_decide_eq_true checks⟩

theorem completeWalk_overlapKept {s : State} {w : Walk} (v : Option Verdict) (law : OverlapLaw s) (queue : QueueLaw s) (walk : WalkLaw s)
    (subject : WalkSubjectLaw s) (hw : s.admission.walk = some w) : OverlapKept s (completeWalk w.subject v s) := by
  have head := walk_head hw walk
  cases entry : w.subject with
  | zone z =>
    rw [entry] at head
    have settled (x : ZoneSlot) : Apart s ((leaveQueue s).setZone z x) := .of_slots rfl
    exact delivered_overlapKept law rfl ((settled _).overlapping false) (headFits_next queue head rfl (fun _ => rfl) fun _ _ _ hx => hx)
  | book h =>
    rw [entry] at head
    obtain ⟨c, hr, checks⟩ := subject.checks hw entry
    have at_slot := (resolve_eq_some.mp hr).2
    cases v with
    | some v =>
      have wrote := Written.setClaim (leaveQueue s) h.slot { c with state := .refused, verdict := some v }
      exact delivered_overlapKept law (deliverVerdict_book_refused (s := leaveQueue s) hr v)
        ((written_apart wrote at_slot (.inl rfl)).overlapping false) (written_headFits wrote queue head rfl)
    | none =>
      have wrote := placeBooking_written (s := leaveQueue s) at_slot rfl
      exact delivered_overlapKept law (deliverVerdict_book_passed (s := leaveQueue s) hr) (placed_overlapping wrote at_slot checks)
        (written_headFits wrote queue head rfl)
  | amend h =>
    rw [entry] at head
    obtain ⟨c, a, hr, occupying, ha⟩ := queue.amend_named (List.mem_of_mem_head? head)
    have at_slot := (resolve_eq_some.mp hr).2
    have refused {v : Option Verdict} (r : Verdict) (delivered : deliverVerdict (.amend h) v (leaveQueue s) =
        ((leaveQueue s).setClaim h.slot { c with amend := none, verdict := some r }, false)) : OverlapKept s (completeWalk (.amend h) v s) := by
      have wrote := Written.setClaim (leaveQueue s) h.slot { c with amend := none, verdict := some r }
      exact delivered_overlapKept law delivered ((written_apart wrote at_slot (.inr ⟨rfl, rfl, rfl⟩)).overlapping false)
        (written_headFits wrote queue head rfl)
    cases v with
    | some v => exact refused v (deliverVerdict_amend_refused (s := leaveQueue s) hr v)
    | none =>
      have unended := law.not_ended _ _ at_slot
      by_cases past : endedBy (amendedEnd c a) s.now = true
      · exact refused .stale (deliverVerdict_amend_stale (s := leaveQueue s) hr ha past)
      · rw [completeWalk_amend_passed hr ha occupying unended past]
        exact (passed_overlapping a hr occupying law).closed law
          (amended_fits _ queue head hr (passed_moves hr occupying unended) c.flyer) rfl

theorem readSlot_overlapKept {s : State} {w : Walk} (i : Slot) (law : OverlapLaw s) (queue : QueueLaw s) (walk : WalkLaw s)
    (subject : WalkSubjectLaw s) (hw : s.admission.walk = some w) : OverlapKept s (readSlot w i s) := by
  have further (p : WalkPos) : OverlapKept s (setWalkPos w p s) := (OverlapKept.refl law).after rfl
  unfold readSlot
  split
  · exact completeWalk_overlapKept _ law queue walk subject hw
  · split
    · exact further _
    · split
      · exact completeWalk_overlapKept _ law queue walk subject hw
      · exact further _

theorem readZone_overlapKept {s : State} {w : Walk} (z : Zone) (law : OverlapLaw s) (queue : QueueLaw s) (walk : WalkLaw s)
    (subject : WalkSubjectLaw s) (hw : s.admission.walk = some w) : OverlapKept s (readZone w z s) := by
  unfold readZone
  split
  · exact completeWalk_overlapKept _ law queue walk subject hw
  · split
    · exact (OverlapKept.refl law).after rfl
    · exact completeWalk_overlapKept _ law queue walk subject hw

/-! ## A halt and a cold start (R17, R49) -/

theorem haltBlocks_overlapKept {s : State} (law : OverlapLaw s) : OverlapKept s (haltBlocks s) := by
  have claims := haltBlocks_claimAt s
  have halted : Apart s (haltBlocks s) := fun j => by
    rw [claims]
    cases s.claimAt j with
    | none => nofun
    | some c =>
      rw [Option.map_some]
      cases hs : c.state with
      | active | overrun => exact .moved (by rw [hs]; rfl) (by rw [hs]; nofun) nofun
      | checking =>
        rintro d ⟨⟩
        exact .inl rfl
      | queued | refused | booked | held =>
        rintro d ⟨⟩
        exact .inr ⟨c, rfl, rfl, rfl, .inl hs⟩
  refine (halted.overlapping false).still law rfl fun i c hc overstays => ?_
  rw [claims, hc]
  refine ⟨_, rfl, ?_⟩
  show c.state.restarted.overstaying = true
  cases hs : c.state with
  | held cause ended =>
    rw [hs] at overstays
    exact overstays
  | overrun => rfl
  | queued | checking | refused | booked | active =>
    rw [hs] at overstays
    cases overstays

/-- The part that runs again from a state whose claims are as they were. -/
theorem begun_overlapKept {s u v : State} (kept : OverlapKept s u) (slots : v.slots = u.slots) (waits : Waits v) : OverlapKept s (beginHead v) :=
  (kept.after slots).begun waits.queue.headFits

theorem mainReturned_overlapKept {s : State} (law : OverlapLaw s) (queue : QueueLaw s) :
    OverlapKept s (beginHead (restartFlags (returnTimers (restartBlocks (setSupplyState .main (recordReturn s)))))) := by
  have recorded : (setSupplyState .main (recordReturn s)).slots = s.slots := rfl
  have recorded_queue : QueueLaw (setSupplyState .main (recordReturn s)) := queue
  have kept := (haltBlocks_overlapKept (law.congr recorded)).before recorded
  obtain ⟨waits, idle, none⟩ := restartBlocks_idle recorded_queue
  obtain ⟨restarted, -⟩ := restartBlocks_same (setSupplyState .main (recordReturn s))
  have kept := kept.after restarted
  generalize restartBlocks (setSupplyState .main (recordReturn s)) = r at *
  obtain ⟨slots, zones, admission, -⟩ := returnTimers_idle none
  generalize returnTimers r = u at *
  obtain ⟨slots', zones', admission', -, -⟩ := restartFlags_same u
  exact begun_overlapKept kept (slots'.trans slots)
    (waits.idle_same idle (slots'.trans slots) (zones'.trans zones) (admission'.trans admission))

theorem resetAsserted_overlapKept {s : State} (law : OverlapLaw s) : OverlapKept s (restartFlags (restartBlocks (setResetLine true s))) := by
  have lined : (setResetLine true s).slots = s.slots := rfl
  have kept := (haltBlocks_overlapKept (law.congr lined)).before lined
  obtain ⟨restarted, -⟩ := restartBlocks_same (setResetLine true s)
  obtain ⟨flagged, -⟩ := restartFlags_same (restartBlocks (setResetLine true s))
  exact (kept.after restarted).after flagged

theorem resetDeasserted_overlapKept {s : State} (law : OverlapLaw s) (queue : QueueLaw s) (free : GrantsOnlyFree s) (low : s.inputs.reset = true) :
    OverlapKept s (beginRunning true (setResetLine false s)) := by
  have halted : s.running = false := by
    unfold State.running
    rw [low]
    exact Bool.and_false _
  have started : (startTimers (setResetLine false s)).slots = s.slots ∧ (startTimers (setResetLine false s)).zones = s.zones ∧
      (startTimers (setResetLine false s)).admission = s.admission := ⟨rfl, rfl, rfl⟩
  have ungranted : ∀ f : Flyer, (startTimers (setResetLine false s)).grantOf f = none := free.none halted
  obtain ⟨slots, -, admission, -⟩ := sampleLines_idle true ungranted
  unfold beginRunning
  refine ((OverlapKept.refl law).after (slots.trans started.1)).begun fun h c head hc => ?_
  rw [admission, started.2.2] at head
  rw [resolve_congr (slots.trans started.1)] at hc
  exact queue.headFits h c head hc

theorem coldValues_none (s : State) (j : Slot) : (coldValues s).claimAt j = none := congrArg SlotRec.claim (Vector.getElem_replicate _)

theorem coldStarted_overlapKept (s : State) : OverlapKept s (driveLines (beginRunning false (coldValues s))) := by
  have started : (startTimers (coldValues s)).slots = (coldValues s).slots := rfl
  have cleared : ∀ f : Flyer, (startTimers (coldValues s)).grantOf f = none := (coldValues_waits s).2.2
  obtain ⟨slots, -⟩ := sampleLines_idle false cleared
  have driven (u : State) : (driveLines u).slots = u.slots := rfl
  refine overlapKept_of_none fun j => ?_
  rw [claimAt_congr (driven _)]
  unfold beginRunning
  rcases beginHead_cases (sampleLines false (startTimers (coldValues s))) j with same | ⟨h, c, -, -, hr, -⟩
  · exact same.trans ((claimAt_congr (slots.trans started) j).trans (coldValues_none s j))
  · have there := (resolve_eq_some.mp hr).2
    rw [claimAt_congr (slots.trans started), coldValues_none] at there
    cases there

/-! ## Every event -/

theorem reportOutcome_overlapKept (f : Flyer) (cell : Cell) (grounded : Bool) (v : Option BreachKind) {s : State} (law : OverlapLaw s)
    (queue : QueueLaw s) {r : State} (slots : r.slots = s.slots) : OverlapKept s (closeEvent false r (reportOutcome f cell grounded v s)) := by
  unfold reportOutcome
  cases v with
  | some kind => exact (breachResponse_apart f kind cell s).kept law ((breachResponse_goes f kind cell s).1.headFits queue) slots
  | none =>
    cases grounded with
    | true => exact (groundedEvent_apart f s).kept law ((groundedEvent_follows f s).headFits queue) slots
    | false => exact (Apart.refl s).kept law queue.headFits slots

theorem removeGrant_overlapKept (f : Flyer) (why : Reason) {s : State} (law : OverlapLaw s) (queue : QueueLaw s) {r : State}
    (slots : r.slots = s.slots) : OverlapKept s (closeEvent false r (removeGrant f why s)) :=
  (removeGrant_apart f why s).kept law ((removeGrant_follows f why s).headFits queue) slots

theorem Untouched.queueLaw {s t : State} (h : Untouched s t) (law : QueueLaw s) : QueueLaw t := by
  obtain ⟨room, apart, fits⟩ := law
  refine ⟨by rwa [h.admission], by rwa [h.admission], fun e he => ?_⟩
  rw [h.admission] at he
  rw [subjectFits_congr h.slots h.zones]
  exact fits e he

theorem sourceEvent_overlapKept {s : State} (law : OverlapLaw s) (queue : QueueLaw s) : OverlapKept s (sourceEvent s) := by
  unfold sourceEvent
  split
  · have counted : (s.setClock { s.clock with count := s.clock.count + 1 }).slots = s.slots := rfl
    have moved := windowEvent_overlapKept false (s := s.setClock { s.clock with count := s.clock.count + 1 }) law queue
    exact (moved.after (endClock_untouched _).slots).before counted
  · exact .refl law

theorem EventEffect.overlapKept {s t : State} (h : EventEffect reads s t) (law : OverlapLaw s) (free : GrantsOnlyFree s) (queue : QueueLaw s)
    (walk : WalkLaw s) (subject : WalkSubjectLaw s) : OverlapKept s t := by
  have quiet {u : State} (same : u.slots = s.slots) : OverlapKept s u := (OverlapKept.refl law).after same
  have elapsed (d : Nat) := elapse_untouched d s
  cases h with
  | none => exact .refl law
  | time d => exact quiet (elapsed d).slots
  | heard ch bytes last => exact quiet (hearBytes_untouched ch bytes last s).slots
  | unheard ch d => exact quiet ((elapsed d).trans (setChannel_untouched _ _ _)).slots
  | misheard | discarded | sent => exact quiet rfl
  | hello ch id => exact quiet (Untouched.trans (setChannel_untouched _ _ s) (judgeHello_untouched ch id _)).slots
  | late ch d =>
    have late (u : State) : (lateChannel ch u).slots = u.slots := rfl
    exact quiet ((late _).trans (elapsed d).slots)
  | lost ch d =>
    have alerted (u : State) : Untouched u (recordAlert (.lost ch) (u.setChannel ch { u.channels[ch] with state := .lost })) :=
      ⟨rfl, rfl, rfl, rfl, id⟩
    have before := (elapsed d).trans (alerted _)
    exact (removeGrant_overlapKept ch .lost (law.congr before.slots) (before.queueLaw queue) (alerted _).slots.symm).before before.slots
  | leaseExpired f d =>
    exact (removeGrant_overlapKept f .expired (law.congr (elapsed d).slots) ((elapsed d).queueLaw queue) rfl).before (elapsed d).slots
  | @asked ch x y z =>
    have taken : Untouched s (dropHead ch (serveChannel ch s)) := ⟨rfl, rfl, rfl, rfl, id⟩
    exact quiet (taken.trans (answerAsk_untouched ch _ _)).slots
  | @reported ch x y z flags =>
    have taken (u : State) : (dropHead ch (serveChannel ch u)).slots = u.slots := rfl
    have stored (u : State) : Untouched u (storeReport ch (cellOf x y z) (groundedOf flags) (channelReport ch u)) := ⟨rfl, rfl, rfl, rfl, id⟩
    have begun : Untouched s (dropHead ch (serveChannel ch s)) := ⟨rfl, rfl, rfl, rfl, id⟩
    have before := begun.trans (stored _)
    exact (reportOutcome_overlapKept ch _ _ _ (law.congr before.slots) (before.queueLaw queue) before.slots.symm).before before.slots
  | @slotRead w i asked at_walk =>
    have served : Untouched s (serveWalk s) := ⟨rfl, rfl, rfl, rfl, id⟩
    exact (readSlot_overlapKept i (law.congr served.slots) (served.queueLaw queue) walk subject at_walk).before served.slots
  | @zoneRead w z asked at_walk => exact readZone_overlapKept z law queue walk subject at_walk
  | period t => exact quiet (nextPeriod_untouched t s).slots
  | tickedPeriod t =>
    have next := nextPeriod_untouched t s
    exact (sourceEvent_overlapKept (law.congr next.slots) (next.queueLaw queue)).before next.slots
  | pulse request =>
    have pulsed : (s.setClock { s.clock with request := request, source := .external, pulseWatch := some 0 }).slots = s.slots := rfl
    have moved := sourceEvent_overlapKept
      (s := s.setClock { s.clock with request := request, source := .external, pulseWatch := some 0 }) law queue
    exact moved.before pulsed
  | fellBack d =>
    have fell (u : State) : (fallBack u).slots = u.slots := rfl
    exact quiet ((fell _).trans (elapsed d).slots)
  | requestAbandoned d =>
    have gone (u : State) : (abandonRequest u).slots = u.slots := rfl
    exact quiet ((gone _).trans (elapsed d).slots)
  | stopLevel | ringLevel | rigLock | cellFollowed => exact quiet rfl
  | stopped =>
    have lined : (setStopLine true s).slots = s.slots := rfl
    have noted (a : AlertRecord) (u : State) : (alerted a u).slots = u.slots := rfl
    rw [takeStop_eq, closeEvent_alerted]
    exact ((holdPushed_overlapKept .stop true (s := setStopLine true s) law queue rfl).after (noted _ _)).before lined
  | rung =>
    have lined : (setRingLine true s).slots = s.slots := rfl
    exact (holdPushed_overlapKept .ring true (s := setRingLine true s) law queue rfl).before lined
  | backupEntry => exact (haltBlocks_overlapKept law).after (backupEntry_same (haltBlocks s)).1
  | returnOfMain => exact mainReturned_overlapKept law queue
  | resetAsserted => exact resetAsserted_overlapKept law
  | resetDeasserted _ low => exact resetDeasserted_overlapKept law queue free low
  | resetLevel v => exact quiet rfl
  | coldHeld => exact overlapKept_of_none (coldValues_none s)
  | coldStarted => exact coldStarted_overlapKept s
  | poweredOff | cellLost => exact overlapKept_of_none fun j => coldValues_none s j

theorem StepEffect.overlapKept {s t : State} (h : StepEffect reads s t) (law : OverlapLaw s) (free : GrantsOnlyFree s) (queue : QueueLaw s)
    (walk : WalkLaw s) (subject : WalkSubjectLaw s) : OverlapKept s t := by
  have port (u : State) (sel : Select) (x : Transaction) : (u.setTx sel x).slots = u.slots := by cases sel <;> rfl
  have line (u : State) (sel : Select) (v : Bool) : (u.setSelectLow sel v).slots = u.slots := by cases sel <;> rfl
  have quiet {u : State} (same : u.slots = s.slots) : OverlapKept s u := (OverlapKept.refl law).after same
  cases h with
  | answered sel x _ _ effect => exact (effect.overlapKept law queue).after (port _ sel x)
  | @opened sel => exact quiet ((port _ sel .command).trans (line s sel true))
  | fell sel => exact quiet (line s sel true)
  | @rose u sel effect =>
    have shown : u.slots = s.slots := by
      rcases effect with rfl | rfl | ⟨m, rfl⟩ <;> rfl
    exact quiet ((port _ sel .idle).trans ((line u sel false).trans shown))
  | event effect => exact effect.overlapKept law free queue walk subject

/-- Settles O57: what the close of every event leaves HELD OVERLAP lies beside an overstaying claim, and what it releases lies beside none. -/
theorem overlapHoldsKept : Obligations.OverlapHoldsKept := by
  unfold Obligations.OverlapHoldsKept
  intro s t law free queue walk subject hs
  obtain ⟨rest, effect⟩ := step_effect hs
  have unfed : ({ s with pending := rest } : State).slots = s.slots := rfl
  obtain ⟨law', released⟩ := (effect.overlapKept law free queue walk subject).before unfed
  exact ⟨law', released⟩

end Sys2Proof.Machine
end

section
/-! PROOF. What every operation but the completion of a walk keeps of the zones: no box comes in force, no region is taken anew, and a walk goes on or stands at its beginning (R28, R45, R50). -/

namespace Sys2Proof.Machine

/-- From s to t no zone's box comes in force, every occupying claim occupied its region before, and a walk in flight is the one of before or reads the slots. -/
structure Recedes (s t : State) : Prop where
  zones : ∀ (z : Zone) (b : Box), t.zones[z].inForce = some b → s.zones[z].inForce = some b
  claims : ∀ (j : Slot) (d : Claim), t.claimAt j = some d → d.state.occupying = true →
    ∃ x, s.claimAt j = some x ∧ x.state.occupying = true ∧ x.region = d.region
  walk : ∀ w, t.admission.walk = some w → s.admission.walk = some w ∨ ∃ n, w.pos = .claims n

theorem Recedes.refl (s : State) : Recedes s s := ⟨fun _ _ h => h, fun _ d hd occupies => ⟨d, hd, occupies, rfl⟩, fun _ h => .inl h⟩

theorem Recedes.trans {s t u : State} (h : Recedes s t) (k : Recedes t u) : Recedes s u where
  zones := fun z b hb => h.zones z b (k.zones z b hb)
  claims := fun j d hd occupies => by
    obtain ⟨x, hx, occupied, region⟩ := k.claims j d hd occupies
    obtain ⟨y, hy, occupied', region'⟩ := h.claims j x hx occupied
    exact ⟨y, hy, occupied', region'.trans region⟩
  walk := fun w hw => (k.walk w hw).elim (h.walk w) .inr

theorem Recedes.of_same {s t : State} (slots : t.slots = s.slots) (zones : t.zones = s.zones) (walk : t.admission.walk = s.admission.walk) :
    Recedes s t where
  zones := fun z b hb => by rwa [zones] at hb
  claims := fun j d hd occupies => ⟨d, (claimAt_congr slots j).symm.trans hd, occupies, rfl⟩
  walk := fun w hw => .inl (walk.symm.trans hw)

theorem Untouched.recedes {s t : State} (h : Untouched s t) : Recedes s t := .of_same h.slots h.zones (by rw [h.admission])

/-- What R50 says of a claim and a box in force. -/
theorem zoneLaw_iff {s : State} : ZoneLaw s ↔ ∀ (i : Slot) (z : Zone) (c : Claim) (b : Box), s.claimAt i = some c → s.zones[z].inForce = some b →
    c.state.occupying = true → c.region.overlaps b = false := by
  unfold ZoneLaw
  simp only [Option.all_eq_true, Bool.not_eq_true', Bool.and_eq_false_iff]
  constructor
  · intro h i z c b hc hb occupies
    exact (h i z c hc b hb).resolve_left fun idle => Bool.false_ne_true (idle.symm.trans occupies)
  · intro h i z c hc b hb
    by_cases occupies : c.state.occupying = true
    · exact .inr (h i z c b hc hb occupies)
    · exact .inl (Bool.eq_false_iff.mpr occupies)

theorem zonesReadLaw_iff {s : State} : ZonesReadLaw s ↔ ∀ (z : Zone) (w : Walk) (b : Box), s.admission.walk = some w → s.zones[z].inForce = some b →
    hasReadZone w z = true → w.cand.box.overlaps b = false := by
  unfold ZonesReadLaw
  simp only [Option.all_eq_true, Bool.not_eq_true', Bool.and_eq_false_iff]
  constructor
  · intro h z w b hw hb has_read
    exact (h z w hw b hb).resolve_left fun unread => Bool.false_ne_true (unread.symm.trans has_read)
  · intro h z w hw b hb
    by_cases has_read : hasReadZone w z = true
    · exact .inr (h z w b hw hb has_read)
    · exact .inl (Bool.eq_false_iff.mpr has_read)

theorem hasReadZone_claims {w : Walk} {n : Slot} (pos : w.pos = .claims n) (z : Zone) : hasReadZone w z = false := by
  unfold hasReadZone
  rw [pos]

theorem Recedes.kept {s t : State} (h : Recedes s t) (law : ZoneLaw s) (read : ZonesReadLaw s) : ZoneLaw t ∧ ZonesReadLaw t := by
  refine ⟨zoneLaw_iff.mpr fun i z c b hc hb occupies => ?_, zonesReadLaw_iff.mpr fun z w b hw hb has_read => ?_⟩
  · obtain ⟨x, hx, occupied, region⟩ := h.claims i c hc occupies
    rw [← region]
    exact zoneLaw_iff.mp law i z x b hx (h.zones z b hb) occupied
  · rcases h.walk w hw with same | ⟨n, pos⟩
    · exact zonesReadLaw_iff.mp read z w b same (h.zones z b hb) has_read
    · exact absurd ((hasReadZone_claims pos z).symm.trans has_read) Bool.false_ne_true

/-! ## The operations on the queue and the claims -/

theorem abandonWalk_recedes (s : State) : Recedes s (abandonWalk s) := by
  unfold abandonWalk
  split
  · exact .refl s
  · dsimp only
    split <;> exact ⟨fun _ _ h => h, fun _ d hd occupies => ⟨d, hd, occupies, rfl⟩, nofun⟩

theorem withdrawEntry_recedes (e : Entry) (s : State) : Recedes s (withdrawEntry e s) := by
  have dequeued (u : State) : Recedes u (u.setAdmission { u.admission with queue := u.admission.queue.filter (fun x => decide (x ≠ e)) }) :=
    .of_same rfl rfl rfl
  unfold withdrawEntry
  dsimp only
  split
  · exact (abandonWalk_recedes s).trans (dequeued _)
  · exact dequeued s

theorem formWalk_recedes (e : Entry) (s : State) : Recedes s (formWalk e s) where
  zones := fun _ _ h => h
  claims := fun _ d hd occupies => ⟨d, hd, occupies, rfl⟩
  walk := fun w hw => by
    obtain ⟨c, -, rfl⟩ := Option.map_eq_some_iff.mp hw
    exact .inr ⟨0, rfl⟩

/-- A claim written that occupies nothing, or the region it occupied. -/
theorem setClaim_recedes {i : Slot} {c d : Claim} {s : State} (hc : s.claimAt i = some c)
    (stays : d.state.occupying = true → c.state.occupying = true ∧ c.region = d.region) : Recedes s (s.setClaim i d) where
  zones := fun _ _ h => h
  claims := fun j x hx occupies => by
    rw [setClaim_claimAt] at hx
    split at hx
    · next same =>
      cases hx
      obtain ⟨occupied, region⟩ := stays occupies
      exact ⟨c, same ▸ hc, occupied, region⟩
    · exact ⟨x, hx, occupies, rfl⟩
  walk := fun _ h => .inl h

theorem freeSlot_recedes (i : Slot) (s : State) : Recedes s (freeSlot i s) := by
  have emptied : Recedes s (s.setSlot i { gen := s.slots[i].gen, claim := none }) := by
    refine ⟨fun _ _ h => h, fun j d hd occupies => ?_, fun _ h => .inl h⟩
    unfold State.claimAt at hd
    rw [setSlot_get] at hd
    split at hd
    · cases hd
    · exact ⟨d, hd, occupies, rfl⟩
  unfold freeSlot
  split
  · exact .refl s
  · dsimp only
    split
    · exact emptied.trans (withdrawEntry_recedes _ _)
    · exact emptied

theorem expireSlot_recedes (i : Slot) (s : State) : Recedes s (expireSlot i s) := (freeSlot_recedes i s).trans (.of_same rfl rfl rfl)

theorem moveClaim_recedes {i : Slot} {st : ClaimState} {s : State} {c : Claim} (hc : s.claimAt i = some c) (occupied : c.state.occupying = true) :
    Recedes s (moveClaim i st s) := by
  have wrote := setClaim_recedes (d := { c with state := st }) hc fun _ => ⟨occupied, rfl⟩
  unfold moveClaim
  rw [hc]
  dsimp only
  split
  · exact wrote.trans (formWalk_recedes _ _)
  · exact wrote

theorem foldSlots_recedes (f : State → Slot → State) (h : ∀ t i, Recedes t (f t i)) (s : State) : Recedes s (allSlots.foldl f s) :=
  foldl_frame Recedes .refl (fun _ _ _ => .trans) f h allSlots s

/-! ## The close of an event (R13, R28) -/

theorem releaseOverlap_recedes (i : Slot) (s : State) : Recedes s (releaseOverlap i s) := by
  unfold releaseOverlap
  split
  · exact .refl s
  · next c hc =>
    split
    · next held =>
      have occupied : c.state.occupying = true := by rw [held]; rfl
      split
      · exact .refl s
      · split
        · exact moveClaim_recedes hc occupied
        · exact (moveClaim_recedes (st := .active) hc occupied).trans (.of_same rfl rfl rfl)
    · exact .refl s

theorem recheck_recedes (s : State) : Recedes s (recheck s) := foldSlots_recedes _ (fun t i => releaseOverlap_recedes i t) s

theorem checkSubject_recedes (e : Entry) (s : State) : Recedes s (checkSubject e s) := by
  unfold checkSubject
  split
  · split
    · next hr => exact setClaim_recedes (resolve_eq_some.mp hr).2 nofun
    · exact .refl s
  · exact .refl s
  · exact .refl s

theorem beginHead_recedes (s : State) : Recedes s (beginHead s) := by
  unfold beginHead
  split
  · split
    · exact .refl s
    · exact (formWalk_recedes _ s).trans (checkSubject_recedes _ _)
  · exact .refl s

theorem closeEvent_recedes (asked : Bool) (r s : State) : Recedes s (closeEvent asked r s) := by
  unfold closeEvent
  split
  · exact (recheck_recedes s).trans (beginHead_recedes _)
  · exact beginHead_recedes s

/-! ## Grants, holds and breaches (R15, R16, R103, R119) -/

theorem groundedEvent_recedes (f : Flyer) (s : State) : Recedes s (groundedEvent f s) := by
  unfold groundedEvent
  refine foldSlots_recedes _ (fun t i => ?_) s
  split
  · split
    · exact expireSlot_recedes i t
    · exact .refl t
  · exact .refl t

theorem removeGrant_recedes (f : Flyer) (why : Reason) (s : State) : Recedes s (removeGrant f why s) := by
  unfold removeGrant
  split
  · exact .refl s
  · next g _ =>
    have quiet : Recedes s (queueFrame f (.revoke g.seq why) (drivePermits f .low (s.setGrant f { s.grants[f] with live := none }))) :=
      .of_same rfl rfl rfl
    dsimp only
    split
    · exact quiet.trans (groundedEvent_recedes f _)
    · exact quiet

theorem removeAllGrants_recedes (s : State) : Recedes s (removeAllGrants s) :=
  foldl_frame Recedes .refl (fun _ _ _ => .trans) _ (fun t f => removeGrant_recedes f .hold t) allFlyers s

theorem pushHold_recedes (src : HoldSource) (flag : Bool) (s : State) : Recedes s (pushHold src flag s) := by
  unfold pushHold
  split
  · exact .refl s
  · have raised (u : State) : Recedes u (if flag then raiseFlag .holdsChanged u else u) := by
      split <;> exact .of_same rfl rfl rfl
    have appended : Recedes s (if flag then raiseFlag .holdsChanged { s with holds := s.holds ++ [{ source := src, tick := s.now }] }
        else { s with holds := s.holds ++ [{ source := src, tick := s.now }] }) :=
      Recedes.trans (t := { s with holds := s.holds ++ [{ source := src, tick := s.now }] }) (.of_same rfl rfl rfl) (raised _)
    have frozen (u : State) : Recedes u (freezeClock u) := by
      rw [freeze_clock]
      exact .of_same rfl rfl rfl
    dsimp only
    split
    · exact appended.trans ((removeAllGrants_recedes _).trans (frozen _))
    · exact appended

theorem breachClaims_recedes (f : Flyer) (s : State) : Recedes s (breachClaims f s) := by
  unfold breachClaims
  refine foldSlots_recedes _ (fun t i => ?_) s
  unfold breachClaim
  split
  · exact .refl t
  · next c hc =>
    split
    · split
      · next state => exact moveClaim_recedes hc (by rw [state]; rfl)
      · next state => exact moveClaim_recedes hc (by rw [state]; rfl)
      · exact .refl t
    · exact .refl t

theorem breachResponse_recedes (f : Flyer) (kind : BreachKind) (cell : Cell) (s : State) : Recedes s (breachResponse f kind cell s) := by
  have noted (u : State) : Recedes u (recordAlert (breachAlert f kind) (writeBreach f kind cell u)) := .of_same rfl rfl rfl
  have recorded := ((removeGrant_recedes f .breach s).trans (breachClaims_recedes f _)).trans (noted _)
  unfold breachResponse
  dsimp only
  split
  · exact recorded.trans (pushHold_recedes _ _ _)
  · exact recorded

theorem reportOutcome_recedes (f : Flyer) (cell : Cell) (grounded : Bool) (v : Option BreachKind) (s : State) :
    Recedes s (reportOutcome f cell grounded v s) := by
  unfold reportOutcome
  split
  · exact breachResponse_recedes _ _ _ s
  · split
    · exact groundedEvent_recedes f s
    · exact .refl s

theorem commandHeld_recedes {h : Handle} {c : Claim} {s : State} (hr : s.resolve h = some c) (begun : c.state = .active ∨ c.state = .overrun) :
    Recedes s (commandHeld h c s) := by
  have moved := moveClaim_recedes (st := .held .command (decide (c.state = .overrun))) (resolve_eq_some.mp hr).2
    (by rcases begun with state | state <;> rw [state] <;> rfl)
  unfold commandHeld
  dsimp only
  split
  · exact moved.trans (removeGrant_recedes _ _ _)
  · exact moved

/-! ## The windows (R11, R12, R14) -/

theorem openClaim_recedes {i : Slot} {s : State} {c : Claim} (hc : s.claimAt i = some c) (occupied : c.state.occupying = true) :
    Recedes s (openClaim i s) := by
  unfold openClaim
  rw [hc]
  dsimp only
  split
  · exact moveClaim_recedes hc occupied
  · split
    · exact (moveClaim_recedes (st := .held .overlap false) hc occupied).trans (.of_same rfl rfl rfl)
    · exact (moveClaim_recedes (st := .active) hc occupied).trans (.of_same rfl rfl rfl)

theorem openBooked_recedes (i : Slot) (s : State) : Recedes s (openBooked i s) := by
  unfold openBooked
  split
  · exact .refl s
  · next c hc =>
    split
    · next starts =>
      simp only [Bool.and_eq_true, decide_eq_true_eq] at starts
      exact openClaim_recedes hc (by rw [starts.1]; rfl)
    · exact .refl s

theorem bookedPart_recedes (jump : Bool) (i : Slot) (s : State) : Recedes s (bookedPart jump i s) := by
  unfold bookedPart
  split
  · unfold jumpBooked
    split
    · exact .refl s
    · split
      · exact expireSlot_recedes i s
      · exact openBooked_recedes i s
  · exact openBooked_recedes i s

theorem endClaim_recedes (i : Slot) (s : State) : Recedes s (endClaim i s) := by
  unfold endClaim
  split
  · exact .refl s
  · next c hc =>
    split
    · split
      · next state =>
        split
        · exact expireSlot_recedes i s
        · have overran := moveClaim_recedes (st := .overrun) hc (by rw [state]; rfl)
          have descended (u : State) : Recedes u (descendGrant c.flyer (s.handleAt i) u) := by
            unfold descendGrant
            split
            · exact .refl u
            · split
              · exact .of_same rfl rfl rfl
              · exact .refl u
          have flagged (u : State) : Recedes u (raiseFlag .overrun u) := .of_same rfl rfl rfl
          exact overran.trans ((flagged _).trans (descended _))
      · exact expireSlot_recedes i s
      · next state => exact moveClaim_recedes hc (by rw [state]; rfl)
      · exact .refl s
    · exact .refl s

theorem windowEvent_recedes (jump : Bool) (s : State) : Recedes s (windowEvent jump s) := by
  have ended : Recedes s (endings s) := foldSlots_recedes _ (fun t i => endClaim_recedes i t) s
  have opened := foldSlots_recedes (fun t i => bookedPart jump i t) (fun t i => bookedPart_recedes jump i t) (endings s)
  exact (ended.trans opened).trans (closeEvent_recedes false s _)

end Sys2Proof.Machine
end

section
/-! PROOF. The zones through the completions of the walks, and so through every step: O60 (R37, R39, R47, R50, R56). -/

namespace Sys2Proof.Machine

variable {reads : Prop}

/-! ## A walk's candidate is its subject's (R34, R35, R38) -/

theorem CandidateLaw.eq {s : State} (law : CandidateLaw s) {w : Walk} (hw : s.admission.walk = some w) : s.candidateOf w.subject = some w.cand := by
  unfold CandidateLaw at law
  rw [hw, Option.all_some, decide_eq_true_eq] at law
  exact law

/-- What a ZONE walk's candidate is, where the zone's box would come in force. -/
theorem settledZone_inForce {s : State} {z : Zone} {cand : Candidate} {v : Option Handle} {b : Box} (candidate : s.candidateOf (.zone z) = some cand)
    (comes : (settleZone v s.zones[z]).inForce = some b) :
    s.zones[z].inForce = some b ∨ v = none ∧ b = cand.box ∧ cand.flyer = none ∧ cand.span = .always := by
  unfold State.candidateOf at candidate
  cases hz : s.zones[z] with
  | empty =>
    rw [hz] at comes
    cases comes
  | refused =>
    rw [hz] at comes
    cases comes
  | pending area =>
    simp only [hz, Option.some.injEq] at candidate
    subst candidate
    rw [hz] at comes
    cases v with
    | none =>
      cases comes
      exact .inr ⟨rfl, rfl, rfl, rfl⟩
    | some h => cases comes
  | set area r u =>
    rw [hz] at comes
    cases r with
    | none => exact .inl comes
    | some r =>
      simp only [hz, Option.some.injEq] at candidate
      subst candidate
      cases v with
      | none =>
        cases comes
        exact .inr ⟨rfl, rfl, rfl, rfl⟩
      | some h => exact .inl comes

/-! ## The completions (R8, R39, R40, R56) -/

/-- With no walk in flight no zone has been read. -/
theorem zonesReadLaw_of_idle {s : State} (idle : s.admission.walk = none) : ZonesReadLaw s :=
  zonesReadLaw_iff.mpr fun _ _ _ hw => nomatch idle.symm.trans hw

theorem settled_closed {D : State} (law : ZoneLaw D) (read : ZonesReadLaw D) (asked : Bool) (r : State) :
    ZoneLaw (closeEvent asked r (raiseFlag .admitDone D)) ∧ ZonesReadLaw (closeEvent asked r (raiseFlag .admitDone D)) := by
  have raised : Recedes D (raiseFlag .admitDone D) := .of_same rfl rfl rfl
  exact (raised.trans (closeEvent_recedes asked r _)).kept law read

/-- A claim written whose region, where it occupies, every box in force is clear of. -/
theorem written_zoneLaw {s D : State} {h : Slot} {c' : Claim} {m : FlagSet} (law : ZoneLaw s) (wrote : Written h c' m (leaveQueue s) D)
    (clear : ∀ (z : Zone) (b : Box), s.zones[z].inForce = some b → c'.region.overlaps b = false) : ZoneLaw D := by
  have zones : D.zones = s.zones := wrote.frame.zones
  refine zoneLaw_iff.mpr fun i z c b hc hb occupies => ?_
  rw [zones] at hb
  rw [written_claimAt wrote] at hc
  split at hc
  · cases hc
    exact clear z b hb
  · exact zoneLaw_iff.mp law i z c b hc hb occupies

theorem amendedState_recedes {i : Slot} {c d : Claim} (a : Amendment) {s : State} (hd : s.claimAt i = some d) (occupied : d.state.occupying = true) :
    Recedes s (amendedState i c a s) := by
  have restored (h : Handle) (u : State) : Recedes u (restoreGrant c.flyer h u) := by
    unfold restoreGrant
    split
    · exact .refl u
    · split
      · exact .of_same rfl rfl rfl
      · exact .refl u
  unfold amendedState
  split
  · split
    · exact (moveClaim_recedes hd occupied).trans (restored _ _)
    · exact .refl s
  · split
    · exact moveClaim_recedes hd occupied
    · exact .refl s
  · exact releaseOverlap_recedes i s
  · exact .refl s

section
variable {s : State} {w : Walk} (law : ZoneLaw s) (candidate : CandidateLaw s) (hw : s.admission.walk = some w)
include law candidate hw

/-- A zone settled: the box that comes in force is the candidate's (R56). -/
theorem zoneSettled_law {z : Zone} (v : Option Handle) (subject : w.subject = .zone z) (clear : v = none → w.cand.flyer = none → w.cand.span = .always →
    ∀ (i : Slot) (c : Claim), s.claimAt i = some c → c.state.occupying = true → c.region.overlaps w.cand.box = false) :
    ZoneLaw ((leaveQueue s).setZone z (settleZone v s.zones[z])) := by
  have formed := candidate.eq hw
  rw [subject] at formed
  refine zoneLaw_iff.mpr fun i y c b hc hb occupies => ?_
  have there : s.claimAt i = some c := hc
  have written : ((leaveQueue s).setZone z (settleZone v s.zones[z])).zones[y] = if z = y then settleZone v s.zones[z] else s.zones[y] :=
    setZone_get (leaveQueue s) z y _
  rw [written] at hb
  split at hb
  · next same =>
    subst same
    rcases settledZone_inForce formed hb with before | ⟨passed, rfl, flyer, span⟩
    · exact zoneLaw_iff.mp law i z c b there before occupies
    · exact clear passed flyer span i c there occupies
  · exact zoneLaw_iff.mp law i y c b there hb occupies

/-- A passed amendment's region is its candidate's (R35, R40). -/
theorem amendPassed_law {h : Handle} {c : Claim} {a : Amendment} (hr : s.resolve h = some c) (ha : c.amend = some a)
    (subject : w.subject = .amend h)
    (clear : ∀ (z : Zone) (b : Box), s.zones[z].inForce = some b → w.cand.box.overlaps b = false) :
    ZoneLaw (reshaped h (amendedClaim c a) s) := by
  have formed := candidate.eq hw
  rw [subject] at formed
  simp only [State.candidateOf, hr, Option.bind_some, ha, Option.map_some, Option.some.injEq] at formed
  refine written_zoneLaw law (Written.setClaim (leaveQueue s) h.slot (amendedClaim c a)) fun z b hb => ?_
  have region : (amendedClaim c a).region = w.cand.box := by
    rw [← formed]
    rfl
  rw [region]
  exact clear z b hb

/-- A completed walk keeps the zones' laws where a zone's pass is clear of the claims, and another pass is clear of the zones. -/
theorem completeWalk_zones (v : Option Verdict) (queue : QueueLaw s) (walk : WalkLaw s) (subject : WalkSubjectLaw s)
    (claims_clear : v.bind Verdict.handle? = none → w.subject.isZone = true → w.cand.flyer = none → w.cand.span = .always →
      ∀ (i : Slot) (c : Claim), s.claimAt i = some c → c.state.occupying = true → c.region.overlaps w.cand.box = false)
    (zones_clear : v = none → w.subject.isZone = false → ∀ (z : Zone) (b : Box), s.zones[z].inForce = some b → w.cand.box.overlaps b = false) :
    ZoneLaw (completeWalk w.subject v s) ∧ ZonesReadLaw (completeWalk w.subject v s) := by
  have left : ZoneLaw (leaveQueue s) := law
  have unread : ZonesReadLaw (leaveQueue s) := zonesReadLaw_of_idle rfl
  cases entry : w.subject with
  | zone z =>
    rw [entry] at claims_clear
    rw [completeWalk_delivered (v := v) (e := .zone z) rfl]
    exact settled_closed (zoneSettled_law law candidate hw _ entry fun passed => claims_clear passed rfl) (zonesReadLaw_of_idle rfl) _ _
  | book h =>
    rw [entry] at zones_clear
    obtain ⟨c, hr, checks⟩ := subject.checks hw entry
    have at_slot := (resolve_eq_some.mp hr).2
    cases v with
    | some v =>
      rw [completeWalk_delivered (deliverVerdict_book_refused (s := leaveQueue s) hr v)]
      have refused : Recedes (leaveQueue s) ((leaveQueue s).setClaim h.slot { c with state := .refused, verdict := some v }) :=
        setClaim_recedes at_slot nofun
      obtain ⟨law', read'⟩ := refused.kept left unread
      exact settled_closed law' read' _ _
    | none =>
      have wrote := placeBooking_written (s := leaveQueue s) at_slot rfl
      have formed := candidate.eq hw
      rw [entry] at formed
      simp only [State.candidateOf, hr, Option.map_some, Option.some.injEq] at formed
      rw [completeWalk_delivered (deliverVerdict_book_passed (s := leaveQueue s) hr)]
      refine settled_closed (written_zoneLaw law wrote fun z b hb => ?_) (zonesReadLaw_of_idle (congrArg Admission.walk wrote.admission)) _ _
      rw [(placedClaim_flyer _ _).2]
      have clear := zones_clear rfl rfl z b hb
      rw [← formed] at clear
      exact clear
  | amend h =>
    rw [entry] at zones_clear
    have head := walk_head hw walk
    rw [entry] at head
    obtain ⟨c, a, hr, occupying, ha⟩ := queue.amend_named (List.mem_of_mem_head? head)
    cases v with
    | some v =>
      have refused : Recedes (leaveQueue s) ((leaveQueue s).setClaim h.slot { c with amend := none, verdict := some v }) :=
        setClaim_recedes (resolve_eq_some.mp hr).2 fun _ => ⟨occupying, rfl⟩
      obtain ⟨law', read'⟩ := refused.kept left unread
      rw [completeWalk_delivered (deliverVerdict_amend_refused (s := leaveQueue s) hr v)]
      exact settled_closed law' read' _ _
    | none =>
      by_cases past : endedBy (amendedEnd c a) s.now = true
      · have refused : Recedes (leaveQueue s) ((leaveQueue s).setClaim h.slot { c with amend := none, verdict := some .stale }) :=
          setClaim_recedes (resolve_eq_some.mp hr).2 fun _ => ⟨occupying, rfl⟩
        obtain ⟨law', read'⟩ := refused.kept left unread
        rw [completeWalk_delivered (deliverVerdict_amend_stale (s := leaveQueue s) hr ha past)]
        exact settled_closed law' read' _ _
      · have passed : passAmendment h.slot c a (leaveQueue s) =
            amendGrant h.slot c a (amendedState h.slot c a (reshaped h (amendedClaim c a) s)) := rfl
        have granted (u : State) : Recedes u (amendGrant h.slot c a u) := by
          rw [amendGrant_eq]
          split
          · exact removeGrant_recedes _ _ u
          · exact .refl u
        have amended := (amendedState_recedes (d := amendedClaim c a) (c := c) a (resolve_eq_some.mp (reshaped_at hr _)).2 occupying).trans (granted _)
        obtain ⟨law', read'⟩ := amended.kept (amendPassed_law law candidate hw hr ha entry (zones_clear rfl rfl)) (zonesReadLaw_of_idle rfl)
        rw [completeWalk_delivered (deliverVerdict_amend_passed (s := leaveQueue s) hr ha past), passed]
        exact settled_closed law' read' _ _

end

/-! ## The reads (R36, R37) -/

theorem claimsReadLaw_read {s : State} (read : ClaimsReadLaw s) {w : Walk} (hw : s.admission.walk = some w) (flyer : w.cand.flyer = none)
    (span : w.cand.span = .always) {i : Slot} (has_read : hasReadSlot w i = true) {c : Claim} (hc : s.claimAt i = some c)
    (occupies : c.state.occupying = true) : c.region.overlaps w.cand.box = false := by
  have clear := read i
  rw [hw, Option.all_some, hc, Option.all_some] at clear
  simp only [staysClear, span, Bool.or_false, has_read, occupies, flyer, Bool.true_and, Bool.not_eq_true', Bool.and_eq_false_iff] at clear
  exact clear.resolve_left (by simp)

theorem setWalkPos_zoneLaws {s : State} {w : Walk} {p : WalkPos} (law : ZoneLaw s)
    (read : ∀ (z : Zone) (b : Box), s.zones[z].inForce = some b → hasReadZone { w with pos := p } z = true → w.cand.box.overlaps b = false) :
    ZoneLaw (setWalkPos w p s) ∧ ZonesReadLaw (setWalkPos w p s) := by
  refine ⟨law, zonesReadLaw_iff.mpr ?_⟩
  rintro z w' b ⟨⟩ hb has_read
  exact read z b hb has_read

section
variable {s : State} {w : Walk} (law : ZoneLaw s) (read : ZonesReadLaw s) (candidate : CandidateLaw s) (claims : ClaimsReadLaw s)
  (queue : QueueLaw s) (walk : WalkLaw s) (subject : WalkSubjectLaw s) (hw : s.admission.walk = some w)
include law read candidate claims queue walk subject hw

omit read in
theorem readSlot_zones {i : Slot} (pos : w.pos = .claims i) : ZoneLaw (readSlot w i s) ∧ ZonesReadLaw (readSlot w i s) := by
  unfold readSlot
  split
  · exact completeWalk_zones law candidate hw _ queue walk subject nofun nofun
  · next clear =>
    split
    · exact setWalkPos_zoneLaws law nofun
    · next last =>
      split
      · next zone =>
        refine completeWalk_zones law candidate hw none queue walk subject (fun _ _ flyer span j c hc occupies => ?_)
          fun _ other => absurd (other.symm.trans zone) Bool.false_ne_true
        by_cases there : j = i
        · subst there
          have slot : w.subject.slot? = none := by
            cases entry : w.subject with
            | zone z => rfl
            | book | amend =>
              rw [entry] at zone
              cases zone
          unfold State.slotConflicts at clear
          rw [hc, Option.any_some, slot, flyer, span] at clear
          simpa [occupies, Span.meets] using clear
        · refine claimsReadLaw_read claims hw flyer span ?_ hc occupies
          unfold hasReadSlot
          rw [pos]
          have apart : j.val ≠ i.val := fun same => there (Fin.ext same)
          have bound := j.isLt
          have before : j.val < i.val := by omega
          exact decide_eq_true before
      · exact setWalkPos_zoneLaws law fun z b _ has_read => by
          unfold hasReadZone at has_read
          exact absurd (of_decide_eq_true has_read) (Nat.not_lt_zero _)

theorem readZone_zones {z : Zone} (pos : w.pos = .zones z) : ZoneLaw (readZone w z s) ∧ ZonesReadLaw (readZone w z s) := by
  have all_claims : w.cand.flyer = none → w.cand.span = .always →
      ∀ (i : Slot) (c : Claim), s.claimAt i = some c → c.state.occupying = true → c.region.overlaps w.cand.box = false := by
    intro flyer span i c hc occupies
    refine claimsReadLaw_read claims hw flyer span ?_ hc occupies
    unfold hasReadSlot
    rw [pos]
  unfold readZone
  split
  · exact completeWalk_zones law candidate hw _ queue walk subject (fun _ _ => all_claims) nofun
  · next clear =>
    have below (y : Zone) (b : Box) (hb : s.zones[y].inForce = some b) (le : y.val ≤ z.val) : w.cand.box.overlaps b = false := by
      by_cases there : y = z
      · subst there
        unfold State.zoneConflicts at clear
        rw [hb, Option.any_some] at clear
        exact Bool.eq_false_iff.mpr clear
      · refine zonesReadLaw_iff.mp read y w b hw hb ?_
        unfold hasReadZone
        rw [pos]
        have apart : y.val ≠ z.val := fun same => there (Fin.ext same)
        have before : y.val < z.val := by omega
        exact decide_eq_true before
    split
    · next more =>
      refine setWalkPos_zoneLaws law fun y b hb has_read => below y b hb ?_
      unfold hasReadZone at has_read
      have before : y.val < (z + 1).val := of_decide_eq_true has_read
      have next : (z + 1).val = z.val + 1 := Fin.val_add_one_of_lt more
      omega
    · next last =>
      exact completeWalk_zones law candidate hw none queue walk subject (fun _ _ => all_claims) fun _ _ y b hb =>
        below y b hb (by have bound := y.isLt; omega)

end

/-! ## Every other effect -/

theorem requestZone_inForce {area : FixedBox} {x : ZoneSlot} {b : Box} (h : (requestZone area x).inForce = some b) : x.inForce = some b := by
  cases x with
  | set => exact h
  | empty | pending | refused => cases h

theorem setZone_recedes {z : Zone} {x : ZoneSlot} {s : State} (h : ∀ b, x.inForce = some b → s.zones[z].inForce = some b) :
    Recedes s (s.setZone z x) where
  zones := fun y b hb => by
    rw [setZone_get] at hb
    split at hb
    · next same => exact same ▸ h b hb
    · exact hb
  claims := fun _ d hd occupies => ⟨d, hd, occupies, rfl⟩
  walk := fun _ hw => .inl hw

theorem bookingMade_recedes (i : Slot) (b : Booking) (s : State) : Recedes s (bookingMade i b s) where
  zones := fun _ _ h => h
  claims := fun j d hd occupies => by
    unfold State.claimAt at hd
    rw [bookingMade_slot] at hd
    split at hd
    · cases hd
      cases occupies
    · exact ⟨d, hd, occupies, rfl⟩
  walk := fun _ h => .inl h

theorem endClock_recedes (s : State) : Recedes s (endClock s) := (endClock_untouched s).recedes

theorem CommandEffect.recedes {s t : State} (h : CommandEffect s t) : Recedes s t := by
  have closed {u : State} (k : Recedes s u) : Recedes s (closeEvent false s u) := k.trans (closeEvent_recedes false s u)
  have resumed {i : Slot} {c : Claim} {cause : HeldCause} {ended : Bool} (st : ClaimState) (at_slot : s.claimAt i = some c)
      (held : c.state = .held cause ended) : Recedes s (moveClaim i st s) := moveClaim_recedes at_slot (by rw [held]; rfl)
  cases h with
  | none => exact .refl s
  | shown | enabled | cleared | autoClear | alertEmptied | supplyEmptied | protectSet | bound | unbound | breachCleared
  | templateStored | templateEvicted | templateDropped | templateLocked | reopened => exact .of_same rfl rfl rfl
  | @claimFreed i => exact closed (freeSlot_recedes i s)
  | @claimHeld i c ended at_slot in_force =>
    rw [commandHold_closed in_force]
    exact closed (commandHeld_recedes (resolve_eq_some.mpr ⟨rfl, at_slot⟩) (in_force.imp And.left And.left))
  | @resumedOverlap i c cause at_slot held => exact closed ((resumed _ at_slot held).trans (.of_same rfl rfl rfl))
  | resumedActive at_slot held => exact closed (resumed _ at_slot held)
  | resumedOverrun at_slot held => exact closed (resumed _ at_slot held)
  | @cancelled i => exact closed ((freeSlot_recedes i s).trans (withdrawEntry_recedes _ _))
  | @booked i b => exact closed (bookingMade_recedes i b s)
  | @fired i b k w =>
    have accessed : Recedes s (accessWay k w s) := .of_same rfl rfl rfl
    exact accessed.trans ((bookingMade_recedes i b (accessWay k w s)).trans (closeEvent_recedes false (accessWay k w s) _))
  | @amended i c a at_slot _ occupying =>
    have appended (u : State) : Recedes u (appendEntry (.amend (s.handleAt i)) u) := .of_same rfl rfl rfl
    exact closed ((setClaim_recedes (d := { c with amend := some a }) at_slot fun _ => ⟨occupying, rfl⟩).trans (appended _))
  | @zoneRequested z area =>
    have appended (u : State) : Recedes u (appendEntry (.zone z) u) := .of_same rfl rfl rfl
    exact closed ((setZone_recedes fun b => requestZone_inForce).trans (appended _))
  | zoneEmptied z => 
    have emptied : Recedes s (s.setZone z .empty) := setZone_recedes fun b comes => by cases comes
    exact closed (emptied.trans (withdrawEntry_recedes _ _))
  | holdPushed src => exact closed (pushHold_recedes src true s)
  | holdReleased src =>
    rw [removeHold_eq]
    exact .of_same rfl rfl rfl
  | @clockLoaded v =>
    have loaded : Recedes s (s.setClock { s.clock with count := v, run := loadedRun s }) := .of_same rfl rfl rfl
    exact loaded.trans (windowEvent_recedes true _)
  | sourceSelected src =>
    unfold selectSource
    split <;> exact .of_same rfl rfl rfl
  | @clockSkipped d =>
    have counted : Recedes s (s.setClock { s.clock with count := min (s.clock.count + d) Config.maxTick }) := .of_same rfl rfl rfl
    exact counted.trans ((windowEvent_recedes true _).trans (endClock_recedes _))

theorem haltBlocks_recedes (s : State) : Recedes s (haltBlocks s) where
  zones := by
    obtain ⟨-, -, -, -, -, -, -, -, -, -, -, -, -, -, -, zones, -⟩ := (haltBlocks_halted s).halt
    intro z b hb
    rwa [zones] at hb
  claims := fun j d hd occupies => by
    rw [haltBlocks_claimAt] at hd
    obtain ⟨x, hx, rfl⟩ := Option.map_eq_some_iff.mp hd
    refine ⟨x, hx, ?_, rfl⟩
    have occupies : x.state.restarted.occupying = true := occupies
    cases state : x.state with
    | booked | active | held | overrun => rfl
    | queued | checking | refused =>
      rw [state] at occupies
      cases occupies
  walk := fun w hw => nomatch (haltBlocks_idle s).1.symm.trans hw

theorem takeStop_recedes (flag : Bool) (s : State) : Recedes s (takeStop flag s) := by
  have noted (u : State) : Recedes u (recordAlert .stop u) := .of_same rfl rfl rfl
  exact (pushHold_recedes _ _ _).trans (noted _)

theorem sampleLines_recedes (flag : Bool) (s : State) : Recedes s (sampleLines flag s) := by
  have stopped : Recedes s (if s.inputs.stop then takeStop flag s else s) := by
    split
    · exact takeStop_recedes flag s
    · exact .refl s
  have rung (u : State) : Recedes u (if u.inputs.ring then takeRing flag u else u) := by
    split
    · exact pushHold_recedes _ _ u
    · exact .refl u
  exact stopped.trans (rung _)

theorem returnTimers_recedes (s : State) : Recedes s (returnTimers s) := by
  have started : Recedes s (startTimers s) := .of_same rfl rfl rfl
  unfold returnTimers
  split
  · exact .refl s
  · exact started.trans (sampleLines_recedes false _)

theorem restartBlocks_recedes (s : State) : Recedes s (restartBlocks s) := by
  obtain ⟨slots, zones, admission, -⟩ := restartBlocks_same s
  exact (haltBlocks_recedes s).trans (.of_same slots zones (by rw [admission]))

theorem restartFlags_recedes (s : State) : Recedes s (restartFlags s) := .of_same rfl rfl rfl

theorem coldValues_recedes (s : State) : Recedes s (coldValues s) where
  zones := fun z b hb => by
    have empty : (coldValues s).zones[z] = .empty := Vector.getElem_replicate _
    rw [empty] at hb
    cases hb
  claims := fun j d hd => nomatch (coldValues_none s j).symm.trans hd
  walk := nofun

theorem powerOff_recedes (s : State) : Recedes s (powerOff s) := by
  have off : (powerOff s).slots = (coldValues s).slots ∧ (powerOff s).zones = (coldValues s).zones ∧
      (powerOff s).admission.walk = (coldValues s).admission.walk := ⟨rfl, rfl, rfl⟩
  exact (coldValues_recedes s).trans (.of_same off.1 off.2.1 off.2.2)

theorem sourceEvent_recedes (s : State) : Recedes s (sourceEvent s) := by
  have counted : Recedes s (s.setClock { s.clock with count := s.clock.count + 1 }) := .of_same rfl rfl rfl
  unfold sourceEvent
  split
  · exact counted.trans ((windowEvent_recedes false _).trans (endClock_recedes _))
  · exact .refl s

theorem EventEffect.zones {s t : State} (h : EventEffect reads s t) (law : ZoneLaw s) (read : ZonesReadLaw s) (candidate : CandidateLaw s)
    (claims : ClaimsReadLaw s) (queue : QueueLaw s) (walk : WalkLaw s) (subject : WalkSubjectLaw s) : ZoneLaw t ∧ ZonesReadLaw t := by
  have quiet {u : State} (k : Recedes s u) : ZoneLaw u ∧ ZonesReadLaw u := k.kept law read
  have elapsed (d : Nat) : Recedes s (elapse d s) := (elapse_untouched d s).recedes
  have closed (r u : State) : Recedes u (closeEvent false r u) := closeEvent_recedes false r u
  cases h with
  | none => exact quiet (.refl s)
  | time d => exact quiet (elapsed d)
  | heard ch bytes last => exact quiet ((hearBytes_untouched ch bytes last s).recedes)
  | unheard ch d => exact quiet ((elapsed d).trans (setChannel_untouched _ _ _).recedes)
  | misheard | discarded | sent => exact quiet ((setChannel_untouched _ _ _).recedes)
  | hello ch id => exact quiet ((Untouched.trans (setChannel_untouched _ _ s) (judgeHello_untouched ch id _)).recedes)
  | late ch d =>
    have late (u : State) : Recedes u (lateChannel ch u) := .of_same rfl rfl rfl
    exact quiet ((elapsed d).trans (late _))
  | lost ch d =>
    have alerted (u : State) : Recedes u (recordAlert (.lost ch) (u.setChannel ch { u.channels[ch] with state := .lost })) :=
      .of_same rfl rfl rfl
    exact quiet ((elapsed d).trans ((alerted _).trans ((removeGrant_recedes _ _ _).trans (closed _ _))))
  | leaseExpired f d => exact quiet ((elapsed d).trans ((removeGrant_recedes _ _ _).trans (closed _ _)))
  | @asked ch x y z =>
    have taken : Untouched s (dropHead ch (serveChannel ch s)) := ⟨rfl, rfl, rfl, rfl, id⟩
    exact quiet ((taken.trans (answerAsk_untouched ch _ _)).recedes)
  | @reported ch x y z flags =>
    have taken : Recedes s (dropHead ch (serveChannel ch s)) := .of_same rfl rfl rfl
    have stored (u : State) : Recedes u (storeReport ch (cellOf x y z) (groundedOf flags) (channelReport ch u)) := .of_same rfl rfl rfl
    exact quiet ((taken.trans ((stored _).trans (reportOutcome_recedes _ _ _ _ _))).trans (closed s _))
  | @slotRead w i _ hw pos =>
    have served : Untouched s (serveWalk s) := ⟨rfl, rfl, rfl, rfl, id⟩
    exact readSlot_zones (s := serveWalk s) law candidate claims (served.queueLaw queue) walk subject hw pos
  | @zoneRead w z _ hw pos => exact readZone_zones law read candidate claims queue walk subject hw pos
  | period t => exact quiet ((nextPeriod_untouched t s).recedes)
  | tickedPeriod t => exact quiet ((nextPeriod_untouched t s).recedes.trans (sourceEvent_recedes _))
  | pulse request =>
    have pulsed : Recedes s (s.setClock { s.clock with request := request, source := .external, pulseWatch := some 0 }) := .of_same rfl rfl rfl
    exact quiet (pulsed.trans (sourceEvent_recedes _))
  | fellBack d =>
    have fell (u : State) : Recedes u (fallBack u) := .of_same rfl rfl rfl
    exact quiet ((elapsed d).trans (fell _))
  | requestAbandoned d =>
    have gone (u : State) : Recedes u (abandonRequest u) := .of_same rfl rfl rfl
    exact quiet ((elapsed d).trans (gone _))
  | stopLevel | ringLevel | rigLock | cellFollowed => exact quiet (.of_same rfl rfl rfl)
  | stopped =>
    have lined : Recedes s (setStopLine true s) := .of_same rfl rfl rfl
    exact quiet ((lined.trans (takeStop_recedes true _)).trans (closed s _))
  | rung =>
    have lined : Recedes s (setRingLine true s) := .of_same rfl rfl rfl
    exact quiet ((lined.trans (pushHold_recedes _ _ _)).trans (closed s _))
  | backupEntry =>
    obtain ⟨slots, zones, admission, -⟩ := backupEntry_same (haltBlocks s)
    exact quiet ((haltBlocks_recedes s).trans (.of_same slots zones (by rw [admission])))
  | returnOfMain =>
    have recorded : Recedes s (setSupplyState .main (recordReturn s)) := .of_same rfl rfl rfl
    have restarted := recorded.trans (restartBlocks_recedes _)
    exact quiet ((restarted.trans ((returnTimers_recedes _).trans (restartFlags_recedes _))).trans (beginHead_recedes _))
  | resetAsserted =>
    have lined : Recedes s (setResetLine true s) := .of_same rfl rfl rfl
    exact quiet (lined.trans ((restartBlocks_recedes _).trans (restartFlags_recedes _)))
  | resetDeasserted =>
    have lined : Recedes s (startTimers (setResetLine false s)) := .of_same rfl rfl rfl
    exact quiet ((lined.trans (sampleLines_recedes true _)).trans (beginHead_recedes _))
  | resetLevel v => exact quiet (.of_same rfl rfl rfl)
  | coldHeld =>
    have stopped (u : State) : Recedes u (driveLines (stopTimers u)) := .of_same rfl rfl rfl
    exact quiet ((coldValues_recedes s).trans (stopped _))
  | coldStarted =>
    have started (u : State) : Recedes u (startTimers u) := .of_same rfl rfl rfl
    have driven (u : State) : Recedes u (driveLines u) := .of_same rfl rfl rfl
    exact quiet ((coldValues_recedes s).trans ((((started _).trans (sampleLines_recedes false _)).trans (beginHead_recedes _)).trans (driven _)))
  | poweredOff => exact quiet (powerOff_recedes s)
  | cellLost =>
    have lost : Recedes s { s with supply := { s.supply with backupPresent := false } } := .of_same rfl rfl rfl
    exact quiet (lost.trans (powerOff_recedes _))

theorem StepEffect.zones {s t : State} (h : StepEffect reads s t) (law : ZoneLaw s) (read : ZonesReadLaw s) (candidate : CandidateLaw s)
    (claims : ClaimsReadLaw s) (queue : QueueLaw s) (walk : WalkLaw s) (subject : WalkSubjectLaw s) : ZoneLaw t ∧ ZonesReadLaw t := by
  have port (u : State) (sel : Select) (x : Transaction) : Recedes u (u.setTx sel x) := by cases sel <;> exact .of_same rfl rfl rfl
  have line (u : State) (sel : Select) (v : Bool) : Recedes u (u.setSelectLow sel v) := by cases sel <;> exact .of_same rfl rfl rfl
  have quiet {u : State} (k : Recedes s u) : ZoneLaw u ∧ ZonesReadLaw u := k.kept law read
  cases h with
  | answered sel x _ _ effect => exact quiet (effect.recedes.trans (port _ sel x))
  | @opened sel => exact quiet ((line s sel true).trans (port _ sel .command))
  | fell sel => exact quiet (line s sel true)
  | @rose u sel effect =>
    have shown : Recedes s u := by
      rcases effect with rfl | rfl | ⟨m, rfl⟩ <;> exact .of_same rfl rfl rfl
    exact quiet (shown.trans ((line u sel false).trans (port _ sel .idle)))
  | event effect => exact effect.zones law read candidate claims queue walk subject

/-- Settles O60: but for the completion of a walk no box comes in force and no region is taken anew, and what a walk passes it has read clear. -/
theorem zonesKept : Obligations.ZonesKept := by
  unfold Obligations.ZonesKept
  intro s t law read candidate claims queue walk subject hs
  obtain ⟨rest, effect⟩ := step_effect hs
  exact effect.zones law read candidate claims queue walk subject

end Sys2Proof.Machine
end

section
/-! PROOF. The laws that keep the claims apart, in the form in which the proofs use them: windows, regions, and what a walk has read (R4, R5, R25, R36, R44). -/

namespace Sys2Proof.Machine

/-! ## Ends and boxes (R1) -/

theorem endedBy_mono {x : Option Nat} {m n : Nat} (h : endedBy x m = true) (le : m ≤ n) : endedBy x n = true := by
  rw [endedBy_iff] at h ⊢
  obtain ⟨e, hx, early⟩ := h
  exact ⟨e, hx, Nat.le_trans early le⟩

theorem beforeEnd_eq_false {t : Nat} {x : Option Nat} : beforeEnd t x = false ↔ endedBy x t = true := by
  unfold endedBy
  rw [Bool.not_eq_true']

theorem rangesOverlap_comm (a0 a1 b0 b1 : Nat) : rangesOverlap a0 a1 b0 b1 = rangesOverlap b0 b1 a0 a1 := Bool.and_comm _ _

theorem overlaps_comm (a b : Box) : a.overlaps b = b.overlaps a := by
  unfold Box.overlaps
  rw [rangesOverlap_comm a.x0, rangesOverlap_comm a.y0, rangesOverlap_comm a.z0]

/-- The windows of two claims are apart: one ends no later than the other starts. -/
def windowsApart (c d : Claim) : Prop := endedBy d.stop c.start = true ∨ endedBy c.stop d.start = true

theorem windowsApart.symm {c d : Claim} (h : windowsApart c d) : windowsApart d c := Or.symm h

/-! ## A claim's window (R4, R11, R12, R29, R31) -/

/-- What a claim's window must be at the count. -/
structure WindowFits (now : Nat) (c : Claim) : Prop where
  length : endedBy c.stop c.start = false
  amended : ∀ a, c.amend = some a → endedBy a.newEnd c.start = false
  booked : c.state = .booked → now < c.start
  begun : c.state.begun = true → c.start ≤ now ∧ endedBy c.stop now = c.state.overstaying

theorem windowFits_iff {now : Nat} {c : Claim} : windowFits now c = true ↔ WindowFits now c := by
  unfold windowFits
  simp only [Bool.and_eq_true, Bool.or_eq_true, Bool.not_eq_true', Option.all_eq_true, decide_eq_true_eq]
  constructor
  · rintro ⟨⟨⟨length, amended⟩, booked⟩, begun⟩
    exact ⟨length, amended, fun state => booked.resolve_left (not_not_intro state),
      fun state => begun.resolve_left fun idle => Bool.false_ne_true (idle.symm.trans state)⟩
  · rintro ⟨length, amended, booked, begun⟩
    refine ⟨⟨⟨length, amended⟩, ?_⟩, ?_⟩
    · by_cases state : c.state = .booked
      · exact .inr (booked state)
      · exact .inl state
    · by_cases state : c.state.begun = true
      · exact .inr (begun state)
      · exact .inl (Bool.eq_false_iff.mpr state)

/-- A claim that occupies is BOOKED or begun. -/
theorem booked_or_begun {st : ClaimState} (occupies : st.occupying = true) : st = .booked ∨ st.begun = true := by
  cases st with
  | booked => exact .inl rfl
  | active | held | overrun => exact .inr rfl
  | queued | checking | refused => cases occupies

/-- An occupying claim that does not overstay has not ended. -/
theorem WindowFits.not_ended {now : Nat} {c : Claim} (h : WindowFits now c) (occupies : c.state.occupying = true)
    (stays : c.state.overstaying = false) : endedBy c.stop now = false := by
  rcases booked_or_begun occupies with booked | begun
  · have before := h.booked booked
    rw [← Bool.not_eq_true]
    intro ended
    exact Bool.false_ne_true (h.length.symm.trans (endedBy_mono ended (Nat.le_of_lt before)))
  · exact (h.begun begun).2.trans stays

/-- Two begun claims that do not overstay hold the same tick. -/
theorem WindowFits.not_apart {now : Nat} {c d : Claim} (hc : WindowFits now c) (hd : WindowFits now d) (begun : c.state.begun = true)
    (begun' : d.state.begun = true) (stays : c.state.overstaying = false) (stays' : d.state.overstaying = false) : ¬ windowsApart c d := by
  obtain ⟨started, ends⟩ := hc.begun begun
  obtain ⟨started', ends'⟩ := hd.begun begun'
  rintro (ended | ended)
  · exact Bool.false_ne_true ((ends'.trans stays').symm.trans (endedBy_mono ended started))
  · exact Bool.false_ne_true ((ends.trans stays).symm.trans (endedBy_mono ended started'))

/-! ## The laws of the claims (R5, R25) -/

/-- The claims' windows fit, no HELD OVERLAP claim has ended, and claims of different flyers that meet in space are apart in time, or not both in force. -/
structure ClaimLaws (s : State) : Prop where
  window : ∀ (i : Slot) (c : Claim), s.claimAt i = some c → WindowFits s.now c
  unended : ∀ (i : Slot) (c : Claim), s.claimAt i = some c → c.state ≠ .held .overlap true
  disjoint : ∀ (i j : Slot) (c d : Claim), s.claimAt i = some c → s.claimAt j = some d → c.flyer ≠ d.flyer → c.region.overlaps d.region = true →
    c.state.occupying = true → d.state.occupying = true → c.state.overstaying = false → d.state.overstaying = false → windowsApart c d
  inForce : ∀ (i j : Slot) (c d : Claim), s.claimAt i = some c → s.claimAt j = some d → c.flyer ≠ d.flyer →
    c.state.inForce = true → d.state.inForce = true → c.region.overlaps d.region = false

theorem inForce_states {st : ClaimState} (h : st.inForce = true) : st.occupying = true ∧ st.begun = true ∧ (st = .active ∨ st = .overrun) := by
  cases st with
  | active => exact ⟨rfl, rfl, .inl rfl⟩
  | overrun => exact ⟨rfl, rfl, .inr rfl⟩
  | queued | checking | refused | booked | held => cases h

/-- How a claim in force in t may have come so: it was so before, it is ACTIVE beside no overstaying claim, or it meets no claim in force. -/
def entersForce (s t : State) (j : Slot) (d : Claim) : Prop :=
  (∃ x, s.claimAt j = some x ∧ x.state.inForce = true ∧ x.flyer = d.flyer ∧ x.region = d.region) ∨
    (d.state = .active ∧ ¬ OverstayedIn t d.flyer d.region) ∨ ¬ InForceIn t d.flyer d.region

/-- Claims in force are apart where each came so as it may. -/
theorem ClaimLaws.of_entering {s t : State} (laws : ClaimLaws s) (window : ∀ (i : Slot) (c : Claim), t.claimAt i = some c → WindowFits t.now c)
    (unended : ∀ (i : Slot) (c : Claim), t.claimAt i = some c → c.state ≠ .held .overlap true)
    (disjoint : ∀ (i j : Slot) (c d : Claim), t.claimAt i = some c → t.claimAt j = some d → c.flyer ≠ d.flyer → c.region.overlaps d.region = true →
      c.state.occupying = true → d.state.occupying = true → c.state.overstaying = false → d.state.overstaying = false → windowsApart c d)
    (enters : ∀ (j : Slot) (d : Claim), t.claimAt j = some d → d.state.inForce = true → entersForce s t j d) : ClaimLaws t := by
  refine ⟨window, unended, disjoint, fun i j c d hc hd other in_force in_force' => ?_⟩
  have free {i j : Slot} {c d : Claim} (hc : t.claimAt i = some c) (hd : t.claimAt j = some d) (other : c.flyer ≠ d.flyer)
      (in_force : d.state.inForce = true) (active : c.state = .active) (clear : ¬ OverstayedIn t c.flyer c.region) :
      c.region.overlaps d.region = false := by
    rw [← Bool.not_eq_true]
    intro meets
    obtain ⟨occupies, begun, active' | overrun⟩ := inForce_states in_force
    · refine (window i c hc).not_apart (window j d hd) (by rw [active]; rfl) begun (by rw [active]; rfl) (by rw [active']; rfl) ?_
      exact disjoint i j c d hc hd other meets (by rw [active]; rfl) occupies (by rw [active]; rfl) (by rw [active']; rfl)
    · exact clear ⟨j, d, hd, by rw [overrun]; rfl, other.symm, by rw [overlaps_comm]; exact meets⟩
  have alone {j : Slot} {c d : Claim} (hd : t.claimAt j = some d) (other : c.flyer ≠ d.flyer) (in_force : d.state.inForce = true)
      (clear : ¬ InForceIn t c.flyer c.region) : c.region.overlaps d.region = false := by
    rw [← Bool.not_eq_true]
    intro meets
    exact clear ⟨j, d, hd, in_force, other.symm, by rw [overlaps_comm]; exact meets⟩
  rcases enters i c hc in_force with ⟨x, hx, was, flyer, region⟩ | ⟨active, clear⟩ | clear
  · rcases enters j d hd in_force' with ⟨y, hy, was', flyer', region'⟩ | ⟨active, clear⟩ | clear
    · rw [← region, ← region']
      exact laws.inForce i j x y hx hy (by rw [flyer, flyer']; exact other) was was'
    · rw [overlaps_comm]
      exact free hd hc other.symm in_force active clear
    · rw [overlaps_comm]
      exact alone hc other.symm in_force clear
  · exact free hc hd other in_force' active clear
  · exact alone hd other in_force' clear

/-! ## The laws of the walk (R36, R44) -/

/-- The walk in flight has its subject's candidate, its booking CHECKING, and every claim that it has read and meets in space stays clear of it. -/
structure WalkLaws (s : State) : Prop where
  candidate : ∀ w, s.admission.walk = some w → s.candidateOf w.subject = some w.cand
  subject : ∀ (w : Walk) (h : Handle), s.admission.walk = some w → w.subject = .book h → ∃ c, s.resolve h = some c ∧ c.state = .checking
  read : ∀ (w : Walk) (i : Slot) (d : Claim), s.admission.walk = some w → s.claimAt i = some d → hasReadSlot w i = true →
    d.state.occupying = true → w.cand.flyer ≠ some d.flyer → d.region.overlaps w.cand.box = true → staysClear s.now w d = true

theorem walkLaws_of_idle {s : State} (idle : s.admission.walk = none) : WalkLaws s where
  candidate := fun _ hw => nomatch idle.symm.trans hw
  subject := fun _ _ hw => nomatch idle.symm.trans hw
  read := fun _ _ _ hw => nomatch idle.symm.trans hw

/-- A walk at its beginning in t. -/
structure BegunIn (t : State) (w : Walk) : Prop where
  pos : w.pos = .claims 0
  candidate : t.candidateOf w.subject = some w.cand
  subject : ∀ h, w.subject = .book h → ∃ c, t.resolve h = some c ∧ c.state = .checking

theorem hasReadSlot_first {w : Walk} (pos : w.pos = .claims 0) (i : Slot) : hasReadSlot w i = false := by
  unfold hasReadSlot
  rw [pos]
  exact decide_eq_false (Nat.not_lt_zero _)

/-- The laws of the walk in t, where each walk is at its beginning or goes on from s. -/
theorem WalkLaws.of_kept {s t : State} (laws : WalkLaws s)
    (walk : ∀ w, t.admission.walk = some w → BegunIn t w ∨ s.admission.walk = some w ∧
      (s.candidateOf w.subject = some w.cand → t.candidateOf w.subject = some w.cand) ∧
      (∀ (h : Handle) (c : Claim), w.subject = .book h → s.resolve h = some c → c.state = .checking → ∃ d, t.resolve h = some d ∧ d.state = .checking) ∧
      ∀ (i : Slot) (d : Claim), t.claimAt i = some d → d.state.occupying = true → ∃ x, s.claimAt i = some x ∧ x.state.occupying = true ∧
        x.flyer = d.flyer ∧ x.region = d.region ∧ (staysClear s.now w x = true → staysClear t.now w d = true)) : WalkLaws t where
  candidate := fun w hw => by
    rcases walk w hw with begun | ⟨before, candidate, -⟩
    · exact begun.candidate
    · exact candidate (laws.candidate w before)
  subject := fun w h hw subject => by
    rcases walk w hw with begun | ⟨before, -, stays, -⟩
    · exact begun.subject h subject
    · obtain ⟨c, hc, checks⟩ := laws.subject w h before subject
      exact stays h c subject hc checks
  read := fun w i d hw hd has_read occupies other meets => by
    rcases walk w hw with begun | ⟨before, -, -, claims⟩
    · exact absurd ((hasReadSlot_first begun.pos i).symm.trans has_read) Bool.false_ne_true
    · obtain ⟨x, hx, occupied, flyer, region, clear⟩ := claims i d hd occupies
      exact clear (laws.read w i x before hx has_read occupied (by rw [flyer]; exact other) (by rw [region]; exact meets))

/-- The two together. -/
structure Laws (s : State) : Prop where
  claims : ClaimLaws s
  walk : WalkLaws s

/-! ## The laws as the obligation writes them -/

theorem windowsApart_iff {c d : Claim} (now : Nat) (stays : c.state.overstaying = false) (stays' : d.state.overstaying = false) :
    (c.occupancy now).overlaps (d.occupancy now) = false ↔ windowsApart c d := by
  unfold Claim.occupancy Interval.overlaps windowsApart
  rw [stays, stays']
  simp only [Bool.false_eq_true, if_false, Bool.and_eq_false_iff, beforeEnd_eq_false]

/-- A claim test that a Boolean forbids. -/
theorem forbids_iff {a b : Bool} : (!(a && b)) = true ↔ (a = true → b = false) := by
  cases a <;> simp

theorem inForceLaw_iff {s : State} : InForceLaw s ↔ ∀ (i j : Slot) (c d : Claim), s.claimAt i = some c → s.claimAt j = some d → c.flyer ≠ d.flyer →
    c.state.inForce = true → d.state.inForce = true → c.region.overlaps d.region = false := by
  unfold InForceLaw
  simp only [Option.all_eq_true, forbids_iff, Bool.and_eq_true, decide_eq_true_eq]
  exact ⟨fun h i j c d hc hd other in_force in_force' => h i j c hc d hd ⟨⟨in_force, in_force'⟩, other⟩,
    fun h i j c hc d hd ⟨⟨in_force, in_force'⟩, other⟩ => h i j c d hc hd other in_force in_force'⟩

theorem disjointLaw_iff {s : State} : DisjointLaw s ↔ ∀ (i j : Slot) (c d : Claim), s.claimAt i = some c → s.claimAt j = some d →
    c.flyer ≠ d.flyer → c.region.overlaps d.region = true → c.state.occupying = true → d.state.occupying = true →
    c.state.overstaying = false → d.state.overstaying = false → windowsApart c d := by
  unfold DisjointLaw
  simp only [Option.all_eq_true, forbids_iff]
  simp only [Bool.and_eq_true, decide_eq_true_eq, Bool.not_eq_true']
  constructor
  · intro h i j c d hc hd other meets occupies occupies' stays stays'
    exact (windowsApart_iff _ stays stays').mp (h i j c hc d hd ⟨⟨⟨⟨⟨occupies, stays⟩, occupies'⟩, stays'⟩, other⟩, meets⟩)
  · rintro h i j c hc d hd ⟨⟨⟨⟨⟨occupies, stays⟩, occupies'⟩, stays'⟩, other⟩, meets⟩
    exact (windowsApart_iff _ stays stays').mpr (h i j c d hc hd other meets occupies occupies' stays stays')

theorem claimsReadLaw_iff {s : State} : ClaimsReadLaw s ↔ ∀ (w : Walk) (i : Slot) (d : Claim), s.admission.walk = some w → s.claimAt i = some d →
    hasReadSlot w i = true → d.state.occupying = true → w.cand.flyer ≠ some d.flyer → d.region.overlaps w.cand.box = true →
    staysClear s.now w d = true := by
  unfold ClaimsReadLaw
  simp only [Option.all_eq_true, Bool.or_eq_true, Bool.not_eq_true', Bool.and_eq_false_iff, decide_eq_false_iff_not, Classical.not_not]
  constructor
  · intro h w i d hw hd has_read occupies other meets
    rcases h i w hw d hd with (((unread | idle) | own) | clear) | stays
    · exact absurd (unread.symm.trans has_read) Bool.false_ne_true
    · exact absurd (idle.symm.trans occupies) Bool.false_ne_true
    · exact absurd own other
    · exact absurd (clear.symm.trans meets) Bool.false_ne_true
    · exact stays
  · intro h i w hw d hd
    by_cases has_read : hasReadSlot w i = true
    · by_cases occupies : d.state.occupying = true
      · by_cases other : w.cand.flyer = some d.flyer
        · exact .inl (.inl (.inr other))
        · by_cases meets : d.region.overlaps w.cand.box = true
          · exact .inr (h w i d hw hd has_read occupies other meets)
          · exact .inl (.inr (Bool.eq_false_iff.mpr meets))
      · exact .inl (.inl (.inl (.inr (Bool.eq_false_iff.mpr occupies))))
    · exact .inl (.inl (.inl (.inl (Bool.eq_false_iff.mpr has_read))))

theorem Laws.of_obligation {s : State} (in_force : InForceLaw s) (window : WindowLaw s) (disjoint : DisjointLaw s) (candidate : CandidateLaw s)
    (read : ClaimsReadLaw s) (overlap : OverlapLaw s) (subject : WalkSubjectLaw s) : Laws s where
  claims := {
    window := fun i c hc => windowFits_iff.mp ((Option.all_eq_true _ _).mp (window i) c hc)
    unended := overlap.not_ended
    disjoint := disjointLaw_iff.mp disjoint
    inForce := inForceLaw_iff.mp in_force }
  walk := {
    candidate := fun _ hw => candidate.eq hw
    subject := fun _ _ hw => subject.checks hw
    read := claimsReadLaw_iff.mp read }

theorem Laws.to_obligation {s : State} (laws : Laws s) :
    InForceLaw s ∧ WindowLaw s ∧ DisjointLaw s ∧ CandidateLaw s ∧ ClaimsReadLaw s := by
  obtain ⟨⟨window, -, disjoint, in_force⟩, candidate, -, read⟩ := laws
  exact ⟨inForceLaw_iff.mpr in_force, fun i => (Option.all_eq_true _ _).mpr fun c hc => windowFits_iff.mpr (window i c hc),
    disjointLaw_iff.mpr disjoint, (Option.all_eq_true _ _).mpr fun w hw => decide_eq_true (candidate w hw), claimsReadLaw_iff.mpr read⟩

end Sys2Proof.Machine
end

section
/-! PROOF. The laws that keep the claims apart through the operations on one claim, one entry and the walk (R7, R9, R28, R45, R46). -/

namespace Sys2Proof.Machine

/-! ## Claims alike -/

/-- d is x but for its state, of the same phase, and for an amendment whose end fits. -/
structure Kin (x d : Claim) : Prop where
  flyer : d.flyer = x.flyer
  box : d.box = x.box
  start : d.start = x.start
  stop : d.stop = x.stop
  amend : ∀ a, d.amend = some a → x.amend = some a ∨ endedBy a.newEnd d.start = false
  occupying : d.state.occupying = x.state.occupying
  begun : d.state.begun = x.state.begun
  overstaying : d.state.overstaying = x.state.overstaying

theorem Kin.refl (x : Claim) : Kin x x := ⟨rfl, rfl, rfl, rfl, fun _ => .inl, rfl, rfl, rfl⟩

/-- Two states of one phase: both occupy or neither, both have begun or neither, both overstay or neither. -/
structure SamePhase (a b : ClaimState) : Prop where
  occupying : b.occupying = a.occupying
  begun : b.begun = a.begun
  overstaying : b.overstaying = a.overstaying

theorem SamePhase.kin {c : Claim} {st : ClaimState} (h : SamePhase c.state st) : Kin c { c with state := st } :=
  ⟨rfl, rfl, rfl, rfl, fun _ => .inl, h.occupying, h.begun, h.overstaying⟩

section
variable {x d : Claim} (h : Kin x d)
include h

theorem Kin.region : d.region = x.region := congrArg Box.region h.box

theorem Kin.booked (booked : d.state = .booked) : x.state = .booked := by
  have occupies := h.occupying
  have begun := h.begun
  rw [booked] at occupies begun
  exact (booked_or_begun occupies.symm).resolve_right fun state => Bool.false_ne_true (begun.trans state)

theorem Kin.windowFits {now : Nat} (fits : WindowFits now x) : WindowFits now d where
  length := by rw [h.stop, h.start]; exact fits.length
  amended := fun a ha => (h.amend a ha).elim (fun was => by rw [h.start]; exact fits.amended a was) id
  booked := fun booked => by rw [h.start]; exact fits.booked (h.booked booked)
  begun := fun begun => by
    rw [h.start, h.stop, h.overstaying]
    exact fits.begun (h.begun.symm.trans begun)

theorem Kin.staysClear {now : Nat} {w : Walk} (clear : Machine.staysClear now w x = true) : Machine.staysClear now w d = true := by
  unfold Machine.staysClear at clear ⊢
  rw [h.start, h.stop]
  exact clear

theorem Kin.windowsApart {x' d' : Claim} (h' : Kin x' d') (apart : Machine.windowsApart x x') : Machine.windowsApart d d' := by
  unfold Machine.windowsApart at apart ⊢
  rw [h.start, h.stop, h'.start, h'.stop]
  exact apart

end

/-- A claim that occupies nothing asks for no more than its window. -/
theorem windowFits_of_idle {now : Nat} {d : Claim} (idle : d.state.occupying = false) (length : endedBy d.stop d.start = false)
    (amended : ∀ a, d.amend = some a → endedBy a.newEnd d.start = false) : WindowFits now d where
  length := length
  amended := amended
  booked := fun booked => by
    rw [booked] at idle
    cases idle
  begun := fun begun => by
    cases hs : d.state <;> rw [hs] at idle begun
    case active | held | overrun => cases idle
    all_goals cases begun

/-! ## Steps at one count -/

/-- The laws of the claims in t, where each is akin to one of s, or occupies nothing. -/
theorem ClaimLaws.of_kin {s t : State} (laws : ClaimLaws s) (now : t.now = s.now)
    (kin : ∀ (j : Slot) (d : Claim), t.claimAt j = some d → (∃ x, s.claimAt j = some x ∧ Kin x d) ∨ (d.state.occupying = false ∧ WindowFits t.now d))
    (unended : ∀ (i : Slot) (c : Claim), t.claimAt i = some c → c.state ≠ .held .overlap true)
    (enters : ∀ (j : Slot) (d : Claim), t.claimAt j = some d → d.state.inForce = true → entersForce s t j d) : ClaimLaws t := by
  have akin {j : Slot} {d : Claim} (hd : t.claimAt j = some d) (occupies : d.state.occupying = true) : ∃ x, s.claimAt j = some x ∧ Kin x d :=
    (kin j d hd).resolve_right fun ⟨idle, _⟩ => Bool.false_ne_true (idle.symm.trans occupies)
  refine laws.of_entering (fun j d hd => ?_) unended (fun i j c d hc hd other meets occupies occupies' stays stays' => ?_) enters
  · rcases kin j d hd with ⟨x, hx, k⟩ | ⟨-, fits⟩
    · rw [now]
      exact k.windowFits (laws.window j x hx)
    · exact fits
  · obtain ⟨x, hx, k⟩ := akin hc occupies
    obtain ⟨y, hy, k'⟩ := akin hd occupies'
    refine k.windowsApart k' (laws.disjoint i j x y hx hy ?_ ?_ ?_ ?_ ?_ ?_)
    · rw [← k.flyer, ← k'.flyer]
      exact other
    · rw [← k.region, ← k'.region]
      exact meets
    · exact k.occupying.symm.trans occupies
    · exact k'.occupying.symm.trans occupies'
    · exact k.overstaying.symm.trans stays
    · exact k'.overstaying.symm.trans stays'

/-- From s to t the walk in flight goes on, its subject as it was. -/
structure GoesOn (s t : State) (w : Walk) : Prop where
  before : s.admission.walk = some w
  book : ∀ (h : Handle) (c : Claim), w.subject = .book h → s.resolve h = some c → c.state = .checking → ∃ d, t.resolve h = some d ∧ Kin c d ∧ d.state = .checking
  amend : ∀ (h : Handle) (c : Claim) (a : Amendment), w.subject = .amend h → s.resolve h = some c → c.amend = some a →
    ∃ d, t.resolve h = some d ∧ Kin c d ∧ d.amend = some a
  zone : ∀ z, w.subject = .zone z → s.candidateOf (.zone z) = some w.cand → t.candidateOf (.zone z) = some w.cand

theorem GoesOn.of_same {s t : State} {w : Walk} (slots : t.slots = s.slots) (zones : t.zones = s.zones) (hw : s.admission.walk = some w) :
    GoesOn s t w where
  before := hw
  book := fun h c _ hc checks => ⟨c, (resolve_congr slots h).trans hc, .refl c, checks⟩
  amend := fun h c _ _ hc ha => ⟨c, (resolve_congr slots h).trans hc, .refl c, ha⟩
  zone := fun z _ candidate => (candidateOf_congr slots zones (.zone z)).trans candidate

theorem amendCandidate_kin {c d : Claim} (h : Kin c d) (a : Amendment) : amendCandidate d a = amendCandidate c a := by
  unfold amendCandidate
  rw [h.flyer, h.box, h.start, h.stop, h.overstaying]

section
variable {s t : State} {w : Walk} (h : GoesOn s t w) (laws : WalkLaws s)
include h

theorem GoesOn.candidate (subject : ∀ g, w.subject = .book g → ∃ c, s.resolve g = some c ∧ c.state = .checking)
    (candidate : s.candidateOf w.subject = some w.cand) : t.candidateOf w.subject = some w.cand := by
  cases entry : w.subject with
  | book g =>
    obtain ⟨c, hc, checks⟩ := subject g entry
    obtain ⟨d, hd, k, -⟩ := h.book g c entry hc checks
    rw [← candidate, entry]
    simp only [State.candidateOf, hc, hd, Option.map_some, k.flyer, k.region, k.start, k.stop]
  | amend g =>
    rw [entry] at candidate
    simp only [State.candidateOf] at candidate
    obtain ⟨c, hc, amends⟩ := Option.bind_eq_some_iff.mp candidate
    obtain ⟨a, ha, cand⟩ := Option.map_eq_some_iff.mp amends
    obtain ⟨d, hd, k, ha'⟩ := h.amend g c a entry hc ha
    simp only [State.candidateOf, hd, Option.bind_some, ha', Option.map_some, amendCandidate_kin k, cand]
  | zone z =>
    rw [entry] at candidate
    exact h.zone z entry candidate

end

/-- The laws of the walk in t, where each walk is at its beginning or goes on. -/
theorem WalkLaws.of_kin {s t : State} (laws : WalkLaws s) (now : t.now = s.now)
    (kin : ∀ (j : Slot) (d : Claim), t.claimAt j = some d → (∃ x, s.claimAt j = some x ∧ Kin x d) ∨ (d.state.occupying = false ∧ WindowFits t.now d))
    (walk : ∀ w, t.admission.walk = some w → BegunIn t w ∨ GoesOn s t w) : WalkLaws t := by
  refine laws.of_kept fun w hw => (walk w hw).imp_right fun goes => ⟨goes.before, goes.candidate fun g entry => laws.subject w g goes.before entry,
    fun h c entry hc checks => ?_, fun i d hd occupies => ?_⟩
  · obtain ⟨d, hd, -, checks'⟩ := goes.book h c entry hc checks
    exact ⟨d, hd, checks'⟩
  · obtain ⟨x, hx, k⟩ := (kin i d hd).resolve_right fun ⟨idle, _⟩ => Bool.false_ne_true (idle.symm.trans occupies)
    refine ⟨x, hx, k.occupying.symm.trans occupies, k.flyer.symm, k.region.symm, fun clear => ?_⟩
    rw [now]
    exact k.staysClear clear

/-- The laws in t, where each claim is akin to one of s or occupies nothing, comes in force as it may, and each walk begins or goes on. -/
theorem Laws.of_kin {s t : State} (laws : Laws s) (now : t.now = s.now)
    (kin : ∀ (j : Slot) (d : Claim), t.claimAt j = some d → (∃ x, s.claimAt j = some x ∧ Kin x d) ∨ (d.state.occupying = false ∧ WindowFits t.now d))
    (unended : ∀ (i : Slot) (c : Claim), t.claimAt i = some c → c.state ≠ .held .overlap true)
    (enters : ∀ (j : Slot) (d : Claim), t.claimAt j = some d → d.state.inForce = true → entersForce s t j d)
    (walk : ∀ w, t.admission.walk = some w → BegunIn t w ∨ GoesOn s t w) : Laws t :=
  ⟨laws.claims.of_kin now kin unended enters, laws.walk.of_kin now kin walk⟩

/-! ## What does not touch the claims -/

theorem Laws.of_same {s t : State} (laws : Laws s) (slots : t.slots = s.slots) (zones : t.zones = s.zones)
    (walk : t.admission.walk = s.admission.walk) (now : t.now = s.now) : Laws t := by
  have same (j : Slot) (d : Claim) (hd : t.claimAt j = some d) : s.claimAt j = some d := (claimAt_congr slots j).symm.trans hd
  exact laws.of_kin now (fun j d hd => .inl ⟨d, same j d hd, .refl d⟩) (fun i c hc => laws.claims.unended i c (same i c hc))
    (fun j d hd in_force => .inl ⟨d, same j d hd, in_force, rfl, rfl⟩) fun w hw => .inr (.of_same slots zones (walk.symm.trans hw))

/-- Claims that stay or are freed. -/
theorem Laws.of_fewer {s t : State} (laws : Laws s) (now : t.now = s.now) (fewer : ∀ (j : Slot) (d : Claim), t.claimAt j = some d → s.claimAt j = some d)
    (walk : ∀ w, t.admission.walk = some w → BegunIn t w ∨ GoesOn s t w) : Laws t :=
  laws.of_kin now (fun j d hd => .inl ⟨d, fewer j d hd, .refl d⟩) (fun i c hc => laws.claims.unended i c (fewer i c hc))
    (fun j d hd in_force => .inl ⟨d, fewer j d hd, in_force, rfl, rfl⟩) walk

/-! ## Entries withdrawn, claims freed (R9, R46) -/

/-- The walk that an entry's withdrawal leaves is of another entry. -/
theorem withdrawEntry_walk {e : Entry} {s : State} {w : Walk} (hw : (withdrawEntry e s).admission.walk = some w) :
    s.admission.walk = some w ∧ w.subject ≠ e := by
  obtain ⟨on, off⟩ := withdrawEntry_goes e s
  have other (v : Walk) (hv : s.admission.walk = some v) : v.subject ≠ e := fun own => by
    rw [(on v hv own).1] at hw
    cases hw
  have before := (off other).1.symm.trans hw
  exact ⟨before, other w before⟩

theorem Laws.withdrawEntry {s : State} (laws : Laws s) (e : Entry) : Laws (withdrawEntry e s) := by
  have slots := withdrawEntry_slots e s
  have frame := withdrawEntry_frame e s
  exact laws.of_fewer frame.now (fun j d hd => (claimAt_congr slots j).symm.trans hd)
    fun w hw => .inr (.of_same slots frame.zones (withdrawEntry_walk hw).1)

/-- The walk that a slot's freeing leaves is of no amendment of its claim. -/
theorem freeSlot_walk {i : Slot} {s : State} {w : Walk} (hw : (freeSlot i s).admission.walk = some w) :
    s.admission.walk = some w ∧ ∀ c, s.claimAt i = some c → c.amend.isSome = true → w.subject ≠ .amend (s.handleAt i) := by
  unfold freeSlot at hw
  split at hw
  · next free => exact ⟨hw, fun c hc => nomatch free.symm.trans hc⟩
  · next c hc =>
    dsimp only at hw
    split at hw
    · obtain ⟨before, other⟩ := withdrawEntry_walk hw
      exact ⟨before, fun _ _ _ => other⟩
    · next plain =>
      refine ⟨hw, fun d hd amends => ?_⟩
      cases hc.symm.trans hd
      exact absurd amends plain

theorem freeSlot_zones (i : Slot) (s : State) : (freeSlot i s).zones = s.zones := (freeSlot_frame i s).zones

theorem Laws.freeSlot {s : State} (laws : Laws s) {i : Slot} (not_checking : ∀ c, s.claimAt i = some c → c.state ≠ .checking) :
    Laws (freeSlot i s) := by
  have claims (j : Slot) := freeSlot_claimAt i j s
  have stays {h : Handle} {c : Claim} (hc : s.resolve h = some c) (other : i ≠ h.slot) : (Machine.freeSlot i s).resolve h = some c := by
    obtain ⟨gen, claim⟩ := resolve_eq_some.mp hc
    refine resolve_eq_some.mpr ⟨(freeSlot_gen i _ s).trans gen, ?_⟩
    rw [claims, if_neg other]
    exact claim
  refine laws.of_fewer (freeSlot_frame i s).now (fun j d hd => ?_) fun w hw => .inr ?_
  · rw [claims] at hd
    split at hd
    · cases hd
    · exact hd
  · obtain ⟨before, other⟩ := freeSlot_walk hw
    refine ⟨before, fun h c entry hc checks => ⟨c, stays hc ?_, .refl c, checks⟩, fun h c a entry hc ha => ⟨c, stays hc ?_, .refl c, ha⟩,
      fun z entry candidate => ?_⟩
    · rintro rfl
      exact not_checking c (resolve_eq_some.mp hc).2 checks
    · rintro rfl
      refine other c (resolve_eq_some.mp hc).2 (by rw [ha]; rfl) ?_
      rw [entry, handleAt_eq hc]
    · simp only [State.candidateOf, freeSlot_zones] at candidate ⊢
      exact candidate

/-! ## A claim moved (R45) -/

/-- The walk that a claim's move leaves begins again where the claim is its subject, or goes on. -/
theorem moveClaim_walk {i : Slot} {st : ClaimState} {s : State} {w : Walk} (hw : (moveClaim i st s).admission.walk = some w) :
    s.admission.walk = some w ∨ w.pos = .claims 0 ∧ (∃ h, w.subject = .amend h) ∧ (moveClaim i st s).candidateOf w.subject = some w.cand := by
  unfold moveClaim at hw ⊢
  split at hw
  · exact .inl hw
  · next c hc =>
    dsimp only at hw
    split at hw
    · next moved =>
      obtain ⟨cand, candidate, rfl⟩ := Option.map_eq_some_iff.mp hw
      right
      dsimp only
      rw [if_pos moved]
      exact ⟨rfl, ⟨_, rfl⟩, candidate⟩
    · exact .inl hw

theorem Laws.moveClaim {s : State} (laws : Laws s) {i : Slot} {c : Claim} {st : ClaimState} (hc : s.claimAt i = some c)
    (phase : SamePhase c.state st) (occupies : c.state.occupying = true) (unended : st ≠ .held .overlap true)
    (enters : st.inForce = true → c.state.inForce = true ∨ (st = .active ∧ s.overlapsOverstayer c.flyer c.region = false) ∨
      s.overlapsInForce c.flyer c.region = false) : Laws (moveClaim i st s) := by
  have claims (j : Slot) : (Machine.moveClaim i st s).claimAt j = if i = j then some { c with state := st } else s.claimAt j := by
    rw [moveClaim_claimAt, hc]
    rfl
  have others {k : Slot} {e : Claim} (he : (Machine.moveClaim i st s).claimAt k = some e) (other : e.flyer ≠ c.flyer) : s.claimAt k = some e := by
    rw [claims] at he
    split at he
    · cases he
      exact absurd rfl other
    · exact he
  have stays {h : Handle} {d : Claim} (hd : s.resolve h = some d) : ∃ e, (Machine.moveClaim i st s).resolve h = some e ∧ Kin d e ∧
      e.amend = d.amend ∧ (d.state = .checking → e.state = .checking) := by
    obtain ⟨gen, claim⟩ := resolve_eq_some.mp hd
    have gen' := (moveClaim_gen i h.slot st s).trans gen
    by_cases own : i = h.slot
    · rw [← own, hc] at claim
      cases claim
      refine ⟨_, resolve_eq_some.mpr ⟨gen', (claims _).trans (if_pos own)⟩, phase.kin, rfl, fun checks => ?_⟩
      rw [checks] at occupies
      cases occupies
    · exact ⟨d, resolve_eq_some.mpr ⟨gen', (claims _).trans ((if_neg own).trans claim)⟩, .refl d, rfl, id⟩
  have frame := moveClaim_frame i st s
  refine laws.of_kin frame.now (fun j d hd => .inl ?_) (fun j d hd => ?_) (fun j d hd in_force => ?_) fun w hw => ?_
  · rw [claims] at hd
    split at hd
    · next own =>
      cases hd
      exact ⟨c, own ▸ hc, phase.kin⟩
    · exact ⟨d, hd, .refl d⟩
  · rw [claims] at hd
    split at hd
    · cases hd
      exact unended
    · exact laws.claims.unended j d hd
  · rw [claims] at hd
    split at hd
    · next own =>
      cases hd
      rcases enters in_force with was | ⟨active, clear⟩ | clear
      · exact .inl ⟨c, own ▸ hc, was, rfl, rfl⟩
      · refine .inr (.inl ⟨active, ?_⟩)
        rintro ⟨k, e, he, overstays, other, meets⟩
        exact Bool.false_ne_true (clear.symm.trans ((overlapsOverstayer_iff _ _ _).mpr ⟨k, e, others he other, overstays, other, meets⟩))
      · refine .inr (.inr ?_)
        rintro ⟨k, e, he, in_force', other, meets⟩
        exact Bool.false_ne_true (clear.symm.trans ((overlapsInForce_iff _ _ _).mpr ⟨k, e, others he other, in_force', other, meets⟩))
    · exact .inl ⟨d, hd, in_force, rfl, rfl⟩
  · rcases moveClaim_walk hw with before | ⟨pos, ⟨h, amends⟩, candidate⟩
    · refine .inr ⟨before, fun h d entry hd checks => ?_, fun h d a entry hd ha => ?_, fun z entry candidate => ?_⟩
      · obtain ⟨e, he, k, -, checks'⟩ := stays hd
        exact ⟨e, he, k, checks' checks⟩
      · obtain ⟨e, he, k, amend, -⟩ := stays hd
        exact ⟨e, he, k, amend.trans ha⟩
      · have zones := frame.zones
        simp only [State.candidateOf, zones] at candidate ⊢
        exact candidate
    · refine .inl ⟨pos, candidate, fun g entry => ?_⟩
      rw [amends] at entry
      cases entry

/-! ## The close of an event (R13, R28) -/

theorem Laws.raiseFlag {s : State} (laws : Laws s) (f : Flag) : Laws (raiseFlag f s) := laws.of_same rfl rfl rfl rfl

theorem Laws.releaseOverlap {s : State} (laws : Laws s) (i : Slot) : Laws (releaseOverlap i s) := by
  unfold Machine.releaseOverlap
  split
  · exact laws
  · next c hc =>
    split
    · next ended held =>
      have open_ended : ended = false := by
        cases ended with
        | false => rfl
        | true => exact absurd held (laws.claims.unended i c hc)
      subst open_ended
      have occupies : c.state.occupying = true := by rw [held]; rfl
      split
      · exact laws
      · next clear =>
        split
        · exact laws.moveClaim hc (by rw [held]; exact ⟨rfl, rfl, rfl⟩) occupies nofun nofun
        · refine (laws.moveClaim (st := .active) hc (by rw [held]; exact ⟨rfl, rfl, rfl⟩) occupies nofun fun _ => ?_).raiseFlag _
          exact .inr (.inl ⟨rfl, Bool.eq_false_iff.mpr clear⟩)
    · exact laws

theorem foldSlots_laws {f : State → Slot → State} (h : ∀ t i, Laws t → Laws (f t i)) {s : State} (laws : Laws s) : Laws (allSlots.foldl f s) :=
  foldl_frame (fun t u => Laws t → Laws u) (fun _ => id) (fun _ _ _ h k => k ∘ h) f h allSlots s laws

theorem Laws.recheck {s : State} (laws : Laws s) : Laws (recheck s) := foldSlots_laws (fun _ i ht => ht.releaseOverlap i) laws

theorem Laws.formWalk {s : State} (laws : Laws s) {e : Entry} (not_book : ∀ h, e ≠ .book h) : Laws (formWalk e s) :=
  laws.of_fewer rfl (fun _ _ hd => hd) fun w hw => by
    obtain ⟨cand, candidate, rfl⟩ := Option.map_eq_some_iff.mp hw
    exact .inl ⟨rfl, candidate, fun h own => absurd own (not_book h)⟩

/-- The walk of a booking begun, its claim CHECKING (R7, R34). -/
theorem Laws.begunBook {s : State} (laws : Laws s) {h : Handle} {c : Claim} (hc : s.resolve h = some c) :
    Laws ((Machine.formWalk (.book h) s).setClaim h.slot { c with state := .checking }) := by
  obtain ⟨gen, at_slot⟩ := resolve_eq_some.mp hc
  have claims (j : Slot) : ((Machine.formWalk (.book h) s).setClaim h.slot { c with state := .checking }).claimAt j =
      if h.slot = j then some { c with state := .checking } else s.claimAt j := setClaim_claimAt (Machine.formWalk (.book h) s) h.slot j _
  have named : ((Machine.formWalk (.book h) s).setClaim h.slot { c with state := .checking }).resolve h = some { c with state := .checking } :=
    resolve_eq_some.mpr ⟨(setClaim_gen (Machine.formWalk (.book h) s) h.slot h.slot _).trans gen, (claims _).trans (if_pos rfl)⟩
  have fits := laws.claims.window h.slot c at_slot
  refine laws.of_kin rfl (fun j d hd => ?_) (fun j d hd => ?_) (fun j d hd in_force => ?_) fun w hw => .inl ?_
  · rw [claims] at hd
    split at hd
    · cases hd
      exact .inr ⟨rfl, windowFits_of_idle rfl fits.length fits.amended⟩
    · exact .inl ⟨d, hd, .refl d⟩
  · rw [claims] at hd
    split at hd
    · cases hd
      nofun
    · exact laws.claims.unended j d hd
  · rw [claims] at hd
    split at hd
    · cases hd
      cases in_force
    · exact .inl ⟨d, hd, in_force, rfl, rfl⟩
  · obtain ⟨cand, candidate, rfl⟩ := Option.map_eq_some_iff.mp hw
    refine ⟨rfl, ?_, fun g entry => ?_⟩
    · simp only [State.candidateOf, hc, named, Option.map_some] at candidate ⊢
      exact candidate
    · cases entry
      exact ⟨_, named, rfl⟩

theorem Laws.beginHead {s : State} (laws : Laws s) : Laws (beginHead s) := by
  unfold Machine.beginHead
  split
  · split
    · exact laws
    · next e l _ =>
      unfold checkSubject
      cases e with
      | book h =>
        have named : (Machine.formWalk (.book h) s).resolve h = s.resolve h := rfl
        dsimp only
        rw [named]
        cases hc : s.resolve h with
        | some c => exact laws.begunBook hc
        | none =>
          refine laws.of_fewer rfl (fun _ _ hd => hd) fun w hw => ?_
          obtain ⟨cand, candidate, -⟩ := Option.map_eq_some_iff.mp hw
          simp only [State.candidateOf, hc, Option.map_none] at candidate
          cases candidate
      | amend h => exact laws.formWalk nofun
      | zone z => exact laws.formWalk nofun
  · exact laws

theorem Laws.closeEvent {s : State} (laws : Laws s) (asked : Bool) (r : State) : Laws (closeEvent asked r s) := by
  unfold Machine.closeEvent
  split
  · exact laws.recheck.beginHead
  · exact laws.beginHead

/-! ## Grants, holds and breaches (R15, R16, R103, R119) -/

theorem Laws.expireSlot {s : State} (laws : Laws s) {i : Slot} (not_checking : ∀ c, s.claimAt i = some c → c.state ≠ .checking) :
    Laws (expireSlot i s) := (laws.freeSlot not_checking).raiseFlag _

theorem Laws.groundedEvent {s : State} (laws : Laws s) (f : Flyer) : Laws (groundedEvent f s) := by
  unfold Machine.groundedEvent
  refine foldSlots_laws (fun t i ht => ?_) laws
  split
  · next c hc =>
    split
    · next ends =>
      simp only [Bool.and_eq_true, decide_eq_true_eq] at ends
      refine ht.expireSlot fun d hd => ?_
      cases hc.symm.trans hd
      rw [ends.1.2]
      nofun
    · exact ht
  · exact ht

theorem Laws.removeGrant {s : State} (laws : Laws s) (f : Flyer) (why : Reason) : Laws (removeGrant f why s) := by
  unfold Machine.removeGrant
  split
  · exact laws
  · next g _ =>
    have quiet : Laws (queueFrame f (.revoke g.seq why) (drivePermits f .low (s.setGrant f { s.grants[f] with live := none }))) :=
      laws.of_same rfl rfl rfl rfl
    dsimp only
    split
    · exact quiet.groundedEvent f
    · exact quiet

theorem Laws.removeAllGrants {s : State} (laws : Laws s) : Laws (removeAllGrants s) :=
  foldl_frame (fun t u => Laws t → Laws u) (fun _ => id) (fun _ _ _ h k => k ∘ h) _ (fun _ f ht => ht.removeGrant f .hold) allFlyers s laws

theorem Laws.freezeClock {s : State} (laws : Laws s) : Laws (freezeClock s) := by
  have now := freezeClock_now s
  rw [freeze_clock] at now ⊢
  exact laws.of_same rfl rfl rfl now

theorem Laws.pushHold {s : State} (laws : Laws s) (src : HoldSource) (flag : Bool) : Laws (pushHold src flag s) := by
  have appended : Laws { s with holds := s.holds ++ [{ source := src, tick := s.now }] } := laws.of_same rfl rfl rfl rfl
  have raised : Laws (if flag then Machine.raiseFlag .holdsChanged { s with holds := s.holds ++ [{ source := src, tick := s.now }] }
      else { s with holds := s.holds ++ [{ source := src, tick := s.now }] }) := by
    split
    · exact appended.raiseFlag _
    · exact appended
  unfold Machine.pushHold
  split
  · exact laws
  · dsimp only
    split
    · exact raised.removeAllGrants.freezeClock
    · exact raised

theorem Laws.breachClaims {s : State} (laws : Laws s) (f : Flyer) : Laws (breachClaims f s) := by
  unfold Machine.breachClaims
  refine foldSlots_laws (fun t i ht => ?_) laws
  unfold breachClaim
  split
  · exact ht
  · next c hc =>
    split
    · split
      · next state => exact ht.moveClaim hc (by rw [state]; exact ⟨rfl, rfl, rfl⟩) (by rw [state]; rfl) nofun nofun
      · next state => exact ht.moveClaim hc (by rw [state]; exact ⟨rfl, rfl, rfl⟩) (by rw [state]; rfl) nofun nofun
      · exact ht
    · exact ht

theorem Laws.breachResponse {s : State} (laws : Laws s) (f : Flyer) (kind : BreachKind) (cell : Cell) : Laws (breachResponse f kind cell s) := by
  have noted {u : State} (hu : Laws u) : Laws (Machine.recordAlert (breachAlert f kind) (writeBreach f kind cell u)) := hu.of_same rfl rfl rfl rfl
  have recorded := noted ((laws.removeGrant f .breach).breachClaims f)
  unfold Machine.breachResponse
  dsimp only
  split
  · exact recorded.pushHold _ _
  · exact recorded

theorem Laws.reportOutcome {s : State} (laws : Laws s) (f : Flyer) (cell : Cell) (grounded : Bool) (v : Option BreachKind) :
    Laws (reportOutcome f cell grounded v s) := by
  unfold Machine.reportOutcome
  split
  · exact laws.breachResponse _ _ _
  · split
    · exact laws.groundedEvent f
    · exact laws

theorem Laws.commandHeld {s : State} (laws : Laws s) {h : Handle} {c : Claim} (hr : s.resolve h = some c)
    (begun : c.state = .active ∨ c.state = .overrun) : Laws (commandHeld h c s) := by
  have phase : SamePhase c.state (.held .command (decide (c.state = .overrun))) := by
    rcases begun with state | state <;> rw [state] <;> exact ⟨rfl, rfl, rfl⟩
  have moved := laws.moveClaim (resolve_eq_some.mp hr).2 phase (by rcases begun with state | state <;> rw [state] <;> rfl) nofun nofun
  unfold Machine.commandHeld
  dsimp only
  split
  · exact moved.removeGrant _ _
  · exact moved

end Sys2Proof.Machine
end

section
/-! PROOF. The laws that keep the claims apart through the windows: claims that end, overrun, expire and open as the count moves on (R11, R12, R14). -/

namespace Sys2Proof.Machine

/-! ## One claim -/

/-- What the endings at a count make of a claim c at most. -/
structure EndedAt (now : Nat) (c x : Claim) : Prop where
  shape : x = { c with state := x.state }
  occupying : x.state.occupying = c.state.occupying
  booked : x.state = .booked → x = c
  begun : x.state.begun = true → x.start ≤ now ∧ endedBy x.stop now = x.state.overstaying
  unended : x.state ≠ .held .overlap true
  inForce : x.state.inForce = true → c.state.inForce = true

/-- A claim whose end comes overruns or is marked where it did not overstay (R11). -/
theorem endedClaim_endedAt {s : State} {now : Nat} {c x : Claim} (fits : WindowFits now c) (later : now ≤ s.now) (unended : c.state ≠ .held .overlap true)
    (ended : endedClaim s c = some x) : EndedAt s.now c x := by
  have same (h : x = c) (overstays : endedBy c.stop s.now = true → c.state.begun = true → c.state.overstaying = true) : EndedAt s.now c x := by
    subst h
    refine ⟨rfl, rfl, fun _ => rfl, fun begun => ?_, unended, id⟩
    obtain ⟨started, ends⟩ := fits.begun begun
    refine ⟨Nat.le_trans started later, ?_⟩
    cases stays : x.state.overstaying with
    | true => exact endedBy_mono (ends.trans stays) later
    | false =>
      rw [← Bool.not_eq_true]
      intro e
      exact Bool.false_ne_true (stays.symm.trans (overstays e begun))
  unfold endedClaim at ended
  split at ended
  · next e =>
    have started (begun : c.state.begun = true) : c.start ≤ s.now := Nat.le_trans (fits.begun begun).1 later
    split at ended
    · next state =>
      split at ended
      · cases ended
      · cases ended
        exact ⟨rfl, by rw [state]; rfl, nofun, fun _ => ⟨started (by rw [state]; rfl), e⟩, nofun, fun _ => by rw [state]; rfl⟩
    · cases ended
    · next cause not_overlap state =>
      cases ended
      refine ⟨rfl, by rw [state]; rfl, nofun, fun _ => ⟨started (by rw [state]; rfl), e⟩, ?_, nofun⟩
      rintro ⟨⟩
      exact (not_overlap rfl).elim
    · next not_active not_overlap not_held =>
      refine same (Option.some.inj ended).symm fun _ begun => ?_
      cases state : c.state with
      | active => exact (not_active state).elim
      | held cause m =>
        cases m with
        | false => exact (not_held _ state).elim
        | true => rfl
      | overrun => rfl
      | queued | checking | refused | booked =>
        rw [state] at begun
        cases begun
  · next e => exact same (Option.some.inj ended).symm fun e' => absurd e' e

/-- A claim opened is begun and does not overstay (R12). -/
theorem openedClaim_state (s : State) (c : Claim) : (openedClaim s c).state.occupying = true ∧ (openedClaim s c).state.begun = true ∧
    (openedClaim s c).state.overstaying = false ∧ (openedClaim s c).state ≠ .held .overlap true ∧
    ((openedClaim s c).state.inForce = true → (openedClaim s c).state = .active ∧ s.overlapsOverstayer c.flyer c.region = false) := by
  unfold openedClaim
  dsimp only
  split
  · exact ⟨rfl, rfl, rfl, nofun, nofun⟩
  · split
    · exact ⟨rfl, rfl, rfl, nofun, nofun⟩
    · next clear => exact ⟨rfl, rfl, rfl, nofun, fun _ => ⟨rfl, Bool.eq_false_iff.mpr clear⟩⟩

/-- What the windows make of a claim c at most: its state alone moves, to one that fits the count. -/
structure Windowed (now : Nat) (c d : Claim) : Prop where
  shape : d = { c with state := d.state }
  occupying : d.state.occupying = c.state.occupying
  fits : WindowFits now d
  unended : d.state ≠ .held .overlap true

/-- A claim whose state alone moved fits where its state does. -/
theorem WindowFits.of_shape {m n : Nat} {c y : Claim} (fits : WindowFits m c) (shape : y = { c with state := y.state })
    (booked : y.state = .booked → n < y.start) (begun : y.state.begun = true → y.start ≤ n ∧ endedBy y.stop n = y.state.overstaying) :
    WindowFits n y := by
  refine ⟨?_, fun a ha => ?_, booked, begun⟩
  · rw [shape]
    exact fits.length
  · rw [shape] at ha ⊢
    exact fits.amended a ha

/-- A claim ended, and opened where it is BOOKED and its start has come (R11, R12, R14). -/
theorem windowed {s e : State} {jump : Bool} {now : Nat} {c x d : Claim} (fits : WindowFits now c) (unended : c.state ≠ .held .overlap true)
    (later : now ≤ s.now) (steps : jump = true ∨ s.now ≤ now + 1) (same_now : e.now = s.now) (ended : endedClaim s c = some x)
    (begun : begunClaim jump e x = some d) : Windowed s.now c d ∧
      (d.state.inForce = true → c.state.inForce = true ∨ d.state = .active ∧ e.overlapsOverstayer d.flyer d.region = false) := by
  obtain ⟨shape, occupying, booked, begun_fits, unended', in_force⟩ := endedClaim_endedAt fits later unended ended
  unfold begunClaim at begun
  split at begun
  · next state =>
    have is_same := booked state
    subst is_same
    split at begun
    · cases begun
    · next not_expired =>
      rw [same_now] at not_expired begun
      split at begun
      · next starts =>
        cases begun
        obtain ⟨occupies, is_begun, stays, unended'', enters⟩ := openedClaim_state e x
        have open_yet : endedBy x.stop s.now = false := by
          rw [← Bool.not_eq_true]
          intro ends
          rcases steps with jumps | ticks
          · exact not_expired ⟨jumps, ends⟩
          · have at_start : x.start = s.now := by
              have before := fits.booked state
              omega
            rw [← at_start] at ends
            exact Bool.false_ne_true (fits.length.symm.trans ends)
        refine ⟨⟨rfl, ?_, fits.of_shape rfl (fun booked' => ?_) fun _ => ⟨starts, open_yet.trans stays.symm⟩, unended''⟩, fun forces => .inr (enters forces)⟩
        · rw [occupies, state]
          rfl
        · rw [booked'] at is_begun
          cases is_begun
      · next waits =>
        cases begun
        exact ⟨⟨shape, rfl, fits.of_shape shape (fun _ => Nat.lt_of_not_le waits) begun_fits, unended⟩, fun forces => .inl forces⟩
  · next not_booked =>
    cases begun
    exact ⟨⟨shape, occupying, fits.of_shape shape (fun state => absurd state not_booked) begun_fits, unended'⟩, fun forces => .inl (in_force forces)⟩

/-- A claim that overstays does so past the window part, or is gone. -/
theorem Windowed.overstaying {m n : Nat} {c d : Claim} (h : Windowed n c d) (fits : WindowFits m c) (later : m ≤ n)
    (occupies : d.state.occupying = true) (stays : d.state.overstaying = false) : c.state.overstaying = false := by
  rw [← Bool.not_eq_true]
  intro overstays
  have begun : c.state.begun = true := (booked_or_begun (h.occupying.symm.trans occupies)).resolve_left fun booked => by
    rw [booked] at overstays
    cases overstays
  have ended : endedBy c.stop n = true := endedBy_mono ((fits.begun begun).2.trans overstays) later
  have not_ended := h.fits.not_ended occupies stays
  rw [h.shape] at not_ended
  exact Bool.false_ne_true (not_ended.symm.trans ended)

/-! ## Every claim -/

/-- States that agree but for the held cause are of one phase. -/
theorem sameButCause_phase {a b : ClaimState} (h : a.sameButCause b = true) : SamePhase a b ∧ (a = .booked → b = .booked) := by
  unfold ClaimState.sameButCause at h
  split at h
  · next m _ m' =>
    cases of_decide_eq_true h
    exact ⟨⟨rfl, rfl, by cases m <;> rfl⟩, nofun⟩
  · cases of_decide_eq_true h
    exact ⟨⟨rfl, rfl, rfl⟩, id⟩

/-- The state before the close of a tick, a jump or a load. -/
def windowPart (jump : Bool) (s : State) : State := allSlots.foldl (fun t i => bookedPart jump i t) (endings s)

/-- What a count's move comes to at the claims: each was windowed, and what is ACTIVE anew lies beside no overstaying claim. -/
theorem windowPart_windowed {jump : Bool} {s s' : State} (laws : ClaimLaws s) (slots : s'.slots = s.slots) (later : s.now ≤ s'.now)
    (steps : jump = true ∨ s'.now ≤ s.now + 1) {j : Slot} {d : Claim} (hd : (windowPart jump s').claimAt j = some d) :
    ∃ c, s.claimAt j = some c ∧ Windowed s'.now c d ∧
      (d.state.inForce = true → c.state.inForce = true ∨ d.state = .active ∧ ¬ OverstayedIn (windowPart jump s') d.flyer d.region) := by
  have closed : (windowPart jump s').claimAt j = ((s'.claimAt j).bind (endedClaim s')).bind (begunClaim jump (endings s')) := by
    unfold windowPart
    rw [bookedParts_claimAt, endings_claimAt]
  have same_now : (endings s').now = s'.now := (endings_frame s').now
  have beside (f : Flyer) (r : Box) : (windowPart jump s').overlapsOverstayer f r = (endings s').overlapsOverstayer f r :=
    overlapsOverstayer_congr (bookedParts_opening jump (endings s')).2.2 f r
  rw [closed] at hd
  obtain ⟨x, hx, begun⟩ := Option.bind_eq_some_iff.mp hd
  obtain ⟨c, hc, ended⟩ := Option.bind_eq_some_iff.mp hx
  rw [claimAt_congr slots] at hc
  obtain ⟨window, enters⟩ := windowed (laws.window j c hc) (laws.unended j c hc) later steps same_now ended begun
  refine ⟨c, hc, window, fun forces => (enters forces).imp_right fun ⟨active, clear⟩ => ⟨active, ?_⟩⟩
  rw [← overlapsOverstayer_iff, beside, clear]
  exact Bool.false_ne_true

theorem windowPart_now (jump : Bool) (s : State) : (windowPart jump s).now = s.now :=
  ((bookedParts_frame jump (endings s)).now).trans (endings_frame s).now

section
variable {jump : Bool} {s s' : State} (slots : s'.slots = s.slots) (later : s.now ≤ s'.now) (steps : jump = true ∨ s'.now ≤ s.now + 1)
include slots later steps

theorem windowPart_claimLaws (laws : ClaimLaws s) : ClaimLaws (windowPart jump s') := by
  have now := windowPart_now jump s'
  refine laws.of_entering (fun j d hd => ?_) (fun j d hd => ?_) (fun i j c d hc hd other meets occupies occupies' stays stays' => ?_)
    fun j d hd forces => ?_
  · obtain ⟨c, -, window, -⟩ := windowPart_windowed laws slots later steps hd
    rw [now]
    exact window.fits
  · obtain ⟨c, -, window, -⟩ := windowPart_windowed laws slots later steps hd
    exact window.unended
  · obtain ⟨x, hx, window, -⟩ := windowPart_windowed laws slots later steps hc
    obtain ⟨y, hy, window', -⟩ := windowPart_windowed laws slots later steps hd
    have shape := window.shape
    have shape' := window'.shape
    have apart : windowsApart x y := by
      refine laws.disjoint i j x y hx hy ?_ ?_ (window.occupying.symm.trans occupies) (window'.occupying.symm.trans occupies')
        (window.overstaying (laws.window i x hx) later occupies stays) (window'.overstaying (laws.window j y hy) later occupies' stays')
      · rw [shape, shape'] at other
        exact other
      · rw [shape, shape'] at meets
        exact meets
    rw [shape, shape']
    exact apart
  · obtain ⟨c, hc, window, enters⟩ := windowPart_windowed laws slots later steps hd
    refine (enters forces).imp (fun was => ⟨c, hc, was, ?_, ?_⟩) .inl
    · rw [window.shape]
    · rw [window.shape]
      rfl

/-- A walk in flight past the windows is at its beginning, or goes on with its subject as it was. -/
theorem windowPart_walk (laws : Laws s) (zones : s'.zones = s.zones) (admission : s'.admission = s.admission) (queue : QueueLaw s) (walk : WalkLaw s)
    {w : Walk} (hw : (windowPart jump s').admission.walk = some w) : BegunIn (windowPart jump s') w ∨ GoesOn s (windowPart jump s') w ∧
      ∀ (h : Handle) (c d : Claim), w.subject = .amend h → s.resolve h = some c → (windowPart jump s').resolve h = some d → c.state = .booked →
        d.state = .booked := by
  have same_resolve := resolve_congr slots
  have fits : SubjectsFit s' := fun e he => by
    rw [admission] at he
    rw [subjectFits_congr slots zones]
    exact queue.2.2 e he
  obtain ⟨goes, follows⟩ : WalkGoes s' (windowPart jump s') ∧ Follows s' (windowPart jump s') := windowPart_goes jump s'
  obtain ⟨idle, walks⟩ := goes fits
  rw [admission] at idle walks
  have gen (j : Slot) : (windowPart jump s').slots[j].gen = s.slots[j].gen := (follows.1 j).1.trans (gen_congr slots j)
  have same_zones : (windowPart jump s').zones = s.zones :=
    ((bookedParts_frame jump (endings s')).zones.trans (endings_frame s').zones).trans zones
  have waits {j : Slot} {c : Claim} (hc : s.claimAt j = some c) (not_occupying : c.state.occupying = false) :
      (windowPart jump s').claimAt j = some c := (windowPart_evolves jump s' j).waits c ((claimAt_congr slots j).trans hc) not_occupying
  cases hv : s.admission.walk with
  | none =>
    rw [(idle hv).1] at hw
    cases hw
  | some v =>
    obtain ⟨plain, amends⟩ := walks v hv (walk.subject_mem hv)
    have still (same : v = w) (not_amend : ∀ h, w.subject ≠ .amend h) : GoesOn s (windowPart jump s') w := by
      subst same
      refine ⟨hv, fun h c _ hc checks => ?_, fun h _ _ entry => absurd entry (not_amend h), fun z _ candidate => ?_⟩
      · obtain ⟨there, claim⟩ := resolve_eq_some.mp hc
        exact ⟨c, resolve_eq_some.mpr ⟨(gen _).trans there, waits claim (by rw [checks]; rfl)⟩, .refl c, checks⟩
      · simp only [State.candidateOf, same_zones] at candidate ⊢
        exact candidate
    cases entry : v.subject with
    | book | zone =>
      have not_amend : ∀ h, v.subject ≠ .amend h := by
        rw [entry]
        nofun
      cases (plain not_amend).1.symm.trans hw
      exact .inr ⟨still rfl not_amend, fun h _ _ own => absurd own (not_amend h)⟩
    | amend g =>
      obtain ⟨c, a, hc, occupying, ha⟩ := queue.amend_named (entry ▸ walk.subject_mem hv)
      obtain ⟨freed, moved⟩ := amends g c entry ((same_resolve g).trans hc)
      obtain ⟨there, claim⟩ := resolve_eq_some.mp hc
      cases hd : (windowPart jump s').claimAt g.slot with
      | none =>
        rw [(freed hd).1] at hw
        cases hw
      | some d =>
        obtain ⟨-, becomes⟩ := moved d hd
        rw [hw] at becomes
        have named : (windowPart jump s').resolve g = some d := resolve_eq_some.mpr ⟨(gen _).trans there, hd⟩
        obtain ⟨x, hx, window, -⟩ := windowPart_windowed laws.claims slots later steps hd
        cases claim.symm.trans hx
        split at becomes
        · next same =>
          cases becomes
          obtain ⟨phase, booked⟩ := sameButCause_phase same
          have kin : Kin c d := by
            rw [window.shape]
            exact phase.kin
          refine .inr ⟨⟨hv, fun h _ own => ?_, fun h e b own he hb => ?_, fun z own => ?_⟩, fun h e f own he hf state => ?_⟩
          · cases entry.symm.trans own
          · cases entry.symm.trans own
            cases hc.symm.trans he
            refine ⟨d, named, kin, ?_⟩
            rw [window.shape]
            exact hb
          · cases entry.symm.trans own
          · cases entry.symm.trans own
            cases hc.symm.trans he
            cases named.symm.trans hf
            exact booked state
        · obtain ⟨cand, candidate, rfl⟩ := Option.map_eq_some_iff.mp becomes.symm
          refine .inl ⟨rfl, ?_, fun h own => ?_⟩
          · dsimp only
            rw [entry] at candidate ⊢
            exact candidate
          · dsimp only at own
            rw [entry] at own
            cases own

/-- An AMEND walk whose claim's start is to come goes on while it is to come. -/
theorem windowPart_ahead (laws : Laws s) (queue : QueueLaw s) (walk : WalkLaw s) {w : Walk} {h : Handle} {v : Interval}
    (goes : GoesOn s (windowPart jump s') w) (booked : ∀ (h : Handle) (c d : Claim), w.subject = .amend h → s.resolve h = some c →
      (windowPart jump s').resolve h = some d → c.state = .booked → d.state = .booked)
    (entry : w.subject = .amend h) (span : w.cand.span = .window v) (ahead : s.now < v.lo) : (windowPart jump s').now < v.lo := by
  obtain ⟨c, a, hc, occupying, ha⟩ := queue.amend_named (entry ▸ walk.subject_mem goes.before)
  have candidate := laws.walk.candidate w goes.before
  rw [entry] at candidate
  simp only [State.candidateOf, hc, Option.bind_some, ha, Option.map_some, Option.some.injEq] at candidate
  have start : v.lo = c.start := by
    rw [← candidate] at span
    unfold amendCandidate at span
    dsimp only at span
    split at span
    · cases span
      rfl
    · split at span
      · cases span
      · cases span
        rfl
  have before := laws.claims.window h.slot c (resolve_eq_some.mp hc).2
  have waits : c.state = .booked := (booked_or_begun occupying).resolve_right fun begun => by
    have started := (before.begun begun).1
    omega
  obtain ⟨d, hd, kin, -⟩ := goes.amend h c a entry hc ha
  have fits := (windowPart_claimLaws slots later steps laws.claims).window h.slot d (resolve_eq_some.mp hd).2
  rw [start, ← kin.start]
  exact fits.booked (booked h c d entry hc hd waits)

/-- What stayed clear of a walk that goes on stays clear as the count moves on (R44). -/
theorem windowPart_clear (laws : Laws s) (queue : QueueLaw s) (walk : WalkLaw s) {w : Walk} {x d : Claim}
    (goes : GoesOn s (windowPart jump s') w) (booked : ∀ (h : Handle) (c d : Claim), w.subject = .amend h → s.resolve h = some c →
      (windowPart jump s').resolve h = some d → c.state = .booked → d.state = .booked)
    (start : d.start = x.start) (stop : d.stop = x.stop) (clear : staysClear s.now w x = true) :
    staysClear (windowPart jump s').now w d = true := by
  have now := windowPart_now jump s'
  unfold staysClear at clear ⊢
  cases span : w.cand.span with
  | fromNow | always =>
    rw [span] at clear
    cases clear
  | window v =>
    rw [span] at clear
    dsimp only at clear ⊢
    rw [start, stop]
    rw [Bool.or_eq_true, Bool.or_eq_true, Bool.and_eq_true, Bool.or_eq_true, decide_eq_true_eq] at clear ⊢
    rcases clear with (stale | after) | ⟨before, ahead⟩
    · refine .inl (.inl (endedBy_mono stale ?_))
      rw [now]
      exact later
    · exact .inl (.inr after)
    · refine .inr ⟨before, ?_⟩
      cases entry : w.subject with
      | book h => exact .inr rfl
      | amend h =>
        rw [entry] at ahead
        exact .inl (windowPart_ahead slots later steps laws queue walk goes booked entry span (ahead.resolve_right Bool.false_ne_true))
      | zone z =>
        have candidate := laws.walk.candidate w goes.before
        rw [entry] at candidate
        have always : w.cand.span = .always := by
          simp only [State.candidateOf] at candidate
          split at candidate
          · rw [← Option.some.inj candidate]
          · rw [← Option.some.inj candidate]
          all_goals cases candidate
        cases span.symm.trans always

theorem windowPart_laws (laws : Laws s) (zones : s'.zones = s.zones) (admission : s'.admission = s.admission) (queue : QueueLaw s) (walk : WalkLaw s) :
    Laws (windowPart jump s') := by
  have claims := windowPart_claimLaws slots later steps laws.claims
  refine ⟨claims, laws.walk.of_kept fun w hw => ?_⟩
  refine (windowPart_walk slots later steps laws zones admission queue walk hw).imp_right fun ⟨goes, booked⟩ => ?_
  have candidate := laws.walk.candidate w goes.before
  refine ⟨goes.before, goes.candidate fun h entry => laws.walk.subject w h goes.before entry, fun h c entry hc checks => ?_,
    fun i d hd occupies => ?_⟩
  · obtain ⟨d, hd, -, checks'⟩ := goes.book h c entry hc checks
    exact ⟨d, hd, checks'⟩
  · obtain ⟨x, hx, window, -⟩ := windowPart_windowed laws.claims slots later steps hd
    refine ⟨x, hx, window.occupying.symm.trans occupies, ?_, ?_,
      windowPart_clear slots later steps laws queue walk goes booked ?_ ?_⟩
    all_goals rw [window.shape]
    rfl

/-- A tick, a jump or a load keeps the claims apart. -/
theorem windowEvent_laws (laws : Laws s) (zones : s'.zones = s.zones) (admission : s'.admission = s.admission) (queue : QueueLaw s)
    (walk : WalkLaw s) : Laws (windowEvent jump s') :=
  (windowPart_laws slots later steps laws zones admission queue walk).closeEvent false s'

end

end Sys2Proof.Machine
end

section
/-! PROOF. The laws that keep the claims apart through the commands and through the events that are no reads of a walk (R6, R9, R17, R22, R31, R33, R140, R142). -/

namespace Sys2Proof.Machine

/-! ## Joining and leaving the queue (R6, R32, R33, R54) -/

theorem Untouched.laws {s t : State} (h : Untouched s t) (now : t.now = s.now) (laws : Laws s) : Laws t :=
  laws.of_same h.slots h.zones (by rw [h.admission]) now

/-- A walk in flight is of no claim of a FREE slot and of no claim without an amendment (R34, R35). -/
theorem bookingMade_laws {i : Slot} {b : Booking} {s : State} (laws : Laws s) (free : s.claimAt i = none) (window : endedBy b.stop b.start = false) :
    Laws (bookingMade i b s) := by
  have claims (j : Slot) : (bookingMade i b s).claimAt j = if i = j then some b.claim else s.claimAt j := by
    unfold State.claimAt
    rw [bookingMade_slot]
    split <;> rfl
  have stays {h : Handle} {c : Claim} (hc : s.resolve h = some c) : (bookingMade i b s).resolve h = some c := by
    obtain ⟨gen, claim⟩ := resolve_eq_some.mp hc
    have other : i ≠ h.slot := by
      rintro rfl
      cases free.symm.trans claim
    refine resolve_eq_some.mpr ⟨?_, ?_⟩
    · rw [bookingMade_slot, if_neg other]
      exact gen
    · rw [claims, if_neg other]
      exact claim
  refine laws.of_kin rfl (fun j d hd => ?_) (fun j d hd => ?_) (fun j d hd in_force => ?_) fun w hw => .inr ⟨hw, fun h c _ hc checks => ?_,
    fun h c a _ hc ha => ?_, fun z _ candidate => candidate⟩
  · rw [claims] at hd
    split at hd
    · cases hd
      exact .inr ⟨rfl, windowFits_of_idle rfl window nofun⟩
    · exact .inl ⟨d, hd, .refl d⟩
  · rw [claims] at hd
    split at hd
    · cases hd
      nofun
    · exact laws.claims.unended j d hd
  · rw [claims] at hd
    split at hd
    · cases hd
      cases in_force
    · exact .inl ⟨d, hd, in_force, rfl, rfl⟩
  · exact ⟨c, stays hc, .refl c, checks⟩
  · exact ⟨c, stays hc, .refl c, ha⟩

theorem amendPending_laws {h : Handle} {c : Claim} {a : Amendment} {s : State} (laws : Laws s) (hr : s.resolve h = some c)
    (window : endedBy a.newEnd c.start = false) (occupying : c.state.occupying = true) (no_amend : c.amend = none) :
    Laws (amendPending h c a s) := by
  obtain ⟨gen, at_slot⟩ := resolve_eq_some.mp hr
  have claims (j : Slot) : (amendPending h c a s).claimAt j = if h.slot = j then some { c with amend := some a } else s.claimAt j :=
    amendPending_claimAt j
  have kin : Kin c { c with amend := some a } := ⟨rfl, rfl, rfl, rfl, fun b hb => by
    cases hb
    exact .inr window, rfl, rfl, rfl⟩
  have stays {k : Handle} {d : Claim} (hd : s.resolve k = some d) (other : h.slot ≠ k.slot) : (amendPending h c a s).resolve k = some d := by
    obtain ⟨gen, claim⟩ := resolve_eq_some.mp hd
    refine resolve_eq_some.mpr ⟨(amendPending_gen _).trans gen, ?_⟩
    rw [claims, if_neg other]
    exact claim
  refine laws.of_kin rfl (fun j d hd => .inl ?_) (fun j d hd => ?_) (fun j d hd in_force => .inl ?_) fun w hw => .inr ⟨hw, fun k d _ hd checks => ?_,
    fun k d b _ hd hb => ?_, fun z _ candidate => candidate⟩
  · rw [claims] at hd
    split at hd
    · next own =>
      cases hd
      exact ⟨c, own ▸ at_slot, kin⟩
    · exact ⟨d, hd, .refl d⟩
  · rw [claims] at hd
    split at hd
    · cases hd
      exact laws.claims.unended h.slot c at_slot
    · exact laws.claims.unended j d hd
  · rw [claims] at hd
    split at hd
    · next own =>
      cases hd
      exact ⟨c, own ▸ at_slot, in_force, rfl, rfl⟩
    · exact ⟨d, hd, in_force, rfl, rfl⟩
  · refine ⟨d, stays hd fun own => ?_, .refl d, checks⟩
    have claim := (resolve_eq_some.mp hd).2
    rw [← own] at claim
    cases at_slot.symm.trans claim
    rw [checks] at occupying
    cases occupying
  · refine ⟨d, stays hd fun own => ?_, .refl d, hb⟩
    have claim := (resolve_eq_some.mp hd).2
    rw [← own] at claim
    cases at_slot.symm.trans claim
    cases no_amend.symm.trans hb

/-- A zone's slot written, of which no walk is in flight past the writing. -/
theorem setZone_laws {z : Zone} {s t : State} (laws : Laws s) (slots : t.slots = s.slots) (now : t.now = s.now)
    (zones : ∀ y, y ≠ z → t.zones[y] = s.zones[y])
    (walk : ∀ w, t.admission.walk = some w → s.admission.walk = some w ∧ w.subject ≠ .zone z) : Laws t := by
  refine laws.of_fewer now (fun j d hd => (claimAt_congr slots j).symm.trans hd) fun w hw => ?_
  obtain ⟨before, other⟩ := walk w hw
  refine .inr ⟨before, fun h c _ hc checks => ⟨c, (resolve_congr slots h).trans hc, .refl c, checks⟩,
    fun h c a _ hc ha => ⟨c, (resolve_congr slots h).trans hc, .refl c, ha⟩, fun y entry candidate => ?_⟩
  have same := zones y fun own => other (by rw [entry, own])
  simp only [State.candidateOf, same] at candidate ⊢
  exact candidate

theorem zoneRequested_laws {z : Zone} {area : FixedBox} {s : State} (laws : Laws s) (free : s.zones[z].awaiting = false) :
    Laws (zoneRequested z area s) := by
  refine setZone_laws (z := z) laws rfl rfl (fun y other => ?_) fun w hw => ⟨hw, fun own => ?_⟩
  · exact (setZone_get s z y _).trans (if_neg other.symm)
  · have candidate := laws.walk.candidate w hw
    rw [own] at candidate
    simp only [State.candidateOf] at candidate
    unfold ZoneSlot.awaiting at free
    split at candidate
    · next area pending => simp [pending] at free
    · next replaced => simp [replaced] at free
    all_goals cases candidate

theorem zoneEmptied_laws (z : Zone) {s : State} (laws : Laws s) : Laws (zoneEmptied z s) := by
  have slots : (zoneEmptied z s).slots = s.slots := withdrawEntry_slots _ _
  have frame := withdrawEntry_frame (.zone z) (s.setZone z .empty)
  refine setZone_laws (z := z) laws slots frame.now (fun y other => ?_) fun w hw => withdrawEntry_walk (s := s.setZone z .empty) hw
  have zones : (zoneEmptied z s).zones = (s.setZone z .empty).zones := frame.zones
  rw [zones, setZone_get, if_neg other.symm]

/-- A booking cancelled: freed, its walk abandoned with its entry (R33, R46). -/
theorem withdrawnClaim_laws {h : Handle} {c : Claim} {s : State} (laws : Laws s) (hr : s.resolve h = some c) : Laws (withdrawnClaim h s) := by
  obtain ⟨gen, at_slot⟩ := resolve_eq_some.mp hr
  have slots : (withdrawnClaim h s).slots = (freeSlot h.slot s).slots := withdrawEntry_slots _ _
  have claims (j : Slot) : (withdrawnClaim h s).claimAt j = if h.slot = j then none else s.claimAt j :=
    (claimAt_congr slots j).trans (freeSlot_claimAt _ j s)
  have frame := (freeSlot_frame h.slot s).trans (withdrawEntry_frame (.book h) (freeSlot h.slot s))
  have stays {k : Handle} {d : Claim} (hd : s.resolve k = some d) (other : h.slot ≠ k.slot) : (withdrawnClaim h s).resolve k = some d := by
    obtain ⟨there, claim⟩ := resolve_eq_some.mp hd
    refine resolve_eq_some.mpr ⟨((gen_congr slots _).trans (freeSlot_gen _ _ s)).trans there, ?_⟩
    rw [claims, if_neg other]
    exact claim
  refine laws.of_fewer frame.now (fun j d hd => ?_) fun w hw => ?_
  · rw [claims] at hd
    split at hd
    · cases hd
    · exact hd
  · obtain ⟨freed, not_book⟩ := withdrawEntry_walk hw
    obtain ⟨before, not_amend⟩ := freeSlot_walk freed
    refine .inr ⟨before, fun k d entry hd checks => ⟨d, stays hd fun own => ?_, .refl d, checks⟩,
      fun k d a entry hd ha => ⟨d, stays hd fun own => ?_, .refl d, ha⟩, fun z entry candidate => ?_⟩
    · refine not_book ?_
      rw [entry, ← handleAt_eq hr, ← handleAt_eq hd, own]
    · have claim := (resolve_eq_some.mp hd).2
      rw [← own] at claim
      refine not_amend d claim (by rw [ha]; rfl) ?_
      rw [entry, own, handleAt_eq hd]
    · have zones : (withdrawnClaim h s).zones = s.zones := frame.zones
      simp only [State.candidateOf, zones] at candidate ⊢
      exact candidate

/-! ## The count (R132, R134, R140, R142) -/

theorem ClockLaw.now {s : State} (law : ClockLaw s) : s.now = s.clock.count := by
  unfold State.now
  split
  · next void => exact (law.1 void).symm
  · rfl

/-- A clock that ends is not VOID. -/
theorem endClock_laws {s : State} (laws : Laws s) (run : s.clock.run ≠ .void) : Laws (endClock s) := by
  have same := endClock_untouched s
  refine same.laws ?_ laws
  unfold endClock
  split
  · have ended : (s.setClock { s.clock with run := .ended }).now = s.clock.count := rfl
    rw [ended]
    unfold State.now
    rw [if_neg run]
  · rfl

theorem windowEvent_clock (jump : Bool) (s : State) : (windowEvent jump s).clock = s.clock :=
  (closeEvent_frame false s _).clock.trans ((bookedParts_frame jump (endings s)).clock.trans (endings_frame s).clock)

theorem sourceEvent_laws {s : State} (laws : Laws s) (queue : QueueLaw s) (walk : WalkLaw s) : Laws (sourceEvent s) := by
  unfold sourceEvent
  split
  · next running =>
    have ticked : (s.setClock { s.clock with count := s.clock.count + 1 }).now = s.now + 1 := by
      unfold State.now
      have run : (s.setClock { s.clock with count := s.clock.count + 1 }).clock.run = .running := running
      have count : (s.setClock { s.clock with count := s.clock.count + 1 }).clock.count = s.clock.count + 1 := rfl
      rw [run, running, count]
      rfl
    have moved := windowEvent_laws (jump := false) (s := s) (s' := s.setClock { s.clock with count := s.clock.count + 1 }) rfl
      (by omega) (.inr (by omega)) laws rfl rfl queue walk
    refine endClock_laws moved ?_
    rw [windowEvent_tick, windowEvent_clock]
    exact fun void => nomatch running.symm.trans void
  · exact laws

theorem removeHold_now (src : HoldSource) (s : State) : (removeHold src s).now = s.now := by
  have thawed (u : State) : (thawClock u).now = u.now := by
    unfold thawClock
    split
    · next frozen =>
      have running : (u.setClock { u.clock with run := .running }).now = u.clock.count := rfl
      rw [running]
      unfold State.now
      rw [frozen]
      rfl
    · rfl
  unfold removeHold
  dsimp only
  split
  · exact thawed _
  · rfl

/-! ## Every command -/

theorem CommandEffect.laws {s t : State} (h : CommandEffect s t) (laws : Laws s) (clock : ClockLaw s) (queue : QueueLaw s) (walk : WalkLaw s) :
    Laws t := by
  have quiet {u : State} (slots : u.slots = s.slots) (zones : u.zones = s.zones) (admission : u.admission.walk = s.admission.walk)
      (now : u.now = s.now) : Laws u := laws.of_same slots zones admission now
  have counted := clock.now
  cases h with
  | none => exact laws
  | shown | enabled | cleared | autoClear | alertEmptied | supplyEmptied | protectSet | bound | unbound | breachCleared
  | templateStored | templateEvicted | templateDropped | templateLocked | reopened => exact quiet rfl rfl rfl rfl
  | @claimFreed i c at_slot _ not_checking =>
    refine (laws.freeSlot fun d hd => ?_).closeEvent false s
    cases at_slot.symm.trans hd
    exact not_checking
  | @claimHeld i c ended at_slot in_force =>
    rw [commandHold_closed in_force]
    exact (laws.commandHeld (resolve_eq_some.mpr ⟨rfl, at_slot⟩) (in_force.imp And.left And.left)).closeEvent false s
  | @resumedOverlap i c cause at_slot held cause_ne =>
    have moved : Laws (moveClaim i (.held .overlap false) s) :=
      laws.moveClaim at_slot (by rw [held]; exact ⟨rfl, rfl, rfl⟩) (by rw [held]; rfl) (by simp) nofun
    exact (moved.raiseFlag .overlapHeld).closeEvent false s
  | @resumedActive i c cause at_slot held cause_ne clear =>
    have moved : Laws (moveClaim i .active s) :=
      laws.moveClaim at_slot (by rw [held]; exact ⟨rfl, rfl, rfl⟩) (by rw [held]; rfl) nofun fun _ => .inr (.inl ⟨rfl, clear⟩)
    exact moved.closeEvent false s
  | @resumedOverrun i c cause at_slot held cause_ne clear =>
    have moved : Laws (moveClaim i .overrun s) :=
      laws.moveClaim at_slot (by rw [held]; exact ⟨rfl, rfl, rfl⟩) (by rw [held]; rfl) nofun fun _ => .inr (.inr clear)
    exact moved.closeEvent false s
  | @cancelled i c at_slot => exact (withdrawnClaim_laws laws (resolve_eq_some.mpr ⟨rfl, at_slot⟩ : s.resolve (s.handleAt i) = some c)).closeEvent false s
  | @booked i b room slot window => exact (bookingMade_laws laws (freeSlotOf_free slot) window).closeEvent false s
  | @fired i b k w room slot window =>
    have accessed : Laws (accessWay k w s) := quiet rfl rfl rfl rfl
    exact (bookingMade_laws accessed (freeSlotOf_free slot) window).closeEvent false (accessWay k w s)
  | @amended i c a at_slot window occupying no_amend =>
    exact (amendPending_laws laws (resolve_eq_some.mpr ⟨rfl, at_slot⟩ : s.resolve (s.handleAt i) = some c) window occupying no_amend).closeEvent
      false s
  | @zoneRequested z area free => exact (zoneRequested_laws laws free).closeEvent false s
  | zoneEmptied z => exact (zoneEmptied_laws z laws).closeEvent false s
  | holdPushed src => exact (laws.pushHold src true).closeEvent false s
  | holdReleased src =>
    have now := removeHold_now src s
    rw [removeHold_eq] at now ⊢
    exact quiet rfl rfl rfl now
  | @clockLoaded v in_range void =>
    have loaded : s.now ≤ (s.setClock { s.clock with count := v, run := loadedRun s }).now := by
      rw [counted, clock.1 void]
      exact Nat.zero_le _
    exact windowEvent_laws (jump := true) (s := s) (s' := s.setClock { s.clock with count := v, run := loadedRun s }) rfl loaded (.inl rfl) laws rfl rfl
      queue walk
  | sourceSelected src =>
    unfold selectSource
    split <;> exact quiet rfl rfl rfl rfl
  | @clockSkipped d frozen =>
    have skipped : (s.setClock { s.clock with count := min (s.clock.count + d) Config.maxTick }).now = min (s.clock.count + d) Config.maxTick := by
      unfold State.now
      have run : (s.setClock { s.clock with count := min (s.clock.count + d) Config.maxTick }).clock.run = .frozen := frozen
      rw [run]
      rfl
    have in_range := (clock.2.2.1 frozen).1
    have moved := windowEvent_laws (jump := true) (s := s) (s' := s.setClock { s.clock with count := min (s.clock.count + d) Config.maxTick }) rfl
      (by rw [skipped, counted]; exact Nat.le_min.mpr ⟨Nat.le_add_right _ _, Nat.le_of_lt in_range⟩) (.inl rfl) laws rfl rfl queue walk
    refine endClock_laws moved ?_
    rw [windowEvent_jump, windowEvent_clock]
    exact fun void => nomatch frozen.symm.trans void

/-! ## The supplies (R17, R49, R180, R182) -/

theorem restarted_phase (st : ClaimState) : SamePhase st st.restarted ∧ st.restarted.inForce = false := by
  cases st <;> exact ⟨⟨rfl, rfl, rfl⟩, rfl⟩

theorem haltedBlocks_laws {s : State} (laws : Laws s) : Laws (haltedBlocks s) := by
  have came {j : Slot} {d : Claim} (hd : (haltedBlocks s).claimAt j = some d) : ∃ c, s.claimAt j = some c ∧ d = { c with state := c.state.restarted } := by
    rw [haltedBlocks_claimAt] at hd
    obtain ⟨c, hc, same⟩ := Option.map_eq_some_iff.mp hd
    exact ⟨c, hc, same.symm⟩
  refine laws.of_kin (haltedBlocks_now s) (fun j d hd => ?_) (fun j d hd => ?_) (fun j d hd in_force => ?_) fun w hw => ?_
  · obtain ⟨c, hc, rfl⟩ := came hd
    exact .inl ⟨c, hc, (restarted_phase c.state).1.kin⟩
  · obtain ⟨c, hc, rfl⟩ := came hd
    have unended := laws.claims.unended j c hc
    show c.state.restarted ≠ _
    cases state : c.state <;> rw [state] at unended
    case active | overrun | checking => nofun
    all_goals exact unended
  · obtain ⟨c, -, rfl⟩ := came hd
    exact absurd ((restarted_phase c.state).2.symm.trans in_force) Bool.false_ne_true
  · cases hw

theorem haltBlocks_laws {s : State} (laws : Laws s) : Laws (haltBlocks s) := (haltedBlocks_laws laws).pushHold .restart false

theorem restartBlocks_laws {s : State} (laws : Laws s) : Laws (restartBlocks s) := by
  have closed (u : State) (hu : Laws u) : Laws (recordAlert .restart (closeChannels u)) := hu.of_same rfl rfl rfl rfl
  exact closed _ (haltBlocks_laws laws)

theorem restartFlags_laws {s : State} (laws : Laws s) : Laws (restartFlags s) := laws.of_same rfl rfl rfl rfl

theorem startTimers_laws {s : State} (laws : Laws s) : Laws (startTimers s) := laws.of_same rfl rfl rfl rfl

theorem takeStop_laws {s : State} (laws : Laws s) (flag : Bool) : Laws (takeStop flag s) := by
  have noted (u : State) (hu : Laws u) : Laws (recordAlert .stop u) := hu.of_same rfl rfl rfl rfl
  exact noted _ (laws.pushHold .stop flag)

theorem sampleLines_laws {s : State} (laws : Laws s) (flag : Bool) : Laws (sampleLines flag s) := by
  have stopped : Laws (if s.inputs.stop then takeStop flag s else s) := by
    split
    · exact takeStop_laws laws flag
    · exact laws
  have rung (u : State) (hu : Laws u) : Laws (if u.inputs.ring then takeRing flag u else u) := by
    split
    · exact hu.pushHold _ _
    · exact hu
  exact rung _ stopped

theorem returnTimers_laws {s : State} (laws : Laws s) : Laws (returnTimers s) := by
  unfold returnTimers
  split
  · exact laws
  · exact sampleLines_laws (startTimers_laws laws) false

theorem laws_of_none {s : State} (none : ∀ j : Slot, s.claimAt j = .none) (idle : s.admission.walk = .none) : Laws s where
  claims := {
    window := fun j _ hc => absurd ((none j).symm.trans hc) nofun
    unended := fun j _ hc => absurd ((none j).symm.trans hc) nofun
    disjoint := fun j _ _ _ hc => absurd ((none j).symm.trans hc) nofun
    inForce := fun j _ _ _ hc => absurd ((none j).symm.trans hc) nofun }
  walk := walkLaws_of_idle idle

theorem coldValues_laws (s : State) : Laws (coldValues s) := laws_of_none (coldValues_none s) rfl

theorem powerOff_laws (s : State) : Laws (powerOff s) := laws_of_none (fun j => coldValues_none s j) rfl

end Sys2Proof.Machine
end

section
/-! PROOF. The laws that keep the claims apart through the completions of the walks: what a walk passes it has read clear (R8, R36, R39 to R42, R44). -/

namespace Sys2Proof.Machine

/-! ## A verdict that takes nothing (R8, R42, R56) -/

/-- The subject refused, its claim of the same phase or occupying nothing. -/
theorem refused_laws {s : State} {i : Slot} {c d : Claim} (laws : Laws s) (hc : s.claimAt i = some c)
    (kin : Kin c d ∨ d.state.occupying = false ∧ WindowFits s.now d) (unended : d.state ≠ .held .overlap true)
    (enters : d.state.inForce = true → c.state.inForce = true) : Laws ((leaveQueue s).setClaim i d) := by
  have claims (j : Slot) : ((leaveQueue s).setClaim i d).claimAt j = if i = j then some d else s.claimAt j := setClaim_claimAt (leaveQueue s) i j d
  refine laws.of_kin rfl (fun j x hx => ?_) (fun j x hx => ?_) (fun j x hx in_force => .inl ?_) nofun
  · rw [claims] at hx
    split at hx
    · next own =>
      cases hx
      exact kin.imp_left fun k => ⟨c, own ▸ hc, k⟩
    · exact .inl ⟨x, hx, .refl x⟩
  · rw [claims] at hx
    split at hx
    · cases hx
      exact unended
    · exact laws.claims.unended j x hx
  · rw [claims] at hx
    split at hx
    · next own =>
      cases hx
      rcases kin with k | ⟨idle, -⟩
      · exact ⟨c, own ▸ hc, enters in_force, k.flyer.symm, k.region.symm⟩
      · exact absurd (idle.symm.trans (inForce_states in_force).1) Bool.false_ne_true
    · exact ⟨x, hx, in_force, rfl, rfl⟩

/-! ## One claim written anew -/

/-- From s to u one claim alone was written. -/
structure WritesClaim (i : Slot) (d : Claim) (s u : State) : Prop where
  own : u.claimAt i = some d
  others : ∀ j, j ≠ i → u.claimAt j = s.claimAt j
  now : u.now = s.now

/-- The claims stay apart where the one written fits, is apart in time from what it meets in space, and comes in force as it may. -/
theorem WritesClaim.claimLaws {i : Slot} {d : Claim} {s u : State} (h : WritesClaim i d s u) (laws : ClaimLaws s) (fits : WindowFits s.now d)
    (unended : d.state ≠ .held .overlap true)
    (apart : d.state.occupying = true → d.state.overstaying = false → ∀ (j : Slot) (x : Claim), j ≠ i → s.claimAt j = some x → x.flyer ≠ d.flyer →
      x.region.overlaps d.region = true → x.state.occupying = true → x.state.overstaying = false → windowsApart x d)
    (enters : d.state.inForce = true → entersForce s u i d) : ClaimLaws u := by
  have came {j : Slot} {x : Claim} (hx : u.claimAt j = some x) : (j = i ∧ x = d) ∨ j ≠ i ∧ s.claimAt j = some x := by
    by_cases own : j = i
    · subst own
      exact .inl ⟨rfl, Option.some.inj (hx.symm.trans h.own)⟩
    · exact .inr ⟨own, (h.others j own).symm.trans hx⟩
  refine laws.of_entering (fun j x hx => ?_) (fun j x hx => ?_) (fun j k x y hx hy other meets occupies occupies' stays stays' => ?_)
    fun j x hx in_force => ?_
  · rw [h.now]
    rcases came hx with ⟨-, rfl⟩ | ⟨-, before⟩
    · exact fits
    · exact laws.window j x before
  · rcases came hx with ⟨-, rfl⟩ | ⟨-, before⟩
    · exact unended
    · exact laws.unended j x before
  · rcases came hx with ⟨-, rfl⟩ | ⟨apart_slot, before⟩
    · rcases came hy with ⟨-, rfl⟩ | ⟨apart_slot', before'⟩
      · exact absurd rfl other
      · rw [overlaps_comm] at meets
        exact (apart occupies stays k y apart_slot' before' other.symm meets occupies' stays').symm
    · rcases came hy with ⟨-, rfl⟩ | ⟨-, before'⟩
      · exact apart occupies' stays' j x apart_slot before other meets occupies stays
      · exact laws.disjoint j k x y before before' other meets occupies occupies' stays stays'
  · rcases came hx with ⟨rfl, rfl⟩ | ⟨-, before⟩
    · exact enters in_force
    · exact .inl ⟨x, before, in_force, rfl, rfl⟩

/-! ## A booking that passes (R8, R39) -/

theorem placedClaim_fields (s : State) (c : Claim) : (placedClaim s c).flyer = c.flyer ∧ (placedClaim s c).box = c.box ∧
    (placedClaim s c).start = c.start ∧ (placedClaim s c).stop = c.stop ∧ (placedClaim s c).amend = c.amend := by
  unfold placedClaim openedClaim
  split
  · exact ⟨rfl, rfl, rfl, rfl, rfl⟩
  · split <;> exact ⟨rfl, rfl, rfl, rfl, rfl⟩

/-- What a claim placed is: REFUSED, BOOKED before its start, or begun and not ended. -/
theorem placedClaim_state (s : State) (c : Claim) : ((placedClaim s c).state.occupying = true → endedBy c.stop s.now = false) ∧
    ((placedClaim s c).state = .booked → s.now < c.start) ∧
    ((placedClaim s c).state.begun = true → c.start ≤ s.now ∧ endedBy c.stop s.now = false) ∧
    (placedClaim s c).state ≠ .held .overlap true ∧
    ((placedClaim s c).state.inForce = true → (placedClaim s c).state = .active ∧ s.overlapsOverstayer c.flyer c.region = false) := by
  unfold placedClaim
  split
  · exact ⟨nofun, nofun, nofun, nofun, nofun⟩
  · next open_yet =>
    have open_yet := Bool.eq_false_iff.mpr open_yet
    split
    · next waits => exact ⟨fun _ => open_yet, fun _ => waits, nofun, nofun, nofun⟩
    · next starts =>
      obtain ⟨-, begun, -, unended, enters⟩ := openedClaim_state s c
      refine ⟨fun _ => open_yet, fun booked => ?_, fun _ => ⟨Nat.le_of_not_lt starts, open_yet⟩, unended, enters⟩
      rw [booked] at begun
      cases begun

section
variable {s : State} {w : Walk} (laws : Laws s) (hw : s.admission.walk = some w) (read_all : ∀ i, hasReadSlot w i = true)
include laws hw read_all

/-- A booking's candidate stays apart from what it meets (R36, R44). -/
theorem placed_claimLaws {h : Handle} {c : Claim} {u : State} (entry : w.subject = .book h) (hc : s.resolve h = some c)
    (wrote : WritesClaim h.slot (placedClaim (leaveQueue s) c) s u) : ClaimLaws u := by
  have at_slot := (resolve_eq_some.mp hc).2
  have fits := laws.claims.window h.slot c at_slot
  obtain ⟨flyer, box, start, stop, amend⟩ := placedClaim_fields (leaveQueue s) c
  obtain ⟨occupying, booked, begun, unended, enters⟩ := placedClaim_state (leaveQueue s) c
  have same_now : (leaveQueue s).now = s.now := rfl
  rw [same_now] at occupying booked begun
  have stays := placedClaim_not_overstaying (leaveQueue s) c
  have candidate := laws.walk.candidate w hw
  rw [entry] at candidate
  simp only [State.candidateOf, hc, Option.map_some, Option.some.injEq] at candidate
  have region : (placedClaim (leaveQueue s) c).region = c.region := congrArg Box.region box
  refine wrote.claimLaws laws.claims ⟨?_, fun a ha => ?_, fun state => ?_, fun state => ?_⟩ unended
    (fun occupies _ j x other hx flyers meets occupies' stays' => ?_) fun in_force => .inr (.inl ?_)
  · rw [start, stop]
    exact fits.length
  · rw [start]
    exact fits.amended a (amend ▸ ha)
  · rw [start]
    exact booked state
  · rw [start, stop, stays]
    exact begun state
  · rw [flyer] at flyers
    rw [region] at meets
    have clear := laws.walk.read w j x hw hx (read_all j) occupies' (by rw [← candidate]; exact fun same => flyers (Option.some.inj same).symm)
      (by rw [← candidate]; exact meets)
    unfold staysClear at clear
    rw [← candidate] at clear
    simp only [entry, Bool.or_true, Bool.and_true, Bool.or_eq_true] at clear
    unfold windowsApart
    rw [start, stop]
    rcases clear with (stale | after) | before
    · exact absurd ((occupying occupies).symm.trans stale) Bool.false_ne_true
    · exact .inl after
    · exact .inr before
  · obtain ⟨active, clear⟩ := enters in_force
    refine ⟨active, ?_⟩
    rintro ⟨k, e, he, overstays, other, meets⟩
    rw [flyer] at other
    rw [region] at meets
    have there : k ≠ h.slot := by
      rintro rfl
      cases wrote.own.symm.trans he
      exact other flyer
    rw [wrote.others k there] at he
    exact Bool.false_ne_true (clear.symm.trans ((overlapsOverstayer_iff _ _ _).mpr ⟨k, e, he, overstays, other, meets⟩))

end

/-! ## An amendment that passes (R39 to R41) -/

/-- The state a passing amendment gives: its phase is the claim's, but that a new end makes it overstay no longer. -/
theorem amendedStateOf_phase {r : State} {c d : Claim} {a : Amendment} (unended : c.state ≠ .held .overlap true) :
    (amendedStateOf r c a d).occupying = c.state.occupying ∧ (amendedStateOf r c a d).begun = c.state.begun ∧
    (amendedStateOf r c a d).overstaying = (c.state.overstaying && a.newEnd.isNone) ∧ amendedStateOf r c a d ≠ .held .overlap true := by
  have kept (state : amendedStateOf r c a d = c.state) (stays : c.state.overstaying = true → a.newEnd.isSome = false) :
      (amendedStateOf r c a d).occupying = c.state.occupying ∧ (amendedStateOf r c a d).begun = c.state.begun ∧
      (amendedStateOf r c a d).overstaying = (c.state.overstaying && a.newEnd.isNone) ∧ amendedStateOf r c a d ≠ .held .overlap true := by
    rw [state]
    refine ⟨rfl, rfl, ?_, unended⟩
    cases overstays : c.state.overstaying with
    | false => rfl
    | true =>
      have none := stays overstays
      rw [Bool.true_and]
      exact (by rw [← Option.not_isSome, none]; rfl)
  by_cases overrun : c.state = .overrun
  · obtain ⟨-, becomes⟩ := amendedState_overrun r 0 a d overrun
    by_cases ends : a.newEnd.isSome = true
    · rw [becomes, if_pos ends, overrun]
      refine ⟨rfl, rfl, ?_, nofun⟩
      rw [← Option.not_isSome, ends]
      rfl
    · exact kept (by rw [becomes, if_neg ends, overrun]) fun _ => Bool.eq_false_iff.mpr ends
  · by_cases marked : ∃ cause, c.state = .held cause true
    · obtain ⟨cause, held⟩ := marked
      obtain ⟨-, becomes⟩ := amendedState_ended r 0 a d held
      by_cases ends : a.newEnd.isSome = true
      · rw [becomes, if_pos ends, held]
        refine ⟨rfl, rfl, ?_, by simp⟩
        rw [← Option.not_isSome, ends]
        rfl
      · exact kept (by rw [becomes, if_neg ends, held]) fun _ => Bool.eq_false_iff.mpr ends
    · have not_marked (cause : HeldCause) : c.state ≠ .held cause true := fun held => marked ⟨cause, held⟩
      by_cases overlap : c.state = .held .overlap false
      · obtain ⟨-, becomes⟩ := amendedState_overlap r 0 a d overlap
        rw [becomes, overlap]
        unfold releasedState
        split
        · exact ⟨rfl, rfl, rfl, by simp⟩
        · split
          · exact ⟨rfl, rfl, rfl, nofun⟩
          · exact ⟨rfl, rfl, rfl, nofun⟩
      · obtain ⟨-, becomes⟩ := amendedState_plain r 0 a d overrun not_marked overlap
        refine kept becomes fun overstays => ?_
        cases state : c.state with
        | overrun => exact absurd state overrun
        | held cause m =>
          cases m with
          | true => exact absurd state (not_marked cause)
          | false =>
            rw [state] at overstays
            cases overstays
        | queued | checking | refused | booked | active =>
          rw [state] at overstays
          cases overstays

/-- The end of the window an amendment asks for. -/
theorem amendCandidate_window {c : Claim} {a : Amendment} {v : Interval} (span : (amendCandidate c a).span = .window v) :
    v.lo = c.start ∧ v.hi = amendedEnd c a ∧ v.hi = (amendedClaim c a).stop := by
  unfold amendCandidate at span
  dsimp only at span
  unfold amendedEnd amendedClaim
  cases ends : a.newEnd with
  | some e =>
    rw [ends] at span
    cases span
    exact ⟨rfl, rfl, rfl⟩
  | none =>
    rw [ends] at span
    dsimp only at span
    split at span
    · cases span
    · next stays =>
      cases span
      refine ⟨rfl, ?_, rfl⟩
      dsimp only
      rw [if_neg stays]

section
variable {s : State} {w : Walk} (laws : Laws s) (hw : s.admission.walk = some w) (read_all : ∀ i, hasReadSlot w i = true)
include laws hw read_all

/-- What a passing amendment's walk has read and meets in space: its window is apart from the amended claim's, and it does not lie in the present. -/
theorem amended_clear {h : Handle} {c : Claim} {a : Amendment} (entry : w.subject = .amend h) (hc : s.resolve h = some c) (ha : c.amend = some a)
    (ahead : ¬ endedBy (amendedEnd c a) s.now = true) {j : Slot} {x : Claim} (hx : s.claimAt j = some x) (flyers : x.flyer ≠ c.flyer)
    (meets : x.region.overlaps (amendedClaim c a).region = true) (occupies : x.state.occupying = true) :
    (endedBy (amendedClaim c a).stop x.start = true ∨ endedBy x.stop c.start = true) ∧
      (c.start ≤ s.now → ¬ x.start ≤ s.now) := by
  have candidate := laws.walk.candidate w hw
  rw [entry] at candidate
  simp only [State.candidateOf, hc, Option.bind_some, ha, Option.map_some, Option.some.injEq] at candidate
  have box : (amendCandidate c a).box = (amendedClaim c a).region := rfl
  have clear := laws.walk.read w j x hw hx (read_all j) occupies (by
    rw [← candidate]
    exact fun same => flyers (Option.some.inj same).symm) (by rw [← candidate, box]; exact meets)
  unfold staysClear at clear
  rw [← candidate] at clear
  cases span : (amendCandidate c a).span with
  | fromNow | always =>
    rw [span] at clear
    cases clear
  | window v =>
    obtain ⟨start, ends, stop⟩ := amendCandidate_window span
    rw [span] at clear
    simp only [entry, Bool.or_false, Bool.or_eq_true, Bool.and_eq_true, decide_eq_true_eq] at clear
    rw [← ends] at ahead
    rw [← stop, ← start]
    rcases clear with (stale | after) | ⟨before, waits⟩
    · exact absurd stale ahead
    · exact ⟨.inl after, fun _ begun => ahead (endedBy_mono after begun)⟩
    · exact ⟨.inr before, fun begun => absurd begun (Nat.not_le_of_lt waits)⟩

theorem amended_claimLaws {h : Handle} {c : Claim} {a : Amendment} {r u : State} (entry : w.subject = .amend h) (hc : s.resolve h = some c)
    (ha : c.amend = some a) (occupying : c.state.occupying = true) (ahead : ¬ endedBy (amendedEnd c a) s.now = true)
    (wrote : WritesClaim h.slot { amendedClaim c a with state := amendedStateOf r c a (amendedClaim c a) } s u) : ClaimLaws u := by
  have at_slot := (resolve_eq_some.mp hc).2
  have fits := laws.claims.window h.slot c at_slot
  obtain ⟨occupies, begun, overstays, unended⟩ := amendedStateOf_phase (r := r) (d := amendedClaim c a) (a := a) (laws.claims.unended h.slot c at_slot)
  have clear {j : Slot} {x : Claim} := amended_clear laws hw read_all entry hc ha ahead (j := j) (x := x)
  generalize amendedStateOf r c a (amendedClaim c a) = st at *
  refine wrote.claimLaws laws.claims ⟨?_, nofun, fun state => ?_, fun state => ?_⟩ unended
    (fun _ _ j x other hx flyers meets occupies' stays' => ?_) fun in_force => .inr (.inr ?_)
  · show endedBy (if a.newEnd.isSome then a.newEnd else c.stop) c.start = false
    split
    · exact fits.amended a ha
    · exact fits.length
  · refine fits.booked ((booked_or_begun occupying).resolve_right fun begun' => ?_)
    have state : st = .booked := state
    rw [state] at begun
    exact Bool.false_ne_true (begun.trans begun')
  · have state : st.begun = true := state
    obtain ⟨started, ends⟩ := fits.begun (begun.symm.trans state)
    refine ⟨started, ?_⟩
    show endedBy (if a.newEnd.isSome then a.newEnd else c.stop) s.now = st.overstaying
    rw [overstays]
    unfold amendedEnd at ahead
    cases newEnd : a.newEnd with
    | some e =>
      rw [newEnd] at ahead
      rw [Option.isNone_some, Bool.and_false]
      exact Bool.eq_false_iff.mpr ahead
    | none =>
      rw [Option.isNone_none, Bool.and_true]
      exact ends
  · exact (clear hx flyers meets occupies').1
  · rintro ⟨j, x, hx, in_force', other, meets⟩
    have there : j ≠ h.slot := by
      rintro rfl
      cases wrote.own.symm.trans hx
      exact other rfl
    rw [wrote.others j there] at hx
    obtain ⟨occupies', begun', -⟩ := inForce_states in_force'
    have started := (fits.begun (begun.symm.trans (inForce_states in_force).2.1)).1
    exact (clear hx other meets occupies').2 started ((laws.claims.window j x hx).begun begun').1

end

/-! ## Every completion -/

theorem completeWalk_laws {s : State} {w : Walk} (v : Option Verdict) (laws : Laws s) (hw : s.admission.walk = some w) (queue : QueueLaw s)
    (walk : WalkLaw s) (read_all : v = none → w.subject.isZone = false → ∀ i, hasReadSlot w i = true) : Laws (completeWalk w.subject v s) := by
  have head := walk_head hw walk
  have closed {D : State} {asked : Bool} (hD : Laws D) : Laws (closeEvent asked s (raiseFlag .admitDone D)) := (hD.raiseFlag _).closeEvent asked s
  cases entry : w.subject with
  | zone z =>
    rw [completeWalk_delivered (v := v) (e := .zone z) rfl]
    refine closed ?_
    have written (x : ZoneSlot) : Laws ((leaveQueue s).setZone z x) := laws.of_fewer rfl (fun _ _ hd => hd) nofun
    exact written _
  | book h =>
    rw [entry] at read_all
    obtain ⟨c, hr, checks⟩ := laws.walk.subject w h hw entry
    have at_slot := (resolve_eq_some.mp hr).2
    have fits := laws.claims.window h.slot c at_slot
    cases v with
    | some v =>
      rw [completeWalk_delivered (deliverVerdict_book_refused (s := leaveQueue s) hr v)]
      exact closed (refused_laws (d := { c with state := .refused, verdict := some v }) laws at_slot
        (.inr ⟨rfl, windowFits_of_idle rfl fits.length fits.amended⟩) nofun nofun)
    | none =>
      have wrote := placeBooking_written (s := leaveQueue s) at_slot rfl
      have writes : WritesClaim h.slot (placedClaim (leaveQueue s) c) s (placeBooking h.slot c (leaveQueue s)) :=
        ⟨(written_claimAt wrote h.slot).trans (if_pos rfl), fun j other => (written_claimAt wrote j).trans (if_neg other.symm), wrote.frame.now⟩
      rw [completeWalk_delivered (deliverVerdict_book_passed (s := leaveQueue s) hr)]
      exact closed ⟨placed_claimLaws laws hw (read_all rfl rfl) entry hr writes,
        walkLaws_of_idle (congrArg Admission.walk wrote.admission)⟩
  | amend h =>
    rw [entry] at head read_all
    obtain ⟨c, a, hr, occupying, ha⟩ := queue.amend_named (List.mem_of_mem_head? head)
    have at_slot := (resolve_eq_some.mp hr).2
    have unended := laws.claims.unended h.slot c at_slot
    have refused (r : Verdict) : Laws ((leaveQueue s).setClaim h.slot { c with amend := none, verdict := some r }) :=
      refused_laws (d := { c with amend := none, verdict := some r }) laws at_slot (.inl ⟨rfl, rfl, rfl, rfl, nofun, rfl, rfl, rfl⟩) unended id
    cases v with
    | some v =>
      rw [completeWalk_delivered (deliverVerdict_amend_refused (s := leaveQueue s) hr v)]
      exact closed (refused v)
    | none =>
      by_cases past : endedBy (amendedEnd c a) s.now = true
      · rw [completeWalk_delivered (deliverVerdict_amend_stale (s := leaveQueue s) hr ha past)]
        exact closed (refused .stale)
      · rw [completeWalk_amend_passed hr ha occupying unended past]
        have moves := passed_moves (a := a) hr occupying unended
        have writes : WritesClaim h.slot { amendedClaim c a with
            state := amendedStateOf (reshaped h (amendedClaim c a) s) c a (amendedClaim c a) } s
              (amendedState h.slot c a (reshaped h (amendedClaim c a) s)) :=
          ⟨moves.own, amended_others moves, moves.frame.now.trans (reshaped_frame (amendedClaim c a)).now⟩
        have idle := ((moves.goes.2.2 (reshaped_queueLaw (amendedClaim c a) queue head hr).2.2).1 rfl).1
        have passed : Laws (amendedState h.slot c a (reshaped h (amendedClaim c a) s)) :=
          ⟨amended_claimLaws laws hw (read_all rfl rfl) entry hr ha occupying past writes, walkLaws_of_idle idle⟩
        have removed : Laws (ungranted (grantOutside s h c.flyer a.newBox) c.flyer (amendedState h.slot c a (reshaped h (amendedClaim c a) s))) := by
          unfold ungranted
          split
          · exact (passed.removeGrant _ _).raiseFlag _
          · exact passed.raiseFlag _
        exact removed.closeEvent _ s

end Sys2Proof.Machine
end

section
/-! PROOF. The laws that keep the claims apart through the reads of the walks, and so through every step: O59 (R5, R21, R25, R36, R37, R44). -/

namespace Sys2Proof.Machine

variable {reads : Prop}

/-! ## A slot read without conflict (R36) -/

theorem beforeEnd_none (t : Nat) : beforeEnd t none = true := rfl

/-- A claim that neither overstays nor meets a candidate's time stays clear of it. -/
theorem staysClear_of_apart {now : Nat} {w : Walk} {d : Claim} (fits : WindowFits now d) (occupies : d.state.occupying = true)
    (apart : w.cand.span.meets now (d.occupancy now) = false) : staysClear now w d = true := by
  have open_yet := fits.not_ended occupies
  unfold Claim.occupancy at apart
  unfold staysClear
  cases span : w.cand.span with
  | always =>
    rw [span] at apart
    cases apart
  | fromNow =>
    rw [span] at apart
    cases stays : d.state.overstaying with
    | true =>
      rw [if_pos stays] at apart
      cases apart
    | false =>
      rw [if_neg (Bool.eq_false_iff.mp stays)] at apart
      simp only [Span.meets, Interval.overlaps, beforeEnd_none, Bool.and_true, beforeEnd_eq_false] at apart
      exact absurd ((open_yet stays).symm.trans apart) Bool.false_ne_true
  | window v =>
    rw [span] at apart
    cases stays : d.state.overstaying with
    | true =>
      rw [if_pos stays] at apart
      simp only [Span.meets, Interval.overlaps, beforeEnd_none, Bool.true_and, beforeEnd_eq_false] at apart
      simp only [apart, Bool.true_or]
    | false =>
      rw [if_neg (Bool.eq_false_iff.mp stays)] at apart
      simp only [Span.meets, Interval.overlaps, Bool.and_eq_false_iff, beforeEnd_eq_false] at apart
      rcases apart with before | after
      · have waits : now < v.lo := by
          rw [← Nat.not_le]
          intro begun
          exact Bool.false_ne_true ((open_yet stays).symm.trans (endedBy_mono before begun))
        simp only [before, waits, decide_true, Bool.true_or, Bool.and_true, Bool.or_true]
      · simp only [after, Bool.or_true, Bool.true_or]

/-- The claim in a walk's own slot is of the candidate's flyer. -/
theorem own_slot_flyer {s : State} {w : Walk} {i : Slot} {d : Claim} (candidate : s.candidateOf w.subject = some w.cand)
    (own : w.subject.slot? = some i) (hd : s.claimAt i = some d) : w.cand.flyer = some d.flyer := by
  cases entry : w.subject with
  | zone z =>
    rw [entry] at own
    cases own
  | book h =>
    rw [entry] at own candidate
    cases own
    obtain ⟨c, hc, formed⟩ := Option.map_eq_some_iff.mp candidate
    cases (resolve_eq_some.mp hc).2.symm.trans hd
    rw [← formed]
  | amend h =>
    rw [entry] at own candidate
    cases own
    obtain ⟨c, hc, amended⟩ := Option.bind_eq_some_iff.mp candidate
    obtain ⟨a, -, formed⟩ := Option.map_eq_some_iff.mp amended
    cases (resolve_eq_some.mp hc).2.symm.trans hd
    rw [← formed]
    rfl

section
variable {s : State} {w : Walk} (laws : Laws s) (hw : s.admission.walk = some w)
include laws hw

/-- What a slot's read without conflict shows of the claim in it. -/
theorem slot_stays_clear {i : Slot} {d : Claim} (clear : ¬ s.slotConflicts w i = true) (hd : s.claimAt i = some d)
    (occupies : d.state.occupying = true) (other : w.cand.flyer ≠ some d.flyer) (meets : d.region.overlaps w.cand.box = true) :
    staysClear s.now w d = true := by
  refine staysClear_of_apart (laws.claims.window i d hd) occupies (Bool.eq_false_iff.mpr fun in_time => clear ?_)
  have not_own : w.subject.slot? ≠ some i := fun own => other (own_slot_flyer (laws.walk.candidate w hw) own hd)
  unfold State.slotConflicts
  rw [hd, Option.any_some, occupies, meets, in_time, decide_eq_true not_own, decide_eq_true other]
  rfl

theorem setWalkPos_laws {p : WalkPos}
    (read : ∀ (j : Slot) (d : Claim), s.claimAt j = some d → hasReadSlot { w with pos := p } j = true → d.state.occupying = true →
      w.cand.flyer ≠ some d.flyer → d.region.overlaps w.cand.box = true → staysClear s.now w d = true) : Laws (setWalkPos w p s) where
  claims := ⟨laws.claims.window, laws.claims.unended, laws.claims.disjoint, laws.claims.inForce⟩
  walk := {
    candidate := by
      rintro w' ⟨⟩
      exact laws.walk.candidate w hw
    subject := by
      rintro w' h ⟨⟩ entry
      exact laws.walk.subject w h hw entry
    read := by
      rintro w' j d ⟨⟩ hd has_read occupies other meets
      exact read j d hd has_read occupies other meets }

variable (queue : QueueLaw s) (walk : WalkLaw s)
include queue walk

theorem readSlot_laws {i : Slot} (pos : w.pos = .claims i) : Laws (readSlot w i s) := by
  unfold readSlot
  split
  · exact completeWalk_laws _ laws hw queue walk nofun
  · next clear =>
    have read {j : Slot} {d : Claim} (hd : s.claimAt j = some d) (reached : j.val ≤ i.val) (occupies : d.state.occupying = true)
        (other : w.cand.flyer ≠ some d.flyer) (meets : d.region.overlaps w.cand.box = true) : staysClear s.now w d = true := by
      by_cases there : j = i
      · subst there
        exact slot_stays_clear laws hw clear hd occupies other meets
      · refine laws.walk.read w j d hw hd ?_ occupies other meets
        have apart : j.val ≠ i.val := fun same => there (Fin.ext same)
        have before : j.val < i.val := by omega
        unfold hasReadSlot
        rw [pos]
        exact decide_eq_true before
    split
    · next more =>
      refine setWalkPos_laws laws hw fun j d hd has_read => read hd ?_
      unfold hasReadSlot at has_read
      have before : j.val < (i + 1).val := of_decide_eq_true has_read
      have next : (i + 1).val = i.val + 1 := Fin.val_add_one_of_lt more
      omega
    · next last =>
      split
      · next zone => exact completeWalk_laws none laws hw queue walk fun _ other => absurd (other.symm.trans zone) Bool.false_ne_true
      · exact setWalkPos_laws laws hw fun j d hd _ => read hd (by have bound := j.isLt; omega)

theorem readZone_laws {z : Zone} (pos : w.pos = .zones z) : Laws (readZone w z s) := by
  have read_all (j : Slot) : hasReadSlot w j = true := by
    unfold hasReadSlot
    rw [pos]
  unfold readZone
  split
  · exact completeWalk_laws _ laws hw queue walk nofun
  · split
    · exact setWalkPos_laws laws hw fun j d hd _ => laws.walk.read w j d hw hd (read_all j)
    · exact completeWalk_laws none laws hw queue walk fun _ _ => read_all

end

/-! ## Every event (R2) -/

theorem nextPeriod_now (t : Nat) (s : State) : (nextPeriod t s).now = s.now := elapse_now (Config.periodTime - t) s

theorem hearBytes_now (ch : Flyer) (bytes : List Byte) (last : Byte) (s : State) : (hearBytes ch bytes last s).now = s.now := by
  obtain ⟨channels, heard, -⟩ := hearBytes_heard ch bytes last s
  rw [heard]
  rfl

theorem judgeHello_now (ch : Flyer) (id : Byte) (s : State) : (judgeHello ch id s).now = s.now := by
  unfold judgeHello welcomeChannel
  split
  · split <;> rfl
  · rfl

theorem answerAsk_now (f : Flyer) (target : Cell) (s : State) : (answerAsk f target s).now = s.now := by
  unfold answerAsk
  split <;> rfl

theorem EventEffect.laws {s t : State} (h : EventEffect reads s t) (laws : Laws s) (queue : QueueLaw s) (walk : WalkLaw s) :
    Laws t := by
  have elapsed (d : Nat) : Laws (elapse d s) := (elapse_untouched d s).laws (elapse_now d s) laws
  cases h with
  | none => exact laws
  | time d => exact elapsed d
  | heard ch bytes last => exact (hearBytes_untouched ch bytes last s).laws (hearBytes_now ch bytes last s) laws
  | unheard ch d => exact (setChannel_untouched _ _ _).laws rfl (elapsed d)
  | misheard | discarded | sent => exact (setChannel_untouched _ _ _).laws rfl laws
  | hello ch id =>
    exact (judgeHello_untouched ch id (dropHead ch s)).laws (judgeHello_now ch id _) ((setChannel_untouched _ _ s).laws rfl laws)
  | late ch d =>
    have late (u : State) (hu : Laws u) : Laws (lateChannel ch u) := hu.of_same rfl rfl rfl rfl
    exact late _ (elapsed d)
  | lost ch d =>
    have alerted (u : State) (hu : Laws u) : Laws (recordAlert (.lost ch) (u.setChannel ch { u.channels[ch] with state := .lost })) :=
      hu.of_same rfl rfl rfl rfl
    exact ((alerted _ (elapsed d)).removeGrant _ _).closeEvent _ _
  | leaseExpired f d => exact ((elapsed d).removeGrant _ _).closeEvent _ _
  | @asked ch x y z =>
    have taken : Laws (dropHead ch (serveChannel ch s)) := laws.of_same rfl rfl rfl rfl
    exact (answerAsk_untouched ch _ _).laws (answerAsk_now ch _ _) taken
  | @reported ch x y z flags =>
    have taken : Laws (dropHead ch (serveChannel ch s)) := laws.of_same rfl rfl rfl rfl
    have stored (u : State) (hu : Laws u) : Laws (storeReport ch (cellOf x y z) (groundedOf flags) (channelReport ch u)) :=
      hu.of_same rfl rfl rfl rfl
    exact ((stored _ taken).reportOutcome _ _ _ _).closeEvent false s
  | @slotRead w i _ hw pos =>
    have served : Untouched s (serveWalk s) := ⟨rfl, rfl, rfl, rfl, id⟩
    exact readSlot_laws (s := serveWalk s) (served.laws rfl laws) hw (served.queueLaw queue) walk pos
  | @zoneRead w z _ hw pos => exact readZone_laws laws hw queue walk pos
  | period t => exact (nextPeriod_untouched t s).laws (nextPeriod_now t s) laws
  | tickedPeriod t =>
    have moved := nextPeriod_untouched t s
    exact sourceEvent_laws (moved.laws (nextPeriod_now t s) laws) (moved.queueLaw queue)
      (.of_same (by rw [moved.admission]) (by rw [moved.admission]) moved.running walk)
  | pulse request =>
    have pulsed : Untouched s (s.setClock { s.clock with request := request, source := .external, pulseWatch := some 0 }) :=
      ⟨rfl, rfl, rfl, rfl, id⟩
    exact sourceEvent_laws (pulsed.laws rfl laws) (pulsed.queueLaw queue) walk
  | fellBack d =>
    have fell (u : State) (hu : Laws u) : Laws (fallBack u) := hu.of_same rfl rfl rfl rfl
    exact fell _ (elapsed d)
  | requestAbandoned d =>
    have gone (u : State) (hu : Laws u) : Laws (abandonRequest u) := hu.of_same rfl rfl rfl rfl
    exact gone _ (elapsed d)
  | stopLevel | ringLevel | rigLock | cellFollowed => exact laws.of_same rfl rfl rfl rfl
  | stopped =>
    have lined : Laws (setStopLine true s) := laws.of_same rfl rfl rfl rfl
    exact (takeStop_laws lined true).closeEvent false s
  | rung =>
    have lined : Laws (setRingLine true s) := laws.of_same rfl rfl rfl rfl
    exact (lined.pushHold _ _).closeEvent false s
  | backupEntry =>
    have quieted (u : State) (hu : Laws u) : Laws (setSupplyState .backup (recordEntry (quietChannels u))) := hu.of_same rfl rfl rfl rfl
    exact quieted _ (haltBlocks_laws laws)
  | returnOfMain =>
    have recorded : Laws (setSupplyState .main (recordReturn s)) := laws.of_same rfl rfl rfl rfl
    exact (restartFlags_laws (returnTimers_laws (restartBlocks_laws recorded))).beginHead
  | resetAsserted =>
    have lined : Laws (setResetLine true s) := laws.of_same rfl rfl rfl rfl
    exact restartFlags_laws (restartBlocks_laws lined)
  | resetDeasserted =>
    have lined : Laws (setResetLine false s) := laws.of_same rfl rfl rfl rfl
    exact (sampleLines_laws (startTimers_laws lined) true).beginHead
  | resetLevel v => exact laws.of_same rfl rfl rfl rfl
  | coldHeld =>
    have stopped (u : State) (hu : Laws u) : Laws (driveLines (stopTimers u)) := hu.of_same rfl rfl rfl rfl
    exact stopped _ (coldValues_laws s)
  | coldStarted =>
    have driven (u : State) (hu : Laws u) : Laws (driveLines u) := hu.of_same rfl rfl rfl rfl
    exact driven _ (sampleLines_laws (startTimers_laws (coldValues_laws s)) false).beginHead
  | poweredOff => exact powerOff_laws s
  | cellLost => exact powerOff_laws _

/-! ## Every step -/

theorem StepEffect.laws {s t : State} (h : StepEffect reads s t) (laws : Laws s) (clock : ClockLaw s) (queue : QueueLaw s) (walk : WalkLaw s) :
    Laws t := by
  have port (u : State) (sel : Select) (x : Transaction) (hu : Laws u) : Laws (u.setTx sel x) := by
    cases sel <;> exact hu.of_same rfl rfl rfl rfl
  have line (u : State) (sel : Select) (v : Bool) (hu : Laws u) : Laws (u.setSelectLow sel v) := by
    cases sel <;> exact hu.of_same rfl rfl rfl rfl
  cases h with
  | answered sel x _ _ effect => exact port _ sel x (effect.laws laws clock queue walk)
  | @opened sel => exact port _ sel .command (line s sel true laws)
  | fell sel => exact line s sel true laws
  | @rose u sel effect =>
    have shown : Laws u := by
      rcases effect with rfl | rfl | ⟨m, rfl⟩ <;> exact laws.of_same rfl rfl rfl rfl
    exact port _ sel .idle (line u sel false shown)
  | event effect => exact effect.laws laws queue walk

/-- Settles O59: a claim comes in force ACTIVE beside no overstaying claim, or OVERRUN beside none in force; two that are ACTIVE hold the same tick, so that their regions are apart because their windows are not; and the windows of claims that meet in space stay apart because a walk passes only what it has read clear. -/
theorem inForceKept : Obligations.InForceKept := by
  unfold Obligations.InForceKept
  intro s t in_force window disjoint candidate read overlap clock queue walk subject hs
  obtain ⟨rest, effect⟩ := step_effect hs
  have laws := Laws.of_obligation in_force window disjoint candidate read overlap subject
  have popped : Laws { s with pending := rest } := laws.of_same rfl rfl rfl rfl
  exact (effect.laws popped clock queue walk).to_obligation

end Sys2Proof.Machine
end
